-- ==== Sys2Proof/Word.lean ====
section
/-!
DEFINITION. The words, the index types and the plainest arithmetic of the AX9640 model. Every multi-byte field of an
in-memory structure is little-endian (R1); times are counted in Engine Time ticks of 1.25 ns (00_scope.md).
-/

namespace Sys2Proof

/-- A 32-bit register, slot or instruction word. -/
abbrev Word := BitVec 32
/-- One byte. -/
abbrev Byte := BitVec 8
/-- A 64-bit value: Engine Time, a bus address, a usage tally. -/
abbrev DWord := BitVec 64

/-- Channel 0-63. -/
abbrev Chan := Fin 64
/-- Rail slot RS0-RS15. -/
abbrev Rail := Fin 16
/-- Power domain PD0-PD11. -/
abbrev Dom := Fin 12
/-- Tooth tracker TRK0-TRK15. -/
abbrev Trk := Fin 16
/-- Command ring CQ0-CQ7. -/
abbrev Ring := Fin 8
/-- Beam station: 0 K, 1 C, 2 M, 3 Y (R386). -/
abbrev Station := Fin 4
/-- Beam of a station. -/
abbrev Beam := Fin 32
/-- An engine fed by staged bands: 0-3 the stations, 4 the photo head. -/
abbrev Engine := Fin 5
/-- Motor 0-19: steppers 0-15, BLDC channels 16-19 (R239). -/
abbrev Motor := Fin 20
/-- Loop slot 0-47. -/
abbrev LoopId := Fin 48
/-- Heater zone 0-1. -/
abbrev Zone := Fin 2
/-- GPIO0-GPIO31. -/
abbrev Gpio := Fin 32
/-- Arbiter requester A0-A15. -/
abbrev Req := Fin 16
/-- Tamp unit: decoders 0-5, encoders 6-7 (R356). -/
abbrev TampUnit := Fin 8
/-- Skid port: 0 SKID0, 1 SKID1. -/
abbrev SkidPort := Fin 2
/-- Flume identifier, 0x000-0x1B1 (R30). -/
abbrev FlumeId := Fin 434

/-- Ticks of 1.25 ns in one microsecond. -/
def us : Nat := 800
/-- Ticks of 1.25 ns in one millisecond. -/
def ms : Nat := 800000
/-- Ticks of 1.25 ns in one second. -/
def sec : Nat := 800000000

/-- Entry i of a fixed table. -/
def tget {α : Type} {n : Nat} (v : Vector α n) (i : Fin n) : α := v[i.1]
/-- The table with entry i replaced. -/
def tset {α : Type} {n : Nat} (v : Vector α n) (i : Fin n) (x : α) : Vector α n := v.set i.1 x i.2
/-- The table with entry i changed by f. -/
def tmod {α : Type} {n : Nat} (v : Vector α n) (i : Fin n) (f : α → α) : Vector α n := tset v i (f (tget v i))

/-- The nearest value inside the range lo to hi. -/
def clampN (lo hi x : Nat) : Nat := if x < lo then lo else if hi < x then hi else x
/-- The nearest integer inside the range lo to hi. -/
def clampI (lo hi x : Int) : Int := if x < lo then lo else if hi < x then hi else x
/-- Quotient rounded up. -/
def ceilDiv (a b : Nat) : Nat := (a + b - 1) / b
/-- Saturating increment of a w-bit counter. -/
def satInc {w : Nat} (c : BitVec w) : BitVec w := if c.toNat + 1 < 2 ^ w then c + 1 else c
/-- Saturating addition to a w-bit counter. -/
def satAdd {w : Nat} (c : BitVec w) (k : Nat) : BitVec w := if c.toNat + k < 2 ^ w then c + BitVec.ofNat w k else BitVec.allOnes w
/-- Bits h to l of x as a number. -/
def bitsN {w : Nat} (x : BitVec w) (h l : Nat) : Nat := (x.toNat / 2 ^ l) % 2 ^ (h + 1 - l)
/-- Bit i of x. -/
def bitB {w : Nat} (x : BitVec w) (i : Nat) : Bool := x.getLsbD i
/-- x with bit i set to b. -/
def withBit {w : Nat} (x : BitVec w) (i : Nat) (b : Bool) : BitVec w :=
  if b then x ||| BitVec.twoPow w i else x &&& ~~~(BitVec.twoPow w i)
/-- A one-bit number from a Bool. -/
def b2n (b : Bool) : Nat := if b then 1 else 0

/-- Little-endian number held in a list of bytes (R1). -/
def leNat : List Byte → Nat
  | [] => 0
  | b :: bs => b.toNat + 256 * leNat bs
/-- The n low bytes of a number, least significant first (R1). -/
def leBytes : Nat → Nat → List Byte
  | 0, _ => []
  | n + 1, x => BitVec.ofNat 8 x :: leBytes n (x / 256)
/-- n bytes of b from offset o, as a little-endian number. -/
def fieldN (b : List Byte) (o n : Nat) : Nat := leNat ((b.drop o).take n)
/-- n bytes of b from offset o. -/
def slice (b : List Byte) (o n : Nat) : List Byte := (b.drop o).take n
/-- True when n bytes of b from offset o are all 0. -/
def zeros (b : List Byte) (o n : Nat) : Bool := (slice b o n).all (· == 0)

end Sys2Proof
end

