-- ==== Sys2Proof/Syntax.lean ====
section
/-!
DEFINITION. The commands of the AX9640 block: one constructor per row of spec/opcode_table.json, in the table's order.
A command is a register access, a ring command, a frame, an event on a pin or an internal event that comes due. Operands
hold what the outside world supplies: the port and value of an access, the bytes that arrive, the sampled levels.
-/

namespace Sys2Proof

/-- How a register access reaches the controller: over PCIe (BAR0) or over the Keeper port (R13). -/
inductive Port where
  | bar0
  | keeper
deriving DecidableEq, Repr

/-- The three transports of the recovery protocol (05, Transports). -/
inductive JrpPort where
  | uart
  | i2c
  | usb
deriving DecidableEq, Repr

/-- The PLLs of R120's table. -/
inductive Pll where
  | et
  | loop
  | mem
  | pcie
  | usb
  | skid
deriving DecidableEq, Repr

/-- What SECDED finds on one access (R327, R328, R340). -/
inductive Ecc where
  | clean
  | corrected
  | uncorrectable
deriving DecidableEq, Repr

/-- One command of the block. Each constructor's comment names the rule its row cites. -/
inductive Instr where
  /-- R2: a 32-bit write of v at offset off. -/
  | regWrite (p : Port) (off : Nat) (v : Word)
  /-- R4: an access that is not a naturally aligned 32-bit access. -/
  | bar0MisalignedAccess (write : Bool) (off size : Nat) (v : DWord)
  /-- R8. -/
  | glbLockSet
  /-- R2: GLB_FLMIN.CLR. -/
  | flumeMinClear
  /-- R147. -/
  | etLoRead
  /-- R129. -/
  | trkAnchorLoRead (t : Trk)
  /-- R23: one returned tally of flume f becomes usable. -/
  | tallyUsable (f : FlumeId)
  /-- R20. -/
  | producerPushResume (f : FlumeId)
  /-- R670. -/
  | aonPorAssert
  /-- R89: the strap levels latched at the release (R48). -/
  | aonPorRelease (ord : BitVec 3) (role recovN kpMode kpAddr testEn : Bool)
  /-- R182. -/
  | keeperCheckDone
  /-- R120. -/
  | xtalStable
  /-- R77. -/
  | domainSwitchStart
  /-- R78. -/
  | domainGood (d : Dom)
  /-- R78. -/
  | domainTimeout (d : Dom)
  /-- R122. -/
  | pllLockLost (p : Pll)
  /-- R79. -/
  | railDlyExpire (n : Rail)
  /-- R80. -/
  | railGood (n : Rail)
  /-- R82. -/
  | railSswExpire (n : Rail)
  /-- R81. -/
  | railOvercurrent (n : Rail)
  /-- R83. -/
  | railCoolExpire (n : Rail)
  /-- R85: oc says the drop is by over-current. -/
  | railDrop (n : Rail) (oc : Bool)
  /-- R93. -/
  | collapseStep
  /-- R92. -/
  | graceExpire
  /-- R92. -/
  | orderlyTakedownStep
  /-- R92. -/
  | offWindowExpire
  /-- R108: AON_SEQ_CMD 0x1. -/
  | enginesUp (p : Port)
  /-- R96: AON_SEQ_CMD 0x2. -/
  | enginesDown (p : Port)
  /-- R95: AON_SEQ_CMD 0x3. -/
  | seqOff (p : Port)
  /-- R92: AON_SEQ_CMD 0x4. -/
  | offAck (p : Port)
  /-- R109: AON_SEQ_CMD 0x5. -/
  | retry (p : Port)
  /-- R111: AON_SEQ_CMD 0x7 with ITEM. -/
  | itemUp (p : Port) (item : BitVec 5)
  /-- R112: AON_SEQ_CMD 0x8 with ITEM. -/
  | itemDown (p : Port) (item : BitVec 5)
  /-- R108: a code neither table lists. -/
  | seqBadCmd (p : Port) (code : BitVec 4)
  /-- R97. -/
  | btnPress
  /-- R98. -/
  | btnRelease
  /-- R98. -/
  | btnLong
  /-- R99. -/
  | btnCut
  /-- R101. -/
  | mrstAssert
  /-- R64. -/
  | mrstRelease
  /-- R615. -/
  | pfwNFall
  /-- R102. -/
  | pfwCollapse
  /-- R102. -/
  | vsenseCollapse
  /-- R104. -/
  | vsenseArm
  /-- R107. -/
  | collapseRecovery
  /-- R59. -/
  | safeNFall
  /-- R60. -/
  | safeNRecognised
  /-- R65. -/
  | safeNRise
  /-- R62: the value of AON_SAFE.ASSERT written. -/
  | safeAssert (p : Port) (on : Bool)
  /-- R65. -/
  | safeRelease (p : Port)
  /-- R70: core k issues no instruction for 2 us. -/
  | heartbeatLost (k : Fin 8)
  /-- R595: die conversions in 0.25 degC (signed) and thermistor counts, larger hotter. -/
  | thermalConversion (die : Vector (BitVec 16) 9) (th : Vector (BitVec 12) 8)
  /-- R183. -/
  | bootOk (p : Port)
  /-- R184. -/
  | bootTimeout
  /-- R184. -/
  | bootRestart (p : Port)
  /-- R190. -/
  | imageAbort (p : Port)
  /-- R162. -/
  | ldieDone (p : Port)
  /-- R687: the value written to BOOT_LOAD_CTL with GO. -/
  | imageLoadGo (p : Port) (v : Word)
  /-- R177: none is a failed bus-master read. -/
  | imageBlockArrive (data : Option (List Byte))
  /-- R176. -/
  | imageLoadComplete
  /-- R193. -/
  | rbAdvance (p : Port)
  /-- R196. -/
  | otpProg (p : Port)
  /-- R164. -/
  | coverClose
  /-- R166. -/
  | sheetClearStart
  /-- R166. -/
  | sheetClearCancel
  /-- R170. -/
  | sheetClearEnd
  /-- R202. -/
  | jrpHello (j : JrpPort) (frame : List Byte)
  /-- R202. -/
  | jrpSetBaud (j : JrpPort) (frame : List Byte)
  /-- R619. -/
  | jrpLogRead (j : JrpPort) (frame : List Byte)
  /-- R13. -/
  | jrpRegRead (j : JrpPort) (frame : List Byte)
  /-- R13. -/
  | jrpRegWrite (j : JrpPort) (frame : List Byte)
  /-- R180. -/
  | imgBegin (j : JrpPort) (frame : List Byte)
  /-- R204. -/
  | imgData (j : JrpPort) (frame : List Byte)
  /-- R205. -/
  | imgEnd (j : JrpPort) (frame : List Byte)
  /-- R190. -/
  | imgAbort (j : JrpPort) (frame : List Byte)
  /-- R184. -/
  | jrpReset (j : JrpPort) (frame : List Byte)
  /-- R200. -/
  | jrpBadCmd (j : JrpPort) (frame : List Byte)
  /-- R197. -/
  | jrpUartGap
  /-- R197. -/
  | jrpBaudRevert
  /-- R295: the 64-byte entry of ring r. -/
  | cmdNop (r : Ring) (e : List Byte)
  /-- R218. -/
  | cmdArm (r : Ring) (e : List Byte)
  /-- R219: none is a failed read of the entry. -/
  | armEntryArrive (data : Option (List Byte))
  /-- R222: none is a failed read of the program. -/
  | armProgramArrive (data : Option (List Byte))
  /-- R225: wbOk says whether the statistics write-back succeeds (R227). -/
  | cmdDisarm (r : Ring) (e : List Byte) (wbOk : Bool)
  /-- R228. -/
  | cmdRefresh (r : Ring) (e : List Byte)
  /-- R229. -/
  | refreshSwap
  /-- R294. -/
  | cmdMail (r : Ring) (e : List Byte)
  /-- R564. -/
  | cmdPlan (r : Ring) (e : List Byte)
  /-- R564: none is a failed read of the plan. -/
  | planArrive (data : Option (List Byte))
  /-- R589. -/
  | cmdPageAbort (r : Ring) (e : List Byte)
  /-- R295. -/
  | cmdBad (r : Ring) (e : List Byte)
  /-- R287: the value written to HOST_CQ_CFG. -/
  | cqEnable (r : Ring) (v : Word)
  /-- R290. -/
  | cqReadError (r : Ring)
  /-- R296: the value written to HOST_CPQ_CFG. -/
  | cpqEnable (v : Word)
  /-- R297. -/
  | cpqRecordWrite
  /-- R304. -/
  | msixCoalTimeout (vec : Fin 32)
  /-- R310: the value written to HOST_RECOVER with GO. -/
  | recover (v : Word)
  /-- R315. -/
  | recoverRecord
  /-- R307. -/
  | perstAssert
  /-- R308. -/
  | perstRelease
  /-- R339: x is the BAR2 offset. -/
  | bar2Write (x : Nat) (data : List Byte)
  /-- R340: ecc is what SECDED finds. -/
  | bar2Read (x n : Nat) (ecc : Ecc)
  /-- R213: gpio are the sampled GPIO levels. -/
  | blockedInstructionResume (c : Chan) (gpio : Word)
  /-- R250. -/
  | illegalOpcode (c : Chan)
  /-- R251. -/
  | nop (c : Chan)
  /-- R254. -/
  | jmp (c : Chan)
  /-- R254. -/
  | jcc (c : Chan)
  /-- R255. -/
  | call (c : Chan)
  /-- R207. -/
  | ret (c : Chan)
  /-- R254. -/
  | loop (c : Chan)
  /-- R275. -/
  | halt (c : Chan)
  /-- R249. -/
  | ldi (c : Chan)
  /-- R249. -/
  | ldh (c : Chan)
  /-- R249. -/
  | mov (c : Chan)
  /-- R208. -/
  | movFlagsRead (c : Chan)
  /-- R208. -/
  | movFlagsWrite (c : Chan)
  /-- R259. -/
  | movStatus (c : Chan)
  /-- R257. -/
  | add (c : Chan)
  /-- R257. -/
  | sub (c : Chan)
  /-- R257. -/
  | and (c : Chan)
  /-- R257. -/
  | or (c : Chan)
  /-- R257. -/
  | xor (c : Chan)
  /-- R257. -/
  | shl (c : Chan)
  /-- R257. -/
  | shr (c : Chan)
  /-- R257. -/
  | cmp (c : Chan)
  /-- R258. -/
  | ldm (c : Chan)
  /-- R258. -/
  | stm (c : Chan)
  /-- R213. -/
  | waitet (c : Chan)
  /-- R276. -/
  | waitth (c : Chan)
  /-- R22. -/
  | waitev (c : Chan)
  /-- R267. -/
  | atPfx (c : Chan)
  /-- R267. -/
  | atthPfx (c : Chan)
  /-- R253. -/
  | push (c : Chan)
  /-- R253. -/
  | pop (c : Chan)
  /-- R271. -/
  | take (c : Chan)
  /-- R273. -/
  | give (c : Chan)
  /-- R263. -/
  | move (c : Chan)
  /-- R451. -/
  | movx (c : Chan)
  /-- R268. -/
  | setp (c : Chan)
  /-- R471. -/
  | ramp (c : Chan)
  /-- R468. -/
  | loopon (c : Chan)
  /-- R491. -/
  | loopoff (c : Chan)
  /-- R387. -/
  | fire (c : Chan)
  /-- R514. -/
  | strobe (c : Chan)
  /-- R542. -/
  | scanl (c : Chan)
  /-- R277. -/
  | sig (c : Chan)
  /-- R252. -/
  | fence (c : Chan)
  /-- R570: gpio are the sampled GPIO levels. -/
  | commitAdmit (c : Chan) (gpio : Word)
  /-- R279. -/
  | commitDone (c : Chan)
  /-- R280. -/
  | abort (c : Chan)
  /-- R610. -/
  | log (c : Chan)
  /-- R281. -/
  | trap (c : Chan)
  /-- R140. -/
  | wheelDispatch
  /-- R134. -/
  | guardOpen
  /-- R128: the filter accepts an edge of tracker t; its timestamp is ET - FILT (R125). -/
  | trkEdge (t : Trk)
  /-- R129. -/
  | trkSynthInsert (t : Trk)
  /-- R152: the value written to TRK_CFG with EN 1. -/
  | trkEnable (t : Trk) (v : Word)
  /-- R150. -/
  | trkDisable (t : Trk)
  /-- R152. -/
  | trkRearm (t : Trk)
  /-- R152. -/
  | trkReacq (t : Trk)
  /-- R323. -/
  | memInit
  /-- R323: none is success; otherwise the rank and the failing step (R688). -/
  | memTrainingDone (fail : Option (Byte × Byte))
  /-- R342: the requests presented in this cycle, and what ECC finds on the granted access at addr. -/
  | arbRound (reqs : BitVec 16) (addr : Nat) (read : Bool) (ecc : Ecc)
  /-- R345. -/
  | quotaWindowEnd (n : Req)
  /-- R346. -/
  | arbReferenceWindow
  /-- R331. -/
  | memRefresh
  /-- R331: the multiplier code MR4 calls for. -/
  | mr4Poll (mult : BitVec 2)
  /-- R334: the value written to MEM_CPY_CTL with GO. -/
  | memCopyGo (v : Word)
  /-- R335: the host bytes read (host to local); none is a failed or poisoned read after the given number of bytes. -/
  | memCopyDone (data : List Byte) (ok : Bool)
  /-- R351. -/
  | arbSnap
  /-- R352: the value written to MEM_ARB_CTL with LOAD. -/
  | arbPresetLoad (v : Word)
  /-- R338: word 0 or 1 of reservation n. -/
  | landResWrite (n : Fin 10) (word : Bool) (v : Word)
  /-- R358: the fetcher of decoder u; poison says a read was poisoned. -/
  | bandFetch (u : Fin 6) (poison : Bool)
  /-- R365. -/
  | tampDecodeBlock (u : Fin 6) (poison : Bool)
  /-- R373. -/
  | tampEncodeBlock (e : Fin 2) (poison : Bool)
  /-- R382. -/
  | tampGenGo
  /-- R383. -/
  | tampGenDone
  /-- R398: the descriptor copied; none is a failed read. -/
  | bandStage (g : Engine) (desc : Option (List Byte))
  /-- R398. -/
  | bandCheckDone (g : Engine)
  /-- R390. -/
  | bdWindowExpire (n : Station)
  /-- R403: ecc is what SECDED finds on the line read. -/
  | beamLineStart (n : Station) (b : Beam) (ecc : Ecc)
  /-- R404. -/
  | bandRelease (n : Station)
  /-- R405: the photodiode code read. -/
  | apcSample (n : Station) (b : Beam) (pd : BitVec 12)
  /-- R407. -/
  | apcOvp (n : Station) (b : Beam)
  /-- R410. -/
  | calTimeout (n : Station)
  /-- R415. -/
  | beamOn (n : Station)
  /-- R415. -/
  | beamOff (n : Station)
  /-- R415. -/
  | beamRecal (n : Station)
  /-- R429. -/
  | segmentTakeup (m : Motor)
  /-- R430: ti are the sampled levels of TI0-TI11. -/
  | trajectoryUpdate (ti : BitVec 12)
  /-- R428. -/
  | motOvercurrent (m : Motor)
  /-- R446. -/
  | bldcStall (k : Fin 4)
  /-- R446. -/
  | hallFault (k : Fin 4)
  /-- R452: code is HA, HB, HC after the edge. -/
  | hallEdge (k : Fin 4) (code : BitVec 3)
  /-- R449. -/
  | motStop (m : Motor)
  /-- R448. -/
  | motClr (m : Motor)
  /-- R450. -/
  | motSetpos (n : Fin 16)
  /-- R464: the sampled input in counts. -/
  | loopSample (l : LoopId) (m : BitVec 16)
  /-- R463. -/
  | loopOutput (l : LoopId)
  /-- R475. -/
  | hvIlim (l : LoopId)
  /-- R478. -/
  | hvCoolExpire (l : LoopId)
  /-- R484. -/
  | zeroCrossing
  /-- R484. -/
  | heaterBurst (z : Zone)
  /-- R486: the raw thermistor conversions. -/
  | fuserCheck (raw : Vector (BitVec 12) 8)
  /-- R480. -/
  | loopClr (l : LoopId)
  /-- R491. -/
  | loopOff (l : LoopId)
  /-- R506: ecc is what SECDED finds on the line read. -/
  | headSlotLatch (ecc : Ecc)
  /-- R507. -/
  | headGroupSlot
  /-- R518. -/
  | headLineEnd
  /-- R510: the raw conversion of HD_TH. -/
  | headTempConvert (raw : BitVec 12)
  /-- R528. -/
  | headOn
  /-- R528. -/
  | headOff
  /-- R537. -/
  | scanExposureEnd
  /-- R537: the kept samples of each segment. -/
  | scanLineEnd (samples : List (List (BitVec 16)))
  /-- R548. -/
  | scanRawWrite
  /-- R547. -/
  | scanBufPush
  /-- R556. -/
  | scanOn
  /-- R557. -/
  | scanOff
  /-- R552. -/
  | scanCal
  /-- R552: per segment the samples of the dark, red, green and blue lines. -/
  | scanCalComplete (dark red green blue : List (List (BitVec 16)))
  /-- R584. -/
  | pageAbortComplete (adm : Word)
  /-- R578. -/
  | sheetRecordStage
  /-- R587. -/
  | jamDetect (g : Gpio)
  /-- R588: gpio are the sampled GPIO levels. -/
  | jamlatchClear (gpio : Word)
  /-- R608. -/
  | nvWrite
  /-- R613. -/
  | logRecordCommit
  /-- R620: the value written to AON_LOGRD_SEQ. -/
  | logReadout (p : Port) (v : Word)
  /-- R621: the value written to AON_LOGX_CTL with GO. -/
  | logExport (p : Port) (v : Word)
  /-- R623. -/
  | logExportDone
  /-- R635. -/
  | skidEnum
  /-- R635: ENUM carrying number d, received on port q. -/
  | enumFrame (q : SkidPort) (d : BitVec 4) (mgrEt : DWord) (epoch : BitVec 16)
  /-- R635. -/
  | enumLinkWaitExpire
  /-- R636: END or a refusal coming back upstream: ERR code, the number of the last device. -/
  | enumReply (err : BitVec 3) (n : BitVec 3)
  /-- R636. -/
  | enumTimeout (replied : BitVec 3)
  /-- R637. -/
  | noManager
  /-- R650. -/
  | heartbeatSend
  /-- R650: heartbeat number k. -/
  | heartbeatFrame (k : Nat) (running : List (BitVec 9))
  /-- R650. -/
  | echoFrame (d : Fin 8) (k : Nat)
  /-- R651. -/
  | heartbeatMiss
  /-- R651. -/
  | echoMiss (d : Fin 8)
  /-- R640: the manager's ET with the measured delay added, in 1/16 tick. -/
  | tsyncFrame (et16 : Nat)
  /-- R641. -/
  | tsyncAcquired
  /-- R653. -/
  | cPartClear
  /-- R632. -/
  | skidAckFrame (q : SkidPort)
  /-- R632. -/
  | skidAckTimeout (q : SkidPort)
  /-- R634. -/
  | skidPortRetrain (q : SkidPort)
  /-- R643: a forwarded 64-byte command. -/
  | skidCmdFrame (e : List Byte)
  /-- R644: worker d's 32-byte record. -/
  | skidRecordFrame (d : Fin 8) (rec : List Byte)
  /-- R646. -/
  | skidSigFrame (src target : BitVec 9) (code : Byte) (payload : Word)
  /-- R648: worker d's read of n bytes at addr (the data it gives, none if it fails), or its write of data. -/
  | skidBusmasterFrame (d : Fin 8) (write : Bool) (addr : DWord) (n : Nat) (data : Option (List Byte))
  /-- R649: the value written to SKID_WIN_CTL with GO. -/
  | skidWinGo (v : Word)
  /-- R649. -/
  | skidWinFrame (write : Bool) (off : Nat) (v : Word)
  /-- R657. -/
  | skidRecoverFrame (epoch : BitVec 16) (disarm discard : Bool)
  /-- R657. -/
  | skidRecoverDone (d : Fin 8)
  /-- R655: the forwarded sequencer command code. -/
  | skidPowerFrame (code : BitVec 4)
  /-- R655. -/
  | skidOffReport (d : Fin 8)
  /-- R655. -/
  | workerOffTimeout
  /-- R2: a read of the RC register at offset off. -/
  | rcFieldRead (p : Port) (off : Nat)
  /-- R214. -/
  | cueUncorrectableEcc (k : Fin 8)
  /-- R634: the partner signal of port q appears (true) or vanishes. -/
  | skidPartnerSignal (q : SkidPort) (present : Bool)
  /-- R635. -/
  | skidLanesAligned (q : SkidPort)
  /-- R649. -/
  | skidWinReply (data : Word) (err : Byte)
  /-- R620. -/
  | logReadoutDone
deriving DecidableEq, Repr

end Sys2Proof
end

