-- ==== Sys2Proof/Decode.lean ====
section
/-!
DEFINITION. The command a word spells. No row of spec/opcode_table.json gives bits: the commands of this block are
register accesses, frames, ring entries and events, and none of them is a word. So no word spells a command.
-/

namespace Sys2Proof

/-- The command that w spells in nbits bits: none, since the table gives no row any bits. -/
def decodeTableWord (_nbits _w : Nat) : Option Instr := none

end Sys2Proof
end

