-- ==== Sys2Proof/Config.lean ====
section
/-!
DEFINITION. What one implementation fixes and what the spec leaves open. Every constant here is opaque: it has no body,
so no proof can use a value of it (assumption log: 3, 4, 5).
-/

namespace Sys2Proof.Config

/-- Metal-fix number of GLB_ID (R9): fixed per release of the part. -/
opaque metalFix : Byte
/-- Header of the manager's active Keeper, as a worker meets it in the chain whose PD11 came on at instant t (R185, log 60). -/
opaque managerKeeper : Nat → List Byte
/-- The value number k the spec leaves open, as a 32-bit word; State.freeCount says which is next. -/
opaque freeWord : Nat → Word
/-- Log codes of events the spec logs without giving a code: 0 OFF_SLOW (R92), 1 SC_CANCEL (R166), 2 NO_MANAGER (R637),
3 the outcome of an enumeration (R638). -/
opaque logCode : Nat → BitVec 16
/-- ERR of an image operation abandoned under R190, for which the spec names no status. -/
opaque abandonErr : Byte
/-- tRFC in ns for density codes 0 and 1 of MEM_CFG.DENS, which the spec does not give (R348). -/
opaque trfcNs : Nat → Nat
/-- Entry k of the 1,024-entry sine table of R427, of which the spec gives no entry; the cosine lies 256 entries on (log 4). -/
opaque sineTable : Nat → Int
/-- Offsets of the cycles taken by DQS tracking in a reference window, at most 64 of which count (R332, log 69). -/
opaque dqsCycles : Nat → List Nat
/-- Ticks from the issue at instant t of an untimed SETP to the change of ball g, of which R268 fixes only the bound (log 74). -/
opaque gpioDelay : Nat → Nat → Nat
/-- Phase of the PWM of HV gate m, in ticks (R465, R474; log 65). -/
opaque pwmPhase : Nat → Nat
/-- Ticks from instant t to the next PWM period of BLDC k, whose frequency the spec does not give (R465; log 65). -/
opaque bldcPwm : Nat → Nat → Nat
/-- The phase (0 U, 1 V, 2 W) whose high side a BLDC motor drives at a direction and a Hall code HA-HC, and whether the next phase
or the one after it is low; the spec gives no table of the six steps (R452; log 67). -/
opaque sixStep : Bool → Nat → Nat × Bool

/-- Code lengths an encoder gives to the literal/length and distance symbols it has counted (R373: only their validity
under R368 is fixed). A choice that R368 forbids is not used (Machine/Tamp.lean). -/
opaque tampLens : List Nat → List Nat → List Nat × List Nat
/-- Length tokens, with their extra bits, an encoder sends for a list of code lengths (R366). -/
opaque tampTokens : List Nat → List (Nat × Nat)

end Sys2Proof.Config
end

