-- ==== Sys2Proof/Machine/State.lean ====
section
/-!
DEFINITION. The state of the AX9640 as plain data: every register, flume, queue, counter, mode and pin the spec gives the
block, grouped by the island that holds it (R14), the queue of waiting commands, and the state after reset.
-/

namespace Sys2Proof.Machine

/-- Sparse memory: (address, byte) pairs, addresses strictly rising, no listed byte equal to 0, which is what an
unlisted address reads as (log 6). -/
abbrev Mem := List Host.Cell

/-! ## Flumes, records and waiting producers (01, 08) -/

/-- Control of one flume (R17-R29). `ret` tallies are returned but still crossing to the producer (R23). -/
structure Flume where
  depth : Nat
  tally : Nat
  ret : Nat
  down : Bool
  minTally : Nat
  zero : Bool
deriving DecidableEq, Repr

/-- A completion record but for its PHASE bit (R301). -/
structure Rec where
  kind : Nat
  epoch : BitVec 16
  src : BitVec 16
  status : Byte
  xb : Byte
  et : DWord
  body : List Byte
deriving DecidableEq, Repr

/-- Which entries of the staging flume a record holds (R31). -/
inductive StgClass where
  | general
  | own
  | worker (d : Fin 8)
  /-- On a worker: a discarded record whose frame is still to be acknowledged; its entry has been freed (R314, R657). -/
  | gone
deriving DecidableEq, Repr

/-- A record in the completion staging flume; `aon` marks one that also holds an entry of flume 0x1A1. -/
structure StgEntry where
  rcd : Rec
  cls : StgClass
  aon : Bool
deriving DecidableEq, Repr

/-- Where a record without a free staging entry waits (R690). -/
inductive Waiter where
  | action (c : Chan) (id : Nat)
  | chan (c : Chan)
  | decoder
  | latch (source code : Nat) (count : BitVec 16)
  | event
  | sheet
  /-- A record that worker d forwarded; its frame is acknowledged when it is staged (R644). -/
  | worker (d : Fin 8)
deriving DecidableEq, Repr

/-- A waiting record and the instant of its creation; the list of them is in the order of creation (R690). -/
structure Waiting where
  rcd : Rec
  by_ : Waiter
  since : Nat
deriving DecidableEq, Repr

/-- An AON event: code, occurrence count, the data of the first occurrence (R25, R686) and its instant (R26). -/
structure AonEvent where
  code : Nat
  count : BitVec 16
  d0 : Word
  d1 : Word
  since : Nat
deriving DecidableEq, Repr

/-- A channel event: upper half, code, payload (R276, R688). -/
structure ChEvent where
  upper : BitVec 16
  code : BitVec 16
  payload : Word
deriving DecidableEq, Repr

/-- A pending latch of a channel's hardware event: its source, the instant of the first occurrence, and the event, whose
upper half counts the occurrences (R25, R26). -/
structure EvLatch where
  src : Nat
  since : Nat
  ev : ChEvent
deriving DecidableEq, Repr

/-- A log record before its SEQ is given (R611). -/
structure LogEntry where
  stream : Fin 4
  code : BitVec 16
  src : BitVec 16
  et : DWord
  aont : Word
  d0 : Word
  d1 : Word
deriving DecidableEq, Repr

/-- A pending latch of a log record: its source, how often the code has occurred, the instant and the record of the first
occurrence (R25, R26). The layout of R611 has no place for the count. -/
structure LogLatch where
  src : Nat
  count : BitVec 16
  since : Nat
  entry : LogEntry
deriving DecidableEq, Repr

/-- One command taken from a ring and still in progress: what its CMD record needs (R301, R313). -/
structure CmdReq where
  opc : Nat
  chanField : BitVec 9
  tag : Word
  arg : DWord
  epoch : BitVec 16
  wbOk : Bool
deriving DecidableEq, Repr

/-- A frame of the skid link, as the spec names its kinds (18). -/
inductive Frame where
  | enum (d : BitVec 4) (et : DWord) (epoch : BitVec 16)
  | enumEnd (err : BitVec 3) (n : BitVec 3)
  | heartbeat (k : Nat) (running : List (BitVec 9))
  | echo (d : Fin 8) (k : Nat)
  | tsync (et16 : Nat)
  | cmd (d : Fin 8) (e : List Byte)
  | record (d : Fin 8) (bytes : List Byte)
  | sig (src target : BitVec 9) (code : Byte) (payload : Word)
  | bus (d : Fin 8) (write : Bool) (addr : DWord) (n : Nat) (data : List Byte)
  | busReply (d : Fin 8) (data : Option (List Byte))
  | win (d : Fin 8) (write : Bool) (off : Nat) (v : Word)
  | winReply (v : Word) (err : Byte)
  | recover (d : Fin 8) (epoch : BitVec 16) (disarm discard : Bool)
  | recoverDone (d : Fin 8)
  | power (d : Fin 8) (code : BitVec 4)
  | offReport (d : Fin 8)
  | image (d : Fin 8) (bytes : List Byte)
  | ack
deriving DecidableEq, Repr

/-- What leaves the device and is not the level of a pin. -/
inductive Output where
  /-- The data a register read returns. -/
  | readData (v : Word)
  /-- The data a BAR2 read returns, and whether its completion is poisoned (R340). -/
  | bar2Data (data : List Byte) (poison : Bool)
  /-- A posted write to host memory. -/
  | hostWrite (addr : Nat) (data : List Byte)
  /-- A bus-master read of host memory (R236): address and bytes. What it returns, or that it failed, is another command's. -/
  | hostRead (addr n : Nat)
  /-- A failed bus-master read logged through AER (R284). -/
  | aer
  /-- An MSI-X message (R304). -/
  | msix (vec : Fin 32)
  /-- A JRP response frame (R200). -/
  | jrp (j : JrpPort) (frame : List Byte)
  /-- A frame sent on a skid port. -/
  | skid (q : SkidPort) (f : Frame)
  /-- Laser pulses of one beam's line: start and end of each, in 1/16,384 tick from the scan reference E (R391, R396). -/
  | pulses (n : Station) (b : Beam) (e : Nat) (list : List (Nat × Nat))
  /-- Beam b lit at its drive current for an APC sample: the ET at which the 400 ticks start (R392, R410). -/
  | apcLight (n : Station) (b : Beam) (idrv : BitVec 12) (at_ : Nat)
  /-- What the eight lanes shift from ET start on: bit i of a lane is its i-th element, one each clock period (R503). -/
  | headShift (start : Nat) (lanes : List Nat)
  /-- The strobes driven high in one group slot and for how many ticks (R507). -/
  | strobes (mask : BitVec 8) (w : Nat)
  /-- A heater burst: pulse pairs, width in us (R484). -/
  | heater (z : Zone) (pairs width : Nat)
  /-- Microsteps made by a stepper (R430, R541). -/
  | usteps (n : Fin 16) (count : Int)
  /-- Where the events of a trajectory update lie: instants, and signed steps of the level in use (R430, R433). -/
  | ustepTimes (n : Fin 16) (list : List (Nat × Int))
  /-- CIS_SI pulse of one clock (R537). -/
  | cisSi
  /-- DDR refresh command (R331). -/
  | refresh
deriving DecidableEq, Repr

/-! ## PD0: sequencer, supervisor, boot, thermal watch, NV store (02, 03, 05, 17) -/

/-- State code of a rail slot (AON_RAILn_STAT). -/
inductive RailSt where
  | off
  | wait
  | delay
  | soft
  | good
  | fault
  | cool
  | down
deriving DecidableEq, Repr

/-- One rail slot: its four registers and the instant its state was entered. -/
structure RailS where
  mask : BitVec 28
  offw : BitVec 8
  ssw : BitVec 8
  dly : BitVec 4
  csEn : Bool
  stage : Bool
  en : Bool
  cool : BitVec 8
  retry : BitVec 2
  offSlow : Bool
  cause : BitVec 3
  tries : BitVec 3
  st : RailSt
  since : Nat
deriving DecidableEq, Repr

/-- State code of a domain (AON_DOMn_STAT). -/
inductive DomSt where
  | off
  | wait
  | switch
  | good
  | fault
deriving DecidableEq, Repr

/-- One power domain: AON_DOMn_CFG, AON_DOMn_STAT and the instant its switch started. -/
structure DomS where
  need : BitVec 16
  stage : Bool
  en : Bool
  st : DomSt
  since : Nat
  /-- Instants at which the domain last came out of reset, and last left the on state or entered reset. -/
  upAt : Nat
  downAt : Nat
deriving DecidableEq, Repr

/-- Power state code (03, Power states). -/
inductive PwrSt where
  | off
  | risingA
  | onA
  | risingB
  | onB
  | fallingB
  | falling
  | collapse
deriving DecidableEq, Repr

/-- Where an orderly take-down stands (R92). -/
inductive Phase where
  /-- Host grace running since the instant given. -/
  | grace (since : Nat)
  /-- Waiting for the aborts of step 3, and for the workers (R655), since the instant given. -/
  | aborts (since : Nat)
  /-- Taking items down; a rail in state DOWN awaits the fall of its PG (R92 step 5). -/
  | items
deriving DecidableEq, Repr

/-- A take-down in progress. `todo` are the item indices still to go down, first first (0-15 rails, 17-27 domains). -/
inductive Form where
  | none
  | orderly (ph : Phase) (todo : List Nat) (cause : BitVec 3)
  | enginesDown (ph : Phase) (todo : List Nat)
  | itemDown (ph : Phase) (todo : List Nat)
  | collapse (todo : List Nat) (last : Option Nat)
deriving DecidableEq, Repr

/-- A take-down of the dependents of one failed item (R78, R85): the items still to go down, and the instant of the failure or
of the last item, from which the next 50 us count. -/
structure PartDown where
  todo : List Nat
  last : Nat
deriving DecidableEq, Repr

/-- A recognised press of the power button (R97-R99, R164). -/
structure Press where
  start : Nat
  atState : PwrSt
  long : Bool
  cut : Bool
  covers : Nat
deriving DecidableEq, Repr

/-- Sheet clear (R164-R171): idle, chord waiting since the release, or the routine running since its start. -/
inductive SheetClear where
  | idle
  | chord (since : Nat)
  | running (since : Nat)
deriving DecidableEq, Repr

/-- The sequencer, SAFE_n, the button and MRST_n. -/
structure Aon where
  /-- AON power-on reset asserted (R670). -/
  por : Bool
  /-- Instant of the last release; AONT counts from it (R611). -/
  porAt : Nat
  /-- MRST_n is low. -/
  mrst : Bool
  strap : Byte
  relFail : Bool
  cBeat : Bool
  cPart : Bool
  cTherm : Bool
  cSw : Bool
  cExt : Bool
  cRst : Bool
  assert_ : Bool
  hold : Bool
  /-- Level of SAFE_n as another agent drives it: true when nobody else pulls it low. -/
  safeHigh : Bool
  /-- Instant SAFE_n fell below VIL, while a low is being counted (R59). -/
  safeLowAt : Option Nat
  /-- The present low has been recognised. -/
  safeSeen : Bool
  /-- End of the last recognised low pulse. -/
  safeRiseAt : Nat
  /-- Last instant at which DRIVE was 1. -/
  driveEnd : Nat
  /-- Release of AON power-on reset or of MRST_n (R65). -/
  resetExit : Nat
  livePart : Bool
  /-- Heartbeat loss detected while PD3 is on, until PD3 is next reset (R71). -/
  liveBeat : Bool
  /-- Items whose latched fault took PD3 down (R71, second case). -/
  beatMask : BitVec 28
  seqState : PwrSt
  offCause : BitVec 3
  cmdErr : BitVec 3
  stall : Bool
  faults : BitVec 28
  rails : Vector RailS 16
  doms : Vector DomS 12
  /-- Started items with their start instants, in start order (R79). -/
  started : List (Nat × Nat)
  form : Form
  /-- Take-downs after drops and domain faults; they run beside the form (R96). -/
  parts : List PartDown
  /-- Items a RETRY took in and that are not yet settled (R109). -/
  retryIn : List Nat
  /-- Item of an ITEM_UP in progress (R111). -/
  upItem : Option Nat
  /-- Rails on a retry of their own after COOL, outside a raise and a command (R83). -/
  ownIn : List Nat
  /-- The crystal is stable (R120). -/
  xtalOk : Bool
  pfwLow : Bool
  /-- Instant of the last fall of PFW_n (R102, R107). -/
  pfwAt : Nat
  /-- VSENSE24 has stayed below VS_LOW since it was last armed (R102), and the instant that was found. -/
  vsBelow : Bool
  vsLowAt : Nat
  vsArmed : Bool
  /-- Start of the 100 ms count of R104: the last disarm. -/
  disarmAt : Nat
  /-- A collapse has ended in OFF and R107 has not yet been met. -/
  awaitRecovery : Bool
  press : Option Press
  btnLow : Bool
  autoOn : Bool
  cutS : BitVec 5
  longS : BitVec 5
  vsEn : Bool
  vsLow : BitVec 8
  grace : BitVec 8
  scDir : BitVec 16
  scMask : BitVec 16
  scCur : BitVec 8
  scSpmm : BitVec 12
  sheet : SheetClear
  retain : BitVec 16
  shadowValid : BitVec 16
  irest : BitVec 8
  shadow : Vector Word 16
  usage : Vector DWord 8
  pages : DWord
  /-- Pending latches of AON events, in order of first occurrence (R37). -/
  latches : List AonEvent
  /-- Records lost since the last RECOVER record (R316). -/
  lost : Bool
  /-- Workers that have not yet reported OFF (R655). -/
  waitWorkers : BitVec 8
deriving DecidableEq, Repr

/-- One die sensor (R596). -/
structure Sensor where
  failed : Bool
  valid : Bool
  temp : BitVec 16
  bad : Nat
deriving DecidableEq, Repr

/-- One board thermistor (R599). -/
structure Therm where
  limit : BitVec 12
  valid : Bool
  count : BitVec 12
  above : Bool
deriving DecidableEq, Repr

/-- The thermal watch (17). -/
structure Thermal where
  hys : BitVec 4
  shut : Byte
  thr : Byte
  warn : Byte
  cap : BitVec 16
  thk : Byte
  tb : Vector Byte 7
  td : BitVec 16
  cause : BitVec 3
  isShut : Bool
  isThr : Bool
  isWarn : Bool
  band : BitVec 3
  /-- The last changes of the band, newest first: the instant, and the band before it (R392). -/
  bandWas : List (Nat × BitVec 3)
  ext : BitVec 16
  sensors : Vector Sensor 9
  ths : Vector Therm 8
deriving DecidableEq, Repr

/-- A slot of a log stream: its SEQ, its first 28 bytes after SEQ and its stored CRC (R611). -/
structure LogSlot where
  seq : Word
  rest : List Byte
deriving DecidableEq, Repr

/-- One log stream: the slots that have been written (the others hold SEQ 0xFFFF_FFFF), where the next record goes. -/
structure Stream where
  slots : List (Nat × LogSlot)
  next : Nat
  nextSeq : Word
  lost : Word
deriving DecidableEq, Repr

/-- A write waiting for the NV writer, other than a log record (R608). -/
inductive NvWrite where
  | slotState (k : Fin 2) (code : BitVec 4)
  | usage (inc : Vector Word 8)
  | autoOn (b : Bool)
  | bootCfg (scheme : Bool) (wd : Byte)
  | scCfg (dir mask : BitVec 16)
  | scCfg2 (cur : BitVec 8) (spmm : BitVec 12)
  | logCfg (m : BitVec 4)
  | bootFails (n : BitVec 2)
  | actSlot (b : Bool)
deriving DecidableEq, Repr

/-- The ferroelectric NV store (R607): settings, the two Keeper slots, the four streams and the writer's queue. -/
structure Nv where
  slot : Vector (BitVec 4) 2
  fails : BitVec 2
  actSlot : Bool
  autoOn : Bool
  scheme : Bool
  bootWd : Byte
  scDir : BitVec 16
  scMask : BitVec 16
  scCur : BitVec 8
  scSpmm : BitVec 12
  logMode : BitVec 4
  usage : Vector DWord 8
  pages : DWord
  image : Vector (List Byte) 2
  streams : Vector Stream 4
  queue : List NvWrite
deriving DecidableEq, Repr

/-- The values of the export registers that a running export was given (R621); the registers stay writable (R2). -/
structure ExportRun where
  dst : BitVec 36
  first : Word
  count : BitVec 12
  stream : BitVec 2
  mode : BitVec 2
deriving DecidableEq, Repr

/-- The log flume, its latches and the read-out and export registers (17). -/
structure LogS where
  queue : List LogEntry
  latches : List LogLatch
  mode : BitVec 4
  rdStream : BitVec 2
  rdSeq : Word
  rdFound : Bool
  rdBusy : Bool
  rdRseq : Word
  win : Vector Word 8
  xDst : BitVec 36
  xFirst : Word
  xCount : BitVec 12
  xStream : BitVec 2
  xMode : BitVec 2
  xErr : Byte
  xDone : Bool
  xBusy : Bool
  xRun : ExportRun
  /-- The export's Tamp stream has been opened (R621), and how it ended: code and bytes written (R380). -/
  xOpen : Bool
  xRes : Option (Nat × Nat)
deriving DecidableEq, Repr

/-- An image operation in progress (R189). `got` are the image bytes copied so far, header first. -/
structure ImageOp where
  jrp : Bool
  dev : BitVec 3
  part : Nat
  nextBoot : Bool
  slot : Fin 2
  got : List Byte
  /-- Status of the first failed check, 0 while none has failed. -/
  err : Byte
  blk : BitVec 16
deriving DecidableEq, Repr

/-- The image a part runs or has loaded, as its checked copy (R178). -/
structure Loaded where
  hdr : List Byte
  data : List Byte
  /-- The whole checked copy, header to signature (R659). -/
  img : List Byte
deriving DecidableEq, Repr

/-- One JRP port: last executed request and its response, bytes of a partial frame (R197-R201). -/
structure JrpS where
  last : Option (Byte × Byte)
  resp : List Byte
  part : List Byte
  /-- Instant of the last bytes, and of the last valid frame (R197). -/
  byteAt : Nat
  validAt : Nat
  /-- What a read transaction on I2C returns, empty until a response is ready (R198). -/
  reply : List Byte
deriving DecidableEq, Repr

/-- Boot, images and recovery (05). -/
structure Boot where
  mode : BitVec 2
  recause : BitVec 4
  ldieDone : Bool
  keeper : Option Loaded
  /-- Slot being checked, and the slots still to try after it (R181, R182). -/
  checking : Option (Fin 2)
  /-- Instant the running Keeper image started, while BOOT_OK is awaited (R184). -/
  wdFrom : Option Nat
  cuelib : Option Loaded
  preset : Option Loaded
  scheme : Bool
  bootWd : Byte
  src : DWord
  dev : BitVec 3
  ldMode : Bool
  ldErr : Byte
  ldBlk : BitVec 16
  ldDone : Bool
  op : Option ImageOp
  rbErr : Bool
  otp : Vector Word 32
  /-- Count that the RB bits are being raised to, and since when (R194); `otp` has them once that is over. -/
  rbRun : Option (Nat × Nat)
  otpAddr : BitVec 5
  otpData : Word
  otpRefused : Bool
  baud : Nat
  jrp : Vector JrpS 3
deriving DecidableEq, Repr

/-! ## PD1: host interface (08) -/

/-- One command ring. -/
structure RingS where
  base : DWord
  en : Bool
  size : BitVec 4
  tail : Word
  head : Word
  err : Byte
  /-- Flume whose tally the entry at HEAD waits for: a mailbox, or the skid transmit flume (R32, R643). -/
  held : Option FlumeId
deriving DecidableEq, Repr

/-- Coalescing of one MSI-X vector (R304). -/
structure Vec where
  count : Nat
  first : Nat
deriving DecidableEq, Repr

/-- A RECOVER in progress (R309-R315). -/
structure Recov where
  oldEpoch : BitVec 16
  discard : Bool
  disarm : Bool
  pagesAborted : Nat
  discarded : Nat
  disarmed : Nat
  /-- Channels still to be disarmed (R312). -/
  todo : List Chan
  /-- Workers that have not replied (R657). -/
  workers : BitVec 8
  made : Bool
  /-- An exit from PERST_n came after this RECOVER was accepted (R691). -/
  perstAfter : Bool
deriving DecidableEq, Repr

/-- The HOST registers: reset by PD1 and by PERST_n (R307). -/
structure HostR where
  needrec : Bool
  recRefused : Bool
  coalTime : BitVec 10
  coalCount : Byte
  vmap : Vector (BitVec 5) 10
  bar2 : BitVec 3
  cpqBase : DWord
  cpqEn : Bool
  cpqSize : BitVec 5
  cpqHead : Word
  cpqTail : Word
  rings : Vector RingS 8
  vecs : Vector Vec 32
  msix : Vector Word 128
deriving DecidableEq, Repr

/-- PD1: PERST_n, the link, the registers, the decoder and completion staging. -/
structure HostS where
  perst : Bool
  linkUp : Bool
  regs : HostR
  /-- Ring served last, for the round-robin of R291. -/
  rr : Ring
  /-- Lifecycle commands taken and not yet performed (R215). -/
  lifeQ : List CmdReq
  /-- PLAN commands whose copy is in flight. -/
  planQ : List CmdReq
  staging : List StgEntry
  resFree : Nat
  wresFree : Vector Nat 8
  waiting : List Waiting
  recov : Option Recov
deriving DecidableEq, Repr

/-! ## PD3: Engine Time, trackers, channels, pages (04, 06, 07, 16) -/

/-- Tracker state code. -/
inductive TrkSt where
  | off
  | acquire
  | locked
  | lost
deriving DecidableEq, Repr

/-- A tooth tracker. P is held in 1/256 tick (R129); the anchor too. -/
structure Tracker where
  filt : Byte
  avg : BitVec 2
  edge : BitVec 2
  src : BitVec 4
  en : Bool
  latew : BitVec 6
  miss : BitVec 7
  noiseT : BitVec 6
  guard : BitVec 9
  pmin : Word
  pmax : Word
  lateClaim : Bool
  loss : Bool
  lastSynth : Bool
  run : Nat
  st : TrkSt
  index : Word
  /-- Prediction in 1/256 tick. -/
  p256 : Nat
  /-- Anchor in 1/256 tick. -/
  anchor256 : Nat
  anchorHi : Word
  noise : Word
  synth : Word
  /-- An edge has been accepted since acquisition started (R152). -/
  hasEdge : Bool
  /-- ET of the last accepted real edge. -/
  lastEdge : Nat
  /-- The last intervals, newest first, in 1/256 tick; at most 8. -/
  ivals : List Nat
  /-- ET at which the last synthetic tooth fell due, while no real edge has arrived since (R128). -/
  insAt : Option Nat
  /-- The interval from the last real edge starts at a late real edge, or has k synthetic teeth in it (R131). -/
  synthSince : Nat
  /-- Teeth inserted as synthetic that no late real edge has claimed (R138). -/
  synthTeeth : List Word
deriving DecidableEq, Repr

/-- A late policy (04). -/
inductive Late where
  | fireNow
  | drop
  | fault
deriving DecidableEq, Repr

/-- A target on the wheel: an ET tick or a tooth position (R133, R267). -/
inductive Target where
  | abs (t : Nat)
  | tooth (t : Trk) (n : Word) (ph : BitVec 10)
deriving DecidableEq, Repr

/-- A motion segment (12). For a BLDC motor `target`, `acc` and `dec` are in min-1 and min-1/s. -/
structure Segment where
  target : Int
  home : Bool
  homeSrc : Byte
  vmax16 : Nat
  acc : Nat
  dec : Nat
  irun : Byte
  ihold : Byte
  /-- VT1-VT4 when they come from a profile; none uses MOTN_SnVT. -/
  vt : Option (Vector (BitVec 16) 4)
  chan : Chan
  pc : Nat
  /-- Instant it entered its flume (R429). -/
  enteredAt : Nat
deriving DecidableEq, Repr

/-- A setpoint entry (R470): a target in counts, and for RAMP a rate in 1/256 count per sample. -/
structure SpEntry where
  target : Nat
  rate : Option Nat
  chan : Chan
  pc : Nat
deriving DecidableEq, Repr

/-- A gain block (13, Expert control). -/
structure Gains where
  kp : BitVec 16
  ki : BitVec 16
  kd : BitVec 16
  period : Nat
  oph : Nat
  omin : Nat
  omax : Nat
  lockTol : Nat
  lockN : Nat
  trailPct : Nat
  trailWin : Nat
  retry : Nat
  cool : Nat
  tht : Option (Vector (BitVec 16) 33)
deriving DecidableEq, Repr

/-- What a timed action does at dispatch. -/
inductive ActOp where
  | seg (m : Motor) (g : Segment) (x : Bool)
  | setp (l : LoopId) (e : SpEntry)
  | gpio (g : Gpio) (level out : Bool)
  | ramp (l : LoopId) (e : SpEntry)
  | loopon (l : LoopId) (g : Gains)
  | loopoff (l : LoopId)
  | fire (n : Station)
  /-- k is the index of a tagged line within its page (R514). -/
  | strobe (k : Nat)
  | scanl (k : BitVec 2)
  | sig (target : BitVec 9) (code : Byte) (payload : Word)
deriving DecidableEq, Repr

/-- An action in a channel's action queue and on the wheel (R140-R145). -/
structure Action where
  id : Nat
  chan : Chan
  pc : Nat
  res : Nat
  op : ActOp
  target : Target
  pol : Late
  cpl : Bool
  /-- Last target computed under R133. -/
  et : Option Nat
  frozen : Bool
  /-- Held in ACQUIRE (R137). -/
  held : Bool
  late : Bool
  shift : Bool
  slip : Bool
  /-- Tick in which the wheel first tries to dispatch it, where that is not its target (R136, R137, R142). -/
  due : Option Nat
  /-- Its destination flume went DOWN while it was pending, so its place there is lost (R27). -/
  destLost : Bool
  /-- The tally of the action queue is kept only for the waiting record (R690). -/
  done : Bool
  /-- Admission number of the page it belongs to (R265, R387, R514). -/
  page : Option Word
deriving DecidableEq, Repr

/-- Channel state code. -/
inductive ChSt where
  | disarmed
  | arming
  | running
  | halted
  | faulted
  | disarming
deriving DecidableEq, Repr

/-- A program counter: its region and its byte offset (R254). -/
structure Pc where
  lib : Bool
  off : Nat
deriving DecidableEq, Repr

/-- A latched AT or ATTH (R260, R267). -/
structure Pfx where
  target : Target
  pol : BitVec 2
  cpl : Bool
deriving DecidableEq, Repr

/-- The checked copy of a channel-table entry (R238). -/
structure Entry where
  expert : Bool
  priority : BitVec 4
  lateDef : BitVec 2
  handlerPol : Bool
  progAddr : DWord
  progLen : Nat
  progCrc : Word
  entry : Nat
  handler : Nat
  grant : BitVec 256
  slots : Vector Word 16
deriving DecidableEq, Repr

/-- Statistics of a channel (R238). -/
structure Stats where
  etArm : DWord
  etDisarm : DWord
  issued : DWord
  executed : Word
  lates : Word
  drops : Word
  faults : Word
  lastFault : BitVec 16
  finalState : Byte
  lastFpc : Word
  maxBlock : Word
  refreshes : Word
deriving DecidableEq, Repr

/-- One channel context (06). -/
structure Channel where
  st : ChSt
  slots : Vector Word 16
  stack : List Pc
  flags : BitVec 16
  scratch : Mem
  pc : Pc
  mailbox : List (List Byte)
  actq : List Action
  evq : List ChEvent
  /-- Pending latches of hardware events for this channel, in order of arrival (R25, R26). -/
  evLatch : List EvLatch
  /-- Remote SIGs that wait for room, with their acknowledgements (R646). -/
  sigWait : List ChEvent
  entry : Entry
  prog : List Word
  page0 : Nat
  npages : Nat
  pfx : Option Pfx
  lastAt : DWord
  etHi : Word
  /-- ET at which the present wait began. -/
  blocked : Option Nat
  held : List (FlumeId × Nat)
  /-- Tallies collected by a blocked TAKE (R271). -/
  taking : Option (FlumeId × Nat)
  faultCode : BitVec 16
  fpc : Nat
  stats : Stats
deriving DecidableEq, Repr

/-- How far ARM or REFRESH has come (R219, R228). -/
inductive LifeSt where
  | entry
  | program (e : Entry) (page0 npages : Nat)
  | swap (e : Entry) (prog : List Word) (page0 npages : Nat)
deriving DecidableEq, Repr

/-- The ARM or REFRESH in progress (R215). -/
structure Life where
  req : CmdReq
  chan : Chan
  refresh : Bool
  st : LifeSt
deriving DecidableEq, Repr

/-- A checked page plan (R563). -/
structure Plan where
  path : BitVec 2
  dup1 : Bool
  dup2 : Bool
  chans : List Chan
  engines : BitVec 5
  panels : BitVec 4
  fuse : BitVec 2
  lead : Byte
  bw : Nat
  hvmask : BitVec 48
  sense : Word
  jam : Word
  tlo : BitVec 16
  thi : BitVec 16
  gap : Nat
  lines : Vector Nat 4
  hlines : Nat
  desc : Vector DWord 5
  nbands : Vector Nat 5
  usage : Vector Word 8
  exitMask : BitVec 16
  exitLen : Nat
  divert : Byte
deriving DecidableEq, Repr

/-- State of an open plan (PAGE_PLANi.STATE). -/
inductive PlanSt where
  | posted
  | admitted
  | ended
  | aborting
deriving DecidableEq, Repr

/-- An open plan and, once admitted, its page (R566, R574). -/
structure Page where
  ix : Fin 32
  handle : Word
  plan : Plan
  st : PlanSt
  unmet : BitVec 12
  adm : Word
  epoch : BitVec 16
  loff : Vector (BitVec 5) 4
  lptr : Vector Int 4
  /-- FIREs and STROBEs tagged so far, per engine. -/
  tagged : Vector Nat 5
  /-- Tagged scans and lines that have ended or were dropped. -/
  finished : Vector Nat 5
  doneBy : List Chan
  degraded : Bool
  short : Bool
  failb : BitVec 16
  starveb : BitVec 16
  /-- Dark lines of the page, per engine: BLANKL + STARVEL for it (R419). -/
  dark : Vector Nat 5
  cause : Byte
  form : Byte
  /-- The abort has completed (R584), and its record may be staged. -/
  complete : Bool
  /-- Bands taken up by the staging checker so far, and the first line of the next one. -/
  nextBand : Vector Nat 5
  nextLine : Vector Nat 5
deriving DecidableEq, Repr

/-- A GPIO ball: output enable and output level, whether DIVERT drives it (R586), and the settings on their way to the ball:
the instant each arrives, its level and its output enable (R268). -/
structure GpioS where
  out : Bool
  level : Bool
  divert : Bool
  next : List (Nat × Bool × Bool)
deriving DecidableEq, Repr

/-- A ball that is an input, as after reset (R51). -/
def GpioS.reset : GpioS := { out := false, level := false, divert := false, next := [] }

/-- PD3. -/
structure Cue where
  et : DWord
  etHi : Word
  slipped : Bool
  slips : BitVec 16
  /-- Actions dispatched at the tick `dispEt` so far (R141). -/
  dispEt : DWord
  dispN : Nat
  nextId : Nat
  trk : Vector Tracker 16
  ctBase : DWord
  ch : Vector Channel 64
  grant : Vector (Option Chan) 256
  coreStopped : BitVec 8
  /-- Instant at which the first of the stopped cores stopped (R70). -/
  stopAt : Nat
  life : Option Life
  gpio : Vector GpioS 32
  gpioIn : Word
  keepb : BitVec 4
  jamFilt : Byte
  lead : Byte
  jamSrc : BitVec 5
  jamLatch : Bool
  pol : Word
  nextAdm : Word
  nextHdl : Word
  pages : List Page
  /-- ET of the last admission on each path (R571). -/
  lastAdm : Vector (Option Nat) 4
  /-- Last posted plan of each path: handle and whether it is DUPLEX1 (R564), then whether it was aborted or rejected. -/
  lastPost : Vector (Option (Word × Bool × Bool)) 4
  /-- Next admission number to be reported (R578). -/
  nextReport : Word
deriving DecidableEq, Repr

/-! ## PD2 and PD4: memory, arbiter, Landing SRAM, Tamp, band staging (09, 10, 11) -/

/-- One arbiter requester: settings, effective priority, window and counters (R341-R351). -/
structure ReqS where
  q : BitVec 12
  wlog : BitVec 4
  base : BitVec 4
  /-- Settings written and not yet taken into effect (R346). -/
  pend : Option (BitVec 12 × BitVec 4 × BitVec 4)
  usedq : BitVec 12
  choke : Bool
  eff : BitVec 4
  grants : Word
  waits : Word
  longest : Word
  /-- Arbiter cycle in which the present request was first presented (R351). -/
  since : Option Nat
  /-- First cycle of the present window (R346). -/
  winAt : Nat
  snapGrants : Word
  snapWaits : Word
  snapLongest : Word
deriving DecidableEq, Repr

/-- PD2. `frozen` is R325: MEM_CFG takes no write after INIT. -/
structure MemS where
  eccEn : Bool
  dens : BitVec 2
  ranks : Bool
  rate : BitVec 3
  frozen : Bool
  training : Bool
  mult : BitVec 2
  /-- Multiplier MR4 last called for. -/
  mr4 : BitVec 2
  trainFail : Bool
  ready : Bool
  ue : BitVec 16
  ce : BitVec 16
  ueAddr : BitVec 36
  scrub : Byte
  cpyHost : DWord
  cpyLoc : BitVec 36
  cpyLen : BitVec 25
  cpyDir : Bool
  cpyErr : Byte
  cpyDone : Bool
  /-- The copy in progress as GO took it: host address, local address, length, direction. -/
  cpyCur : Option (Nat × Nat × Nat × Bool)
  preset : BitVec 2
  pool : BitVec 17
  req : Vector ReqS 16
  /-- Instant of READY, the arbiter cycle after the last round or refresh, and the first cycle of the reference window (R346). -/
  readyAt : Nat
  cyc : Nat
  refAt : Nat
  /-- The last run of excluded cycles before `cyc`: its first cycle and the one after it (R332). -/
  exclFrom : Nat
  exclTo : Nat
  /-- Instant of the last refresh (R331). -/
  refreshAt : Nat
  /-- The scrubber: start of its pass, and its next address (R330). -/
  scrubFrom : Nat
  scrubPos : Nat
  /-- 8-byte words that hold a corrected error not yet written back (R327). -/
  soft : List Nat
  /-- Requesters that were handed poisoned data (R328). -/
  poison : BitVec 16
  data : Mem
deriving DecidableEq, Repr

/-- One Landing reservation (R336). -/
structure LandRes where
  en : Bool
  units : Byte
  base : Byte
  slot : BitVec 12
deriving DecidableEq, Repr

/-- A block descriptor in a decoder's input flume (R358): where the header is, and which block of the stream. -/
structure BlkDesc where
  addr : Nat
  ix : Nat
  poison : Bool
deriving DecidableEq, Repr

/-- One Tamp decoder: its flume, its stream and the results registers. -/
structure Dec where
  q : List BlkDesc
  /-- A stream is being decoded. -/
  active : Bool
  /-- Source: next header to fetch, end of the source, bytes TOTAL, bytes named by fetched blocks, next block index. -/
  src : Nat
  srcEnd : Nat
  total : Nat
  fetched : Nat
  fetchIx : Nat
  /-- Every block has been fetched. -/
  fetchEnd : Bool
  /-- Output bytes so far, newest last. -/
  out : List Byte
  dst : Nat
  cap : Nat
  err : Byte
  lastBlk : BitVec 16
  lastCode : Byte
  streams : Word
  errors : Word
  outBytes : Word
deriving DecidableEq, Repr

/-- One Tamp encoder (R359, R373): blocks waiting as uncompressed bytes, the stream so far. -/
structure Enc where
  xp : Bool
  blk : BitVec 4
  depth : BitVec 9
  level : BitVec 3
  q : List (List Byte)
  active : Bool
  /-- The stream is a log export's; else a scan buffer's. -/
  forLog : Bool
  /-- Settings latched at the start of the stream (R381). -/
  curDepth : Nat
  curBlk : Nat
  total : Nat
  taken : Nat
  /-- Input bytes of the stream already encoded (the window). -/
  hist : List Byte
  written : Nat
  dst : Nat
  cap : Nat
  err : Byte
  lastBlk : BitVec 16
  lastCode : Byte
  blkIx : Nat
  streams : Word
  errors : Word
  outBytes : Word
deriving DecidableEq, Repr

/-- A band in staging or in a staged-band flume (R397, R398). -/
structure Band where
  handle : Word
  no : Nat
  panel : Nat
  line0 : Nat
  lines : Nat
  slot : Nat
  lpitch : Nat
  bcrc : Word
  empty : Bool
  pass : Bool
  cause : Byte
  tampCode : Byte
  /-- First line that an uncorrectable error darkens (R402). -/
  ueFrom : Option Nat
  /-- BAND_STARVE already posted for it. -/
  starved : Bool
deriving DecidableEq, Repr

/-- A band whose lines started before its entry came (R403): handle, band number, first line, lines. -/
structure Starved where
  handle : Word
  no : Nat
deriving DecidableEq, Repr

/-- PD4. -/
structure Rast where
  land : Mem
  res : Vector LandRes 10
  landUe : BitVec 16
  landCe : BitVec 15
  landErr : Bool
  tampErr : Byte
  dec : Vector Dec 6
  enc : Vector Enc 2
  genSrc : BitVec 36
  genSlen : Word
  genDst : BitVec 36
  genDlen : Word
  genErr : Byte
  genDone : Bool
  genBusy : Bool
  /-- Per engine: the band being staged, the staged-band flume, the next slot, the starved bands. -/
  cur : Vector (Option Band) 5
  staged : Vector (List Band) 5
  nextSlot : Vector Nat 5
  starved : Vector (List Starved) 5
deriving DecidableEq, Repr

/-! ## PD5: the beam engine (11) -/

/-- Station state code. -/
inductive BeamSt where
  | off
  | cal
  | ready
  | fault
deriving DecidableEq, Repr

/-- One beam: registers, loaded settings and APC state. -/
structure BeamB where
  ilim : BitVec 12
  tgt : BitVec 12
  idrv : BitVec 12
  weak : Bool
  boff : Byte
  curIlim : BitVec 12
  curTgt : BitVec 12
  curBoff : Byte
  low : Nat
  okN : Nat
  pd : BitVec 12
deriving DecidableEq, Repr

/-- Settings of a station as registers or as loaded at ON (R418). -/
structure BeamCfg where
  depth : Bool
  align : Bool
  gain : BitVec 4
  pixels : BitVec 14
  tpix : BitVec 24
  sos : BitVec 24
  bdwin : BitVec 9
  pwm : Vector (BitVec 7) 7
deriving DecidableEq, Repr

/-- A scan in progress (R387-R394). -/
structure Scan where
  d : Nat
  e : Option Nat
  win : Nat
  page : Option Word
  lptr : Int
  /-- BEAM_APCM as the scan was dispatched (R418), and the margin of the band in force at E (R392). -/
  tab : Vector (BitVec 16) 8
  apcm : Nat
  /-- Beams whose line has started, and whose APC sample has been taken. -/
  begun : BitVec 32
  sampled : BitVec 32
deriving DecidableEq, Repr

/-- A facet of a station in CAL (R410): the edge, the margin and the beams that have been sampled. -/
structure CalFacet where
  e : Nat
  apcm : Nat
  sampled : BitVec 32
deriving DecidableEq, Repr

/-- One station. -/
structure StationS where
  st : BeamSt
  fcause : Byte
  cmdErr : BitVec 2
  xp : Bool
  profile : Byte
  trk : BitVec 4
  reg : BeamCfg
  cur : BeamCfg
  loff : BitVec 5
  trim : BitVec 11
  blankl : Word
  starvel : Word
  bdmiss : Word
  overrun : Word
  beams : Vector BeamB 32
  /-- Tracker in use, loaded at ON (R418). -/
  curTrk : BitVec 4
  /-- POLYOK has been 1 in this CAL or READY (R411). -/
  polySeen : Bool
  /-- Facets since POLYOK first became 1 (R410). -/
  facets : Nat
  facet : Option CalFacet
  scan : Option Scan
deriving DecidableEq, Repr

/-- PD5. -/
structure BeamE where
  nom : Word
  tol : Byte
  apcm : Vector (BitVec 16) 8
  stn : Vector StationS 4
deriving DecidableEq, Repr

/-! ## PD6: motion (12) -/

/-- Stepper and BLDC state codes; a BLDC motor uses idle, moving (RUN), stopping and fault. -/
inductive MotSt where
  | idle
  | hold
  | moving
  | stopping
  | fault
deriving DecidableEq, Repr

/-- Why a motor decelerates: a STOP or DISARM, Safe Hold, or the run-on of an EXIT abort (R450, R455, R585). -/
inductive StopWhy where
  | stop
  | disarm
  | safe
  | runOn (left : Int)
deriving DecidableEq, Repr

/-- One stepper: registers, trajectory and flume. -/
structure StepperS where
  st : MotSt
  fcause : Byte
  cmdErr : BitVec 2
  res : BitVec 3
  homed : Bool
  iholdD : Byte
  safeDec : Byte
  stallTrk : BitVec 4
  stallEn : Bool
  mode : Bool
  pos : Word
  posw : Word
  /-- Speed in 1/3,200,000 FS/s, signed, and the fraction of the position in 1/(5*10^9) ustep (log 20). -/
  vel : Int
  frac : Int
  vt : Vector (BitVec 16) 4
  ratio : BitVec 16
  tol : Byte
  q : List Segment
  cur : Option Segment
  /-- Joint speed of a decided blend, in the unit of vel; none while no decision was made (R437-R439). -/
  joint : Option (Option Int)
  /-- The current segment's target in usteps, absolute. -/
  goal : Int
  why : StopWhy
  stallP0 : Word
  stallI0 : Word
  /-- The two have been latched (R445). -/
  stallSet : Bool
  /-- Instant of the last evaluation of the trajectory (R430). -/
  evalAt : Nat
  /-- A STOP was given since that evaluation, in the same update (R457). -/
  stopNew : Bool
  /-- Present coil current code. -/
  amps : Byte
  /-- Target of the last queued segment (R451). -/
  lastTarget : Int
  /-- A coupled scan step is running (R544). -/
  coupled : Bool
  homeHit : Bool
deriving DecidableEq, Repr

/-- One BLDC motor. -/
structure BldcS where
  st : MotSt
  fcause : Byte
  loopSlot : BitVec 6
  pairs : BitVec 4
  dir : Bool
  stallT : Byte
  speed : BitVec 16
  safeDec : BitVec 16
  q : List Segment
  cur : Option Segment
  /-- Speed setpoint in 1/200,000 min-1. -/
  set_ : Int
  lastHall : Nat
  /-- Instant from which the duty has not been 0 (R446). -/
  dutyAt : Nat
  evalAt : Nat
  stopNew : Bool
  hall : BitVec 3
  why : StopWhy
deriving DecidableEq, Repr

/-- PD6. -/
structure Motn where
  vmotEn : Bool
  vmot : BitVec 4
  vmotOk : Bool
  step : Vector StepperS 16
  bldc : Vector BldcS 4
deriving DecidableEq, Repr

/-! ## PD7 and PD8: loops, high voltage, fuser (13) -/

/-- Loop slot state code. -/
inductive LoopSt where
  | off
  | run
  | cool
  | short
  | fault
deriving DecidableEq, Repr

/-- One loop slot. sp and target are in 1/256 count. -/
structure LoopS where
  st : LoopSt
  cause : Byte
  cmdErr : BitVec 2
  tries : BitVec 3
  locked : Bool
  kind : BitVec 3
  inp : BitVec 6
  out : BitVec 4
  dep : BitVec 48
  u : BitVec 16
  /-- Output in effect when u was written, and that instant: a PWM gate takes u at its next period (R465). -/
  uOld : BitVec 16
  uAt : Nat
  m : BitVec 16
  target : Nat
  sp : Nat
  unlocks : Word
  g : Gains
  /-- New gains to be loaded at the next sample (R468). -/
  gNext : Option Gains
  i : Int
  mPrev : Option Int
  rate : Option Nat
  q : List SpEntry
  /-- Samples in a row inside and outside LOCKTOL. -/
  inN : Nat
  outN : Nat
  /-- The trail check is on, and the first sample of the present run of failing ones (R476). -/
  trail : Bool
  trailAt : Option Nat
  /-- Output computed and waiting for its instant. -/
  uNext : Option (BitVec 16)
  startAt : Nat
  coolAt : Nat
  /-- Channel that started the slot. -/
  owner : Option Chan
  /-- Take-up of the last entry that changed the target, while LOCKED is awaited (R486 WARM). -/
  warmAt : Option Nat
  /-- Last target and rate at a failure, for the restart of R478. -/
  again : Nat
  /-- Instant at which the slot last left RUN for OFF (R500). -/
  offAt : Option Nat
deriving DecidableEq, Repr

/-- One HV channel. -/
structure HvS where
  iscale : BitVec 16
  vscale : BitVec 16
  ilim : BitVec 12
  fpwm : Byte
  stby : BitVec 12
  vfb : BitVec 12
  ifb : BitVec 12
deriving DecidableEq, Repr

/-- One heater zone. -/
structure ZoneS where
  zdly : BitVec 11
  guard : BitVec 3
  pri : BitVec 3
  gpulses : BitVec 4
  gpw : BitVec 7
  warmt : Byte
  tmax : BitVec 12
  guardT : BitVec 16
  priT : BitVec 16
  tht : Vector (BitVec 16) 33
  acc : Nat
  firing : Option Nat
  ovt : Nat
  sens : Nat
  /-- Cause of the zone's fault, 0 for none (R496). -/
  cause : Byte
deriving DecidableEq, Repr

/-- PD7 with the zone and zero-cross part of PD8. -/
structure LoopE where
  alt : Bool
  zcok : Bool
  half : BitVec 16
  lastZc : Option Nat
  goodHalves : Nat
  hvrlim : Vector (BitVec 16) 8
  slot : Vector LoopS 48
  hv : Vector HvS 16
  zone : Vector ZoneS 2
deriving DecidableEq, Repr

/-! ## PD9 and PD10: photo head and scanner (14, 15) -/

/-- Head state code. -/
inductive HeadSt where
  | off
  | ready
  | fault
deriving DecidableEq, Repr

/-- Head settings as registers or as loaded at ON (R529). -/
structure HeadCfg where
  elem64 : BitVec 6
  gmax : BitVec 3
  fmt : Bool
  gap : Byte
  hdiv : BitVec 6
  nbloom : Vector (BitVec 4) 4
  maxp : Vector Byte 4
  hbt : Vector (BitVec 12) 15
  tht : Vector (BitVec 16) 33
  mw : Vector (BitVec 12) 64
  bw : Vector Byte 64
deriving DecidableEq, Repr

/-- A head line in progress (R505-R509). -/
structure HLine where
  d : Nat
  band : BitVec 4
  panel : Nat
  page : Word
  line : Nat
  /-- Marking and bloom counts per element. -/
  marks : List Nat
  blooms : List Nat
  nb : Nat
  nm : Nat
  /-- Next slot to latch, next group slot of the latched slot, latch instant of the latched slot. -/
  slot : Nat
  group : Nat
  latchAt : Nat
  /-- The page was aborted: no further strobe (R533). -/
  stop : Bool
deriving DecidableEq, Repr

/-- PD9. -/
structure HeadE where
  st : HeadSt
  fcause : Byte
  cmdErr : BitVec 2
  hband : BitVec 4
  lineCtr : BitVec 3
  xp : Bool
  profile : Byte
  reg : HeadCfg
  cur : HeadCfg
  temp : BitVec 16
  railEn : Bool
  rail : BitVec 4
  hhys : BitVec 6
  htmax : BitVec 12
  tlmax : Word
  blankl : Word
  starvel : Word
  overrun : Word
  badN : Nat
  line : Option HLine
  lastD : Option Nat
  latched : BitVec 2560
  /-- End of the line in progress or of the last one (R509, R525). -/
  endAt : Nat
deriving DecidableEq, Repr

/-- Scanner state code. -/
inductive ScanSt where
  | off
  | ready
  | cal
  | fault
deriving DecidableEq, Repr

/-- Scanner settings as registers or as loaded at ON. -/
structure ScanCfg where
  dummy : Byte
  segs : BitVec 2
  segpix : BitVec 14
  cdiv : Byte
  exp : BitVec 16
  seqlen : BitVec 2
  seq : BitVec 6
  offs : Vector (BitVec 9) 3
  gains : Vector (BitVec 6) 9
  white : BitVec 16
  dark : BitVec 16
deriving DecidableEq, Repr

/-- The scan line in progress (R537). -/
structure SLine where
  d : Nat
  leds : BitVec 3
  reading : Bool
  couples : Bool
deriving DecidableEq, Repr

/-- An output buffer in flume 0x191 (R547). -/
structure SBuf where
  loc : Nat
  len : Nat
  seq : Word
  lines : Nat
  bytes : Nat
deriving DecidableEq, Repr

/-- Scan settings that no profile supplies (15, Basic control). -/
structure ScanMode where
  stepper : BitVec 4
  out : BitVec 2
  ofmt : Bool
  avg : BitVec 2
  istep : Byte
  stepEvery : BitVec 2
  dir : Bool
  feed : BitVec 16
deriving DecidableEq, Repr

/-- PD10. -/
structure ScanE where
  st : ScanSt
  fcause : Byte
  cmdErr : BitVec 2
  calClip : Bool
  xp : Bool
  profile : Byte
  mode : ScanMode
  curMode : ScanMode
  reg : ScanCfg
  cur : ScanCfg
  bufDepth : BitVec 7
  bufLines : BitVec 16
  bufLoc : BitVec 36
  bufLen : Word
  bufErr : Byte
  lines : Word
  overrun : Word
  k3 : Nat
  line : Option SLine
  endAt : Nat
  /-- Captured lines in flume 0x190, as bytes. -/
  q : List (List Byte)
  bufs : List SBuf
  nextBuf : Word
  /-- Bytes from the front of the captured lines already pushed to the encoder, and already written by it (R549). -/
  fed : Nat
  coded : Nat
  offWant : Bool
deriving DecidableEq, Repr

/-! ## PD11: the skid link (18) -/

/-- Link state code. -/
inductive LinkSt where
  | down
  | train
  | up
  | fault
deriving DecidableEq, Repr

/-- One port: state, when it entered it, frames sent and not acknowledged, the instants at which they were last sent, frames
waiting for a tally, failures. -/
structure PortS where
  st : LinkSt
  since : Nat
  unacked : List Frame
  sentAt : List Nat
  waiting : List Frame
  fails : Nat
deriving DecidableEq, Repr

/-- Enumeration in progress: on the manager since the instant given, or a worker waiting for SKID1 (R635). -/
inductive EnumSt where
  | idle
  | manager (since : Nat)
  | worker (since : Nat) (d : BitVec 4) (et : DWord) (epoch : BitVec 16)
deriving DecidableEq, Repr

/-- PD11. -/
structure Skid where
  err : BitVec 3
  devnum : BitVec 3
  workers : BitVec 3
  chain : BitVec 2
  tsync : Bool
  wlost : BitVec 8
  toff : BitVec 16
  sigDrop : Word
  winDev : BitVec 3
  winOff : BitVec 24
  winData : Word
  winErr : Byte
  winBusy : Bool
  winDone : Bool
  winWrite : Bool
  /-- The access in progress is a write. -/
  winOp : Bool
  port : Vector PortS 2
  enum : EnumSt
  /-- Workers in the enumerated set (bit d). -/
  live : BitVec 8
  /-- Heartbeats sent or received, consecutive misses, last echo of each worker. -/
  hb : Nat
  hbMiss : Nat
  echo : Vector Nat 8
  echoMiss : Vector Nat 8
  /-- Last instant at which a heartbeat or echo was missed (R653). -/
  missAt : Nat
  offOkFrom : Option Nat
  /-- Directory of RUNNING channels, device * 64 + channel (R645). -/
  dir : List (BitVec 9)
  upAt : Nat
  /-- An ENUM has been received since PD11 became good (R637). -/
  gotEnum : Bool
  /-- NO_MANAGER has been logged since then. -/
  noMgr : Bool
  /-- The chain has been enumerated with this device in it since its last partner loss (R653). -/
  partOk : Bool
deriving DecidableEq, Repr

/-! ## The whole machine -/

/-- Why the machine stops with a fault. -/
inductive Fault where
  /-- Raised by AON_POR_RELEASE when TEST_EN is latched at 1: "no behaviour in this manual applies" (R50). Safe. -/
  | productionTest
deriving DecidableEq, Repr

/-- Why a command has no meaning in the model. -/
inductive Refusal where
  /-- Raised by an arm of Dispatch that has no meaning yet; safe: nothing can be proved of the command. -/
  | notModelled (mnemonic : String)
deriving DecidableEq, Repr

/-- The state of the block. -/
structure State where
  /-- Ticks of 1.25 ns since the model began; every interval of the spec is counted on it (log 2). -/
  now : Nat
  aon : Aon
  therm : Thermal
  nv : Nv
  lg : LogS
  boot : Boot
  lock : Bool
  epoch : BitVec 16
  flSel : BitVec 10
  fl : Vector Flume 434
  host : HostS
  cue : Cue
  mem : MemS
  rast : Rast
  beam : BeamE
  motn : Motn
  loops : LoopE
  head : HeadE
  scan : ScanE
  skid : Skid
  /-- What has left the device, oldest first. -/
  out : List Output
  /-- Number of the next free value (log 4). -/
  freeCount : Nat
  /-- Commands waiting, first in first out. -/
  pending : List Instr
deriving DecidableEq, Repr

/-! ## Reset values -/

/-- Depth of a flume in the map of R30; 0 for an identifier the map does not list. Command rings take 2^4, the reset SIZE. -/
def flumeDepth (f : Nat) : Nat :=
  if f < 0x008 then 16 else if f = 0x008 then 256 else if f < 0x040 then 0
  else if f < 0x080 then 8 else if f < 0x0C0 then 16 else if f < 0x100 then 32
  else if f < 0x114 then 16 else if f < 0x120 then 0 else if f < 0x150 then 4
  else if f < 0x180 then 0 else if f < 0x185 then 16 else if f < 0x188 then 0
  else if f < 0x190 then 4 else if f = 0x190 then 16 else if f = 0x191 then 8
  else if f < 0x1A0 then 0 else if f = 0x1A0 then 64 else if f = 0x1A1 then 16
  else if f < 0x1B0 then 0 else 32

/-- A flume at full tally, DOWN as given (R17, R27). For 0x008 the tally counts the general entries only. -/
def Flume.full (depth : Nat) (down : Bool) : Flume :=
  { depth := depth, tally := depth, ret := 0, down := down, minTally := depth, zero := false }

/-- All flumes after AON power-on reset: every one but the log flume has an end whose domain is off (R27, R684). -/
def flumesReset : Vector Flume 434 :=
  Vector.ofFn fun f : Fin 434 =>
    if f.1 = 0x008 then { Flume.full 256 true with tally := 192 }
    else Flume.full (flumeDepth f.1) (f.1 ≠ 0x1A0)

/-- A rail slot before the ORD table is loaded (AON_RAILn reset values that do not depend on ORD). -/
def RailS.reset : RailS :=
  { mask := 0, offw := 20, ssw := 0, dly := 1, csEn := false, stage := false, en := false, cool := 10, retry := 0,
    offSlow := false, cause := 0, tries := 0, st := .off, since := 0 }

/-- A domain before the ORD table is loaded. -/
def DomS.reset : DomS := { need := 0, stage := false, en := false, st := .off, since := 0, upAt := 0, downAt := 0 }

/-- The AON block under AON power-on reset. PD0 is always good (03, Model). -/
def Aon.reset : Aon :=
  { por := true, porAt := 0, mrst := false, strap := 0, relFail := false, cBeat := false, cPart := false,
    cTherm := false, cSw := false, cExt := false, cRst := true, assert_ := false, hold := true, safeHigh := true,
    safeLowAt := none, safeSeen := false, safeRiseAt := 0, driveEnd := 0, resetExit := 0, livePart := false,
    liveBeat := false, beatMask := 0, seqState := .off, offCause := 0, cmdErr := 0, stall := false, faults := 0,
    rails := Vector.replicate 16 RailS.reset,
    doms := tset (Vector.replicate 12 DomS.reset) 0 { DomS.reset with en := true, st := .good },
    started := [], form := .none, parts := [], retryIn := [], upItem := none, ownIn := [], xtalOk := false, pfwLow := false,
    pfwAt := 0, vsBelow := false, vsLowAt := 0, vsArmed := false, disarmAt := 0, awaitRecovery := false, press := none, btnLow := false, autoOn := true, cutS := 12, longS := 4,
    vsEn := true, vsLow := 192, grace := 20, scDir := 0, scMask := 0, scCur := 64, scSpmm := 64, sheet := .idle,
    retain := 0, shadowValid := 0, irest := 32, shadow := Vector.replicate 16 0, usage := Vector.replicate 8 0,
    pages := 0, latches := [], lost := false, waitWorkers := 0 }

/-- The thermal watch after AON power-on reset (17, Registers). -/
def Thermal.reset : Thermal :=
  { hys := 5, shut := 120, thr := 105, warn := 95, cap := 2000, thk := 10, tb := #v[40, 50, 65, 80, 90, 100, 110],
    td := 0, cause := 0, isShut := false, isThr := false, isWarn := false, band := 0, bandWas := [], ext := 0,
    sensors := Vector.replicate 9 { failed := false, valid := false, temp := 0, bad := 0 },
    ths := Vector.replicate 8 { limit := 0, valid := false, count := 0, above := false } }

/-- The NV store as shipped (05, 17; log 9 for the values the spec gives no shipped value for). -/
def Nv.shipped : Nv :=
  { slot := #v[0, 0], fails := 0, actSlot := false, autoOn := true, scheme := false, bootWd := 30, scDir := 0,
    scMask := 0, scCur := 64, scSpmm := 64, logMode := 0b1110, usage := Vector.replicate 8 0, pages := 0,
    image := #v[[], []], streams := Vector.replicate 4 { slots := [], next := 0, nextSeq := 0, lost := 0 }, queue := [] }

/-- The log registers after AON power-on reset. -/
def LogS.reset : LogS :=
  { queue := [], latches := [], mode := 0b1110, rdStream := 0, rdSeq := 0, rdFound := false, rdBusy := false, rdRseq := 0,
    win := Vector.replicate 8 0, xDst := 0, xFirst := 0, xCount := 0, xStream := 0, xMode := 0, xErr := 0,
    xDone := false, xBusy := false,
    xRun := { dst := 0, first := 0, count := 0, stream := 0, mode := 0 }, xOpen := false, xRes := none }

/-- The BOOT block after AON power-on reset; OTP as a blank part (log 9). -/
def Boot.reset : Boot :=
  { mode := 0, recause := 0, ldieDone := false, keeper := none, checking := none, wdFrom := none, cuelib := none,
    preset := none, scheme := false, bootWd := 30, src := 0, dev := 0, ldMode := false, ldErr := 0, ldBlk := 0,
    ldDone := false, op := none, rbErr := false, otp := Vector.replicate 32 0, rbRun := none, otpAddr := 0,
    otpData := 0, otpRefused := false, baud := 115200,
    jrp := Vector.replicate 3 { last := none, resp := [], part := [], byteAt := 0, validAt := 0, reply := [] } }

/-- One command ring after reset of PD1. -/
def RingS.reset : RingS := { base := 0, en := false, size := 4, tail := 0, head := 0, err := 0, held := none }

/-- The HOST registers after reset: KINDs 6 and 7 on vector 1, 8 and 9 on 2, 10 on 3 (08, Registers). -/
def HostR.reset : HostR :=
  { needrec := true, recRefused := false, coalTime := 0, coalCount := 1, vmap := #v[0, 0, 0, 0, 0, 1, 1, 2, 2, 3],
    bar2 := 0, cpqBase := 0, cpqEn := false, cpqSize := 6, cpqHead := 0, cpqTail := 0,
    rings := Vector.replicate 8 RingS.reset, vecs := Vector.replicate 32 { count := 0, first := 0 },
    msix := Vector.replicate 128 0 }

/-- PD1 after reset. -/
def HostS.reset : HostS :=
  { perst := false, linkUp := true, regs := HostR.reset, rr := 7, lifeQ := [], planQ := [], staging := [], resFree := 64,
    wresFree := Vector.replicate 8 0, waiting := [], recov := none }

/-- Tracker t after reset of PD3: SRC is its own number (04, Registers). -/
def Tracker.reset (t : Nat) : Tracker :=
  { filt := 8, avg := 2, edge := 0, src := BitVec.ofNat 4 t, en := false, latew := 16, miss := 96, noiseT := 32,
    guard := 64, pmin := 800, pmax := 0xFFFFFFFF, lateClaim := false, loss := false, lastSynth := false, run := 0,
    st := .off, index := 0, p256 := 0, anchor256 := 0, anchorHi := 0, noise := 0, synth := 0, hasEdge := false,
    lastEdge := 0, ivals := [], insAt := none, synthSince := 0, synthTeeth := [] }

/-- An entry copy of no channel. -/
def Entry.empty : Entry :=
  { expert := false, priority := 0, lateDef := 1, handlerPol := false, progAddr := 0, progLen := 0, progCrc := 0,
    entry := 0, handler := 0, grant := 0, slots := Vector.replicate 16 0 }

/-- Statistics at 0. -/
def Stats.zero : Stats :=
  { etArm := 0, etDisarm := 0, issued := 0, executed := 0, lates := 0, drops := 0, faults := 0, lastFault := 0,
    finalState := 0, lastFpc := 0, maxBlock := 0, refreshes := 0 }

/-- A disarmed channel context (06). -/
def Channel.reset : Channel :=
  { st := .disarmed, slots := Vector.replicate 16 0, stack := [], flags := 0, scratch := [], pc := { lib := false, off := 0 },
    mailbox := [], actq := [], evq := [], evLatch := [], sigWait := [], entry := Entry.empty, prog := [], page0 := 0,
    npages := 0, pfx := none, lastAt := 0, etHi := 0, blocked := none, held := [], taking := none, faultCode := 0,
    fpc := 0, stats := Stats.zero }

/-- PD3 after reset. -/
def Cue.reset : Cue :=
  { et := 0, etHi := 0, slipped := false, slips := 0, dispEt := 0, dispN := 0, nextId := 0,
    trk := Vector.ofFn fun t : Fin 16 => Tracker.reset t.1, ctBase := 0, ch := Vector.replicate 64 Channel.reset,
    grant := Vector.replicate 256 none, coreStopped := 0, stopAt := 0, life := none,
    gpio := Vector.replicate 32 GpioS.reset, gpioIn := 0, keepb := 1, jamFilt := 2,
    lead := 8, jamSrc := 0, jamLatch := false, pol := 0, nextAdm := 1, nextHdl := 1, pages := [],
    lastAdm := Vector.replicate 4 none, lastPost := Vector.replicate 4 none, nextReport := 1 }

/-- Requester n with the values of R341; Q and WLOG of a requester without a quota are 0 (log 10). -/
def ReqS.reset (n : Nat) : ReqS :=
  let base : Nat := if n ≤ 4 then 11 else if n = 5 then 6 else if n = 6 then 5 else if n = 7 then 12
    else if n = 8 then 4 else if n = 9 then 13 else if n = 10 then 2 else 0
  { q := if n = 7 then 256 else if n = 9 then 512 else 0, wlog := if n = 7 then 6 else if n = 9 then 7 else 0,
    base := BitVec.ofNat 4 base, pend := none, usedq := 0, choke := false, eff := BitVec.ofNat 4 base, grants := 0,
    waits := 0, longest := 0, since := none, winAt := 0, snapGrants := 0, snapWaits := 0, snapLongest := 0 }

/-- PD2 after reset. MEM_BW_LIMIT is computed where it is read (R348). -/
def MemS.reset : MemS :=
  { eccEn := true, dens := 0, ranks := false, rate := 4, frozen := false, training := false, mult := 0, mr4 := 0,
    trainFail := false, ready := false, ue := 0, ce := 0, ueAddr := 0, scrub := 24, cpyHost := 0, cpyLoc := 0, cpyLen := 0,
    cpyDir := false, cpyErr := 0, cpyDone := false, cpyCur := none, preset := 0, pool := 0x10000,
    req := Vector.ofFn fun n : Fin 16 => ReqS.reset n.1, readyAt := 0, cyc := 0, refAt := 0, exclFrom := 0, exclTo := 0,
    refreshAt := 0, scrubFrom := 0, scrubPos := 0, soft := [], poison := 0, data := [] }

/-- The reservations of R336. -/
def landReset : Vector LandRes 10 :=
  #v[{ en := true, units := 16, base := 0, slot := 0 }, { en := true, units := 32, base := 16, slot := 128 },
     { en := true, units := 32, base := 48, slot := 128 }, { en := true, units := 32, base := 80, slot := 128 },
     { en := true, units := 32, base := 112, slot := 128 }, { en := true, units := 16, base := 144, slot := 64 },
     { en := true, units := 8, base := 160, slot := 0 }, { en := true, units := 8, base := 168, slot := 0 },
     { en := true, units := 8, base := 176, slot := 0 }, { en := true, units := 8, base := 184, slot := 0 }]

/-- A Tamp decoder after reset of PD4. -/
def Dec.reset : Dec :=
  { q := [], active := false, src := 0, srcEnd := 0, total := 0, fetched := 0, fetchIx := 0, fetchEnd := true, out := [],
    dst := 0, cap := 0, err := 0, lastBlk := 0, lastCode := 0, streams := 0, errors := 0, outBytes := 0 }

/-- A Tamp encoder after reset of PD4 (10, Registers). -/
def Enc.reset : Enc :=
  { xp := false, blk := 15, depth := 16, level := 2, q := [], active := false, forLog := false, curDepth := 16, curBlk := 65536, total := 0,
    taken := 0, hist := [], written := 0, dst := 0, cap := 0, err := 0, lastBlk := 0, lastCode := 0, blkIx := 0, streams := 0,
    errors := 0, outBytes := 0 }

/-- PD4 after reset. -/
def Rast.reset : Rast :=
  { land := [], res := landReset, landUe := 0, landCe := 0, landErr := false, tampErr := 0,
    dec := Vector.replicate 6 Dec.reset, enc := Vector.replicate 2 Enc.reset, genSrc := 0, genSlen := 0, genDst := 0,
    genDlen := 0, genErr := 0, genDone := false, genBusy := false, cur := Vector.replicate 5 none,
    staged := Vector.replicate 5 [], nextSlot := Vector.replicate 5 0, starved := Vector.replicate 5 [] }

/-- A beam after reset of PD5. -/
def BeamB.reset : BeamB :=
  { ilim := 3072, tgt := 2048, idrv := 0, weak := false, boff := 0, curIlim := 3072, curTgt := 2048, curBoff := 0, low := 0,
    okN := 0, pd := 0 }

/-- Station settings after reset of PD5. -/
def BeamCfg.reset : BeamCfg :=
  { depth := true, align := false, gain := 4, pixels := 9920, tpix := 20480, sos := 240000, bdwin := 64,
    pwm := #v[9, 18, 27, 37, 46, 55, 64] }

/-- Station n after reset of PD5. -/
def StationS.reset (n : Nat) : StationS :=
  { st := .off, fcause := 0, cmdErr := 0, xp := false, profile := 0, trk := BitVec.ofNat 4 (12 + n), reg := BeamCfg.reset,
    cur := BeamCfg.reset, loff := 0, trim := 1024, blankl := 0, starvel := 0, bdmiss := 0, overrun := 0,
    beams := Vector.replicate 32 BeamB.reset, curTrk := BitVec.ofNat 4 (12 + n), polySeen := false,
    facets := 0, facet := none, scan := none }

/-- PD5 after reset. -/
def BeamE.reset : BeamE :=
  { nom := 2000000, tol := 8, apcm := #v[800, 800, 800, 800, 800, 800, 1600, 1600],
    stn := Vector.ofFn fun n : Fin 4 => StationS.reset n.1 }

/-- A stepper after reset of PD6. -/
def StepperS.reset : StepperS :=
  { st := .idle, fcause := 0, cmdErr := 0, res := 0, homed := false, iholdD := 32, safeDec := 40, stallTrk := 0,
    stallEn := false, mode := false, pos := 0, posw := 0, vel := 0, frac := 0, vt := #v[200, 800, 1500, 3000], ratio := 256,
    tol := 4, q := [], cur := none, joint := none, goal := 0, why := .stop, stallP0 := 0, stallI0 := 0, stallSet := false,
    evalAt := 0, stopNew := false, amps := 0,
    lastTarget := 0, coupled := false, homeHit := false }

/-- BLDC motor k after reset of PD6. -/
def BldcS.reset (k : Nat) : BldcS :=
  { st := .idle, fcause := 0, loopSlot := BitVec.ofNat 6 (44 + k), pairs := 2, dir := false, stallT := 50, speed := 0,
    safeDec := 125, q := [], cur := none, set_ := 0, lastHall := 0, dutyAt := 0,
    evalAt := 0, stopNew := false, hall := 1, why := .stop }

/-- PD6 after reset. -/
def Motn.reset : Motn :=
  { vmotEn := true, vmot := 5, vmotOk := false, step := Vector.replicate 16 StepperS.reset,
    bldc := Vector.ofFn fun k : Fin 4 => BldcS.reset k.1 }

/-- A gain block of zeros. -/
def Gains.zero : Gains :=
  { kp := 0, ki := 0, kd := 0, period := 2000, oph := 0, omin := 0, omax := 0, lockTol := 1, lockN := 1, trailPct := 20,
    trailWin := 20, retry := 0, cool := 1, tht := none }

/-- Loop slot s with the bindings of R459. -/
def LoopS.reset (s : Nat) : LoopS :=
  { st := .off, cause := 0, cmdErr := 0, tries := 0, locked := false,
    kind := if s < 16 then 1 else if s < 18 then 2 else if s < 40 then 0 else if s < 44 then 4 else 3, inp := 0x3F,
    out := BitVec.ofNat 4 (if s < 16 then s else if s < 18 then s - 16 else if s < 40 then 0 else if s < 44 then s - 40 else s - 44),
    dep := 0, u := 0, uOld := 0, uAt := 0, m := 0, target := 0, sp := 0, unlocks := 0, g := Gains.zero, gNext := none, i := 0, mPrev := none,
    rate := none, q := [], inN := 0, outN := 0, trail := false, trailAt := none, uNext := none, startAt := 0, coolAt := 0,
    owner := none, warmAt := none, again := 0, offAt := none }

/-- Zone z after reset of PD7. -/
def ZoneS.reset (z : Nat) : ZoneS :=
  { zdly := 300, guard := BitVec.ofNat 3 (2 + z), pri := BitVec.ofNat 3 z, gpulses := 4, gpw := 20, warmt := 60, tmax := 2300,
    guardT := 0, priT := 0, tht := Vector.replicate 33 0, acc := 0, firing := none, ovt := 0, sens := 0, cause := 0 }

/-- PD7 and the zone part of PD8 after reset. -/
def LoopE.reset : LoopE :=
  { alt := false, zcok := false, half := 0, lastZc := none, goodHalves := 0,
    hvrlim := #v[400, 400, 400, 400, 400, 400, 200, 200], slot := Vector.ofFn fun s : Fin 48 => LoopS.reset s.1,
    hv := Vector.replicate 16 { iscale := 256, vscale := 128, ilim := 3000, fpwm := 50, stby := 0, vfb := 0, ifb := 0 },
    zone := Vector.ofFn fun z : Fin 2 => ZoneS.reset z.1 }

/-- Head settings after reset of PD9. -/
def HeadCfg.reset : HeadCfg :=
  { elem64 := 40, gmax := 2, fmt := false, gap := 20, hdiv := 8, nbloom := #v[4, 4, 4, 4], maxp := #v[255, 255, 255, 255],
    hbt := Vector.ofFn fun k : Fin 15 => BitVec.ofNat 12 (200 + 30 * k.1), tht := Vector.replicate 33 0,
    mw := Vector.replicate 64 120, bw := Vector.replicate 64 30 }

/-- PD9 after reset. -/
def HeadE.reset : HeadE :=
  { st := .off, fcause := 0, cmdErr := 0, hband := 0, lineCtr := 0, xp := false, profile := 0, reg := HeadCfg.reset,
    cur := HeadCfg.reset, temp := 0, railEn := true, rail := 9, hhys := 10, htmax := 700, tlmax := 0, blankl := 0, starvel := 0,
    overrun := 0, badN := 0, line := none, lastD := none, latched := 0, endAt := 0 }

/-- Scanner settings after reset of PD10. -/
def ScanCfg.reset : ScanCfg :=
  { dummy := 16, segs := 3, segpix := 3400, cdiv := 30, exp := 100, seqlen := 3, seq := 0b100100,
    offs := Vector.replicate 3 0, gains := Vector.replicate 9 16, white := 56000, dark := 2048 }

/-- The other scan settings after reset of PD10. -/
def ScanMode.reset : ScanMode :=
  { stepper := 0, out := 0, ofmt := false, avg := 0, istep := 64, stepEvery := 1, dir := false, feed := 64 }

/-- PD10 after reset. -/
def ScanE.reset : ScanE :=
  { st := .off, fcause := 0, cmdErr := 0, calClip := false, xp := false, profile := 0, mode := ScanMode.reset,
    curMode := ScanMode.reset, reg := ScanCfg.reset, cur := ScanCfg.reset, bufDepth := 8,
    bufLines := 300, bufLoc := 0, bufLen := 0, bufErr := 0, lines := 0, overrun := 0, k3 := 0, line := none, endAt := 0,
    q := [], bufs := [], nextBuf := 0, fed := 0, coded := 0, offWant := false }

/-- PD11 after reset; TSYNC reads 1 on a manager where it is read. -/
def Skid.reset : Skid :=
  { err := 0, devnum := 0, workers := 0, chain := 0, tsync := false, wlost := 0, toff := 0, sigDrop := 0, winDev := 0,
    winOff := 0, winData := 0, winErr := 0, winBusy := false, winDone := false, winWrite := false, winOp := false,
    port := Vector.replicate 2 { st := .down, since := 0, unacked := [], sentAt := [], waiting := [], fails := 0 }, enum := .idle, live := 0,
    hb := 0, hbMiss := 0, echo := Vector.replicate 8 0, echoMiss := Vector.replicate 8 0, missAt := 0, offOkFrom := none,
    dir := [], upAt := 0, gotEnum := false, noMgr := false, partOk := false }

/-- The machine under AON power-on reset, the reset every register of it takes (R7): only PD0 is powered, every other
domain is off, no command waits. AON_POR_RELEASE is the event that ends it (R89; log 2). -/
def State.reset : State :=
  { now := 0, aon := Aon.reset, therm := Thermal.reset, nv := Nv.shipped, lg := LogS.reset, boot := Boot.reset, lock := false,
    epoch := 0, flSel := 0, fl := flumesReset, host := HostS.reset, cue := Cue.reset, mem := MemS.reset, rast := Rast.reset,
    beam := BeamE.reset, motn := Motn.reset, loops := LoopE.reset, head := HeadE.reset, scan := ScanE.reset,
    skid := Skid.reset, out := [], freeCount := 0, pending := [] }

end Sys2Proof.Machine
end

