-- ==== Sys2Proof/Machine/Ops.lean ====
section
/-!
DEFINITION. The named operations every family shares: memory, the CRC, free values, the reach of a register access,
flumes and tallies, completion records, AON events, channel events, log records and NV writes.
-/

namespace Sys2Proof.Machine

/-! ## Memory -/

/-- One byte; an unlisted address reads 0 (log 6). -/
def memGet : Mem → Nat → Byte
  | [], _ => 0
  | (x, b) :: m, a => if x = a then b else if a < x then 0 else memGet m a

/-- Memory with one byte written, in the canonical form: writing 0 removes the entry. -/
def memPut : Mem → Nat → Byte → Mem
  | [], a, b => if b = 0 then [] else [(a, b)]
  | (x, c) :: m, a, b =>
    if a < x then (if b = 0 then (x, c) :: m else (a, b) :: (x, c) :: m)
    else if a = x then (if b = 0 then m else (a, b) :: m)
    else (x, c) :: memPut m a b

/-- n bytes from address a. -/
def memRead (m : Mem) : Nat → Nat → List Byte
  | _, 0 => []
  | a, n + 1 => memGet m a :: memRead m (a + 1) n

/-- The bytes bs written from address a on. -/
def memWrite (m : Mem) : Nat → List Byte → Mem
  | _, [] => m
  | a, b :: bs => memWrite (memPut m a b) (a + 1) bs

/-- Addresses all above k, strictly rising, no listed byte 0. -/
def Memory.above : Option Nat → Mem → Bool
  | _, [] => true
  | k, (a, b) :: m => (match k with | none => true | some x => decide (x < a)) && (b != 0) && Memory.above (some a) m

/-- The canonical form of a memory. -/
def Memory.wf (m : Mem) : Bool := Memory.above none m

/-! ## CRC-32C (05, Image format) -/

/-- k steps of the reflected polynomial 0x82F6_3B78. -/
def crcBits : Nat → Nat → Nat
  | 0, c => c
  | k + 1, c => match c with
    | 0 => 0
    | n + 1 => crcBits k (if (n + 1) % 2 = 1 then Nat.xor ((n + 1) / 2) 0x82F63B78 else (n + 1) / 2)

/-- The CRC register after the bytes, before the final inversion. -/
def crcLoop : List Byte → Nat → Nat
  | [], c => c
  | b :: bs, c => match Nat.xor c b.toNat with
    | 0 => crcLoop bs 0
    | n + 1 => crcLoop bs (crcBits 8 (n + 1))

/-- CRC-32C of a list of bytes. -/
def crc32c (bs : List Byte) : Word := BitVec.ofNat 32 (Nat.xor (crcLoop bs 0xFFFFFFFF) 0xFFFFFFFF)

/-! ## Time, domains, reach, free values -/

/-- Domains a domain needs, directly or through others (R14, R15). -/
def reqAll (d : Dom) : List Dom :=
  match d.1 with
  | 4 => [2, 3]
  | 5 => [3, 6, 7]
  | 6 => [3]
  | 7 => [3]
  | 8 => [7, 3]
  | 9 => [3, 4, 2]
  | 10 => [3, 4, 6, 2]
  | 11 => [3]
  | _ => []

/-- The domain is switched on and reports good. -/
def domOn (s : State) (d : Dom) : Bool := (tget s.aon.doms d).st == .good

/-- The domain is on and out of reset: good, every domain it requires good (R16), MRST_n high (R101). PD0 is held in
reset by AON power-on reset only. -/
def domUp (s : State) (d : Dom) : Bool :=
  !s.aon.por && (d == 0 || (!s.aon.mrst && domOn s d && (reqAll d).all (domOn s)))

/-- This device is strapped MANAGER. -/
def isManager (s : State) : Bool := bitB s.aon.strap 3

/-- The domain that stands for HOST on this device: PD1, or PD11 on a worker (R684; log 13). -/
def hostDom (s : State) : Dom := if isManager s then 1 else 11

/-- Engine Time, 0 while PD3 is off (R611). -/
def etNow (s : State) : DWord := if domUp s 3 then s.cue.et else 0

/-- Milliseconds since AON power-on reset (R611). -/
def aont (s : State) : Word := BitVec.ofNat 32 ((s.now - s.aon.porAt) / ms)

/-- Time passes until instant t, where t lies ahead: ET counts every tick while PD3 runs (R123). A command that stands for
an event falling due at an instant moves time to it (log 8). -/
def timeTo (t : Nat) (s : State) : State :=
  if s.now < t then
    let s1 := if domUp s 3 then { s with cue := { s.cue with et := s.cue.et + BitVec.ofNat 64 (t - s.now) } } else s
    { s1 with now := t }
  else s

/-- Time passes until Engine Time reaches t. -/
def etTo (t : Nat) (s : State) : State := timeTo (s.now + (t - s.cue.et.toNat)) s

/-- The next instant of a grid of period p that starts at t0: a command for something done every period moves time there. -/
def gridNext (t0 p : Nat) (s : State) : Nat := t0 + ((s.now - t0) / p + 1) * p

/-- One tick of 1.25 ns, the step on an empty queue (log 2). -/
def tick (s : State) : State := timeTo (s.now + 1) s

/-- A BAR0 access reaches the controller (R682). -/
def bar0Reach (s : State) : Bool := domUp s 1 && s.host.perst && s.host.linkUp

/-- An access through port p reaches a register held by domain d (R11, R13, R682). -/
def reach (s : State) (p : Port) (d : Dom) : Bool :=
  match p with
  | .bar0 => bar0Reach s && domUp s d
  | .keeper => !s.aon.por && d == 0

/-- The next free value as a word (log 4). -/
def freeWord (s : State) : Word := Config.freeWord s.freeCount

/-- The next free value has been used. -/
def useFree (s : State) : State := { s with freeCount := s.freeCount + 1 }

/-- The output o leaves the device. -/
def emit (s : State) (o : Output) : State := { s with out := s.out ++ [o] }

/-- A bus-master read that failed is logged through AER (R284); a worker's reads are the manager's requests (R648). -/
def aerLog (s : State) : State := if isManager s then emit s .aer else s

/-- f where b holds, else nothing (log 1). -/
def whenS (b : Bool) (f : State → State) (s : State) : State := if b then f s else s

/-! ## Access to the tables of the state -/

def getCh (s : State) (c : Chan) : Channel := tget s.cue.ch c
def modCh (c : Chan) (f : Channel → Channel) (s : State) : State :=
  { s with cue := { s.cue with ch := tmod s.cue.ch c f } }
def getTrk (s : State) (t : Trk) : Tracker := tget s.cue.trk t
def modTrk (t : Trk) (f : Tracker → Tracker) (s : State) : State :=
  { s with cue := { s.cue with trk := tmod s.cue.trk t f } }
def getStep (s : State) (n : Fin 16) : StepperS := tget s.motn.step n
def modStep (n : Fin 16) (f : StepperS → StepperS) (s : State) : State :=
  { s with motn := { s.motn with step := tmod s.motn.step n f } }
def getBldc (s : State) (k : Fin 4) : BldcS := tget s.motn.bldc k
def modBldc (k : Fin 4) (f : BldcS → BldcS) (s : State) : State :=
  { s with motn := { s.motn with bldc := tmod s.motn.bldc k f } }
def getLoop (s : State) (l : LoopId) : LoopS := tget s.loops.slot l
def modLoop (l : LoopId) (f : LoopS → LoopS) (s : State) : State :=
  { s with loops := { s.loops with slot := tmod s.loops.slot l f } }
def getZone (s : State) (z : Zone) : ZoneS := tget s.loops.zone z
def modZone (z : Zone) (f : ZoneS → ZoneS) (s : State) : State :=
  { s with loops := { s.loops with zone := tmod s.loops.zone z f } }
def getStn (s : State) (n : Station) : StationS := tget s.beam.stn n
def modStn (n : Station) (f : StationS → StationS) (s : State) : State :=
  { s with beam := { s.beam with stn := tmod s.beam.stn n f } }
def modHead (f : HeadE → HeadE) (s : State) : State := { s with head := f s.head }
def modScan (f : ScanE → ScanE) (s : State) : State := { s with scan := f s.scan }
def modSkid (f : Skid → Skid) (s : State) : State := { s with skid := f s.skid }
def modAon (f : Aon → Aon) (s : State) : State := { s with aon := f s.aon }
def modBoot (f : Boot → Boot) (s : State) : State := { s with boot := f s.boot }
def modHost (f : HostS → HostS) (s : State) : State := { s with host := f s.host }
def modRegs (f : HostR → HostR) (s : State) : State := { s with host := { s.host with regs := f s.host.regs } }
def modMem (f : MemS → MemS) (s : State) : State := { s with mem := f s.mem }
def modRast (f : Rast → Rast) (s : State) : State := { s with rast := f s.rast }
def modCue (f : Cue → Cue) (s : State) : State := { s with cue := f s.cue }
def modLg (f : LogS → LogS) (s : State) : State := { s with lg := f s.lg }
def modNv (f : Nv → Nv) (s : State) : State := { s with nv := f s.nv }
def modTherm (f : Thermal → Thermal) (s : State) : State := { s with therm := f s.therm }
def getRail (s : State) (n : Rail) : RailS := tget s.aon.rails n
def modRail (n : Rail) (f : RailS → RailS) (s : State) : State :=
  modAon (fun a => { a with rails := tmod a.rails n f }) s
def getDom (s : State) (d : Dom) : DomS := tget s.aon.doms d
def modDom (d : Dom) (f : DomS → DomS) (s : State) : State :=
  modAon (fun a => { a with doms := tmod a.doms d f }) s
/-- Change every page that satisfies p. -/
def modPages (p : Page → Bool) (f : Page → Page) (s : State) : State :=
  modCue (fun c => { c with pages := c.pages.map fun g => if p g then f g else g }) s

/-! ## Flumes and tallies (01) -/

def getFl (s : State) (f : FlumeId) : Flume := tget s.fl f
def modFl (f : FlumeId) (g : Flume → Flume) (s : State) : State := { s with fl := tmod s.fl f g }

/-- Flume numbers as identifiers of the table. -/
def flId (n : Nat) : FlumeId := if h : n < 434 then ⟨n, h⟩ else 0
def mbxFl (c : Chan) : FlumeId := flId (0x040 + c.1)
def actFl (c : Chan) : FlumeId := flId (0x080 + c.1)
def evFl (c : Chan) : FlumeId := flId (0x0C0 + c.1)
def motFl (m : Motor) : FlumeId := flId (0x100 + m.1)
def spFl (l : LoopId) : FlumeId := flId (0x120 + l.1)
def bandFl (g : Engine) : FlumeId := flId (0x180 + g.1)
def decFl (u : Fin 6) : FlumeId := flId (0x188 + u.1)
def encFl (e : Fin 2) : FlumeId := flId (0x18E + e.1)
def stgFl : FlumeId := 8
def scanFl : FlumeId := 0x190
def bufFl : FlumeId := 0x191
def logFl : FlumeId := 0x1A0
def aonFl : FlumeId := 0x1A1
def skidFl (q : SkidPort) : FlumeId := flId (0x1B0 + q.1)

/-- A RECOVER has not yet created its record (R315). -/
def recGate (s : State) : Bool :=
  match s.host.recov with
  | some v => !v.made
  | none => false

/-- The record is of the new epoch and comes after the RECOVER record, which is still to be created (R315, R319). -/
def gated (s : State) (r : Rec) : Bool := recGate s && r.epoch == s.epoch

/-- USER records whose PUSH took a tally and which a RECOVER keeps from the flume (R315; log 73). -/
def keptUsers (s : State) : Nat := (s.host.waiting.filter fun w => w.by_ == .sheet && w.rcd.kind == 5 && gated s w.rcd).length

/-- Tallies of a flume that no push has taken. -/
def freeTally (s : State) (f : FlumeId) : Nat := if f = stgFl then (getFl s f).tally - keptUsers s else (getFl s f).tally

/-- The free entries GLB_FLSTAT shows: for 0x008 the reserved entries (R31) count too. -/
def shownTally (s : State) (f : FlumeId) : Nat :=
  if f = stgFl then freeTally s f + s.host.resFree + s.host.wresFree.toList.sum else (getFl s f).tally

/-- MINTALLY and ZERO follow the tally (GLB_FLMIN). -/
def noteMin (f : FlumeId) (s : State) : State :=
  let t := shownTally s f
  modFl f (fun x => { x with minTally := min x.minTally t, zero := x.zero || t == 0 }) s

/-- A push takes one tally (R18). -/
def takeTally (f : FlumeId) (s : State) : State := noteMin f (modFl f (fun x => { x with tally := x.tally - 1 }) s)

/-- Flumes whose producer is the host, CQ0-CQ7 and 0x191: R288 and R547 stand in place of R23. -/
def hostFed (f : FlumeId) : Bool := decide (f.1 < 8) || f == bufFl

/-- The consumer returns one tally, which then crosses to the producer (R18, R23); to the host it counts at once (R288,
R547). Nothing returns to a DOWN flume. -/
def retTally (f : FlumeId) (s : State) : State :=
  modFl f (fun x => if x.down then x else if hostFed f then { x with tally := min x.depth (x.tally + 1) }
    else { x with ret := x.ret + 1 }) s

/-- Return n tallies. -/
def retTallies : FlumeId → Nat → State → State
  | _, 0, s => s
  | f, n + 1, s => retTallies f n (retTally f s)

/-- A push can take a tally now: the flume is up and its tally is not 0 (R20, R21). -/
def hasTally (s : State) (f : FlumeId) : Bool := !(getFl s f).down && (getFl s f).tally != 0

/-! ## Completion records (R30, R31, R301, R690) -/

/-- Kinds that take reserved entries (R31). -/
def reservedKind (k : Nat) : Bool := k == 6 || k == 7 || k == 10

/-- A record of this instant and epoch (R301, R313). -/
def mkRec (s : State) (kind : Nat) (src : BitVec 16) (status xb : Byte) (body : List Byte) : Rec :=
  { kind := kind, epoch := s.epoch, src := src, status := status, xb := xb, et := etNow s, body := body }

/-- The entry class a record can take now: a reserved entry of its device first, then a general one (R31). -/
def stgRoom (s : State) (kind : Nat) (dev : Option (Fin 8)) : Option StgClass :=
  if (getFl s stgFl).down then none
  else match reservedKind kind, dev with
    | true, some d =>
      if tget s.host.wresFree d != 0 then some (.worker d)
      else if (getFl s stgFl).tally != 0 then some .general else none
    | true, none =>
      if s.host.resFree != 0 then some .own
      else if (getFl s stgFl).tally != 0 then some .general else none
    | false, _ => if (getFl s stgFl).tally != 0 then some .general else none

/-- One entry of the class is taken. -/
def takeClass (k : StgClass) (s : State) : State :=
  match k with
  | .general => takeTally stgFl s
  | .own => noteMin stgFl (modHost (fun h => { h with resFree := h.resFree - 1 }) s)
  | .worker d => noteMin stgFl (modHost (fun h => { h with wresFree := tmod h.wresFree d (· - 1) }) s)
  | .gone => s

/-- The record enters the staging flume. -/
def stage (r : Rec) (k : StgClass) (isAon : Bool) (s : State) : State :=
  takeClass k (modHost (fun h => { h with staging := h.staging ++ [{ rcd := r, cls := k, aon := isAon }] }) s)

/-- The occurrence count of an EVENT or ENGINE record is written into its body (R25, R301). -/
def withCount (r : Rec) (n : BitVec 16) : Rec :=
  { r with body := r.body.take 2 ++ leBytes 2 n.toNat ++ r.body.drop 4 }

/-- A waiting record whose kind is not reserved stands before the new one. -/
def ordinaryWaits (s : State) : Bool := s.host.waiting.any fun w => !reservedKind w.rcd.kind && !gated s w.rcd

/-- Source number of a record without a resource ID: the unit that raised it (R690), here by its domain. -/
def unitSrc (d : Dom) (k : Nat) : Nat := 0x2000 + 16 * d.1 + k

/-- Domain that holds the source of a record, event or log entry (R14, R239, R685). -/
def srcDom (src : Nat) : Dom :=
  if src ≥ 0x2000 then Fin.ofNat 12 ((src - 0x2000) / 16)
  else if src < 20 then 6 else if src < 84 then 7 else if src < 88 then 5 else if src = 88 then 9
  else if src = 89 then 10 else if src < 138 then 3 else 8

/-- Source number of AON: it has one latch for every code (R37). -/
def aonSrc : Nat := unitSrc 0 0

/-- Cycle of domain d's clock in which the instant t lies, from the periods of R683: 62.5 ns in PD0, 4 ns in PD1, 3.2 ns in
PD11 and 1.25 ns in PD3. Every clock starts with the model's own time: DESIGN CHOICE (log 78). -/
def cycleOf (d : Dom) (t : Nat) : Nat := if d = 0 then t / 50 else if d = 1 then t * 5 / 16 else if d = 11 then t * 25 / 64 else t

/-- Of two latches whose first occurrences came in one cycle, the one with the lower record code goes first, and of equal
codes the one with the lower resource ID; sources without one, numbered above every ID, go last (R26). -/
def ahead (code src code' src' : Nat) : Bool := decide (code < code') || (code == code' && decide (src < src'))

/-- A latch joins the occupied ones in the order of R26: behind all of them but for those at the end that came in the same
cycle and go after it. -/
def latchIn {α : Type} (after : α → Bool) (x : α) : List α → List α
  | [] => [x]
  | y :: ys => if (y :: ys).all after then x :: y :: ys else y :: latchIn after x ys

/-- A waiting action's record has been staged: its action-queue entry is finished (R690). -/
def finishAction (c : Chan) (id : Nat) (s : State) : State :=
  retTally (actFl c) (modCh c (fun x => { x with actq := x.actq.filter (·.id != id) }) s)

/-- A page's record has been staged: the page is closed, its bandwidth returns and its channels are page-critical no
longer on its account (R217, R349, R578). -/
def closePage (adm : Nat) (s : State) : State :=
  modCue (fun c => { c with pages := c.pages.filter (fun g => !(g.adm.toNat == adm && g.st != .posted)),
                            nextReport := BitVec.ofNat 32 (adm + 1) }) s

/-- A waiting record is staged: its latch's count is written, and what waited for it goes on. -/
def stageWaiting (w : Waiting) (k : StgClass) (s : State) : State :=
  match w.by_ with
  | .latch _ _ n => stage (withCount w.rcd n) k false s
  | .action c id => finishAction c id (stage w.rcd k false s)
  | .event => stage w.rcd k true s
  | .sheet =>
    if w.rcd.kind = 6 ∨ w.rcd.kind = 7 then closePage (fieldN w.rcd.body 0 4) (stage w.rcd k false s)
    else stage w.rcd k false s
  | .worker _ => emit (stage w.rcd k false s) (.skid 1 .ack)
  | _ => stage w.rcd k false s

/-- Device whose reserved entries a waiting record may take (R31, R644). -/
def waiterDev : Waiter → Option (Fin 8)
  | .worker d => some d
  | _ => none

/-- A record that has nowhere to wait while the staging flume is DOWN (R27, R316). -/
def losesRec (s : State) : Waiter → Bool
  | .decoder | .worker _ => (getFl s stgFl).down
  | _ => false

/-- An occupied latch that came in the same cycle as one of this source and code now, and goes after it (R26). -/
def latchAfter (s : State) (src code : Nat) (w : Waiting) : Bool :=
  match w.by_ with
  | .latch a b _ => cycleOf (hostDom s) w.since == cycleOf (hostDom s) s.now && ahead code src b a
  | _ => false

/-- A record joins the waiting ones (R690): behind them, or, as a latch, where R26 puts it. -/
def waitIn (s : State) (r : Rec) (w : Waiter) (l : List Waiting) : List Waiting :=
  match w with
  | .latch a b _ => latchIn (latchAfter s a b) { rcd := r, by_ := w, since := s.now } l
  | _ => l ++ [{ rcd := r, by_ := w, since := s.now }]

/-- A new record is staged, or waits where w says (R690). An ordinary record never passes a waiting one, and none of the
new epoch passes a RECOVER record still to be created. -/
def post (r : Rec) (w : Waiter) (s : State) : State :=
  if losesRec s w then modAon (fun a => { a with lost := true }) s
  else match (if gated s r || (ordinaryWaits s && !reservedKind r.kind) then none else stgRoom s r.kind (waiterDev w)) with
    | some k => stageWaiting { rcd := r, by_ := w, since := s.now } k s
    | none => modHost (fun h => { h with waiting := waitIn s r w h.waiting }) s

/-- An ENGINE record: source, event code, resource ID or 0xFFFF, and its ten data bytes (R301, R688). A second occurrence
of a waiting one only counts (R25). -/
def engine (src code res : Nat) (data : List Byte) (s : State) : State :=
  if s.host.waiting.any (fun w => match w.by_ with | .latch a b _ => a == src && b == code | _ => false) then
    modHost (fun h => { h with waiting := h.waiting.map fun w => match w.by_ with
      | .latch a b n => if a == src && b == code then { w with by_ := .latch a b (satInc n) } else w
      | _ => w }) s
  else
    post (mkRec s 9 0xFFFF 0 0 (leBytes 2 code ++ leBytes 2 1 ++ leBytes 2 res ++ (data ++ List.replicate 10 0).take 10))
      (.latch src code 1) s

/-- The first waiting record that can be staged now, with the waiting records that stay. -/
def firstStageable (s : State) : List Waiting → List Waiting → Option (Waiting × StgClass × List Waiting)
  | _, [] => none
  | pre, w :: ws =>
    match (if gated s w.rcd then none else stgRoom s w.rcd.kind (waiterDev w.by_)) with
    | some k => some (w, k, pre ++ ws)
    | none => firstStageable s (pre ++ [w]) ws

/-- Waiting records take free entries in the order of their creation (R690), at most n of them. -/
def serveWaiting : Nat → State → State
  | 0, s => s
  | n + 1, s =>
    match firstStageable s [] s.host.waiting with
    | none => s
    | some (w, k, rest) => serveWaiting n (stageWaiting w k (modHost (fun h => { h with waiting := rest }) s))

/-! ## AON events (R37), channel events (R25, R276), log records (R610-R613) and NV writes (R608) -/

/-- The EVENT record of an AON event. -/
def eventRec (s : State) (e : AonEvent) : Rec :=
  mkRec s 8 0xFFFF 0 0 (leBytes 2 e.code ++ leBytes 2 e.count.toNat ++ leBytes 4 e.d0.toNat ++ leBytes 4 e.d1.toNat ++
    [0, 0, 0, 0])

/-- AON posts an event: into flume 0x1A1, or into its latch (R37, R25). -/
def aonEvent (code : Nat) (d0 d1 : Word) (s : State) : State :=
  if s.aon.latches.any (·.code == code) then
    modAon (fun a => { a with latches := a.latches.map fun l =>
      if l.code == code then { l with count := satInc l.count } else l }) s
  else
    let e : AonEvent := { code := code, count := 1, d0 := d0, d1 := d1, since := s.now }
    if hasTally s aonFl && s.aon.latches.isEmpty then post (eventRec s e) .event (takeTally aonFl s)
    else
      let after (l : AonEvent) : Bool := cycleOf 0 l.since == cycleOf 0 s.now && decide (code < l.code)
      modAon (fun a => { a with latches := latchIn after e a.latches }) s

/-- Latched AON events push in the order of their first occurrences while tallies last (R26, R37). -/
def serveAon : Nat → State → State
  | 0, s => s
  | n + 1, s =>
    match s.aon.latches with
    | [] => s
    | e :: rest =>
      if hasTally s aonFl then
        serveAon n (post (eventRec s e) .event (takeTally aonFl (modAon (fun a => { a with latches := rest }) s)))
      else s

/-- A hardware event for channel c: into its event queue, or into the latch of its source and code (R25). A channel
event with code 0x0171 or 0x0101 and every other one takes the same path. -/
def chEvent (c : Chan) (src code : Nat) (payload : Word) (s : State) : State :=
  let x := getCh s c
  if x.evLatch.any (fun p => p.src == src && p.ev.code.toNat == code) then
    modCh c (fun x => { x with evLatch := x.evLatch.map fun p =>
      if p.src == src && p.ev.code.toNat == code then { p with ev := { p.ev with upper := satInc p.ev.upper } } else p }) s
  else
    let e : ChEvent := { upper := 1, code := BitVec.ofNat 16 code, payload := payload }
    if hasTally s (evFl c) && x.evLatch.isEmpty then
      takeTally (evFl c) (modCh c (fun x => { x with evq := x.evq ++ [e] }) s)
    else
      let after (p : EvLatch) : Bool := p.since == s.now && ahead code src p.ev.code.toNat p.src
      modCh c (fun x => { x with evLatch := latchIn after { src := src, since := s.now, ev := e } x.evLatch }) s

/-- The port toward the device a remote SIG came from; its upper half is the source (R646). -/
def sigPort (s : State) (e : ChEvent) : SkidPort := if bitsN e.upper 8 6 < s.skid.devnum.toNat then 0 else 1

/-- Latched events, then waiting remote SIGs with their acknowledgements, enter channel c's queue while tallies last (R26,
R646). -/
def serveEv (c : Chan) : Nat → State → State
  | 0, s => s
  | n + 1, s =>
    if hasTally s (evFl c) then
      match (getCh s c).evLatch, (getCh s c).sigWait with
      | p :: rest, _ =>
        serveEv c n (takeTally (evFl c) (modCh c (fun x => { x with evq := x.evq ++ [p.ev], evLatch := rest }) s))
      | [], e :: rest =>
        serveEv c n (emit (takeTally (evFl c) (modCh c (fun x => { x with evq := x.evq ++ [e], sigWait := rest }) s))
          (.skid (sigPort s e) .ack))
      | [], [] => s
    else s

/-- The same event to each channel of a list. -/
def chEvents (src code : Nat) (payload : Word) : List Chan → State → State
  | [], s => s
  | c :: cs, s => chEvents src code payload cs (chEvent c src code payload s)

/-- The channel that holds a resource (R240). -/
def holder (s : State) (id : Nat) : Option Chan := if h : id < 256 then tget s.cue.grant ⟨id, h⟩ else none

/-- An event to the channel that holds resource id, if one does. -/
def holderEvent (id code : Nat) (payload : Word) (s : State) : State :=
  match holder s id with
  | some c => chEvent c id code payload s
  | none => s

/-- A record of source src pushed to the log flume, or held in the latch of its source and code, which counts further
occurrences, when no tally is left (R25). -/
def logPut (src : Nat) (e : LogEntry) (s : State) : State :=
  if s.lg.latches.any (fun x => x.src == src && x.entry.code == e.code) then
    modLg (fun l => { l with latches := l.latches.map fun x =>
      if x.src == src && x.entry.code == e.code then { x with count := satInc x.count } else x }) s
  else if hasTally s logFl && s.lg.latches.isEmpty then
    takeTally logFl (modLg (fun l => { l with queue := l.queue ++ [e] }) s)
  else
    let after (x : LogLatch) : Bool :=
      cycleOf 0 x.since == cycleOf 0 s.now && ahead e.code.toNat src x.entry.code.toNat x.src
    modLg (fun l => { l with latches := latchIn after { src := src, count := 1, since := s.now, entry := e } l.latches }) s

/-- The controller's source src logs code with two data words to stream 0 (R610, R611). -/
def logFrom (src code : Nat) (d0 d1 : Word) (s : State) : State :=
  logPut src { stream := 0, code := BitVec.ofNat 16 code, src := 0xFFFF, et := etNow s, aont := aont s, d0 := d0, d1 := d1 } s

/-- AON logs code with two data words to stream 0. -/
def logCode (code : Nat) (d0 d1 : Word) (s : State) : State := logFrom aonSrc code d0 d1 s

/-- Latched log records enter the flume while tallies last (R26). -/
def serveLog : Nat → State → State
  | 0, s => s
  | n + 1, s =>
    match s.lg.latches with
    | [] => s
    | e :: rest =>
      if hasTally s logFl then
        serveLog n (takeTally logFl (modLg (fun l => { l with queue := l.queue ++ [e.entry], latches := rest }) s))
      else s

/-- Log and post one event (R624). -/
def logPost (code : Nat) (d0 d1 : Word) (s : State) : State := aonEvent code d0 d1 (logCode code d0 d1 s)

/-- A write waits for the NV writer (R608). -/
def nvPut (w : NvWrite) (s : State) : State := modNv (fun n => { n with queue := n.queue ++ [w] }) s

/-- Who waits at a flume takes the tallies that became usable: latches first (R26), then waiting records (R690). -/
def serveFlume (f : FlumeId) (s : State) : State :=
  if f = stgFl then serveWaiting s.host.waiting.length s
  else if f = aonFl then serveAon s.aon.latches.length s
  else if f = logFl then serveLog s.lg.latches.length s
  else if h : 0x0C0 ≤ f.1 ∧ f.1 < 0x100 then
    let c : Chan := ⟨f.1 - 0x0C0, by omega⟩
    serveEv c ((getCh s c).evLatch.length + (getCh s c).sigWait.length) s
  else s

/-! ## Fixed-point and bit helpers -/

/-- Signed value of the low w bits of a number. -/
def toSigned (w n : Nat) : Int := (BitVec.ofNat w n).toInt

/-- The low 32 bits of an integer. -/
def wordOf (i : Int) : Word := BitVec.ofInt 32 i

/-- All values of Fin n, in order. -/
def allFin (n : Nat) : List (Fin n) := List.finRange n

/-- Apply a change for each member of a list, in order. -/
def forEach {α : Type} (f : α → State → State) : List α → State → State
  | [], s => s
  | x :: xs, s => forEach f xs (f x s)

/-- Concatenated fields (value, width) from bit 0 up, as a word. -/
def packFields : List (Nat × Nat) → Nat
  | [] => 0
  | (v, w) :: r => v % 2 ^ w + 2 ^ w * packFields r

/-- A word from fields listed from bit 0 up: (value, width). -/
def packW (l : List (Nat × Nat)) : Word := BitVec.ofNat 32 (packFields l)

/-- Bits of a Bool list, bit 0 first. -/
def bitsOf (l : List Bool) : Nat := packFields (l.map fun b => (b2n b, 1))

end Sys2Proof.Machine
end

