-- ==== Sys2Proof/Machine/Engines.lean ====
section
/-!
DEFINITION. What several families share about channels, pages and engines: how an action ends, a channel fault (R232),
the stops of motors and loops, a page abort (R580-R586), the faults of engines, and Safe Hold entry (R60).
-/

namespace Sys2Proof.Machine

/-! ## Channels and pages -/

/-- This device's number in the cascade; 0 on a manager (18). -/
def devNum (s : State) : Nat := s.skid.devnum.toNat

/-- SRC of a record of channel c: device * 64 + channel (R301). -/
def srcOf (s : State) (c : Chan) : BitVec 16 := BitVec.ofNat 16 (devNum s * 64 + c.1)

/-- The page has been admitted and its record is not yet staged. -/
def Page.isAdm (g : Page) : Bool := g.st != .posted

/-- The plan names channel c. -/
def Page.names (g : Page) (c : Chan) : Bool := g.plan.chans.contains c

/-- The plan names engine e: a station 0-3 or the head 4. -/
def Page.uses (g : Page) (e : Nat) : Bool := g.plan.engines.getLsbD e

/-- The channel is page-critical (R217). -/
def pcrit (s : State) (c : Chan) : Bool := s.cue.pages.any fun g => g.isAdm && g.names c

/-- Insert a page by ascending admission number. -/
def insertAdm (g : Page) : List Page → List Page
  | [] => [g]
  | h :: t => if g.adm.toNat ≤ h.adm.toNat then g :: h :: t else h :: insertAdm g t

/-- The admitted pages in admission order. -/
def admPages (s : State) : List Page := (s.cue.pages.filter Page.isAdm).foldr insertAdm []

/-- The open admitted page with this number. -/
def pageByAdm (s : State) (adm : Word) : Option Page := s.cue.pages.find? fun g => g.isAdm && g.adm == adm

/-- The open plan with this handle. -/
def pageByHandle (s : State) (h : Word) : Option Page := s.cue.pages.find? (·.handle == h)

/-- Change the page with this handle. -/
def modPage (h : Word) (f : Page → Page) (s : State) : State := modPages (·.handle == h) f s

/-- Resource a timed action acts on; 0xFF for a SIG (R301). -/
def actRes : ActOp → Nat
  | .seg m _ _ => m.1
  | .setp l _ | .ramp l _ | .loopon l _ | .loopoff l => 20 + l.1
  | .gpio g _ _ => 90 + g.1
  | .fire n => 84 + n.1
  | .strobe _ => 88
  | .scanl _ => 89
  | .sig _ _ _ => 0xFF

/-- Where a SIG to a target channel goes: the event queue of a channel of this device, else the skid port toward the
target's device (R645). -/
def sigFlume (s : State) (target : BitVec 9) : FlumeId :=
  let d := target.toNat / 64
  if d = devNum s then evFl (Fin.ofNat 64 target.toNat) else if d < devNum s then skidFl 0 else skidFl 1

/-- Destination flume of a timed action (R263). -/
def actDest (s : State) : ActOp → Option FlumeId
  | .seg m _ _ => some (motFl m)
  | .setp l _ | .ramp l _ => some (spFl l)
  | .scanl _ => some scanFl
  | .sig t _ _ => some (sigFlume s t)
  | _ => none

/-- Engine index of a FIRE or STROBE. -/
def actEngine : ActOp → Option Engine
  | .fire n => some ⟨n.1, by omega⟩
  | .strobe _ => some 4
  | _ => none

/-- One tagged scan or line of an admitted page has ended or will never run. -/
def finishOne (adm : Option Word) (e : Engine) (s : State) : State :=
  match adm with
  | none => s
  | some n => modPages (fun g => g.isAdm && g.adm == n)
      (fun g => { g with finished := tmod g.finished e (· + 1) }) s

/-- ET and the other parts of the action's ACTION record (R145, R301): outcome 0 EXEC, 1 DROPPED, 2 FAULTED. -/
def actionRec (s : State) (a : Action) (outcome code : Nat) (synth : Bool) : Rec :=
  mkRec s 2 (srcOf s a.chan) 0
    (BitVec.ofNat 8 (bitsOf [a.late, synth, a.shift, a.slip] + 64 * outcome))
    (leBytes 4 a.pc ++ leBytes 2 code ++ leBytes 1 a.res ++ [0] ++ leBytes 8 (a.et.getD 0))

/-- Count an action's outcome in its channel's statistics (R238). -/
def countAction (a : Action) (outcome : Nat) (x : Channel) : Channel :=
  { x with stats := { x.stats with
      executed := if outcome = 0 then satInc x.stats.executed else x.stats.executed
      drops := if outcome = 1 then satInc x.stats.drops else x.stats.drops
      lates := if a.late then satInc x.stats.lates else x.stats.lates } }

/-- An action ends with an outcome (R145): it is counted, the tally it took for its destination returns where it did not
execute, its record is posted where one is due, and its action-queue entry is finished or waits for the record (R690). -/
def endAction (a : Action) (outcome code : Nat) (synth : Bool) (s : State) : State :=
  let s1 := modCh a.chan (countAction a outcome) s
  let s2 := if outcome = 0 then s1 else
    let s3 := match actDest s a.op, a.destLost with | some f, false => retTally f s1 | _, _ => s1
    match actEngine a.op with | some e => finishOne a.page e s3 | none => s3
  if outcome ≠ 0 ∨ a.cpl then
    post (actionRec s2 a outcome code synth) (.action a.chan a.id)
      (modCh a.chan (fun x => { x with actq := x.actq.map fun b => if b.id == a.id then { b with done := true } else b }) s2)
  else finishAction a.chan a.id s2

/-- The channel's pending actions, oldest first. -/
def pendingActs (s : State) (c : Chan) : List Action := (getCh s c).actq.filter (!·.done)

/-- Every pending action of the channel that p picks is discarded as DROPPED. -/
def dropActs (c : Chan) (p : Action → Bool) (s : State) : State :=
  forEach (fun a => endAction a 1 0 false) ((pendingActs s c).filter p) s

/-- Tallies collected by an abandoned TAKE return to their flume (R274). -/
def returnTaking (c : Chan) (s : State) : State :=
  modCh c (fun x => { x with taking := none })
    (forEach (fun p : FlumeId × Nat => retTallies p.1 p.2) (getCh s c).taking.toList s)

/-- Held and collected tallies return to their flumes (R274). -/
def returnHeld (c : Chan) (s : State) : State :=
  let x := getCh s c
  let s1 := forEach (fun p : FlumeId × Nat => retTallies p.1 p.2) (x.held ++ x.taking.toList) s
  modCh c (fun x => { x with held := [], taking := none }) s1

/-! ## Motors (12) -/

/-- The motor as a stepper or a BLDC motor. -/
def motKind (m : Motor) : Fin 16 ⊕ Fin 4 := if h : m.1 < 16 then .inl ⟨m.1, h⟩ else .inr ⟨m.1 - 16, by omega⟩

def stepMotor (n : Fin 16) : Motor := ⟨n.1, by omega⟩
def bldcMotor (k : Fin 4) : Motor := ⟨16 + k.1, by omega⟩

/-- The segments in a motor's flume and the running one are discarded, returning their tallies. -/
def discardSegs (m : Motor) (s : State) : State :=
  match motKind m with
  | .inl n =>
    let x := getStep s n
    modStep n (fun x => { x with q := [], cur := none, joint := none })
      (retTallies (motFl m) (x.q.length + x.cur.toList.length) s)
  | .inr k =>
    let x := getBldc s k
    modBldc k (fun x => { x with q := [], cur := none }) (retTallies (motFl m) (x.q.length + x.cur.toList.length) s)

/-- The stepper stands still: its shadow is updated where RETAIN is set (R442). -/
def noteStill (n : Fin 16) (s : State) : State :=
  if s.aon.retain.getLsbD n.1 then
    modAon (fun a => { a with shadow := tset a.shadow n (getStep s n).pos, shadowValid := withBit a.shadowValid n.1 true }) s
  else s

/-- The stepper leaves standstill (R442). -/
def noteMoving (n : Fin 16) (s : State) : State :=
  modAon (fun a => { a with shadowValid := withBit a.shadowValid n.1 false }) s

/-- State a stepper ends in after a stop: HOLD after STOP, IDLE after DISARM or Safe Hold (R450, R455, R456). -/
def restState (hold vmot : Bool) : StopWhy → MotSt
  | .stop | .runOn _ => if hold || !vmot then .idle else .hold
  | .disarm | .safe => .idle

/-- A stepper that has come to rest. -/
def stillStep (n : Fin 16) (why : StopWhy) (s : State) : State :=
  let st := restState s.aon.hold s.motn.vmotOk why
  noteStill n (modStep n (fun x => { x with
    st := st, vel := 0, frac := 0, coupled := false,
    amps := if st == .hold then x.iholdD else 0 }) s)

/-- A stepper that stands still takes the rest state of a stop; it has come to no new standstill (R442). -/
def stopAtRest (n : Fin 16) (why : StopWhy) (s : State) : State :=
  let st := restState s.aon.hold s.motn.vmotOk why
  modStep n (fun x => { x with st := st, amps := if st == .hold then x.iholdD else 0 }) s

/-- A stepper discards its segments and decelerates (R450, R455, R456). One at rest comes to its rest state at once. -/
def stopStep (n : Fin 16) (why : StopWhy) (s : State) : State :=
  let s1 := discardSegs (stepMotor n) s
  let x := getStep s1 n
  if x.st == .fault then s1
  else if x.st == .idle || x.st == .hold then stopAtRest n why s1
  else if x.vel = 0 then stillStep n why s1
  else modStep n (fun x => { x with st := .stopping, why := why, stopNew := x.stopNew || why == .stop }) s1

/-- A BLDC motor discards its segments and decelerates. -/
def stopBldc (k : Fin 4) (why : StopWhy) (s : State) : State :=
  let s1 := discardSegs (bldcMotor k) s
  let x := getBldc s1 k
  if x.st == .fault || x.st == .idle then s1
  else modBldc k (fun x => { x with st := .stopping, why := why, stopNew := x.stopNew || why == .stop }) s1

/-- STOP of any motor. -/
def stopMotor (m : Motor) (why : StopWhy) (s : State) : State :=
  match motKind m with
  | .inl n => stopStep n why s
  | .inr k => stopBldc k why s

/-- The motor is at rest: not moving, not stopping. -/
def motorStill (s : State) (m : Motor) : Bool :=
  match motKind m with
  | .inl n => let x := getStep s n; x.st != .moving && x.st != .stopping
  | .inr k => let x := getBldc s k; x.st != .moving && x.st != .stopping

/-- Microsteps in EXITLEN full steps, the distance of an EXIT run-on. -/
def runOnOf (exitLen : Nat) : Int := 256 * (exitLen : Int)

/-- A stepper of EXITMASK discards its segments and runs on (R585). One at standstill, or in FAULT, stays as it is. -/
def runOnStep (exitLen : Nat) (n : Fin 16) (s : State) : State :=
  let x := getStep s n
  if x.st == .fault then s
  else
    let s1 := discardSegs (stepMotor n) s
    if x.vel = 0 then
      (if x.st == .moving then stillStep n .stop s1 else s1)
    else modStep n (fun x => { x with st := .moving, why := .runOn (runOnOf exitLen) }) s1

/-! ## Loop slots (13) -/

/-- The slot's setpoint entries are discarded, returning their tallies. -/
def discardSps (l : LoopId) (s : State) : State :=
  modLoop l (fun x => { x with q := [] }) (retTallies (spFl l) (getLoop s l).q.length s)

/-- A slot enters OFF with its output idle at once: a TRIM output holds, every other one goes to 0 (R491). -/
def loopIdle (l : LoopId) (s : State) : State :=
  modLoop l (fun x => { x with
    st := .off, locked := false, uNext := none, warmAt := none, offAt := some s.now
    u := if x.kind = 4 then x.u else 0, uOld := 0 }) (discardSps l s)

/-- LOOPOFF of a slot: only a RUN slot is changed (R491). -/
def loopOffOp (l : LoopId) (s : State) : State := if (getLoop s l).st == .run then loopIdle l s else s

/-- HV channel of a slot bound to one. -/
def hvOf (x : LoopS) : Option (Fin 16) := if x.kind = 1 then some (Fin.ofNat 16 x.out.toNat) else none

/-- At an abort a RUN HV slot of a named channel drops its entries and makes for STBY at the band limit (R481). Its lock and its
trail check end only as R473 and R476 say. -/
def hvStandby (l : LoopId) (s : State) : State :=
  let x := getLoop s l
  match hvOf x with
  | some h =>
    if x.st == .run then
      modLoop l (fun x => { x with
        target := 256 * (tget s.loops.hv h).stby.toNat, rate := none }) (discardSps l s)
    else s
  | none => s

/-- Slots held by a channel. -/
def heldSlots (s : State) (c : Chan) : List LoopId := (allFin 48).filter fun l => holder s (20 + l.1) == some c

/-! ## Bands of a page (R421, R533, R569, R577) -/

/-- The decoder of engine e abandons its stream: its descriptors are discarded and their tallies return. -/
def cutDec (e : Engine) (s : State) : State :=
  let u : Fin 6 := ⟨e.1, by omega⟩
  retTallies (decFl u) (tget s.rast.dec u).q.length
    (modRast (fun r => { r with dec := tmod r.dec u fun d => { d with q := [], active := false, fetchEnd := true } }) s)

/-- The band engine e is staging belongs to the plan. -/
def stagingOf (s : State) (handle : Word) (e : Engine) : Bool :=
  match tget s.rast.cur e with
  | some b => b.handle == handle
  | none => false

/-- Every band of the plan, in engine e's staged-band flume or still being staged, is released; the tally of each entry of the
flume returns (R421, R569). -/
def releaseEngine (handle : Word) (e : Engine) (s : State) : State :=
  let n := ((tget s.rast.staged e).filter (·.handle == handle)).length
  let busy := stagingOf s handle e
  let s1 := if busy then cutDec e s else s
  retTallies (bandFl e) n (modRast (fun r => { r with
    staged := tmod r.staged e (·.filter (·.handle != handle))
    cur := if busy then tset r.cur e none else r.cur
    starved := tmod r.starved e (·.filter (·.handle != handle)) }) s1)

/-- A scan of page adm is in progress on engine e, or a head line of it. -/
def engineBusy (s : State) (adm : Word) (e : Engine) : Bool :=
  if h : e.1 < 4 then
    match (getStn s ⟨e.1, h⟩).scan with
    | some sc => sc.page == some adm
    | none => false
  else match s.head.line with
    | some l => l.page == adm && !l.stop
    | none => false

/-- Bands of an aborting page are released on every engine that has no scan or line of it in progress. -/
def releaseAborted (g : Page) (s : State) : State :=
  forEach (fun e => if engineBusy s g.adm e then id else releaseEngine g.handle e) (allFin 5) s

/-! ## Rejection and abort (R568, R569, R580-R586) -/

/-- A plan that is not admitted is rejected: cause 1 BAND, 2 PARTNER, 3 WITHDRAWN (R569). Channels blocked in COMMIT ADMIT
on it fault with PLAN_REJECTED at their next attempt. -/
def rejectPlan (cause : Nat) (g : Page) (s : State) : State :=
  let s1 := forEach (releaseEngine g.handle) (allFin 5) s
  let s2 := modCue (fun c => { c with
    pages := c.pages.filter (·.handle != g.handle)
    lastPost := c.lastPost.map fun p => match p with
      | some (h, d, b) => if h == g.handle then some (h, d, true) else some (h, d, b)
      | none => none }) s1
  engine (unitSrc 3 0) 0x0170 0xFFFF (leBytes 4 g.handle.toNat ++ leBytes 1 cause) s2

/-- The DUPLEX2 plan that directly follows a DUPLEX1 plan on its path, among the open ones: the next handle on the path. -/
def partnerOf (s : State) (g : Page) : Option Page :=
  if g.plan.dup1 then
    match s.cue.pages.filter (fun h => h.plan.path == g.plan.path && decide (g.handle.toNat < h.handle.toNat)) with
    | h :: _ => if h.plan.dup2 then some h else none
    | [] => none
  else none

/-- Reject a plan and, where it is a DUPLEX1 plan, its posted DUPLEX2 partner (R568). -/
def rejectWithPartner (cause : Nat) (g : Page) (s : State) : State :=
  let s1 := rejectPlan cause g s
  match partnerOf s g with
  | some h => if h.isAdm then s1 else rejectPlan 2 h s1
  | none => s1

/-- The DIVERT setting drives its GPIO, whatever its grant (R586). -/
def applyDivert (g : Page) (s : State) : State :=
  if bitB g.plan.divert 7 then
    let d : GpioS := { out := true, level := bitB g.plan.divert 6, divert := true, next := [] }
    modCue (fun c => { c with gpio := tset c.gpio (Fin.ofNat 32 (bitsN g.plan.divert 4 0)) d }) s
  else s

/-- Motions of an abort form: 1 EXIT (run-on of EXITMASK and DIVERT), 2 JAM (STOP of every stepper and of the BLDC motors
not in KEEPB); HOLD motions are those of Safe Hold (R584, R585). -/
def formMotion (form : Nat) (g : Page) (s : State) : State :=
  if form = 1 then
    forEach (fun n : Fin 16 => if g.plan.exitMask.getLsbD n.1 then runOnStep g.plan.exitLen n else id) (allFin 16)
      (applyDivert g s)
  else if form = 2 then
    forEach (fun k : Fin 4 => if s.cue.keepb.getLsbD k.1 then id else stopBldc k .stop) (allFin 4)
      (forEach (fun n : Fin 16 => stopStep n .stop) (allFin 16) s)
  else s

/-- The action is a FIRE or STROBE tagged with the page. -/
def taggedWith (adm : Word) (a : Action) : Bool :=
  (match a.op with | .fire _ | .strobe _ => true | _ => false) && a.page == some adm

/-- One page aborts at this tick (R584): the cause is latched, its tagged actions are dropped, its channels get
PAGE_ABORTED, the head stops after its group slot, HV slots make for STBY, bands are released. -/
def abortOne (cause form : Nat) (g : Page) (s : State) : State :=
  let s1 := modPage g.handle (fun g => { g with st := .aborting, cause := BitVec.ofNat 8 cause, form := BitVec.ofNat 8 form }) s
  let s2 := forEach (fun c => dropActs c (taggedWith g.adm)) (allFin 64) s1
  let s3 := chEvents (unitSrc 3 0) 0x0171 g.adm g.plan.chans s2
  let s4 := modHead (fun h => { h with line := h.line.map fun l => if l.page == g.adm then { l with stop := true } else l }) s3
  let s5 := if form = 3 then s4 else forEach (fun c => forEach hvStandby (heldSlots s4 c)) g.plan.chans s4
  let s6 := releaseAborted g s5
  let s7 := modCue (fun c => { c with
      lastPost := c.lastPost.map fun p => match p with
      | some (h, d, b) => if h == g.handle then some (h, d, true) else some (h, d, b)
      | none => none }) s6
  match partnerOf s g with
  | some h => if h.isAdm then s7 else rejectPlan 2 h s7
  | none => s7

/-- Admitted pages not yet aborting that p picks, with every later one on the same path, which aborts with cause PATH
(R581). Each with its cause. -/
def abortSet (cause : Nat) (p : Page → Bool) : List Page → List (BitVec 2) → List (Page × Nat)
  | [], _ => []
  | g :: gs, paths =>
    if g.st == .aborting then abortSet cause p gs paths
    else if p g then (g, cause) :: abortSet cause p gs (g.plan.path :: paths)
    else if paths.contains g.plan.path then (g, 10) :: abortSet cause p gs paths
    else abortSet cause p gs paths

/-- Abort every admitted page that p picks, in admission order, with the cause and form given; pages taken along on their
path abort with cause PATH in the EXIT form (R580-R583). The motions use the oldest page's fields (R585). -/
def abortPages (p : Page → Bool) (cause form : Nat) (s : State) : State :=
  let l := abortSet cause p (admPages s) []
  let s1 := forEach (fun x : Page × Nat => abortOne x.2 (if x.2 = 10 then 1 else form) x.1) l s
  match l with
  | [] => s1
  | (g, _) :: _ => formMotion form g s1

/-- Pages already aborting take a stronger form (R583): HOLD always, JAM over EXIT. -/
def raiseForm (form : Nat) (s : State) : State :=
  modPages (fun g => g.st == .aborting && !g.complete && decide (g.form.toNat < form))
    (fun g => { g with form := BitVec.ofNat 8 form }) s

/-- Abort every admitted page that names channel c, cause as given, in the EXIT form. -/
def abortChanPages (cause : Nat) (c : Option Chan) (s : State) : State :=
  match c with
  | some c => abortPages (fun g => g.names c) cause 1 s
  | none => s

/-- Abort every admitted page that names engine e, with cause ENGINE. -/
def abortEnginePages (e : Nat) (s : State) : State := abortPages (fun g => g.uses e) 4 1 s

/-! ## Channel faults (R232-R234) -/

def fIllegal := 0x0001
def fPcRange := 0x0002
def fStack := 0x0003
def fScratch := 0x0004
def fNoLib := 0x0005
def fBadPrefix := 0x0006
def fNoTime := 0x0007
def fBadRes := 0x0008
def fNotGranted := 0x0009
def fLevel := 0x000A
def fNoPreset := 0x000B
def fFlumeDown := 0x000C
def fBadTarget := 0x000D
def fBadCount := 0x000E
def fPageHalt := 0x000F
def fBadPlan := 0x0010
def fLate := 0x0020
def fToothLoss := 0x0021
def fSheetClear := 0x0022
def fStationOff := 0x0050
def fLineOverrun := 0x0051
def fNotHomed := 0x0060
def fMotFault := 0x0061
def fBadSeg := 0x0062
def fLoopShort := 0x0070
def fLoopDep := 0x0071
def fLoopCfg := 0x0072
def fLoopBusy := 0x0073
def fLoopFault := 0x0074
def fHeadOff := 0x0080
def fHeadOverrun := 0x0081
def fScanOff := 0x0090
def fScanOverrun := 0x0091
def fScanMotor := 0x0092
def fPlanRejected := 0x00A0

/-- The policy HALT applies: FAULT_POL 0, LATE_FAULT, SHEET_CLEAR, or a fault while HND is 1 (R232, R233). -/
def haltPolicy (x : Channel) (code : Nat) : Bool :=
  !x.entry.handlerPol || code == fLate || code == fSheetClear || bitB x.flags 6

/-- A HALTED or FAULTED channel keeps its state; only a running one becomes FAULTED (R216; log 14). -/
def haltState (x : Channel) : ChSt := if x.st == .running then .faulted else x.st

/-- The present wait of a channel ends at ET et; MAX_BLOCK keeps the longest, in units of 10 ns (R238). -/
def endBlock (et : Nat) (x : Channel) : Channel :=
  match x.blocked with
  | none => x
  | some t => { x with
      blocked := none
      stats := { x.stats with maxBlock := BitVec.ofNat 32 (max x.stats.maxBlock.toNat (min ((et - t) / 8) 0xFFFFFFFF)) } }

/-- The context after a fault at ET et (R232). -/
def faultCtx (code fpc et : Nat) (x0 : Channel) : Channel :=
  let x := endBlock et x0
  let y := { x with
    faultCode := BitVec.ofNat 16 code, fpc := fpc, pfx := none
    stats := { x.stats with faults := satInc x.stats.faults, lastFault := BitVec.ofNat 16 code,
                            lastFpc := BitVec.ofNat 32 fpc } }
  if haltPolicy x code then { y with st := haltState x }
  else { y with pc := { lib := false, off := x.entry.handler }, stack := [], flags := withBit y.flags 6 true,
                slots := tset (tset y.slots 15 (BitVec.ofNat 32 code)) 14 (BitVec.ofNat 32 fpc) }

/-- Channel c takes a fault at offset fpc (R232-R234): the record is posted, the policy applied, held tallies returned when
the channel stops, and a page-critical channel's pages aborted. -/
def chFault (c : Chan) (code fpc : Nat) (s : State) : State :=
  let x := getCh s c
  let halt := haltPolicy x code
  let s1 := modCh c (faultCtx code fpc s.cue.et.toNat) s
  let s2 := post (mkRec s1 3 (srcOf s c) 0 (if halt then 0 else 1) (leBytes 4 fpc ++ leBytes 2 code ++ List.replicate 10 0))
    (.chan c) s1
  let s3 := if halt then returnHeld c (dropActs c (fun _ => true) s2) else returnTaking c s2
  if pcrit s c then abortChanPages 3 (some c) s3 else s3

/-- Only a RUNNING or HALTED channel can take a fault of an action of its own. -/
def liveChan (s : State) (c : Chan) : Bool := let x := getCh s c; x.st == .running || x.st == .halted

/-- A refused action: FAULTED, and its channel takes the fault at the timed instruction's offset (R266). -/
def refuseAction (a : Action) (code : Nat) (synth : Bool) (s : State) : State :=
  let s1 := endAction a 2 code synth s
  if liveChan s1 a.chan then chFault a.chan code a.pc s1 else s1

/-! ## Engine faults -/

/-- Log and event code of a motor fault cause (R447). -/
def motCode (cause : Nat) : Nat := 0x012F + cause

/-- Log an engine fault: the event code, the resource and its cause (log 15). -/
def logEngine (code res cause : Nat) (s : State) : State :=
  logFrom res code (BitVec.ofNat 32 res) (BitVec.ofNat 32 cause) s

/-! ## The scanner's line and coupled step (R541, R553) -/

/-- Readout window TR in ticks, and microsteps of a coupled step (R541). -/
def scanTr (x : ScanE) : Nat := (x.cur.dummy.toNat + x.cur.segpix.toNat) * (2 * x.cur.cdiv.toNat)
def scanAvg (x : ScanE) : Nat := if x.curMode.avg = 0 then 1 else if x.curMode.avg = 1 then 2 else 4
def scanSteps (x : ScanE) : Nat := x.curMode.feed.toNat * scanAvg x

/-- End of the exposure of the line in progress. -/
def exposureEnd (x : ScanE) (l : SLine) : Nat := l.d + 800 * x.cur.exp.toNat

/-- Microsteps of a coupled step placed d ticks after the end of the exposure: microstep k falls at floor(k × TR / n). -/
def stepsBy (x : ScanE) (d : Nat) : Nat :=
  let n := scanSteps x
  let tr := scanTr x
  if tr = 0 then n else min n (((d + 1) * n + tr - 1) / tr - 1)

/-- Instants of the first k microsteps of a coupled step whose readout began at ET x0 (R541). -/
def coupledTimes (s : State) (x0 k : Nat) : List (Nat × Int) :=
  (List.range k).map fun j =>
    (s.now + (x0 + (j + 1) * scanTr s.scan / scanSteps s.scan) - s.cue.et.toNat, if s.scan.curMode.dir then -1 else 1)

/-- The coupled step of the line whose readout began at x0 has ended after k microsteps; the stepper is in HOLD again, at its
holding current (R541). -/
def stepCoupled (x0 k : Nat) (s : State) : State :=
  let n : Fin 16 := Fin.ofNat 16 s.scan.curMode.stepper.toNat
  let d : Int := if s.scan.curMode.dir then -(k : Int) else k
  let s1 := noteStill n (modStep n (fun x => { x with
    pos := x.pos + BitVec.ofInt 32 d, coupled := false, amps := if x.st == .hold then x.iholdD else 0 }) s)
  if k = 0 then s1 else emit (emit s1 (.usteps n d)) (.ustepTimes n (coupledTimes s x0 k))

/-- The coupled step under way stops at its last microstep, with POS exact, where its line or its stepper is lost (R560; for a
loss other than Safe Hold, log 75). -/
def cutCoupled (s : State) : State :=
  match s.scan.line with
  | some l =>
    let x0 := exposureEnd s.scan l
    if l.couples && decide (x0 ≤ s.cue.et.toNat) then
      stepCoupled x0 (stepsBy s.scan (s.cue.et.toNat - x0))
        (modScan (fun x => { x with line := some { l with couples := false } }) s)
    else s
  | none => s

/-- The line in progress is discarded, and the tally of flume 0x190 that its SCANL took returns (R22, R553, R560). -/
def dropLine (s : State) : State :=
  if s.scan.line.isSome then retTally scanFl (modScan (fun x => { x with line := none }) s) else s

/-- The scanner enters FAULT and drops the line in progress (R553). -/
def scanFault (cause : Nat) (s : State) : State :=
  if s.scan.st == .ready || s.scan.st == .cal then
    engine 89 0x0161 89 (leBytes 1 cause)
      (modScan (fun x => { x with st := .fault, fcause := BitVec.ofNat 8 cause }) (dropLine (cutCoupled s)))
  else s

/-- The state of a stepper in FAULT: gates low, HOMED clear (R447). -/
def stepFaultSt (cause : Nat) (x : StepperS) : StepperS :=
  { x with st := .fault, fcause := BitVec.ofNat 8 cause, homed := false, vel := 0, amps := 0, coupled := false, stopNew := false }

/-- Event, record and abort of a motor fault (R447). -/
def motFaultTell (m : Motor) (cause data : Nat) (s : State) : State :=
  let s1 := holderEvent m.1 (motCode cause) (packW [(m.1, 8), (cause, 8)]) s
  let s2 := engine m.1 (motCode cause) m.1 (leBytes 4 data ++ leBytes 1 cause) s1
  abortChanPages 4 (holder s m.1) s2

/-- A motor enters FAULT: 1 OC, 2 STALL, 3 HOME, 4 DRV, 5 HALL (R447, R553). -/
def motFault (m : Motor) (cause : Nat) (s : State) : State :=
  let s0 := discardSegs m s
  match motKind m with
  | .inl n =>
    let s1 := if s.scan.curMode.stepper.toNat = n.1 then cutCoupled s0 else s0
    let s2 := motFaultTell m cause (getStep s n).pos.toNat (modStep n (stepFaultSt cause) s1)
    if s.scan.curMode.stepper.toNat = n.1 then scanFault 2 s2 else s2
  | .inr k =>
    motFaultTell m cause (getBldc s k).speed.toNat
      (modBldc k (fun x => { x with st := .fault, fcause := BitVec.ofNat 8 cause, set_ := 0, stopNew := false }) s0)

/-- Drive currents of a station in FAULT (R407, state table of 11). -/
def stnFaultSt (cause : Nat) (x : StationS) : StationS :=
  { x with st := .fault, fcause := BitVec.ofNat 8 cause, scan := none, beams := x.beams.map fun b => { b with idrv := 0 } }

/-- Bands of a page that aborts are released once its last scan or line is over (R421, R533). -/
def releaseIfAborting (adm : Option Word) (s : State) : State :=
  match adm.bind (pageByAdm s) with
  | some g => if g.st == .aborting then releaseAborted g s else s
  | none => s

/-- The scan in progress of station n, if any, counts as ended for its page. -/
def cutScan (n : Station) (s : State) : State :=
  match (getStn s n).scan with
  | some sc => releaseIfAborting sc.page (finishOne sc.page ⟨n.1, by omega⟩ (modStn n (fun x => { x with scan := none }) s))
  | none => s

/-- A station enters FAULT (1 POLY, 2 OVP, 3 CAL) and aborts every admitted page that names it (R412). -/
def stationFault (n : Station) (cause : Nat) (s : State) : State :=
  abortEnginePages n.1 (modStn n (stnFaultSt cause) (cutScan n s))

/-- The head line in progress ends here; it counts for ROT like any line with a slot (R507). -/
def cutHead (s : State) : State :=
  match s.head.line with
  | some l => releaseIfAborting (some l.page)
      (finishOne (some l.page) 4 (modHead (fun h => { h with line := none, lineCtr := h.lineCtr + 1, endAt := s.cue.et.toNat }) s))
  | none => s

/-- The head enters FAULT (1 HOT, 2 SENSOR, 3 SUPPLY) (R522). -/
def headFault (cause : Nat) (s : State) : State :=
  let s1 := modHead (fun h => { h with st := .fault, fcause := BitVec.ofNat 8 cause }) (cutHead s)
  let s2 := holderEvent 88 0x0152 (packW [(88, 8), (cause, 8)]) s1
  let s3 := engine 88 0x0152 88 (leBytes 1 cause ++ [0] ++ leBytes 2 s.head.temp.toNat) s2
  abortEnginePages 4 (logEngine 0x0152 88 cause s3)

/-- A heater slot that leaves FAULT for OFF takes its zone out of FAULT. -/
def zoneFree (x : LoopS) (s : State) : State :=
  if x.kind = 2 && x.st == .fault then modZone (Fin.ofNat 2 x.out.toNat) (fun z => { z with cause := 0 }) s else s

/-- Slot l is put OFF because a slot it depends on has shorted (R477). One in SHORT stays, since only CLR takes it out (R480;
log 64). -/
def depOff (shorted : LoopId) (l : LoopId) (s : State) : State :=
  let x := getLoop s l
  if x.st != .off && x.st != .short && x.dep.getLsbD shorted.1 then
    engine (20 + l.1) 0x0141 (20 + l.1) (leBytes 1 (20 + shorted.1))
      (zoneFree x (modLoop l (fun x => { x with cause := 0 }) (loopIdle l s)))
  else s

/-- Data of an HV_SHORT record (R688). -/
def shortData (cause : Nat) (x : LoopS) : List Byte :=
  leBytes 1 cause ++ leBytes 1 x.tries.toNat ++ leBytes 2 (x.sp / 256) ++ leBytes 2 x.m.toNat

/-- An HV slot is shorted: 1 TRAIL, 2 ILIM (R477, R478). TRIES counts the failed attempt; COOL follows while retries
remain, else SHORT. -/
def hvShort (l : LoopId) (cause : Nat) (s : State) : State :=
  let x := getLoop s l
  let tries := x.tries + 1
  let st := if x.tries.toNat < x.g.retry then LoopSt.cool else LoopSt.short
  let s1 := modLoop l (fun x => { x with
    st := st, cause := BitVec.ofNat 8 cause, tries := tries, u := 0, uOld := 0, locked := false, offAt := none,
    trail := false, trailAt := none, uNext := none, warmAt := none, again := x.target, coolAt := s.cue.et.toNat }) (discardSps l s)
  let s2 := logEngine 0x0140 (20 + l.1) cause s1
  let s3 := engine (20 + l.1) 0x0140 (20 + l.1) (shortData cause (getLoop s1 l)) s2
  let s4 := holderEvent (20 + l.1) 0x0140 (packW [(20 + l.1, 8), (cause, 8)]) s3
  let s5 := abortChanPages 4 (holder s (20 + l.1)) s4
  forEach (depOff l) (allFin 48) s5

/-- The heater slot bound to zone z that is not OFF. -/
def zoneSlot (s : State) (z : Zone) : Option LoopId :=
  (allFin 48).find? fun l => let x := getLoop s l; x.kind == 2 && x.out.toNat == z.1 && x.st != .off

/-- Any slot bound to zone z. -/
def zoneAnySlot (s : State) (z : Zone) : Option LoopId :=
  (allFin 48).find? fun l => let x := getLoop s l; x.kind == 2 && x.out.toNat == z.1

/-- A heater zone faults: 3 OVT, 4 SENSOR, 5 ZC, 6 WARM (R487). -/
def zoneFault (z : Zone) (cause : Nat) (s : State) : State :=
  let slot := (zoneSlot s z).orElse fun _ => zoneAnySlot s z
  let s1 := match slot with
    | some l => modLoop l (fun x => { x with
        st := .fault, cause := BitVec.ofNat 8 cause, u := 0, uOld := 0, locked := false,
        uNext := none, warmAt := none }) (discardSps l s)
    | none => s
  let zn := getZone s z
  let s2 := logEngine 0x0142 (138 + z.1) cause (modZone z (fun x => { x with firing := none, cause := BitVec.ofNat 8 cause }) s1)
  let s3 := engine (138 + z.1) 0x0142 (138 + z.1)
    (leBytes 1 cause ++ [0] ++ leBytes 2 zn.priT.toNat ++ leBytes 2 zn.guardT.toNat) s2
  match slot with
  | some l =>
    let s4 := holderEvent (20 + l.1) 0x0142 (packW [(138 + z.1, 8), (cause, 8)]) s3
    abortChanPages 4 (holder s (20 + l.1)) s4
  | none => s3

/-! ## Safe Hold (02) -/

/-- Heartbeat loss is a live cause (R71). -/
def beatLive (s : State) : Bool :=
  (s.aon.liveBeat && domOn s 3) || (!domOn s 3 && (s.aon.beatMask &&& s.aon.faults) != 0)

/-- Thermal shutdown is a live cause (R602). -/
def thermLive (s : State) : Bool := s.therm.isShut || s.therm.cause == 2

/-- An internal cause is live (R62). -/
def liveCause (s : State) : Bool := thermLive s || s.aon.livePart || beatLive s

/-- The controller pulls SAFE_n low (R62, R63). -/
def safeDrive (s : State) : Bool := s.aon.por || s.aon.mrst || s.aon.assert_ || liveCause s

/-- Level of SAFE_n. -/
def safeIn (s : State) : Bool := s.aon.safeHigh && !safeDrive s

/-- A Cue core has issued nothing for more than 2 us (R70, R214). -/
def coreSilent (s : State) : Bool := s.cue.coreStopped != 0 && decide (s.cue.stopAt + 2 * us < s.now)

/-- The Cue fabric heartbeat is present (R70). -/
def heartbeat (s : State) : Bool := domUp s 3 && !coreSilent s && !s.aon.liveBeat

/-- ALIVE toggles (R69, R72). -/
def aliveOn (s : State) : Bool := domUp s 3 && heartbeat s && !s.aon.hold

/-- Remember the last instant DRIVE was 1 (R65, R68). -/
def noteDrive (f : State → State) (s : State) : State :=
  let t := f s
  if safeDrive s && !safeDrive t then modAon (fun a => { a with driveEnd := t.now }) t else t

/-- A station at Safe Hold entry (R422). -/
def stnHold (x : StationS) : StationS :=
  { x with scan := none, polySeen := false, facets := 0, facet := none,
           st := (match x.st with | .cal | .ready => .cal | st => st)
           beams := x.beams.map fun b => { b with okN := 0 } }

/-- The scanner at Safe Hold entry (R560): the line is dropped; a step that had begun stops at its last microstep and makes
FAULT CUT. -/
def scanHold (s : State) : State :=
  match s.scan.line with
  | some l =>
    let x0 := exposureEnd s.scan l
    let begun := l.couples && decide (x0 ≤ s.cue.et.toNat)
    let s1 := dropLine (cutCoupled s)
    if begun then scanFault 4 s1 else s1
  | none => s

/-- A slot at Safe Hold entry: HV, HEATER and TRIM go OFF; SPEED follows its motor (R498). -/
def loopHold (l : LoopId) (s : State) : State := if (getLoop s l).kind == 3 then s else loopOffOp l s

/-- Every engine goes to its Safe Hold state and every admitted page aborts in the HOLD form (R60, R583). -/
def holdEngines (s : State) : State :=
  let s1 := forEach (fun n : Fin 16 => stopStep n .safe) (allFin 16) s
  let s2 := forEach (fun k : Fin 4 => stopBldc k .safe) (allFin 4) s1
  let s3 := forEach loopHold (allFin 48) s2
  let s4 := forEach (fun z : Zone => modZone z (fun x => { x with firing := none })) (allFin 2) s3
  let s5 := forEach (fun n : Station => modStn n stnHold) (allFin 4) (forEach cutScan (allFin 4) s4)
  let s6 := scanHold (cutHead s5)
  raiseForm 3 (abortPages (fun _ => true) 6 3 s6)

/-- Safe Hold entry (R60): HOLD is set; engines stop unless the controller is already in Safe Hold. -/
def safeEnter (s : State) : State :=
  if s.aon.hold then s else holdEngines (modAon (fun a => { a with hold := true }) s)

end Sys2Proof.Machine
end

