-- ==== Sys2Proof/Machine/Domains.lean ====
section
/-!
DEFINITION. What happens to flumes, blocks and supplies when a domain or a rail changes (R16, R27, R29, R245, R354, R384,
R423, R443, R444, R458, R501, R521, R536, R553, R562, R591, R664), and the end of an image operation (R179, R687).
-/

namespace Sys2Proof.Machine

/-! ## Flumes -/

/-- The two ends of a flume (R30, R684); HOST's place on a worker is PD11 (log 13). -/
def flumeEnds (s : State) (f : Nat) : List Dom :=
  if f < 0x008 then [1] else if f = 0x008 then [hostDom s]
  else if f < 0x080 then [hostDom s, 3] else if f < 0x100 then [3]
  else if f < 0x120 then [3, 6] else if f < 0x150 then [3, 7]
  else if f < 0x184 then [4, 5] else if f = 0x184 then [4, 9]
  else if f < 0x190 then [4] else if f = 0x190 then [10, 4] else if f = 0x191 then [10]
  else if f = 0x1A1 then [hostDom s, 0] else if f < 0x1B0 then [0] else [11]

/-- Nearest value of k in its range. -/
def ringLog (k : Nat) : Nat := clampN 4 12 k

/-- Bands a Landing reservation holds: UNITS of 64 KiB divided by SLOT in KiB. -/
def landBands (r : LandRes) : Nat := if r.slot = 0 then 0 else r.units.toNat * 64 / r.slot.toNat

/-- Depth of a flume now: the map's, or the one its registers set. -/
def depthNow (s : State) (f : FlumeId) : Nat :=
  if f.1 < 8 then 2 ^ ringLog (tget s.host.regs.rings (Fin.ofNat 8 f.1)).size.toNat
  else if f = stgFl then 256 + 64 * (if isManager s then ((allFin 8).filter fun d => s.skid.live.getLsbD d.1).length else 0)
  else if 0x180 ≤ f.1 ∧ f.1 ≤ 0x184 then landBands (tget s.rast.res (Fin.ofNat 10 (f.1 - 0x180 + 1)))
  else if f = bufFl then clampN 1 64 s.scan.bufDepth.toNat
  else flumeDepth f.1

/-- Tally of a flume at its depth: for 0x008 the general entries only (R31). -/
def fullTally (s : State) (f : FlumeId) : Nat := if f = stgFl then 192 else depthNow s f

/-- Pending actions that had a place in the flume have lost it (R27). -/
def loseDest (f : FlumeId) (s : State) : State :=
  modCue (fun c => { c with
    ch := c.ch.map fun x => if x.actq.isEmpty then x else
      { x with actq := x.actq.map fun a => if actDest s a.op == some f then { a with destLost := true } else a } }) s

/-- What is in the flume is discarded (R27); a channel's held tallies on it are lost (R274). -/
def discardFlume (f : FlumeId) (s : State) : State :=
  let s1 := modCue (fun c => { c with
    ch := c.ch.map fun x => if x.held.isEmpty && x.taking.isNone then x else
    { x with
      held := x.held.filter (·.1 != f)
      taking := x.taking.filter (·.1 != f) } }) (loseDest f s)
  if f = stgFl then
    let out (w : Waiting) : Bool := losesRec s1 w.by_ || w.by_ == .event
    let gone := s1.host.staging != [] || s1.host.waiting.any out
    modAon (fun a => { a with lost := a.lost || gone }) (modHost (fun h => { h with
      staging := [], resFree := 64
      wresFree := Vector.ofFn fun d : Fin 8 => if s1.skid.live.getLsbD d.1 then 64 else 0
      waiting := h.waiting.filter (!out ·) }) s1)
  else if h : 0x040 ≤ f.1 ∧ f.1 < 0x080 then modCh ⟨f.1 - 0x040, by omega⟩ (fun x => { x with mailbox := [] }) s1
  else if h : 0x180 ≤ f.1 ∧ f.1 < 0x185 then
    let e : Engine := ⟨f.1 - 0x180, by omega⟩
    modRast (fun r => { r with
      staged := tset r.staged e []
      cur := tset r.cur e none
      starved := tset r.starved e [] }) (if (tget s1.rast.cur e).isSome then cutDec e s1 else s1)
  else s1

/-- A flume goes DOWN when an end is off, and comes up with its full tally when both are on again (R27, R29). -/
def syncFlume (f : FlumeId) (s : State) : State :=
  let up := (flumeEnds s f.1).all (domUp s)
  let x := getFl s f
  if up && x.down then
    let d := depthNow s f
    serveFlume f (modFl f (fun x => { x with down := false, depth := d, tally := fullTally s f, ret := 0 }) s)
  else if !up && !x.down then discardFlume f (modFl f (fun x => { x with down := true, ret := 0 }) s)
  else s

/-- Every flume follows its ends. -/
def syncFlumes (s : State) : State := forEach syncFlume (allFin 434) s

/-- A register changed a flume's depth: the tally is set to the new depth (R338), which MINTALLY takes in as any other. -/
def reDepth (f : FlumeId) (s : State) : State :=
  noteMin f (modFl f (fun x => { x with depth := depthNow s f, tally := fullTally s f, ret := 0 }) s)

/-! ## Image operations (05) -/

/-- State of slot k as the ROM and the registers see it: the last write waiting, else the NV store. -/
def slotNow (s : State) (k : Fin 2) : BitVec 4 :=
  (s.nv.queue.foldl (fun acc w => match w with | .slotState j c => if j == k then c else acc | _ => acc) (tget s.nv.slot k))

/-- BOOT_FAILS in the same view. -/
def failsNow (s : State) : BitVec 2 :=
  s.nv.queue.foldl (fun acc w => match w with | .bootFails n => n | _ => acc) s.nv.fails

/-- Change a slot's state with one NV write (R180). -/
def setSlot (k : Fin 2) (code : BitVec 4) (s : State) : State := nvPut (.slotState k code) s

/-- A failed or abandoned operation leaves its target invalid (R179). -/
def invalidate (op : ImageOp) (s : State) : State :=
  if op.dev != 0 then s
  else if op.part = 1 then setSlot op.slot 0 s
  else if op.part = 2 then modBoot (fun b => { b with cuelib := none }) s
  else if op.part = 3 then modBoot (fun b => { b with preset := none }) s
  else s

/-- An operation started by BOOT_LOAD_CTL ends with ERR: DONE is set and IMAGE_DONE posted (R687). A JRP operation just
ends. -/
def imageDone (op : ImageOp) (err : Nat) (s : State) : State :=
  let s1 := modBoot (fun b => { b with op := none }) s
  if op.jrp then s1
  else aonEvent 0x010C (BitVec.ofNat 32 err) (packW [(op.blk.toNat, 16), (op.dev.toNat, 3)])
    (modBoot (fun b => { b with ldErr := BitVec.ofNat 8 err, ldBlk := op.blk, ldDone := true }) s1)

/-- An operation is abandoned: its target is invalid and it ends with the status given (R190). -/
def imageCut (err : Nat) (s : State) : State :=
  match s.boot.op with
  | some op => imageDone op err (invalidate op s)
  | none => s

/-- The link between the manager and the workers that p picks is cut: an image operation that needs it ends (R661, R190); on a
worker every one that is not a JRP transfer does. -/
def workerCut (p : Nat → Bool) (s : State) : State :=
  match s.boot.op with
  | some op =>
    if !op.jrp && (if isManager s then op.dev != 0 && p op.dev.toNat else true) then imageCut Config.abandonErr.toNat s else s
  | none => s

/-! ## Log export (R623, R626) -/

/-- An export ends with ERR after the bytes given. -/
def exportEnd (err bytes : Nat) (s : State) : State :=
  logPost 0x0187 (BitVec.ofNat 32 err) (BitVec.ofNat 32 bytes)
    (modLg (fun l => { l with xBusy := false, xDone := true, xErr := BitVec.ofNat 8 err }) s)

/-- PD2 or PD4 leaves the on state during an export (R626). -/
def exportCut (s : State) : State := if s.lg.xBusy then exportEnd 0x21 0 s else s

/-! ## Errors of Tamp units (R376, R377, R380) -/

/-- Error codes of R376. -/
def tBadStream := 0x40
def tBadBlock := 0x41
def tBadCode := 0x42
def tBadSym := 0x43
def tBadDist := 0x44
def tBadLength := 0x45
def tPoison := 0x46
def tOutFull := 0x47

/-- Change encoder e. -/
def modEnc (e : Fin 2) (f : Enc → Enc) (s : State) : State := modRast (fun r => { r with enc := tmod r.enc e f }) s

/-- A unit's error is reported (R376, R377): TAMP_STAT.ERR, its counters, the event. -/
def tampReport (u code ix out : Nat) (s : State) : State :=
  engine (unitSrc 4 (1 + u)) 0x0118 0xFFFF (leBytes 1 u ++ leBytes 1 code ++ leBytes 2 ix ++ leBytes 4 out)
    (modRast (fun r => { r with tampErr := withBit r.tampErr u true }) s)

/-- Encoder e ends its stream with an error (R380). -/
def encError (e : Fin 2) (code : Nat) (s : State) : State :=
  let x := tget s.rast.enc e
  tampReport (6 + e.1) code x.blkIx x.written
    (retTallies (encFl e) x.q.length (modEnc e (fun x => { x with
      q := [], active := false, err := BitVec.ofNat 8 code, lastBlk := BitVec.ofNat 16 x.blkIx, lastCode := BitVec.ofNat 8 code
      streams := satInc x.streams, errors := satInc x.errors, outBytes := BitVec.ofNat 32 x.written }) s))

/-- Scan capture goes with PD10: the input of its open stream has ended before TOTAL bytes (R380). -/
def scanStreamCut (s : State) : State :=
  forEach (fun e => if (tget s.rast.enc e).active && !(tget s.rast.enc e).forLog then encError e tBadLength else id) (allFin 2) s

/-! ## Blocks -/

/-- The source of a waiting record's latch lies in domain d. -/
def latchOf (d : Dom) (w : Waiting) : Bool := match w.by_ with | .latch src _ _ => srcDom src == d | _ => false

/-- The latches of a domain that leaves are discarded with it: those of ENGINE records, of channel events and of log
records (R685). -/
def dropLatches (d : Dom) (s : State) : State :=
  modLg (fun l => { l with latches := l.latches.filter (srcDom ·.src != d) })
    (modCue (fun c => { c with ch := c.ch.map fun x => { x with evLatch := x.evLatch.filter (srcDom ·.src != d) } })
      (modHost (fun h => { h with waiting := h.waiting.filter (!latchOf d ·) }) s))

/-- The source of a waiting record's latch goes with PD3: its domain is PD3 or requires it. -/
def latchNeeds3 (w : Waiting) : Bool := match w.by_ with | .latch src _ _ => decide (3 ≤ (srcDom src).1) | _ => false

/-- Something is lost with PD3: records waiting in it, or latched in a domain that goes with it, or channels and pages that
end with none (R155, R245, R316). -/
def cueLoses (s : State) : Bool :=
  s.host.lifeQ != [] || s.cue.ch.toList.any (fun x => x.st != .disarmed) || s.cue.pages.any Page.isAdm ||
    s.host.waiting.any fun w => latchNeeds3 w || match w.by_ with | .action _ _ | .chan _ | .sheet => true | _ => false

/-- The command decoder goes with its domain: PD1 on a manager, PD11 on a worker (R315, R691; log 13). -/
def cutDecoder (mgr : Bool) (s : State) : State :=
  if isManager s == mgr then modHost (fun h => { h with rr := 7, lifeQ := [], planQ := [], recov := none }) s else s

/-- Domain d leaves the on state or enters reset: what it holds goes to its reset state. -/
def leaveDom (d : Dom) (s : State) : State :=
  let s0 := dropLatches d s
  match d.1 with
  | 1 =>
    let s1 := match s0.boot.op with
      | some op => if op.jrp then s0 else imageCut 0x21 s0
      | none => s0
    modBoot (fun b => { b with jrp := tmod b.jrp 2 fun j => { j with part := [] } })
      (cutDecoder true (modHost (fun h => { h with regs := HostR.reset }) s1))
  | 2 => modMem (fun _ => MemS.reset) (exportCut s0)
  | 3 =>
    let s1 := match s0.boot.op with
      | some op => if op.dev = 0 ∧ (op.part = 2 ∨ op.part = 3) then imageCut 3 s0 else s0
      | none => s0
    modHost (fun h => { h with
        lifeQ := []
        waiting := h.waiting.filter fun w => match w.by_ with
        | .action _ _ | .chan _ => false | _ => true })
      (modAon (fun a => { a with liveBeat := false })
        (modBoot (fun b => { b with ldieDone := false, cuelib := none, preset := none }) (modCue (fun _ => Cue.reset) s1)))
  | 4 => modRast (fun _ => Rast.reset) (exportCut s0)
  | 5 => { s0 with beam := BeamE.reset }
  | 6 => { s0 with motn := Motn.reset }
  | 7 => { s0 with loops := LoopE.reset }
  | 8 => { s0 with loops := { s0.loops with zcok := false, lastZc := none, goodHalves := 0,
                                            zone := s0.loops.zone.map fun z => { z with firing := none } } }
  | 9 => { s0 with head := HeadE.reset }
  | 10 => { scanStreamCut (cutCoupled s0) with scan := ScanE.reset }
  | 11 => cutDecoder false { workerCut (fun _ => true) s0 with skid := Skid.reset }
  | _ => s0

/-- Domain d is on and out of reset again. A manager enumerates the chain when its PD11 becomes good (R635). -/
def enterDom (d : Dom) (s : State) : State :=
  if d = 11 then modSkid (fun k =>
    if isManager s then { k with upAt := s.now, chain := 1, enum := .manager s.now } else { k with upAt := s.now }) s
  else s

/-! ## Supplies -/

/-- A rail slot is good. -/
def railOk (s : State) (n : Nat) : Bool := if h : n < 16 then (getRail s ⟨n, h⟩).st == .good else false

/-- The motor supply is good (R443). -/
def vmotGood (s : State) : Bool := domUp s 6 && (!s.motn.vmotEn || railOk s s.motn.vmot.toNat)

/-- The motor supply leaves good: motors not IDLE fault with DRV, every HOMED clears (R443). -/
def vmotLost (s : State) : State :=
  let s1 := { s with motn := { s.motn with vmotOk := false } }
  let s2 := forEach (fun n : Fin 16 => fun s => if (getStep s n).st == .idle || (getStep s n).st == .fault then s
    else motFault (stepMotor n) 4 s) (allFin 16) s1
  let s3 := forEach (fun k : Fin 4 => fun s => if (getBldc s k).st == .idle || (getBldc s k).st == .fault then s
    else motFault (bldcMotor k) 4 s) (allFin 4) s2
  { s3 with motn := { s3.motn with step := s3.motn.step.map fun x => { x with homed := false } } }

/-- A stepper at the return of the supply (R444). -/
def restoreStep (n : Fin 16) (s : State) : State :=
  if (getStep s n).st == .fault then s
  else if s.aon.retain.getLsbD n.1 && s.aon.shadowValid.getLsbD n.1 then
    modStep n (fun x => { x with st := .hold, pos := tget s.aon.shadow n, homed := true, amps := s.aon.irest, vel := 0, frac := 0 }) s
  else modStep n (fun x => { x with st := .idle, homed := false, vel := 0, amps := 0 }) s

/-- The motor supply becomes good (R444). -/
def vmotBack (s : State) : State :=
  forEach restoreStep (allFin 16) { s with motn := { s.motn with vmotOk := true } }

/-- VMOT_OK follows the motor supply. -/
def syncVmot (s : State) : State :=
  if s.motn.vmotOk && !vmotGood s then vmotLost s
  else if !s.motn.vmotOk && vmotGood s then vmotBack s
  else s

/-- The head supply is good (14). -/
def headGood (s : State) : Bool := domUp s 9 && (!s.head.railEn || railOk s s.head.rail.toNat)

/-- The head supply leaves good in READY (R521). -/
def syncHead (s : State) : State := if s.head.st == .ready && !headGood s then headFault 3 s else s

/-- The scanner supply is good (15). -/
def scanGood (s : State) : Bool := domUp s 10 && (railOk s 10 || !(getRail s 10).en)

/-- The scanner supply leaves good (R553). -/
def syncScan (s : State) : State :=
  if (s.scan.st == .ready || s.scan.st == .cal) && !scanGood s then scanFault 1 s else s

/-- Engines follow their supplies. -/
def syncSupplies (s : State) : State := syncScan (syncHead (syncVmot s))

/-- Domains in the order in which they are left: those that require others first. -/
def leaveOrder : List Dom := [11, 10, 9, 8, 5, 7, 6, 4, 2, 3, 1]

/-- Domains that come up or go between s and t are stamped with the instant. -/
def stampDoms (s t : State) (u : State) : State :=
  forEach (fun d : Dom =>
    if !domUp s d && domUp t d then modDom d fun x => { x with upAt := u.now }
    else if domUp s d && !domUp t d then modDom d fun x => { x with downAt := u.now }
    else id) (allFin 12) u

/-- The machine follows a change of domains, rails, MRST_n or AON power-on reset from s to t: engines see their supplies,
domains that were left are reset, those that came up start, flumes go DOWN or up. -/
def settle (s t : State) : State :=
  let t1 := if domUp t 3 then syncSupplies t else t
  let loses := domUp s 3 && !domUp t 3 && cueLoses t1
  let t2 := forEach (fun d => if domUp s d && !domUp t d then leaveDom d else id) leaveOrder
    (stampDoms s t (modAon (fun a => { a with lost := a.lost || loses }) t1))
  let t3 := forEach (fun d => if !domUp s d && domUp t d then enterDom d else id) leaveOrder t2
  let t4 := syncSupplies (syncFlumes t3)
  if safeDrive s && !safeDrive t4 then modAon (fun a => { a with driveEnd := t4.now }) t4 else t4

/-- Apply a change and let the machine follow it. -/
def settled (f : State → State) (s : State) : State := settle s (f s)

end Sys2Proof.Machine
end

