-- ==== Sys2Proof/Machine/Memory.lean ====
section
/-!
DEFINITION. Local memory and its refresh, the host copy engine, Landing SRAM and BAR2, the arbiter (09).
-/

namespace Sys2Proof.Machine

/-! ## Local memory (R322-R332) -/

/-- Bytes of local memory that software may use: 7/8 of the capacity with ECC on (R326); DENS 3 is taken as 2. -/
def usableBytes (s : State) : Nat :=
  let total := 2 ^ min 2 s.mem.dens.toNat * 512 * 1024 * 1024 * (if s.mem.ranks then 2 else 1)
  if s.mem.eccEn then total / 8 * 7 else total

/-- Bytes from address a inside the usable range are stored; the others are discarded (R329). A store writes each ECC word it
touches anew (R330). -/
def localWrite (a : Nat) (bs : List Byte) (s : State) : State :=
  modMem (fun m => { m with
    data := memWrite m.data a (bs.take (usableBytes s - a))
    soft := m.soft.filter fun w => !decide (a < 8 * w + 8 ∧ 8 * w < a + bs.length) }) s

/-- An uncorrectable error of an access by requester n (R328): MEM_UE_ADDR, the count, the log and the event. -/
def memUe (n addr : Nat) (s : State) : State :=
  engine (unitSrc 2 0) 0x0111 0xFFFF (leBytes 8 addr ++ leBytes 1 n)
    (logFrom (unitSrc 2 0) 0x0111 (BitVec.ofNat 32 addr) (BitVec.ofNat 32 n)
      (modMem (fun m => { m with ue := satInc m.ue, ueAddr := BitVec.ofNat 36 addr }) s))

/-- Requester n is handed poisoned data by the arbiter, and its next use of data finds it so (R328). -/
def handPoison (n addr : Nat) (s : State) : State :=
  memUe n addr (modMem (fun m => { m with poison := withBit m.poison n true }) s)

/-- Requester n uses data from address a on, of which `out` says that it leaves the usable range and `bad` that it meets an
uncorrectable error, which only ECC finds (R326): whether it is poisoned, which is reported unless the arbiter's round did so
(R328, R329). -/
def usePoison (n a : Nat) (bad out : Bool) (s : State) : Bool × State :=
  if s.mem.poison.getLsbD n then (true, modMem (fun m => { m with poison := withBit m.poison n false }) s)
  else if out || (bad && s.mem.eccEn) then (true, memUe n a s)
  else (false, s)

/-- MEM_INIT (R323): calibration and training start, and MEM_CFG is frozen (R325). -/
def memInitOp (s : State) : State := modMem (fun m => { m with frozen := true, training := true }) s

def execMemInit (s : State) : Host.Outcome State Fault Refusal :=
  .next (whenS (reach s .bar0 2) memInitOp s)

/-- Written settings take effect (R346). -/
def takePend (r : ReqS) : ReqS :=
  match r.pend with
  | some (q, w, b) => { r with q := q, wlog := w, base := b, pend := none }
  | none => r

/-- READY becomes 1: arbiter cycles are counted from here, and cycle 0 begins a reference window (R346). -/
def memReady (now : Nat) (m : MemS) : MemS :=
  if m.ready then { m with training := false }
  else { m with
    training := false, ready := true, readyAt := now, cyc := 0, refAt := 0, exclFrom := 0, exclTo := 0, scrubFrom := now, scrubPos := 0
    req := m.req.map fun r => { takePend r with usedq := 0, choke := false, winAt := 0, since := none } }

/-- MEM_TRAINING_DONE (R323, R324). -/
def execMemTrainingDone (fail : Option (Byte × Byte)) (s : State) : Host.Outcome State Fault Refusal :=
  .next (whenS (domUp s 2 && s.mem.training) (fun s =>
    match fail with
    | none => modMem (memReady s.now) s
    | some (rank, st) =>
      engine (unitSrc 2 0) 0x0113 0xFFFF [rank, st]
        (logFrom (unitSrc 2 0) 0x0113 (BitVec.setWidth 32 rank) (BitVec.setWidth 32 st)
          (modMem (fun m => { m with training := false, trainFail := true, ready := false }) s))) s)

/-! ### Refresh -/

/-- Multiplier code of a thermal band (R331): 0 for ×1, 1 for ×2, 2 for ×4. -/
def bandMult (band : Nat) : Nat := if band < 4 then 0 else if band < 6 then 1 else 2

/-- The multiplier code the controller wants: the larger of the band's and MR4's (R331). -/
def wantMult (s : State) : Nat := max (bandMult s.therm.band.toNat) (min 2 s.mem.mr4.toNat)

/-- Arbiter cycle of 16 transfers at a RATE code, in ns, as a fraction: the nominal rates of which 4,266 MT/s gives the
3.75 ns of R322. -/
def cycleNs (rate : Nat) : Nat × Nat :=
  match rate with
  | 0 => (10, 1)
  | 1 => (15, 2)
  | 2 => (5, 1)
  | 3 => (30, 7)
  | _ => (15, 4)

/-- tRFC in ns at a density code: 280 ns at 2 GiB per rank (09, worked case 9.1); the spec gives no other figure. -/
def trfcAt (dens : Nat) : Nat := if dens < 2 then Config.trfcNs dens else 280

/-- tRFC in arbiter cycles (R348). -/
def trfcCycles (s : State) : Nat :=
  let c := cycleNs s.mem.rate.toNat
  ceilDiv (trfcAt s.mem.dens.toNat * c.2) c.1

/-- The refresh share F of a reference window (R348). -/
def refreshShare (s : State) : Nat :=
  let c := cycleNs s.mem.rate.toNat
  ceilDiv 65536 (3904 * c.2 / (2 ^ wantMult s * c.1)) * trfcCycles s

/-- Nearest values of Q and WLOG (R353). -/
def quotaOf (r : ReqS) : Nat := clampN 1 4095 r.q.toNat
def windowOf (r : ReqS) : Nat := 2 ^ (6 + clampN 0 10 r.wlog.toNat)

/-- Grants a requester with a quota may take in a reference window: Q × 65,536 / W where BASE is 12 or more. -/
def quotaShare (r : ReqS) : Nat := if 12 ≤ r.base.toNat then quotaOf r * 65536 / windowOf r else 0

/-- MEM_BW_LIMIT (R348); 0 where the terms exceed 65,536. -/
def bwLimit (s : State) : Nat :=
  65536 - ((s.mem.req.toList.map quotaShare).sum + refreshShare s + 64)

/-- The pool available to pages and what the admitted pages hold (R349). -/
def bwPool (s : State) : Nat := min s.mem.pool.toNat (bwLimit s)
def bwUsed (s : State) : Nat := ((s.cue.pages.filter Page.isAdm).map (·.plan.bw)).sum

/-- Ticks from the start of arbiter cycle 0 to the start of cycle c, and the cycle that is in progress d ticks on. -/
def cycleTicks (s : State) (c : Nat) : Nat := let x := cycleNs s.mem.rate.toNat; ceilDiv (c * x.1 * 4) (x.2 * 5)
def ticksCycle (s : State) (d : Nat) : Nat := let x := cycleNs s.mem.rate.toNat; d * x.2 * 5 / (x.1 * 4)

/-- Time passes to the start of arbiter cycle c. -/
def toCycle (c : Nat) (s : State) : State := timeTo (s.mem.readyAt + cycleTicks s c) s

/-- The next arbiter cycle that is neither a round nor excluded so far. -/
def nextCycle (s : State) : Nat := max s.mem.cyc (ticksCycle s (s.now - s.mem.readyAt))

/-- Ticks between refreshes at the multiplier in use: the whole cycles of R348 (R331). -/
def refreshTicks (s : State) : Nat :=
  let x := cycleNs s.mem.rate.toNat
  cycleTicks s (3904 * x.2 / (2 ^ s.mem.mult.toNat * x.1))

/-- Instant of the next refresh: an interval after the last one, or after PD2 came on. -/
def refreshDue (s : State) : Nat := max s.mem.refreshAt (getDom s 2).since + refreshTicks s

/-- k cycles from the next one on are excluded (R332). -/
def excludeCycles (k : Nat) (s : State) : State :=
  let c := nextCycle s
  modMem (fun m => { m with cyc := c + k, exclFrom := if m.exclTo = c then m.exclFrom else c, exclTo := c + k }) s

/-- MEM_REFRESH (R331, R332): the refresh is issued, with no grant for tRFC, and a changed multiplier takes effect. -/
def execMemRefresh (s : State) : Host.Outcome State Fault Refusal :=
  .next (whenS (domUp s 2) (fun s =>
    let s1 := timeTo (refreshDue s) s
    let s2 := if s1.mem.ready then excludeCycles (trfcCycles s1) s1 else s1
    emit (modMem (fun m => { m with mult := BitVec.ofNat 2 (wantMult s), refreshAt := s2.now }) s2) .refresh) s)

/-- MR4_POLL (R331): at the next instant of the 16 ms grid, which starts where PD2 came on (log 66). -/
def execMr4Poll (mult : BitVec 2) (s : State) : Host.Outcome State Fault Refusal :=
  .next (whenS (domUp s 2) (fun s =>
    modMem (fun m => { m with mr4 := mult }) (timeTo (gridNext (getDom s 2).since (16 * ms) s) s)) s)

/-! ## Host copy engine (R333-R335) -/

/-- Status a GO is refused with, 0 when accepted (R333, R334). -/
def copyCheck (s : State) : Nat :=
  let m := s.mem
  if m.cpyCur.isSome || !m.ready then 3
  else if m.cpyLen.toNat % 64 != 0 || m.cpyLen.toNat < 64 || 16777216 < m.cpyLen.toNat || m.cpyLoc.toNat % 64 != 0
      || usableBytes s ≤ m.cpyLoc.toNat then 5
  else 0

/-- A write of MEM_CPY_CTL: DIR is taken, and GO starts a copy or is refused (R334). -/
def copyCtl (v : Word) (s : State) : State :=
  let s1 := modMem (fun m => { m with cpyDir := bitB v 1 }) s
  if bitB v 0 then
    let e := copyCheck s1
    if e = 0 then
      modMem (fun m => { m with cpyCur := some (m.cpyHost.toNat, m.cpyLoc.toNat, m.cpyLen.toNat, m.cpyDir) }) s1
    else modMem (fun m => { m with cpyErr := BitVec.ofNat 8 e, cpyDone := true }) s1
  else s1

def execMemCopyGo (v : Word) (s : State) : Host.Outcome State Fault Refusal :=
  .next (whenS (reach s .bar0 2) (copyCtl (withBit v 0 true)) s)

/-- The end of a copy of n bytes with ERR (R335). -/
def copyEnd (err n : Nat) (dir : Bool) (s : State) : State :=
  engine (unitSrc 2 1) 0x0110 0xFFFF (leBytes 1 err ++ leBytes 1 (b2n dir) ++ leBytes 4 n)
    (modMem (fun m => { m with cpyCur := none, cpyErr := BitVec.ofNat 8 err, cpyDone := true }) s)

/-- MEM_COPY_DONE (R334, R335): the bytes before a failure stay copied. Toward the host a failure is a poisoned read of local
memory, which data says how many bytes came before. While READY is 0 the copy waits (R324). -/
def execMemCopyDone (data : List Byte) (ok : Bool) (s : State) : Host.Outcome State Fault Refusal :=
  .next (whenS (domUp s 2 && s.mem.ready) (fun s =>
    match s.mem.cpyCur with
    | none => s
    | some (_, l, len, false) =>
      let good := ok && decide (len ≤ data.length)
      let bs := data.take len
      copyEnd (if good then 0 else 0x21) bs.length false (localWrite l bs (if good then s else aerLog s))
    | some (h, l, len, true) =>
      let room := usableBytes s - l
      let m := min (if ok then len else data.length) (min len room)
      let p := usePoison 8 (l + m) (!ok) (decide (room < len)) s
      let n := if p.1 then m else len
      copyEnd (if p.1 then 0x21 else 0) n true (emit p.2 (.hostWrite h (memRead s.mem.data l n)))) s)

/-! ## Landing SRAM (R336-R340) -/

/-- First byte of a reservation, and its length. -/
def resBase (r : LandRes) : Nat := r.base.toNat * 65536
def resLen (r : LandRes) : Nat := r.units.toNat * 65536

/-- The reservation holds byte a. -/
def LandRes.holds (r : LandRes) (a : Nat) : Bool := r.en && decide (resBase r ≤ a ∧ a < resBase r + resLen r)

/-- Flume of a reservation that has one in R336's table. -/
def resFlume (n : Fin 10) : Option FlumeId :=
  if 1 ≤ n.1 ∧ n.1 ≤ 5 then some (flId (0x180 + (n.1 - 1))) else if n.1 = 7 then some scanFl else none

/-- A reservation is ACTIVE (R337). -/
def resActive (s : State) (n : Fin 10) : Bool :=
  (match resFlume n with
    | some f => (getFl s f).tally != depthNow s f
    | none => false) ||
  (decide (1 ≤ n.1 ∧ n.1 ≤ 5) && s.cue.pages.any fun g => g.isAdm && g.uses (n.1 - 1))

/-- Two enabled reservations overlap. -/
def resOverlap (a b : LandRes) : Bool :=
  a.en && b.en && decide (resBase a < resBase b + resLen b ∧ resBase b < resBase a + resLen a)

/-- A reservation may take this value beside the others (R338). -/
def resOk (n : Fin 10) (x : LandRes) (v : Vector LandRes 10) : Bool :=
  (allFin 10).all (fun m => m == n || !resOverlap x (tget v m)) && decide (x.base.toNat + x.units.toNat ≤ 192) &&
    (decide (n.1 = 0 ∨ 5 < n.1) || decide (1 ≤ landBands x ∧ landBands x ≤ 4096))

/-- Word 0 or word 1 of a reservation as written. -/
def resWord (x : LandRes) (word : Bool) (v : Word) : LandRes :=
  if word then { x with slot := BitVec.ofNat 12 (bitsN v 11 0) }
  else { x with en := bitB v 31, units := BitVec.ofNat 8 (bitsN v 15 8), base := BitVec.ofNat 8 (bitsN v 7 0) }

/-- A write to LAND_RESn (R337, R338). -/
def landWrite (n : Fin 10) (word : Bool) (v : Word) (s : State) : State :=
  let x := resWord (tget s.rast.res n) word v
  if resActive s n then s
  else if resOk n x s.rast.res then
    let s1 := modRast (fun r => { r with res := tset r.res n x }) s
    match resFlume n with
    | some f => if n.1 ≤ 5 then reDepth f s1 else s1
    | none => s1
  else modRast (fun r => { r with landErr := true }) s

def execLandResWrite (n : Fin 10) (word : Bool) (v : Word) (s : State) : Host.Outcome State Fault Refusal :=
  .next (whenS (reach s .bar0 4) (landWrite n word v) s)

/-- A single-bit error of a Landing access is counted (R340). -/
def landCorrected (s : State) : State := modRast (fun r => { r with landCe := satInc r.landCe }) s

/-- An uncorrectable error at byte a of reservation n (R340). -/
def landUe (a : Nat) (n : Byte) (s : State) : State :=
  engine (unitSrc 4 0) 0x0112 0xFFFF (leBytes 4 a ++ [n])
    (logFrom (unitSrc 4 0) 0x0112 (BitVec.ofNat 32 a) (BitVec.setWidth 32 n) (modRast (fun r => { r with landUe := satInc r.landUe }) s))

/-- The reservation that holds byte a. -/
def resAt (s : State) (a : Nat) : Option (Fin 10) := (allFin 10).find? fun n => (tget s.rast.res n).holds a

/-- Landing byte of BAR2 offset 0 (R285); MIB above 4 is taken as 4. -/
def bar2Base (s : State) : Nat := min 4 s.host.regs.bar2.toNat * 1048576

/-- BAR2 accesses of 1 to 64 bytes, naturally aligned, inside the 8 MiB window (R285). -/
def bar2Ok (x n : Nat) : Bool := [1, 2, 4, 8, 16, 32, 64].contains n && x % n == 0 && decide (x + n ≤ 8388608)

/-- A BAR2 write may change byte a (R339). -/
def bar2May (s : State) (a : Nat) : Bool := (allFin 10).all fun n => n == 0 || !(tget s.rast.res n).holds a

/-- The bytes of a BAR2 write land one by one (R339). -/
def bar2Put : Nat → List Byte → State → State
  | _, [], s => s
  | a, b :: bs, s =>
    bar2Put (a + 1) bs (if bar2May s a then modRast (fun r => { r with land := memPut r.land a b }) s else s)

/-- BAR2_WRITE (R339). -/
def execBar2Write (x : Nat) (data : List Byte) (s : State) : Host.Outcome State Fault Refusal :=
  .next (whenS (bar0Reach s && domUp s 4 && bar2Ok x data.length) (bar2Put (bar2Base s + x) data) s)

/-- BAR2_READ (R340). The reservation number of an error outside every reservation is left open: a free value (log 4). -/
def execBar2Read (x n : Nat) (ecc : Ecc) (s : State) : Host.Outcome State Fault Refusal :=
  .next (whenS (bar0Reach s && domUp s 4 && bar2Ok x n) (fun s =>
    let a := bar2Base s + x
    let d := memRead s.rast.land a n
    match ecc with
    | .clean => emit s (.bar2Data d false)
    | .corrected => emit (landCorrected s) (.bar2Data d false)
    | .uncorrectable =>
      let s1 := match resAt s a with
        | some k => landUe a (BitVec.ofNat 8 k.1) s
        | none => useFree (landUe a (BitVec.setWidth 8 (freeWord s)) s)
      emit s1 (.bar2Data d true)) s)

/-! ## The arbiter (R341-R353) -/

/-- Change requester n. -/
def modReq (n : Req) (f : ReqS → ReqS) (s : State) : State := modMem (fun m => { m with req := tmod m.req n f }) s

/-- Requester n is choked (R345). -/
def choked (r : ReqS) : Bool := r.choke && decide (12 ≤ r.base.toNat)

/-- The better of two candidates: higher effective priority, then lower index (R344). -/
def better (req : Vector ReqS 16) (best : Option Req) (n : Req) : Option Req :=
  match best with
  | none => some n
  | some b => if (tget req b).eff.toNat < (tget req n).eff.toNat then some n else some b

/-- Requesters that take part in the round: they request, are connected and are not choked. -/
def inRound (reqs : BitVec 16) (req : Vector ReqS 16) (n : Req) : Bool :=
  reqs.getLsbD n.1 && decide (n.1 < 12) && !choked (tget req n)

/-- The requester granted in a round (R344). -/
def arbWinner (reqs : BitVec 16) (req : Vector ReqS 16) : Option Req :=
  ((allFin 16).filter (inRound reqs req)).foldl (better req) none

/-- The granted requester after round c (R343, R345, R351). -/
def grantReq (c : Nat) (r : ReqS) : ReqS :=
  let u := satInc r.usedq
  { r with eff := r.base, grants := satInc r.grants
           longest := BitVec.ofNat 32 (max r.longest.toNat (min (c - r.since.getD c) 0xFFFFFFFF))
           since := none, usedq := u, choke := r.choke || (decide (12 ≤ r.base.toNat) && decide (quotaOf r ≤ u.toNat)) }

/-- A requester that took part and lost (R343, R351). -/
def loseReq (r : ReqS) : ReqS := { r with eff := if r.eff = 15 then 15 else r.eff + 1, waits := satInc r.waits }

/-- Every requester after round c. -/
def roundReq (c : Nat) (reqs : BitVec 16) (req : Vector ReqS 16) (n : Req) : ReqS :=
  let r := tget req n
  if arbWinner reqs req == some n then grantReq c r
  else if inRound reqs req n then loseReq r
  else r

/-- A window of requester n ends (R345). -/
def windowEnd (r : ReqS) : ReqS := { r with usedq := 0, choke := false }

/-- The window of a requester that cycle c lies in is open: those that ended before it have ended (R345, R346). -/
def windowAt (c : Nat) (r : ReqS) : ReqS :=
  if r.winAt + windowOf r ≤ c then { windowEnd r with winAt := c / windowOf r * windowOf r } else r

/-- The same at a reference window, where written settings take effect and every window restarts (R346). -/
def referenceAt (c : Nat) (r : ReqS) : ReqS :=
  let x := windowEnd (takePend r)
  { x with winAt := c / windowOf x * windowOf x }

/-- Windows and reference windows that begin at cycle c or have begun before it. -/
def windowsAt (c : Nat) (m : MemS) : MemS :=
  if m.refAt + 65536 ≤ c then { m with refAt := c / 65536 * 65536, req := m.req.map (referenceAt c) }
  else { m with req := m.req.map (windowAt c) }

/-- Cycle c is taken by DQS tracking (R332, log 69). -/
def dqsCycle (c : Nat) : Bool := ((Config.dqsCycles (c / 65536)).take 64).any fun x => x % 65536 == c % 65536

/-- The first cycle from c on that DQS tracking does not take. -/
def pastDqs : Nat → Nat → Nat
  | 0, c => c
  | k + 1, c => if dqsCycle c then pastDqs k (c + 1) else c

/-- Cycle of the next round: the first that no refresh and no DQS tracking excludes. -/
def roundCycle (s : State) : Nat := pastDqs 129 (nextCycle s)

/-- First of the excluded cycles that run up to the next round's, or that cycle itself. -/
def runStart (s : State) : Nat := if s.mem.exclTo = nextCycle s then s.mem.exclFrom else nextCycle s

/-- A request that the round finds for the first time was presented in its cycle, or in one of the excluded cycles before it: which
of them is a free value. One that is no longer presented is forgotten. -/
def presentReq (s : State) (reqs : BitVec 16) (n : Req) (r : ReqS) : ReqS :=
  let c := roundCycle s
  if !reqs.getLsbD n.1 then { r with since := none }
  else match r.since with
    | some _ => r
    | none => { r with since := some (runStart s + (Config.freeWord (s.freeCount + n.1)).toNat % (c - runStart s + 1)) }

/-- SCRUB in ticks. -/
def scrubTicks (s : State) : Nat := s.mem.scrub.toNat * 3600 * sec

/-- A pass of the scrubber starts SCRUB hours after the one before (R330). -/
def scrubPass (s : State) : State :=
  if s.mem.scrub != 0 && decide (usableBytes s ≤ s.mem.scrubPos) && decide (s.mem.scrubFrom + scrubTicks s ≤ s.now) then
    modMem (fun m => { m with scrubFrom := s.now, scrubPos := 0 }) s
  else s

/-- The scrubber has a word left to read in its pass; SCRUB 0 stops it. -/
def scrubWants (s : State) : Bool := s.mem.scrub != 0 && decide (s.mem.scrubPos < usableBytes s)

/-- Requests that the round hears: those of connected requesters, the scrubber's only while it has work (R330, R341). -/
def roundReqs (s : State) (reqs : BitVec 16) : BitVec 16 := withBit (reqs &&& 0x0FFF) 11 (reqs.getLsbD 11 && scrubWants s)

/-- Words of the 64-byte access at addr that hold a correctable error, with the one now met there (R327). -/
def softWords (m : MemS) (addr : Nat) (ecc : Ecc) : List Nat :=
  let l := m.soft.filter fun w => w / 8 == addr / 64
  match ecc with
  | .corrected => if l.contains (addr / 8) then l else addr / 8 :: l
  | _ => l

/-- Corrected errors are counted; the words stay as they are, unless the scrubber writes them back (R327). -/
def noteSoft (n : Req) (addr : Nat) (ecc : Ecc) (m : MemS) : MemS :=
  let l := softWords m addr ecc
  let rest := m.soft.filter fun w => !(w / 8 == addr / 64)
  { m with ce := BitVec.ofNat 16 (min 65535 (m.ce.toNat + l.length)), soft := if n = 11 then rest else l ++ rest }

/-- What the granted access meets (R327-R329): a read outside the usable range is poisoned; without ECC nothing is
checked (R326). -/
def accessEcc (n : Req) (addr : Nat) (read : Bool) (ecc : Ecc) (s : State) : State :=
  if !read then s
  else if usableBytes s ≤ addr then handPoison n.1 addr s
  else if !s.mem.eccEn then s
  else match ecc with
    | .uncorrectable => if n = 11 then memUe n.1 addr s else handPoison n.1 addr s
    | e => modMem (noteSoft n addr e) s

/-- The access of the granted requester: the scrubber reads its next 64 bytes (R330). -/
def roundAccess (n : Req) (addr : Nat) (read : Bool) (ecc : Ecc) (s : State) : State :=
  if n = 11 then accessEcc 11 s.mem.scrubPos true ecc (modMem (fun m => { m with scrubPos := m.scrubPos + 64 }) s)
  else accessEcc n addr read ecc s

/-- Free values used by the requests of a round. -/
def useFrees (k : Nat) (s : State) : State := { s with freeCount := s.freeCount + k }

/-- The requesters as a round in cycle c finds them. -/
def beforeRound (s : State) (reqs : BitVec 16) : MemS :=
  let m := windowsAt (roundCycle s) s.mem
  { m with cyc := roundCycle s + 1, req := Vector.ofFn fun n => presentReq s reqs n (tget m.req n) }

/-- ARB_ROUND (R342): the next cycle that is not excluded decides. Nothing is granted until READY (R324). -/
def arbRoundOp (reqs : BitVec 16) (addr : Nat) (read : Bool) (ecc : Ecc) (s : State) : State :=
  let c := roundCycle s
  let s1 := scrubPass (toCycle c s)
  let r := roundReqs s1 reqs
  let m := beforeRound s r
  let s2 := useFrees 16 (modMem (fun x => { m with
    data := x.data, scrubFrom := x.scrubFrom, scrubPos := x.scrubPos, req := Vector.ofFn (roundReq c r m.req) }) s1)
  match arbWinner r m.req with
  | some n => roundAccess n addr read ecc s2
  | none => s2

def execArbRound (reqs : BitVec 16) (addr : Nat) (read : Bool) (ecc : Ecc) (s : State) : Host.Outcome State Fault Refusal :=
  .next (whenS (domUp s 2 && s.mem.ready) (arbRoundOp reqs addr read ecc) s)

/-- QUOTA_WINDOW_END (R345, R346): at the next cycle whose number is a multiple of W. -/
def execQuotaWindowEnd (n : Req) (s : State) : Host.Outcome State Fault Refusal :=
  .next (whenS (domUp s 2 && s.mem.ready) (fun s =>
    let r := tget s.mem.req n
    let s1 := toCycle (r.winAt + windowOf r) s
    let c := max (r.winAt + windowOf r) (nextCycle s1)
    modReq n (windowAt c) s1) s)

/-- ARB_REFERENCE_WINDOW (R346): at the next multiple of 65,536 cycles. -/
def execArbReferenceWindow (s : State) : Host.Outcome State Fault Refusal :=
  .next (whenS (domUp s 2 && s.mem.ready) (fun s =>
    let s1 := toCycle (s.mem.refAt + 65536) s
    modMem (windowsAt (max (s.mem.refAt + 65536) (nextCycle s1))) s1) s)

/-- The live counters move to the snapshot (R351). -/
def snapReq (r : ReqS) : ReqS :=
  { r with snapGrants := r.grants, snapWaits := r.waits, snapLongest := r.longest, grants := 0, waits := 0, longest := 0 }

/-- Settings of requester n under a preset: R341's with the changes of R352. -/
def presetReq (p n : Nat) : BitVec 12 × BitVec 4 × BitVec 4 :=
  let r := ReqS.reset n
  match p, n with
  | 1, 7 => (512, r.wlog, r.base)
  | 1, 6 => (r.q, r.wlog, 8)
  | 2, 8 => (2048, 6, 12)
  | 3, 9 => (1024, r.wlog, 14)
  | _, _ => (r.q, r.wlog, r.base)

/-- A write of MEM_ARB_CTL: LOAD and SNAP (R351, R352). -/
def arbCtl (v : Word) (s : State) : State :=
  let s1 := if bitB v 4 then
      modMem (fun m => { m with
        preset := BitVec.ofNat 2 (bitsN v 1 0)
        req := Vector.ofFn fun n : Fin 16 =>
          if n.1 < 12 then { tget m.req n with pend := some (presetReq (bitsN v 1 0) n.1) } else tget m.req n }) s
    else s
  if bitB v 8 then modMem (fun m => { m with req := m.req.map snapReq }) s1 else s1

/-- ARB_SNAP (R351): a write of MEM_ARB_CTL with SNAP alone. -/
def execArbSnap (s : State) : Host.Outcome State Fault Refusal :=
  .next (whenS (reach s .bar0 2) (modMem fun m => { m with req := m.req.map snapReq }) s)

/-- ARB_PRESET_LOAD (R352): a write of MEM_ARB_CTL. -/
def execArbPresetLoad (v : Word) (s : State) : Host.Outcome State Fault Refusal :=
  .next (whenS (reach s .bar0 2) (arbCtl (withBit v 4 true)) s)

/-- A write of MEM_ARBn waits for the reference window (R346, R353). -/
def arbWrite (n : Req) (v : Word) (s : State) : State :=
  if n.1 < 12 then modReq n (fun r => { r with
    pend := some (BitVec.ofNat 12 (bitsN v 27 16), BitVec.ofNat 4 (bitsN v 11 8), BitVec.ofNat 4 (bitsN v 3 0)) }) s
  else s

end Sys2Proof.Machine
end

