-- ==== Sys2Proof/Machine/Tamp.lean ====
section
/-!
DEFINITION. Tamp compression (10): the bit order, the canonical codes, decoding and encoding of a block, the decoder
units, the band fetcher and TAMP_GEN jobs.
-/

namespace Sys2Proof.Machine

/-! ## Bits (R364) -/

/-- The bits of a byte, bit 0 first. -/
def byteBits (b : Byte) : List Bool :=
  [b.getLsbD 0, b.getLsbD 1, b.getLsbD 2, b.getLsbD 3, b.getLsbD 4, b.getLsbD 5, b.getLsbD 6, b.getLsbD 7]

/-- The bits of a payload in the order a decoder takes them. -/
def payloadBits (bs : List Byte) : List Bool := bs.flatMap byteBits

/-- A number of n bits, least significant bit first. -/
def takeBits : Nat → List Bool → Option (Nat × List Bool)
  | 0, r => some (0, r)
  | _ + 1, [] => none
  | n + 1, b :: r =>
    match takeBits n r with
    | some (v, r') => some (b2n b + 2 * v, r')
    | none => none

/-- The n low bits of a number, least significant first. -/
def numBits : Nat → Nat → List Bool
  | 0, _ => []
  | n + 1, v => (v % 2 == 1) :: numBits n (v / 2)

/-- Bytes from bits, zero bits added up to the byte boundary (R365). -/
def packBits : Nat → List Bool → List Byte
  | 0, _ => []
  | _, [] => []
  | n + 1, r => BitVec.ofNat 8 (bitsOf (r.take 8)) :: packBits n (r.drop 8)

/-! ## Canonical codes (R367, R368) -/

/-- Symbols of length l. -/
def countLen (lens : List Nat) (l : Nat) : Nat := (lens.filter (· == l)).length

/-- Longest length in use. -/
def maxLen (lens : List Nat) : Nat := lens.foldl max 0

/-- Symbols in use. -/
def usedSyms (lens : List Nat) : Nat := (lens.filter (· != 0)).length

/-- Kraft sum in units of 2^-15. -/
def kraft (lens : List Nat) : Nat := ((lens.filter (· != 0)).map fun l => 2 ^ (15 - l)).sum

/-- Lengths of one code are valid (R368): complete, or one symbol of length 1. -/
def codeOk (lens : List Nat) : Bool :=
  lens.all (· ≤ 15) && (kraft lens == 32768 || (usedSyms lens == 1 && maxLen lens == 1))

/-- Both codes of a block are valid (R368): symbol 256 has a length, and the distance code may be empty. -/
def codesOk (lit dist : List Nat) : Bool :=
  codeOk lit && ((lit[256]?).getD 0) != 0 && (usedSyms dist == 0 || codeOk dist)

/-- The k-th symbol of length l. -/
def nthSym : List Nat → Nat → Nat → Nat → Option Nat
  | [], _, _, _ => none
  | x :: xs, l, k, i => if x = l then (if k = 0 then some i else nthSym xs l (k - 1) (i + 1)) else nthSym xs l k (i + 1)

/-- What reading a symbol gives. -/
inductive SymRead where
  | sym (s : Nat) (rest : List Bool)
  | bad
  | short
deriving DecidableEq, Repr

/-- Read one symbol: `fuel` lengths are left to try, `l` bits have been read, `code` is their value and `first` the first
code of length l + 1. -/
def readSym (lens : List Nat) : Nat → Nat → Nat → Nat → List Bool → SymRead
  | 0, _, _, _, _ => .bad
  | _ + 1, _, _, _, [] => .short
  | fuel + 1, l, code, first, b :: r =>
    let c := 2 * code + b2n b
    let n := countLen lens (l + 1)
    if first ≤ c ∧ c < first + n then
      match nthSym lens (l + 1) (c - first) 0 with
      | some s => .sym s r
      | none => .bad
    else readSym lens fuel (l + 1) c ((first + n) * 2) r

/-- Read one symbol of the code with these lengths. -/
def readCode (lens : List Nat) (bits : List Bool) : SymRead := readSym lens (maxLen lens) 0 0 0 bits

/-- First code of length l (R367). -/
def firstCode (lens : List Nat) : Nat → Nat
  | 0 => 0
  | 1 => 0
  | l + 2 => (firstCode lens (l + 1) + countLen lens (l + 1)) * 2

/-- Bits of symbol s, the first bit the most significant of its code (R364). -/
def codeBits (lens : List Nat) (s : Nat) : List Bool :=
  let l := (lens[s]?).getD 0
  (numBits l (firstCode lens l + countLen (lens.take s) l)).reverse

/-! ## Length tokens (R366) -/

/-- What one token adds to the lengths so far; none is an invalid token. -/
def tokenLens (tok extra : Nat) (acc : List Nat) : Option (List Nat) :=
  if tok ≤ 15 then some [tok]
  else if tok = 16 then (match acc.getLast? with | some l => some (List.replicate (3 + extra) l) | none => none)
  else if tok = 17 then some (List.replicate (3 + extra) 0)
  else if tok = 18 then some (List.replicate (11 + extra) 0)
  else none

/-- Extra bits of a token. -/
def tokenExtra (tok : Nat) : Nat := if tok = 16 then 2 else if tok = 17 then 3 else if tok = 18 then 7 else 0

/-- The code lengths, `total` in all: every token gives at least one. -/
def readLens (total : Nat) : Nat → List Nat → List Bool → Except Nat (List Nat × List Bool)
  | 0, acc, r => if acc.length = total then .ok (acc, r) else .error tBadCode
  | fuel + 1, acc, r =>
    if acc.length = total then .ok (acc, r)
    else match takeBits 5 r with
      | none => .error tBadLength
      | some (tok, r1) =>
        match takeBits (tokenExtra tok) r1 with
        | none => .error tBadLength
        | some (x, r2) =>
          match tokenLens tok x acc with
          | none => .error tBadCode
          | some l => if total < acc.length + l.length then .error tBadCode else readLens total fuel (acc ++ l) r2

/-! ## Alphabets (R369, R370) -/

/-- Extra bits and base of a length symbol. -/
def lenExtra (s : Nat) : Nat := if s < 269 then 0 else (s - 269) / 2 + 1
def lenBase (s : Nat) : Nat :=
  if s < 269 then s - 253 else 12 + 2 ^ (lenExtra s + 1) + (s - 269) % 2 * 2 ^ lenExtra s

/-- Extra bits and base of a distance symbol. -/
def distExtra (d : Nat) : Nat := if d < 4 then 0 else d / 2 - 1
def distBase (d : Nat) : Nat := if d < 4 then d + 1 else 2 ^ (distExtra d + 1) + d % 2 * 2 ^ distExtra d + 1

/-! ## Decoding of a block (R362, R365, R371, R376) -/

/-- Copy n bytes from D back, one at a time; `h` is the output, newest first. -/
def copyBack (d : Nat) : Nat → List Byte → List Byte
  | 0, h => h
  | n + 1, h => copyBack d n ((h[d - 1]?).getD 0 :: h)

/-- Zero bits up to the byte boundary, and nothing after them. -/
def endOk (r : List Bool) : Bool := decide (r.length < 8) && r.all (· == false)

/-- A match of n bytes at distance d: what it leaves, and the error if one stops it. `left` bytes of the block and `cap`
bytes of the destination remain. -/
def putMatch (n d left cap : Nat) (h : List Byte) : List Byte × Option Nat :=
  if h.length < d || 65536 < d then (h, some tBadDist)
  else if left < n then (h, some tBadLength)
  else if cap < n then (copyBack d cap h, some tOutFull)
  else (copyBack d n h, none)

/-- Read the rest of a match after length symbol s: length and distance, or the error. -/
def readMatch (dist : List Nat) (s : Nat) (r : List Bool) : Except Nat (Nat × Nat × List Bool) :=
  match takeBits (lenExtra s) r with
  | none => .error tBadLength
  | some (x, r1) =>
    let n := lenBase s + x
    if 1028 < n then .error tBadLength
    else match readCode dist r1 with
      | .bad => .error tBadSym
      | .short => .error tBadLength
      | .sym d r2 =>
        match takeBits (distExtra d) r2 with
        | none => .error tBadLength
        | some (y, r3) => .ok (n, distBase d + y, r3)

/-- The symbols of a CODED block: output newest first, bytes left in the block and in the destination. -/
def decodeSyms (lit dist : List Nat) : Nat → Nat → Nat → List Byte → List Bool → List Byte × Option Nat
  | 0, _, _, h, _ => (h, some tBadLength)
  | fuel + 1, left, cap, h, r =>
    match readCode lit r with
    | .bad => (h, some tBadSym)
    | .short => (h, some tBadLength)
    | .sym s r1 =>
      if s < 256 then
        if left = 0 then (h, some tBadLength)
        else if cap = 0 then (h, some tOutFull)
        else decodeSyms lit dist fuel (left - 1) (cap - 1) (BitVec.ofNat 8 s :: h) r1
      else if s = 256 then (h, if left = 0 && endOk r1 then none else some tBadLength)
      else match readMatch dist s r1 with
        | .error e => (h, some e)
        | .ok (n, d, r2) =>
          match putMatch n d left cap h with
          | (h', some e) => (h', some e)
          | (h', none) => decodeSyms lit dist fuel (left - n) (cap - n) h' r2

/-- A CODED payload (R365): u bytes are due. -/
def decodeCoded (u cap : Nat) (h : List Byte) (payload : List Byte) : List Byte × Option Nat :=
  let bits := payloadBits payload
  match takeBits 10 bits with
  | none => (h, some tBadLength)
  | some (x, r) =>
    let hlit := x % 32
    let hdist := x / 32
    if 28 < hlit then (h, some tBadCode)
    else match readLens (hlit + 257 + hdist + 1) (hlit + 257 + hdist + 1) [] r with
      | .error e => (h, some e)
      | .ok (lens, r1) =>
        let lit := lens.take (hlit + 257)
        let dist := lens.drop (hlit + 257)
        if codesOk lit dist then decodeSyms lit dist (r1.length + 1) u cap h r1 else (h, some tBadCode)

/-- The payload of a block of TYPE 0 or 1 that gives u bytes. -/
def decodePayload (ty u cap : Nat) (h payload : List Byte) : List Byte × Option Nat :=
  if ty = 1 then decodeCoded u cap h payload
  else ((payload.take (min u cap)).reverse ++ h, if cap < u then some tOutFull else none)

/-- The stream header is right (R360). -/
def streamOk (hd : List Byte) : Bool :=
  hd.length == 8 && fieldN hd 0 2 == 0x4D54 && fieldN hd 2 1 == 1 && fieldN hd 3 1 == 0 && fieldN hd 4 4 != 0

/-- A block header is right and its payload lies inside the source (R361, R362). -/
def blockOk (hd : List Byte) (room : Nat) : Bool :=
  hd.length == 8 && decide (fieldN hd 2 1 ≤ 1) && decide (fieldN hd 3 1 ≤ 1) && decide (fieldN hd 4 4 ≤ room) &&
    (fieldN hd 2 1 == 1 || fieldN hd 4 4 == fieldN hd 0 2 + 1)

/-! ## Decoder units (R356, R358, R376-R379) -/

/-- The first n bytes at a, cut at the end of the source. -/
def srcRead (s : State) (d : Dec) (a n : Nat) : List Byte := memRead s.mem.data a (min n (d.srcEnd - a))

/-- An access of n bytes at a leaves the usable range, and so reads as poison (R329). -/
def srcOut (s : State) (d : Dec) (a n : Nat) : Bool := decide (usableBytes s < a + min n (d.srcEnd - a))

def modDec (u : Fin 6) (f : Dec → Dec) (s : State) : State := modRast (fun r => { r with dec := tmod r.dec u f }) s

/-- A stream is opened for decoder u. -/
def openDec (u : Fin 6) (src len dst cap : Nat) (s : State) : State :=
  modDec u (fun d => { d with
    active := true, src := src, srcEnd := src + len, total := 0, fetched := 0, fetchIx := 0, fetchEnd := false, out := []
    dst := dst, cap := cap, err := 0 }) s

/-- The output bytes of a decoder land at their place: Landing SRAM for units 0-4, local memory for unit 5 (R356). -/
def decStore (u : Fin 6) (a : Nat) (bs : List Byte) (s : State) : State :=
  if u.1 < 5 then modRast (fun r => { r with land := memWrite r.land a bs }) s else localWrite a bs s

/-- Decoder u ends its stream with an error: the remaining descriptors are discarded (R377). -/
def decError (u : Fin 6) (code ix : Nat) (s : State) : State :=
  let d := tget s.rast.dec u
  tampReport u.1 code ix d.out.length
    (retTallies (decFl u) d.q.length (modDec u (fun d => { d with
      q := [], active := false, fetchEnd := true, err := BitVec.ofNat 8 code, lastBlk := BitVec.ofNat 16 ix
      lastCode := BitVec.ofNat 8 code, streams := satInc d.streams, errors := satInc d.errors
      outBytes := BitVec.ofNat 32 d.out.length }) s))

/-- Output of one block is added to the stream and stored. -/
def decOutput (u : Fin 6) (all : List Byte) (s : State) : State :=
  let d := tget s.rast.dec u
  modDec u (fun x => { x with out := all }) (decStore u (d.dst + d.out.length) (all.drop d.out.length) s)

/-- Length of the payload of the block at a descriptor. -/
def blkLen (s : State) (d : Dec) (b : BlkDesc) : Nat := fieldN (srcRead s d b.addr 8) 4 4

/-- The payload of the block is poisoned, as the unit's requester found it (R328, R329). -/
def payloadPoison (u : Fin 6) (d : Dec) (b : BlkDesc) (bad : Bool) (s : State) : Bool × State :=
  usePoison u.1 (b.addr + 8) bad (srcOut s d (b.addr + 8) (blkLen s d b)) s

/-- The stream header and the block header of a descriptor are right, so that its payload is read. -/
def headsOk (s : State) (d : Dec) (b : BlkDesc) : Bool :=
  !b.poison && !(b.ix = 0 && !streamOk (srcRead s d (b.addr - 8) 8)) && blockOk (srcRead s d b.addr 8) (d.srcEnd - (b.addr + 8))

/-- Decode the block of descriptor b: the whole output, and the error if one stops it. -/
def decBlock (s : State) (d : Dec) (b : BlkDesc) (poison : Bool) : List Byte × Option Nat :=
  let sh := srcRead s d (b.addr - 8) 8
  let hd := srcRead s d b.addr 8
  let u := fieldN hd 0 2 + 1
  let clen := fieldN hd 4 4
  let last := bitB (BitVec.ofNat 8 (fieldN hd 3 1)) 0
  let sum := d.out.length + u
  if b.poison then (d.out, some tPoison)
  else if b.ix = 0 && !streamOk sh then (d.out, some tBadStream)
  else if !blockOk hd (d.srcEnd - (b.addr + 8)) then (d.out, some tBadBlock)
  else if decide (d.total < sum) || (last != decide (sum = d.total)) then (d.out, some tBadLength)
  else if poison then (d.out, some tPoison)
  else
    let (h, e) := decodePayload (fieldN hd 2 1) u (d.cap - d.out.length) d.out.reverse (srcRead s d (b.addr + 8) clen)
    (h.reverse, e)

/-- The stream of decoder u has ended without error. -/
def decFinish (u : Fin 6) (s : State) : State :=
  let d := tget s.rast.dec u
  if d.out.length = d.total then
    modDec u (fun d => { d with
      active := false, fetchEnd := true, streams := satInc d.streams, outBytes := BitVec.ofNat 32 d.out.length }) s
  else s

/-- TAMP_DECODE_BLOCK (R365): the block at the head of the input flume is decoded and its tally returned. -/
def decodeStep (u : Fin 6) (b : BlkDesc) (rest : List BlkDesc) (bad : Bool) (s : State) : State :=
  let d := tget s.rast.dec u
  let p := if headsOk s d b then payloadPoison u d b bad s else (false, s)
  let r := decBlock s d b p.1
  let s1 := retTally (decFl u) (modDec u (fun d => { d with q := rest }) p.2)
  let s2 := decOutput u r.1 s1
  match r.2 with
  | some e => decError u e b.ix s2
  | none => decFinish u s2

def execTampDecodeBlock (u : Fin 6) (poison : Bool) (s : State) : Host.Outcome State Fault Refusal :=
  .next (whenS (domUp s 4 && s.mem.ready) (fun s =>
    match (tget s.rast.dec u).q with
    | b :: rest => decodeStep u b rest poison s
    | [] => s) s)

/-- The descriptor the fetcher pushes next: the block header lies after the stream header for the first block (R358). -/
def nextDesc (d : Dec) (poison : Bool) : BlkDesc :=
  { addr := if d.fetchIx = 0 then d.src + 8 else d.src, ix := d.fetchIx, poison := poison }

/-- The headers that the fetcher of decoder u reads next are poisoned (R328, R329). -/
def headPoison (u : Fin 6) (bad : Bool) (s : State) : Bool × State :=
  let d := tget s.rast.dec u
  usePoison u.1 d.src bad (srcOut s d d.src (if d.fetchIx = 0 then 16 else 8)) s

/-- What the fetcher has learned once it has pushed descriptor b: TOTAL from the stream header, the next header's place,
and whether nothing is left to fetch. -/
def fetched (s : State) (d : Dec) (b : BlkDesc) : Dec :=
  let sh := srcRead s d d.src 8
  let hd := srcRead s d b.addr 8
  let total := if d.fetchIx = 0 then fieldN sh 4 4 else d.total
  let sum := d.fetched + fieldN hd 0 2 + 1
  let stop := b.poison || (d.fetchIx = 0 && !streamOk sh) || !blockOk hd (d.srcEnd - (b.addr + 8)) ||
    decide (total ≤ sum) || fieldN hd 3 1 != 0
  { d with total := total, fetched := sum, fetchIx := d.fetchIx + 1, src := b.addr + 8 + fieldN hd 4 4, fetchEnd := stop
           q := d.q ++ [b] }

/-- BAND_FETCH (R358): one block descriptor is pushed; a fetcher without a tally waits (R20). -/
def execBandFetch (u : Fin 6) (poison : Bool) (s : State) : Host.Outcome State Fault Refusal :=
  .next (whenS (domUp s 4 && s.mem.ready && (tget s.rast.dec u).active && !(tget s.rast.dec u).fetchEnd
      && hasTally s (decFl u)) (fun s =>
    let p := headPoison u poison s
    takeTally (decFl u) (modDec u (fun d => fetched s d (nextDesc d p.1)) p.2)) s)

/-! ### TAMP_GEN jobs (R382, R383) -/

/-- Status a GO is refused with, 0 when accepted (R382). -/
def genCheck (s : State) : Nat :=
  let r := s.rast
  let a := r.genSrc.toNat
  let b := r.genDst.toNat
  if r.genBusy || !s.mem.ready then 3
  else if decide (a < b + r.genDlen.toNat ∧ b < a + r.genSlen.toNat) || decide (usableBytes s < a + r.genSlen.toNat)
      || decide (usableBytes s < b + r.genDlen.toNat) then 5
  else 0

/-- TAMP_GEN_CTL.GO. -/
def genGo (s : State) : State :=
  let e := genCheck s
  if e = 0 then
    openDec 5 s.rast.genSrc.toNat s.rast.genSlen.toNat s.rast.genDst.toNat s.rast.genDlen.toNat
      (modRast (fun r => { r with genBusy := true }) s)
  else modRast (fun r => { r with genErr := BitVec.ofNat 8 e, genDone := true }) s

def execTampGenGo (s : State) : Host.Outcome State Fault Refusal := .next (whenS (reach s .bar0 4) genGo s)

/-- TAMP_GEN_DONE (R379, R383): the job's stream has ended. -/
def execTampGenDone (s : State) : Host.Outcome State Fault Refusal :=
  .next (whenS (domUp s 4 && s.rast.genBusy && !(tget s.rast.dec 5).active) (fun s =>
    let d := tget s.rast.dec 5
    engine (unitSrc 4 9) 0x0119 0xFFFF ([d.err, 0] ++ leBytes 4 d.out.length)
      (modRast (fun r => { r with genBusy := false, genErr := d.err, genDone := true }) s)) s)

/-! ## Encoding of a block (R372, R373) -/

/-- What the encoder emits. -/
inductive Token where
  | lit (b : Byte)
  | mat (len dist : Nat)
deriving DecidableEq, Repr

/-- The 15-bit hash of the four bytes at the head of a list (R373). -/
def hash4 (bs : List Byte) : Nat := fieldN bs 0 4 * 0x9E3779B1 % 4294967296 / 131072

/-- Length of the common start of two lists, at most n. -/
def commonLen : Nat → List Byte → List Byte → Nat
  | 0, _, _ => 0
  | _, [], _ => 0
  | _, _, [] => 0
  | n + 1, a :: x, b :: y => if a = b then commonLen n x y + 1 else 0

/-- Search the chain: `prev` holds the input from each earlier position, newest first, at distance `dist` and more; at
most `depth` candidates with the same hash are examined. The longest match so far is (len, dist). -/
def searchChain (cur : List Byte) (cap : Nat) : List (List Byte) → Nat → Nat → Nat × Nat → Nat × Nat
  | [], _, _, best => best
  | p :: ps, dist, depth, best =>
    if depth = 0 || 65536 < dist then best
    else if hash4 p = hash4 cur then
      let n := commonLen cap cur p
      searchChain cur cap ps (dist + 1) (depth - 1) (if best.1 < n then (n, dist) else best)
    else searchChain cur cap ps (dist + 1) depth best

/-- The match sequence of R373 over the rest of the input up to the end of the block; the first `skip` positions emit
nothing (they belong to earlier blocks, or to a match). -/
def matchSeq (depth : Nat) : List Byte → Nat → List (List Byte) → List Token
  | [], _, _ => []
  | b :: r, skip, prev =>
    let cur := b :: r
    match skip with
    | k + 1 => matchSeq depth r k (cur :: prev)
    | 0 =>
      let m := if 4 ≤ cur.length then searchChain cur (min 1028 cur.length) prev 1 depth (0, 0) else (0, 0)
      if 4 ≤ m.1 then .mat m.1 m.2 :: matchSeq depth r (m.1 - 1) (cur :: prev)
      else .lit b :: matchSeq depth r 0 (cur :: prev)

/-- Symbol of a match length, and of a distance: the highest class whose base does not exceed it. -/
def lenSym (n : Nat) : Nat := (List.range 28).foldl (fun a k => if lenBase (257 + k) ≤ n then 257 + k else a) 257
def distSym (d : Nat) : Nat := (List.range 32).foldl (fun a k => if distBase k ≤ d then k else a) 0

/-- Literal/length symbol and distance symbol of a token. -/
def tokLit : Token → Nat
  | .lit b => b.toNat
  | .mat n _ => lenSym n
def tokDist : Token → Option Nat
  | .lit _ => none
  | .mat _ d => some (distSym d)

/-- Occurrences of each of n symbols. -/
def countSyms (n : Nat) (l : List Nat) : List Nat := (List.range n).map fun k => (l.filter (· == k)).length

/-- A complete code over the used symbols with two adjacent lengths: what stands in when the choice of Config.tampLens is
not valid. -/
def flatLens (counts : List Nat) : List Nat :=
  let n := (counts.filter (· != 0)).length
  let k := Nat.log2 n + 1
  let short := 2 ^ k - n
  let go := counts.foldl (fun (acc : List Nat × Nat) c =>
    if c = 0 then (acc.1 ++ [0], acc.2)
    else (acc.1 ++ [if n = 1 then 1 else if acc.2 < short then k - 1 else k], acc.2 + 1)) ([], 0)
  go.1

/-- Lengths give a code to every counted symbol. -/
def coversAll (lens counts : List Nat) : Bool :=
  (List.range counts.length).all fun k => (counts[k]?).getD 0 == 0 || (lens[k]?).getD 0 != 0

/-- The code lengths of a block: the encoder's own choice where R368 allows it (log 21). -/
def chooseLens (lit dist : List Nat) : List Nat × List Nat :=
  let c := Config.tampLens lit dist
  if codesOk c.1 c.2 && coversAll c.1 lit && coversAll c.2 dist && decide (257 ≤ c.1.length ∧ c.1.length ≤ 285)
      && decide (1 ≤ c.2.length ∧ c.2.length ≤ 32) then c
  else (flatLens lit, flatLens dist)

/-- The lengths a token list stands for. -/
def expandTokens : List (Nat × Nat) → List Nat → Option (List Nat)
  | [], acc => some acc
  | (t, x) :: r, acc => if 2 ^ tokenExtra t ≤ x then none else
    match tokenLens t x acc with
    | some l => expandTokens r (acc ++ l)
    | none => none

/-- The length tokens sent: the encoder's own choice where it stands for the lengths, else one token a length. -/
def chooseTokens (lens : List Nat) : List (Nat × Nat) :=
  let c := Config.tampTokens lens
  if expandTokens c [] == some lens then c else lens.map fun l => (l, 0)

/-- Bits of a token with its code and extra bits. -/
def tokBits (lit dist : List Nat) : Token → List Bool
  | .lit b => codeBits lit b.toNat
  | .mat n d =>
    codeBits lit (lenSym n) ++ numBits (lenExtra (lenSym n)) (n - lenBase (lenSym n)) ++
      codeBits dist (distSym d) ++ numBits (distExtra (distSym d)) (d - distBase (distSym d))

/-- The CODED payload of a token sequence (R365). -/
def codedPayload (toks : List Token) : List Byte :=
  let lens := chooseLens (countSyms 285 (256 :: toks.map tokLit)) (countSyms 32 (toks.filterMap tokDist))
  let bits := numBits 5 (lens.1.length - 257) ++ numBits 5 (lens.2.length - 1) ++
    (chooseTokens (lens.1 ++ lens.2)).flatMap (fun p => numBits 5 p.1 ++ numBits (tokenExtra p.1) p.2) ++
    toks.flatMap (tokBits lens.1 lens.2) ++ codeBits lens.1 256
  packBits (bits.length / 8 + 1) bits

/-- Header and payload of one block after the input `hist` of its stream (R361, R372). -/
def encodeBlock (depth : Nat) (hist block : List Byte) (last : Bool) : List Byte :=
  let p := codedPayload (matchSeq depth (hist ++ block) hist.length [])
  let coded := decide (p.length < block.length)
  let body := if coded then p else block
  leBytes 2 (block.length - 1) ++ leBytes 1 (b2n coded) ++ leBytes 1 (b2n last) ++ leBytes 4 body.length ++ body

/-- The stream header (R360). -/
def streamHead (total : Nat) : List Byte := [0x54, 0x4D, 1, 0] ++ leBytes 4 total

/-! ## Encoder units (R359, R374, R380, R381) -/

/-- Chain depth and block size of an encoder's next stream (R374, R381). -/
def encDepth (x : Enc) : Nat :=
  if x.xp then clampN 1 256 x.depth.toNat else 4 ^ clampN 1 4 x.level.toNat
def encBlk (x : Enc) : Nat := if x.xp then (x.blk.toNat + 1) * 4096 else 65536

/-- A producer opens a stream of TOTAL bytes toward a destination (R359). -/
def openEnc (e : Fin 2) (forLog : Bool) (total dst cap : Nat) (s : State) : State :=
  modEnc e (fun x => { x with
    active := true, forLog := forLog, curDepth := encDepth x, curBlk := encBlk x, total := total, taken := 0, hist := []
    written := 0, dst := dst, cap := cap, err := 0, blkIx := 0 }) s

/-- A producer pushes a block. -/
def pushEnc (e : Fin 2) (bs : List Byte) (s : State) : State :=
  takeTally (encFl e) (modEnc e (fun x => { x with q := x.q ++ [bs] }) s)

/-- Error of the block at the head, if one: poison, or an input that does not fit TOTAL (R380). -/
def encFault (x : Enc) (b : List Byte) (poison : Bool) : Option Nat :=
  if poison then some tPoison
  else if x.total < x.taken + b.length || (b.length < x.curBlk && x.taken + b.length < x.total) then some tBadLength
  else none

/-- The bytes of the next block of a stream, with the stream header before the first. -/
def encBytes (x : Enc) (b : List Byte) : List Byte :=
  (if x.blkIx = 0 then streamHead x.total else []) ++
    encodeBlock x.curDepth x.hist b (decide (x.taken + b.length = x.total))

/-- Poisoned input of scan capture is an uncorrectable error in the scan line buffer, reservation 7 (R340); its byte is a free
value (log 4). -/
def lineUe (s : State) : State :=
  let r := tget s.rast.res 7
  useFree (landUe (resBase r + (freeWord s).toNat % max 1 (resLen r)) 7 s)

/-- One block is encoded and written (R373). A block that does not fit writes nothing of itself (log 21). -/
def encodeStep (e : Fin 2) (b : List Byte) (rest : List (List Byte)) (poison : Bool) (s : State) : State :=
  let x := tget s.rast.enc e
  let s1 := retTally (encFl e) (modEnc e (fun x => { x with q := rest }) (if poison && !x.forLog then lineUe s else s))
  match encFault x b poison with
  | some c => encError e c s1
  | none =>
    let bs := encBytes x b
    if x.cap < x.written + bs.length then encError e tOutFull s1
    else
      let s2 := modEnc e (fun x => { x with
        taken := x.taken + b.length, hist := x.hist ++ b, written := x.written + bs.length, blkIx := x.blkIx + 1 })
        (localWrite (x.dst + x.written) bs s1)
      if x.taken + b.length = x.total then
        modEnc e (fun x => { x with
          active := false, streams := satInc x.streams, outBytes := BitVec.ofNat 32 x.written }) s2
      else s2

end Sys2Proof.Machine
end

