-- ==== Sys2Proof/Machine/Bands.lean ====
section
/-!
DEFINITION. Staging and checking of bands for the stations and the head (R397-R404, R513, R516-R518).
-/

namespace Sys2Proof.Machine

/-! ## Geometry -/

/-- LPITCH of a station's line (R395), and of a head line (R504), from the settings in use. -/
def beamPitch (c : BeamCfg) : Nat := ceilDiv (c.pixels.toNat * (if c.depth then 4 else 1)) 512 * 64
def headElems (c : HeadCfg) : Nat := 64 * clampN 1 40 c.elem64.toNat
def headPitch (c : HeadCfg) : Nat := if c.fmt then 2 * headElems c else headElems c

/-- LPITCH of engine e. -/
def linePitch (s : State) (e : Engine) : Nat :=
  if h : e.1 < 4 then beamPitch (getStn s ⟨e.1, h⟩).cur else headPitch s.head.cur

/-- The reservation of engine e's bands. -/
def bandRes (s : State) (e : Engine) : LandRes := tget s.rast.res ⟨e.1 + 1, by omega⟩

/-- Bytes of a slot of engine e, and the first byte of slot k. -/
def slotBytesOf (s : State) (e : Engine) : Nat := (bandRes s e).slot.toNat * 1024
def slotAddr (s : State) (e : Engine) (k : Nat) : Nat := resBase (bandRes s e) + k * slotBytesOf s e

/-- Panels of a plan's mask, in the order Y, M, C, OC. -/
def panelsOf (p : Plan) : List Nat := (List.range 4).filter fun k => p.panels.getLsbD k

/-- Panel of overall line k of a plan's head lines (R514). -/
def panelAt (p : Plan) (k : Nat) : Nat := ((panelsOf p)[k / max 1 p.hlines]?).getD 0xF

/-- STATION code a descriptor of engine e must carry at overall line k (R397, R513). -/
def stationCode (e : Engine) (p : Plan) (k : Nat) : Nat := if e.1 < 4 then e.1 else 4 + panelAt p k

/-- A free slot of the reservation, the first at or after the next one. -/
def freeSlot (s : State) (e : Engine) : Option Nat :=
  let depth := landBands (bandRes s e)
  let next := tget s.rast.nextSlot e
  let used := (tget s.rast.staged e).map (·.slot)
  ((List.range depth).map fun k => (next + k) % depth).find? fun k => !used.contains k

/-! ## Staging (R398, R567) -/

/-- The page's bands for engine e are still to be staged. -/
def wantsBand (e : Engine) (g : Page) : Bool :=
  (g.st == .posted || g.st == .admitted) && g.uses e.1 && decide (tget g.nextBand e < tget g.plan.nbands e)

/-- The plan whose band engine e takes next: open plans in posting order (R567). -/
def stageNext (s : State) (e : Engine) : Option Page := s.cue.pages.find? (wantsBand e)

/-- The descriptor passes its checks (R397, R399 cause DESC). -/
def descOk (s : State) (e : Engine) (g : Page) (d : List Byte) : Bool :=
  d.length == 32 && fieldN d 0 2 == 1 && fieldN d 2 1 == stationCode e g.plan (tget g.nextLine e) &&
    decide (fieldN d 3 1 ≤ 1) && fieldN d 4 4 == tget g.nextBand e && decide (1 ≤ fieldN d 0x14 2) &&
    decide (fieldN d 0x14 2 ≤ 4096) && zeros d 0x16 2 && fieldN d 0x1C 4 == (crc32c (d.take 28)).toNat &&
    decide (fieldN d 0x14 2 * linePitch s e ≤ slotBytesOf s e)

/-- Lines a band stands for: its LINES; a descriptor that could not be read states none, and the number is left open. -/
def bandLines (s : State) (desc : Option (List Byte)) : Nat :=
  match desc with
  | some d => fieldN d 0x14 2
  | none => (freeWord s).toNat

/-- The band as staging begins. -/
def newBand (s : State) (e : Engine) (g : Page) (slot : Nat) (desc : Option (List Byte)) : Band :=
  let d := desc.getD []
  let ok := match desc with | some d => descOk s e g d | none => false
  { handle := g.handle, no := tget g.nextBand e, panel := if e.1 < 4 then 0 else panelAt g.plan (tget g.nextLine e),
    line0 := tget g.nextLine e, lines := bandLines s desc, slot := slot, lpitch := linePitch s e,
    bcrc := BitVec.ofNat 32 (fieldN d 0x18 4), empty := bitB (BitVec.ofNat 8 (fieldN d 3 1)) 0, pass := false,
    cause := if ok then 0 else 1, tampCode := 0, ueFrom := none, starved := false }

/-- Step 2 of R398: an EMPTY band is zeros, any other is decoded. -/
def fillBand (e : Engine) (b : Band) (desc : List Byte) (s : State) : State :=
  if b.cause != 0 then s
  else if b.empty then
    modRast (fun r => { r with
      land := memWrite r.land (slotAddr s e b.slot) (List.replicate (b.lines * b.lpitch) 0) }) s
  else openDec ⟨e.1, by omega⟩ (fieldN desc 8 8) (fieldN desc 0x10 4) (slotAddr s e b.slot) (slotBytesOf s e) s

/-- Staging of the next band of page g starts in a slot (R398 steps 1 and 2). -/
def stageBand (e : Engine) (g : Page) (slot : Nat) (desc : Option (List Byte)) (s : State) : State :=
  let b := newBand s e g slot desc
  let s0 := if desc.isNone then useFree s else s
  let s1 := modPage g.handle (fun g => { g with
      nextBand := tmod g.nextBand e (· + 1)
      nextLine := tmod g.nextLine e (· + b.lines) }) s0
  let s2 := modRast (fun r => { r with
      cur := tset r.cur e (some b)
      nextSlot := tset r.nextSlot e ((slot + 1) % max 1 (landBands (bandRes s e))) }) s1
  fillBand e b (desc.getD []) s2

/-- BAND_STAGE (R398): a copied descriptor, or none where its read failed. At a tally of 0 the fetcher waits (R20; log 16). -/
def execBandStage (g : Engine) (desc : Option (List Byte)) (s : State) : Host.Outcome State Fault Refusal :=
  .next (match stageNext s g, freeSlot s g with
    | some p, some k =>
      if domUp s 4 && (tget s.rast.cur g).isNone && hasTally s (bandFl g) then stageBand g p k desc s else s
    | _, _ => s)

/-! ## Lines and bands -/

/-- Overall line k of the page has started on engine e. -/
def lineStarted (s : State) (g : Page) (e : Engine) (k : Nat) : Bool :=
  if h : e.1 < 4 then
    let next := tget g.lptr ⟨e.1, h⟩
    match (getStn s ⟨e.1, h⟩).scan with
    | some sc =>
      if sc.page == some g.adm then
        decide ((k : Int) < sc.lptr) || (decide ((k : Int) < sc.lptr + 32) && sc.begun.getLsbD ((k : Int) - sc.lptr).toNat)
      else decide ((k : Int) < next)
    | none => decide ((k : Int) < next)
  else match s.head.line with
    | some l => decide (k < tget g.finished 4) || (l.page == g.adm && l.line == k)
    | none => decide (k < tget g.finished 4)

/-- Lines of the page on engine e: LINES of a station, all panels of the head. -/
def pageLines (g : Page) (e : Engine) : Nat :=
  if h : e.1 < 4 then tget g.plan.lines ⟨e.1, h⟩ else (panelsOf g.plan).length * g.plan.hlines

/-- Last line of a band that the page has. -/
def bandLast (g : Page) (e : Engine) (b : Band) : Nat := min (b.line0 + b.lines) (pageLines g e) - 1

/-- Every line of a band that the page has has started. -/
def bandStarted (s : State) (g : Page) (e : Engine) (b : Band) : Bool :=
  (List.range (bandLast g e b + 1 - b.line0)).all fun j => lineStarted s g e (b.line0 + j)

/-- The band holds overall line k of the plan. -/
def Band.has (b : Band) (handle : Word) (k : Nat) : Bool :=
  b.handle == handle && decide (b.line0 ≤ k ∧ k < b.line0 + b.lines)

/-- ENGINE code and data of a band event: code 0x0120 or 0x0124 for a station, 0x0150 or 0x0151 for the head (R688). -/
def bandEvent (e : Engine) (starve : Bool) (panel x no tamp : Nat) (s : State) : State :=
  if e.1 < 4 then
    engine (84 + e.1) (if starve then 0x0124 else 0x0120) (84 + e.1) (leBytes 1 e.1 ++ leBytes 1 x ++ leBytes 4 no ++ leBytes 1 tamp) s
  else engine 88 (if starve then 0x0151 else 0x0150) 88 (leBytes 1 panel ++ leBytes 1 x ++ leBytes 4 no ++ leBytes 1 tamp) s

/-- A band of page g fails (R401): the page is DEGRADED and counts it, and the event is posted. -/
def bandFail (e : Engine) (b : Band) (cause : Nat) (s : State) : State :=
  bandEvent e false b.panel cause b.no b.tampCode.toNat
    (modPage b.handle (fun g => { g with degraded := true, failb := satInc g.failb }) s)

/-- A line of the page prints dark because of a failed band: BLANKL, and the page's own count (R401, R419). -/
def blankLine (e : Engine) (handle : Word) (s : State) : State :=
  let s1 := modPage handle (fun g => { g with dark := tmod g.dark e (· + 1) }) s
  if h : e.1 < 4 then modStn ⟨e.1, h⟩ (fun x => { x with blankl := satInc x.blankl }) s1
  else modHead (fun x => { x with blankl := satInc x.blankl }) s1

/-- The band that holds line k: the one being staged, else one of the list whose descriptor has not been copied. Each of those
holds a line or more, and how many lie before line k is a free value (log 68). -/
def lateBand (s : State) (e : Engine) (g : Page) (k : Nat) : Nat :=
  let next := tget g.nextBand e + (freeWord s).toNat % (k - tget g.nextLine e + 1)
  match tget s.rast.cur e with
  | some b => if b.has g.handle k then b.no else next
  | none => next

/-- Line k of page g starts without its band (R403, R517): it is counted, and the event comes once per band. -/
def starveLine (e : Engine) (g : Page) (k : Nat) (s : State) : State :=
  let no := lateBand s e g k
  let s1 := modPage g.handle (fun g => { g with degraded := true, dark := tmod g.dark e (· + 1) }) (useFree s)
  let s2 := if h : e.1 < 4 then modStn ⟨e.1, h⟩ (fun x => { x with starvel := satInc x.starvel }) s1
    else modHead (fun x => { x with starvel := satInc x.starvel }) s1
  if (tget s.rast.starved e).any (fun b => b.handle == g.handle && b.no == no) then s2
  else
    bandEvent e true (panelAt g.plan k) 0 no 0
      (modPage g.handle (fun g => { g with starveb := satInc g.starveb })
        (modRast (fun r => { r with starved := tmod r.starved e (· ++ [{ handle := g.handle, no := no }]) }) s2))

/-- An uncorrectable Landing error met in band b at line k: the band fails from that line on (R402). -/
def bandUe (e : Engine) (b : Band) (k : Nat) (s : State) : State :=
  let mark := fun x : Band => if x.handle == b.handle && x.no == b.no then { x with ueFrom := some k } else x
  bandFail e { b with tampCode := 0 } 5
    (landUe (slotAddr s e b.slot + (k - b.line0) * b.lpitch) (BitVec.ofNat 8 (e.1 + 1))
      (modRast (fun r => { r with staged := tmod r.staged e (·.map mark) }) s))

/-- What a line engine finds for line k of page g: the bytes of the line, or none where it prints dark. -/
def lineData (e : Engine) (g : Page) (k : Nat) (ecc : Ecc) (s : State) : Option (List Byte) × State :=
  match (tget s.rast.staged e).find? (fun b => b.has g.handle k) with
  | none => (none, starveLine e g k s)
  | some b =>
    if !b.pass || (match b.ueFrom with | some u => decide (u ≤ k) | none => false) then (none, blankLine e g.handle s)
    else
      let d := memRead s.rast.land (slotAddr s e b.slot + (k - b.line0) * b.lpitch) b.lpitch
      match ecc with
      | .clean => (some d, s)
      | .corrected => (some d, landCorrected s)
      | .uncorrectable => (none, blankLine e g.handle (bandUe e b k s))

/-- A band leaves the flume and its tally returns (R404, R518). -/
def dropBand (e : Engine) (b : Band) (s : State) : State :=
  retTally (bandFl e) (modRast (fun r => { r with
    staged := tmod r.staged e (·.filter fun x => !(x.handle == b.handle && x.no == b.no)) }) s)

/-! ## The check (R398 steps 3 and 4, R399) -/

/-- Staging of the band is over: it failed at once, it is empty, or its decoder has ended the stream. -/
def bandReady (s : State) (e : Engine) (b : Band) : Bool :=
  b.cause != 0 || b.empty || !(tget s.rast.dec ⟨e.1, by omega⟩).active

/-- Cause of failure found by the check, 0 for PASS, and the Tamp code. -/
def bandVerdict (s : State) (e : Engine) (b : Band) : Nat × Byte :=
  let d := tget s.rast.dec ⟨e.1, by omega⟩
  if b.cause != 0 then (b.cause.toNat, 0)
  else if b.empty then (0, 0)
  else if d.err != 0 then (2, d.err)
  else if d.total ≠ b.lines * b.lpitch then (3, 0)
  else if crc32c (memRead s.rast.land (slotAddr s e b.slot) (b.lines * b.lpitch)) ≠ b.bcrc then (4, 0)
  else (0, 0)

/-- The entry is pushed, which takes its tally (R18); one whose lines have all started is released at once (R403). -/
def pushBand (e : Engine) (b : Band) (s : State) : State :=
  let s1 := modRast (fun r => { r with cur := tset r.cur e none }) s
  match pageByHandle s b.handle with
  | none => s1
  | some g =>
    let s2 := takeTally (bandFl e) s1
    if g.isAdm && bandStarted s g e b then retTally (bandFl e) s2
    else modRast (fun r => { r with staged := tmod r.staged e (· ++ [b]) }) s2

/-- A failed band is reported, and keeps its page from being admitted (R401, R568). -/
def tellBand (e : Engine) (b : Band) (s : State) : State :=
  if b.pass then s
  else
    let s1 := bandFail e b b.cause.toNat s
    match pageByHandle s1 b.handle with
    | some g => if g.st == .posted then rejectWithPartner 1 g s1 else s1
    | none => s1

/-- BAND_CHECK_DONE (R398). -/
def execBandCheckDone (g : Engine) (s : State) : Host.Outcome State Fault Refusal :=
  .next (match tget s.rast.cur g with
    | none => s
    | some b =>
      if domUp s 4 && bandReady s g b && hasTally s (bandFl g) then
        let v := bandVerdict s g b
        let b' := { b with cause := BitVec.ofNat 8 v.1, tampCode := v.2, pass := v.1 == 0 }
        tellBand g b' (pushBand g b' s)
      else s)

/-! ## The end of a page (R576, R577) -/

/-- Scans or head lines a page has on engine e: ceil((LINES + LOFF) / 32), or its head lines (R387, R514). -/
def lineNeed (g : Page) (e : Engine) : Nat :=
  if h : e.1 < 4 then ceilDiv (tget g.plan.lines ⟨e.1, h⟩ + (tget g.loff ⟨e.1, h⟩).toNat) 32 else pageLines g e

/-- No action queue of a named channel holds an entry of the page. -/
def queuesClear (s : State) (g : Page) : Bool :=
  g.plan.chans.all fun c => (getCh s c).actq.all fun a => a.page != some g.adm

/-- The page is at its end (R576). -/
def pageAtEnd (s : State) (g : Page) : Bool :=
  g.st == .admitted && g.plan.chans.all g.doneBy.contains && queuesClear s g &&
    (allFin 5).all fun e => tget g.tagged e == tget g.finished e

/-- Fewer scans or lines were tagged than the page has (R577). -/
def pageShort (g : Page) : Bool := (allFin 5).any fun e => g.uses e.1 && decide (tget g.tagged e < lineNeed g e)

/-- A page ends: its bands are released, and SHORT is set where lines are missing (R577). -/
def endPage (g : Page) (s : State) : State :=
  forEach (releaseEngine g.handle) (allFin 5) (modPage g.handle (fun x => { x with st := .ended, short := pageShort g }) s)

/-- Every page that is at its end ends. -/
def endPages (s : State) : State := forEach endPage (s.cue.pages.filter (pageAtEnd s)) s

end Sys2Proof.Machine
end

