-- ==== Sys2Proof/Machine/Presets.lean ====
section
/-!
DEFINITION. What the preset store gives (R244): the spec says which values a preset supplies but not how the image holds
them, so each lookup is an opaque function of the image's data and the preset number (assumption log: 3).
-/

namespace Sys2Proof.Config

open Sys2Proof.Machine

/-- Scan profile of a station (11, Basic control): settings, then TGT, ILIM and BOFF of each beam. -/
opaque scanProfile : List Byte → Nat → Option (BeamCfg × Vector (BitVec 12 × BitVec 12 × Byte) 32)
/-- Head profile (14, Basic control): settings, HHYS and HTMAX. -/
opaque headProfile : List Byte → Nat → Option (HeadCfg × BitVec 6 × BitVec 12)
/-- Scanner profile (15, Basic control). -/
opaque scannerProfile : List Byte → Nat → Option ScanCfg
/-- Tuning preset (13, Basic control): its KIND, the gain block with LOCKTOL in setpoint units, and the heater table. -/
opaque tuningPreset : List Byte → Nat → Option (BitVec 3 × Gains)
/-- Ramp preset: its KIND and its rate in setpoint units per ms. -/
opaque rampPreset : List Byte → Nat → Option (BitVec 3 × Nat)
/-- Stepper profile (12, Basic control): VMAX in 1/16 FS/s, ACC and DEC in FS/s², IRUN, IHOLD, VT1-VT4, HOME and HOMESRC. -/
opaque stepProfile : List Byte → Nat → Option (Nat × Nat × Nat × Byte × Byte × Vector (BitVec 16) 4 × Bool × Byte)
/-- BLDC profile: ACC and DEC in min-1/s. -/
opaque bldcProfile : List Byte → Nat → Option (Nat × Nat)

end Sys2Proof.Config
end

