-- ==== Sys2Proof/Machine/Beam.lean ====
section
/-!
DEFINITION. The beam engine (11): stations and their states, POLYOK, scans and lines, pixels, APC, station commands.
-/

namespace Sys2Proof.Machine

/-! ## POLYOK, LEN (R408-R411) -/

def beamEngine (n : Station) : Engine := ⟨n.1, by omega⟩

/-- The tracker of station n, as loaded at ON. -/
def stnTrk (s : State) (n : Station) : Tracker := getTrk s (Fin.ofNat 16 (getStn s n).curTrk.toNat)

/-- The prediction lies within NOM ± NOM × TOL / 1,024. -/
def nearNom (p256 nom tol : Nat) : Bool :=
  decide (256 * nom * (1024 - tol) ≤ p256 * 1024 ∧ p256 * 1024 ≤ 256 * nom * (1024 + tol))

/-- POLYOK (R408). -/
def polyOk (s : State) (n : Station) : Bool :=
  let t := stnTrk s n
  t.st == .locked && nearNom t.p256 s.beam.nom.toNat s.beam.tol.toNat

/-- LEN of station n is high (R409). -/
def lenHigh (s : State) (n : Station) : Bool :=
  let x := getStn s n
  domUp s 5 && (x.st == .cal || x.st == .ready) && !s.aon.hold && polyOk s n

/-- POLYOK of a station that had it has fallen (R411). -/
def polyFall (n : Station) (s : State) : State :=
  let t := stnTrk s n
  let code : Nat := match t.st with | .off => 0 | .acquire => 1 | .locked => 2 | .lost => 3
  engine (84 + n.1) 0x0123 (84 + n.1) (leBytes 1 code ++ [0] ++ leBytes 4 (t.p256 / 256)) (stationFault n 1 s)

/-- The station follows its POLYOK outside Safe Hold (R410, R411). -/
def syncPolyOne (n : Station) (s : State) : State :=
  let x := getStn s n
  if s.aon.hold || !domUp s 5 || !(x.st == .cal || x.st == .ready) then s
  else if polyOk s n then modStn n (fun x => { x with polySeen := true }) s
  else if x.polySeen then polyFall n s
  else s

def syncPoly (s : State) : State := forEach syncPolyOne (allFin 4) s

/-- A change of a tracker, of the nominal period or of HOLD, with the stations following it. -/
def withPoly (f : State → State) (s : State) : State := syncPoly (f (syncPoly s))

/-! ## Scans (R387-R394) -/

/-- The thermal band in force at ET e (R392). -/
def bandAt (s : State) (e : Nat) : BitVec 3 :=
  let t := s.now - (s.cue.et.toNat - e)
  match (s.therm.bandWas.filter fun c => decide (t < c.1)).getLast? with
  | some c => c.2
  | none => s.therm.band

/-- The APC margin of a table for the band in force at ET e (R392, R425). -/
def apcMargin (s : State) (tab : Vector (BitVec 16) 8) (e : Nat) : Nat := (tget tab (Fin.ofNat 8 (bandAt s e).toNat)).toNat

/-- E becomes known. -/
def setRef (n : Station) (e : Nat) (s : State) : State :=
  modStn n (fun x => { x with scan := x.scan.map fun sc => { sc with e := some e, apcm := apcMargin s sc.tab e } }) s

/-- Ticks from E to the end of beam b's last pixel interval, rounded up to a tick. -/
def lineTicks (x : StationS) (b : Beam) : Nat :=
  x.cur.sos.toNat + (tget x.beams b).curBoff.toNat + ceilDiv (x.cur.pixels.toNat * x.cur.tpix.toNat) 256

/-- End of the scan's last APC sample (R392). -/
def scanEnd (x : StationS) (sc : Scan) (e : Nat) : Nat :=
  e + ((allFin 32).map (lineTicks x)).foldl max 0 + sc.apcm + 400

/-- The scan in progress is over: it counts for its page, and an aborting page's bands are released (R404, R421). -/
def closeScan (n : Station) (s : State) : State :=
  if (getStn s n).scan.isSome then endPages (cutScan n s) else s

/-- The previous scan has not finished its last APC sample (R394). -/
def scanBusy (s : State) (n : Station) : Bool :=
  let x := getStn s n
  match x.scan with
  | none => false
  | some sc => match sc.e with
    | none => true
    | some e => decide (s.cue.et.toNat < scanEnd x sc e)

/-- Fault a FIRE meets at dispatch (R394, R414, R423). -/
def fireFault (s : State) (n : Station) : Option Nat :=
  if !domUp s 5 then some fFlumeDown
  else if (getStn s n).st != .ready then some fStationOff
  else if scanBusy s n then some fLineOverrun
  else none

/-- The edge window W (R390). -/
def edgeWindow (s : State) (n : Station) : Nat :=
  clampN 0 256 (getStn s n).cur.bdwin.toNat * (stnTrk s n).p256 / 262144

/-- Reference of a scan dispatched at d, where it is known at once (R390). -/
def refNow (s : State) (n : Station) (d : Nat) : Option Nat :=
  let t := stnTrk s n
  if (getStn s n).cur.align then some d
  else if t.hasEdge && decide (d - edgeWindow s n ≤ t.lastEdge ∧ t.lastEdge ≤ d) then some t.lastEdge
  else none

/-- A FIRE dispatches (R387, R388). -/
def fireRun (n : Station) (page : Option Word) (s : State) : State :=
  let s0 := closeScan n s
  let d := s0.cue.et.toNat
  let lptr := match page.bind (pageByAdm s0) with | some g => tget g.lptr n | none => 0
  let e := refNow s0 n d
  let sc : Scan := { d := d, e := e, win := edgeWindow s0 n, page := page, lptr := lptr, tab := s0.beam.apcm
                     apcm := apcMargin s0 s0.beam.apcm (e.getD d), begun := 0, sampled := 0 }
  let s1 := modStn n (fun x => { x with scan := some sc }) s0
  match page with
  | some a => modPages (fun g => g.isAdm && g.adm == a) (fun g => { g with lptr := tmod g.lptr n (· + 32) }) s1
  | none => s1

/-- A FIRE that is refused for LINE_OVERRUN is counted (R394). -/
def fireCount (n : Station) (code : Nat) (s : State) : State :=
  if code = fLineOverrun then modStn n (fun x => { x with overrun := satInc x.overrun }) s else s

/-- BD_WINDOW_EXPIRE (R390). -/
def execBdWindowExpire (n : Station) (s : State) : Host.Outcome State Fault Refusal :=
  .next (match (getStn s n).scan with
    | some sc => match sc.e with
      | none => setRef n sc.d (modStn n (fun x => { x with bdmiss := satInc x.bdmiss }) (etTo (sc.d + sc.win) s))
      | some _ => s
    | none => s)

/-! ## Pixels (R391, R395, R396) -/

/-- Level and side of pixel i of a line (R395). -/
def pixelCode (depth : Bool) (d : List Byte) (i : Nat) : Nat × Bool :=
  if depth then
    let b := ((d[i / 2]?).getD 0).toNat
    let c := if i % 2 = 0 then b % 16 else b / 16
    (c % 8, decide (8 ≤ c))
  else (if bitB ((d[i / 8]?).getD 0) (i % 8) then 7 else 0, false)

/-- PWM of a level (R396); nearest limit 64. -/
def pwmOf (c : BeamCfg) (lvl : Nat) : Nat := if lvl = 0 then 0 else min 64 (tget c.pwm (Fin.ofNat 7 (lvl - 1))).toNat

/-- The pulse of pixel i, if it lights: start and end in 1/16,384 tick from E. -/
def pixelPulse (c : BeamCfg) (boff : Nat) (d : List Byte) (i : Nat) : Option (Nat × Nat) :=
  let p := pixelCode c.depth d i
  let w := pwmOf c p.1 * c.tpix.toNat
  let t := (c.sos.toNat + boff) * 16384 + i * c.tpix.toNat * 64
  let t' := if p.2 then t + c.tpix.toNat * 64 - w else t
  if w = 0 then none else some (t', t' + w)

/-- Every pulse of a line. -/
def linePulses (c : BeamCfg) (boff : Nat) (d : List Byte) : List (Nat × Nat) :=
  (List.range c.pixels.toNat).filterMap (pixelPulse c boff d)

/-- A beam's line starts (R388, R403): it writes its line of the page, or stays dark. -/
def beamLine (n : Station) (b : Beam) (ecc : Ecc) (sc : Scan) (e : Nat) (s : State) : State :=
  let x := getStn s n
  let line := sc.lptr + b.1
  match sc.page.bind (pageByAdm s) with
  | none => s
  | some g =>
    if line < 0 ∨ ((tget g.plan.lines n : Nat) : Int) ≤ line then s
    else
      let r := lineData (beamEngine n) g line.toNat ecc s
      match r.1 with
      | some d =>
        if lenHigh s n then emit r.2 (.pulses n b e (linePulses x.cur (tget x.beams b).curBoff.toNat d)) else r.2
      | none => r.2

/-- BEAM_LINE_START (R403). -/
def execBeamLineStart (n : Station) (b : Beam) (ecc : Ecc) (s : State) : Host.Outcome State Fault Refusal :=
  .next (match (getStn s n).scan with
    | some sc => match sc.e with
      | some e =>
        if sc.begun.getLsbD b.1 then s
        else
          let x := getStn s n
          let s1 := etTo (e + x.cur.sos.toNat + (tget x.beams b).curBoff.toNat) s
          modStn n (fun x => { x with scan := x.scan.map fun c => { c with begun := withBit c.begun b.1 true } })
            (beamLine n b ecc sc e s1)
      | none => s
    | none => s)

/-- The first band of station n whose last line has started, with its page. -/
def doneBand (s : State) (n : Station) : Option Band :=
  (tget s.rast.staged (beamEngine n)).find? fun b =>
    match pageByHandle s b.handle with
    | some g => g.isAdm && lineStarted s g (beamEngine n) (bandLast g (beamEngine n) b)
    | none => false

/-- End of the last pixel interval of line k of page g, or an instant already past where its scan is over (R404). -/
def beamLineEnd (s : State) (n : Station) (g : Page) (k : Nat) : Nat :=
  let x := getStn s n
  match x.scan with
  | some sc => match sc.e with
    | some e =>
      if sc.page == some g.adm && decide (sc.lptr ≤ k ∧ (k : Int) < sc.lptr + 32) then
        e + lineTicks x (Fin.ofNat 32 ((k : Int) - sc.lptr).toNat)
      else 0
    | none => 0
  | none => 0

/-- End of the last pixel interval of a band's last line (R404). -/
def bandEnd (s : State) (n : Station) (b : Band) : Nat :=
  match pageByHandle s b.handle with
  | some g => beamLineEnd s n g (bandLast g (beamEngine n) b)
  | none => 0

/-- BAND_RELEASE (R404). -/
def execBandRelease (n : Station) (s : State) : Host.Outcome State Fault Refusal :=
  .next (match doneBand s n with
    | some b => dropBand (beamEngine n) b (etTo (bandEnd s n b) s)
    | none => s)

/-! ## APC (R405-R407) -/

/-- Working target of beam b. -/
def workTarget (x : StationS) (b : BeamB) : Int := (b.curTgt.toNat * x.trim.toNat / 1024 : Nat)

/-- One APC sample (R405, R406, R410). -/
def apcBeam (gain : Int) (tgte : Int) (pd : BitVec 12) (cal : Bool) (b : BeamB) : BeamB :=
  let p : Int := pd.toNat
  let drv := clampI 0 b.curIlim.toNat (b.idrv.toNat + gain * (tgte - p) / 16)
  let lowNow := b.idrv == b.curIlim && decide (16 * p < 15 * tgte)
  let low := if lowNow then b.low + 1 else 0
  let near := decide (31 * tgte ≤ 32 * p ∧ 32 * p ≤ 33 * tgte)
  { b with idrv := BitVec.ofInt 12 drv, pd := pd, low := low
           weak := if 16 ≤ low then true else if 15 * tgte ≤ 16 * p then false else b.weak
           okN := if cal then (if near then b.okN + 1 else 0) else b.okN }

/-- The beam is lit at its present drive current from ET t on for 400 ticks, where LEN is high (R392, R409). -/
def apcLit (n : Station) (b : Beam) (t : Nat) (s : State) : State :=
  if lenHigh s n then emit s (.apcLight n b (tget (getStn s n).beams b).idrv t) else s

/-- The sample of beam b is taken, and BEAM_WEAK is posted when it makes the beam weak (R406). -/
def apcTake (n : Station) (b : Beam) (pd : BitVec 12) (s : State) : State :=
  let x := getStn s n
  let o := tget x.beams b
  let w := apcBeam (clampN 1 15 x.cur.gain.toNat : Nat) (workTarget x o) pd (x.st == .cal) o
  let s1 := modStn n (fun x => { x with beams := tset x.beams b w }) s
  if w.weak && !o.weak then
    engine (84 + n.1) 0x0121 (84 + n.1) (leBytes 1 b.1 ++ [0] ++ leBytes 2 w.idrv.toNat ++ leBytes 2 pd.toNat) s1
  else s1

/-- Every beam has been near its target at 16 consecutive samples (R410). -/
def converged (x : StationS) : Bool := x.beams.toList.all fun b => decide (16 ≤ b.okN)

/-- A station in CAL that has converged becomes READY. -/
def calCheck (n : Station) (s : State) : State :=
  if (getStn s n).st == .cal && converged (getStn s n) then
    engine (84 + n.1) 0x0125 (84 + n.1) [] (modStn n (fun x => { x with st := .ready }) s)
  else s

/-- The scan ends once every beam has begun and been sampled. -/
def scanCheck (n : Station) (s : State) : State :=
  match (getStn s n).scan with
  | some sc => if sc.sampled == BitVec.allOnes 32 then closeScan n s else s
  | none => s

/-- An APC sample during a scan (R392). -/
def apcScan (n : Station) (b : Beam) (pd : BitVec 12) (sc : Scan) (e : Nat) (s : State) : State :=
  if sc.begun.getLsbD b.1 && !sc.sampled.getLsbD b.1 then
    let t := e + lineTicks (getStn s n) b + sc.apcm
    let s1 := apcLit n b t (etTo (t + 400) s)
    scanCheck n (modStn n (fun x => { x with scan := x.scan.map fun c => { c with sampled := withBit c.sampled b.1 true } })
      (apcTake n b pd s1))
  else s

/-- An APC sample in CAL (R410): one a beam on each facet, placed from its edge as in a scan, within 256 facets. -/
def apcCal (n : Station) (b : Beam) (pd : BitVec 12) (f : CalFacet) (s : State) : State :=
  if f.sampled.getLsbD b.1 then s
  else
    let t := f.e + lineTicks (getStn s n) b + f.apcm
    let s1 := apcLit n b t (etTo (t + 400) s)
    calCheck n (modStn n (fun x => { x with facet := x.facet.map fun c => { c with sampled := withBit c.sampled b.1 true } })
      (apcTake n b pd s1))

/-- APC_SAMPLE (R405): in READY within a scan, in CAL on the facets of R410, never while HOLD is 1 (R422). -/
def execApcSample (n : Station) (b : Beam) (pd : BitVec 12) (s : State) : Host.Outcome State Fault Refusal :=
  .next (if s.aon.hold || !domUp s 5 then s else
    let x := getStn s n
    match x.st with
    | .cal => match x.facet with
      | some f => if x.polySeen && polyOk s n then apcCal n b pd f s else s
      | none => s
    | .ready => match x.scan with
      | some sc => match sc.e with
        | some e => apcScan n b pd sc e s
        | none => s
      | none => s
    | _ => s)

/-- APC_OVP (R407). -/
def execApcOvp (n : Station) (b : Beam) (s : State) : Host.Outcome State Fault Refusal :=
  .next (whenS (lenHigh s n)
    (fun s => engine (84 + n.1) 0x0122 (84 + n.1) (leBytes 1 b.1) (stationFault n 2 s)) s)

/-- CAL_TIMEOUT (R410). -/
def execCalTimeout (n : Station) (s : State) : Host.Outcome State Fault Refusal :=
  .next (whenS (domUp s 5 && (getStn s n).st == .cal && !s.aon.hold && decide (256 ≤ (getStn s n).facets)) (stationFault n 3) s)

/-! ## Edges of a station's tracker -/

/-- An accepted edge at ET x of a station in CAL with POLYOK: the facet that begins is sampled, unless 256 of them lie between the
first edge with POLYOK and it (R410). -/
def calEdge (s : State) (x : Nat) (y : StationS) : StationS :=
  let k := if y.polySeen then y.facets + 1 else 0
  { y with facets := k, facet := if k < 256 then some { e := x, apcm := apcMargin s s.beam.apcm x, sampled := 0 } else none }

/-- A real edge at ET x: E of a scan that waits for it (R390), and a facet in CAL (R410). -/
def stationEdgeOne (t : Trk) (x : Nat) (n : Station) (s : State) : State :=
  let st := getStn s n
  if st.curTrk.toNat ≠ t.1 || !domUp s 5 then s
  else
    let s1 := match st.scan with
      | some sc => if sc.e.isNone && decide (sc.d - sc.win ≤ x ∧ x ≤ sc.d + sc.win) then setRef n x s else s
      | none => s
    if st.st == .cal && !s.aon.hold && polyOk s n then modStn n (calEdge s x) s1 else s1

def stationEdge (t : Trk) (x : Nat) (s : State) : State := forEach (stationEdgeOne t x) (allFin 4) s

/-! ## Commands (R415-R418) -/

/-- Values outside their range take the nearest limit (R417). -/
def clampBeam (c : BeamCfg) : BeamCfg :=
  { c with
    pixels := BitVec.ofNat 14 (clampN 1 12288 c.pixels.toNat), tpix := BitVec.ofNat 24 (max 5120 c.tpix.toNat)
    bdwin := BitVec.ofNat 9 (clampN 0 256 c.bdwin.toNat), gain := BitVec.ofNat 4 (clampN 1 15 c.gain.toNat)
    pwm := c.pwm.map fun w => BitVec.ofNat 7 (clampN 0 64 w.toNat) }

/-- Settings ON would load: the profile's, or the registers' at the Expert level. -/
def beamLoad (s : State) (n : Station) : Option (BeamCfg × Vector (BitVec 12 × BitVec 12 × Byte) 32) :=
  let x := getStn s n
  if x.xp then some (clampBeam x.reg, x.beams.map fun b => (b.tgt, b.ilim, b.boff))
  else match s.boot.preset with
    | some p => (Config.scanProfile p.data x.profile.toNat).map fun r => (clampBeam r.1, r.2)
    | none => none

/-- The geometry check (R393), in 1/256 tick and 1/1,024. -/
def beamGeom (s : State) (c : BeamCfg) (v : Vector (BitVec 12 × BitVec 12 × Byte) 32) : Bool :=
  let boff := (v.toList.map (·.2.2.toNat)).foldl max 0
  let apcm := (s.beam.apcm.toList.map (·.toNat)).foldl max 0
  decide (((c.sos.toNat + boff + apcm + 400) * 256 + c.pixels.toNat * c.tpix.toNat) * 1024
    ≤ s.beam.nom.toNat * (1024 - c.bdwin.toNat) * 256)

/-- A refused command sets CMDERR (R415). -/
def beamErr (n : Station) (code : Nat) (s : State) : State := modStn n (fun x => { x with cmdErr := BitVec.ofNat 2 code }) s

/-- The station with settings loaded, in CAL. -/
def stnOn (c : BeamCfg) (v : Vector (BitVec 12 × BitVec 12 × Byte) 32) (x : StationS) : StationS :=
  { x with
    st := .cal, cur := c, curTrk := x.trk, polySeen := false, facets := 0, facet := none, scan := none
    beams := Vector.ofFn fun b : Fin 32 => { tget x.beams b with
      curTgt := (tget v b).1, curIlim := (tget v b).2.1, curBoff := (tget v b).2.2, low := 0, okN := 0 } }

/-- The ON command. -/
def beamOnOp (n : Station) (s : State) : State :=
  if (getStn s n).st != .off then beamErr n 1 s
  else match beamLoad s n with
    | none => beamErr n 2 s
    | some (c, v) => if beamGeom s c v then syncPoly (modStn n (stnOn c v) s) else beamErr n 3 s

/-- The OFF command: any state (R415); FAULT ends here (R412). -/
def beamOffOp (n : Station) (s : State) : State :=
  abortEnginePages n.1 (modStn n (fun x => { x with
    st := .off, fcause := 0, polySeen := false, facets := 0, facet := none }) (cutScan n s))

/-- The RECAL command. -/
def beamRecalOp (n : Station) (s : State) : State :=
  if (getStn s n).st != .ready || s.cue.pages.any (fun g => g.isAdm && g.uses n.1) then beamErr n 1 s
  else syncPoly (modStn n (fun x => { x with
    st := .cal, polySeen := false, facets := 0, facet := none, scan := none
    beams := x.beams.map fun b => { b with okN := 0 } }) (cutScan n s))

/-- A write of BEAM_STn_CTL.CMD. -/
def beamCmd (n : Station) (v : Word) (s : State) : State :=
  match bitsN v 1 0 with
  | 1 => beamOnOp n s
  | 2 => beamOffOp n s
  | 3 => beamRecalOp n s
  | _ => s

def execBeamOn (n : Station) (s : State) : Host.Outcome State Fault Refusal := .next (whenS (reach s .bar0 5) (beamOnOp n) s)
def execBeamOff (n : Station) (s : State) : Host.Outcome State Fault Refusal := .next (whenS (reach s .bar0 5) (beamOffOp n) s)
def execBeamRecal (n : Station) (s : State) : Host.Outcome State Fault Refusal :=
  .next (whenS (reach s .bar0 5) (beamRecalOp n) s)

end Sys2Proof.Machine
end

