-- ==== Sys2Proof/Machine/Loops.lean ====
section
/-!
DEFINITION. Control loops, high voltage and the fuser (13): samples and outputs, the law, setpoints, locks, shorts and
retries, zero crossings, heater bursts and zone checks, loop commands.
-/

namespace Sys2Proof.Machine

/-! ## Units (R460, R482) -/

/-- Temperature at a count from a 33-point table, in 0.1 °C. -/
def tableTemp (tht : Vector (BitVec 16) 33) (c : Nat) : Int :=
  let k := c / 128
  let a : Int := ((tht.toList[k]?).getD 0).toNat
  let b : Int := ((tht.toList[k + 1]?).getD 0).toNat
  a + (b - a) * (c % 128 : Nat) / 128

/-- The smallest count whose temperature is at least v; 4,095 where no count reaches it (log 23). -/
def tempCount (tht : Vector (BitVec 16) 33) (v : Int) : Nat :=
  ((List.range 4096).find? fun c => decide (v ≤ tableTemp tht c)).getD 4095

/-- round(v × 256 / scale), halves up; a scale of 0 counts as 1 (log 23). -/
def scaleCount (v scale : Nat) : Nat := (2 * v * 256 + max 1 scale) / (2 * max 1 scale)

/-- A value in the setpoint unit of a slot, as counts (R460). -/
def toCounts (s : State) (x : LoopS) (v : Nat) : Nat :=
  match x.kind.toNat with
  | 1 => scaleCount v (tget s.loops.hv (Fin.ofNat 16 x.out.toNat)).vscale.toNat
  | 2 => tempCount (getZone s (Fin.ofNat 2 x.out.toNat)).tht v
  | 4 =>
    if x.inp.toNat < 16 then scaleCount v (tget s.loops.hv (Fin.ofNat 16 x.inp.toNat)).vscale.toNat
    else if x.inp.toNat < 32 then scaleCount v (tget s.loops.hv (Fin.ofNat 16 (x.inp.toNat - 16))).iscale.toNat
    else v
  | _ => v

/-! ## Sample instants (R463, R464, R466) -/

/-- Nearest values of PERIOD, in loop cycles. -/
def loopPeriod (g : Gains) : Nat := clampN 2000 2000000 g.period

/-- First ET at or after t that is 160 ticks before an output instant. -/
def sampleFrom (g : Gains) (t : Nat) : Nat :=
  let p := 4 * loopPeriod g
  let o := (4 * g.oph) % p
  t + (o + p * 2 - (t + 160) % p) % p

/-- The instant of the slot's next sample. -/
def nextSample (x : LoopS) : Nat := sampleFrom x.g x.startAt

/-! ## PWM gates (R465, R474) -/

/-- FPWM in use, in kHz. -/
def hvKhz (h : HvS) : Nat := clampN 20 200 h.fpwm.toNat

/-- First start of a PWM period of f kHz after instant t; the phase of a gate's PWM is open (log 65). -/
def pwmStart (gate f t : Nat) : Nat :=
  let a := ((t + 1 + Config.pwmPhase gate) * f) % 800000
  t + 1 + ((800000 - a) % 800000 + f - 1) / f

/-- Instant at which the output last written takes effect at the slot's output. -/
def outAt (s : State) (x : LoopS) : Nat :=
  if x.kind = 1 then pwmStart x.out.toNat (hvKhz (tget s.loops.hv (Fin.ofNat 16 x.out.toNat))) x.uAt
  else if x.kind = 3 then x.uAt + Config.bldcPwm x.out.toNat x.uAt
  else x.uAt

/-- The output in effect now. -/
def outNow (s : State) (x : LoopS) : BitVec 16 := if outAt s x ≤ s.now then x.u else x.uOld

/-! ## The law (R467) -/

/-- A signed 32-bit value that saturates. -/
def sat32 (x : Int) : Int := clampI (-2147483648) 2147483647 x

/-- The integral and the output of one sample. -/
def loopLaw (g : Gains) (omax sp m mPrev i : Int) : Int × Int :=
  let e := sp - m
  let p := sat32 (g.kp.toInt * e)
  let i' := clampI (g.omin * 256) (omax * 256) (sat32 (i + g.ki.toInt * e))
  let d := sat32 (g.kd.toInt * (mPrev - m))
  (i', clampI g.omin omax (sat32 (p + i' + d) / 256))

/-- OMAX in use: TRIM is capped at 2,047 (R490). -/
def loopOmax (x : LoopS) : Nat := if x.kind = 4 then min 2047 x.g.omax else x.g.omax

/-! ## Setpoints (R470-R472) -/

/-- Band limit of an HV slot in 1/256 count per sample (R472). -/
def bandStep (s : State) (x : LoopS) : Nat :=
  (tget s.loops.hvrlim (Fin.ofNat 8 s.therm.band.toNat)).toNat * loopPeriod x.g * 256 / 200000

/-- A slot takes an entry up (R470, R473, R476): its lock ends where the target changes, and the trail check starts where
an HV target rises. -/
def takeEntry (et : Nat) (e : SpEntry) (rest : List SpEntry) (x : LoopS) : LoopS :=
  let t := 256 * e.target
  let change := t ≠ x.target
  let hv := x.kind = 1
  { x with
    q := rest, target := t, rate := e.rate, sp := if hv || e.rate.isSome then x.sp else t
    locked := x.locked && !change, inN := if change then 0 else x.inN, outN := if change then 0 else x.outN
    trail := x.trail || (hv && decide (x.target < t)), trailAt := if hv && x.target < t then none else x.trailAt
    warmAt := if change then some et else x.warmAt }

/-- Step of the trajectory in 1/256 count. -/
def trajStep (s : State) (x : LoopS) : Nat :=
  match decide (x.kind = 1), x.rate with
  | true, some r => min r (bandStep s x)
  | true, none => bandStep s x
  | false, some r => r
  | false, none => x.target + x.sp

/-- The trajectory moves toward the target and stops there (R471). -/
def moveSp (step : Nat) (x : LoopS) : LoopS :=
  { x with sp := if x.sp < x.target then min x.target (x.sp + step) else max x.target (x.sp - step) }

/-! ## One sample (R464-R476) -/

/-- Input of a slot: its binding's own measurement where the state holds it, else the sampled counts. -/
def loopInput (s : State) (x : LoopS) (m : BitVec 16) : BitVec 16 :=
  if x.kind = 3 then (getBldc s (Fin.ofNat 4 x.out.toNat)).speed else m

/-- What the sample leaves in the HV feedback registers. -/
def noteInput (x : LoopS) (m : BitVec 16) (s : State) : State :=
  let c : BitVec 12 := BitVec.setWidth 12 m
  let setV := fun (k : Nat) => { s with loops := { s.loops with hv := tmod s.loops.hv (Fin.ofNat 16 k) fun h => { h with vfb := c } } }
  let setI := fun (k : Nat) => { s with loops := { s.loops with hv := tmod s.loops.hv (Fin.ofNat 16 k) fun h => { h with ifb := c } } }
  if x.kind = 1 then setV x.out.toNat
  else if x.kind = 4 && decide (x.inp.toNat < 16) then setV x.inp.toNat
  else if x.kind = 4 && decide (x.inp.toNat < 32) then setI (x.inp.toNat - 16)
  else s

/-- The slot as its first sample finds it (R468, R469): new gains, m_prev, and the trajectory of a kind other than HV. -/
def firstSample (m : Nat) (x : LoopS) : LoopS :=
  let y := { x with g := x.gNext.getD x.g, gNext := none, m := BitVec.ofNat 16 m }
  match y.mPrev with
  | some _ => y
  | none => if y.kind = 1 then { y with mPrev := some m } else { y with mPrev := some m, sp := 256 * m, target := 256 * m }

/-- Distance between trajectory and measurement in counts. -/
def spDist (x : LoopS) : Nat := ((x.sp / 256 : Nat) - (x.m.toNat : Int)).natAbs

/-- Counters of the lock rule (R473). -/
def lockCount (x : LoopS) : LoopS :=
  let near := decide (spDist x ≤ x.g.lockTol)
  { x with inN := if near && x.sp == x.target then x.inN + 1 else 0, outN := if near then 0 else x.outN + 1 }

/-- The output is computed (R467). -/
def lawStep (x : LoopS) : LoopS :=
  let r := loopLaw x.g (loopOmax x) (x.sp / 256 : Nat) x.m.toNat (x.mPrev.getD x.m.toNat) x.i
  { x with i := r.1, uNext := some (BitVec.ofInt 16 r.2), mPrev := some x.m.toNat }

/-- Data of LOOP_LOCKED and LOOP_UNLOCK (R688). -/
def lockData (x : LoopS) : List Byte := leBytes 2 (x.sp / 256) ++ leBytes 2 x.m.toNat

/-- Entry to and loss of LOCKED (R473, R478). -/
def lockStep (l : LoopId) (s : State) : State :=
  let x := getLoop s l
  if !x.locked && decide (max 1 x.g.lockN ≤ x.inN) then
    engine (20 + l.1) 0x0144 (20 + l.1) (lockData x)
      (modLoop l (fun x => { x with locked := true, tries := 0, trail := false, trailAt := none, warmAt := none }) s)
  else if x.locked && decide (max 1 x.g.lockN ≤ x.outN) then
    engine (20 + l.1) 0x0143 (20 + l.1) (lockData x)
      (modLoop l (fun x => { x with locked := false, unlocks := satInc x.unlocks }) s)
  else s

/-- The sample fails the trail check (R476). -/
def trailFails (x : LoopS) : Bool := decide (100 * (256 * x.m.toNat) < (100 - x.g.trailPct) * x.sp)

/-- The trail check of an HV slot (R476). -/
def trailStep (l : LoopId) (s : State) : State :=
  let x := getLoop s l
  if x.kind = 1 && x.trail then
    if trailFails x then
      let first := x.trailAt.getD s.cue.et.toNat
      if first + x.g.trailWin * 80000 ≤ s.cue.et.toNat then hvShort l 1 s
      else modLoop l (fun x => { x with trailAt := some first }) s
    else modLoop l (fun x => { x with trailAt := none }) s
  else s

/-- The sample of slot l, at its instant. -/
def sampleOp (l : LoopId) (m : BitVec 16) (s : State) : State :=
  let x := getLoop s l
  let v := loopInput s x m
  let at_ := nextSample x
  let s1 := noteInput x v (etTo at_ s)
  let y := { firstSample v.toNat x with startAt := max at_ s1.cue.et.toNat + 1 }
  let (z, taken) := match y.q with
    | e :: rest => if y.sp = y.target then (takeEntry s1.cue.et.toNat e rest y, true) else (y, false)
    | [] => (y, false)
  let w := lawStep (lockCount (moveSp (trajStep s1 z) z))
  let s2 := modLoop l (fun _ => w) s1
  trailStep l (lockStep l (if taken then retTally (spFl l) s2 else s2))

/-- The slot went OFF at this very instant, so that a short of the same sample comes first (R500). -/
def justOff (s : State) (x : LoopS) : Bool := x.st == .off && x.kind == 1 && x.offAt == some s.now

/-- The sample of a slot that went OFF at its sample instant: only the trail check is left to it (R500). -/
def lateSample (l : LoopId) (m : BitVec 16) (s : State) : State :=
  trailStep l (modLoop l (fun x => { x with m := m, startAt := s.cue.et.toNat + 1 }) (noteInput (getLoop s l) m s))

/-- LOOP_SAMPLE (R464). -/
def execLoopSample (l : LoopId) (m : BitVec 16) (s : State) : Host.Outcome State Fault Refusal :=
  .next (if !domUp s 7 then s
    else if (getLoop s l).st == .run then sampleOp l m s
    else if justOff s (getLoop s l) && nextSample (getLoop s l) == s.cue.et.toNat then lateSample l m s
    else s)

/-- The duty of the BLDC motor of a SPEED slot is written: the time with a duty other than 0 counts from its first instant (R446). -/
def noteDuty (x : LoopS) (u : BitVec 16) (s : State) : State :=
  if x.kind = 3 && x.u == 0 && u != 0 then modBldc (Fin.ofNat 4 x.out.toNat) (fun y => { y with dutyAt := s.now }) s else s

/-- LOOP_OUTPUT (R463, R465, R490): the output is written 160 ticks after the sample; a PWM gate takes it at its next period. -/
def outputOp (l : LoopId) (u : BitVec 16) (s : State) : State :=
  let x := getLoop s l
  let s0 := etTo (x.startAt - 1 + 160) s
  let s1 := noteDuty x u (modLoop l (fun x => { x with u := u, uOld := outNow s0 x, uAt := s0.now, uNext := none }) s0)
  if x.kind = 4 then modStn (Fin.ofNat 4 x.out.toNat) (fun y => { y with trim := BitVec.setWidth 11 u }) s1 else s1

def execLoopOutput (l : LoopId) (s : State) : Host.Outcome State Fault Refusal :=
  .next (match (getLoop s l).uNext with
    | some u => if domUp s 7 && (getLoop s l).st == .run then outputOp l u s else s
    | none => s)

/-! ## Starting, setting and stopping a slot (R461, R462, R468-R471, R479, R487, R491) -/

/-- Another slot drives the same output (R462). -/
def outputBusy (s : State) (l : LoopId) : Bool :=
  let x := getLoop s l
  (allFin 48).any fun k => k != l && (getLoop s k).kind == x.kind && (getLoop s k).out == x.out && (getLoop s k).st != .off

/-- A slot this slot depends on is in SHORT or COOL (R479). -/
def depShort (s : State) (l : LoopId) : Bool :=
  (allFin 48).any fun k => (getLoop s l).dep.getLsbD k.1 && ((getLoop s k).st == .short || (getLoop s k).st == .cool)

/-- A SPEED slot that its motor names (R462). -/
def speedNamed (s : State) (l : LoopId) : Bool :=
  (getBldc s (Fin.ofNat 4 (getLoop s l).out.toNat)).loopSlot.toNat == l.1

/-- Fault of a SETP or RAMP at a slot in SHORT, COOL or FAULT (R479, R487). -/
def entryFault (x : LoopS) : Option Nat :=
  match x.st with
  | .short | .cool => some fLoopShort
  | .fault => some fLoopFault
  | _ => none

/-- Fault of a LOOPON at dispatch. -/
def loopOnFault (s : State) (l : LoopId) : Option Nat :=
  let x := getLoop s l
  if !domUp s 7 || (x.kind = 2 && !domUp s 8) then some fFlumeDown
  else if x.kind = 0 || 4 < x.kind.toNat || (x.kind = 4 && 40 ≤ x.inp.toNat) || (x.kind = 3 && !speedNamed s l) then some fLoopCfg
  else if outputBusy s l then some fLoopBusy
  else match entryFault x with
    | some c => some c
    | none => if depShort s l then some fLoopDep else none

/-- A LOOPON takes effect (R468, R469, R484); a heater preset loads the zone's table (R492). -/
def loopOnRun (l : LoopId) (g : Gains) (c : Chan) (s : State) : State :=
  let x := getLoop s l
  let z := Fin.ofNat 2 x.out.toNat
  let s0 := match decide (x.kind = 2), g.tht with
    | true, some t => modZone z (fun y => { y with tht := t }) s
    | _, _ => s
  let s1 := if x.kind = 2 then modZone z (fun y => { y with acc := 0, cause := 0 }) s0 else s0
  if x.st == .run then modLoop l (fun x => { x with gNext := some g }) s1
  else
    modLoop l (fun x => { x with
      st := .run, cause := 0, tries := 0, locked := false, g := g, gNext := none, i := 0, mPrev := none, sp := 0, target := 0
      rate := none, inN := 0, outN := 0, trail := false, trailAt := none, uNext := none, startAt := s.cue.et.toNat + 160
      owner := some c, warmAt := none, again := 0, offAt := none }) s1

/-- A setpoint entry enters the slot's flume (R263); its tally has been taken. -/
def pushSp (l : LoopId) (e : SpEntry) (s : State) : State := modLoop l (fun x => { x with q := x.q ++ [e] }) s

/-- HV_ILIM (R475). -/
def execHvIlim (l : LoopId) (s : State) : Host.Outcome State Fault Refusal :=
  .next (whenS (domUp s 7 && (((getLoop s l).st == .run && (getLoop s l).kind == 1) || justOff s (getLoop s l))) (hvShort l 2) s)

/-- A slot in COOL restarts (R478), or enters SHORT while HOLD is 1 (R498). -/
def coolEnd (l : LoopId) (s : State) : State :=
  let x := getLoop s l
  let t := sampleFrom x.g (x.coolAt + x.g.cool * 100 * ms)
  let s1 := etTo t s
  if s.aon.hold then modLoop l (fun x => { x with st := .short }) s1
  else
    engine (20 + l.1) 0x0145 (20 + l.1) (leBytes 1 x.tries.toNat)
      (modLoop l (fun x => { x with
        st := .run, i := 0, mPrev := none, sp := 0, target := x.again, locked := false, inN := 0, outN := 0
        trail := decide (0 < x.again), trailAt := none, uNext := none, startAt := t }) s1)

/-- HV_COOL_EXPIRE (R478). -/
def execHvCoolExpire (l : LoopId) (s : State) : Host.Outcome State Fault Refusal :=
  .next (whenS (domUp s 7 && (getLoop s l).st == .cool) (coolEnd l) s)

/-! ## Zero crossings and heater bursts (R483-R485) -/

/-- The RUN heater slot of zone z. -/
def runHeater (s : State) (z : Zone) : Option LoopId :=
  (allFin 48).find? fun l => let x := getLoop s l; x.kind == 2 && x.out.toNat == z.1 && x.st == .run

/-- A half-cycle of h ticks lies in 7,500-11,111 us. -/
def goodHalf (h : Nat) : Bool := decide (7500 * us ≤ h ∧ h ≤ 11111 * us)

/-- ZCOK follows the half-cycles (R483). -/
def noteZc (s : State) : State :=
  let x := s.loops
  match x.lastZc with
  | none => { s with loops := { x with lastZc := some s.now, goodHalves := 0, zcok := false } }
  | some t =>
    let h := s.now - t
    let n := if goodHalf h then min 3 (x.goodHalves + 1) else 0
    { s with loops := { x with lastZc := some s.now, half := BitVec.ofNat 16 (min 65535 (h / us)), goodHalves := n,
                               zcok := goodHalf h && (x.zcok || n == 3) } }

/-- The accumulator of zone z after u is added (R484). -/
def accAdd (s : State) (z : Zone) : Option Nat :=
  (runHeater s z).map fun l => min 8191 ((getZone s z).acc + (getLoop s l).u.toNat)

/-- One zone's decision: the accumulator, and whether it fires. -/
def zoneFire (z : Zone) (acc : Option Nat) (may : Bool) (s : State) : State :=
  match acc with
  | none => s
  | some a =>
    if 4096 ≤ a && may then
      modZone z (fun x => { x with acc := a - 4096, firing := some (s.now + clampN 0 2000 x.zdly.toNat * us) }) s
    else modZone z (fun x => { x with acc := a }) s

/-- Zone 0 is due in this half-cycle. -/
def due (acc : Option Nat) : Bool := match acc with | some a => decide (4096 ≤ a) | none => false

/-- ZERO_CROSSING (R484). -/
def execZeroCrossing (s : State) : Host.Outcome State Fault Refusal :=
  .next (whenS (domUp s 8) (fun s =>
    let s1 := noteZc s
    let a0 := accAdd s1 0
    let a1 := accAdd s1 1
    zoneFire 1 a1 (!(s.loops.alt && due a0)) (zoneFire 0 a0 true s1)) s)

/-- HEATER_BURST (R484): the burst of a zone whose slot still runs. -/
def execHeaterBurst (z : Zone) (s : State) : Host.Outcome State Fault Refusal :=
  .next (match (getZone s z).firing with
    | none => s
    | some t =>
      let s1 := modZone z (fun x => { x with firing := none }) (timeTo t s)
      if domUp s 8 && (runHeater s z).isSome then
        emit s1 (.heater z (clampN 1 15 (getZone s z).gpulses.toNat) (clampN 5 100 (getZone s z).gpw.toNat))
      else s1)

/-! ## Zone checks (R486-R488) -/

/-- A raw conversion lies outside a thermistor's range. -/
def rawBad (r : BitVec 12) : Bool := decide (r.toNat ≤ 16 ∨ 4079 ≤ r.toNat)

/-- A zone's temperatures and counters after one check. -/
def zoneMeasure (raw : Vector (BitVec 12) 8) (x : ZoneS) : ZoneS :=
  let rp := tget raw (Fin.ofNat 8 x.pri.toNat)
  let rg := tget raw (Fin.ofNat 8 x.guard.toNat)
  let tp := tableTemp x.tht (4095 - rp.toNat)
  let tg := tableTemp x.tht (4095 - rg.toNat)
  let hot := decide ((x.tmax.toNat : Int) < tp ∨ (x.tmax.toNat : Int) < tg)
  { x with priT := BitVec.ofInt 16 tp, guardT := BitVec.ofInt 16 tg, ovt := if hot then x.ovt + 1 else 0
           sens := if rawBad rp || rawBad rg then x.sens + 1 else 0 }

/-- No ZC edge for 25 ms. -/
def zcSilent (s : State) (x : LoopS) : Bool :=
  match s.loops.lastZc with
  | some t => decide (t + 25 * ms ≤ s.now)
  | none => decide (x.startAt + 25 * ms ≤ s.cue.et.toNat)

/-- Cause of the first condition of R486 that holds for zone z. -/
def zoneCause (s : State) (z : Zone) : Option Nat :=
  let x := getZone s z
  let run := (runHeater s z).map (getLoop s)
  if 3 ≤ x.ovt then some 3
  else if 3 ≤ x.sens then some 4
  else if (match run with | some l => zcSilent s l | none => false) then some 5
  else if (match run with
      | some l => !l.locked && (match l.warmAt with
        | some t => decide (t + max 1 x.warmt.toNat * sec ≤ s.cue.et.toNat)
        | none => false)
      | none => false) then some 6
  else none

/-- Check of one zone; one already in FAULT only measures. -/
def zoneCheck (raw : Vector (BitVec 12) 8) (z : Zone) (s : State) : State :=
  let s1 := modZone z (zoneMeasure raw) s
  if (getZone s z).cause != 0 then s1
  else match zoneCause s1 z with
    | some c => zoneFault z c s1
    | none => s1

/-- FUSER_CHECK (R486): at the next instant of the 10 ms grid, which starts where PD8 came on (log 66). -/
def execFuserCheck (raw : Vector (BitVec 12) 8) (s : State) : Host.Outcome State Fault Refusal :=
  .next (whenS (domUp s 8) (fun s =>
    forEach (zoneCheck raw) (allFin 2) (timeTo (gridNext (getDom s 8).since (10 * ms) s) s)) s)

/-! ## Commands (R480, R488, R491, R494) -/

/-- A refused command sets CMDERR (log 22). -/
def loopErr (l : LoopId) (s : State) : State := modLoop l (fun x => { x with cmdErr := 1 }) s

/-- The condition of a heater's fault still holds (R488). -/
def causeHolds (s : State) (x : LoopS) : Bool :=
  let z := getZone s (Fin.ofNat 2 x.out.toNat)
  match x.cause.toNat with
  | 3 => decide (3 ≤ z.ovt)
  | 4 => decide (3 ≤ z.sens)
  | 5 => zcSilent s x || !s.loops.zcok
  | _ => false

/-- CLR (R480, R488). -/
def loopClrOp (l : LoopId) (s : State) : State :=
  let x := getLoop s l
  match x.st with
  | .cool | .short => modLoop l (fun x => { x with st := .off, cause := 0 }) s
  | .fault =>
    if causeHolds s x then loopErr l s
    else modZone (Fin.ofNat 2 x.out.toNat) (fun z => { z with cause := 0 }) (modLoop l (fun x => { x with st := .off, cause := 0 }) s)
  | _ => loopErr l s

/-- OFF (R491, R494). -/
def loopOffCmd (l : LoopId) (s : State) : State := if (getLoop s l).st == .run then loopIdle l s else loopErr l s

/-- A write of LOOP_SnCTL.CMD. -/
def loopCmd (l : LoopId) (v : Word) (s : State) : State :=
  match bitsN v 1 0 with
  | 1 => loopClrOp l s
  | 2 => loopOffCmd l s
  | _ => s

def execLoopClr (l : LoopId) (s : State) : Host.Outcome State Fault Refusal := .next (whenS (reach s .bar0 7) (loopClrOp l) s)
def execLoopOff (l : LoopId) (s : State) : Host.Outcome State Fault Refusal := .next (whenS (reach s .bar0 7) (loopOffCmd l) s)

end Sys2Proof.Machine
end

