-- ==== Sys2Proof/Machine/Motion.lean ====
section
/-!
DEFINITION. Motion (12): take-up of segments, the trajectory update of steppers and BLDC motors, joints, homing,
microstep levels, stalls and motor faults, Hall edges, motor commands. Arithmetic of the trajectory: log 20.
-/

namespace Sys2Proof.Machine

/-! ## Fixed-point units (log 20) -/

/-- Units of position per microstep; speeds count 1/3,200,000 FS/s, so a 5 us update at speeds a then b moves a + b. -/
def posUnit : Int := 5000000000

/-- Exact commanded position. -/
def exactPos (x : StepperS) : Int := x.pos.toInt * posUnit + x.frac

/-- A stepper at an exact position. -/
def putPos (p : Int) (x : StepperS) : StepperS := { x with pos := BitVec.ofInt 32 (p / posUnit), frac := p % posUnit }

/-- Speed of a limit given in 1/16 FS/s. -/
def speedOf (v16 : Nat) : Int := 200000 * v16

/-- Change of speed in one update at an acceleration in FS/s². -/
def speedStep (a : Nat) : Int := 16 * a

/-- Integer square root, bit by bit. -/
def isqrt (n : Nat) : Nat → Nat → Nat
  | 0, acc => acc
  | k + 1, acc => if (acc + 2 ^ k) * (acc + 2 ^ k) ≤ n then isqrt n k (acc + 2 ^ k) else isqrt n k acc

/-- SAFEDEC of a stepper in FS/s²; 0 counts as 1 (log 20). -/
def safeDecel (x : StepperS) : Nat := 256 * max 1 x.safeDec.toNat

/-! ## Microstep levels (R433-R435) -/

/-- Thresholds in use. -/
def vtOf (x : StepperS) : Vector (BitVec 16) 4 :=
  match x.cur with
  | some g => g.vt.getD x.vt
  | none => x.vt

/-- Level whose lower threshold the speed has reached. -/
def riseLevel (vt : Vector (BitVec 16) 4) (m : Int) : Nat :=
  (allFin 4).foldl (fun a k => if speedOf (16 * (tget vt k).toNat) ≤ m then k.1 + 1 else a) 0

/-- Level after a fall below 15/16 of thresholds. -/
def fallLevel (vt : Vector (BitVec 16) 4) (m : Int) : Nat → Nat
  | 0 => 0
  | k + 1 => if 16 * m < 15 * speedOf (16 * ((vt.toList[k]?).getD 0).toNat) then fallLevel vt m k else k + 1

/-- Coarsest level needed to keep the event rate at 1 MHz or less (R434). -/
def rateLevel (m : Int) : Nat :=
  ((List.range 5).find? fun k => decide (m * (256 / 4 ^ k : Nat) ≤ speedOf 16000000)).getD 4

/-- Level wanted at speed m. -/
def wantLevel (vt : Vector (BitVec 16) 4) (m : Int) (cur : Nat) : Nat :=
  max (max (riseLevel vt m) (fallLevel vt m cur)) (rateLevel m)

/-- On the way from p0 to p1 a multiple of 256 is reached (R435). -/
def reachesFull (p0 p1 : Int) : Bool := decide (p0 / 256 < p1 / 256) || decide (-p0 / 256 < -p1 / 256)

/-- The level takes effect where the position reaches or passes a multiple of 256 (R435). -/
def setLevel (p0 : Int) (x : StepperS) : StepperS :=
  if reachesFull p0 x.pos.toInt then
    { x with res := BitVec.ofNat 3 (wantLevel (vtOf x) (x.vel.natAbs : Nat) x.res.toNat) }
  else x

/-! ## Joints (R436-R439) -/

/-- Direction of travel from a to b. -/
def dirOf (a b : Int) : Int := if a < b then 1 else if b < a then -1 else 0

/-- Joint speed with the segment at the head of the flume, if it can be joined (R437, R438). -/
def jointWith (x : StepperS) (g : Segment) (dir : Int) : Option Int :=
  match x.q with
  | h :: _ =>
    if x.mode || g.home || h.home || dirOf g.target h.target ≠ dir then none
    else
      let d := (h.target - g.target).natAbs
      let r : Int := isqrt (h.dec * d * 80000000000) 60 0
      some (min (min (speedOf g.vmax16) (speedOf h.vmax16)) r)
  | [] => none

/-- Speed at the target: the joint's, or 0. -/
def endSpeed (x : StepperS) : Int :=
  match x.joint with
  | some (some v) => v
  | _ => 0

/-- The decision point is reached: m² / (2 × DEC) covers the distance d left. -/
def atDecision (m d : Int) (dec : Nat) : Bool := decide (d * (16 * dec) ≤ m * m)

/-- Speed of the next update (R437): braking toward the end speed once the distance asks for it, else toward VMAX. -/
def nextSpeed (m d ve : Int) (g : Segment) : Int :=
  if d * (16 * g.dec) ≤ m * m - ve * ve then max (max ve (m - speedStep g.dec)) (min m (speedStep g.dec))
  else min (speedOf g.vmax16) (m + speedStep g.acc)

/-! ## Finishing and taking up (R429, R431, R432, R436, R441, R448) -/

/-- Microsteps of one event at the level in use (R433). -/
def levelSteps (x : StepperS) : Nat := 4 ^ min 4 x.res.toNat

/-- Events of an update that takes the exact position from p by d while the speed goes from m to m', at instants of 8 ticks after
t0 (R430); an event lies at the end of the 8 ticks in which it falls (log 20). -/
def stepEvents (x : StepperS) (p d m m' : Int) (t0 : Nat) : List (Nat × Int) :=
  let at_ := fun j : Nat => (p + d * (1000 * m * j + (m' - m) * j * j) / max 1 ((m + m') * 250000)) / (posUnit * (levelSteps x : Nat))
  (List.range 500).filterMap fun j =>
    let k := at_ (j + 1) - at_ j
    if k = 0 then none else some (t0 + 8 * (j + 1), k)

/-- Output of the microsteps of an update that began at instant t0 with x, at speeds m and m' in the direction of travel. -/
def emitSteps (n : Fin 16) (x : StepperS) (m m' : Int) (t0 : Nat) (s : State) : State :=
  let y := getStep s n
  let k := y.pos.toInt - x.pos.toInt
  if k = 0 then s
  else emit (emit s (.usteps n k)) (.ustepTimes n (stepEvents x (exactPos x) (exactPos y - exactPos x) m m' t0))

/-- The stepper has come to rest at the end of a segment: HOLD at IHOLD (R431). -/
def restStep (n : Fin 16) (ihold : Byte) (s : State) : State :=
  noteStill n (modStep n (fun x => { x with
    st := .hold, vel := 0, frac := 0, cur := none, joint := none, homeHit := false, amps := ihold }) s)

/-- The current segment is finished and its tally returns; a joined segment goes on at its joint speed. -/
def finishSeg (n : Fin 16) (g : Segment) (s : State) : State :=
  let x := getStep s n
  let s1 := retTally (motFl (stepMotor n)) s
  match x.joint, x.q with
  | some (some v), h :: rest =>
    modStep n (fun x => { x with
      cur := some h, q := rest, joint := none, goal := h.target, vel := dirOf x.goal h.target * v, amps := h.irun }) s1
  | _, _ => restStep n g.ihold s1

/-- A homing segment has stopped after its input was found (R440). -/
def homeStop (n : Fin 16) (g : Segment) (s : State) : State :=
  restStep n g.ihold (retTally (motFl (stepMotor n)) s)

/-- A segment is discarded at take-up, with the fault its channel takes, if one. -/
def discardHead (m : Motor) (g : Segment) (fault : Option Nat) (s : State) : State :=
  let s1 := retTally (motFl m) (match motKind m with
    | .inl n => modStep n (fun x => { x with q := x.q.tail }) s
    | .inr k => modBldc k (fun x => { x with q := x.q.tail }) s)
  match fault with
  | some c => if liveChan s1 g.chan then chFault g.chan c g.pc s1 else s1
  | none => s1

/-- The stepper starts a segment from standstill, which is the first update of its trajectory (R429): the stall reference is
latched (R445), the shadow invalid (R442). -/
def startSeg (n : Fin 16) (g : Segment) (s : State) : State :=
  let x := getStep s n
  let s1 := noteMoving n (modStep n (fun x => { x with
      st := .moving, q := x.q.tail, cur := some g, joint := none, homeHit := false, vel := 0, frac := 0, why := .stop
      goal := if g.home then x.pos.toInt + g.target else g.target, amps := g.irun
      stallP0 := x.pos, stallI0 := (getTrk s (Fin.ofNat 16 x.stallTrk.toNat)).index, stallSet := true
      evalAt := s.now, stopNew := false }) s)
  if !g.home && g.target == x.pos.toInt then finishSeg n g s1 else s1

/-- Take-up by a stepper at standstill: discarded in Safe Hold (R455); a coupled scan step is waited for (R544). With the motor
supply not good the gates cannot be driven, and a motor that leaves IDLE faults with DRV (R443, log 63). -/
def takeStep (n : Fin 16) (g : Segment) (s : State) : State :=
  let x := getStep s n
  match x.st with
  | .moving | .stopping => s
  | st =>
    if s.aon.hold then discardHead (stepMotor n) g none s
    else if st == .fault then discardHead (stepMotor n) g (some fMotFault) s
    else if x.coupled then s
    else if !g.home && !x.homed then discardHead (stepMotor n) g (some fNotHomed) s
    else if !s.motn.vmotOk then motFault (stepMotor n) 4 s
    else startSeg n g s

/-- The speed setpoint goes into the loop slot the motor names (R452, R489). -/
def writeSpeed (k : Fin 4) (s : State) : State :=
  let x := getBldc s k
  if h : x.loopSlot.toNat < 48 then
    let l : LoopId := ⟨x.loopSlot.toNat, h⟩
    let y := getLoop s l
    if y.kind == 3 && y.out.toNat == k.1 && y.st == .run then
      modLoop l (fun y => { y with sp := (x.set_ * 256 / 200000).toNat, target := (x.set_ * 256 / 200000).toNat }) s
    else s
  else s

/-- Take-up by a BLDC motor in IDLE, or discarding. -/
def takeBldc (k : Fin 4) (g : Segment) (s : State) : State :=
  match (getBldc s k).st with
  | .moving | .stopping => s
  | st =>
    if s.aon.hold then discardHead (bldcMotor k) g none s
    else if st == .fault then discardHead (bldcMotor k) g (some fMotFault) s
    else if !s.motn.vmotOk then motFault (bldcMotor k) 4 s
    else writeSpeed k (modBldc k (fun x => { x with
      st := .moving, q := x.q.tail, cur := some g, set_ := 0, why := .stop, evalAt := s.now, stopNew := false }) s)

/-- The segment at the head of a motor's flume. -/
def headSeg (s : State) (m : Motor) : Option Segment :=
  match motKind m with
  | .inl n => (getStep s n).q.head?
  | .inr k => (getBldc s k).q.head?

/-- SEGMENT_TAKEUP (R429): 160 ticks after the segment entered. -/
def takeupOp (m : Motor) (s : State) : State :=
  match motKind m with
  | .inl n => match (getStep s n).q with
    | g :: _ => takeStep n g s
    | [] => s
  | .inr k => match (getBldc s k).q with
    | g :: _ => takeBldc k g s
    | [] => s

def execSegmentTakeup (m : Motor) (s : State) : Host.Outcome State Fault Refusal :=
  .next (match headSeg s m with
    | some g => whenS (domUp s 6 && motorStill s m) (fun s => takeupOp m (timeTo (g.enteredAt + 160) s)) s
    | none => s)

/-! ## One trajectory update (R430) -/

/-- The TI input a homing segment watches is at its level (R440). -/
def homeSeen (ti : BitVec 12) (g : Segment) : Bool := ti.getLsbD (bitsN g.homeSrc 3 0) == bitB g.homeSrc 7

/-- A decelerating stepper moves on at rate dec; it rests when its speed reaches 0. -/
def brake (n : Fin 16) (dec : Nat) (rest : State → State) (s : State) : State :=
  let x := getStep s n
  let m : Int := x.vel.natAbs
  let dir := dirOf 0 x.vel
  let m' := max 0 (m - speedStep dec)
  let s1 := emitSteps n x m m' (s.now - 4000)
    (modStep n (fun x => setLevel x.pos.toInt { putPos (exactPos x + dir * (m + m')) x with vel := dir * m' }) s)
  if m' = 0 then rest s1 else s1

/-- The run-on of an EXIT abort (R585): present speed for the distance left, then deceleration to HOLD. -/
def runOnUpdate (n : Fin 16) (left : Int) (s : State) : State :=
  let x := getStep s n
  let y := putPos (exactPos x + 2 * x.vel) x
  let gone := (y.pos.toInt - x.pos.toInt).natAbs
  let rest := left - gone
  emitSteps n x x.vel.natAbs x.vel.natAbs (s.now - 4000) (modStep n (fun x => setLevel x.pos.toInt
    { y with st := if 0 < rest then .moving else .stopping, why := .runOn (max 0 rest) }) s)

/-- One update of a segment that runs toward its target at distance d in direction dir. -/
def segMove (n : Fin 16) (g : Segment) (dir d : Int) (s : State) : State :=
  let x := getStep s n
  let m := max 0 (x.vel * dir)
  let j := if x.joint.isNone && atDecision m d g.dec then some (jointWith x g dir) else x.joint
  let x1 := { x with joint := j }
  let m' := nextSpeed m d (endSpeed x1) g
  if d ≤ m + m' then
    let s1 := emitSteps n x m (endSpeed x1) (s.now - 4000) (modStep n (fun _ =>
      setLevel x.pos.toInt { putPos (x.goal * posUnit) x1 with vel := dir * endSpeed x1 }) s)
    if g.home then motFault (stepMotor n) 3 s1 else finishSeg n g s1
  else
    emitSteps n x m m' (s.now - 4000) (modStep n (fun _ =>
      setLevel x.pos.toInt { putPos (exactPos x + dir * (m + m')) x1 with vel := dir * m' }) s)

/-- One update of a stepper's current segment. -/
def segUpdate (n : Fin 16) (g : Segment) (ti : BitVec 12) (s : State) : State :=
  let x := getStep s n
  if x.homeHit then brake n g.dec (homeStop n g) s
  else if g.home && homeSeen ti g then
    let s1 := modStep n (fun x => { x with pos := 0, frac := 0, homed := true, homeHit := true }) s
    if x.vel = 0 then homeStop n g s1 else s1
  else
    let d := x.goal * posUnit - exactPos x
    if d = 0 then (if g.home then motFault (stepMotor n) 3 s else finishSeg n g s)
    else segMove n g (dirOf 0 d) d.natAbs s

/-- One update of stepper n. -/
def stepUpdate (ti : BitVec 12) (n : Fin 16) (s : State) : State :=
  let x := getStep s n
  match x.st, x.cur, x.why with
  | .stopping, _, w => brake n (safeDecel x) (stillStep n w) s
  | .moving, some g, _ => segUpdate n g ti s
  | .moving, none, .runOn left => runOnUpdate n left s
  | _, _, _ => s

/-- A BLDC motor has come to rest: IDLE; under Safe Hold its speed slot goes OFF (R455, R498). -/
def bldcRest (k : Fin 4) (s : State) : State :=
  let x := getBldc s k
  let s1 := modBldc k (fun x => { x with st := .idle, set_ := 0, cur := none }) s
  if h : x.loopSlot.toNat < 48 then
    let l : LoopId := ⟨x.loopSlot.toNat, h⟩
    if x.why == .safe && (getLoop s l).kind == 3 && (getLoop s l).out.toNat == k.1 then loopOffOp l s1 else s1
  else s1

/-- A stopping BLDC motor stands still: below 100 min-1, or no Hall edge for STALLT (R455). -/
def bldcSlow (s : State) (x : BldcS) : Bool :=
  decide (x.speed.toNat < 100) || decide (x.lastHall + max 1 x.stallT.toNat * ms ≤ s.now)

/-- The setpoint after one update toward a target. -/
def rampSet (v target : Int) (acc dec : Nat) : Int := if v < target then min target (v + acc) else max target (v - dec)

/-- One update of BLDC motor k. -/
def bldcUpdate (k : Fin 4) (s : State) : State :=
  let x := getBldc s k
  match x.st, x.cur with
  | .moving, some g =>
    let v := rampSet x.set_ (200000 * g.target) g.acc g.dec
    let s1 := writeSpeed k (modBldc k (fun x => { x with set_ := v }) s)
    if v = 200000 * g.target then
      retTally (motFl (bldcMotor k)) (modBldc k (fun x => { x with cur := x.q.head?, q := x.q.tail }) s1)
    else s1
  | .moving, none => modBldc k (fun x => { x with cur := x.q.head?, q := x.q.tail }) s
  | .stopping, _ =>
    let v := rampSet x.set_ 0 0 (16 * max 1 x.safeDec.toNat)
    let s1 := writeSpeed k (modBldc k (fun x => { x with set_ := v }) s)
    if bldcSlow s x then bldcRest k s1 else s1
  | _, _ => s

/-- Instant of a motor's next evaluation, 4,000 ticks after the last, while it moves (R430). -/
def evalOf (st : MotSt) (at_ : Nat) : Option Nat := if st == .moving || st == .stopping then some (at_ + 4000) else none

/-- The next evaluation of any trajectory. -/
def nextEval (s : State) : Option Nat :=
  (((allFin 16).filterMap fun n => evalOf (getStep s n).st (getStep s n).evalAt) ++
    (allFin 4).filterMap fun k => evalOf (getBldc s k).st (getBldc s k).evalAt).min?

/-- The evaluation of stepper n, or of BLDC motor k, where it is due. -/
def stepEval (ti : BitVec 12) (n : Fin 16) (s : State) : State :=
  match evalOf (getStep s n).st (getStep s n).evalAt with
  | some t => if t ≤ s.now then stepUpdate ti n (modStep n (fun x => { x with evalAt := t, stopNew := false }) s) else s
  | none => s
def bldcEval (k : Fin 4) (s : State) : State :=
  match evalOf (getBldc s k).st (getBldc s k).evalAt with
  | some t => if t ≤ s.now then bldcUpdate k (modBldc k (fun x => { x with evalAt := t, stopNew := false }) s) else s
  | none => s

/-- TRAJECTORY_UPDATE (R430): the trajectories whose next evaluation comes first are evaluated. -/
def execTrajectoryUpdate (ti : BitVec 12) (s : State) : Host.Outcome State Fault Refusal :=
  .next (match nextEval s with
    | some t => whenS (domUp s 6) (fun s =>
        forEach bldcEval (allFin 4) (forEach (stepEval ti) (allFin 16) (timeTo t s))) s
    | none => s)

/-! ## Faults (R428, R445, R446) -/

/-- The motor is not yet in FAULT. -/
def motorAlive (s : State) (m : Motor) : Bool :=
  match motKind m with
  | .inl n => (getStep s n).st != .fault
  | .inr k => (getBldc s k).st != .fault

/-- MOT_OVERCURRENT (R428). -/
def execMotOvercurrent (m : Motor) (s : State) : Host.Outcome State Fault Refusal :=
  .next (whenS (domUp s 6 && motorAlive s m) (motFault m 1) s)

/-- The duty of BLDC k: the output of its speed slot. -/
def bldcDuty (s : State) (k : Fin 4) : Nat :=
  let x := getBldc s k
  if h : x.loopSlot.toNat < 48 then
    let y := getLoop s ⟨x.loopSlot.toNat, h⟩
    if y.kind == 3 && y.out.toNat == k.1 && y.st == .run then (outNow s y).toNat else 0
  else 0

/-- Start of the time without a Hall edge in which the duty is not 0 (R446). -/
def stallFrom (x : BldcS) : Nat := max x.lastHall x.dutyAt

/-- BLDC_STALL (R446). -/
def execBldcStall (k : Fin 4) (s : State) : Host.Outcome State Fault Refusal :=
  .next (whenS (domUp s 6 && !motorStill s (bldcMotor k) && bldcDuty s k != 0) (fun s =>
    motFault (bldcMotor k) 2 (timeTo (stallFrom (getBldc s k) + max 1 (getBldc s k).stallT.toNat * ms) s)) s)

/-- HALL_FAULT (R446). -/
def execHallFault (k : Fin 4) (s : State) : Host.Outcome State Fault Refusal :=
  .next (whenS (domUp s 6 && motorAlive s (bldcMotor k) && ((getBldc s k).hall == 0 || (getBldc s k).hall == 7)) (fun s =>
    motFault (bldcMotor k) 5 (timeTo (s.now + 10 * us) s)) s)

/-- Measured speed from the interval between Hall edges, at 6 × PAIRS edges a revolution (R452). -/
def hallSpeed (ticks pairs : Nat) : Nat := if ticks = 0 then 65535 else min 65535 (8000000000 / (ticks * max 1 pairs))

/-- HALL_EDGE (R452). -/
def execHallEdge (k : Fin 4) (code : BitVec 3) (s : State) : Host.Outcome State Fault Refusal :=
  .next (whenS (domUp s 6) (modBldc k fun x => { x with
    hall := code, lastHall := s.now, speed := BitVec.ofNat 16 (hallSpeed (s.now - x.lastHall) x.pairs.toNat) }) s)

/-- Deviation of a stepper from its stall tracker (R445), in 1/256 full step. -/
def stallDev (x : StepperS) (index : Word) : Int :=
  let d : Int := (index - x.stallI0).toInt.natAbs
  d * 65536 / (max 1 x.ratio.toNat : Nat) - (x.pos - x.stallP0).toInt.natAbs

/-- The stall check of stepper n at a real tooth of tracker t, from its first take-up on (R445). -/
def stallOne (t : Trk) (n : Fin 16) (s : State) : State :=
  let x := getStep s n
  if x.stallEn && x.stallTrk.toNat == t.1 && x.stallSet && x.st != .fault
      && decide (256 * x.tol.toNat < (stallDev x (getTrk s t).index).natAbs) then motFault (stepMotor n) 2 s
  else s

def stallCheck (t : Trk) (s : State) : State := if domUp s 6 then forEach (stallOne t) (allFin 16) s else s

/-! ## Commands (R448, R450) -/

/-- A refused command sets CMDERR (log 22); a BLDC motor has no such field. -/
def motErr (m : Motor) (s : State) : State :=
  match motKind m with
  | .inl n => modStep n (fun x => { x with cmdErr := 1 }) s
  | .inr _ => s

/-- CLR (R448). -/
def motClrOp (m : Motor) (s : State) : State :=
  if motorAlive s m || !s.motn.vmotOk then motErr m s
  else match motKind m with
    | .inl n => modStep n (fun x => { x with st := .idle, fcause := 0 }) s
    | .inr k => modBldc k (fun x => { x with st := .idle, fcause := 0, set_ := 0 }) s

/-- IDLE or HOLD with an empty flume. -/
def stepFree (x : StepperS) : Bool := (x.st == .idle || x.st == .hold) && x.q.isEmpty && x.cur.isNone

/-- SETPOS (R450). -/
def setposOp (n : Fin 16) (s : State) : State :=
  if stepFree (getStep s n) then
    let s1 := modStep n (fun x => { x with pos := x.posw, frac := 0, homed := true }) s
    if (getStep s n).st == .hold then noteStill n s1 else s1
  else motErr (stepMotor n) s

/-- A write of MOTN_SnCTL or MOTN_BkCTL. -/
def motCmd (m : Motor) (v : Word) (s : State) : State :=
  match bitsN v 1 0, motKind m with
  | 1, _ => stopMotor m .stop s
  | 2, _ => motClrOp m s
  | 3, .inl n => setposOp n s
  | _, _ => s

def execMotStop (m : Motor) (s : State) : Host.Outcome State Fault Refusal :=
  .next (whenS (reach s .bar0 6) (stopMotor m .stop) s)
def execMotClr (m : Motor) (s : State) : Host.Outcome State Fault Refusal := .next (whenS (reach s .bar0 6) (motClrOp m) s)
def execMotSetpos (n : Fin 16) (s : State) : Host.Outcome State Fault Refusal :=
  .next (whenS (reach s .bar0 6) (setposOp n) s)

/-! ## Dispatch of segments -/

/-- Fault a segment meets at dispatch (R441, R448, R458). -/
def segFault (s : State) (m : Motor) (g : Segment) : Option Nat :=
  if !domUp s 6 then some fFlumeDown
  else if !motorAlive s m then some fMotFault
  else match motKind m with
    | .inl n => if !g.home && !(getStep s n).homed then some fNotHomed else none
    | .inr _ => none

/-- A segment enters its flume; its tally has been taken (R263). One that enters in the update of a STOP is discarded with it
(R457). -/
def pushSeg (m : Motor) (g : Segment) (s : State) : State :=
  let g1 := { g with enteredAt := s.now }
  match motKind m with
  | .inl n =>
    if (getStep s n).stopNew then retTally (motFl m) s
    else modStep n (fun x => { x with q := x.q ++ [g1], lastTarget := if g.home then 0 else g.target }) s
  | .inr k =>
    if (getBldc s k).stopNew then retTally (motFl m) s
    else modBldc k (fun x => { x with q := x.q ++ [g1] }) s

end Sys2Proof.Machine
end

