-- ==== Sys2Proof/Machine/Power.lean ====
section
/-!
DEFINITION. The sequencer: items, stages, raises, soft starts, drops and the power-down forms, the power button, input
collapse and MRST_n (03). Items are numbered as AON_SEQ_CMD.ITEM: 0-15 rail slots, 16 + d domain PDd.
-/

namespace Sys2Proof.Machine

/-! ## Items -/

/-- Domains named in the Requires column (R14). -/
def requires (d : Nat) : List Nat :=
  match d with
  | 4 => [2, 3]
  | 5 => [3, 6, 7]
  | 6 => [3]
  | 7 => [3]
  | 8 => [7]
  | 9 => [3, 4]
  | 10 => [3, 4, 6]
  | 11 => [3]
  | _ => [0]

/-- An item as a rail slot or a domain. -/
def itemKind (i : Nat) : Option (Rail ⊕ Dom) :=
  if h : i < 16 then some (.inl ⟨i, h⟩) else if h : 16 < i ∧ i < 28 then some (.inr ⟨i - 16, by omega⟩) else none

/-- The 27 items. -/
def allItems : List Nat := List.range 16 ++ (List.range 11).map (· + 17)

/-- The item is good; PD0 always is. -/
def itemGood (s : State) (i : Nat) : Bool :=
  i == 16 || match itemKind i with
    | some (.inl n) => (getRail s n).st == .good
    | some (.inr d) => domOn s d
    | none => false

/-- Items an item depends on directly, as a mask (R75, R76). -/
def depMask (s : State) (i : Nat) : BitVec 28 :=
  match itemKind i with
  | some (.inl n) => (getRail s n).mask
  | some (.inr d) =>
    (requires d.1).foldl (fun m r => withBit m (16 + r) true) (BitVec.setWidth 28 (getDom s d).need)
  | none => 0

/-- One round of the dependency closure. -/
def depExpand (s : State) (m : BitVec 28) : BitVec 28 :=
  (List.range 28).foldl (fun acc k => if m.getLsbD k then acc ||| depMask s k else acc) m

/-- n rounds. -/
def depIter (s : State) : Nat → BitVec 28 → BitVec 28
  | 0, m => m
  | n + 1, m => depIter s n (depExpand s m)

/-- Every item that i depends on, directly or through others. -/
def depAll (s : State) (i : Nat) : BitVec 28 := depIter s 27 (depMask s i)

/-- Item i depends on item j. -/
def dependsOn (s : State) (i j : Nat) : Bool := (depAll s i).getLsbD j

def itemEn (s : State) (i : Nat) : Bool :=
  match itemKind i with
  | some (.inl n) => (getRail s n).en
  | some (.inr d) => (getDom s d).en
  | none => false

/-- The item belongs to stage B. -/
def itemB (s : State) (i : Nat) : Bool :=
  match itemKind i with
  | some (.inl n) => (getRail s n).stage
  | some (.inr d) => (getDom s d).stage
  | none => false

def itemFault (s : State) (i : Nat) : Bool := s.aon.faults.getLsbD i
def itemStarted (s : State) (i : Nat) : Bool := s.aon.started.any (·.1 == i)

/-- The item shows WAIT. -/
def itemWaits (s : State) (i : Nat) : Bool :=
  match itemKind i with
  | some (.inl n) => (getRail s n).st == .wait
  | some (.inr d) => (getDom s d).st == .wait
  | none => false

/-- The item is cooling down. -/
def itemCools (s : State) (i : Nat) : Bool :=
  match itemKind i with
  | some (.inl n) => (getRail s n).st == .cool
  | _ => false

/-- The item is on its way to good: in its delay, in soft start, switching or cooling. -/
def itemOnWay (s : State) (i : Nat) : Bool :=
  match itemKind i with
  | some (.inl n) => let x := (getRail s n).st; x == .delay || x == .soft || x == .cool
  | some (.inr d) => (getDom s d).st == .switch
  | none => false

/-- Set an item's state code. -/
def setItem (r : RailSt) (d : DomSt) (i : Nat) (s : State) : State :=
  match itemKind i with
  | some (.inl n) => modRail n (fun x => { x with st := r, since := s.now }) s
  | some (.inr k) => modDom k (fun x => { x with st := d, since := s.now }) s
  | none => s

/-- AON_GOOD as a mask. -/
def goodMask (s : State) : BitVec 28 := (List.range 28).foldl (fun m i => withBit m i (itemGood s i)) 0

/-- The power state code. -/
def pwrCode : PwrSt → Nat
  | .off => 0
  | .risingA => 1
  | .onA => 2
  | .risingB => 3
  | .onB => 4
  | .fallingB => 5
  | .falling => 6
  | .collapse => 7

/-! ## Raising (R75-R86) -/

/-- A raise in progress, a RETRY or an ITEM_UP wants the item. -/
def isWanted (s : State) (i : Nat) : Bool :=
  (itemEn s i && ((s.aon.seqState == .risingA && !itemB s i) || (s.aon.seqState == .risingB && itemB s i)))
    || s.aon.retryIn.contains i || s.aon.upItem == some i || s.aon.ownIn.contains i

/-- Domains that have a PLL (R120). -/
def hasPll (i : Nat) : Bool := [17, 18, 19, 23, 27].contains i

/-- Every dependency is good, none is latched faulty or cooling (R75, R76, R84), and the oscillator runs where needed. -/
def depsReady (s : State) (i : Nat) : Bool :=
  (List.range 28).all (fun k => !(depMask s i).getLsbD k || itemGood s k)
    && (List.range 28).all (fun k => !(depAll s i).getLsbD k || !(itemFault s k || itemCools s k))
    && (!hasPll i || s.aon.xtalOk)

/-- The item is ready to start now. -/
def itemReady (s : State) (i : Nat) : Bool :=
  isWanted s i && itemWaits s i && !itemFault s i && depsReady s i

/-- Items that are good or will start, after n rounds (R86). -/
def goingRound (s : State) : Nat → BitVec 28 → BitVec 28
  | 0, m => m
  | n + 1, m => goingRound s n ((List.range 28).foldl (fun acc i =>
      if isWanted s i && itemWaits s i && !itemFault s i && (depMask s i &&& ~~~m) == 0 then withBit acc i true else acc) m)

/-- Items that are good, on their way, or going to start. -/
def goingMask (s : State) : BitVec 28 :=
  goingRound s 28 ((List.range 28).foldl (fun m i => withBit m i (itemGood s i || itemOnWay s i)) 0)

/-- Wanted items that cannot start: a dependency is neither good nor going to start (R86). -/
def stuckItems (s : State) : List Nat :=
  let m := goingMask s
  allItems.filter fun i => isWanted s i && itemWaits s i && !m.getLsbD i

/-- A list of items as a mask. -/
def maskOf (l : List Nat) : BitVec 28 := l.foldl (fun m i => withBit m i true) 0

/-- STALL is set and SEQ_STALL posted for the items given (R86). -/
def stallWith (l : List Nat) (s : State) : State :=
  aonEvent 0x0109 (BitVec.setWidth 32 (maskOf l)) 0 (modAon (fun a => { a with stall := true }) s)

/-- Ready rails begin their on delay together (R79). -/
def startDelays (s : State) : State :=
  forEach (fun n : Rail => fun t =>
    if itemReady s n.1 then modRail n (fun x => { x with st := .delay, since := t.now }) t else t) (allFin 16) s

/-- A rail whose on delay runs while an item it depends on is no longer good waits again (R84). -/
def stopDelays (s : State) : State :=
  forEach (fun n : Rail => fun t =>
    if (getRail s n).st == .delay && !depsReady s n.1 then modRail n (fun x => { x with st := .wait, since := t.now }) t
    else t) (allFin 16) s

/-- RETRY, ITEM_UP and a rail's own retry drop the items that have started, latched a fault or stalled (R83, R108, R111). -/
def settleCmds (s : State) : State :=
  let stuck := stuckItems s
  let stay := fun i => (itemWaits s i || itemOnWay s i) && !itemStarted s i && !itemFault s i && !stuck.contains i
  let mine := stuck.filter fun i => s.aon.retryIn.contains i || s.aon.upItem == some i || s.aon.ownIn.contains i
  let s1 := modAon (fun a => { a with
    retryIn := a.retryIn.filter stay, upItem := a.upItem.filter stay, ownIn := a.ownIn.filter stay }) s
  if mine.isEmpty then s1 else stallWith mine s1

/-- The raise of the stage ends when no wanted item is on its way or can still start (R86). -/
def raiseEnd (s : State) : State :=
  let b := s.aon.seqState == .risingB
  if s.aon.seqState == .risingA || b then
    let items := allItems.filter fun i => itemEn s i && itemB s i == b
    let stuck := stuckItems s
    if items.all (fun i => itemGood s i || itemFault s i || stuck.contains i) then
      let s1 := if stuck.isEmpty then s else stallWith stuck s
      let s2 := modAon (fun a => { a with seqState := if b then .onB else .onA }) s1
      aonEvent (if b then 0x0106 else 0x0105) (BitVec.setWidth 32 (goodMask s2)) (BitVec.setWidth 32 s2.aon.faults) s2
    else s
  else s

/-- What follows a change of any item: delays stop or begin, commands and raises end. -/
def advance (s : State) : State := raiseEnd (settleCmds (startDelays (stopDelays s)))

/-- An item shows WAIT from the start of its raise (R86); its failed attempts are counted anew. -/
def markWait (i : Nat) (s : State) : State :=
  match itemKind i with
  | some (.inl n) =>
    if (getRail s n).st == .off then modRail n (fun x => { x with st := .wait, tries := 0, cause := 0, since := s.now }) s
    else s
  | some (.inr d) => if (getDom s d).st == .off then modDom d (fun x => { x with st := .wait, since := s.now }) s else s
  | none => s

/-- Order of start instants: earlier first; at one instant domains first, then ascending slots (R79). -/
def startsBefore (a b : Nat × Nat) : Bool :=
  decide (a.2 < b.2) || (a.2 == b.2 && (decide (16 < a.1 ∧ b.1 < 16) || (decide (a.1 < b.1) && !decide (a.1 < 16 ∧ 16 < b.1))))

/-- Insert a started item at its place. -/
def insertStart (x : Nat × Nat) : List (Nat × Nat) → List (Nat × Nat)
  | [] => [x]
  | y :: ys => if startsBefore x y then x :: y :: ys else y :: insertStart x ys

/-- The item has started at this instant. -/
def noteStart (i : Nat) (s : State) : State :=
  modAon (fun a => { a with started := insertStart (i, s.now) a.started }) s

/-- A list without item i. -/
def without (i : Nat) (l : List Nat) : List Nat := l.filter (· != i)

/-- A take-down in progress without item i. -/
def formWithout (i : Nat) : Form → Form
  | .none => .none
  | .orderly ph t c => .orderly ph (without i t) c
  | .enginesDown ph t => .enginesDown ph (without i t)
  | .itemDown ph t => .itemDown ph (without i t)
  | .collapse t last => .collapse (without i t) last

/-- The take-downs after drops and faults without item i; one with nothing left is over. -/
def partsWithout (i : Nat) (l : List PartDown) : List PartDown :=
  (l.map fun p => { p with todo := without i p.todo }).filter fun p => p.todo != []

/-- The item is down: no take-down has it to take any more. -/
def noteDown (i : Nat) (s : State) : State :=
  modAon (fun a => { a with
    started := a.started.filter (·.1 != i), form := formWithout i a.form, parts := partsWithout i a.parts }) s

/-! ## Sheet clear (R164-R171) -/

/-- Distance of the routine t ticks after its start, and of its deceleration from the speed it then has, in 1/T^2 of a
millimetre with T ticks a second: 50 mm/s reached in 100 ms, held until 4,000 ms, ended in 100 ms (R67, R168). The rate of a
deceleration that a SAFE_n low starts, 500 mm/s2, is a DESIGN CHOICE (log 48). -/
def sheetRun (t : Nat) : Nat :=
  let q := sec / 10
  if t < q then 250 * t * t
  else if t ≤ 40 * q then 250 * q * q + 500 * q * (t - q)
  else 200 * sec * sec - 250 * (41 * q - min t (41 * q)) * (41 * q - min t (41 * q))
def sheetSpeed (t : Nat) : Nat :=
  let q := sec / 10
  if t < q then 500 * t else if t ≤ 40 * q then 500 * q else 500 * (41 * q - min t (41 * q))
def sheetBrake (t : Nat) : Nat := sheetSpeed t * sheetSpeed t / 1000

/-- Whole full steps in a distance of the routine. -/
def fullSteps (s : State) (d : Nat) : Nat := d * clampN 1 4095 s.aon.scSpmm.toNat / (16 * sec * sec)

/-- Full steps made when the routine, begun at instant t0, ends its motion from now on (R67, R168). -/
def sheetSteps (t0 : Nat) (s : State) : Nat := fullSteps s (sheetRun (s.now - t0) + sheetBrake (s.now - t0))

/-- k full steps of stepper n in microsteps, in the direction DIR gives. -/
def sheetUsteps (s : State) (n : Fin 16) (k : Nat) : Int := if s.aon.scDir.getLsbD n.1 then -(256 * (k : Int)) else 256 * k

/-- The routine drives stepper n (R168, R169). -/
def sheetDrives (s : State) (n : Fin 16) : Bool :=
  s.aon.scMask.getLsbD n.1 && match s.aon.sheet with | .running _ => true | _ => false

/-- Microsteps that the routine has made with stepper n so far (R168). -/
def sheetShift (s : State) (n : Fin 16) : Int :=
  match s.aon.sheet with
  | .running t0 => if s.aon.scMask.getLsbD n.1 then sheetUsteps s n (fullSteps s (sheetRun (s.now - t0))) else 0
  | _ => 0

/-- Position of stepper n as registers and coils show it. -/
def posNow (s : State) (n : Fin 16) : Word := (getStep s n).pos + BitVec.ofInt 32 (sheetShift s n)

/-- The steppers in MASK have moved in the direction of DIR and stand still. -/
def sheetMoved (t0 : Nat) (s : State) : State :=
  let k := sheetSteps t0 s
  forEach (fun n : Fin 16 => fun s =>
    if s.aon.scMask.getLsbD n.1 then
      let d := sheetUsteps s n k
      emit (noteStill n (modStep n (fun x => { x with pos := x.pos + BitVec.ofInt 32 d, amps := 0 }) s)) (.usteps n d)
    else s) (allFin 16) s

/-- The routine, begun at instant t0, has stopped or finished: outcome 0 DONE, 1 STOPPED (R170). -/
def sheetOutcome (outcome t0 : Nat) (s : State) : State :=
  let d1 : Word := BitVec.setWidth 32 s.aon.scMask
  let s1 := logCode 0x010A (BitVec.ofNat 32 outcome) d1 (modAon (fun a => { a with sheet := .idle }) (sheetMoved t0 s))
  if domOn s 1 then aonEvent 0x010A (BitVec.ofNat 32 outcome) d1 s1 else s1

/-- A SAFE_n low stops the routine (R67, R170). STOPPED is logged as the deceleration begins: DESIGN CHOICE (log 48). -/
def sheetStop (s : State) : State :=
  match s.aon.sheet with
  | .running t0 => sheetOutcome 1 t0 s
  | _ => s

/-- Safe Hold entry at which the controller pulls SAFE_n low itself: that low stops the routine as well (R62, R67). -/
def driveEnter (s : State) : State := safeEnter (sheetStop s)

/-! ## Ends of the power-down forms (R92-R96) -/

/-- A frame whose tally has been taken waits for its acknowledgement; it leaves at once on a port that is UP. -/
def skidPushed (q : SkidPort) (f : Frame) (s : State) : State :=
  let s1 := modSkid (fun k => { k with port := tmod k.port q fun p => { p with unacked := p.unacked ++ [f], sentAt := p.sentAt ++ [s.now] } }) s
  if (tget s.skid.port q).st == .up then emit s1 (.skid q f) else s1

/-- The controller sends a frame on a port that is UP; without a tally it waits for one (R632). -/
def sendSkid (q : SkidPort) (f : Frame) (s : State) : State :=
  let p := tget s.skid.port q
  if p.st != .up then s
  else if hasTally s (skidFl q) && p.waiting.isEmpty then skidPushed q f (takeTally (skidFl q) s)
  else modSkid (fun k => { k with port := tmod k.port q fun p => { p with waiting := p.waiting ++ [f] } }) s

/-- A worker reports to the manager that it is going off (R655). -/
def offReport (s : State) : State :=
  if !isManager s && domUp s 11 then sendSkid 0 (.offReport (Fin.ofNat 8 (devNum s))) s else s

/-- A form that takes down every started item ends in OFF (R95): OFFCAUSE, VSENSE24 disarmed (R104), POWER_DOWN logged. -/
def powerDownEnd (cause : BitVec 3) (s : State) : State :=
  logCode 0x0191 (BitVec.setWidth 32 cause) 0 (modAon (fun a => { a with
    seqState := .off, offCause := cause, form := .none, parts := [], vsArmed := false, disarmAt := s.now
    awaitRecovery := a.awaitRecovery || cause == 4 }) s)

/-- Every page abort has completed. -/
def abortsDone (s : State) : Bool := s.cue.pages.all fun g => g.st != .aborting || g.complete

/-- Step 4 of R92 may begin: aborts are complete, and no worker is waited for any longer (R655). -/
def stepFour (s : State) : Bool := abortsDone s && s.aon.waitWorkers == 0

/-- ENGINES_DOWN ends in ON_A (R96). -/
def enginesDownEnd (s : State) : State :=
  let s1 := modAon (fun a => { a with seqState := .onA, form := .none }) (offReport s)
  aonEvent 0x0107 (BitVec.setWidth 32 (goodMask s1)) 0 s1

/-- The form's phase and list, and the form with another phase. -/
def formPhase : Form → Option (Phase × List Nat)
  | .orderly ph t _ => some (ph, t)
  | .enginesDown ph t => some (ph, t)
  | .itemDown ph t => some (ph, t)
  | _ => none
def withPhase (ph : Phase) : Form → Form
  | .orderly _ t c => .orderly ph t c
  | .enginesDown _ t => .enginesDown ph t
  | .itemDown _ t => .itemDown ph t
  | f => f

/-- The rail whose PG must fall before the next step (R92 step 5). -/
def awaited (s : State) : Option Rail := (allFin 16).find? fun n => (getRail s n).st == .down

/-- The form has taken its last item down, and no PG is awaited. -/
def formDone (s : State) : Bool :=
  match s.aon.form with
  | .collapse [] _ => true
  | f => match formPhase f with
    | some (.items, []) => (awaited s).isNone
    | some (.aborts _, []) => (awaited s).isNone && stepFour s
    | _ => false

/-- A form that is done ends. -/
def formCheck (s : State) : State :=
  if formDone s then
    match s.aon.form with
    | .orderly _ _ c => powerDownEnd c s
    | .enginesDown _ _ => enginesDownEnd s
    | .collapse _ _ => powerDownEnd 4 s
    | _ => modAon (fun a => { a with form := .none }) s
  else s

/-- A fault that took PD3 down is a live cause: Safe Hold is entered with C_BEAT (R68, R71). -/
def beatHold (s : State) : State :=
  if beatLive s && !s.aon.cBeat then driveEnter (modAon (fun a => { a with cBeat := true }) s) else s

/-- A change of items, with what follows it in the machine, in the sequencer and at SAFE_n. -/
def itemChange (f : State → State) (s : State) : State := beatHold (formCheck (advance (settle s (f s))))

/-! ## Faults of items and the take-downs they start (R78, R82, R85, R122) -/

/-- RAIL_FAULT is logged and posted (R82, R686). -/
def railFault (i bits : Nat) (s : State) : State := logPost 0x0104 (BitVec.ofNat 32 i) (BitVec.ofNat 32 bits) s

/-- Items in take-down order: the reverse of the start order. -/
def downOrder (s : State) (p : Nat → Bool) : List Nat := ((s.aon.started.map (·.1)).filter p).reverse

/-- Loss of PD3 by a latched fault makes heartbeat loss a live cause (R71): PD3 itself, or an item it depends on while it is
started. -/
def noteBeatFault (i : Nat) (s : State) : State :=
  if i = 19 ∨ (itemStarted s 19 ∧ dependsOn s 19 i) then modAon (fun a => { a with beatMask := withBit a.beatMask i true }) s
  else s

/-- Item i is being taken down: the form or a take-down after a failure has it to take (R116). From OFF_BEGIN on, the orderly
form takes every item (log 49). -/
def takingDown (s : State) (i : Nat) : Bool :=
  s.aon.parts.any (·.todo.contains i) || match s.aon.form with
    | .none => false
    | .orderly _ _ _ => true
    | .enginesDown _ t => t.contains i
    | .itemDown _ t => t.contains i
    | .collapse t _ => t.contains i

/-- The started items that depend on a failed item go down in the collapse form, the first 50 us later (R78, R85, R96), beside
whatever other take-down runs; a collapse form has them already. -/
def downDependents (i : Nat) (s : State) : State :=
  let l := downOrder s (fun j => dependsOn s j i)
  match s.aon.form with
  | .collapse _ _ => s
  | _ => if l.isEmpty then s else modAon (fun a => { a with parts := a.parts ++ [{ todo := l, last := s.now }] }) s

/-- A domain fails: it is switched off, its fault bit latches, RAIL_FAULT is logged and posted, its dependents go down. -/
def domFail (d : Dom) (bits : Nat) (s : State) : State :=
  let i := 16 + d.1
  itemChange (fun s => railFault i (bits + 256) (modDom d (fun x => { x with st := .fault, since := s.now })
    (modAon (fun a => { a with faults := withBit a.faults i true }) (downDependents i (noteDown i (noteBeatFault i s)))))) s

/-- A rail's soft start fails (R82, R83): cause bits 0 PG late, 1 over-current. A rail that is being taken down latches no
fault and makes no retry (R115, R116). -/
def railFail (n : Rail) (bits : Nat) (s : State) : State :=
  let x := getRail s n
  let gone := takingDown s n.1
  let last := !gone && decide (x.tries.toNat ≥ x.retry.toNat)
  itemChange (fun s =>
    let s1 := modRail n (fun x => { x with
      st := if gone then .off else if last then .fault else .cool
      cause := BitVec.ofNat 3 bits, tries := x.tries + 1, since := s.now }) (noteDown n.1 s)
    let s2 := if last then modAon (fun a => { a with faults := withBit a.faults n.1 true }) s1 else s1
    railFault n.1 (if last then bits + 256 else bits) s2) s

/-- A good rail drops (R85); over-current on one that is being taken down latches no fault (R116). -/
def railDropOp (n : Rail) (oc : Bool) (s : State) : State :=
  let bits := 4 + (if oc then 2 else 0)
  let latch := !(oc && takingDown s n.1)
  itemChange (fun s =>
    let s1 := downDependents n.1 (noteDown n.1 (if latch then noteBeatFault n.1 s else s))
    let s2 := if latch then modAon (fun a => { a with faults := withBit a.faults n.1 true }) s1 else s1
    railFault n.1 (if latch then bits + 256 else bits) (modRail n (fun x => { x with
      st := if latch then .fault else .off, cause := BitVec.ofNat 3 bits, since := s.now }) s2)) s

/-! ## Power-down forms (R92-R96, R105, R114) -/

/-- Items that have not started leave WAIT, DELAY and COOL for OFF when a power-down form reaches them (R86, R105). -/
def clearWaits (p : Nat → Bool) (s : State) : State :=
  forEach (fun i s => if p i && !itemStarted s i && (itemWaits s i || itemOnWay s i) then setItem .off .off i s else s)
    allItems (modAon (fun a => { a with
      retryIn := a.retryIn.filter (fun i => !p i), upItem := a.upItem.filter (fun i => !p i)
      ownIn := a.ownIn.filter (fun i => !p i) }) s)

/-- The item's RS_EN falls or its switch opens. -/
def dropItem (r : RailSt) (d : DomSt) (i : Nat) (s : State) : State := setItem r d i (noteDown i s)

/-- Workers a forwarded take-down waits for (R655). -/
def workersLive (s : State) : BitVec 8 := if isManager s then s.skid.live else 0

/-- The grace ends (R92 step 3): admitted pages abort with cause POWER, and every started item is to go down. -/
def graceEnd (s : State) : State :=
  match s.aon.form with
  | .orderly (.grace _) _ c =>
    let s1 := abortPages (fun _ => true) 8 1 s
    formCheck (modAon (fun a => { a with
      form := .orderly (.aborts s.now) (downOrder s (fun _ => true)) c, waitWorkers := workersLive s }) s1)
  | _ => s

/-- The orderly form begins (R92): OFF_BEGIN is posted; with no grace, step 3 follows at once. -/
def orderlyStart (cause : BitVec 3) (grace : Nat) (s : State) : State :=
  let s1 := clearWaits (fun _ => true) (modAon (fun a => { a with
    seqState := .falling, form := .orderly (.grace s.now) [] cause }) s)
  let s2 := aonEvent 0x0103 (BitVec.setWidth 32 cause) (BitVec.ofNat 32 grace) s1
  if grace = 0 then graceEnd s2 else s2

/-- The rail whose PG was awaited is off. -/
def lastOff (s : State) : State :=
  match awaited s with
  | some n => modRail n (fun x => { x with st := .off, since := s.now }) s
  | none => s

/-- The next item of an orderly take-down goes down. A rail waits in DOWN for its PG; a domain is off at once, and a worker that
loses PD11 reports it first (R655). -/
def orderlyNext (todo : List Nat) (s : State) : State :=
  match todo with
  | [] => s
  | i :: _ => dropItem .down .off i (if i = 27 then offReport s else s)

/-- The next step of an orderly take-down (R92 step 5): the rail awaited is off, and once step 4 has begun the next item goes
down. -/
def orderlyStep (s : State) : State :=
  let go := fun todo => itemChange (fun s =>
    orderlyNext todo (modAon (fun a => { a with form := withPhase .items a.form }) (lastOff s))) s
  match formPhase s.aon.form with
  | some (.items, todo) => go todo
  | some (.aborts _, todo) => if stepFour s then go todo else itemChange lastOff s
  | some (.grace _, _) => itemChange lastOff s
  | none => s

/-- The take-down after a failure whose 50 us end first. -/
def nextPart (l : List PartDown) : Option PartDown :=
  l.foldl (fun acc p => match acc with
    | some q => if p.last < q.last then some p else acc
    | none => some p) none

/-- An item that a take-down after a failure reaches is OFF; while its raise goes on it shows WAIT, unable to start (R86,
log 50). -/
def partItem (i : Nat) (s : State) : State := if isWanted s i then dropItem .wait .wait i s else dropItem .off .off i s

/-- The collapse form takes down the next item (R93): the first within 2 us, then one every 50 us; a take-down after a failure
one every 50 us (R78, R85). -/
def collapseStepOp (s : State) : State :=
  match s.aon.form with
  | .collapse (i :: rest) last =>
    itemChange (fun s => dropItem .off .off i (modAon (fun a => { a with form := .collapse (i :: rest) (some s.now) }) s))
      (match last with | none => s | some t => timeTo (t + 50 * us) s)
  | _ => match nextPart s.aon.parts with
    | some p => match p.todo with
      | i :: _ => itemChange (fun s => partItem i (modAon (fun a => { a with
          parts := a.parts.map fun q => if q == p then { q with last := s.now } else q }) s)) (timeTo (p.last + 50 * us) s)
      | [] => s
    | none => s

/-- Rails whose PG an orderly form awaited are off: a collapse form waits for none (R93). -/
def downsOff (s : State) : State :=
  forEach (fun n : Rail => fun t => if (getRail t n).st == .down then modRail n (fun x => { x with st := .off, since := t.now }) t
    else t) (allFin 16) s

/-- Input collapse (R105): raises, retries and other take-downs are abandoned and one collapse form takes down every
started item. PFW is logged and posted; input 0 PFW_n, 1 VSENSE24. In OFF no form starts. An image operation ends (R190). -/
def collapseDetect (input : Nat) (s : State) : State :=
  let s0 := imageCut Config.abandonErr.toNat s
  if s.aon.seqState == .off || s.aon.seqState == .collapse then s0
  else
    let code := pwrCode s.aon.seqState
    let s2 := logPost 0x0108 (BitVec.ofNat 32 input) (BitVec.ofNat 32 code) (downsOff (clearWaits (fun _ => true) s0))
    formCheck (modAon (fun a => { a with
      seqState := .collapse, form := .collapse (downOrder s (fun _ => true)) none, parts := [] }) s2)

/-- Every RS_EN falls and every domain but PD0 is switched off (R94). -/
def cutAll (s : State) : State :=
  forEach (fun i s => if itemFault s i then noteDown i s else setItem .off .off i (noteDown i s)) allItems s

/-- The immediate cut (R94, R114). -/
def immediateCut (s : State) : State :=
  beatHold (settled (fun s => powerDownEnd 2 (cutAll (clearWaits (fun _ => true) s))) s)

/-! ## Raises (R86, R91, R105) -/

/-- VS_LOW in effect, in 0.1 V (R113). VSENSE24 itself is outside the model: the rows VSENSE_COLLAPSE and VSENSE_ARM say how it
stands to this threshold. -/
def vsLowNow (s : State) : Nat := clampN 160 220 s.aon.vsLow.toNat

/-- PFW_n has been low for 1 us (R102). -/
def pfwHolds (s : State) : Bool := s.aon.pfwLow && decide (s.aon.pfwAt + us ≤ s.now)

/-- The condition of R102. -/
def collapseHolds (s : State) : Bool := pfwHolds s || (s.aon.vsEn && s.aon.vsArmed && s.aon.vsBelow)

/-- A raise of stage A from OFF, or of stage B from ON_A; while R102 holds it is abandoned in its first step (R105). -/
def raiseStage (b : Bool) (s : State) : State :=
  let s1 := modAon (fun a => { a with seqState := if b then .risingB else .risingA }) s
  if collapseHolds s then collapseDetect (if pfwHolds s then 0 else 1) s1
  else advance (forEach markWait (allItems.filter fun i => itemEn s i && itemB s i == b && !itemFault s i) s1)

/-- Stage A may be raised: no thermal shutdown is live (R602) and no collapse awaits its recovery (R107). -/
def mayRaise (s : State) : Bool := s.aon.seqState == .off && !thermLive s && !s.aon.awaitRecovery

/-- R91: raise stage A if AUTO_ON is 1. -/
def autoRaise (s : State) : State := if s.aon.autoOn && mayRaise s then raiseStage false s else s

/-! ## Sequencer commands (R108-R112) -/

/-- A sequencer command that is still in progress (R108). -/
def cmdBusy (s : State) : Bool :=
  s.aon.retryIn != [] || s.aon.upItem.isSome || match s.aon.form with | .itemDown _ _ => true | _ => false

/-- CMDERR becomes BUSY. -/
def seqBusy (s : State) : State := modAon (fun a => { a with cmdErr := 1 }) s

/-- MODE is RECOVERY. -/
def inRecovery (s : State) : Bool := s.boot.mode == 2

/-- Perform a sequencer command where it is accepted, else BUSY. -/
def seqCmd (ok : Bool) (f : State → State) (s : State) : State := if ok && !cmdBusy s then f s else seqBusy s

/-- ENGINES_UP, ENGINES_DOWN and OFF are forwarded to the workers (R655). -/
def forwardPower (code : BitVec 4) (s : State) : State :=
  if isManager s then forEach (fun d : Fin 8 => if s.skid.live.getLsbD d.1 then sendSkid 1 (.power d code) else id) (allFin 8) s
  else s

def onA (s : State) : Bool := s.aon.seqState == .onA
def onB (s : State) : Bool := s.aon.seqState == .onB

def enginesUpCmd (s : State) : State :=
  seqCmd (onA s && !inRecovery s && !thermLive s) (fun s => raiseStage true (forwardPower 1 s)) s

/-- Started items of stage B and every started item that depends on one, in take-down order (R96). -/
def stageBDown (s : State) : List Nat :=
  downOrder s fun i => itemB s i || s.aon.started.any fun j => itemB s j.1 && dependsOn s i j.1

def enginesDownCmd (s : State) : State :=
  seqCmd (onB s) (fun s =>
    let l := stageBDown s
    let s1 := forwardPower 2 (abortPages (fun _ => true) 8 1 s)
    let s2 := clearWaits (itemB s) s1
    formCheck (modAon (fun a => { a with
      seqState := .fallingB, form := .enginesDown (.aborts s.now) l, waitWorkers := workersLive s }) s2)) s

def seqOffCmd (s : State) : State :=
  seqCmd (onA s || onB s) (fun s => orderlyStart 3 0 (forwardPower 3 s)) s

def offAckCmd (s : State) : State :=
  match s.aon.form with
  | .orderly (.grace _) _ _ => if s.aon.seqState == .falling then graceEnd s else seqBusy s
  | _ => seqBusy s

/-- Items a RETRY takes in (R109). -/
def retryItems (s : State) : List Nat :=
  let b := s.aon.seqState == .onB || s.aon.seqState == .risingB
  allItems.filter fun i => itemEn s i && (b || !itemB s i) && !itemStarted s i && !itemFault s i && !itemCools s i
    && !itemOnWay s i

def retryCmd (s : State) : State :=
  seqCmd (onA s || onB s || s.aon.seqState == .risingA || s.aon.seqState == .risingB) (fun s =>
    let l := retryItems s
    advance (modAon (fun a => { a with retryIn := l }) (forEach markWait l s))) s

def itemUpCmd (i : Nat) (s : State) : State :=
  seqCmd ((onA s || onB s) && itemEn s i && !(inRecovery s && itemB s i)) (fun s =>
    if itemStarted s i then s
    else if itemFault s i then stallWith [i] s
    else advance (modAon (fun a => { a with upItem := some i }) (markWait i s))) s

/-- Started dependents of an item, then the item (R112, R118). An index the manual gives no item (16, 28-31) takes nothing down
itself: for 16 every started item that depends on PD0 goes down, for 28-31 nothing does: DESIGN CHOICE (log 51). -/
def itemDownList (s : State) (i : Nat) : List Nat :=
  downOrder s (fun j => j != i && dependsOn s j i) ++ (if itemStarted s i then [i] else [])

def itemDownCmd (i : Nat) (s : State) : State :=
  seqCmd (onA s || onB s) (fun s =>
    formCheck (modAon (fun a => { a with form := .itemDown .items (itemDownList s i) }) (clearWaits (· == i) s))) s

/-! ## Power button (R97-R99) -/

/-- LONG in ticks (R99, R113). -/
def longTicks (s : State) : Nat := clampN 2 16 s.aon.longS.toNat * sec
/-- CUT in ticks (R99, R113). -/
def cutTicks (s : State) : Nat :=
  let l := clampN 2 16 s.aon.longS.toNat
  let c := clampN 6 30 s.aon.cutS.toNat
  (if c < l + 4 then l + 4 else c) * sec

/-- Length of the press so far in units of 100 ms, saturating (AON_BTN.HELD). -/
def heldUnits (s : State) : Nat :=
  match s.aon.press with
  | some p => min 255 ((s.now - p.start) / (100 * ms))
  | none => 0

/-- RISING_A to FALLING_B. -/
def runningState (p : PwrSt) : Bool := let c := pwrCode p; decide (1 ≤ c ∧ c ≤ 5)

/-! ## Meanings: items -/

/-- XTAL_STABLE (R120). -/
def execXtalStable (s : State) : Host.Outcome State Fault Refusal :=
  .next (whenS (!s.aon.por) (fun s => advance (modAon (fun a => { a with xtalOk := true }) s)) s)

/-- The lowest-numbered ready domain. -/
def readyDom (s : State) : Option Dom :=
  ((allFin 12).filter fun d => d != 0 && itemReady s (16 + d.1)).head?

/-- A domain is switching. -/
def switching (s : State) : Bool := s.aon.doms.toList.any (·.st == .switch)

/-- DOMAIN_SWITCH_START (R77): the lowest-numbered ready domain, while none is switching. -/
def execDomainSwitchStart (s : State) : Host.Outcome State Fault Refusal :=
  .next (match readyDom s with
    | some d => if switching s then s else
        itemChange (fun s => noteStart (16 + d.1) (modDom d (fun x => { x with st := .switch, since := s.now }) s)) s
    | none => s)

/-- DOMAIN_GOOD (R78, R29): within 200 us of the switch; a domain later than that has failed (DOMAIN_TIMEOUT). -/
def execDomainGood (d : Dom) (s : State) : Host.Outcome State Fault Refusal :=
  .next (whenS ((getDom s d).st == .switch && decide (s.now ≤ (getDom s d).since + 200 * us))
    (itemChange (fun s => modDom d (fun x => { x with st := .good, since := s.now }) s)) s)

/-- DOMAIN_TIMEOUT (R78): 200 us after the switch started. -/
def execDomainTimeout (d : Dom) (s : State) : Host.Outcome State Fault Refusal :=
  .next (whenS ((getDom s d).st == .switch) (fun s => domFail d 8 (timeTo ((getDom s d).since + 200 * us) s)) s)

/-- Domain of a PLL (R120). -/
def pllDom : Pll → Dom
  | .et => 3
  | .loop => 7
  | .mem => 2
  | .pcie => 1
  | .usb => 1
  | .skid => 11

/-- PLL_LOCK_LOST (R122). Loss of the ET PLL also ends the heartbeat, which PD3 going off does. -/
def execPllLockLost (p : Pll) (s : State) : Host.Outcome State Fault Refusal :=
  let d := pllDom p
  .next (whenS ((getDom s d).st == .good || (getDom s d).st == .switch) (domFail d 16) s)

/-- RAIL_DLY_EXPIRE (R79): RS_EN goes high, unless an item it depends on is no longer good (R84). -/
def execRailDlyExpire (n : Rail) (s : State) : Host.Outcome State Fault Refusal :=
  let x := getRail s n
  .next (whenS (x.st == .delay) (fun s =>
    itemChange (fun s =>
      if depsReady s n.1 then noteStart n.1 (modRail n (fun x => { x with st := .soft, since := s.now }) s)
      else modRail n (fun x => { x with st := .wait, since := s.now }) s)
      (timeTo (x.since + x.dly.toNat * ms) s)) s)

/-- RAIL_GOOD (R80): PG high for 100 us, within SSW. -/
def execRailGood (n : Rail) (s : State) : Host.Outcome State Fault Refusal :=
  let x := getRail s n
  .next (whenS (x.st == .soft && decide (s.now ≤ x.since + x.ssw.toNat * ms)) (fun s =>
    itemChange (fun s => modRail n (fun x => { x with st := .good, since := s.now }) s) (timeTo (x.since + 100 * us) s)) s)

/-- RAIL_SSW_EXPIRE (R82). -/
def execRailSswExpire (n : Rail) (s : State) : Host.Outcome State Fault Refusal :=
  let x := getRail s n
  .next (whenS (x.st == .soft) (fun s => railFail n 1 (timeTo (x.since + x.ssw.toNat * ms) s)) s)

/-- RAIL_OVERCURRENT (R81, R82). -/
def execRailOvercurrent (n : Rail) (s : State) : Host.Outcome State Fault Refusal :=
  let x := getRail s n
  .next (whenS (x.st == .soft && x.csEn) (railFail n 2) s)

/-- COOL of a rail in ticks. -/
def coolTicks (x : RailS) : Nat := x.cool.toNat * 100 * ms

/-- RAIL_COOL_EXPIRE (R83): the rail restarts from its on delay, once what it depends on is good (R84). Outside a raise this is
the rail's own schedule and no command (R108, R109). -/
def execRailCoolExpire (n : Rail) (s : State) : Host.Outcome State Fault Refusal :=
  let x := getRail s n
  .next (whenS (x.st == .cool) (fun s =>
    let s1 := timeTo (x.since + coolTicks x) s
    advance (modAon (fun a => { a with ownIn := if isWanted s n.1 then a.ownIn else a.ownIn ++ [n.1] })
      (modRail n (fun x => { x with st := .wait, since := s1.now }) s1))) s)

/-- RAIL_DROP (R85): PG low for 20 us, or over-current where CS_EN is 1. -/
def execRailDrop (n : Rail) (oc : Bool) (s : State) : Host.Outcome State Fault Refusal :=
  let x := getRail s n
  .next (whenS (x.st == .good && (!oc || x.csEn)) (railDropOp n oc) s)

/-! ## Meanings: take-downs -/

/-- COLLAPSE_STEP (R93, R78, R85). -/
def execCollapseStep (s : State) : Host.Outcome State Fault Refusal := .next (collapseStepOp s)

/-- GRACE_EXPIRE (R92). GRACE is read as it stands at the expiry: DESIGN CHOICE (log 52). -/
def execGraceExpire (s : State) : Host.Outcome State Fault Refusal :=
  .next (match s.aon.form with
    | .orderly (.grace t) _ _ => graceEnd (timeTo (t + s.aon.grace.toNat * 100 * ms) s)
    | _ => s)

/-- ORDERLY_TAKEDOWN_STEP (R92). -/
def execOrderlyTakedownStep (s : State) : Host.Outcome State Fault Refusal := .next (orderlyStep s)

/-- OFF_WINDOW_EXPIRE (R92): OFF_SLOW is set and logged, and the form continues. -/
def execOffWindowExpire (s : State) : Host.Outcome State Fault Refusal :=
  .next (match awaited s with
    | some n =>
      orderlyStep (logCode (Config.logCode 0).toNat (BitVec.ofNat 32 n.1) 0
        (modRail n (fun x => { x with offSlow := true }) (timeTo ((getRail s n).since + (getRail s n).offw.toNat * ms) s)))
    | none => s)

/-- ENGINES_UP (R108). -/
def execEnginesUp (p : Port) (s : State) : Host.Outcome State Fault Refusal := .next (whenS (reach s p 0) enginesUpCmd s)

/-- ENGINES_DOWN (R96). -/
def execEnginesDown (p : Port) (s : State) : Host.Outcome State Fault Refusal := .next (whenS (reach s p 0) enginesDownCmd s)

/-- OFF (R95). -/
def execSeqOff (p : Port) (s : State) : Host.Outcome State Fault Refusal := .next (whenS (reach s p 0) seqOffCmd s)

/-- OFF_ACK (R92). -/
def execOffAck (p : Port) (s : State) : Host.Outcome State Fault Refusal := .next (whenS (reach s p 0) offAckCmd s)

/-- RETRY (R109). -/
def execRetry (p : Port) (s : State) : Host.Outcome State Fault Refusal := .next (whenS (reach s p 0) retryCmd s)

/-- ITEM_UP (R111). -/
def execItemUp (p : Port) (item : BitVec 5) (s : State) : Host.Outcome State Fault Refusal :=
  .next (whenS (reach s p 0) (itemUpCmd item.toNat) s)

/-- ITEM_DOWN (R112). -/
def execItemDown (p : Port) (item : BitVec 5) (s : State) : Host.Outcome State Fault Refusal :=
  .next (whenS (reach s p 0) (itemDownCmd item.toNat) s)

/-- A write of AON_SEQ_CMD (R108): code 0 is no command, an unlisted code sets CMDERR to BAD_CMD. -/
def seqCmdWrite (code item : Nat) (s : State) : State :=
  match code with
  | 0 => s
  | 1 => enginesUpCmd s
  | 2 => enginesDownCmd s
  | 3 => seqOffCmd s
  | 4 => offAckCmd s
  | 5 => retryCmd s
  | 7 => itemUpCmd item s
  | 8 => itemDownCmd item s
  | _ => modAon (fun a => { a with cmdErr := 2 }) s

/-- SEQ_BAD_CMD (R108): a code of the tables is its own row's command. -/
def execSeqBadCmd (p : Port) (code : BitVec 4) (s : State) : Host.Outcome State Fault Refusal :=
  .next (whenS (reach s p 0) (seqCmdWrite code.toNat 0) s)

/-! ## Meanings: the button and MRST_n -/

/-- BTN_PRESS (R97): PWR_BTN_n fell now and has stayed low for 20 ms; the press is measured from the falling edge. -/
def execBtnPress (s : State) : Host.Outcome State Fault Refusal :=
  .next (whenS (!s.aon.por && s.aon.press.isNone) (fun s => timeTo (s.now + 20 * ms) (modAon (fun a => { a with
    btnLow := true
    press := some { start := s.now, atState := a.seqState, long := false, cut := false, covers := 0 } }) s)) s)

/-- What a release does (R98, R165). -/
def btnReleaseOp (p : Press) (s : State) : State :=
  let len := s.now - p.start
  let s1 := modAon (fun a => { a with press := none, btnLow := false }) s
  if p.long || p.cut then s1
  else if 2 ≤ p.covers then modAon (fun a => { a with sheet := if a.sheet == .idle then .chord s.now else a.sheet }) s1
  else if p.atState == .off then (if len < sec && mayRaise s then raiseStage false s1 else s1)
  else if runningState p.atState && decide (len < longTicks s) then
    aonEvent (if len < sec then 0x0101 else 0x0102) (BitVec.ofNat 32 (heldUnits s)) (BitVec.ofNat 32 (pwrCode p.atState)) s1
  else s1

/-- BTN_RELEASE (R98). -/
def execBtnRelease (s : State) : Host.Outcome State Fault Refusal :=
  .next (match s.aon.press with
    | some p => btnReleaseOp p s
    | none => s)

/-- BTN_LONG (R98, R115). A press begun in OFF or FALLING does nothing, whatever the state at LONG is: DESIGN CHOICE (log 53). -/
def execBtnLong (s : State) : Host.Outcome State Fault Refusal :=
  .next (match s.aon.press with
    | some p =>
      if !p.long then
        let s1 := modAon (fun a => { a with press := some { p with long := true, covers := 0 } })
          (timeTo (p.start + longTicks s) s)
        if runningState p.atState && runningState s.aon.seqState then orderlyStart 1 s.aon.grace.toNat s1 else s1
      else s
    | none => s)

/-- BTN_CUT (R94, R99, R114). -/
def execBtnCut (s : State) : Host.Outcome State Fault Refusal :=
  .next (match s.aon.press with
    | some p =>
      if !p.cut then
        let s1 := modAon (fun a => { a with press := some { p with cut := true, covers := 0 } })
          (timeTo (p.start + cutTicks s) s)
        if runningState p.atState || p.atState == .falling then immediateCut s1 else s1
      else s
    | none => s)

/-- GLB_FLMIN after MRST_n (R12): the tally as it stands, or for a flume that is DOWN the full tally of the depth its registers
now give. The manual says 'per flume' only: DESIGN CHOICE (log 54). -/
def resetMins (s : State) : State :=
  { s with fl := Vector.ofFn fun f : FlumeId =>
      let x := getFl s f
      { x with minTally := if x.down then fullTally s f else x.tally, zero := !x.down && x.tally == 0 } }

/-- MRST_ASSERT (R101, R12, R190): the low on SAFE_n also stops sheet clear (R62, R67). While AON power-on reset is asserted only
the level counts. -/
def execMrstAssert (s : State) : Host.Outcome State Fault Refusal :=
  .next (if s.aon.por then modAon (fun a => { a with mrst := true }) s
    else whenS (!s.aon.mrst) (fun s => resetMins (settled (fun s =>
      let s1 := modAon (fun a => { a with mrst := true }) (imageCut Config.abandonErr.toNat (sheetStop s))
      { s1 with lock := false, flSel := 0 }) s)) s)

/-- MRST_RELEASE (R64, R68): Safe Hold with cause RST, set as MRST_n rises: DESIGN CHOICE (log 55). -/
def execMrstRelease (s : State) : Host.Outcome State Fault Refusal :=
  .next (if s.aon.por then modAon (fun a => { a with mrst := false }) s
    else whenS s.aon.mrst (settled (noteDrive fun s =>
      modAon (fun a => { a with mrst := false, hold := true, cRst := true, resetExit := s.now }) s)) s)

/-! ## Meanings: input collapse -/

/-- PFW_COLLAPSE (R102, R105): PFW_n has been low for 1 us. -/
def execPfwCollapse (s : State) : Host.Outcome State Fault Refusal :=
  .next (whenS (s.aon.pfwLow && !s.aon.por) (fun s => collapseDetect 0 (timeTo (s.aon.pfwAt + us) s)) s)

/-- VSENSE_COLLAPSE (R102, R105). -/
def execVsenseCollapse (s : State) : Host.Outcome State Fault Refusal :=
  .next (whenS (s.aon.vsEn && s.aon.vsArmed && !s.aon.por) (fun s =>
    collapseDetect 1 (modAon (fun a => { a with vsBelow := true, vsLowAt := s.now }) s)) s)

/-- VSENSE_ARM (R104): 100 ms above the threshold, counted from the disarm or a later rise. -/
def execVsenseArm (s : State) : Host.Outcome State Fault Refusal :=
  .next (whenS (!s.aon.por) (fun s => modAon (fun a => { a with vsArmed := true, vsBelow := false })
    (timeTo (max s.aon.disarmAt s.aon.vsLowAt + 100 * ms) s)) s)

/-- Instant after which an input that R107 tests can have become good. -/
def goodFrom (s : State) : Nat := if s.aon.vsEn then max s.aon.pfwAt s.aon.vsLowAt else s.aon.pfwAt

/-- COLLAPSE_RECOVERY (R107): the inputs have been good for 100 ms, so since a later instant than the last low; after a collapse
R91 applies again. -/
def execCollapseRecovery (s : State) : Host.Outcome State Fault Refusal :=
  .next (if s.aon.por || (s.aon.awaitRecovery && s.aon.seqState != .off) then s
    else
      let s1 := modAon (fun a => { a with awaitRecovery := false, pfwLow := false, vsBelow := a.vsBelow && !a.vsEn })
        (timeTo (goodFrom s + 100 * ms) s)
      if s.aon.awaitRecovery then autoRaise s1 else s1)

end Sys2Proof.Machine
end

