-- ==== Sys2Proof/Machine/Watch.lean ====
section
/-!
DEFINITION. What PD0 watches: SAFE_n and Safe Hold (02), the heartbeat, the thermal watch, the NV writer, the fault log,
its read-out and the start of an export (17).
-/

namespace Sys2Proof.Machine

/-! ## SAFE_n (R59-R68) -/

/-- 250 ns, the length of a low that is always recognised (R59). -/
def recogTicks : Nat := 200

/-- SAFE_N_FALL (R59): another agent pulls the line low. -/
def execSafeNFall (s : State) : Host.Outcome State Fault Refusal :=
  .next (whenS s.aon.safeHigh (modAon fun a => { a with safeHigh := false, safeLowAt := some s.now, safeSeen := false }) s)

/-- Instant from which a low counts toward C_EXT: not before 2 us after DRIVE was last 1 (R68). -/
def extFrom (s : State) (t : Nat) : Nat := max t (s.aon.driveEnd + 2 * us)

/-- The low is recognised: Safe Hold, sheet clear stops, and C_EXT where the low is another agent's (R60, R67, R68). -/
def safeRecognise (t : Nat) (s : State) : State :=
  let s1 := timeTo (if s.aon.safeSeen then extFrom s t + recogTicks else t + recogTicks) s
  let ext := !safeDrive s1 && decide (extFrom s t + recogTicks ≤ s1.now)
  safeEnter (sheetStop (modAon (fun a => { a with safeSeen := true, cExt := a.cExt || ext }) s1))

/-- SAFE_N_RECOGNISED (R60). -/
def execSafeNRecognised (s : State) : Host.Outcome State Fault Refusal :=
  .next (match s.aon.safeHigh, s.aon.safeLowAt with
    | false, some t => if s.aon.por then s else safeRecognise t s
    | _, _ => s)

/-- A low that has lasted 250 ns and has not been recognised yet (R59). -/
def lowDue (s : State) : Option Nat :=
  if s.aon.por || s.aon.safeHigh || s.aon.safeSeen then none
  else s.aon.safeLowAt.filter fun t => decide (t + recogTicks ≤ s.now)

/-- SAFE_N_RISE (R65): a low of 250 ns or longer is recognised at the latest now (R59), and the 1 ms count starts. -/
def execSafeNRise (s : State) : Host.Outcome State Fault Refusal :=
  let s1 := match lowDue s with
    | some t => safeRecognise t s
    | none => s
  .next (whenS (!s.aon.safeHigh) (modAon fun a => { a with
    safeHigh := true, safeLowAt := none, safeSeen := false
    safeRiseAt := if a.safeSeen then s.now else a.safeRiseAt }) s1)

/-- AON_SAFE.ASSERT is written (R62). -/
def safeAssertOp (on : Bool) (s : State) : State :=
  noteDrive (fun s =>
    let s1 := modAon (fun a => { a with assert_ := on, cSw := a.cSw || on }) s
    if on then driveEnter s1 else s1) s

/-- SAFE_ASSERT (R62). -/
def execSafeAssert (p : Port) (on : Bool) (s : State) : Host.Outcome State Fault Refusal :=
  .next (whenS (reach s p 0) (safeAssertOp on) s)

/-- A recognised low is present (R66). -/
def lowPresent (s : State) : Bool :=
  !s.aon.safeHigh && (s.aon.safeSeen || match s.aon.safeLowAt with
    | some t => decide (t + recogTicks ≤ s.now)
    | none => false)

/-- A worker outside the enumerated chain, or any device of a refused one, keeps Safe Hold and LDIE_DONE (R639). -/
def chainHolds (s : State) : Bool := s.skid.chain == 3 || (!isManager s && s.skid.chain == 0)

/-- Sheet clear is running: Safe Hold stays set (R169). -/
def sheetRuns (s : State) : Bool := match s.aon.sheet with | .running _ => true | _ => false

/-- RELEASE succeeds (R65, R160, R169, R639). -/
def releaseOk (s : State) : Bool :=
  !liveCause s && !s.aon.assert_ && !safeDrive s && !lowPresent s && !inRecovery s && !chainHolds s && !sheetRuns s
    && decide (max (max s.aon.safeRiseAt s.aon.driveEnd) s.aon.resetExit + ms ≤ s.now)

/-- AON_SAFE.RELEASE is written with 1 (R65, R68). A success leaves REL_FAIL, which only a write of 1 clears: DESIGN CHOICE
(log 56). -/
def safeReleaseOp (s : State) : State :=
  if releaseOk s then modAon (fun a => { a with
    hold := false, cBeat := false, cPart := false, cTherm := false, cSw := false, cExt := false, cRst := false }) s
  else modAon (fun a => { a with relFail := true }) s

/-- SAFE_RELEASE (R65). -/
def execSafeRelease (p : Port) (s : State) : Host.Outcome State Fault Refusal :=
  .next (whenS (reach s p 0) safeReleaseOp s)

/-- HEARTBEAT_LOST (R70, R71): core k, which has stopped issuing (R214), is missed once it has issued nothing for more than 2 us. -/
def execHeartbeatLost (k : Fin 8) (s : State) : Host.Outcome State Fault Refusal :=
  .next (whenS (domUp s 3 && s.cue.coreStopped.getLsbD k.1 && !s.aon.liveBeat) (fun s =>
    driveEnter (modAon (fun a => { a with liveBeat := true, cBeat := true }) (timeTo (s.cue.stopAt + 2 * us + 1) s))) s)

/-! ## The thermal watch (R595-R606) -/

/-- Next instant of the 1 ms conversion grid. -/
def nextConversion (s : State) : Nat := gridNext s.aon.porAt ms s

/-- One conversion of a die sensor (R595, R596). -/
def convSensor (valid : Bool) (t : BitVec 16) (x : Sensor) : Sensor :=
  if valid then
    let bad := if t.toInt < -160 ∨ 600 < t.toInt then x.bad + 1 else 0
    { x with valid := true, temp := t, bad := bad, failed := x.failed || decide (3 ≤ bad) }
  else { x with valid := false, bad := 0 }

/-- Sensors 0-5 are valid while PD3 is on, 6-8 always (R595). -/
def sensorValid (s : State) (n : Nat) : Bool := if n < 6 then domUp s 3 else true

/-- Sensor n takes its conversion; a failure is logged and posted (R596, R624). -/
def sensorStep (die : Vector (BitVec 16) 9) (n : Fin 9) (s : State) : State :=
  let x := tget s.therm.sensors n
  let y := convSensor (sensorValid s n.1) (tget die n) x
  let s1 := modTherm (fun t => { t with sensors := tset t.sensors n y }) s
  if y.failed && !x.failed then logPost 0x0185 (BitVec.ofNat 32 n.1) (BitVec.signExtend 32 y.temp) s1 else s1

/-- Index and temperature of the hottest valid sensor that has not failed (R597). -/
def hottest (s : State) : Option (Nat × BitVec 16) :=
  (allFin 9).foldl (fun acc n =>
    let x := tget s.therm.sensors n
    if x.valid && !x.failed then
      match acc with
      | some (_, t) => if t.toInt < x.temp.toInt then some (n.1, x.temp) else acc
      | none => some (n.1, x.temp)
    else acc) none

/-- A threshold with hysteresis, in 0.25 degC (R600). -/
def threshold (active : Bool) (limit hys td : Int) : Bool := if active then !decide (td < limit - hys) else decide (limit ≤ td)

/-- Effective thresholds (17, Registers): nearest limits. -/
def hysQ (s : State) : Int := 4 * (clampN 1 15 s.therm.hys.toNat : Nat)
def warnQ (s : State) : Int := 4 * (clampN 60 125 s.therm.warn.toNat : Nat)
def thrQ (s : State) : Int := 4 * (clampN 60 125 s.therm.thr.toNat : Nat)
def shutQ (s : State) : Int := 4 * (clampN 100 122 s.therm.shut.toNat : Nat)

/-- A change of a thermal state is logged and posted (R600, R624). -/
def tellState (code st idx : Nat) (td : BitVec 16) (was is : Bool) (s : State) : State :=
  let w : Word := BitVec.signExtend 32 td
  if is && !was then logPost code (BitVec.ofNat 32 idx) w s
  else if was && !is then logPost 0x0183 (BitVec.ofNat 32 st) w s
  else s

/-- Band that TD reaches from below: the highest b with TD at or above TB[b - 1] (R604). -/
def bandUp (tb : Vector Byte 7) (td : Int) : Nat :=
  (allFin 7).foldl (fun acc k => if 4 * ((tget tb k).toNat : Int) ≤ td then k.1 + 1 else acc) 0

/-- Band after falling from b (R604). -/
def bandDown (tb : Vector Byte 7) (td : Int) : Nat → Nat
  | 0 => 0
  | b + 1 => if td < 4 * (((tb.toList[b]?).getD 0).toNat : Int) - 8 then bandDown tb td b else b + 1

/-- The thermal band after a conversion. -/
def nextBand (tb : Vector Byte 7) (td : Int) (b : Nat) : Nat := if b < bandUp tb td then bandUp tb td else bandDown tb td b

/-- The throttle extension in ms (R603). -/
def throttleExt (s : State) (active : Bool) (td : Int) : Nat :=
  if active then min s.therm.cap.toNat (s.therm.thk.toNat * (max 0 (td - thrQ s)).toNat / 4) else 0

/-- The orderly form of a thermal shutdown (R601): an orderly form already running goes on with its grace ended and OFFCAUSE 5
to record (log 77). -/
def thermalForm (s : State) : State :=
  if s.aon.seqState == .off || s.aon.seqState == .collapse then s
  else if s.aon.seqState == .falling then
    graceEnd (modAon (fun a => { a with form := match a.form with
      | .orderly ph todo _ => .orderly ph todo 5
      | f => f }) s)
  else orderlyStart 5 0 s

/-- Thermal shutdown becomes active with the cause given: Safe Hold with C_THERM, then the orderly form (R598, R601). -/
def thermalShutdown (cause : BitVec 3) (s : State) : State :=
  thermalForm (driveEnter (modAon (fun a => { a with cTherm := true })
    (modTherm (fun t => { t with isShut := true, cause := cause }) s)))

/-- WARN, THROTTLE, SHUTDOWN, the band and the extension follow TD (R600-R604). -/
def thermStates (idx : Nat) (td : BitVec 16) (s : State) : State :=
  let q := td.toInt
  let t := s.therm
  let w := threshold t.isWarn (warnQ s) (hysQ s) q
  let h := threshold t.isThr (thrQ s) (hysQ s) q
  let x := if t.cause = 2 then true else threshold t.isShut (shutQ s) (hysQ s) q
  let b := nextBand t.tb q t.band.toNat
  let s1 := modTherm (fun t => { t with td := td, isWarn := w, isThr := h, isShut := x, band := BitVec.ofNat 3 b
                                        bandWas := if b = t.band.toNat then t.bandWas else ((s.now, t.band) :: t.bandWas).take 16
                                        cause := if x then t.cause else 0 }) s
  let s2 := tellState 0x0180 0 idx td t.isWarn w s1
  let s3 := tellState 0x0181 1 idx td t.isThr h s2
  let s4 := tellState 0x0182 2 idx td t.isShut x s3
  let s5 := if b = t.band.toNat then s4 else logPost 0x0184 (BitVec.ofNat 32 b) (BitVec.signExtend 32 td) s4
  let s6 := modTherm (fun t => { t with ext := BitVec.ofNat 16 (throttleExt s5 h q) }) s5
  if x && !t.isShut then thermalShutdown 1 s6 else s6

/-- Thermistor n takes its conversion (R595, R599). -/
def thermistorStep (th : Vector (BitVec 12) 8) (n : Fin 8) (s : State) : State :=
  let x := tget s.therm.ths n
  if domUp s 8 then
    let c := tget th n
    let rise := x.limit != 0 && decide (x.limit.toNat ≤ c.toNat) && !x.above
    let above := if x.limit = 0 then false else if decide (x.limit.toNat ≤ c.toNat) then true
      else if decide (c.toNat + 64 < x.limit.toNat) then false else x.above
    let s1 := modTherm (fun t => { t with ths := tset t.ths n { x with valid := true, count := c, above := above } }) s
    if rise then logPost 0x0186 (BitVec.ofNat 32 (9 + n.1)) (BitVec.setWidth 32 c) s1 else s1
  else modTherm (fun t => { t with ths := tset t.ths n { x with valid := false } }) s

/-- The last D-die sensor to fail is the one whose failure is new in this conversion; the highest of them (R598, R624). -/
def lastFailed (old new : Vector Sensor 9) : Nat :=
  (allFin 9).foldl (fun acc n => if 6 ≤ n.1 && (tget new n).failed && !(tget old n).failed then n.1 else acc) 8

/-- The three D-die sensors have failed. -/
def dieAllFailed (v : Vector Sensor 9) : Bool := (tget v 6).failed && (tget v 7).failed && (tget v 8).failed

/-- One whole conversion. -/
def convertAll (die : Vector (BitVec 16) 9) (th : Vector (BitVec 12) 8) (s : State) : State :=
  let old := s.therm.sensors
  let s1 := forEach (sensorStep die) (allFin 9) s
  let s2 := match hottest s1 with
    | some (i, td) => thermStates i td s1
    | none => s1
  let s3 := forEach (thermistorStep th) (allFin 8) s2
  if dieAllFailed s3.therm.sensors && !dieAllFailed old then
    let k := lastFailed old s3.therm.sensors
    let was := s3.therm.isShut
    let s4 := logPost 0x0182 (BitVec.ofNat 32 k)
      (BitVec.signExtend 32 (tget s3.therm.sensors (Fin.ofNat 9 k)).temp) s3
    if was then modTherm (fun t => { t with cause := 2 }) s4 else thermalShutdown 2 s4
  else s3

/-- THERMAL_CONVERSION (R595). -/
def execThermalConversion (die : Vector (BitVec 16) 9) (th : Vector (BitVec 12) 8) (s : State) :
    Host.Outcome State Fault Refusal :=
  .next (whenS (!s.aon.por) (fun s => noteDrive (convertAll die th) (timeTo (nextConversion s) s)) s)

/-! ## The NV writer (R607-R609) -/

/-- Class of a waiting write in the order of R608. -/
def nvClass : NvWrite → Nat
  | .slotState _ _ => 0
  | .usage _ => 1
  | _ => 2

/-- Usage tallies and the page count increase together (R575). -/
def addUsage (inc : Vector Word 8) (v : Vector DWord 8) : Vector DWord 8 :=
  Vector.ofFn fun k => tget v k + BitVec.setWidth 64 (tget inc k)

/-- One write lands in the store. -/
def nvApply (w : NvWrite) (s : State) : State :=
  match w with
  | .slotState k c => modNv (fun n => { n with slot := tset n.slot k c }) s
  | .usage inc =>
    modAon (fun a => { a with usage := addUsage inc a.usage, pages := a.pages + 1 })
      (modNv (fun n => { n with usage := addUsage inc n.usage, pages := n.pages + 1 }) s)
  | .autoOn b => modNv (fun n => { n with autoOn := b }) s
  | .bootCfg a w => modNv (fun n => { n with scheme := a, bootWd := w }) s
  | .scCfg d m => modNv (fun n => { n with scDir := d, scMask := m }) s
  | .scCfg2 c m => modNv (fun n => { n with scCur := c, scSpmm := m }) s
  | .logCfg m => modNv (fun n => { n with logMode := m }) s
  | .bootFails k => modNv (fun n => { n with fails := k }) s
  | .actSlot b => modNv (fun n => { n with actSlot := b }) s

/-- The write the NV writer takes next: the first of the lowest class; slot-state writes wait while PFW_n is low (R180). -/
def nvPick (s : State) : Option (NvWrite × List NvWrite) :=
  let ok := fun c w => nvClass w == c && !(c == 0 && s.aon.pfwLow)
  let pick := fun c => (s.nv.queue.find? (ok c)).map fun w => (w, s.nv.queue.erase w)
  (pick 0).orElse fun _ => (pick 1).orElse fun _ => pick 2

/-- NV_WRITE (R608). -/
def execNvWrite (s : State) : Host.Outcome State Fault Refusal :=
  .next (if s.aon.por then s else match nvPick s with
    | some (w, rest) => nvApply w (modNv (fun n => { n with queue := rest }) s)
    | none => s)

/-! ## The fault log (R610-R620) -/

/-- SEQ after n (R612). -/
def seqSucc (n : Word) : Word := if n = 0xFFFFFFFE then 0 else n + 1

/-- Slots of a stream (R607). -/
def ringSlots : Nat := 3040

/-- Bytes 0x00-0x1B of a record. -/
def recordHead (seq : Word) (e : LogEntry) : List Byte :=
  leBytes 4 seq.toNat ++ leBytes 2 e.code.toNat ++ leBytes 2 e.src.toNat ++ leBytes 8 e.et.toNat ++
    leBytes 4 e.aont.toNat ++ leBytes 4 e.d0.toNat ++ leBytes 4 e.d1.toNat

/-- The slot a committed record fills: its SEQ and bytes 0x04-0x1F (R611). -/
def slotOf (seq : Word) (e : LogEntry) : LogSlot :=
  let h := recordHead seq e
  { seq := seq, rest := h.drop 4 ++ leBytes 4 (crc32c h).toNat }

/-- The 32 bytes of a slot. -/
def slotBytes (x : LogSlot) : List Byte := leBytes 4 x.seq.toNat ++ x.rest

/-- The slot's CRC matches. -/
def slotOk (x : LogSlot) : Bool :=
  x.seq != 0xFFFFFFFF && fieldN x.rest 24 4 == (crc32c (leBytes 4 x.seq.toNat ++ x.rest.take 24)).toNat

/-- Slot i of a stream; one never written holds no record. -/
def slotAt (st : Stream) (i : Nat) : Option LogSlot := (st.slots.find? (·.1 == i)).map (·.2)

/-- Put a slot. -/
def putSlot (i : Nat) (x : LogSlot) (st : Stream) : Stream :=
  { st with slots := st.slots.filter (·.1 != i) ++ [(i, x)] }

/-- The stream is in ABANDON mode (R615). -/
def abandonMode (s : State) (k : Fin 4) : Bool := s.lg.mode.getLsbD k.1

def modStream (k : Fin 4) (f : Stream → Stream) (s : State) : State :=
  modNv (fun n => { n with streams := tmod n.streams k f }) s

/-- The export in progress covers slot i of stream k (R617). -/
def exportCovers (s : State) (k : Fin 4) (i : Nat) : Bool :=
  s.lg.xBusy && s.lg.xRun.stream.toNat == k.1 && match slotAt (tget s.nv.streams k) i with
    | some x => decide ((x.seq - s.lg.xRun.first).toNat < s.lg.xRun.count.toNat)
    | none => false

/-- A record is discarded under ABANDON: it takes no number and counts in LOST (R615). -/
def logDiscard (e : LogEntry) (s : State) : State :=
  retTally logFl (modStream e.stream (fun st => { st with lost := satInc st.lost }) s)

/-- The record at the head of the log flume is committed (R612, R613), or discarded while PFW_n is low in ABANDON mode, or
waits for an export (R617). -/
def logCommit (e : LogEntry) (rest : List LogEntry) (s : State) : State :=
  let s1 := modLg (fun l => { l with queue := rest }) s
  if abandonMode s e.stream && s.aon.pfwLow then logDiscard e s1
  else
    let st := tget s.nv.streams e.stream
    if exportCovers s e.stream st.next then s
    else retTally logFl (modStream e.stream (fun st =>
      { putSlot st.next (slotOf st.nextSeq e) st with
        next := (st.next + 1) % ringSlots, nextSeq := seqSucc st.nextSeq }) s1)

/-- LOG_RECORD_COMMIT (R613): other NV writes go first (R608). -/
def execLogRecordCommit (s : State) : Host.Outcome State Fault Refusal :=
  .next (match s.lg.queue with
    | e :: rest => if s.aon.por || (nvPick s).isSome then s else logCommit e rest s
    | [] => s)

/-- The bytes after SEQ that slot i of a stream holds; those of a slot never written are open (log 31). -/
def slotRest (s : State) (st : Stream) (i : Nat) : List Byte :=
  match slotAt st i with
  | some x => x.rest
  | none => (List.range 7).flatMap fun j => leBytes 4 (Config.freeWord (s.freeCount + 1 + j)).toNat

/-- The slot a cut writing of record e leaves: its first n words after SEQ are new (R609, R614, R615). -/
def cutSlot (e : LogEntry) (n : Nat) (s : State) : LogSlot :=
  let st := tget s.nv.streams e.stream
  { seq := if abandonMode s e.stream then 0xFFFFFFFF else st.nextSeq
    rest := (slotOf st.nextSeq e).rest.take (4 * n) ++ (slotRest s st st.next).drop (4 * n) }

/-- Where the head record of the log flume could be in writing, whether it is, and how far, is open (log 31); CHECKED writes the
CRC last, ABANDON the SEQ. -/
def cutWrite (e : LogEntry) (s : State) : State :=
  let w := freeWord s
  let n := w.toNat / 2 % (if abandonMode s e.stream then 8 else 7)
  forEach (fun _ => useFree) (List.range 8)
    (if bitB w 0 then modStream e.stream (fun st => putSlot st.next (cutSlot e n s) st) s else s)

/-- Record e, at the head of the log flume, may be in writing (R608, R615, R617). -/
def mayWrite (e : LogEntry) (s : State) : Bool :=
  (nvPick s).isNone && !exportCovers s e.stream (tget s.nv.streams e.stream).next && !(abandonMode s e.stream && s.aon.pfwLow)

/-- The supply fails, or PFW_n falls with `ab`, which stops ABANDON streams alone (R614, R615). -/
def cutLog (ab : Bool) (s : State) : State :=
  match s.lg.queue with
  | e :: _ => if mayWrite e s && (abandonMode s e.stream || !ab) then cutWrite e s else s
  | [] => s

/-- PFW_N_FALL (R615, R102): a record of an ABANDON stream in writing is stopped, and those waiting are discarded, each counted in
LOST. -/
def execPfwNFall (s : State) : Host.Outcome State Fault Refusal :=
  .next (if s.aon.por then s else
    let s1 := modAon (fun a => { a with pfwLow := true, pfwAt := s.now }) (if s.aon.pfwLow then s else cutLog true s)
    let gone := s.lg.queue.filter fun e => abandonMode s e.stream
    forEach logDiscard gone (modLg (fun l => { l with queue := l.queue.filter fun e => !abandonMode s e.stream }) s1))

/-- The newest slot of a stream and the place and number of its next record (R616). -/
def locateStream (st : Stream) : Stream :=
  match st.slots.find? (fun (p : Nat × LogSlot) => p.2.seq != 0xFFFFFFFF && (match slotAt st ((p.1 + 1) % ringSlots) with
      | some y => y.seq != seqSucc p.2.seq
      | none => true)) with
  | some p => { st with next := (p.1 + 1) % ringSlots, nextSeq := seqSucc p.2.seq, lost := 0 }
  | none => { st with next := 0, nextSeq := 0, lost := 0 }

/-- Insert a slot by ascending SEQ. -/
def insertSeq (x : LogSlot) : List LogSlot → List LogSlot
  | [] => [x]
  | y :: ys => if x.seq.toNat ≤ y.seq.toNat then x :: y :: ys else y :: insertSeq x ys

/-- The records of a read-out from number f: intact, SEQ at least f, ascending (R619). -/
def readOut (st : Stream) (f : Word) : List LogSlot :=
  ((st.slots.map (·.2)).filter fun x => slotOk x && decide (f.toNat ≤ x.seq.toNat)).foldr insertSeq []

/-- LOG_READOUT (R620): a write of AON_LOGRD_SEQ starts it. -/
def logReadoutOp (v : Word) (s : State) : State := modLg (fun l => { l with rdSeq := v, rdBusy := true }) s

def execLogReadout (p : Port) (v : Word) (s : State) : Host.Outcome State Fault Refusal :=
  .next (whenS (reach s p 0) (logReadoutOp v) s)

/-- The eight words of a slot. -/
def slotWords (x : LogSlot) : Vector Word 8 := Vector.ofFn fun i => BitVec.ofNat 32 (fieldN (slotBytes x) (4 * i.1) 4)

/-- LOG_READOUT_DONE (R620). -/
def execLogReadoutDone (s : State) : Host.Outcome State Fault Refusal :=
  .next (whenS s.lg.rdBusy (fun s =>
    match readOut (tget s.nv.streams (Fin.ofNat 4 s.lg.rdStream.toNat)) s.lg.rdSeq with
    | x :: _ => modLg (fun l => { l with rdBusy := false, rdFound := true, rdRseq := x.seq, win := slotWords x }) s
    | [] => modLg (fun l => { l with rdBusy := false, rdFound := false }) s) s)

/-! ## Start of an export (R621, R622) -/

/-- Capacity an export of n records needs in a mode (R622). -/
def exportBytes (mode n : Nat) : Nat := if mode = 0 then 32 * n else 32 * n + 8 + 8 * ceilDiv (32 * n) 4096

/-- Every record of the range is in the ring. -/
def rangePresent (st : Stream) (first : Word) (n : Nat) : Bool :=
  (List.range n).all fun k => st.slots.any fun p => p.2.seq == first + BitVec.ofNat 32 k && p.2.seq != 0xFFFFFFFF

/-- Status GO of an export is refused with, 0 when it is accepted (R622). -/
def exportCheck (s : State) : Nat :=
  let l := s.lg
  if l.xBusy || !domUp s 2 || !s.mem.ready || (l.xMode != 0 && !domUp s 4) then 3
  else if l.xMode = 3 || l.xCount.toNat < 1 || 3040 < l.xCount.toNat
      || !rangePresent (tget s.nv.streams (Fin.ofNat 4 l.xStream.toNat)) l.xFirst l.xCount.toNat
      || l.xDst.toNat % 64 != 0 || usableBytes s < l.xDst.toNat + exportBytes l.xMode.toNat l.xCount.toNat then 5
  else 0

/-- A write of AON_LOGX_CTL: its fields are set, and GO starts an export with what the registers hold, or is refused (R2, R621,
R622). -/
def exportCtl (v : Word) (s : State) : State :=
  let s1 := modLg (fun l => { l with
    xCount := BitVec.ofNat 12 (bitsN v 27 16), xStream := BitVec.ofNat 2 (bitsN v 5 4), xMode := BitVec.ofNat 2 (bitsN v 2 1) }) s
  if bitB v 0 then
    let e := exportCheck s1
    if e = 0 then modLg (fun l => { l with
      xBusy := true, xErr := 0
      xRun := { dst := l.xDst, first := l.xFirst, count := l.xCount, stream := l.xStream, mode := l.xMode } }) s1
    else modLg (fun l => { l with xErr := BitVec.ofNat 8 e, xDone := true }) s1
  else s1

end Sys2Proof.Machine
end

