-- ==== Sys2Proof/Machine/Scanner.lean ====
section
/-!
DEFINITION. Line scanning (15): lines, the coupled step, buffers, calibration, scanner commands; the encoders' producers,
scan capture and log export (R359, R549, R621-R623).
-/

namespace Sys2Proof.Machine

/-! ## Geometry (R537, R545, R546) -/

def scanClk (c : ScanCfg) : Nat := 2 * c.cdiv.toNat
def scanSegs (c : ScanCfg) : Nat := clampN 1 3 c.segs.toNat
def scanPixels (c : ScanCfg) : Nat := scanSegs c * c.segpix.toNat

/-- Bytes of a line. -/
def lineBytes (x : ScanE) : Nat := scanPixels x.cur / scanAvg x * (if x.curMode.ofmt then 1 else 2)

/-- BUFLINES in use; 0 counts as 1 (log 24). -/
def bufLinesOf (x : ScanE) : Nat := max 1 x.bufLines.toNat

/-- T, the bytes of a buffer's lines, and C, the capacity required (R547). -/
def bufTotal (x : ScanE) : Nat := bufLinesOf x * lineBytes x
def bufNeed (x : ScanE) : Nat :=
  if x.curMode.out = 0 then bufTotal x else bufTotal x + 8 + 8 * ceilDiv (bufTotal x) 4096

/-- Encoder of OUT, if Tamp output is chosen. -/
def scanEnc (x : ScanE) : Option (Fin 2) := if x.curMode.out = 1 then some 0 else if x.curMode.out = 2 then some 1 else none

/-! ## Lines (R537-R544, R554) -/

/-- The next line of the scan carries the coupled step (R540). -/
def nextCouples (x : ScanE) : Bool := (x.lines.toNat + 1) % clampN 1 3 x.curMode.stepEvery.toNat == 0

/-- LED mask of colour K, bit 0 red (R539). -/
def ledsOf (x : ScanE) (k : Nat) : BitVec 3 :=
  let c := if k < 3 then k else (x.cur.seq.toNat / 4 ^ (x.k3 % clampN 1 3 x.cur.seqlen.toNat)) % 4
  if c = 3 then 7 else BitVec.twoPow 3 c

/-- The coupled stepper cannot take the step (R543). -/
def scanMotorBad (s : State) : Bool :=
  let x := getStep s (Fin.ofNat 16 s.scan.curMode.stepper.toNat)
  x.st != .hold || !x.q.isEmpty

/-- Fault a SCANL meets at dispatch (R543, R554, R562). -/
def scanlFault (s : State) : Option Nat :=
  if !domUp s 10 then some fFlumeDown
  else if s.scan.st != .ready then some fScanOff
  else if s.scan.line.isSome then some fScanOverrun
  else if nextCouples s.scan && scanMotorBad s then some fScanMotor
  else none

/-- A SCANL dispatches. -/
def scanlRun (k : Nat) (s : State) : State :=
  modScan (fun x => { x with
    line := some { d := s.cue.et.toNat, leds := ledsOf x k, reading := false, couples := nextCouples x }
    k3 := if k = 3 then x.k3 + 1 else x.k3 }) s

/-- A SCANL refused for SCAN_OVERRUN is counted (R554). -/
def scanCount (code : Nat) (s : State) : State :=
  if code = fScanOverrun then modScan (fun x => { x with overrun := satInc x.overrun }) s else s

/-- SCAN_EXPOSURE_END (R537): the LED goes off, CIS_SI pulses, and a coupled step begins (R541). -/
def exposeEnd (l : SLine) (s : State) : State :=
  let s1 := emit (modScan (fun x => { x with line := some { l with reading := true, leds := 0 } })
    (etTo (exposureEnd s.scan l) s)) .cisSi
  if l.couples then
    let n : Fin 16 := Fin.ofNat 16 s.scan.curMode.stepper.toNat
    noteMoving n (modStep n (fun x => { x with coupled := true, amps := s.scan.curMode.istep }) s1)
  else s1

def execScanExposureEnd (s : State) : Host.Outcome State Fault Refusal :=
  .next (match s.scan.line with
    | some l => if l.reading then s else exposeEnd l s
    | none => s)

/-- One segment's SEGPIX samples; missing ones read 0. -/
def segSamples (n : Nat) (l : List (BitVec 16)) : List (BitVec 16) := (l ++ List.replicate n 0).take n

/-- The sensor pixels of a line, segment after segment. -/
def sensorLine (c : ScanCfg) (samples : List (List (BitVec 16))) : List (BitVec 16) :=
  (List.range (scanSegs c)).flatMap fun k => segSamples c.segpix.toNat ((samples[k]?).getD [])

/-- Output pixel j (R545). -/
def avgPixel (avg : Nat) (px : List (BitVec 16)) (j : Nat) : Nat :=
  (((px.drop (avg * j)).take avg).map (·.toNat)).sum / avg

/-- Bytes of one output pixel (R546). -/
def pixelBytes (ofmt : Bool) (v : Nat) : List Byte := if ofmt then leBytes 1 (min 255 ((v + 128) / 256)) else leBytes 2 v

/-- The bytes of a line. -/
def scanLineBytes (x : ScanE) (samples : List (List (BitVec 16))) : List Byte :=
  let px := sensorLine x.cur samples
  (List.range (scanPixels x.cur / scanAvg x)).flatMap fun j => pixelBytes x.curMode.ofmt (avgPixel (scanAvg x) px j)

/-! ## Buffers (R547-R551) -/

/-- A buffer is reported and its flume tally returns (R551). -/
def bufDone (b : SBuf) (bytes status : Nat) (s : State) : State :=
  engine 89 0x0160 89 (leBytes 4 b.seq.toNat ++ leBytes 4 bytes ++ leBytes 1 status) (retTally bufFl s)

/-- Status of a SCAN_BUF_PUSH, 0 when it is accepted (R547). -/
def bufCheck (s : State) : Nat :=
  let x := s.scan
  if !hasTally s bufFl then 3
  else if x.bufLoc.toNat % 64 != 0 || usableBytes s < x.bufLoc.toNat + x.bufLen.toNat || x.bufLen.toNat < bufNeed x then 5
  else 0

/-- SCAN_BUF_PUSH (R547). -/
def bufPushOp (s : State) : State :=
  let e := bufCheck s
  if e = 0 then
    takeTally bufFl (modScan (fun x => { x with
      bufs := x.bufs ++ [{ loc := x.bufLoc.toNat, len := x.bufLen.toNat, seq := x.nextBuf, lines := 0, bytes := 0 }]
      nextBuf := x.nextBuf + 1 }) s)
  else modScan (fun x => { x with bufErr := BitVec.ofNat 8 e }) s

def execScanBufPush (s : State) : Host.Outcome State Fault Refusal := .next (whenS (reach s .bar0 10) bufPushOp s)

/-- The raw writer writes one line into the oldest buffer (R548). -/
def rawWrite (line : List Byte) (rest : List (List Byte)) (b : SBuf) (bs : List SBuf) (s : State) : State :=
  let s1 := retTally scanFl (modScan (fun x => { x with q := rest })
    (localWrite (b.loc + b.lines * lineBytes s.scan) line s))
  let b' := { b with lines := b.lines + 1, bytes := b.bytes + line.length }
  if bufLinesOf s.scan ≤ b'.lines then bufDone b' b'.bytes 0 (modScan (fun x => { x with bufs := bs }) s1)
  else modScan (fun x => { x with bufs := b' :: bs }) s1

/-- SCAN_RAW_WRITE (R548). -/
def execScanRawWrite (s : State) : Host.Outcome State Fault Refusal :=
  .next (match s.scan.q, s.scan.bufs with
    | line :: rest, b :: bs =>
      if domUp s 10 && s.mem.ready && s.scan.curMode.out == 0 then rawWrite line rest b bs s else s
    | _, _ => s)

/-! ## Producers of the encoders (R359, R549, R621) -/

/-- Bytes of the open stream already pushed. -/
def pushedBytes (x : Enc) : Nat := x.taken + (x.q.map (·.length)).sum

/-- Scan capture pushes whole blocks, and the last one of a stream, while tallies last (R549): at most n of them. -/
def feedScan (e : Fin 2) : Nat → State → State
  | 0, s => s
  | n + 1, s =>
    let x := tget s.rast.enc e
    let data := s.scan.q.flatten.drop s.scan.fed
    let k := min x.curBlk (x.total - pushedBytes x)
    if x.active && !x.forLog && hasTally s (encFl e) && decide (0 < k ∧ k ≤ data.length) then
      feedScan e n (modScan (fun c => { c with fed := c.fed + k }) (pushEnc e (data.take k) s))
    else s

/-- Scan capture opens a stream for the oldest buffer once it has a line for it, and feeds it. -/
def driveScan (s : State) : State :=
  match scanEnc s.scan, s.scan.bufs with
  | some e, b :: _ =>
    let x := tget s.rast.enc e
    if !domUp s 4 then s
    else if s.scan.st == .ready && !x.active && decide (s.scan.fed < s.scan.q.flatten.length) then
      feedScan e 4 (openEnc e false (bufTotal s.scan) b.loc b.len s)
    else feedScan e 4 s
  | _, _ => s

/-- The bytes of an export (R621). -/
def exportData (s : State) : List Byte :=
  let st := tget s.nv.streams (Fin.ofNat 4 s.lg.xRun.stream.toNat)
  (List.range s.lg.xRun.count.toNat).flatMap fun k =>
    match st.slots.find? (fun p : Nat × LogSlot => p.2.seq == s.lg.xRun.first + BitVec.ofNat 32 k) with
    | some p => slotBytes p.2
    | none => []

/-- Encoder of a Tamp export. -/
def exportEnc (s : State) : Option (Fin 2) :=
  if !s.lg.xBusy then none else if s.lg.xRun.mode = 1 then some 0 else if s.lg.xRun.mode = 2 then some 1 else none

/-- The export pushes its blocks while tallies last. -/
def feedLog (e : Fin 2) : Nat → State → State
  | 0, s => s
  | n + 1, s =>
    let x := tget s.rast.enc e
    let k := min x.curBlk (x.total - pushedBytes x)
    if x.active && x.forLog && hasTally s (encFl e) && decide (0 < k) then
      feedLog e n (pushEnc e (((exportData s).drop (pushedBytes x)).take k) s)
    else s

/-- The export opens its stream when the encoder is free, and feeds it. -/
def driveLog (s : State) : State :=
  match exportEnc s with
  | some e =>
    if !domUp s 4 || s.lg.xRes.isSome then s
    else if s.lg.xOpen then feedLog e 4 s
    else if (tget s.rast.enc e).active then s
    else
      feedLog e 4 (openEnc e true (32 * s.lg.xRun.count.toNat) s.lg.xRun.dst.toNat
        (exportBytes s.lg.xRun.mode.toNat s.lg.xRun.count.toNat) (modLg (fun l => { l with xOpen := true }) s))
  | none => s

/-- Both producers go on as far as they can (R20). -/
def driveEnc (s : State) : State := driveLog (driveScan s)

/-- Lines whose last byte has been written return their tallies (R549): at most n of them. -/
def returnLines : Nat → State → State
  | 0, s => s
  | n + 1, s =>
    match s.scan.q with
    | line :: rest =>
      if line.length ≤ s.scan.coded then
        returnLines n (retTally scanFl (modScan (fun x => { x with
          q := rest, coded := x.coded - line.length, fed := x.fed - line.length }) s))
      else s
    | [] => s

/-- The oldest buffer's stream has ended with a status. -/
def scanStreamEnd (status bytes : Nat) (s : State) : State :=
  match s.scan.bufs with
  | b :: bs => bufDone b bytes status (modScan (fun x => { x with bufs := bs }) s)
  | [] => s

/-- What the producer learns when encoder e has handled a block of n bytes: lines return, a stream that ended is reported
(R551, R553, R623). -/
def encTold (e : Fin 2) (n : Nat) (s : State) : State :=
  let x := tget s.rast.enc e
  if x.forLog then
    if x.active then s
    else modLg (fun l => { l with xRes := some (x.err.toNat, x.written) }) s
  else
    let s1 := if x.err = 0 then returnLines 16 (modScan (fun c => { c with coded := c.coded + n }) s) else s
    if x.active then s1
    else
      let s2 := scanStreamEnd x.err.toNat x.written s1
      if x.err = 0 then s2 else scanFault 3 s2

/-- TAMP_ENCODE_BLOCK (R373). -/
def execTampEncodeBlock (e : Fin 2) (poison : Bool) (s : State) : Host.Outcome State Fault Refusal :=
  .next (match (tget s.rast.enc e).q with
    | b :: rest =>
      if domUp s 4 && s.mem.ready && (tget s.rast.enc e).active then
        driveEnc (encTold e b.length (encodeStep e b rest poison s))
      else s
    | [] => s)

/-- The start of an export, with its producer set going. -/
def exportStart (v : Word) (s : State) : State :=
  let s1 := exportCtl v s
  if s1.lg.xBusy && !s.lg.xBusy then driveEnc (modLg (fun l => { l with xOpen := false, xRes := none }) s1) else s1

/-- LOG_EXPORT (R621). -/
def execLogExport (p : Port) (v : Word) (s : State) : Host.Outcome State Fault Refusal :=
  .next (whenS (reach s p 0) (exportStart (withBit v 0 true)) s)

/-- LOG_EXPORT_DONE (R623): a raw export has written every record; a Tamp export ends as its stream did. -/
def execLogExportDone (s : State) : Host.Outcome State Fault Refusal :=
  .next (if !s.lg.xBusy || !s.mem.ready then s
    else if s.lg.xRun.mode = 0 then
      let d := exportData s
      exportEnd 0 d.length (localWrite s.lg.xRun.dst.toNat d s)
    else match s.lg.xRes with
      | some (err, n) => exportEnd err n s
      | none => s)

/-! ## The end of a line, commands (R537, R552, R556, R557) -/

/-- Buffers not yet used are returned, each PARTIAL with 0 bytes (R557); the first may be partly filled. -/
def returnBufs : List SBuf → State → State
  | [], s => s
  | b :: bs, s => returnBufs bs (bufDone b b.bytes 1 s)

/-- The scanner enters OFF (R557). -/
def scanOffNow (s : State) : State :=
  let s1 := match scanEnc s.scan with
    | some e =>
      let x := tget s.rast.enc e
      if x.active && !x.forLog then scanStreamEnd tBadLength x.written (encError e tBadLength s) else s
    | none => s
  let s2 := returnBufs s1.scan.bufs (retTallies scanFl s1.scan.q.length s1)
  modScan (fun x => { x with
    st := .off, fcause := 0, line := none, q := [], bufs := [], fed := 0, coded := 0, offWant := false }) s2

/-- SCAN_LINE_END (R537): the line enters flume 0x190, whose tally SCANL took. -/
def lineEnd (l : SLine) (samples : List (List (BitVec 16))) (s : State) : State :=
  let t := exposureEnd s.scan l + (1 + s.scan.cur.dummy.toNat + s.scan.cur.segpix.toNat) * scanClk s.scan.cur
  let s1 := etTo t s
  let s2 := if l.couples then stepCoupled (exposureEnd s.scan l) (scanSteps s.scan) s1 else s1
  let s3 := modScan (fun x => { x with
      line := none, endAt := t, lines := x.lines + 1, q := x.q ++ [scanLineBytes x samples] }) s2
  let s4 := driveEnc s3
  if s4.scan.offWant then scanOffNow s4 else s4

def execScanLineEnd (samples : List (List (BitVec 16))) (s : State) : Host.Outcome State Fault Refusal :=
  .next (match s.scan.line with
    | some l => if l.reading then lineEnd l samples s else s
    | none => s)

/-- Values outside their range take the nearest limit (15, Expert control). -/
def clampScan (c : ScanCfg) : ScanCfg :=
  { c with segs := BitVec.ofNat 2 (clampN 1 3 c.segs.toNat), segpix := BitVec.ofNat 14 (clampN 4 10240 c.segpix.toNat)
           cdiv := BitVec.ofNat 8 (clampN 10 255 c.cdiv.toNat), exp := BitVec.ofNat 16 (clampN 1 65535 c.exp.toNat) }

/-- Settings ON would load. -/
def scanLoad (s : State) : Option ScanCfg :=
  if s.scan.xp then some (clampScan s.scan.reg)
  else match s.boot.preset with
    | some p => Config.scannerProfile p.data s.scan.profile.toNat
    | none => none

/-- The geometry check of R556 on a scanner with its settings loaded. -/
def scanGeom (x : ScanE) : Bool :=
  decide (10 * scanSegs x.cur ≤ x.cur.cdiv.toNat ∧ scanPixels x.cur ≤ 10240 ∧ x.cur.segpix.toNat % 4 = 0
    ∧ scanSteps x * 800 ≤ scanTr x)

/-- A refused command sets CMDERR. -/
def scanErr (code : Nat) (s : State) : State := modScan (fun x => { x with cmdErr := BitVec.ofNat 2 code }) s

/-- Buffers pushed before ON are numbered from 0 again. -/
def renumber : Nat → List SBuf → List SBuf
  | _, [] => []
  | n, b :: bs => { b with seq := BitVec.ofNat 32 n } :: renumber (n + 1) bs

/-- The scanner with settings loaded, READY. -/
def scanReady (c : ScanCfg) (x : ScanE) : ScanE :=
  { x with st := .ready, cur := c, curMode := x.mode, lines := 0, k3 := 0, bufs := renumber 0 x.bufs
           nextBuf := BitVec.ofNat 32 x.bufs.length, fed := 0, coded := 0, offWant := false }

/-- ON (R556). -/
def scanOnOp (s : State) : State :=
  if s.scan.st != .off || !scanGood s then scanErr 1 s
  else match scanLoad s with
    | none => scanErr 2 s
    | some c =>
      if scanGeom { s.scan with cur := c, curMode := s.scan.mode } then engine 89 0x0163 89 [] (modScan (scanReady c) s)
      else scanErr 3 s

/-- OFF (R557). -/
def scanOffOp (s : State) : State :=
  if s.scan.line.isSome then modScan (fun x => { x with offWant := true }) s else scanOffNow s

/-- CAL (R552). -/
def scanCalOp (s : State) : State :=
  if s.scan.st == .ready && s.scan.line.isNone then modScan (fun x => { x with st := .cal }) s else scanErr 1 s

/-- A write of SCAN_CTL.CMD. -/
def scanCmd (v : Word) (s : State) : State :=
  match bitsN v 1 0 with
  | 1 => scanOnOp s
  | 2 => scanOffOp s
  | 3 => scanCalOp s
  | _ => s

def execScanOn (s : State) : Host.Outcome State Fault Refusal := .next (whenS (reach s .bar0 10) scanOnOp s)
def execScanOff (s : State) : Host.Outcome State Fault Refusal := .next (whenS (reach s .bar0 10) scanOffOp s)
def execScanCal (s : State) : Host.Outcome State Fault Refusal := .next (whenS (reach s .bar0 10) scanCalOp s)

/-! ### Calibration -/

/-- Rounding of a / b, b positive, halves up (log 24). -/
def roundDiv (a b : Int) : Int := (2 * a + b) / (2 * b)

/-- Sum and number of a segment's samples of one line. -/
def segSum (n : Nat) (line : List (List (BitVec 16))) (c : Nat) : Int :=
  (((segSamples n (line.getD c [])).map (·.toNat)).sum : Nat)

/-- OFFS of channel c after calibration, and whether it was clamped. -/
def calOffs (c : ScanCfg) (sumD : Int) (k : Fin 3) : BitVec 9 × Bool :=
  let n : Int := c.segpix.toNat
  let v := (tget c.offs k).toInt - roundDiv (sumD - n * c.dark.toNat) (32 * max 1 n)
  (BitVec.ofInt 9 (clampI (-256) 255 v), decide (v < -256 ∨ 255 < v))

/-- GAIN of a channel and colour: none where m_x does not exceed m_d, for which R552 states no value. -/
def calGain (c : ScanCfg) (sumD sumX : Int) (g : BitVec 6) : Option (BitVec 6 × Bool) :=
  let n : Int := c.segpix.toNat
  let w : Int := (c.white.toNat : Int) - c.dark.toNat
  if sumX ≤ sumD then none
  else
    let v := roundDiv ((63 + 5 * (g.toNat : Int)) * w * n - 63 * (sumX - sumD)) (5 * (sumX - sumD))
    some (BitVec.ofInt 6 (clampI 0 63 v), decide (v < 0 ∨ 63 < v))

/-- Calibration of one gain. -/
def calOne (dark line : List (List (BitVec 16))) (k x : Fin 3) (s : State) : State :=
  let c := s.scan.cur
  let i : Fin 9 := ⟨3 * k.1 + x.1, by omega⟩
  let n := c.segpix.toNat
  match calGain c (segSum n dark k.1) (segSum n line k.1) (tget c.gains i) with
  | some (g, clip) => modScan (fun y => { y with
      cur := { y.cur with gains := tset y.cur.gains i g }, reg := { y.reg with gains := tset y.reg.gains i g }
      calClip := y.calClip || clip }) s
  | none =>
    let g : BitVec 6 := BitVec.setWidth 6 (freeWord s)
    useFree (modScan (fun y => { y with
      cur := { y.cur with gains := tset y.cur.gains i g }, reg := { y.reg with gains := tset y.reg.gains i g }
      calClip := true }) s)

/-- Calibration of one segment. -/
def calSeg (dark red green blue : List (List (BitVec 16))) (k : Fin 3) (s : State) : State :=
  if scanSegs s.scan.cur ≤ k.1 then s
  else
    let o := calOffs s.scan.cur (segSum s.scan.cur.segpix.toNat dark k.1) k
    let s1 := calOne dark blue k 2 (calOne dark green k 1 (calOne dark red k 0 s))
    modScan (fun y => { y with
      cur := { y.cur with offs := tset y.cur.offs k o.1 }, reg := { y.reg with offs := tset y.reg.offs k o.1 }
      calClip := y.calClip || o.2 }) s1

/-- SCAN_CAL_COMPLETE (R552). -/
def execScanCalComplete (dark red green blue : List (List (BitVec 16))) (s : State) : Host.Outcome State Fault Refusal :=
  .next (whenS (s.scan.st == .cal && !s.aon.hold) (fun s =>
    let s1 := forEach (calSeg dark red green blue) (allFin 3) (modScan (fun x => { x with calClip := false }) s)
    engine 89 0x0162 89 (leBytes 1 (b2n s1.scan.calClip)) (modScan (fun x => { x with st := .ready }) s1)) s)

end Sys2Proof.Machine
end

