-- ==== Sys2Proof/Machine/Head.lean ====
section
/-!
DEFINITION. The thermal photo head (14): lines, slots and strobes, head temperature, head commands.
-/

namespace Sys2Proof.Machine

/-! ## Timing (R503, R506-R509, R526) -/

def headHdiv (c : HeadCfg) : Nat := clampN 8 40 c.hdiv.toNat
def headTh (c : HeadCfg) : Nat := 2 * headHdiv c
/-- TSHIFT + TH in ticks. -/
def headShift (c : HeadCfg) : Nat := headElems c / 8 * headTh c + headTh c
def headGmax (c : HeadCfg) : Nat := clampN 1 4 c.gmax.toNat
def headGroups (c : HeadCfg) : Nat := ceilDiv 8 (headGmax c)
/-- GAP in ticks. -/
def headGap (c : HeadCfg) : Nat := 8 * c.gap.toNat

/-- Pulse-table entry of a panel and a head band: bloom and marking widths in ticks. -/
def pulseEntry (c : HeadCfg) (panel : Nat) (band : Nat) : Nat × Nat :=
  let i := Fin.ofNat 64 (16 * panel + band)
  (8 * (tget c.bw i).toNat, 8 * (tget c.mw i).toNat)

/-- W of slot k of a line with nb bloom slots. -/
def slotWidth (c : HeadCfg) (panel band nb k : Nat) : Nat :=
  let e := pulseEntry c panel band
  if k < nb then e.1 else e.2

/-- Ticks from the latch of a slot of width w to the next latch. -/
def slotTime (c : HeadCfg) (w : Nat) : Nat := max (headShift c) (headGroups c * (w + headGap c))

/-- Time of a line of nb bloom and nm marking slots, from D to its end (R506, R509). -/
def lineTime (c : HeadCfg) (panel band nb nm : Nat) : Nat :=
  let n := nb + nm
  if n = 0 then 0
  else
    let w := slotWidth c panel band nb (n - 1)
    headShift c + ((List.range (n - 1)).map fun k => slotTime c (slotWidth c panel band nb k)).sum
      + (headGroups c - 1) * (w + headGap c) + w

/-- HEAD_TLMAX (R526). -/
def headTlmax (c : HeadCfg) : Nat :=
  ((List.range 64).map fun i =>
    let p := i / 16
    lineTime c p (i % 16) (if c.fmt then 15 else (tget c.nbloom (Fin.ofNat 4 p)).toNat)
      (max 1 (tget c.maxp (Fin.ofNat 4 p)).toNat)).foldl max 0

/-! ## Line content (R504, R505) -/

/-- Marking count of element e. -/
def markCount (c : HeadCfg) (panel : Nat) (d : List Byte) (e : Nat) : Nat :=
  min ((d[if c.fmt then 2 * e else e]?).getD 0).toNat (max 1 (tget c.maxp (Fin.ofNat 4 panel)).toNat)

/-- Bloom count of element e. -/
def bloomCount (c : HeadCfg) (panel : Nat) (d : List Byte) (e : Nat) : Nat :=
  if c.fmt then ((d[2 * e + 1]?).getD 0).toNat % 16
  else if markCount c panel d e = 0 then 0 else (tget c.nbloom (Fin.ofNat 4 panel)).toNat

/-- What element with M marks and B blooms latches in slot k (R505). -/
def latchBit (nb k m b : Nat) : Bool := if k < nb then decide (nb - b ≤ k) else decide (k - nb < m)

/-- The latch of slot k. -/
def latchMask (l : HLine) (k : Nat) : BitVec 2560 :=
  BitVec.ofNat 2560 (bitsOf (List.zipWith (fun m b => latchBit l.nb k m b) l.marks l.blooms))

/-- What the eight lanes shift for the elements of m: bit i of lane l is element EPL × l + i (R502, R503). -/
def laneBits (c : HeadCfg) (m : BitVec 2560) : List Nat :=
  let epl := headElems c / 8
  (List.range 8).map fun l => m.toNat / 2 ^ (epl * l) % 2 ^ epl

/-- The line of page g at overall index k, found in a staged band. -/
def newLine (s : State) (g : Page) (k : Nat) (d : List Byte) : HLine :=
  let c := s.head.cur
  let p := panelAt g.plan k
  let es := List.range (headElems c)
  let marks := es.map (markCount c p d)
  let blooms := es.map (bloomCount c p d)
  { d := s.cue.et.toNat, band := s.head.hband, panel := p, page := g.adm, line := k, marks := marks, blooms := blooms,
    nb := blooms.foldl max 0, nm := marks.foldl max 0, slot := 0, group := headGroups c, latchAt := 0, stop := false }

/-! ## The end of a line (R509, R518, R533) -/

/-- The band whose last line is overall line k of page g is released (R518). -/
def headRelease (g : Page) (k : Nat) (s : State) : State :=
  match (tget s.rast.staged 4).find? (fun b => b.handle == g.handle && bandLast g 4 b == k) with
  | some b => dropBand 4 b s
  | none => s

/-- A tagged line has ended. -/
def lineDone (adm : Word) (k : Nat) (s : State) : State :=
  let s1 := finishOne (some adm) 4 s
  match pageByAdm s1 adm with
  | some g => if g.st == .aborting then releaseAborted g s1 else endPages (headRelease g k s1)
  | none => s1

/-! ## STROBE (R513-R517, R524, R525, R536) -/

/-- Fault a STROBE meets at dispatch. -/
def strobeFault (s : State) : Option Nat :=
  let d := s.cue.et.toNat
  if !domUp s 9 then some fFlumeDown
  else if s.head.st != .ready then some fHeadOff
  else if s.head.line.isSome || decide (d < s.head.endAt) || (match s.head.lastD with
      | some t => decide (d < t + 800000)
      | none => false) then some fHeadOverrun
  else none

/-- A STROBE refused for HEAD_OVERRUN is counted (R525). -/
def strobeCount (code : Nat) (s : State) : State :=
  if code = fHeadOverrun then modHead (fun x => { x with overrun := satInc x.overrun }) s else s

/-- A tagged line that prints blank ends at D (R509, R516, R517). -/
def blankEnd (adm : Word) (k : Nat) (s : State) : State :=
  lineDone adm k (modHead (fun x => { x with endAt := s.cue.et.toNat }) s)

/-- A tagged STROBE dispatches: line k of its page. -/
def strobeLine (g : Page) (k : Nat) (s : State) : State :=
  let r := lineData 4 g k .clean s
  match r.1 with
  | none => blankEnd g.adm k r.2
  | some d =>
    let l := newLine r.2 g k d
    if l.nb + l.nm = 0 then blankEnd g.adm k r.2 else modHead (fun x => { x with line := some l }) r.2

/-- A STROBE dispatches. -/
def strobeRun (k : Nat) (page : Option Word) (s : State) : State :=
  let s1 := modHead (fun x => { x with lastD := some s.cue.et.toNat }) s
  match page.bind (pageByAdm s1) with
  | none => modHead (fun x => { x with endAt := s.cue.et.toNat }) s1
  | some g => strobeLine g k s1

/-! ## Slots (R505-R508) -/

/-- HD_EN is high (R520). -/
def headEn (s : State) : Bool := s.head.st == .ready && !s.aon.hold && headGood s

/-- Latch instant of the line's next slot. -/
def nextLatch (c : HeadCfg) (l : HLine) : Nat :=
  if l.slot = 0 then l.d + headShift c
  else l.latchAt + slotTime c (slotWidth c l.panel l.band.toNat l.nb (l.slot - 1))

/-- The data of slot k is latched at its instant. -/
def latchSlot (l : HLine) (s : State) : State :=
  let t := nextLatch s.head.cur l
  let m := latchMask l l.slot
  emit (modHead (fun x => { x with
    latched := m
    line := some { l with slot := l.slot + 1, group := 0, latchAt := t } }) (etTo t s))
    (.headShift (t - headShift s.head.cur) (laneBits s.head.cur m))

/-- The line read met an uncorrectable error: the line prints blank (R402, R516). -/
def headUe (l : HLine) (s : State) : State :=
  match pageByAdm s l.page with
  | some g =>
    let r := lineData 4 g l.line .uncorrectable s
    blankEnd l.page l.line (modHead (fun x => { x with line := none }) r.2)
  | none => modHead (fun x => { x with line := none }) s

/-- HEAD_SLOT_LATCH (R506). -/
def execHeadSlotLatch (ecc : Ecc) (s : State) : Host.Outcome State Fault Refusal :=
  .next (match s.head.line with
    | none => s
    | some l =>
      if !headEn s || l.stop || l.nb + l.nm ≤ l.slot || l.group < headGroups s.head.cur then s
      else if l.slot = 0 then
        match ecc with
        | .clean => latchSlot l s
        | .corrected => latchSlot l (landCorrected s)
        | .uncorrectable => headUe l s
      else latchSlot l s)

/-- The strobes of group slot j (R507). -/
def groupMask (c : HeadCfg) (rot j : Nat) : BitVec 8 :=
  BitVec.ofNat 8 (bitsOf ((List.range 8).map fun g => decide ((g + 8 - rot % 8) % 8 / headGmax c = j)))

/-- HEAD_GROUP_SLOT (R507). -/
def execHeadGroupSlot (s : State) : Host.Outcome State Fault Refusal :=
  .next (match s.head.line with
    | none => s
    | some l =>
      let c := s.head.cur
      if !headEn s || l.stop || l.slot = 0 || headGroups c ≤ l.group then s
      else
        let w := slotWidth c l.panel l.band.toNat l.nb (l.slot - 1)
        emit (modHead (fun x => { x with line := some { l with group := l.group + 1 } })
          (etTo (l.latchAt + l.group * (w + headGap c)) s)) (.strobes (groupMask c s.head.lineCtr.toNat l.group) w))

/-- The line has fired its last group slot, or its page was aborted. -/
def lineOver (s : State) (l : HLine) : Bool :=
  l.stop || (decide (l.nb + l.nm ≤ l.slot) && decide (headGroups s.head.cur ≤ l.group))

/-- HEAD_LINE_END (R509, R518): the line counter advances (R507). A line stopped before the first group slot of a latched slot ends
at once (R533). -/
def headLineOver (l : HLine) (s : State) : State :=
  let c := s.head.cur
  let w := slotWidth c l.panel l.band.toNat l.nb (l.slot - 1)
  let t := if l.slot = 0 ∨ l.group = 0 then s.cue.et.toNat else l.latchAt + (l.group - 1) * (w + headGap c) + w
  lineDone l.page l.line (modHead (fun x => { x with
    line := none, lineCtr := x.lineCtr + 1, endAt := t }) (etTo t s))

def execHeadLineEnd (s : State) : Host.Outcome State Fault Refusal :=
  .next (match s.head.line with
    | some l => if lineOver s l then headLineOver l s else s
    | none => s)

/-! ## Temperature (R510-R512) -/

/-- Highest band the temperature reaches from below. -/
def hbandUp (c : HeadCfg) (t : Int) : Nat :=
  (allFin 15).foldl (fun a k => if ((tget c.hbt k).toNat : Int) ≤ t then k.1 + 1 else a) 0

/-- Band after falling from b. -/
def hbandDown (c : HeadCfg) (hys t : Int) : Nat → Nat
  | 0 => 0
  | b + 1 => if t < (((c.hbt.toList[b]?).getD 0).toNat : Int) - hys then hbandDown c hys t b else b + 1

/-- The head band after a conversion. -/
def nextHband (c : HeadCfg) (hys t : Int) (b : Nat) : Nat := if b < hbandUp c t then hbandUp c t else hbandDown c hys t b

/-- HEAD_TEMP_CONVERT (R510, R512). -/
def headConvert (raw : BitVec 12) (s : State) : State :=
  let x := s.head
  let t := tableTemp x.cur.tht (4095 - raw.toNat)
  let bad := if rawBad raw then x.badN + 1 else 0
  let b := nextHband x.cur (clampN 0 50 x.hhys.toNat : Nat) t x.hband.toNat
  let s1 := modHead (fun x => { x with temp := BitVec.ofInt 16 t, hband := BitVec.ofNat 4 b, badN := bad }) s
  if x.st == .fault then s1
  else if (x.htmax.toNat : Int) < t then headFault 1 s1
  else if 3 ≤ bad then headFault 2 s1
  else s1

/-- The conversion falls at the next instant of the 100 us grid, which starts where PD9 came on (log 66). -/
def execHeadTempConvert (raw : BitVec 12) (s : State) : Host.Outcome State Fault Refusal :=
  .next (whenS (domUp s 9) (fun s => headConvert raw (timeTo (gridNext (getDom s 9).since (100 * us) s) s)) s)

/-! ## Commands (R528-R530) -/

/-- Values outside their range take the nearest limit (R530). -/
def clampHead (c : HeadCfg) : HeadCfg :=
  { c with elem64 := BitVec.ofNat 6 (clampN 1 40 c.elem64.toNat), gmax := BitVec.ofNat 3 (headGmax c)
           hdiv := BitVec.ofNat 6 (headHdiv c), maxp := c.maxp.map fun m => if m = 0 then 1 else m }

/-- Any entry with MW of 0, or BW at or above MW (R528). -/
def headGeomBad (c : HeadCfg) : Bool :=
  (allFin 64).any fun i => tget c.mw i == 0 || decide ((tget c.mw i).toNat ≤ (tget c.bw i).toNat)

/-- Settings ON would load: at the Basic level FMT is 0 and GMAX 2. -/
def headLoad (s : State) : Option (HeadCfg × BitVec 6 × BitVec 12) :=
  if s.head.xp then some (s.head.reg, s.head.hhys, s.head.htmax)
  else match s.boot.preset with
    | some p => (Config.headProfile p.data s.head.profile.toNat).map fun r => ({ r.1 with fmt := false, gmax := 2 }, r.2)
    | none => none

/-- A refused command sets CMDERR. -/
def headErr (code : Nat) (s : State) : State := modHead (fun x => { x with cmdErr := BitVec.ofNat 2 code }) s

/-- ON (R528). -/
def headOnOp (s : State) : State :=
  if s.head.st != .off || !headGood s then headErr 1 s
  else match headLoad s with
    | none => headErr 2 s
    | some (c, hys, tm) =>
      if headGeomBad c then headErr 3 s
      else
        engine 88 0x0153 88 [] (modHead (fun x => { x with
          st := .ready, cur := clampHead c, hhys := hys, htmax := tm, lineCtr := 0
          tlmax := BitVec.ofNat 32 (headTlmax (clampHead c)) }) s)

/-- OFF: any state. -/
def headOffOp (s : State) : State := abortEnginePages 4 (modHead (fun x => { x with st := .off, fcause := 0 }) (cutHead s))

/-- A write of HEAD_CTL.CMD. -/
def headCmd (v : Word) (s : State) : State :=
  match bitsN v 1 0 with
  | 1 => headOnOp s
  | 2 => headOffOp s
  | _ => s

def execHeadOn (s : State) : Host.Outcome State Fault Refusal := .next (whenS (reach s .bar0 9) headOnOp s)
def execHeadOff (s : State) : Host.Outcome State Fault Refusal := .next (whenS (reach s .bar0 9) headOffOp s)

end Sys2Proof.Machine
end

