-- ==== Sys2Proof/Machine/Pages.lean ====
section
/-!
DEFINITION. Pages (16): the page plan and its checks, the admission conditions, the commit point, the end of an abort,
sheet records, jams.
-/

namespace Sys2Proof.Machine

/-! ## Page plans (R563) -/

/-- Little-endian fields of n bytes from offset o, k of them. -/
def fieldsN (b : List Byte) (o n : Nat) : Nat → List Nat
  | 0 => []
  | k + 1 => fieldN b o n :: fieldsN b (o + n) n k

/-- A table of k little-endian fields of n bytes. -/
def fieldTable (b : List Byte) (o n k : Nat) : Vector Nat k := Vector.ofFn fun i : Fin k => fieldN b (o + n * i.1) n

/-- The plan the 192 bytes spell. -/
def planOf (b : List Byte) : Plan :=
  { path := BitVec.ofNat 2 (fieldN b 0x02 1)
    dup1 := bitB (BitVec.ofNat 8 (fieldN b 0x03 1)) 0
    dup2 := bitB (BitVec.ofNat 8 (fieldN b 0x03 1)) 1
    chans := (fieldsN b 0x08 2 (fieldN b 0x04 1)).map (Fin.ofNat 64)
    engines := BitVec.ofNat 5 (fieldN b 0x18 1)
    panels := BitVec.ofNat 4 (fieldN b 0x19 1)
    fuse := BitVec.ofNat 2 (fieldN b 0x1A 1)
    lead := BitVec.ofNat 8 (fieldN b 0x1B 1)
    bw := fieldN b 0x1C 4
    hvmask := BitVec.ofNat 48 (fieldN b 0x20 8)
    sense := BitVec.ofNat 32 (fieldN b 0x28 4)
    jam := BitVec.ofNat 32 (fieldN b 0x2C 4)
    tlo := BitVec.ofNat 16 (fieldN b 0x30 2)
    thi := BitVec.ofNat 16 (fieldN b 0x32 2)
    gap := fieldN b 0x34 4
    lines := fieldTable b 0x38 4 4
    hlines := fieldN b 0x48 4
    desc := (fieldTable b 0x50 8 5).map (BitVec.ofNat 64)
    nbands := fieldTable b 0x78 4 5
    usage := (fieldTable b 0x8C 4 8).map (BitVec.ofNat 32)
    exitMask := BitVec.ofNat 16 (fieldN b 0xAC 2)
    exitLen := fieldN b 0xAE 2
    divert := BitVec.ofNat 8 (fieldN b 0xB0 1) }

/-- No two members are equal. -/
def distinctNats : List Nat → Bool
  | [] => true
  | x :: xs => !xs.contains x && distinctNats xs

/-- Fields of single bytes and the named channels. -/
def planHeadOk (b : List Byte) : Bool :=
  let nch := fieldN b 0x04 1
  fieldN b 0x00 2 == 1 && decide (fieldN b 0x02 1 ≤ 3) && decide (fieldN b 0x03 1 ≤ 2) &&
    decide (1 ≤ nch ∧ nch ≤ 8) && zeros b 0x05 3 &&
    (fieldsN b 0x08 2 nch).all (fun c => decide (c < 64)) && distinctNats (fieldsN b 0x08 2 nch) &&
    zeros b (0x08 + 2 * nch) (16 - 2 * nch)

/-- The rule of an entry of an engine: inside its range where the engine is named, else 0. -/
def entryOk (named : Bool) (v hi : Nat) : Bool := if named then decide (1 ≤ v ∧ v ≤ hi) else v == 0

/-- Engines, panels, lines, bands, descriptors. -/
def planEnginesOk (b : List Byte) : Bool :=
  let e := fieldN b 0x18 1
  let named := fun k => (BitVec.ofNat 5 e).getLsbD k
  decide (1 ≤ e ∧ e < 32) && decide (fieldN b 0x19 1 < 16) && (fieldN b 0x19 1 != 0) == named 4 &&
    (List.range 4).all (fun k => entryOk (named k) (fieldN b (0x38 + 4 * k) 4) 1048576) &&
    entryOk (named 4) (fieldN b 0x48 4) 65535 && zeros b 0x4C 4 &&
    (List.range 5).all fun k =>
      (named k || fieldN b (0x50 + 8 * k) 8 == 0) && entryOk (named k) (fieldN b (0x78 + 4 * k) 4) 1048576

/-- The remaining fields and the CRC. -/
def planRestOk (b : List Byte) : Bool :=
  decide (fieldN b 0x1A 1 < 4) && decide (fieldN b 0x1B 1 ≤ 64) && decide (fieldN b 0x1C 4 ≤ 65536) &&
    decide (fieldN b 0x20 8 < 2 ^ 48) && decide (fieldN b 0x30 2 ≤ fieldN b 0x32 2) &&
    !bitB (BitVec.ofNat 8 (fieldN b 0xB0 1)) 5 && zeros b 0xB1 11 &&
    fieldN b 0xBC 4 == (crc32c (b.take 0xBC)).toNat

/-- The bytes meet R563. -/
def planOk (b : List Byte) : Bool := b.length == 192 && planHeadOk b && planEnginesOk b && planRestOk b

/-! ## Posting (R564-R568) -/

/-- A DUPLEX2 plan directly follows a DUPLEX1 plan on its path. -/
def duplexOk (s : State) (p : Plan) : Bool :=
  !p.dup2 || match tget s.cue.lastPost (Fin.ofNat 4 p.path.toNat) with
    | some (_, d, _) => d
    | none => false

/-- An open plan of another path names one of its engines. -/
def pathConflict (s : State) (p : Plan) : Bool :=
  s.cue.pages.any fun g => g.plan.path != p.path && (g.plan.engines &&& p.engines) != 0

/-- Free entries of the plan table. -/
def freePlan (s : State) : Option (Fin 32) := (allFin 32).find? fun i => s.cue.pages.all (·.ix != i)

/-- Status of a plan (R564): 0 when it is accepted. None is a failed read. -/
def planStatus (s : State) (d : Option (List Byte)) : Nat :=
  match d with
  | none => 0x21
  | some b =>
    if !planOk b || !duplexOk s (planOf b) then 0x31
    else if (freePlan s).isNone then 0x30
    else if pathConflict s (planOf b) then 0x32
    else 0

/-- A new open plan. -/
def newPage (ix : Fin 32) (h : Word) (p : Plan) : Page :=
  { ix := ix, handle := h, plan := p, st := .posted, unmet := 0, adm := 0, epoch := 0, loff := Vector.replicate 4 0,
    lptr := Vector.replicate 4 0, tagged := Vector.replicate 5 0, finished := Vector.replicate 5 0, doneBy := [],
    degraded := false, short := false, failb := 0, starveb := 0, dark := Vector.replicate 5 0, cause := 0, form := 0,
    complete := false, nextBand := Vector.replicate 5 0, nextLine := Vector.replicate 5 0 }

/-- The successor of a plan handle, which is never 0 (R565). -/
def nextNumber (w : Word) : Word := if w + 1 = 0 then 1 else w + 1

/-- The plan is accepted in table entry ix (R565); one whose partner has been aborted or rejected is rejected (R568). -/
def acceptPlan (ix : Fin 32) (p : Plan) (s : State) : State :=
  let h := s.cue.nextHdl
  let path : Fin 4 := Fin.ofNat 4 p.path.toNat
  let bad := p.dup2 && match tget s.cue.lastPost path with
    | some (_, _, b) => b
    | none => false
  let s1 := modCue (fun c => { c with
    pages := c.pages ++ [newPage ix h p], nextHdl := nextNumber h, lastPost := tset c.lastPost path (some (h, p.dup1, false)) }) s
  if bad then rejectPlan 2 (newPage ix h p) s1 else s1

/-! ## Admission (R570-R575) -/

/-- GPIOn is active (R570). -/
def gpioActive (s : State) (gpio : Word) (n : Nat) : Bool := gpio.getLsbD n == s.cue.pol.getLsbD n

/-- Channel c is named and holds resource id. -/
def heldByNamed (s : State) (p : Plan) (id : Nat) : Bool :=
  match holder s id with
  | some c => p.chans.contains c
  | none => false

/-- The engine is READY (bit 1). -/
def engineReady (s : State) (e : Engine) : Bool :=
  if h : e.1 < 4 then domUp s 5 && (getStn s ⟨e.1, h⟩).st == .ready else domUp s 9 && s.head.st == .ready

/-- Named engines, and slots of HVMASK. -/
def planEngines (p : Plan) : List Engine := (allFin 5).filter fun e => p.engines.getLsbD e.1
def hvSlots (p : Plan) : List LoopId := (allFin 48).filter fun l => p.hvmask.getLsbD l.1

/-- Bit 0 ORDER. -/
def unmetOrder (s : State) (g : Page) : Bool :=
  (s.cue.pages.takeWhile (·.handle != g.handle)).any fun h => h.plan.path == g.plan.path && h.st == .posted

/-- Bit 2 GRANT. -/
def unmetGrant (s : State) (p : Plan) : Bool :=
  p.chans.any (fun c => (getCh s c).st != .running) || (planEngines p).any (fun e => !heldByNamed s p (84 + e.1)) ||
    (hvSlots p).any fun l => !heldByNamed s p (20 + l.1)

/-- Lead bands of a plan: its own LEAD, else PAGE_CFG.LEAD at its nearest limit. -/
def leadOf (s : State) (p : Plan) : Nat := if p.lead = 0 then clampN 1 64 s.cue.lead.toNat else p.lead.toNat

/-- Bit 3 LEAD. -/
def unmetLead (s : State) (g : Page) : Bool :=
  (planEngines g.plan).any fun e =>
    (List.range (min (leadOf s g.plan) (tget g.plan.nbands e))).any fun k =>
      !(tget s.rast.staged e).any fun b => b.handle == g.handle && b.no == k && b.pass

/-- Bit 4 BW. -/
def unmetBw (s : State) (p : Plan) : Bool := decide (bwPool s < bwUsed s + p.bw)

/-- A zone of FUSE is not regulated within TLO-THI. -/
def zoneUnfit (s : State) (p : Plan) (z : Zone) : Bool :=
  let t := (getZone s z).priT.toNat
  !(allFin 48).any (fun l => let x := getLoop s l; x.kind == 2 && x.out.toNat == z.1 && x.st == .run) ||
    decide (t < p.tlo.toNat) || decide (p.thi.toNat < t)

/-- Bit 5 FUSER. -/
def unmetFuser (s : State) (p : Plan) : Bool := (allFin 2).any fun z => p.fuse.getLsbD z.1 && zoneUnfit s p z

/-- Bit 6 LOCK. -/
def unmetLock (s : State) (p : Plan) : Bool := (hvSlots p).any fun l => !(getLoop s l).locked

/-- ET is earlier than the last admission on the path plus GAP plus extra ms (bits 7 and 8). -/
def tooEarly (s : State) (p : Plan) (extra : Nat) : Bool :=
  match tget s.cue.lastAdm (Fin.ofNat 4 p.path.toNat) with
  | some t => decide (s.cue.et.toNat < t + p.gap * us + extra * ms)
  | none => false

/-- Bit 10 HOLD. -/
def unmetHold (s : State) : Bool := s.aon.hold || s.aon.seqState != .onB || inRecovery s || s.aon.pfwLow

/-- The mask of unmet conditions (R570), with the sampled GPIO levels. -/
def unmetMask (s : State) (g : Page) (gpio : Word) : BitVec 12 :=
  let p := g.plan
  BitVec.ofNat 12 (bitsOf [unmetOrder s g, (planEngines p).any (fun e => !engineReady s e), unmetGrant s p, unmetLead s g,
    unmetBw s p, unmetFuser s p, unmetLock s p, tooEarly s p 0, tooEarly s p s.therm.ext.toNat,
    (List.range 32).any (fun n => p.sense.getLsbD n && gpioActive s gpio n), unmetHold s, s.cue.jamLatch])

/-- The page as admitted: LOFF is latched and each station's first line lies LOFF before line 0 (R416). -/
def admitted (s : State) (g : Page) : Page :=
  let loff := Vector.ofFn fun n : Fin 4 => (getStn s n).loff
  { g with
    st := .admitted, adm := s.cue.nextAdm, epoch := s.epoch, unmet := 0, loff := loff
    lptr := loff.map fun x => -(x.toNat : Int) }

/-- The commit point (R574), and the NV write of the usage tallies (R575). -/
def admitPage (g : Page) (s : State) : State :=
  let s1 := modPage g.handle (admitted s) s
  let s2 := modCue (fun c => { c with
    nextAdm := c.nextAdm + 1, lastAdm := tset c.lastAdm (Fin.ofNat 4 g.plan.path.toNat) (some c.et.toNat) }) s1
  nvPut (.usage g.plan.usage) s2

/-! ## The end of an abort (R584) -/

/-- The motors of the page's abort form stand still. -/
def formStill (s : State) (g : Page) : Bool :=
  match g.form.toNat with
  | 1 => (allFin 16).all fun n => !g.plan.exitMask.getLsbD n.1 || motorStill s (stepMotor n)
  | 2 => (allFin 16).all (fun n => motorStill s (stepMotor n)) &&
      (allFin 4).all fun k => s.cue.keepb.getLsbD k.1 || motorStill s (bldcMotor k)
  | _ => (allFin 20).all (motorStill s)

/-- No band of the plan is staged or being staged. -/
def bandsGone (s : State) (handle : Word) : Bool :=
  (allFin 5).all fun e => !stagingOf s handle e && (tget s.rast.staged e).all (·.handle != handle)

/-- The head still has a line of the page. -/
def headBusy (s : State) (adm : Word) : Bool :=
  match s.head.line with
  | some l => l.page == adm
  | none => false

/-- The abort of page g is complete. -/
def abortDone (s : State) (g : Page) : Bool :=
  g.st == .aborting && (allFin 5).all (fun e => !engineBusy s g.adm e) && !headBusy s g.adm && bandsGone s g.handle && formStill s g

/-- PAGE_ABORT_COMPLETE (R584). -/
def execPageAbortComplete (adm : Word) (s : State) : Host.Outcome State Fault Refusal :=
  .next (match pageByAdm s adm with
    | some g => if abortDone s g then modPage g.handle (fun g => { g with complete := true }) s else s
    | none => s)

/-! ## Sheet records (R578, R579) -/

/-- Body of a SHEET or SHEET_ABORT record. -/
def sheetBody (g : Page) : List Byte :=
  let ab := g.st == .aborting
  leBytes 4 g.adm.toNat ++ leBytes 4 g.handle.toNat ++
    leBytes 1 (bitsOf [g.degraded, g.short, g.plan.dup1, g.plan.dup2]) ++ [if ab then g.cause else 0] ++
    [if ab then g.form else 0] ++ leBytes 1 g.plan.path.toNat ++ leBytes 2 g.failb.toNat ++ leBytes 2 g.starveb.toNat

/-- The record of a page that has ended (KIND 6) or been aborted (KIND 7), with the epoch of its admission (R313). -/
def sheetRec (s : State) (g : Page) : Rec :=
  { mkRec s (if g.st == .aborting then 7 else 6) 0xFFFF 0 0 (sheetBody g) with epoch := g.epoch }

/-- The page's record may be staged now: it is the next to be reported. -/
def reportable (s : State) (g : Page) : Bool :=
  g.adm == s.cue.nextReport && (g.st == .ended || (g.st == .aborting && g.complete))

/-- The page with the lowest admission number not yet reported is reported (R578). A reserved entry may always be taken
unless the staging flume is DOWN (R31). -/
def sheetStage (s : State) : State :=
  match s.cue.pages.find? (reportable s), stgRoom s 6 none with
  | some g, some _ => post (sheetRec s g) .sheet s
  | _, _ => s

/-! ## Jams (R587, R588) -/

/-- A page already in an EXIT abort whose form a jam changes. -/
def exitAborting (g : Page) : Bool := g.st == .aborting && !g.complete && g.form == 1

/-- JAM_DETECT (R587): a watched input has stayed active for JAMFILT ms. The motions of the JAM form are those of the
oldest page it acts on (R583). -/
def jamOp (n : Gpio) (s : State) : State :=
  let s1 := engine (90 + n.1) 0x0172 (90 + n.1) (leBytes 1 n.1) (modCue (fun c => { c with
    jamLatch := true, jamSrc := BitVec.ofNat 5 n.1, gpioIn := withBit c.gpioIn n.1 (c.pol.getLsbD n.1) }) s)
  let moved := (admPages s1).find? exitAborting
  let s2 := abortPages (fun _ => true) 9 2 (raiseForm 2 s1)
  match moved with
  | some g => formMotion 2 g s2
  | none => s2

def execJamDetect (g : Gpio) (s : State) : Host.Outcome State Fault Refusal :=
  .next (whenS (domUp s 3 && s.cue.pages.any fun p => p.isAdm && p.plan.jam.getLsbD g.1) (jamOp g) s)

/-- JAMLATCH_CLEAR (R588): a write of 1 to PAGE_STAT.JAMLATCH. -/
def jamClear (gpio : Word) (s : State) : State :=
  modCue (fun c => { c with
    gpioIn := gpio, jamLatch := c.jamLatch && gpioActive s gpio c.jamSrc.toNat }) s

def execJamlatchClear (gpio : Word) (s : State) : Host.Outcome State Fault Refusal :=
  .next (whenS (reach s .bar0 3) (jamClear gpio) s)

end Sys2Proof.Machine
end

