-- ==== Sys2Proof/Machine/Operands.lean ====
section
/-!
DEFINITION. Cue instruction words (R248-R251): the five formats, the decoder, the fetch of a channel's word, operands.
-/

namespace Sys2Proof.Machine

/-- A slot number. -/
abbrev Slot := Fin 16

/-- Op2 of format A: sB, or IMM17. -/
inductive Op2 where
  | slot (b : Slot)
  | imm (v : BitVec 17)
deriving DecidableEq, Repr

/-- The three-operand data instructions. -/
inductive Alu where
  | add
  | sub
  | and
  | or
  | xor
  | shl
  | shr
deriving DecidableEq, Repr

/-- A decoded Cue instruction. -/
inductive CueI where
  | nop
  | jmp (disp : BitVec 21)
  | jcc (cc : BitVec 4) (disp : BitVec 21)
  | call (lib : Bool) (disp : BitVec 21)
  | ret
  | loop (c : Slot) (disp : BitVec 21)
  | halt
  | ldi (d : Slot) (imm : BitVec 16)
  | ldh (d : Slot) (imm : BitVec 16)
  | mov (d a : Slot)
  | movFr (d : Slot)
  | movFw (a : Slot)
  | movSt (d : Slot) (res item : Byte)
  | alu (o : Alu) (d a : Slot) (b : Op2)
  | cmp (a : Slot) (b : Op2)
  | ldm (d a : Slot) (b : Op2)
  | stm (d a : Slot) (b : Op2)
  | waitet (n : Slot)
  | waitth (t : Trk) (n : Slot) (ph : BitVec 10)
  | waitev (nb : Bool) (a b : Slot)
  | at_ (pol : BitVec 2) (c rel : Bool) (n : Slot)
  | atth (pol : BitVec 2) (c : Bool) (t : Trk) (n : Slot) (ph : BitVec 10)
  | push (nb : Bool) (k : Byte) (a : Slot)
  | pop (nb : Bool) (a : Slot)
  | take (nb : Bool) (id k : Byte)
  | give (id k : Byte)
  | move (nb : Bool) (id k : Byte) (a : Slot)
  | movx (nb : Bool) (id : Byte) (a : Slot)
  | setp (nb e : Bool) (id : Byte) (a : Slot)
  | ramp (nb e : Bool) (id k : Byte) (a b : Slot)
  | loopon (nb e : Bool) (id k : Byte) (a : Slot)
  | loopoff (nb : Bool) (id : Byte)
  | fire (nb : Bool) (id : Byte)
  | strobe (nb : Bool) (id : Byte)
  | scanl (nb : Bool) (id : Byte) (k : BitVec 2)
  | sig (nb : Bool) (k : Byte) (a b : Slot)
  | fence (k : BitVec 4)
  | admitPl (nb : Bool) (a b : Slot)
  | done (a : Slot)
  | abort (a : Slot)
  | log (stream : Fin 4) (k : Byte) (a b : Slot)
  | trap (k : Byte)
deriving DecidableEq, Repr

/-! ## Fields of the formats (R249) -/

def fSlot (w : Word) (lo : Nat) : Slot := Fin.ofNat 16 (bitsN w (lo + 3) lo)
def fD (w : Word) : Slot := fSlot w 22
def fA (w : Word) : Slot := fSlot w 18
def fI (w : Word) : Bool := bitB w 17
def fImm17 (w : Word) : BitVec 17 := BitVec.ofNat 17 (bitsN w 16 0)
def fImm16 (w : Word) : BitVec 16 := BitVec.ofNat 16 (bitsN w 15 0)
def fL (w : Word) : Bool := bitB w 21
def fDisp (w : Word) : BitVec 21 := BitVec.ofNat 21 (bitsN w 20 0)
def fN (w : Word) : Bool := bitB w 25
def fE (w : Word) : Bool := bitB w 24
def fId (w : Word) : Byte := BitVec.ofNat 8 (bitsN w 23 16)
def fK (w : Word) : Byte := BitVec.ofNat 8 (bitsN w 15 8)
/-- sA, sB of format D. -/
def fDa (w : Word) : Slot := fSlot w 4
def fDb (w : Word) : Slot := fSlot w 0
/-- Fields of format E. -/
def fPol (w : Word) : BitVec 2 := BitVec.ofNat 2 (bitsN w 25 24)
def fC (w : Word) : Bool := bitB w 23
def fRel (w : Word) : Bool := bitB w 22
def fTrk (w : Word) : Trk := Fin.ofNat 16 (bitsN w 21 18)
def fSn (w : Word) : Slot := fSlot w 14
def fPh (w : Word) : BitVec 10 := BitVec.ofNat 10 (bitsN w 13 4)

/-- Bits h to l are 0. -/
def zeroF (w : Word) (h l : Nat) : Bool := bitsN w h l == 0

/-- The instruction where the condition of its row holds, else ILLEGAL. -/
def onlyIf (b : Bool) (i : CueI) : Option CueI := if b then some i else none

/-! ## Decoding, format by format (R250) -/

/-- Op2 of format A; the zero field of the I = 0 form is checked. -/
def decOp2 (w : Word) : Option Op2 :=
  if fI w then some (.imm (fImm17 w)) else if zeroF w 12 0 then some (.slot (fSlot w 13)) else none

/-- The four forms of MOV. -/
def decMov (w : Word) : Option CueI :=
  if !fI w then onlyIf (zeroF w 16 0) (.mov (fD w) (fA w))
  else if bitB w 16 then onlyIf (zeroF w 21 18)
    (.movSt (fD w) (BitVec.ofNat 8 (bitsN w 15 8)) (BitVec.ofNat 8 (bitsN w 7 0)))
  else if bitsN w 16 0 = 1 then onlyIf (zeroF w 21 18) (.movFr (fD w))
  else if bitsN w 16 0 = 2 then onlyIf (zeroF w 25 22) (.movFw (fA w))
  else none

/-- Opcodes of format A, 0x0A-0x14. -/
def decA (op : Nat) (w : Word) : Option CueI :=
  if op = 0x0A then decMov w
  else match decOp2 w with
    | none => none
    | some b => match op with
      | 0x0B => some (.alu .add (fD w) (fA w) b)
      | 0x0C => some (.alu .sub (fD w) (fA w) b)
      | 0x0D => some (.alu .and (fD w) (fA w) b)
      | 0x0E => some (.alu .or (fD w) (fA w) b)
      | 0x0F => some (.alu .xor (fD w) (fA w) b)
      | 0x10 => some (.alu .shl (fD w) (fA w) b)
      | 0x11 => some (.alu .shr (fD w) (fA w) b)
      | 0x12 => onlyIf (zeroF w 25 22) (.cmp (fA w) b)
      | 0x13 => some (.ldm (fD w) (fA w) b)
      | 0x14 => some (.stm (fD w) (fA w) b)
      | _ => none

/-- Opcodes of formats B and C, 0x00-0x09. -/
def decBC (op : Nat) (w : Word) : Option CueI :=
  match op with
  | 0x00 => onlyIf (zeroF w 25 0) .nop
  | 0x01 => onlyIf (zeroF w 25 21) (.jmp (fDisp w))
  | 0x02 => onlyIf (!fL w) (.jcc (BitVec.ofNat 4 (bitsN w 25 22)) (fDisp w))
  | 0x03 => onlyIf (zeroF w 25 22) (.call (fL w) (fDisp w))
  | 0x04 => onlyIf (zeroF w 25 0) .ret
  | 0x05 => onlyIf (!fL w) (.loop (fD w) (fDisp w))
  | 0x06 => onlyIf (zeroF w 25 0) .halt
  | 0x08 => onlyIf (zeroF w 21 16) (.ldi (fD w) (fImm16 w))
  | 0x09 => onlyIf (zeroF w 21 16) (.ldh (fD w) (fImm16 w))
  | _ => none

/-- The slot of a 64-bit pair is even. -/
def evenSlot (n : Slot) : Bool := n.1 % 2 == 0

/-- Opcodes of format E. -/
def decE (op : Nat) (w : Word) : Option CueI :=
  match op with
  | 0x18 => onlyIf (zeroF w 25 18 && zeroF w 13 0 && evenSlot (fSn w)) (.waitet (fSn w))
  | 0x19 => onlyIf (zeroF w 25 22 && zeroF w 3 0) (.waitth (fTrk w) (fSn w) (fPh w))
  | 0x1B => onlyIf (zeroF w 21 18 && zeroF w 13 0 && (fRel w || evenSlot (fSn w))) (.at_ (fPol w) (fC w) (fRel w) (fSn w))
  | 0x1C => onlyIf (!fRel w && zeroF w 3 0) (.atth (fPol w) (fC w) (fTrk w) (fSn w) (fPh w))
  | _ => none

/-- Flume instructions of format D, and WAITEV. -/
def decFlume (op : Nat) (w : Word) : Option CueI :=
  match op with
  | 0x1A => onlyIf (zeroF w 24 8) (.waitev (fN w) (fDa w) (fDb w))
  | 0x20 => onlyIf (zeroF w 24 16 && zeroF w 3 0) (.push (fN w) (fK w) (fDa w))
  | 0x21 => onlyIf (zeroF w 24 8 && zeroF w 3 0) (.pop (fN w) (fDa w))
  | 0x22 => onlyIf (!fE w && zeroF w 7 0) (.take (fN w) (fId w) (fK w))
  | 0x23 => onlyIf (zeroF w 25 24 && zeroF w 7 0) (.give (fId w) (fK w))
  | _ => none

/-- Engine instructions of format D. -/
def decEngine (op : Nat) (w : Word) : Option CueI :=
  match op with
  | 0x28 => onlyIf (!fE w && zeroF w 3 0) (.move (fN w) (fId w) (fK w) (fDa w))
  | 0x29 => onlyIf (fE w && zeroF w 15 8 && zeroF w 3 0) (.movx (fN w) (fId w) (fDa w))
  | 0x2A => onlyIf (zeroF w 15 8 && zeroF w 3 0) (.setp (fN w) (fE w) (fId w) (fDa w))
  | 0x2B => onlyIf (if fE w then zeroF w 15 8 else zeroF w 3 0) (.ramp (fN w) (fE w) (fId w) (fK w) (fDa w) (fDb w))
  | 0x2C => onlyIf (zeroF w 3 0 && (if fE w then zeroF w 15 8 else zeroF w 7 4)) (.loopon (fN w) (fE w) (fId w) (fK w) (fDa w))
  | 0x2D => onlyIf (!fE w && zeroF w 15 0) (.loopoff (fN w) (fId w))
  | 0x2E => onlyIf (!fE w && zeroF w 15 0) (.fire (fN w) (fId w))
  | 0x2F => onlyIf (!fE w && zeroF w 15 0) (.strobe (fN w) (fId w))
  | 0x30 => onlyIf (!fE w && zeroF w 15 10 && zeroF w 7 0) (.scanl (fN w) (fId w) (BitVec.ofNat 2 (bitsN w 9 8)))
  | _ => none

/-- Coordination instructions of format D. -/
def decCoord (op : Nat) (w : Word) : Option CueI :=
  match op with
  | 0x34 => onlyIf (zeroF w 24 16) (.sig (fN w) (fK w) (fDa w) (fDb w))
  | 0x35 => onlyIf (zeroF w 25 12 && zeroF w 7 0) (.fence (BitVec.ofNat 4 (bitsN w 11 8)))
  | 0x36 =>
    if fK w = 0 then onlyIf (zeroF w 24 16) (.admitPl (fN w) (fDa w) (fDb w))
    else if fK w = 1 then onlyIf (zeroF w 25 16 && zeroF w 3 0) (.done (fDa w))
    else none
  | 0x37 => onlyIf (zeroF w 25 8 && zeroF w 3 0) (.abort (fDa w))
  | 0x3C => onlyIf (zeroF w 25 18) (.log (Fin.ofNat 4 (bitsN w 17 16)) (fK w) (fDa w) (fDb w))
  | 0x3D => onlyIf (zeroF w 25 16 && zeroF w 7 0) (.trap (fK w))
  | _ => none

/-- The instruction a word spells; none is ILLEGAL (R250). -/
def decodeCue (w : Word) : Option CueI :=
  let op := bitsN w 31 26
  if op < 0x0A then decBC op w
  else if op < 0x18 then decA op w
  else if op = 0x1A || (0x20 ≤ op && op < 0x28) then decFlume op w
  else if op < 0x20 then decE op w
  else if op < 0x34 then decEngine op w
  else decCoord op w

/-! ## Regions, fetch, operands -/

/-- The offset as faults and records report it: bit 18 marks the library (R256). -/
def Pc.shown (p : Pc) : Nat := if p.lib then p.off + 0x40000 else p.off

/-- Bytes of the region a program counter runs in (R254). -/
def regionLen (s : State) (c : Chan) (lib : Bool) : Nat :=
  if lib then (match s.boot.cuelib with | some l => l.data.length | none => 0) else 4 * (getCh s c).prog.length

/-- The offset lies in its region. -/
def inRegion (s : State) (c : Chan) (lib : Bool) (off : Int) : Bool :=
  decide (0 ≤ off) && decide (off + 4 ≤ (regionLen s c lib : Int)) && off % 4 == 0

/-- The word at a program counter. -/
def fetchWord (s : State) (c : Chan) (p : Pc) : Option Word :=
  if p.lib then
    match s.boot.cuelib with
    | some l => if p.off + 4 ≤ l.data.length then some (BitVec.ofNat 32 (fieldN l.data p.off 4)) else none
    | none => none
  else (getCh s c).prog[p.off / 4]?

/-- The channel's present instruction: none where no word can be fetched, some none where it is ILLEGAL. -/
def presentI (s : State) (c : Chan) : Option (Option CueI) := (fetchWord s c (getCh s c).pc).map decodeCue

/-- A slot's value. -/
def chSlot (x : Channel) (a : Slot) : Word := tget x.slots a

/-- Op2 with IMM17 sign-extended (ADD, SUB, CMP, LDM, STM) or zero-extended. -/
def op2Of (x : Channel) (signed : Bool) : Op2 → Word
  | .slot b => chSlot x b
  | .imm v => if signed then v.signExtend 32 else v.setWidth 32

/-- The 64-bit value of a slot pair. -/
def pairOf (x : Channel) (n : Slot) : DWord :=
  BitVec.ofNat 64 ((chSlot x n).toNat + 2 ^ 32 * (chSlot x (n + 1)).toNat)

/-- A scratch access of n bytes at a is allowed (R258). -/
def scratchOk (a : Word) (n : Nat) : Bool := a.toNat % 4 == 0 && decide (a.toNat + n ≤ 1024)

/-- Displacement of a branch in bytes, signed (R254). -/
def dispBytes (d : BitVec 21) : Int := 4 * d.toInt

end Sys2Proof.Machine
end

