-- ==== Sys2Proof/Machine/Flags.lean ====
section
/-!
DEFINITION. Flags of a channel: the flag word (R208), condition codes, and the flag computations of R257.
-/

namespace Sys2Proof.Machine

/-- Bits a program may write: Z, N, C, V, WB and U0-U3 (R208). -/
def flagMask : BitVec 16 := 0xF01F

/-- The flag word as read: PCRIT is the controller's view (R217). -/
def flagWord (s : State) (c : Chan) : BitVec 16 := withBit (getCh s c).flags 5 (pcrit s c)

/-- The flag word after a flag-write form. -/
def writeFlags (old new : BitVec 16) : BitVec 16 := (old &&& ~~~flagMask) ||| (new &&& flagMask)

/-- Z, N, C and V set. -/
def setZNCV (f : BitVec 16) (z n c v : Bool) : BitVec 16 := withBit (withBit (withBit (withBit f 0 z) 1 n) 2 c) 3 v

/-- Z and N of a result, with C and V. -/
def resultFlags (f : BitVec 16) (r : Word) (c v : Bool) : BitVec 16 := setZNCV f (r == 0) r.msb c v

/-- WB set or cleared (R253). -/
def setWb (f : BitVec 16) (b : Bool) : BitVec 16 := withBit f 4 b

/-- Sum with carry and overflow. -/
def addFlags (a b : Word) : Word × Bool × Bool :=
  (a + b, decide (2 ^ 32 ≤ a.toNat + b.toNat), a.msb == b.msb && (a + b).msb != a.msb)

/-- Difference with borrow and overflow. -/
def subFlags (a b : Word) : Word × Bool × Bool :=
  (a - b, decide (a.toNat < b.toNat), a.msb != b.msb && (a - b).msb != a.msb)

/-- Left shift by k = 0-31: C is the last bit shifted out, 0 for a count of 0. -/
def shlFlags (a : Word) (k : Nat) : Word × Bool × Bool := (a <<< k, k != 0 && a.getLsbD (32 - k), false)

/-- Logical right shift by k = 0-31. -/
def shrFlags (a : Word) (k : Nat) : Word × Bool × Bool := (a >>> k, k != 0 && a.getLsbD (k - 1), false)

/-- Result, C and V of a data instruction (R257). -/
def aluOf : Alu → Word → Word → Word × Bool × Bool
  | .add, a, b => addFlags a b
  | .sub, a, b => subFlags a b
  | .and, a, b => (a &&& b, false, false)
  | .or, a, b => (a ||| b, false, false)
  | .xor, a, b => (a ^^^ b, false, false)
  | .shl, a, b => shlFlags a (b.toNat % 32)
  | .shr, a, b => shrFlags a (b.toNat % 32)

/-- IMM17 of the instruction is sign-extended. -/
def aluSigned : Alu → Bool
  | .add | .sub => true
  | _ => false

/-- Condition code cc holds of a flag word. -/
def ccHolds (cc : BitVec 4) (f : BitVec 16) : Bool :=
  let z := bitB f 0
  let n := bitB f 1
  let c := bitB f 2
  let v := bitB f 3
  let w := bitB f 4
  match cc.toNat with
  | 0 => z
  | 1 => !z
  | 2 => c
  | 3 => !c
  | 4 => n
  | 5 => !n
  | 6 => v
  | 7 => !v
  | 8 => n != v
  | 9 => n == v
  | 10 => z || n != v
  | 11 => !z && n == v
  | 12 => w
  | 13 => !w
  | 14 => c || z
  | _ => !c && !z

end Sys2Proof.Machine
end

