-- ==== Sys2Proof/Machine/Wheel.lean ====
section
/-!
DEFINITION. Tooth trackers and the time wheel (04): predictions and targets, late policies, guard windows, dispatch,
edges, synthetic teeth, tooth loss, and the commands of a tracker.
-/

namespace Sys2Proof.Machine

/-! ## Thresholds and predictions (R132, R133, R146) -/

def trkNoise (t : Tracker) : Nat := clampN 16 48 t.noiseT.toNat
def trkMiss (t : Tracker) : Nat := clampN 80 112 t.miss.toNat
def trkLatew (t : Tracker) : Nat := clampN 0 32 t.latew.toNat
def trkGuard (t : Tracker) : Nat := clampN 0 256 t.guard.toNat
/-- PMIN and PMAX in ticks; a range that makes no sense uses PMAX for both, and 0 counts as 1. -/
def trkPmax (t : Tracker) : Nat := max 1 t.pmax.toNat
def trkPmin (t : Tracker) : Nat := min (max 1 t.pmin.toNat) (trkPmax t)
/-- Intervals averaged. -/
def trkAvg (t : Tracker) : Nat := 2 ^ t.avg.toNat

/-- The prediction over the newest intervals, in 1/256 tick, rounded down (log 71). -/
def trkMean (t : Tracker) (iv : List Nat) : Nat := (iv.take (trkAvg t)).sum / trkAvg t

/-- Target ET of a position (R133): rounded to the nearest tick, ties down. -/
def trkTarget (t : Tracker) (n : Word) (ph : BitVec 10) : Int :=
  let x : Int := 1024 * t.anchor256 + ((n - t.index).toInt * 1024 + ph.toNat) * t.p256
  (x + 131071) / 262144

/-- Tooth n has started (R137, R276). -/
def toothStarted (t : Tracker) (n : Word) : Bool := decide ((n - t.index).toInt ≤ 0)

/-- First ET tick of the guard window of a target (R134). -/
def guardTick (t : Tracker) (target : Int) : Int := target - (trkGuard t * t.p256 / 262144 : Nat)

/-! ## Actions on the wheel -/

/-- Change one action. -/
def modAct (c : Chan) (id : Nat) (f : Action → Action) (s : State) : State :=
  modCh c (fun x => { x with actq := x.actq.map fun a => if a.id == id then f a else a }) s

/-- A pending action, by channel and number. -/
def pendingAct (s : State) (c : Chan) (id : Nat) : Option Action :=
  (getCh s c).actq.find? fun a => a.id == id && !a.done

/-- Every pending action, by channel and then in push order. -/
def allPending (s : State) : List Action := (allFin 64).flatMap (pendingActs s)

/-- The action targets tracker t. -/
def onTrk (t : Trk) (a : Action) : Bool := match a.target with | .tooth u _ _ => u == t | .abs _ => false

/-- The action is on a synthetic tooth (R138). -/
def onSynth (s : State) (a : Action) : Bool :=
  match a.target with
  | .tooth t n _ => (getTrk s t).synthTeeth.contains n
  | .abs _ => false

/-- Safe Hold drops the action (R154). -/
def heldOutput : ActOp → Bool
  | .loopoff _ | .sig _ _ _ => false
  | _ => true

/-- Channel of the chain RUNNING, as far as this device knows (R277, R645). -/
def chanRuns (s : State) (target : BitVec 9) : Bool :=
  if target.toNat / 64 = devNum s then (getCh s (Fin.ofNat 64 target.toNat)).st == .running else s.skid.dir.contains target

/-- Fault an action meets at dispatch (R266). -/
def actFault (s : State) (a : Action) : Option Nat :=
  if a.destLost then some fFlumeDown
  else match a.op with
    | .seg m g _ => segFault s m g
    | .setp l _ | .ramp l _ => if !domUp s 7 then some fFlumeDown else entryFault (getLoop s l)
    | .loopon l _ => loopOnFault s l
    | .loopoff _ => if !domUp s 7 then some fFlumeDown else none
    | .gpio _ _ _ => none
    | .fire n => fireFault s n
    | .strobe _ => strobeFault s
    | .scanl _ => scanlFault s
    | .sig _ _ _ => none

/-- Overrun counters of a refused action (R394, R525, R554). -/
def countRefused (op : ActOp) (code : Nat) (s : State) : State :=
  match op with
  | .fire n => fireCount n code s
  | .strobe _ => strobeCount code s
  | .scanl _ => scanCount code s
  | _ => s

/-- What ball g shows now, output enable and level: the last setting that has arrived. -/
def gpioNow (t : Nat) (x : GpioS) : Bool × Bool :=
  x.next.foldl (fun r n => if n.1 ≤ t then (n.2.2, n.2.1) else r) (x.out, x.level)

/-- SETP sets a GPIO, whose ball follows d ticks later (R268); a DIVERT level gives way (R586). -/
def setGpio (g : Gpio) (level out : Bool) (d : Nat) (s : State) : State :=
  let x := tget s.cue.gpio g
  let y : GpioS :=
    { out := (gpioNow s.now x).1, level := (gpioNow s.now x).2, divert := false
      next := x.next.filter (fun n => decide (s.now < n.1)) ++ [(s.now + d, level, out)] }
  modCue (fun c => { c with gpio := tset c.gpio g y }) s

/-- Ticks until the ball follows an untimed SETP: up to 20 ns, and open within them (R268; log 74). -/
def gpioDelay (g : Gpio) (s : State) : Nat := Config.gpioDelay s.now g.1 % 17

/-- A SIG whose tally has been taken is delivered: into a local event queue, or as a frame (R645). -/
def deliverSig (src : Chan) (target : BitVec 9) (code : Byte) (payload : Word) (s : State) : State :=
  let me : BitVec 9 := BitVec.ofNat 9 (devNum s * 64 + src.1)
  if target.toNat / 64 = devNum s then
    modCh (Fin.ofNat 64 target.toNat) (fun x => { x with
      evq := x.evq ++ [{ upper := me.setWidth 16, code := code.setWidth 16, payload := payload }] }) s
  else
    let q : SkidPort := if target.toNat / 64 < devNum s then 0 else 1
    skidPushed q (.sig me target code payload) s

/-- The effect of an action that executes. -/
def runAct (a : Action) (s : State) : State :=
  match a.op with
  | .seg m g _ => pushSeg m g s
  | .setp l e | .ramp l e => pushSp l e s
  | .gpio g level out => setGpio g level out 4 s
  | .loopon l g => loopOnRun l g a.chan s
  | .loopoff l => loopOffOp l s
  | .fire n => fireRun n a.page s
  | .strobe k => strobeRun k a.page s
  | .scanl k => scanlRun k.toNat s
  | .sig t code p => deliverSig a.chan t code p s

/-- A timed SIG whose target is no longer RUNNING is discarded (R277). -/
def sigDropped (s : State) (a : Action) : Bool :=
  match a.op with
  | .sig t _ _ => !chanRuns s t
  | _ => false

/-- One action dispatches (R140): executed, refused, or dropped. -/
def dispatchAct (a : Action) (s : State) : State :=
  let synth := onSynth s a
  if (s.aon.hold && heldOutput a.op) || sigDropped s a then endAction a 1 0 synth s
  else match actFault s a with
    | some code => refuseAction a code synth (countRefused a.op code s)
    | none => endAction a 0 0 synth (runAct a s)

/-- Places taken in the present tick (R141). -/
def placesUsed (s : State) : Nat := if s.cue.dispEt = s.cue.et then s.cue.dispN else 0

/-- An action moves to the next tick with SLIP (R141). -/
def slipAct (a : Action) (s : State) : State :=
  if a.slip then s
  else modAct a.chan a.id (fun a => { a with slip := true })
    (modCue (fun c => { c with slipped := true, slips := satInc c.slips }) s)

/-- An action whose tick has come takes a place, or slips. -/
def tryDispatch (a : Action) (s : State) : State :=
  if 16 ≤ placesUsed s then slipAct a s
  else
    let n := placesUsed s + 1
    dispatchAct a (modCue (fun c => { c with dispEt := c.et, dispN := n }) s)

/-- An action that is to dispatch in this very tick (R136, R137, R142). -/
def dispatchNow (c : Chan) (id : Nat) (s : State) : State :=
  let s1 := modAct c id (fun a => { a with due := some s.cue.et.toNat, frozen := true, held := false }) s
  match pendingAct s1 c id with
  | some a => tryDispatch a s1
  | none => s1

/-! ## Reaching the wheel (R137, R142-R144, R151) -/

/-- An action that has passed (R142). -/
def passAct (a : Action) (s : State) : State :=
  let a1 := { a with late := true }
  let s1 := modAct a.chan a.id (fun _ => a1) s
  match a.pol with
  | .fireNow => dispatchNow a.chan a.id s1
  | .drop => endAction a1 1 0 false s1
  | .fault => refuseAction a1 fLate false s1

/-- The target is frozen (R134). A target before ET 0 is held and recorded as 0 (log 70). -/
def freezeAct (a : Action) (target : Int) (s : State) : State :=
  modAct a.chan a.id (fun a => { a with et := some target.toNat, frozen := true }) s

/-- An action with a target in ET: it has passed, or waits for its tick; a tooth action whose guard window is open is
frozen. A target before ET 0 is held and recorded as 0 (log 70). -/
def placeAct (a : Action) (target : Int) (guard : Int) (s : State) : State :=
  let a1 := { a with et := some target.toNat, held := false }
  let s1 := modAct a.chan a.id (fun _ => a1) s
  if target ≤ s.cue.et.toNat + 8 then passAct a1 s1
  else if guard ≤ s.cue.et.toNat then freezeAct a1 target s1
  else s1

/-- An action reaches the wheel (R264). -/
def reachWheel (c : Chan) (id : Nat) (s : State) : State :=
  match pendingAct s c id with
  | none => s
  | some a => match a.target with
    | .abs t => placeAct a t 0 s
    | .tooth t n ph =>
      let k := getTrk s t
      match k.st with
      | .off | .lost => refuseAction a fToothLoss false s
      | .acquire =>
        if ph = 0 ∧ toothStarted k n = true then passAct a s else modAct c id (fun a => { a with held := true }) s
      | .locked => placeAct a (trkTarget k n ph) (guardTick k (trkTarget k n ph)) s

/-! ## Guard windows and corrections (R134-R136) -/

/-- Target and first tick of the guard window of an unfrozen action on a LOCKED tracker. -/
def guardOf (s : State) (a : Action) : Option (Int × Int) :=
  match a.target with
  | .tooth t n ph =>
    let k := getTrk s t
    if a.frozen || a.held || k.st != .locked then none else some (trkTarget k n ph, guardTick k (trkTarget k n ph))
  | .abs _ => none

/-- The guard window of a is open: its target is frozen with the present prediction. -/
def openGuard (a : Action) (s : State) : State :=
  match guardOf s a with
  | some (t, g) => if g ≤ s.cue.et.toNat then freezeAct a t s else s
  | none => s

/-- Every guard window that is open by now. -/
def openGuards (s : State) : State := forEach openGuard (allPending s) s

/-- A correction of tracker t from k0 reaches an unfrozen action (R134): moved to now or before, it dispatches at once
with SHIFT (R136); a window that the correction opens is frozen with the prediction before it (R135). -/
def correctAct (k0 : Tracker) (t : Trk) (c : Chan) (id : Nat) (s : State) : State :=
  match pendingAct s c id with
  | none => s
  | some a => match a.target with
    | .abs _ => s
    | .tooth _ n ph =>
      if a.frozen || a.held then s
      else
        let k := getTrk s t
        let tn := trkTarget k n ph
        if tn ≤ s.cue.et.toNat then
          dispatchNow c id (modAct c id (fun a => { a with et := some tn.toNat, shift := true }) s)
        else if guardTick k tn ≤ s.cue.et.toNat then freezeAct a (trkTarget k0 n ph) s
        else modAct c id (fun a => { a with et := some tn.toNat }) s

/-- Every unfrozen action of tracker t follows a correction made to k0. -/
def correctAll (k0 : Tracker) (t : Trk) (s : State) : State :=
  forEach (fun a : Action => correctAct k0 t a.chan a.id) ((allPending s).filter (onTrk t)) s

/-- First tick at which some guard window opens. -/
def nextGuard (s : State) : Option Nat :=
  ((allPending s).filterMap fun a => (guardOf s a).map fun x => x.2.toNat).min?

/-- GUARD_OPEN (R134). -/
def execGuardOpen (s : State) : Host.Outcome State Fault Refusal :=
  .next (if !domUp s 3 then s else match nextGuard s with
    | some g => openGuards (etTo g s)
    | none => s)

/-! ## Dispatch (R140, R141) -/

/-- Tick in which the wheel first tries to dispatch the action, where it has one. -/
def actKey (a : Action) : Option Nat := if a.held then none else match a.due with | some t => some t | none => a.et

/-- Tick of the next attempt: never before now, and after this tick when its places are taken. -/
def actDue (s : State) (a : Action) : Option Nat :=
  (actKey a).map fun t => max t (if 16 ≤ placesUsed s then s.cue.et.toNat + 1 else s.cue.et.toNat)

/-- Insert by key, keeping the order of equal keys. -/
def insertKey (a : Action) : List Action → List Action
  | [] => [a]
  | b :: bs => if (actKey a).getD 0 ≤ (actKey b).getD 0 then a :: b :: bs else b :: insertKey a bs

/-- The actions due by now: slipped ones first in the order they held, then by channel and push order (R141). -/
def dueActs (s : State) : List Action :=
  ((allPending s).filter fun a => match actKey a with
    | some t => decide (t ≤ s.cue.et.toNat)
    | none => false).foldr insertKey []

/-- One of the actions due dispatches, unless an earlier one of the same tick ended it. -/
def dispatchDue (a : Action) (s : State) : State :=
  match pendingAct s a.chan a.id with
  | some b => tryDispatch b s
  | none => s

/-! ## Tooth loss (R150, R153) -/

/-- The channel is blocked in WAITTH on tracker t. -/
def waitsTooth (s : State) (t : Trk) (c : Chan) : Bool :=
  (getCh s c).st == .running && (getCh s c).blocked.isSome &&
    match presentI s c with
    | some (some (.waitth u _ _)) => u == t
    | _ => false

/-- A page uses the tracker: a named station follows it, or a named channel has actions on it or waits on it (R153). -/
def pageUsesTrk (s : State) (t : Trk) (chans : List Chan) (g : Page) : Bool :=
  g.plan.chans.any chans.contains || (allFin 4).any fun n => g.uses n.1 && (getStn s n).curTrk.toNat == t.1

/-- The channel's share of a tooth loss: one event, then the fault at its WAITTH or at its oldest discarded action. -/
def toothFault (waits : List Chan) (gone : List Action) (c : Chan) (s : State) : State :=
  if waits.contains c then chFault c fToothLoss (getCh s c).pc.shown s
  else match gone.find? (·.chan == c) with
    | some a => if liveChan s c then chFault c fToothLoss a.pc s else s
    | none => s

/-- Every pending action on tracker t is discarded, channels are told and take their fault; a fault of the tracker itself
also aborts the pages that use it. -/
def toothLoss (t : Trk) (lost : Bool) (s : State) : State :=
  let gone := (allPending s).filter (onTrk t)
  let waits := (allFin 64).filter (waitsTooth s t)
  let chans := (allFin 64).filter fun c => waits.contains c || gone.any (·.chan == c)
  let id := 122 + t.1
  let k := getTrk s t
  let code : Nat := match k.st with | .off => 0 | .acquire => 1 | .locked => 2 | .lost => 3
  let s1 := forEach (fun a : Action => fun s => endAction a 2 fToothLoss false s) gone s
  let s2 := chEvents id 0x0101 (BitVec.ofNat 32 id) chans s1
  let s3 := engine id 0x0101 id (leBytes 4 k.index.toNat ++ leBytes 2 gone.length ++ leBytes 1 code) (logEngine 0x0101 id code s2)
  let s4 := if lost then abortPages (pageUsesTrk s t chans) 5 1 s3 else s3
  forEach (toothFault waits gone) chans s4

/-! ## Edges (R125-R131) -/

/-- The receiver domain of a tracker's input (R689). -/
def trkDom (k : Tracker) : Dom := if k.src.toNat < 12 then 6 else 5

/-- The receiver of the tracker's input saw the edge accepted now, FILT ticks ago: its domain was on then, and had come on before. The
level stays as last read once the domain is off, so that the filter goes on to accept it (R689). -/
def trkReceives (s : State) (k : Tracker) : Bool :=
  let d := trkDom k
  let at_ := s.now - k.filt.toNat
  decide ((getDom s d).upAt < at_) && (domUp s d || decide (at_ < (getDom s d).downAt))

/-- Anchored to a real edge at ET x with the index advanced. -/
def anchorReal (x : Nat) (k : Tracker) : Tracker :=
  { k with
    index := k.index + 1, anchor256 := 256 * x, lastEdge := x, hasEdge := true, lastSynth := false, run := 0
    insAt := none, synthSince := 0 }

/-- The intervals after an edge accepted in ACQUIRE (R127). -/
def acqIntervals (x : Nat) (k : Tracker) : List Nat :=
  if !k.hasEdge then []
  else
    let d := x - k.lastEdge
    if trkPmin k ≤ d ∧ d ≤ trkPmax k then (256 * d :: k.ivals).take 8 else []

/-- An accepted edge in ACQUIRE: it may bring the tracker into LOCKED. -/
def acquireEdge (x : Nat) (k : Tracker) : Tracker :=
  let iv := acqIntervals x k
  let k1 := { anchorReal x k with ivals := iv }
  if trkAvg k ≤ iv.length then { k1 with st := .locked, p256 := trkMean k iv } else k1

/-- Held actions after an edge accepted in ACQUIRE: the one the edge starts dispatches now; on locking, the others reach
the wheel (R137). -/
def releaseHeld (t : Trk) (a : Action) (s : State) : State :=
  match a.target with
  | .tooth _ n ph =>
    let k := getTrk s t
    if !a.held then s
    else if ph = 0 ∧ n = k.index then dispatchNow a.chan a.id s
    else if k.st == .locked then reachWheel a.chan a.id s
    else s
  | .abs _ => s

/-- What a real edge of tracker t at ET x tells the engines: stations (R390) and stall watches (R445). -/
def edgeSeen (t : Trk) (x : Nat) (s : State) : State := stallCheck t (stationEdge t x s)

/-- An edge in ACQUIRE (R126). -/
def edgeAcquire (t : Trk) (x : Nat) (s : State) : State :=
  let k := getTrk s t
  if k.hasEdge && decide (x - k.lastEdge < trkPmin k) then modTrk t (fun k => { k with noise := satInc k.noise }) s
  else
    let s1 := edgeSeen t x (modTrk t (acquireEdge x) s)
    forEach (releaseHeld t) ((allPending s1).filter (onTrk t)) s1

/-- The edge is a late real edge of the last synthetic tooth (R128). -/
def lateEdge (k : Tracker) (x : Nat) : Bool :=
  match k.insAt with
  | some i => decide (((x : Int) - i) * 16384 < trkLatew k * k.p256)
  | none => false

/-- The tracker after a late real edge. -/
def claimLate (x : Nat) (k : Tracker) : Tracker :=
  { k with
    anchor256 := 256 * x, lastEdge := x, hasEdge := true, lateClaim := true, run := 0, lastSynth := false, insAt := none
    synthSince := 0, synthTeeth := k.synthTeeth.filter (· != k.index) }

/-- The tracker after a real tooth (R131). The interval divided by k + 1, and the mean, are rounded down to 1/256 tick (log 71). -/
def realTooth (x : Nat) (k : Tracker) : Tracker :=
  let iv := (256 * (x - k.lastEdge) / (k.synthSince + 1) :: k.ivals).take 8
  { anchorReal x k with ivals := iv, p256 := trkMean k iv }

/-- An edge in LOCKED (R128). -/
def edgeLocked (t : Trk) (x : Nat) (s0 : State) : State :=
  let s := openGuards s0
  let k := getTrk s t
  if lateEdge k x then correctAll k t (edgeSeen t x (modTrk t (claimLate x) s))
  else if (256 * (x : Int) - k.anchor256) * 64 < trkNoise k * k.p256 then modTrk t (fun k => { k with noise := satInc k.noise }) s
  else correctAll k t (edgeSeen t x (modTrk t (realTooth x) s))

/-- TRK_EDGE (R125): the filter accepts an edge now; its timestamp lies FILT ticks back. -/
def trkEdgeOp (t : Trk) (s : State) : State :=
  let k := getTrk s t
  let x := s.cue.et.toNat - k.filt.toNat
  match k.st with
  | .acquire => edgeAcquire t x s
  | .locked => edgeLocked t x s
  | _ => s

def execTrkEdge (t : Trk) (s : State) : Host.Outcome State Fault Refusal :=
  .next (whenS (domUp s 3 && trkReceives s (getTrk s t)) (fun s => endPages (withPoly (trkEdgeOp t) s)) s)

/-! ## Synthetic teeth (R129, R130) -/

/-- The tick at which the next insertion falls due. -/
def synthDue (k : Tracker) : Nat := ceilDiv (64 * k.anchor256 + trkMiss k * k.p256) 16384

/-- The tracker after an insertion that fell due at ET i. -/
def insertTooth (i : Nat) (k : Tracker) : Tracker :=
  { k with
    index := k.index + 1, anchor256 := k.anchor256 + k.p256, run := k.run + 1, lastSynth := true, synth := satInc k.synth
    insAt := some i, synthSince := k.synthSince + 1, synthTeeth := k.synthTeeth ++ [k.index + 1] }

/-- TRK_SYNTH_INSERT (R129): a synthetic tooth, or the third in a row, at which the tracker enters LOST (R130). -/
def synthOp (t : Trk) (s : State) : State :=
  let k := getTrk s t
  let i := synthDue k
  let s1 := openGuards (etTo i s)
  if 2 ≤ k.run then toothLoss t true (modTrk t (fun k => { k with st := .lost, loss := true }) s1)
  else correctAll k t (modTrk t (insertTooth i) s1)

def execTrkSynthInsert (t : Trk) (s : State) : Host.Outcome State Fault Refusal :=
  .next (whenS (domUp s 3 && (getTrk s t).st == .locked) (fun s => endPages (withPoly (synthOp t) s)) s)

/-- A synthetic tooth of tracker t falls due at or before the present tick and is inserted in it, before actions dispatch (R138). An
edge in the filter holds an insertion until the decision tick (R129); whether one is there is a free value (log 72). -/
def synthNow (t : Trk) (s : State) : State :=
  let k := getTrk s t
  let i := synthDue k
  let e := s.cue.et.toNat
  if k.st == .locked && decide (i ≤ e) then
    if i + k.filt.toNat ≤ e then synthOp t s
    else if i = e then (if bitB (freeWord s) 0 then synthOp t (useFree s) else useFree s)
    else s
  else s

/-- Every insertion of the present tick. -/
def synthAll (s : State) : State := withPoly (forEach synthNow (allFin 16)) s

/-- WHEEL_DISPATCH (R140): at the next tick in which an action is due, the wheel dispatches, after the insertions of that tick. -/
def wheelOp (s : State) : State :=
  match ((allPending s).filterMap (actDue s)).min? with
  | none => s
  | some t =>
    let s1 := synthAll (openGuards (etTo t s))
    endPages (forEach dispatchDue (dueActs s1) s1)

def execWheelDispatch (s : State) : Host.Outcome State Fault Refusal := .next (whenS (domUp s 3) wheelOp s)

/-! ## Commands of a tracker (R148, R150, R152) -/

/-- Entry to ACQUIRE: acquisition starts afresh and the index is kept. -/
def toAcquire (k : Tracker) : Tracker := { k with st := .acquire, hasEdge := false, ivals := [], insAt := none, synthSince := 0 }

/-- Unfrozen actions are held when their tracker enters ACQUIRE (R152). -/
def holdActs (t : Trk) (s : State) : State :=
  forEach (fun a : Action => if a.frozen then id else modAct a.chan a.id fun a => { a with held := true })
    ((allPending s).filter (onTrk t)) s

/-- The fields of TRK_CFG but for EN. -/
def trkFields (v : Word) (k : Tracker) : Tracker :=
  { k with
    filt := BitVec.ofNat 8 (bitsN v 31 24), avg := BitVec.ofNat 2 (bitsN v 9 8), edge := BitVec.ofNat 2 (bitsN v 6 5)
    src := BitVec.ofNat 4 (bitsN v 4 1) }

/-- EN is written 0 (R150). -/
def trkOff (t : Trk) (s : State) : State :=
  let k := getTrk s t
  let s1 := modTrk t (fun k => { k with en := false, st := .off, run := 0, lastSynth := false }) s
  if !k.en || k.st == .lost then s1 else toothLoss t false s1

/-- A write of TRK_CFG: the fields are taken while EN is 0, and EN moves the tracker. -/
def trkCfgWrite (t : Trk) (v : Word) (s : State) : State :=
  let k := getTrk s t
  if k.en then (if bitB v 0 then s else endPages (withPoly (trkOff t) s))
  else
    let s1 := modTrk t (trkFields v) s
    if bitB v 0 then
      withPoly (modTrk t fun k => { toAcquire k with en := true, run := 0, lastSynth := false, synthTeeth := [] }) s1
    else s1

/-- A write of TRK_CTL. -/
def trkCtlWrite (t : Trk) (v : Word) (s : State) : State :=
  let k := getTrk s t
  if bitB v 1 && k.st == .lost then withPoly (modTrk t fun k => { toAcquire k with run := 0, lastSynth := false }) s
  else if bitB v 0 && k.st == .locked then withPoly (fun s => holdActs t (modTrk t toAcquire s)) s
  else s

def execTrkEnable (t : Trk) (v : Word) (s : State) : Host.Outcome State Fault Refusal :=
  .next (whenS (reach s .bar0 3) (trkCfgWrite t (v ||| 1)) s)
def execTrkDisable (t : Trk) (s : State) : Host.Outcome State Fault Refusal :=
  .next (whenS (reach s .bar0 3 && (getTrk s t).en) (fun s => endPages (withPoly (trkOff t) s)) s)
def execTrkRearm (t : Trk) (s : State) : Host.Outcome State Fault Refusal :=
  .next (whenS (reach s .bar0 3) (fun s => trkCtlWrite t 2 s) s)
def execTrkReacq (t : Trk) (s : State) : Host.Outcome State Fault Refusal :=
  .next (whenS (reach s .bar0 3) (fun s => trkCtlWrite t 1 s) s)

/-- A write of TRK_GUARD: every window not yet open follows it (R148). -/
def trkGuardWrite (t : Trk) (v : Word) (s : State) : State :=
  openGuards (modTrk t (fun k => { k with guard := BitVec.ofNat 9 (bitsN v 8 0) }) (openGuards s))

/-- The live phase (R132). -/
def trkPhase (s : State) (k : Tracker) : Nat :=
  if k.st == .locked && k.p256 != 0 then min 1023 ((256 * s.cue.et.toNat - k.anchor256) * 1024 / k.p256) else 0

/-- TRK_ANCHOR_LO_READ (R129): the anchor's integer part, latched whole by the low read. -/
def execTrkAnchorLoRead (t : Trk) (s : State) : Host.Outcome State Fault Refusal :=
  .next (whenS (reach s .bar0 3) (fun s =>
    let a := (getTrk s t).anchor256 / 256
    emit (modTrk t (fun k => { k with anchorHi := BitVec.ofNat 32 (a / 2 ^ 32) }) s) (.readData (BitVec.ofNat 32 a))) s)

/-- ET_LO_READ (R147). -/
def execEtLoRead (s : State) : Host.Outcome State Fault Refusal :=
  .next (whenS (reach s .bar0 3) (fun s =>
    let e := s.cue.et.toNat
    emit (modCue (fun c => { c with etHi := BitVec.ofNat 32 (e / 2 ^ 32) }) s) (.readData (BitVec.ofNat 32 e))) s)

end Sys2Proof.Machine
end

