-- ==== Sys2Proof/Machine/Status.lean ====
section
/-!
DEFINITION. Status items of resources as MOV reads them (R259, R419, R453, R496, R531, R558), and the state codes that
registers and items share.
-/

namespace Sys2Proof.Machine

/-! ## State codes -/

def trkCode : TrkSt → Nat
  | .off => 0
  | .acquire => 1
  | .locked => 2
  | .lost => 3
def stepCode : MotSt → Nat
  | .idle => 0
  | .hold => 1
  | .moving => 2
  | .stopping => 3
  | .fault => 4
def bldcCode : MotSt → Nat
  | .moving => 1
  | .stopping => 2
  | .fault => 4
  | _ => 0
def loopCode : LoopSt → Nat
  | .off => 0
  | .run => 1
  | .cool => 2
  | .short => 3
  | .fault => 4
def beamCode : BeamSt → Nat
  | .off => 0
  | .cal => 1
  | .ready => 2
  | .fault => 3
def headCode : HeadSt → Nat
  | .off => 0
  | .ready => 1
  | .fault => 2
def scanCode : ScanSt → Nat
  | .off => 0
  | .ready => 1
  | .cal => 2
  | .fault => 3
def chCode : ChSt → Nat
  | .disarmed => 0
  | .arming => 1
  | .running => 2
  | .halted => 3
  | .faulted => 4
  | .disarming => 6
def linkCode : LinkSt → Nat
  | .down => 0
  | .train => 1
  | .up => 2
  | .fault => 3

/-- Stepper speed in 1/16 FS/s. -/
def velReg (x : StepperS) : Word := wordOf (x.vel.tdiv 200000)

/-- Oldest admitted page that names engine e. -/
def oldestPage (s : State) (e : Nat) : Option Page := (admPages s).find? (·.uses e)

/-- The next line a STROBE would be tagged with: panel and number within it. -/
def nextHeadLine (s : State) : Option (Nat × Nat) :=
  match (admPages s).find? (fun g => g.uses 4 && decide (tget g.tagged 4 < pageLines g 4)) with
  | some g => some (panelAt g.plan (tget g.tagged 4), tget g.tagged 4 % max 1 g.plan.hlines)
  | none => none

/-! ## Items -/

/-- Item i of a list of values; none is an item no chapter defines. -/
def itemOf (l : List Nat) (i : Nat) : Option Nat := l[i]?

/-- Item of a resource while its domain is on. -/
def liveItem (s : State) (id i : Nat) : Option Nat :=
  if h : id < 16 then
    let x := getStep s ⟨id, h⟩
    itemOf [(posNow s ⟨id, h⟩).toNat, (velReg x).toNat, stepCode x.st, x.q.length, x.fcause.toNat, b2n x.homed] i
  else if h : id < 20 then
    let x := getBldc s ⟨id - 16, by omega⟩
    itemOf [x.speed.toNat, (x.set_ / 200000).toNat, bldcCode x.st, x.q.length, x.fcause.toNat] i
  else if h : id < 68 then
    let x := getLoop s ⟨id - 20, by omega⟩
    itemOf [loopCode x.st, x.m.toNat, x.sp / 256, x.u.toNat, b2n x.locked, x.cause.toNat] i
  else if h : id < 84 then
    let m : Fin 16 := ⟨id - 68, by omega⟩
    let v := tget s.loops.hv m
    let duty := match (allFin 48).find? (fun l => let x := getLoop s l; x.kind == 1 && x.out.toNat == m.1 && x.st == .run) with
      | some l => (outNow s (getLoop s l)).toNat
      | none => 0
    itemOf [duty, v.vfb.toNat, v.ifb.toNat] i
  else if h : id < 88 then
    let n : Station := ⟨id - 84, by omega⟩
    let x := getStn s n
    let g := oldestPage s n.1
    itemOf [beamCode x.st, (match g with | some g => (wordOf (tget g.lptr n)).toNat | none => 0),
      (tget s.rast.staged (beamEngine n)).length, (match g with | some g => tget g.dark (beamEngine n) | none => 0), x.fcause.toNat] i
  else if id = 88 then
    itemOf [headCode s.head.st, (match nextHeadLine s with | some p => p.1 | none => 0xF),
      (match nextHeadLine s with | some p => p.2 | none => 0), (tget s.rast.staged 4).length, s.head.temp.toNat,
      s.head.hband.toNat, s.head.fcause.toNat] i
  else if id = 89 then
    itemOf [scanCode s.scan.st, s.scan.lines.toNat, s.scan.q.length, (getFl s bufFl).tally, s.scan.fcause.toNat] i
  else if h : 122 ≤ id ∧ id < 138 then
    let k := getTrk s ⟨id - 122, by omega⟩
    itemOf [k.index.toNat, trkPhase s k, trkCode k.st, k.p256 / 256] i
  else if h : 138 ≤ id ∧ id < 140 then
    let z := getZone s ⟨id - 138, by omega⟩
    itemOf [z.cause.toNat, z.priT.toNat, z.guardT.toNat, s.loops.half.toNat] i
  else none

/-- Domain of a resource (R11, R239). -/
def resDom (id : Nat) : Dom :=
  if id < 20 then 6 else if id < 84 then 7 else if id < 88 then 5 else if id = 88 then 9 else if id = 89 then 10
  else if id < 138 then 3 else 7

/-- A status item of resource id (R259): none is BAD_RES; a domain that is off reads 0. ID 0xFF is Engine Time. -/
def statusItem (s : State) (c : Chan) (id i : Nat) : Option Word :=
  if id = 0xFF then
    if i = 0 then some (BitVec.ofNat 32 s.cue.et.toNat) else if i = 1 then some (getCh s c).etHi else none
  else match liveItem s id i with
    | none => none
    | some v => if domUp s (resDom id) then some (BitVec.ofNat 32 v) else some 0

end Sys2Proof.Machine
end

