-- ==== Sys2Proof/Machine/CueBase.lean ====
section
/-!
DEFINITION. How a Cue instruction completes, blocks or faults (R210-R213, R235, R252-R256, R263, R270-R272), and the
effects of the flow, data, time and flume instructions.
-/

namespace Sys2Proof.Machine

/-! ## Faults, completion, blocking -/

/-- The present instruction of channel c faults. -/
def cueFault (c : Chan) (code : Nat) (s : State) : State := chFault c code (getCh s c).pc.shown s

/-- The channel moves to another program counter; the instruction is complete (R212, R238). -/
def moveTo (c : Chan) (lib : Bool) (off : Nat) (s : State) : State :=
  modCh c (fun x => { endBlock s.cue.et.toNat x with
    pc := { lib := lib, off := off }, pfx := none, stats := { (endBlock s.cue.et.toNat x).stats with issued := satInc x.stats.issued } }) s

/-- Branch to an offset of a region (R254). The effect f happens only where the PC stays in the region. -/
def branchTo (c : Chan) (lib : Bool) (off : Int) (f : State → State) (s : State) : State :=
  if inRegion s c lib off then moveTo c lib off.toNat (f s) else cueFault c fPcRange s

/-- The instruction completes with effect f, and the PC advances by 4. -/
def complete (c : Chan) (f : State → State) (s : State) : State :=
  let p := (getCh s c).pc
  branchTo c p.lib (p.off + 4) f s

/-- Change the flag word. -/
def modFlags (c : Chan) (f : BitVec 16 → BitVec 16) (s : State) : State := modCh c (fun x => { x with flags := f x.flags }) s

/-- WB after an instruction that has an N field: a non-blocking form that did not block clears it (R253). -/
def clearWb (c : Chan) (nb : Bool) (s : State) : State := if nb then modFlags c (setWb · false) s else s

/-- The instruction completes with effect f and, in a non-blocking form, WB 0. -/
def completeNb (c : Chan) (nb : Bool) (f : State → State) (s : State) : State := complete c (fun s => f (clearWb c nb s)) s

/-- The instruction would block: a non-blocking form completes with WB 1 and no other effect, any other waits. -/
def blockNb (c : Chan) (nb : Bool) (s : State) : State :=
  if nb then complete c (modFlags c (setWb · true)) s
  else modCh c (fun x => { x with blocked := some (x.blocked.getD s.cue.et.toNat) }) s

/-- Write a slot. -/
def setSlotOf (c : Chan) (d : Slot) (v : Word) (s : State) : State := modCh c (fun x => { x with slots := tset x.slots d v }) s

/-! ## Tallies a channel takes (R235, R263, R269-R272) -/

/-- Tallies the channel holds on a flume. -/
def heldOn (x : Channel) (f : FlumeId) : Nat := ((x.held.filter (·.1 == f)).map (·.2)).sum

/-- Change of the tallies held on a flume; a count of 0 leaves the list. -/
def setHeld (c : Chan) (f : FlumeId) (n : Nat) (s : State) : State :=
  modCh c (fun x => { x with held := x.held.filter (·.1 != f) ++ (if n = 0 then [] else [(f, n)]) }) s

/-- Flume that TAKE and GIVE name (R269). -/
def takeFlume (c : Chan) (id : Nat) : Option FlumeId :=
  if h : id < 20 then some (motFl ⟨id, h⟩)
  else if h : id < 68 then some (spFl ⟨id - 20, by omega⟩)
  else if id = 0xFE then some (actFl c)
  else if id = 0xFF then some stgFl
  else none

/-- Destination flume of an engine instruction. -/
def engineFlume : CueI → Option FlumeId
  | .move _ id _ _ | .movx _ id _ => if h : id.toNat < 20 then some (motFl ⟨id.toNat, h⟩) else none
  | .setp _ _ id _ | .ramp _ _ id _ _ _ => if h : 20 ≤ id.toNat ∧ id.toNat < 68 then some (spFl ⟨id.toNat - 20, by omega⟩) else none
  | .scanl _ _ _ => some scanFl
  | _ => none

/-- Target of a SIG. -/
def sigTarget (w : Word) : BitVec 9 := BitVec.ofNat 9 w.toNat

/-- Tallies the channel's present instruction still wants, per flume. -/
def wantsOf (s : State) (c : Chan) (i : CueI) : List (FlumeId × Nat) :=
  let x := getCh s c
  let timed := if x.pfx.isSome then [(actFl c, 1)] else []
  match i with
  | .push _ _ _ => [(stgFl, 1)]
  | .take _ id k => match takeFlume c id.toNat with
    | some f => [(f, k.toNat - (match x.taking with | some (_, n) => n | none => 0))]
    | none => []
  | .sig _ _ a _ => (sigFlume s (sigTarget (chSlot x a)), 1) :: timed
  | .log _ _ _ _ => [(logFl, 1)]
  | _ => match engineFlume i with
    | some f => (f, 1) :: timed
    | none => timed

/-- What the blocked instruction of a channel wants, per flume. -/
def blockedWants (s : State) (c : Chan) : List (FlumeId × Nat) :=
  if (getCh s c).st == .running && (getCh s c).blocked.isSome then
    match presentI s c with
    | some (some i) => wantsOf s c i
    | _ => []
  else []

/-- Tallies of f that a blocked channel wants. -/
def wantsFlume (s : State) (f : FlumeId) (c : Chan) : Nat := (((blockedWants s c).filter (·.1 == f)).map (·.2)).sum

/-- The channel's present wait is for flume f alone (R263): every other flume it pushes to has a tally, or it holds one. -/
def waitsOnlyFor (s : State) (f : FlumeId) (c : Chan) : Bool :=
  (blockedWants s c).all fun w => w.1 == f || (getFl s w.1).tally != 0 || heldOn (getCh s c) w.1 != 0

/-- Channel d goes before channel c: higher PRIORITY, then lower number (R235). -/
def goesBefore (s : State) (d c : Chan) : Bool :=
  let p := (getCh s d).entry.priority.toNat
  let q := (getCh s c).entry.priority.toNat
  decide (q < p) || (p == q && decide (d.1 < c.1))

/-- Tallies of f that blocked channels with a better claim are to have. -/
def betterWants (s : State) (c : Chan) (f : FlumeId) : Nat :=
  (((allFin 64).filter fun d => d != c && goesBefore s d c && waitsOnlyFor s f d).map (wantsFlume s f)).sum

/-- Tallies of f open to channel c now, apart from those it holds. -/
def openTallies (s : State) (c : Chan) (f : FlumeId) : Nat :=
  if (getFl s f).down then 0 else freeTally s f - betterWants s c f

/-- The channel can push one entry into f now. -/
def roomIn (s : State) (c : Chan) (f : FlumeId) : Bool := heldOn (getCh s c) f != 0 || openTallies s c f != 0

/-- A push takes a held tally first (R272). -/
def takeOne (c : Chan) (f : FlumeId) (s : State) : State :=
  let n := heldOn (getCh s c) f
  if n = 0 then takeTally f s else setHeld c f (n - 1) s

/-- A push into flumes: FLUME_DOWN where one is down (R28), a wait where one has no room, else g completes it. -/
def pushInto (c : Chan) (nb : Bool) (fl : List FlumeId) (g : State → State) (s : State) : State :=
  if fl.any fun f => (getFl s f).down then cueFault c fFlumeDown s
  else if fl.all (roomIn s c) then g s
  else blockNb c nb s

/-! ## Flow and data -/

/-- Bytes of the loaded library; 0 while CUELIB_OK is 0. -/
def libLen (s : State) : Nat := match s.boot.cuelib with | some l => l.data.length | none => 0

/-- CALL (R207, R255). -/
def callI (c : Chan) (lib : Bool) (d : BitVec 21) (s : State) : State :=
  let x := getCh s c
  let push := modCh c (fun x => { x with stack := { x.pc with off := x.pc.off + 4 } :: x.stack })
  if 4 ≤ x.stack.length then cueFault c fStack s
  else if lib then
    if 4 * d.toNat < libLen s then branchTo c true (4 * d.toNat : Nat) push s else cueFault c fNoLib s
  else branchTo c x.pc.lib (x.pc.off + 4 + dispBytes d) push s

/-- RET. -/
def retI (c : Chan) (s : State) : State :=
  match (getCh s c).stack with
  | [] => cueFault c fStack s
  | p :: _ => branchTo c p.lib p.off (modCh c fun x => { x with stack := x.stack.drop 1 }) s

/-- A relative branch. -/
def jumpI (c : Chan) (d : BitVec 21) (f : State → State) (s : State) : State :=
  let p := (getCh s c).pc
  branchTo c p.lib (p.off + 4 + dispBytes d) f s

/-- LOOP. -/
def loopI (c : Chan) (n : Slot) (d : BitVec 21) (s : State) : State :=
  let r := chSlot (getCh s c) n - 1
  if r = 0 then complete c (setSlotOf c n r) s else jumpI c d (setSlotOf c n r) s

/-- HALT (R275). Its PC advances as that of any instruction does, and must stay in the region (R254; log 18). -/
def haltI (c : Chan) (s : State) : State :=
  let p := (getCh s c).pc
  if pcrit s c then cueFault c fPageHalt s
  else if inRegion s c p.lib (p.off + 4) then
    post (mkRec s 4 (srcOf s c) 0 0 (leBytes 4 p.shown ++ List.replicate 12 0)) (.chan c)
      (modCh c (fun x => { x with st := .halted }) (moveTo c p.lib (p.off + 4) s))
  else cueFault c fPcRange s

/-- Data instructions (R257). -/
def aluI (c : Chan) (o : Alu) (d a : Slot) (b : Op2) (s : State) : State :=
  let x := getCh s c
  let r := aluOf o (chSlot x a) (op2Of x (aluSigned o) b)
  complete c (fun s => modFlags c (resultFlags · r.1 r.2.1 r.2.2) (setSlotOf c d r.1 s)) s

/-- CMP. -/
def cmpI (c : Chan) (a : Slot) (b : Op2) (s : State) : State :=
  let x := getCh s c
  let r := subFlags (chSlot x a) (op2Of x true b)
  complete c (modFlags c (resultFlags · r.1 r.2.1 r.2.2)) s

/-- LDM and STM (R258). -/
def ldmI (c : Chan) (d a : Slot) (b : Op2) (s : State) : State :=
  let x := getCh s c
  let w := chSlot x a + op2Of x true b
  if scratchOk w 4 then complete c (setSlotOf c d (BitVec.ofNat 32 (leNat (memRead x.scratch w.toNat 4)))) s
  else cueFault c fScratch s
def stmI (c : Chan) (d a : Slot) (b : Op2) (s : State) : State :=
  let x := getCh s c
  let w := chSlot x a + op2Of x true b
  if scratchOk w 4 then
    complete c (modCh c fun x => { x with scratch := memWrite x.scratch w.toNat (leBytes 4 (chSlot x d).toNat) }) s
  else cueFault c fScratch s

/-- Status read (R259); item 0 of Engine Time latches the high word. -/
def statusI (c : Chan) (d : Slot) (res item : Byte) (s : State) : State :=
  match statusItem s c res.toNat item.toNat with
  | none => cueFault c fBadRes s
  | some v =>
    complete c (fun s =>
      let s1 := if res = 0xFF ∧ item = 0 then modCh c (fun x => { x with etHi := BitVec.ofNat 32 (s.cue.et.toNat / 2 ^ 32) }) s else s
      setSlotOf c d v s1) s

/-! ## Time -/

/-- A wait completes once b holds. -/
def waitI (c : Chan) (b : Bool) (s : State) : State := if b then complete c id s else blockNb c false s

/-- WAITTH (R276). -/
def waitthI (c : Chan) (t : Trk) (n : Slot) (ph : BitVec 10) (s : State) : State :=
  let k := getTrk s t
  let w := chSlot (getCh s c) n
  match k.st with
  | .off | .lost => cueFault c fToothLoss s
  | .acquire => waitI c (ph == 0 && toothStarted k w) s
  | .locked => waitI c (decide (trkTarget k w ph ≤ s.cue.et.toNat)) s

/-- WAITEV: the head of the event queue goes to sA and sB, and its tally returns. -/
def waitevI (c : Chan) (nb : Bool) (a b : Slot) (s : State) : State :=
  match (getCh s c).evq with
  | [] => blockNb c nb s
  | e :: _ =>
    completeNb c nb (fun s => retTally (evFl c)
      (setSlotOf c b e.payload (setSlotOf c a (e.upper ++ e.code) (modCh c (fun x => { x with evq := x.evq.drop 1 }) s)))) s

/-- AT and ATTH latch a prefix for the instruction that follows (R267). -/
def prefixI (c : Chan) (p : Pfx) (f : State → State) (s : State) : State :=
  let x := getCh s c
  if inRegion s c x.pc.lib (x.pc.off + 4) then modCh c (fun x => { x with pfx := some p }) (complete c f s) else cueFault c fPcRange s
def atI (c : Chan) (pol : BitVec 2) (cpl rel : Bool) (n : Slot) (s : State) : State :=
  let x := getCh s c
  let t : DWord := if rel then x.lastAt + (chSlot x n).setWidth 64 else pairOf x n
  prefixI c { target := .abs t.toNat, pol := pol, cpl := cpl } (modCh c fun x => { x with lastAt := t }) s
def atthI (c : Chan) (pol : BitVec 2) (cpl : Bool) (t : Trk) (n : Slot) (ph : BitVec 10) (s : State) : State :=
  prefixI c { target := .tooth t (chSlot (getCh s c) n) ph, pol := pol, cpl := cpl } id s

/-! ## Flumes -/

/-- A USER record enters the staging flume. With a held tally it never waits: the tally it used is put back for the oldest
waiting record, which goes first (R317). While a RECOVER has still to create its record, the entry is kept for it until that
record has gone before (R315; log 73). -/
def postUser (c : Chan) (r : Rec) (s : State) : State :=
  let n := heldOn (getCh s c) stgFl
  if n = 0 then noteMin stgFl (post r .sheet s)
  else
    let s1 := modFl stgFl (fun x => { x with tally := x.tally + 1 }) (setHeld c stgFl (n - 1) s)
    noteMin stgFl (post r .sheet (if ordinaryWaits s1 then serveWaiting 1 s1 else s1))

/-- PUSH: a USER record of 16 scratch bytes. -/
def pushI (c : Chan) (nb : Bool) (k : Byte) (a : Slot) (s : State) : State :=
  let x := getCh s c
  let w := chSlot x a
  if !scratchOk w 16 then cueFault c fScratch s
  else if (getFl s stgFl).down then cueFault c fFlumeDown s
  else if heldOn x stgFl != 0 || (openTallies s c stgFl != 0 && !ordinaryWaits s) then
    completeNb c nb (postUser c (mkRec s 5 (srcOf s c) 0 k (memRead x.scratch w.toNat 16))) s
  else blockNb c nb s

/-- POP: the head mailbox entry to scratch. -/
def popI (c : Chan) (nb : Bool) (a : Slot) (s : State) : State :=
  let x := getCh s c
  let w := chSlot x a
  if !scratchOk w 64 then cueFault c fScratch s
  else if (getFl s (mbxFl c)).down then cueFault c fFlumeDown s
  else match x.mailbox with
    | [] => blockNb c nb s
    | e :: _ =>
      completeNb c nb (fun s => retTally (mbxFl c)
        (modCh c (fun x => { x with mailbox := x.mailbox.drop 1, scratch := memWrite x.scratch w.toNat (e.take 64) }) s)) s

/-- Limits of TAKE (R270). -/
def takeOver (s : State) (x : Channel) (f : FlumeId) (k : Nat) : Bool :=
  let limit := if f = stgFl then 16 else (getFl s f).depth
  decide (limit < heldOn x f + k) || (heldOn x f == 0 && decide (4 ≤ (x.held.filter (·.1 != f)).length))

/-- The resource of a TAKE or GIVE is not held by the channel. -/
def takeUngranted (s : State) (c : Chan) (id : Nat) : Bool := decide (id < 68) && holder s id != some c

/-- Take n tallies. -/
def takeMany (f : FlumeId) : Nat → State → State
  | 0, s => s
  | n + 1, s => takeMany f n (takeTally f s)

/-- TAKE (R271): a blocking form collects what is there and waits for the rest. -/
def takeI (c : Chan) (nb : Bool) (id k : Nat) (s : State) : State :=
  let x := getCh s c
  match takeFlume c id with
  | none => cueFault c fBadRes s
  | some f =>
    if takeUngranted s c id then cueFault c fNotGranted s
    else if k = 0 ∨ 16 < k ∨ takeOver s x f k = true then cueFault c fBadCount s
    else if (getFl s f).down then cueFault c fFlumeDown s
    else
      let got := match x.taking with | some (_, n) => n | none => 0
      let n := min (k - got) (openTallies s c f)
      if got + n = k then
        completeNb c nb (fun s => modCh c (fun x => { x with taking := none }) (setHeld c f (heldOn x f + k) (takeMany f n s))) s
      else if nb then blockNb c nb s
      else blockNb c nb (modCh c (fun x => { x with taking := some (f, got + n) }) (takeMany f n s))

/-- GIVE (R273). -/
def giveI (c : Chan) (id k : Nat) (s : State) : State :=
  let x := getCh s c
  match takeFlume c id with
  | none => cueFault c fBadRes s
  | some f =>
    if takeUngranted s c id then cueFault c fNotGranted s
    else if k = 0 ∨ 16 < k ∨ heldOn x f < k then cueFault c fBadCount s
    else complete c (fun s => retTallies f k (setHeld c f (heldOn x f - k) s)) s

/-! ## FENCE, LOG -/

/-- A segment the channel pushed is in a motor's flume or running. -/
def segsOf (s : State) (c : Chan) : Bool :=
  s.motn.step.toList.any (fun x => (x.q ++ x.cur.toList).any (·.chan == c)) ||
    s.motn.bldc.toList.any fun x => (x.q ++ x.cur.toList).any (·.chan == c)

/-- A setpoint the channel pushed has not been taken up. -/
def spsOf (s : State) (c : Chan) : Bool := s.loops.slot.toList.any fun x => x.q.any (·.chan == c)

/-- A USER record of the channel is not yet in CPQ. -/
def userOf (s : State) (c : Chan) : Bool :=
  let p := fun r : Rec => r.kind == 5 && r.src == srcOf s c
  s.host.staging.any (fun e => p e.rcd && e.cls != .gone) || s.host.waiting.any fun w => p w.rcd

/-- The channel holds a resource of a range. -/
def holdsIn (s : State) (c : Chan) (lo n : Nat) : Bool := (List.range n).any fun i => holder s (lo + i) == some c

/-- A flume that FENCE waits on is DOWN. -/
def fenceDown (s : State) (c : Chan) (k : BitVec 4) : Bool :=
  (k.getLsbD 1 && !domUp s 6 && holdsIn s c 0 20) || (k.getLsbD 2 && !domUp s 7 && holdsIn s c 20 48) ||
    (k.getLsbD 3 && (getFl s stgFl).down)

/-- FENCE. -/
def fenceI (c : Chan) (k : BitVec 4) (s : State) : State :=
  if fenceDown s c k then cueFault c fFlumeDown s
  else waitI c (!(k.getLsbD 0 && !(getCh s c).actq.isEmpty) && !(k.getLsbD 1 && segsOf s c) && !(k.getLsbD 2 && spsOf s c)
    && !(k.getLsbD 3 && userOf s c)) s

/-- LOG (R610, R611). -/
def logI (c : Chan) (stream : Fin 4) (k : Byte) (a b : Slot) (s : State) : State :=
  let x := getCh s c
  if openTallies s c logFl != 0 && s.lg.latches.isEmpty then
    complete c (fun s => takeTally logFl (modLg (fun l => { l with
      queue := l.queue ++ [
      { stream := stream, code := BitVec.ofNat 16 (0xC000 + k.toNat), src := srcOf s c, et := etNow s, aont := aont s,
        d0 := chSlot x a, d1 := chSlot x b }] }) s)) s
  else blockNb c false s

end Sys2Proof.Machine
end

