-- ==== Sys2Proof/Machine/CueEngine.lean ====
section
/-!
DEFINITION. Timed actions and the engine and coordination instructions of Cue (R239-R244, R260-R268, R277-R280, R387,
R449, R451, R489-R495, R514, R542).
-/

namespace Sys2Proof.Machine

/-! ## Issue of an engine instruction -/

/-- The late policy of an action: FAULT for a line or strobe that belongs to an admitted page (R143; an untagged one is excepted by
R389 and R515), else the prefix's, else the channel's default, whose 0 is FIRE_NOW (R144). -/
def policyOf (s : State) (c : Chan) (page : Option Word) (pol : BitVec 2) : Late :=
  let code := if pol = 0 then (getCh s c).entry.lateDef else pol
  if page.isSome then .fault
  else if code = 2 then .drop
  else if code = 3 then .fault
  else .fireNow

/-- The action a timed instruction forms (R262). -/
def newAction (s : State) (c : Chan) (p : Pfx) (op : ActOp) (page : Option Word) : Action :=
  { id := s.cue.nextId, chan := c, pc := (getCh s c).pc.shown, res := actRes op, op := op, target := p.target,
    pol := policyOf s c page p.pol, cpl := p.cpl, et := none, frozen := false, held := false, late := false, shift := false,
    slip := false, due := none, destLost := false, done := false, page := page }

/-- The page a FIRE or STROBE on engine e is tagged with (R387, R514): the oldest admitted page of the channel that names
the engine, that the channel is not done with, and that still lacks scans or lines. -/
def tagFor (s : State) (c : Chan) (e : Engine) : Option Page :=
  (admPages s).find? fun g => g.st == .admitted && g.names c && g.uses e.1 && !g.doneBy.contains c
    && decide (tget g.tagged e < lineNeed g e)

/-- A page gets one more tagged scan or line. -/
def countTag (e : Engine) (g : Option Page) (s : State) : State :=
  match g with
  | some g => modPage g.handle (fun g => { g with tagged := tmod g.tagged e (· + 1) }) s
  | none => s

/-- A new action enters its channel's queue under the next number. -/
def queueAction (c : Chan) (a : Action) (s : State) : State :=
  modCue (fun q => { q with nextId := q.nextId + 1 })
    (modCh c (fun x => { x with actq := x.actq ++ [{ a with id := s.cue.nextId, chan := c }] }) s)

/-- A timed instruction (R263, R264): both tallies in one step, then the action reaches the wheel. -/
def timedI (c : Chan) (nb : Bool) (p : Pfx) (op : ActOp) (tag : Option Page) (f : State → State) (s : State) : State :=
  pushInto c nb (actFl c :: (actDest s op).toList) (fun s =>
    let a := newAction s c p op (tag.map (·.adm))
    let x := getCh s c
    if inRegion s c x.pc.lib (x.pc.off + 4) then
      reachWheel c a.id (completeNb c nb (fun s =>
        queueAction c a (forEach (takeOne c) (actFl c :: (actDest s op).toList) (f s))) s)
    else cueFault c fPcRange s) s

/-- The fault with which a slot in SHORT, COOL or FAULT discards an untimed setpoint entry, and the entry's offset. Such a slot
takes no sample: it takes the entry up, and returns its tally, as soon as it arrives (R479, R487; log 76). -/
def entryReject (s : State) (op : ActOp) : Option (Nat × Nat) :=
  match op with
  | .setp l e | .ramp l e => (entryFault (getLoop s l)).map fun code => (code, e.pc)
  | _ => none

/-- The channel of a discarded entry takes its fault. -/
def rejectEntry (c : Chan) (code pc : Nat) (s : State) : State := if liveChan s c then chFault c code pc s else s

/-- An engine instruction: timed after a prefix, else its entry is pushed or its effect taken at the issue slot (R268).
An untimed one on a resource whose domain is off faults (R28, R242). -/
def engineI (c : Chan) (nb : Bool) (id : Nat) (op : ActOp) (s : State) : State :=
  match (getCh s c).pfx with
  | some p => timedI c nb p op none id' s
  | none => untimed
where
  id' : State → State := fun s => s
  untimed : State :=
    match actDest s op with
    | some f => pushInto c nb [f] (fun s => match entryReject s op with
      | some (code, pc) => rejectEntry c code pc (completeNb c nb (fun s => s) s)
      | none => completeNb c nb (fun s => runNow (takeOne c f s)) s) s
    | none =>
      if !domUp s (resDom id) then cueFault c fFlumeDown s
      else match op with
        | .loopon l _ => match loopOnFault s l with
          | some code => cueFault c code s
          | none => completeNb c nb runNow s
        | _ => completeNb c nb runNow s
  runNow (s : State) : State :=
    match op with
    | .seg m g _ => pushSeg m g s
    | .setp l e | .ramp l e => pushSp l e s
    | .gpio g level out => setGpio g level out (gpioDelay g s) s
    | .loopon l g => loopOnRun l g c s
    | .loopoff l => loopOffOp l s
    | _ => s

/-- Data of the preset store, when PRESET_OK is 1. -/
def presetData (s : State) : Option (List Byte) := s.boot.preset.map (·.data)

/-- Checks of every engine instruction (R241, R243, R244): the resources are held, an Expert form has the level, and for a Basic
form PRESET_OK is 1. The manual gives no order among the faults; see log 17. -/
def granted (c : Chan) (ids : List Nat) (e : Bool) (k : State → State) (s : State) : State :=
  if ids.any fun i => holder s i != some c then cueFault c fNotGranted s
  else if e && !(getCh s c).entry.expert then cueFault c fLevel s
  else if !e && s.boot.preset.isNone then cueFault c fNoPreset s
  else k s

/-! ## Motion (R449, R451) -/

/-- A stepper target may be queued: in range, and within 2^31 - 1 of the last one. -/
def targetOk (s : State) (n : Fin 16) (home : Bool) (t : Int) : Bool :=
  decide (-2147483647 ≤ t) && (home || decide ((t - (getStep s n).lastTarget).natAbs ≤ 2147483647))

/-- The segment of a MOVE, or its fault. -/
def moveSeg (s : State) (c : Chan) (m : Motor) (k : Nat) (w : Word) : Except Nat Segment :=
  match presetData s, motKind m with
  | none, _ => .error fNoPreset
  | some d, .inl n => match Config.stepProfile d k with
    | none => .error fNoPreset
    | some (vmax, acc, dec, irun, ihold, vt, home, src) =>
      if targetOk s n home w.toInt then
        .ok { target := w.toInt, home := home, homeSrc := src, vmax16 := vmax, acc := acc, dec := dec, irun := irun,
              ihold := ihold, vt := some vt, chan := c, pc := (getCh s c).pc.shown, enteredAt := 0 }
      else .error fBadSeg
  | some d, .inr _ => match Config.bldcProfile d k with
    | none => .error fNoPreset
    | some (acc, dec) =>
      if w.toNat ≤ 40000 then
        .ok { target := w.toNat, home := false, homeSrc := 0, vmax16 := 0, acc := acc, dec := dec, irun := 0, ihold := 0,
              vt := none, chan := c, pc := (getCh s c).pc.shown, enteredAt := 0 }
      else .error fBadSeg

/-- MOVE. -/
def moveI (c : Chan) (nb : Bool) (id k : Nat) (a : Slot) (s : State) : State :=
  if h : id < 20 then
    granted c [id] false (fun s => match moveSeg s c ⟨id, h⟩ k (chSlot (getCh s c) a) with
      | .error code => cueFault c code s
      | .ok g => engineI c nb id (.seg ⟨id, h⟩ g false) s) s
  else cueFault c fBadRes s

/-- A stepper descriptor is inside its ranges. -/
def stepDescOk (s : State) (n : Fin 16) (b : List Byte) : Bool :=
  let home := bitB (BitVec.ofNat 8 (fieldN b 0xE 1)) 0
  decide (16 ≤ fieldN b 4 4 ∧ fieldN b 4 4 ≤ 800000) && fieldN b 8 2 != 0 && fieldN b 0xA 2 != 0 && fieldN b 0xC 1 != 0 &&
    fieldN b 0xD 1 != 0 && decide (fieldN b 0xE 1 < 2) && bitsN (BitVec.ofNat 8 (fieldN b 0xF 1)) 6 4 == 0 &&
    (!home || decide (fieldN b 0xF 1 % 16 < 12)) && targetOk s n home (toSigned 32 (fieldN b 0 4))

/-- A BLDC descriptor is inside its ranges. -/
def bldcDescOk (b : List Byte) : Bool :=
  decide (fieldN b 0 4 ≤ 40000) && decide (1 ≤ fieldN b 4 4 ∧ fieldN b 4 4 ≤ 4000000) &&
    decide (1 ≤ fieldN b 8 2 ∧ fieldN b 8 2 ≤ 62500) && zeros b 0xA 6

/-- The segment of a MOVX descriptor; none is BAD_SEG (R451). -/
def movxSeg (s : State) (c : Chan) (m : Motor) (b : List Byte) : Option Segment :=
  match motKind m with
  | .inl n =>
    if stepDescOk s n b then
      some { target := toSigned 32 (fieldN b 0 4), home := fieldN b 0xE 1 == 1, homeSrc := BitVec.ofNat 8 (fieldN b 0xF 1),
             vmax16 := fieldN b 4 4, acc := 16 * fieldN b 8 2, dec := 16 * fieldN b 0xA 2, irun := BitVec.ofNat 8 (fieldN b 0xC 1),
             ihold := BitVec.ofNat 8 (fieldN b 0xD 1), vt := none, chan := c, pc := (getCh s c).pc.shown, enteredAt := 0 }
    else none
  | .inr _ =>
    if bldcDescOk b then
      some { target := fieldN b 0 4, home := false, homeSrc := 0, vmax16 := 0, acc := fieldN b 4 4, dec := 64 * fieldN b 8 2,
             irun := 0, ihold := 0, vt := none, chan := c, pc := (getCh s c).pc.shown, enteredAt := 0 }
    else none

/-- MOVX. -/
def movxI (c : Chan) (nb : Bool) (id : Nat) (a : Slot) (s : State) : State :=
  if h : id < 20 then
    granted c [id] true (fun s =>
      let x := getCh s c
      let w := chSlot x a
      if !scratchOk w 16 then cueFault c fScratch s
      else match movxSeg s c ⟨id, h⟩ (memRead x.scratch w.toNat 16) with
        | none => cueFault c fBadSeg s
        | some g => engineI c nb id (.seg ⟨id, h⟩ g true) s) s
  else cueFault c fBadRes s

/-! ## Loops (R461, R489, R492-R495) -/

/-- SETP to a loop slot. -/
def setpLoop (c : Chan) (nb e : Bool) (l : LoopId) (a : Slot) (s : State) : State :=
  granted c [20 + l.1] e (fun s =>
    let x := getLoop s l
    let w := chSlot (getCh s c) a
    if x.kind = 3 ∨ (e = true ∧ 4095 < w.toNat) then cueFault c fLoopCfg s
    else
      let t := if e then w.toNat else toCounts s x w.toNat
      engineI c nb (20 + l.1) (.setp l { target := t, rate := none, chan := c, pc := (getCh s c).pc.shown }) s) s

/-- SETP to a GPIO; it has no Expert form. -/
def setpGpio (c : Chan) (nb e : Bool) (g : Gpio) (a : Slot) (s : State) : State :=
  if e then cueFault c fIllegal s
  else granted c [90 + g.1] false (fun s =>
    let w := chSlot (getCh s c) a
    engineI c nb (90 + g.1) (.gpio g (bitB w 0) (bitB w 1)) s) s

/-- SETP. -/
def setpI (c : Chan) (nb e : Bool) (id : Nat) (a : Slot) (s : State) : State :=
  if h : 20 ≤ id ∧ id < 68 then setpLoop c nb e ⟨id - 20, by omega⟩ a s
  else if h : 90 ≤ id ∧ id < 122 then setpGpio c nb e ⟨id - 90, by omega⟩ a s
  else cueFault c fBadRes s

/-- A rate of v setpoint units per ms in 1/256 count per sample, with the conversion of R460 (log 23). -/
def rateCounts (s : State) (x : LoopS) (v : Nat) : Nat :=
  let per := fun scale : Nat => v * 65536 * loopPeriod x.g / (max 1 scale * 200000)
  match x.kind.toNat with
  | 1 => per (tget s.loops.hv (Fin.ofNat 16 x.out.toNat)).vscale.toNat
  | 4 =>
    if x.inp.toNat < 16 then per (tget s.loops.hv (Fin.ofNat 16 x.inp.toNat)).vscale.toNat
    else if x.inp.toNat < 32 then per (tget s.loops.hv (Fin.ofNat 16 (x.inp.toNat - 16))).iscale.toNat
    else per 256
  | 2 => (freeWord s).toNat
  | _ => per 256

/-- The setpoint entry of a RAMP, or its fault. The rate of a HEATER preset in counts is a free value (log 4). -/
def rampEntry (s : State) (c : Chan) (e : Bool) (x : LoopS) (k : Nat) (t r : Word) : Except Nat SpEntry :=
  let mk := fun target rate : Nat => ({ target := target, rate := some rate, chan := c, pc := (getCh s c).pc.shown } : SpEntry)
  if e then
    (if x.kind = 3 ∨ 4095 < t.toNat ∨ r.toNat = 0 ∨ 16777215 < r.toNat then .error fLoopCfg else .ok (mk t.toNat r.toNat))
  else match (presetData s).bind (Config.rampPreset · k) with
    | none => .error fNoPreset
    | some (kind, v) =>
      if kind ≠ x.kind then .error fNoPreset
      else if x.kind = 3 then .error fLoopCfg
      else .ok (mk (toCounts s x t.toNat) (rateCounts s x v))

/-- RAMP. -/
def rampI (c : Chan) (nb e : Bool) (id k : Nat) (a b : Slot) (s : State) : State :=
  if h : 20 ≤ id ∧ id < 68 then
    let l : LoopId := ⟨id - 20, by omega⟩
    granted c [id] e (fun s =>
      let x := getCh s c
      match rampEntry s c e (getLoop s l) k (chSlot x a) (chSlot x b) with
      | .error code => cueFault c code s
      | .ok en => engineI c nb id (.ramp l en) (if !e && (getLoop s l).kind == 2 then useFree s else s)) s
  else cueFault c fBadRes s

/-- A gain block is inside its ranges (R495). -/
def gainsOk (b : List Byte) : Bool :=
  zeros b 6 2 && decide (2000 ≤ fieldN b 8 4 ∧ fieldN b 8 4 ≤ 2000000) && decide (fieldN b 0xC 4 < fieldN b 8 4) &&
    decide (fieldN b 0x10 2 ≤ fieldN b 0x12 2 ∧ fieldN b 0x12 2 ≤ 4095) && decide (1 ≤ fieldN b 0x14 2 ∧ fieldN b 0x14 2 ≤ 4095) &&
    fieldN b 0x16 1 != 0 && decide (5 ≤ fieldN b 0x17 1 ∧ fieldN b 0x17 1 ≤ 50) &&
    decide (1 ≤ fieldN b 0x18 2 ∧ fieldN b 0x18 2 ≤ 1000) && decide (fieldN b 0x1A 1 ≤ 3) &&
    decide (1 ≤ fieldN b 0x1B 1 ∧ fieldN b 0x1B 1 ≤ 100) && zeros b 0x1C 4

/-- The gain block of 32 bytes. -/
def gainsOf (b : List Byte) : Gains :=
  { kp := BitVec.ofNat 16 (fieldN b 0 2), ki := BitVec.ofNat 16 (fieldN b 2 2), kd := BitVec.ofNat 16 (fieldN b 4 2),
    period := fieldN b 8 4, oph := fieldN b 0xC 4, omin := fieldN b 0x10 2, omax := fieldN b 0x12 2, lockTol := fieldN b 0x14 2,
    lockN := fieldN b 0x16 1, trailPct := fieldN b 0x17 1, trailWin := fieldN b 0x18 2, retry := fieldN b 0x1A 1,
    cool := fieldN b 0x1B 1, tht := none }

/-- The gain block of a Basic LOOPON (R492, R493). -/
def presetGains (s : State) (x : LoopS) (k : Nat) : Option Gains :=
  match (presetData s).bind (Config.tuningPreset · k) with
  | none => none
  | some (kind, g) =>
    if kind = x.kind then some { g with lockTol := toCounts s x g.lockTol, trailPct := 20, trailWin := 20, retry := 0 } else none

/-- Resources a LOOPON needs (R461). -/
def loopIds (x : LoopS) (id : Nat) : List Nat :=
  if x.kind = 1 then [id, 68 + x.out.toNat] else if x.kind = 2 then [id, 138 + x.out.toNat % 2] else [id]

/-- LOOPON. -/
def looponI (c : Chan) (nb e : Bool) (id k : Nat) (a : Slot) (s : State) : State :=
  if h : 20 ≤ id ∧ id < 68 then
    let l : LoopId := ⟨id - 20, by omega⟩
    granted c (loopIds (getLoop s l) id) e (fun s =>
      let x := getCh s c
      if e then
        let w := chSlot x a
        let b := memRead x.scratch w.toNat 32
        if !scratchOk w 32 then cueFault c fScratch s
        else if !gainsOk b then cueFault c fLoopCfg s
        else engineI c nb id (.loopon l (gainsOf b)) s
      else match presetGains s (getLoop s l) k with
        | none => cueFault c fNoPreset s
        | some g => engineI c nb id (.loopon l g) s) s
  else cueFault c fBadRes s

/-- LOOPOFF. -/
def loopoffI (c : Chan) (nb : Bool) (id : Nat) (s : State) : State :=
  if h : 20 ≤ id ∧ id < 68 then granted c [id] false (engineI c nb id (.loopoff ⟨id - 20, by omega⟩)) s else cueFault c fBadRes s

/-! ## FIRE, STROBE, SCANL (R261, R387, R514, R542) -/

/-- An instruction that needs a prefix. -/
def needTime (c : Chan) (k : Pfx → State → State) (s : State) : State :=
  match (getCh s c).pfx with
  | none => cueFault c fNoTime s
  | some p => k p s

/-- The tag is taken only while the channel is page-critical. -/
def tagNow (s : State) (c : Chan) (e : Engine) : Option Page := if pcrit s c then tagFor s c e else none

/-- FIRE. -/
def fireI (c : Chan) (nb : Bool) (id : Nat) (s : State) : State :=
  if h : 84 ≤ id ∧ id < 88 then
    let n : Station := ⟨id - 84, by omega⟩
    granted c [id] false (needTime c fun p s =>
      timedI c nb p (.fire n) (tagNow s c (beamEngine n)) (countTag (beamEngine n) (tagNow s c (beamEngine n))) s) s
  else cueFault c fBadRes s

/-- STROBE; a tagged one carries the index of its line. -/
def strobeI (c : Chan) (nb : Bool) (id : Nat) (s : State) : State :=
  if id = 88 then
    granted c [id] false (needTime c fun p s =>
      let g := tagNow s c 4
      timedI c nb p (.strobe (match g with | some g => tget g.tagged 4 | none => 0)) g (countTag 4 g) s) s
  else cueFault c fBadRes s

/-- SCANL: the coupled stepper must be held too. -/
def scanlI (c : Chan) (nb : Bool) (id : Nat) (k : BitVec 2) (s : State) : State :=
  if id = 89 then
    granted c [id, s.scan.mode.stepper.toNat] false (needTime c fun p s => timedI c nb p (.scanl k) none (fun s => s) s) s
  else cueFault c fBadRes s

/-! ## SIG, COMMIT, ABORT (R277-R280, R570-R574) -/

/-- The device of a target is in the enumerated chain, as this device knows it (R628). -/
def devKnown (s : State) (d : Nat) : Bool := d == devNum s || (decide (d < 8) && (d == 0 || s.skid.live.getLsbD d))

/-- SIG. -/
def sigI (c : Chan) (nb : Bool) (k : Byte) (a b : Slot) (s : State) : State :=
  let x := getCh s c
  let t := sigTarget (chSlot x a)
  let v := chSlot x b
  if (isManager s && !devKnown s (t.toNat / 64)) || !chanRuns s t then cueFault c fBadTarget s
  else match x.pfx with
    | some p => timedI c nb p (.sig t k v) none (fun s => s) s
    | none => pushInto c nb [sigFlume s t] (completeNb c nb fun s => deliverSig c t k v (takeOne c (sigFlume s t) s)) s

/-- COMMIT ADMIT on a posted plan: tested at this slot (R570). -/
def admitTest (c : Chan) (nb : Bool) (b : Slot) (g : Page) (gpio : Word) (s : State) : State :=
  let m := unmetMask s g gpio
  let s1 := modPage g.handle (fun g => { g with unmet := m }) (modCue (fun q => { q with gpioIn := gpio }) s)
  if m = 0 then completeNb c nb (fun s => setSlotOf c b s.cue.nextAdm (admitPage g s)) s1
  else if nb then complete c (fun s => setSlotOf c b (m.setWidth 32) (modFlags c (setWb · true) s)) s1
  else blockNb c nb s1

/-- COMMIT ADMIT (R279, R569, R573). -/
def admitI (c : Chan) (nb : Bool) (a b : Slot) (gpio : Word) (s : State) : State :=
  match pageByHandle s (chSlot (getCh s c) a) with
  | none => cueFault c (if (getCh s c).blocked.isSome then fPlanRejected else fBadPlan) s
  | some g =>
    if !g.names c then cueFault c fBadPlan s
    else if g.isAdm then completeNb c nb (setSlotOf c b g.adm) s
    else admitTest c nb b g gpio s

/-- COMMIT DONE (R279). -/
def doneI (c : Chan) (a : Slot) (s : State) : State :=
  match pageByAdm s (chSlot (getCh s c) a) with
  | none => cueFault c fBadPlan s
  | some g =>
    if !g.names c || g.doneBy.contains c then cueFault c fBadPlan s
    else endPages (complete c (modPage g.handle fun g => { g with doneBy := g.doneBy ++ [c] }) s)

/-- ABORT (R280). -/
def abortI (c : Chan) (a : Slot) (s : State) : State :=
  let adm := chSlot (getCh s c) a
  match pageByAdm s adm with
  | some g =>
    if g.names c then complete c (fun s => abortPages (fun h => h.adm == adm) 2 1 (modFlags c (withBit · 0 false) s)) s
    else complete c (modFlags c (withBit · 0 true)) s
  | none => complete c (modFlags c (withBit · 0 true)) s

end Sys2Proof.Machine
end

