-- ==== Sys2Proof/Machine/Cue.lean ====
section
/-!
DEFINITION. The rows of the Cue instructions: which instruction a channel issues, and one meaning per row. A row acts when
its channel is at an instruction of that row; the row of a blocked instruction is BLOCKED_INSTRUCTION_RESUME.
-/

namespace Sys2Proof.Machine

/-- The channel's core issues its instructions now (R209-R214): it is RUNNING, its core has not stopped, and no record of
its last instruction waits for staging. -/
def canIssue (s : State) (c : Chan) : Bool :=
  domUp s 3 && (getCh s c).st == .running && !s.cue.coreStopped.getLsbD (c.1 / 8) &&
    !s.host.waiting.any (fun w => w.by_ == .chan c)

/-- Instructions a prefix may stand before (R260). -/
def timable : CueI → Bool
  | .move _ _ _ _ | .movx _ _ _ | .setp _ _ _ _ | .ramp _ _ _ _ _ _ | .loopon _ _ _ _ _ | .loopoff _ _ | .fire _ _
  | .strobe _ _ | .scanl _ _ _ | .sig _ _ _ _ => true
  | _ => false

/-- JCC. -/
def jccI (c : Chan) (cc : BitVec 4) (d : BitVec 21) (s : State) : State :=
  if ccHolds cc (flagWord s c) then jumpI c d id s else complete c id s

/-- LDH keeps the lower half. -/
def ldhI (c : Chan) (d : Slot) (v : BitVec 16) (s : State) : State :=
  complete c (setSlotOf c d (v ++ (chSlot (getCh s c) d).setWidth 16)) s

/-- MOV of a slot. -/
def movI (c : Chan) (d a : Slot) (s : State) : State := complete c (setSlotOf c d (chSlot (getCh s c) a)) s

/-- MOV from and to the flag word. -/
def movFrI (c : Chan) (d : Slot) (s : State) : State := complete c (setSlotOf c d ((flagWord s c).setWidth 32)) s
def movFwI (c : Chan) (a : Slot) (s : State) : State :=
  let v := (chSlot (getCh s c) a).setWidth 16
  complete c (modFlags c (writeFlags · v)) s

/-- WAITET. -/
def waitetI (c : Chan) (n : Slot) (s : State) : State := waitI c (decide ((pairOf (getCh s c) n).toNat ≤ s.cue.et.toNat)) s

/-- One attempt of an instruction (R212, R213, R260). -/
def runI (c : Chan) (i : CueI) (gpio : Word) : State → State :=
  match i with
  | .nop => complete c id
  | .jmp d => jumpI c d id
  | .jcc cc d => jccI c cc d
  | .call lib d => callI c lib d
  | .ret => retI c
  | .loop n d => loopI c n d
  | .halt => haltI c
  | .ldi d v => complete c (setSlotOf c d (v.setWidth 32))
  | .ldh d v => ldhI c d v
  | .mov d a => movI c d a
  | .movFr d => movFrI c d
  | .movFw a => movFwI c a
  | .movSt d res item => statusI c d res item
  | .alu o d a b => aluI c o d a b
  | .cmp a b => cmpI c a b
  | .ldm d a b => ldmI c d a b
  | .stm d a b => stmI c d a b
  | .waitet n => waitetI c n
  | .waitth t n ph => waitthI c t n ph
  | .waitev nb a b => waitevI c nb a b
  | .at_ pol cpl rel n => atI c pol cpl rel n
  | .atth pol cpl t n ph => atthI c pol cpl t n ph
  | .push nb k a => pushI c nb k a
  | .pop nb a => popI c nb a
  | .take nb r k => takeI c nb r.toNat k.toNat
  | .give r k => giveI c r.toNat k.toNat
  | .move nb r k a => moveI c nb r.toNat k.toNat a
  | .movx nb r a => movxI c nb r.toNat a
  | .setp nb e r a => setpI c nb e r.toNat a
  | .ramp nb e r k a b => rampI c nb e r.toNat k.toNat a b
  | .loopon nb e r k a => looponI c nb e r.toNat k.toNat a
  | .loopoff nb r => loopoffI c nb r.toNat
  | .fire nb r => fireI c nb r.toNat
  | .strobe nb r => strobeI c nb r.toNat
  | .scanl nb r k => scanlI c nb r.toNat k
  | .sig nb k a b => sigI c nb k a b
  | .fence k => fenceI c k
  | .admitPl nb a b => admitI c nb a b gpio
  | .done a => doneI c a
  | .abort a => abortI c a
  | .log stream k a b => logI c stream k a b
  | .trap k => cueFault c (0x8000 + k.toNat)

/-- One attempt: an instruction that is not timable cannot follow a prefix. -/
def attempt (c : Chan) (i : CueI) (gpio : Word) (s : State) : State :=
  if (getCh s c).pfx.isSome && !timable i then cueFault c fBadPrefix s else runI c i gpio s

/-- The row of the instructions that k picks: its first attempt, in the channel's issue slot. -/
def issueRow (c : Chan) (k : CueI → Bool) (gpio : Word) (s : State) : State :=
  if canIssue s c && (getCh s c).blocked.isNone then
    match presentI s c with
    | some (some i) => if k i then attempt c i gpio s else s
    | _ => s
  else s

/-- ET at which a wait on time ends. -/
def waitEnd (s : State) (c : Chan) (i : CueI) : Option Nat :=
  match i with
  | .waitet n => some (pairOf (getCh s c) n).toNat
  | .waitth t n ph => if (getTrk s t).st == .locked then some (trkTarget (getTrk s t) n ph).toNat else none
  | _ => none

/-- BLOCKED_INSTRUCTION_RESUME (R213): the blocked instruction is attempted again; one that waits for a time is attempted
when ET has reached it. -/
def execBlockedInstructionResume (c : Chan) (gpio : Word) (s : State) : Host.Outcome State Fault Refusal :=
  .next (if canIssue s c && (getCh s c).blocked.isSome then
    match presentI s c with
    | some (some i) =>
      let s1 := match waitEnd s c i with | some t => etTo t s | none => s
      attempt c i gpio s1
    | _ => s
  else s)

/-- ILLEGAL_OPCODE (R250): the word at the PC is no instruction. Where no word can be fetched the PC has left its
region. -/
def execIllegalOpcode (c : Chan) (s : State) : Host.Outcome State Fault Refusal :=
  .next (if canIssue s c then
    match presentI s c with
    | some (some _) => s
    | some none => cueFault c fIllegal s
    | none => cueFault c fPcRange s
  else s)

/-- CUE_UNCORRECTABLE_ECC (R214): core k issues no more. -/
def execCueUncorrectableEcc (k : Fin 8) (s : State) : Host.Outcome State Fault Refusal :=
  .next (whenS (domUp s 3) (modCue fun q => { q with
    coreStopped := withBit q.coreStopped k.1 true, stopAt := if q.coreStopped = 0 then s.now else q.stopAt }) s)

/-! ## One meaning per row -/

/-- NOP. -/
def execNop (c : Chan) (s : State) : Host.Outcome State Fault Refusal :=
  .next (issueRow c (fun i => match i with | .nop => true | _ => false) 0 s)
/-- JMP (R254). -/
def execJmp (c : Chan) (s : State) : Host.Outcome State Fault Refusal :=
  .next (issueRow c (fun i => match i with | .jmp _ => true | _ => false) 0 s)
/-- JCC (R254). -/
def execJcc (c : Chan) (s : State) : Host.Outcome State Fault Refusal :=
  .next (issueRow c (fun i => match i with | .jcc _ _ => true | _ => false) 0 s)
/-- CALL (R207, R255). -/
def execCall (c : Chan) (s : State) : Host.Outcome State Fault Refusal :=
  .next (issueRow c (fun i => match i with | .call _ _ => true | _ => false) 0 s)
/-- RET (R207). -/
def execRet (c : Chan) (s : State) : Host.Outcome State Fault Refusal :=
  .next (issueRow c (fun i => match i with | .ret => true | _ => false) 0 s)
/-- LOOP (R254). -/
def execLoop (c : Chan) (s : State) : Host.Outcome State Fault Refusal :=
  .next (issueRow c (fun i => match i with | .loop _ _ => true | _ => false) 0 s)
/-- HALT (R275). -/
def execHalt (c : Chan) (s : State) : Host.Outcome State Fault Refusal :=
  .next (issueRow c (fun i => match i with | .halt => true | _ => false) 0 s)
/-- LDI. -/
def execLdi (c : Chan) (s : State) : Host.Outcome State Fault Refusal :=
  .next (issueRow c (fun i => match i with | .ldi _ _ => true | _ => false) 0 s)
/-- LDH. -/
def execLdh (c : Chan) (s : State) : Host.Outcome State Fault Refusal :=
  .next (issueRow c (fun i => match i with | .ldh _ _ => true | _ => false) 0 s)
/-- MOV, I = 0. -/
def execMov (c : Chan) (s : State) : Host.Outcome State Fault Refusal :=
  .next (issueRow c (fun i => match i with | .mov _ _ => true | _ => false) 0 s)
/-- MOV, flag read (R208). -/
def execMovFlagsRead (c : Chan) (s : State) : Host.Outcome State Fault Refusal :=
  .next (issueRow c (fun i => match i with | .movFr _ => true | _ => false) 0 s)
/-- MOV, flag write (R208). -/
def execMovFlagsWrite (c : Chan) (s : State) : Host.Outcome State Fault Refusal :=
  .next (issueRow c (fun i => match i with | .movFw _ => true | _ => false) 0 s)
/-- MOV, status read (R259). -/
def execMovStatus (c : Chan) (s : State) : Host.Outcome State Fault Refusal :=
  .next (issueRow c (fun i => match i with | .movSt _ _ _ => true | _ => false) 0 s)
/-- ADD (R257). -/
def execAdd (c : Chan) (s : State) : Host.Outcome State Fault Refusal :=
  .next (issueRow c (fun i => match i with | .alu .add _ _ _ => true | _ => false) 0 s)
/-- SUB (R257). -/
def execSub (c : Chan) (s : State) : Host.Outcome State Fault Refusal :=
  .next (issueRow c (fun i => match i with | .alu .sub _ _ _ => true | _ => false) 0 s)
/-- AND (R257). -/
def execAnd (c : Chan) (s : State) : Host.Outcome State Fault Refusal :=
  .next (issueRow c (fun i => match i with | .alu .and _ _ _ => true | _ => false) 0 s)
/-- OR (R257). -/
def execOr (c : Chan) (s : State) : Host.Outcome State Fault Refusal :=
  .next (issueRow c (fun i => match i with | .alu .or _ _ _ => true | _ => false) 0 s)
/-- XOR (R257). -/
def execXor (c : Chan) (s : State) : Host.Outcome State Fault Refusal :=
  .next (issueRow c (fun i => match i with | .alu .xor _ _ _ => true | _ => false) 0 s)
/-- SHL (R257). -/
def execShl (c : Chan) (s : State) : Host.Outcome State Fault Refusal :=
  .next (issueRow c (fun i => match i with | .alu .shl _ _ _ => true | _ => false) 0 s)
/-- SHR (R257). -/
def execShr (c : Chan) (s : State) : Host.Outcome State Fault Refusal :=
  .next (issueRow c (fun i => match i with | .alu .shr _ _ _ => true | _ => false) 0 s)
/-- CMP (R257). -/
def execCmp (c : Chan) (s : State) : Host.Outcome State Fault Refusal :=
  .next (issueRow c (fun i => match i with | .cmp _ _ => true | _ => false) 0 s)
/-- LDM (R258). -/
def execLdm (c : Chan) (s : State) : Host.Outcome State Fault Refusal :=
  .next (issueRow c (fun i => match i with | .ldm _ _ _ => true | _ => false) 0 s)
/-- STM (R258). -/
def execStm (c : Chan) (s : State) : Host.Outcome State Fault Refusal :=
  .next (issueRow c (fun i => match i with | .stm _ _ _ => true | _ => false) 0 s)
/-- WAITET (R213). -/
def execWaitet (c : Chan) (s : State) : Host.Outcome State Fault Refusal :=
  .next (issueRow c (fun i => match i with | .waitet _ => true | _ => false) 0 s)
/-- WAITTH (R276). -/
def execWaitth (c : Chan) (s : State) : Host.Outcome State Fault Refusal :=
  .next (issueRow c (fun i => match i with | .waitth _ _ _ => true | _ => false) 0 s)
/-- WAITEV (R22). -/
def execWaitev (c : Chan) (s : State) : Host.Outcome State Fault Refusal :=
  .next (issueRow c (fun i => match i with | .waitev _ _ _ => true | _ => false) 0 s)
/-- AT (R267). -/
def execAtPfx (c : Chan) (s : State) : Host.Outcome State Fault Refusal :=
  .next (issueRow c (fun i => match i with | .at_ _ _ _ _ => true | _ => false) 0 s)
/-- ATTH (R267). -/
def execAtthPfx (c : Chan) (s : State) : Host.Outcome State Fault Refusal :=
  .next (issueRow c (fun i => match i with | .atth _ _ _ _ _ => true | _ => false) 0 s)
/-- PUSH (R253). -/
def execPush (c : Chan) (s : State) : Host.Outcome State Fault Refusal :=
  .next (issueRow c (fun i => match i with | .push _ _ _ => true | _ => false) 0 s)
/-- POP (R253). -/
def execPop (c : Chan) (s : State) : Host.Outcome State Fault Refusal :=
  .next (issueRow c (fun i => match i with | .pop _ _ => true | _ => false) 0 s)
/-- TAKE (R271). -/
def execTake (c : Chan) (s : State) : Host.Outcome State Fault Refusal :=
  .next (issueRow c (fun i => match i with | .take _ _ _ => true | _ => false) 0 s)
/-- GIVE (R273). -/
def execGive (c : Chan) (s : State) : Host.Outcome State Fault Refusal :=
  .next (issueRow c (fun i => match i with | .give _ _ => true | _ => false) 0 s)
/-- MOVE (R263). -/
def execMove (c : Chan) (s : State) : Host.Outcome State Fault Refusal :=
  .next (issueRow c (fun i => match i with | .move _ _ _ _ => true | _ => false) 0 s)
/-- MOVX (R451). -/
def execMovx (c : Chan) (s : State) : Host.Outcome State Fault Refusal :=
  .next (issueRow c (fun i => match i with | .movx _ _ _ => true | _ => false) 0 s)
/-- SETP (R268). -/
def execSetp (c : Chan) (s : State) : Host.Outcome State Fault Refusal :=
  .next (issueRow c (fun i => match i with | .setp _ _ _ _ => true | _ => false) 0 s)
/-- RAMP (R471). -/
def execRamp (c : Chan) (s : State) : Host.Outcome State Fault Refusal :=
  .next (issueRow c (fun i => match i with | .ramp _ _ _ _ _ _ => true | _ => false) 0 s)
/-- LOOPON (R468). -/
def execLoopon (c : Chan) (s : State) : Host.Outcome State Fault Refusal :=
  .next (issueRow c (fun i => match i with | .loopon _ _ _ _ _ => true | _ => false) 0 s)
/-- LOOPOFF (R491). -/
def execLoopoff (c : Chan) (s : State) : Host.Outcome State Fault Refusal :=
  .next (issueRow c (fun i => match i with | .loopoff _ _ => true | _ => false) 0 s)
/-- FIRE (R387). -/
def execFire (c : Chan) (s : State) : Host.Outcome State Fault Refusal :=
  .next (issueRow c (fun i => match i with | .fire _ _ => true | _ => false) 0 s)
/-- STROBE (R514). -/
def execStrobe (c : Chan) (s : State) : Host.Outcome State Fault Refusal :=
  .next (issueRow c (fun i => match i with | .strobe _ _ => true | _ => false) 0 s)
/-- SCANL (R542). -/
def execScanl (c : Chan) (s : State) : Host.Outcome State Fault Refusal :=
  .next (issueRow c (fun i => match i with | .scanl _ _ _ => true | _ => false) 0 s)
/-- SIG (R277). -/
def execSig (c : Chan) (s : State) : Host.Outcome State Fault Refusal :=
  .next (issueRow c (fun i => match i with | .sig _ _ _ _ => true | _ => false) 0 s)
/-- FENCE (R252). -/
def execFence (c : Chan) (s : State) : Host.Outcome State Fault Refusal :=
  .next (issueRow c (fun i => match i with | .fence _ => true | _ => false) 0 s)
/-- COMMIT ADMIT (R570): gpio are the sampled levels. -/
def execCommitAdmit (c : Chan) (gpio : Word) (s : State) : Host.Outcome State Fault Refusal :=
  .next (issueRow c (fun i => match i with | .admitPl _ _ _ => true | _ => false) gpio s)
/-- COMMIT DONE (R279). -/
def execCommitDone (c : Chan) (s : State) : Host.Outcome State Fault Refusal :=
  .next (issueRow c (fun i => match i with | .done _ => true | _ => false) 0 s)
/-- ABORT (R280). -/
def execAbort (c : Chan) (s : State) : Host.Outcome State Fault Refusal :=
  .next (issueRow c (fun i => match i with | .abort _ => true | _ => false) 0 s)
/-- LOG (R610). -/
def execLog (c : Chan) (s : State) : Host.Outcome State Fault Refusal :=
  .next (issueRow c (fun i => match i with | .log _ _ _ _ => true | _ => false) 0 s)
/-- TRAP (R281). -/
def execTrap (c : Chan) (s : State) : Host.Outcome State Fault Refusal :=
  .next (issueRow c (fun i => match i with | .trap _ => true | _ => false) 0 s)

end Sys2Proof.Machine
end

