-- ==== Sys2Proof/Machine/Lifecycle.lean ====
section
/-!
DEFINITION. The lifecycle of a channel (06): the channel-table entry and its checks, ARM, DISARM and REFRESH, the memory of
programs, the statistics write-back, and the CMD records these commands complete with.
-/

namespace Sys2Proof.Machine

/-! ## CMD records (R301, R302, R313) -/

/-- SRC of a CMD record: the CHAN field for ARM, DISARM, REFRESH and MAIL, else 0xFFFF. -/
def cmdSrc (opc : Nat) (ch : BitVec 9) : BitVec 16 := if 1 ≤ opc ∧ opc ≤ 4 then ch.setWidth 16 else 0xFFFF

/-- A command completes with a status and fields A and B; its record carries the epoch of the decode. -/
def complCmd (q : CmdReq) (status a b : Nat) (s : State) : State :=
  post { mkRec s 1 (cmdSrc q.opc q.chanField) (BitVec.ofNat 8 status) (BitVec.ofNat 8 q.opc)
      (leBytes 4 q.tag.toNat ++ [0, 0] ++ leBytes 2 a ++ leBytes 4 b ++ [0, 0, 0, 0]) with epoch := q.epoch } .decoder s

/-- Channel a command addresses. -/
def reqChan (q : CmdReq) : Chan := Fin.ofNat 64 q.chanField.toNat

/-! ## Channel-table entries (R238, R219) -/

/-- Step 2: EVER, VALID, reserved bytes and ECRC. -/
def entryStep2 (b : List Byte) : Bool :=
  let f : Byte := BitVec.ofNat 8 (fieldN b 2 1)
  fieldN b 0 2 == 1 && bitB f 0 && decide (f.toNat < 4) && zeros b 6 2 && zeros b 0x80 60 &&
    fieldN b 0xBC 4 == (crc32c (b.take 0xBC)).toNat

/-- An offset into the program. -/
def offsetOk (v len : Nat) : Bool := v % 4 == 0 && decide (v < len)

/-- Step 3: the ranges. -/
def entryStep3 (b : List Byte) : Bool :=
  let len := fieldN b 0x10 4
  decide (fieldN b 3 1 ≤ 15) && decide (fieldN b 4 1 ≤ 3) && decide (fieldN b 5 1 ≤ 1) && fieldN b 8 8 % 4 == 0 &&
    decide (4 ≤ len ∧ len ≤ 262144) && len % 4 == 0 && offsetOk (fieldN b 0x18 4) len &&
    (fieldN b 5 1 == 0 || offsetOk (fieldN b 0x1C 4) len)

/-- The entry the bytes spell. -/
def entryOf (b : List Byte) : Entry :=
  { expert := bitB (BitVec.ofNat 8 (fieldN b 2 1)) 1
    priority := BitVec.ofNat 4 (fieldN b 3 1)
    lateDef := BitVec.ofNat 2 (fieldN b 4 1)
    handlerPol := fieldN b 5 1 == 1
    progAddr := BitVec.ofNat 64 (fieldN b 8 8)
    progLen := fieldN b 0x10 4
    progCrc := BitVec.ofNat 32 (fieldN b 0x14 4)
    entry := fieldN b 0x18 4
    handler := fieldN b 0x1C 4
    grant := BitVec.ofNat 256 (fieldN b 0x20 32)
    slots := Vector.ofFn fun i : Fin 16 => BitVec.ofNat 32 (fieldN b (0x40 + 4 * i.1) 4) }

/-- Resource IDs an entry grants. -/
def grantIds (e : Entry) : List (Fin 256) := (allFin 256).filter fun i => e.grant.getLsbD i.1

/-- The lowest granted resource that another channel holds (R221). -/
def conflictOf (s : State) (c : Chan) (e : Entry) : Option (Fin 256 × Chan) :=
  (grantIds e).findSome? fun i => match tget s.cue.grant i with
    | some d => if d = c then none else some (i, d)
    | none => none

/-! ## Cue memory (R223) -/

/-- 1 KiB pages of the program region. -/
def cuePages : Nat := 768

/-- Pages the lifecycle command in progress has allocated. -/
def lifePages (s : State) : Nat × Nat :=
  match s.cue.life with
  | some l => match l.st with
    | .program _ p n | .swap _ _ p n => (p, n)
    | .entry => (0, 0)
  | none => (0, 0)

/-- Page i is free. -/
def pageFree (s : State) (i : Nat) : Bool :=
  let inside := fun p : Nat × Nat => decide (p.1 ≤ i) && decide (i < p.1 + p.2)
  !inside (lifePages s) && s.cue.ch.toList.all fun x => !inside (x.page0, x.npages)

/-- The lowest-addressed run of n free pages: i is the next page, run the length of the free run before it. -/
def firstRun (s : State) (n : Nat) : Nat → Nat → Nat → Option Nat
  | 0, _, _ => none
  | k + 1, i, run =>
    if pageFree s i then (if run + 1 = n then some (i + 1 - n) else firstRun s n k (i + 1) (run + 1))
    else firstRun s n k (i + 1) 0

/-- Pages a program takes. -/
def pagesFor (len : Nat) : Nat := ceilDiv len 1024

/-! ## Releasing resources (R225, R229, R245) -/

/-- A granted resource returns to its disarmed state, as its chapter gives it; the others have none. -/
def disarmRes (id : Nat) (s : State) : State :=
  if h : id < 20 then stopMotor ⟨id, h⟩ .disarm s
  else if h : 20 ≤ id ∧ id < 68 then loopOffOp ⟨id - 20, by omega⟩ s
  else if h : 90 ≤ id ∧ id < 122 then
    modCue (fun q => { q with gpio := tset q.gpio ⟨id - 90, by omega⟩ GpioS.reset }) s
  else s

/-- Channel c no longer holds resource i. -/
def ungrant (i : Fin 256) (s : State) : State := modCue (fun q => { q with grant := tset q.grant i none }) s

/-- Channel c holds resource i. -/
def grantTo (c : Chan) (i : Fin 256) (s : State) : State := modCue (fun q => { q with grant := tset q.grant i (some c) }) s

/-- Resources channel c holds. -/
def heldIds (s : State) (c : Chan) : List (Fin 256) := (allFin 256).filter fun i => tget s.cue.grant i == some c

/-- Resource to which a flume belongs; none for the queues of a channel and for staging. -/
def flumeRes (f : FlumeId) : Option Nat :=
  if 0x100 ≤ f.1 ∧ f.1 < 0x114 then some (f.1 - 0x100)
  else if 0x120 ≤ f.1 ∧ f.1 < 0x150 then some (20 + (f.1 - 0x120))
  else none

/-- Held tallies on flumes of the released resources return (R274). -/
def returnFor (c : Chan) (gone : List (Fin 256)) (s : State) : State :=
  let x := getCh s c
  let p : FlumeId × Nat → Bool := fun h => match flumeRes h.1 with | some r => gone.any (·.1 == r) | none => false
  modCh c (fun x => { x with held := x.held.filter fun h => !p h })
    (forEach (fun h : FlumeId × Nat => if p h then retTallies h.1 h.2 else id) x.held s)

/-! ## Statistics (R226, R238) -/

/-- The statistics area, entry bytes 0xC0-0xFF. -/
def statBytes (x : Stats) : List Byte :=
  leBytes 8 x.etArm.toNat ++ leBytes 8 x.etDisarm.toNat ++ leBytes 8 x.issued.toNat ++ leBytes 4 x.executed.toNat ++
    leBytes 4 x.lates.toNat ++ leBytes 4 x.drops.toNat ++ leBytes 4 x.faults.toNat ++ leBytes 2 x.lastFault.toNat ++
    [x.finalState, 0] ++ leBytes 4 x.lastFpc.toNat ++ leBytes 4 x.maxBlock.toNat ++ leBytes 4 x.refreshes.toNat ++
    List.replicate 8 0

/-- Address of channel c's entry (R236). -/
def entryAddr (s : State) (c : Chan) : Nat := s.cue.ctBase.toNat / 4096 * 4096 + 256 * c.1

/-- A bus-master write: by this device, or through the manager (R648). -/
def busWrite (addr : Nat) (data : List Byte) (s : State) : State :=
  if isManager s then emit s (.hostWrite addr data)
  else sendSkid 0 (.bus (Fin.ofNat 8 (devNum s)) true (BitVec.ofNat 64 addr) data.length data) s

/-- A bus-master read: by this device, or through the manager (R236, R648). -/
def busRead (addr n : Nat) (s : State) : State :=
  if isManager s then emit s (.hostRead addr n)
  else sendSkid 0 (.bus (Fin.ofNat 8 (devNum s)) false (BitVec.ofNat 64 addr) n []) s

/-- Bus-master writes reach the host (R226, R227): over PCIe, or on a worker over its port toward the manager. -/
def busOk (s : State) : Bool := if isManager s then bar0Reach s else domUp s 11 && (tget s.skid.port 0).st == .up

/-- Whether a write-back succeeds of which no command says it; a free value (log 4). -/
def freeWb (s : State) : Bool := bitB (freeWord s) 0

/-! ## DISARM (R225-R227) -/

/-- Mailbox, event queue and latches are discarded, returning their tallies; a remote SIG that still waits counts as
dropped (R646). -/
def dropQueues (c : Chan) (s : State) : State :=
  let x := getCh s c
  let s1 := retTallies (evFl c) x.evq.length (retTallies (mbxFl c) x.mailbox.length s)
  let s2 := forEach (fun e s => emit s (.skid (sigPort s e) .ack)) x.sigWait s1
  modSkid (fun k => { k with sigDrop := satAdd k.sigDrop x.sigWait.length })
    (modCh c (fun x => { x with mailbox := [], evq := [], evLatch := [], sigWait := [] }) s2)

/-- The context after DISARM: no copy, no memory; the statistics and the fault registers stay. -/
def disarmedCtx (et : DWord) (x : Channel) : Channel :=
  { x with
    st := .disarmed, entry := Entry.empty, prog := [], page0 := 0, npages := 0, pfx := none
    stats := { x.stats with etDisarm := et, finalState := BitVec.ofNat 8 (chCode x.st) } }

/-- Steps 1-6 of DISARM. -/
def disarmSteps (c : Chan) (s : State) : State :=
  let s1 := modCh c (fun x => { endBlock s.cue.et.toNat x with pfx := none }) s
  let s2 := returnHeld c (dropQueues c (dropActs c (fun _ => true) s1))
  let ids := heldIds s c
  let s3 := forEach (fun i : Fin 256 => disarmRes i.1) ids s2
  modCh c (disarmedCtx s.cue.et) (forEach ungrant ids s3)

/-- DISARM of a channel that is to end: the steps, the write-back and the completion. -/
def disarmOp (q : CmdReq) (c : Chan) (s : State) : State :=
  let n := (getCh s c).mailbox.length
  let s1 := disarmSteps c s
  let ok := q.wbOk && busOk s1
  let s2 := if ok then busWrite (entryAddr s1 c + 0xC0) (statBytes (getCh s1 c).stats) s1 else s1
  complCmd q (if ok then 0 else 0x28) n 0 s2

/-! ## Starting a lifecycle command (R215-R218) -/

/-- RUNNING, HALTED or FAULTED. -/
def armedSt (x : Channel) : Bool := x.st == .running || x.st == .halted || x.st == .faulted

/-- A lifecycle command begins, or is refused. -/
def startLife (q : CmdReq) (s : State) : State :=
  let c := reqChan q
  let x := getCh s c
  if q.opc = 1 then
    if !s.boot.ldieDone || s.boot.mode == 2 then complCmd q 0x20 0 0 s
    else if x.st != .disarmed then complCmd q 0x03 0 0 s
    else busRead (entryAddr s c) 0xC0 (modCue (fun k => { k with life := some { req := q, chan := c, refresh := false, st := .entry } })
      (modCh c (fun x => { x with st := .arming }) s))
  else if !armedSt x then complCmd q 0x03 0 0 s
  else if pcrit s c then complCmd q 0x27 0 0 s
  else if q.opc = 2 then disarmOp q c s
  else busRead (entryAddr s c) 0xC0 (modCue (fun k => { k with life := some { req := q, chan := c, refresh := true, st := .entry } }) s)

/-- Lifecycle commands are performed one at a time, in the order in which they were taken (R215). -/
def pumpLife : Nat → State → State
  | 0, s => s
  | n + 1, s =>
    if s.cue.life.isSome then s
    else match s.host.lifeQ with
      | [] => s
      | q :: rest => pumpLife n (startLife q (modHost (fun h => { h with lifeQ := rest }) s))

/-- A channel that RECOVER disarms (R312, R313): now, or later where it is page-critical. -/
def recoverOne (v : Recov) (c : Chan) (s : State) : State :=
  let drop := modHost fun h => { h with recov := h.recov.map fun v => { v with todo := v.todo.filter (· != c) } }
  if !armedSt (getCh s c) then drop s
  else if pcrit s c then s
  else
    let q : CmdReq := { opc := 2, chanField := BitVec.ofNat 9 (devNum s * 64 + c.1), tag := 0, arg := 0, epoch := v.oldEpoch, wbOk := freeWb s }
    drop (modHost (fun h => { h with recov := h.recov.map fun v => { v with disarmed := v.disarmed + 1 } }) (disarmOp q c (useFree s)))

/-- The disarms of a RECOVER, once no lifecycle command is in progress (R310, R312). -/
def recoverDisarm (s : State) : State :=
  match s.host.recov with
  | some v => if s.cue.life.isNone && s.host.lifeQ.isEmpty then forEach (recoverOne v) v.todo s else s
  | none => s

/-- Every lifecycle command that can begin does. -/
def lifeGo (s : State) : State := recoverDisarm (pumpLife s.host.lifeQ.length s)

/-- The lifecycle command in progress ends with a status. -/
def endLife (l : Life) (status a b : Nat) (s : State) : State :=
  let s1 := modCue (fun k => { k with life := none }) s
  let s2 := if l.refresh then s1 else
    if status = 0 then s1 else modCh l.chan (fun x => { x with st := .disarmed }) s1
  lifeGo (complCmd l.req status a b s2)

/-- An ARM that fails keeps no reservation (R220). REFRESH reserves at its swap. -/
def failLife (l : Life) (status a b : Nat) (s : State) : State :=
  endLife l status a b (if l.refresh then s else forEach ungrant (heldIds s l.chan) s)

/-! ## Steps 1-6: the entry (R219) -/

/-- The checked entry takes its resources and its memory. -/
def takeEntryCopy (l : Life) (e : Entry) (s : State) : State :=
  if e.grant.toNat / 2 ^ 140 ≠ 0 then failLife l 0x23 0 0 s
  else match conflictOf s l.chan e with
    | some (i, d) => failLife l 0x24 i.1 (devNum s * 64 + d.1) s
    | none =>
      let s1 := if l.refresh then s else forEach (grantTo l.chan) (grantIds e) s
      let n := pagesFor e.progLen
      match firstRun s1 n cuePages 0 0 with
      | none => failLife l 0x25 0 0 s1
      | some p => busRead e.progAddr.toNat e.progLen (modCue (fun k => { k with life := some { l with st := .program e p n } }) s1)

/-- The lifecycle command in progress waits for its entry. -/
def entryStage (s : State) : Option Life :=
  match s.cue.life with
  | some l => match l.st with | .entry => some l | _ => none
  | none => none

/-- ARM_ENTRY_ARRIVE (R219): entry bytes 0x00-0xBF. -/
def execArmEntryArrive (data : Option (List Byte)) (s : State) : Host.Outcome State Fault Refusal :=
  .next (match entryStage s, data with
    | none, _ => s
    | some l, none => failLife l 0x21 0 0 (aerLog s)
    | some l, some b =>
      if b.length ≠ 0xC0 then s
      else if entryStep2 b && entryStep3 b then takeEntryCopy l (entryOf b) s
      else failLife l 0x22 0 0 s)

/-! ## Step 7: the program (R219, R222, R228) -/

/-- Words of a program. -/
def wordsOf : Nat → List Byte → List Word
  | 0, _ => []
  | n + 1, b => BitVec.ofNat 32 (fieldN b 0 4) :: wordsOf n (b.drop 4)

/-- Slots, PC and flags that an entry gives; PCRIT is the controller's view (R217). -/
def entryCtx (e : Entry) (ref : Bool) (x : Channel) : Channel :=
  { x with
    slots := e.slots, stack := [], flags := withBit (withBit 0 8 e.expert) 7 ref, pc := { lib := false, off := e.entry }
    pfx := none, lastAt := 0, entry := e, st := .running }

/-- The context at ARM (R206). -/
def armCtx (et : DWord) (e : Entry) (prog : List Word) (p n : Nat) (x : Channel) : Channel :=
  { entryCtx e false x with
    scratch := [], mailbox := [], evq := [], evLatch := [], sigWait := [], prog := prog, page0 := p, npages := n, etHi := 0
    blocked := none, held := [], taking := none, faultCode := 0, fpc := 0, stats := { Stats.zero with etArm := et } }

/-- ARM ends: the channel runs (R222). -/
def armDone (l : Life) (e : Entry) (prog : List Word) (p n : Nat) (s : State) : State :=
  endLife l 0 0 0 (modCh l.chan (armCtx s.cue.et e prog p n) (dropQueues l.chan s))

/-- ARM_PROGRAM_ARRIVE (R222): the PROG_LEN bytes of the program. -/
def execArmProgramArrive (data : Option (List Byte)) (s : State) : Host.Outcome State Fault Refusal :=
  .next (match s.cue.life with
    | none => s
    | some l => match l.st, data with
      | .program _ _ _, none => failLife l 0x21 0 0 (aerLog s)
      | .program e p n, some b =>
        if b.length ≠ e.progLen then s
        else if crc32c b ≠ e.progCrc then failLife l 0x26 0 0 s
        else
          let prog := wordsOf (e.progLen / 4) b
          if l.refresh then modCue (fun k => { k with life := some { l with st := .swap e prog p n } }) s
          else armDone l e prog p n s
      | _, _ => s)

/-! ## REFRESH (R228-R230) -/

/-- The context after the swap. -/
def swapCtx (et : Nat) (e : Entry) (prog : List Word) (p n : Nat) (x : Channel) : Channel :=
  let y := entryCtx e true (endBlock et x)
  { y with prog := prog, page0 := p, npages := n, stats := { y.stats with refreshes := satInc y.stats.refreshes } }

/-- The swap at an instruction boundary. -/
def swapOp (l : Life) (e : Entry) (prog : List Word) (p n : Nat) (s : State) : State :=
  let c := l.chan
  let gone := (heldIds s c).filter fun i => !e.grant.getLsbD i.1
  let s1 := returnFor c gone (returnTaking c s)
  let s2 := forEach ungrant gone (forEach (fun i : Fin 256 => disarmRes i.1) gone s1)
  let s3 := forEach (grantTo c) (grantIds e) s2
  endLife l 0 0 0 (modCh c (swapCtx s.cue.et.toNat e prog p n) s3)

/-- REFRESH_SWAP (R229, R230). -/
def execRefreshSwap (s : State) : Host.Outcome State Fault Refusal :=
  .next (match s.cue.life with
    | none => s
    | some l => match l.st with
      | .swap e prog p n => if pcrit s l.chan then endLife l 0x27 0 0 s else swapOp l e prog p n s
      | _ => s)

end Sys2Proof.Machine
end

