-- ==== Sys2Proof/Machine/Rings.lean ====
section
/-!
DEFINITION. The host interface (08): command rings and their decoder, the commands of the rings, page plans over them,
CPQ and MSI-X, RECOVER, PERST_n.
-/

namespace Sys2Proof.Machine

/-! ## The endpoint (R283) -/

/-- The vendor and device identifiers the endpoint presents: OTP PCI_VID and PCI_DID, or 0xFFFF for each where neither is
programmed. -/
def pciIds (s : State) : BitVec 16 × BitVec 16 :=
  let w := tget s.boot.otp 21
  if w = 0 then (0xFFFF, 0xFFFF) else (w.setWidth 16, w.extractLsb' 16 16)

/-- The class code the endpoint presents. -/
def pciClass : BitVec 24 := 0x088000

/-! ## MSI-X (R303, R304) -/

/-- Vector v sends its message. -/
def sendMsix (v : Fin 32) (s : State) : State :=
  emit (modRegs (fun r => { r with vecs := tset r.vecs v { count := 0, first := s.now } }) s) (.msix v)

/-- Vector of a record kind; 31 is taken as 0. -/
def kindVec (s : State) (kind : Nat) : Fin 32 :=
  let v := (tget s.host.regs.vmap (Fin.ofNat 10 (kind - 1))).toNat
  if v = 31 then 0 else Fin.ofNat 32 v

/-- Records per message. -/
def coalCount (s : State) : Nat := max 1 s.host.regs.coalCount.toNat

/-- A record of a kind has been written to CPQ. -/
def signalKind (kind : Nat) (s : State) : State :=
  let v := kindVec s kind
  let x := tget s.host.regs.vecs v
  if reservedKind kind || s.host.regs.coalTime == 0 || decide (coalCount s ≤ x.count + 1) then sendMsix v s
  else modRegs (fun r => { r with vecs := tset r.vecs v { count := x.count + 1, first := if x.count = 0 then s.now else x.first } }) s

/-- MSIX_COAL_TIMEOUT (R304). -/
def execMsixCoalTimeout (vec : Fin 32) (s : State) : Host.Outcome State Fault Refusal :=
  .next (if domUp s 1 && (tget s.host.regs.vecs vec).count != 0 then
    sendMsix vec (timeTo ((tget s.host.regs.vecs vec).first + s.host.regs.coalTime.toNat * us) s)
  else s)

/-! ## Command rings (R286-R292) -/

def ringFl (r : Ring) : FlumeId := flId r.1
def getRing (s : State) (r : Ring) : RingS := tget s.host.regs.rings r
def modRing (r : Ring) (f : RingS → RingS) (s : State) : State := modRegs (fun g => { g with rings := tmod g.rings r f }) s

/-- Entries of a ring. -/
def ringLen (x : RingS) : Nat := 2 ^ ringLog x.size.toNat

/-- Entries not yet decoded; those of a disabled ring are never decoded. -/
def ringUsed (x : RingS) : Nat := if x.en then (x.tail - x.head).toNat else 0

/-- The ring's tally follows HEAD and TAIL (R30, R288). -/
def ringTally (r : Ring) (s : State) : State :=
  let x := getRing s r
  noteMin (ringFl r) (modFl (ringFl r) (fun f => if f.down then f else
    { f with tally := ringLen x - min (ringLen x) (ringUsed x) }) s)

/-- A ring error (R290): the ring is disabled, HEAD stays, vector 31 signals. -/
def ringError (r : Ring) (err : Byte) (s : State) : State :=
  sendMsix 31 (ringTally r (modRing r (fun x => { x with en := false, err := err, held := none }) s))

/-- A write of HOST_CQn_TAIL. -/
def ringTailWrite (r : Ring) (v : Word) (s : State) : State :=
  let s1 := modRing r (fun x => { x with tail := v }) s
  let x := getRing s1 r
  if x.en && decide (ringLen x < ringUsed x) then ringError r 0x2A s1 else ringTally r s1

/-- A write of HOST_CQn_CFG: SIZE is taken while the ring is disabled, EN from 0 to 1 sets HEAD to TAIL (R286, R287). -/
def ringCfgWrite (r : Ring) (v : Word) (s : State) : State :=
  let x := getRing s r
  if x.en then ringTally r (modRing r (fun x => { x with en := bitB v 8, held := if bitB v 8 then x.held else none }) s)
  else
    let s1 := modRing r (fun x => { x with size := BitVec.ofNat 4 (bitsN v 3 0) }) s
    ringTally r (reDepth (ringFl r) (if bitB v 8 then modRing r (fun x => { x with en := true, head := x.tail }) s1 else s1))

/-- CQ_ENABLE (R287). -/
def execCqEnable (r : Ring) (v : Word) (s : State) : Host.Outcome State Fault Refusal :=
  .next (whenS (reach s .bar0 1) (ringCfgWrite r (v ||| 0x100)) s)

/-- The ring can be served. -/
def ringReady (s : State) (r : Ring) : Bool := let x := getRing s r; x.en && x.tail != x.head

/-- The ring whose turn it is (R291): the first one after the ring served last. -/
def turnRing (s : State) : Option Ring :=
  ((allFin 8).map fun k => Fin.ofNat 8 (s.host.rr.1 + 1 + k.1)).find? (ringReady s)

/-- The decoder takes from ring r now (R291, R292, R690). -/
def decodes (s : State) (r : Ring) : Bool :=
  isManager s && bar0Reach s && !s.host.regs.needrec && !s.host.waiting.any (fun w => w.by_ == .decoder) && turnRing s == some r

/-- The entry has been copied on-chip: HEAD advances and the ring's tally returns (R288). -/
def ringAdvance (r : Ring) (s : State) : State :=
  retTally (ringFl r) (modRing r (fun x => { x with head := x.head + 1, held := none }) s)

/-- CQ_READ_ERROR (R290). -/
def execCqReadError (r : Ring) (s : State) : Host.Outcome State Fault Refusal :=
  .next (whenS (decodes s r) (fun s => ringError r 0x21 (aerLog (modHost (fun h => { h with rr := r }) s))) s)

/-! ## Command entries (R293-R295) -/

def eOpc (e : List Byte) : Nat := fieldN e 0 1
def eFlags (e : List Byte) : Byte := BitVec.ofNat 8 (fieldN e 1 1)
def eChan (e : List Byte) : Nat := fieldN e 4 2
/-- Device a command names. -/
def eDev (e : List Byte) : Nat := bitsN (BitVec.ofNat 16 (eChan e)) 8 6
def eArg (e : List Byte) : Nat := fieldN e 0x10 8

/-- The command as the machinery keeps it. -/
def reqOf (s : State) (e : List Byte) (wbOk : Bool) : CmdReq :=
  { opc := eOpc e, chanField := BitVec.ofNat 9 (eChan e), tag := BitVec.ofNat 32 (fieldN e 8 4), arg := BitVec.ofNat 64 (eArg e),
    epoch := s.epoch, wbOk := wbOk }

/-- Reserved bytes and bits are 0, and ARG where its column reads 0. -/
def entryClean (e : List Byte) : Bool :=
  decide ((eFlags e).toNat < 4) && decide (eChan e < 512) && zeros e 6 2 && zeros e 0xC 4 &&
    (eOpc e == 4 || zeros e 0x18 40) && (5 ≤ eOpc e || eArg e == 0) && (eOpc e != 6 || decide (eArg e < 2 ^ 34))

/-- Status a command is refused with (R295), 0 for none. -/
def refusal (s : State) (e : List Byte) : Nat :=
  if 7 ≤ eOpc e then 0x02
  else if !entryClean e || !devKnown s (eDev e) then 0x05
  else if bitB (eFlags e) 1 && fieldN e 2 2 != s.epoch.toNat then 0x29
  else 0

/-- A command that needs no record unless CPL is 1 completes. -/
def complIfAsked (e : List Byte) (q : CmdReq) (s : State) : State := if bitB (eFlags e) 0 then complCmd q 0 0 0 s else s

/-- MAIL (R231, R294): none is a wait on the mailbox tally (R32). -/
def mailOp (e : List Byte) (q : CmdReq) (s : State) : Option State :=
  let c := reqChan q
  if (getCh s c).st != .running then some (complCmd q 0x03 0 0 s)
  else if hasTally s (mbxFl c) then
    some (complIfAsked e q (takeTally (mbxFl c) (modCh c (fun x => { x with mailbox := x.mailbox ++ [e] }) s)))
  else none

/-- Withdrawal or abort of a page by the host (R568, R589). -/
def pageAbortOp (q : CmdReq) (s : State) : State :=
  let n : Word := q.arg.setWidth 32
  if bitB q.arg 33 then
    match pageByHandle s n with
    | some g => if g.isAdm then complCmd q 0x33 0 0 s else complCmd q 0 0 0 (rejectWithPartner 3 g s)
    | none => complCmd q 0x33 0 0 s
  else match pageByAdm s n with
    | none => complCmd q 0x33 0 0 s
    | some g =>
      let jam := bitB q.arg 32
      let moved := jam && exitAborting g
      let s1 := abortPages (fun h => h.adm == n) 1 (if jam then 2 else 1) s
      let s2 := if moved then
        formMotion 2 g (modPage g.handle (fun g => { g with form := 2 }) s1) else s1
      complCmd q 0 0 0 s2

/-- A command for this device takes effect; none is a command that must wait. -/
def runCmd (e : List Byte) (wbOk : Bool) (s : State) : Option State :=
  let q := reqOf s e wbOk
  let r := refusal s e
  if r ≠ 0 then
    some (complCmd q r 0 0 s)
  else match eOpc e with
    | 0 => some (complIfAsked e q s)
    | 4 => mailOp e q s
    | 5 => some (busRead (eArg e) 192 (modHost (fun h => { h with planQ := h.planQ ++ [q] }) s))
    | 6 => some (pageAbortOp q s)
    | _ => some (lifeGo (modHost (fun h => { h with lifeQ := h.lifeQ ++ [q] }) s))

/-- A command whose CHAN names an enumerated worker goes to that worker's decoder (R643). -/
def forwards (s : State) (e : List Byte) : Bool := isManager s && decide (eChan e < 512) && eDev e != 0 && devKnown s (eDev e)

/-- Forwarding waits on the skid transmit tally (R643). -/
def forwardCmd (e : List Byte) (s : State) : Option State :=
  if hasTally s (skidFl 1) && (tget s.skid.port 1).waiting.isEmpty then
    some (skidPushed 1 (.cmd (Fin.ofNat 8 (eDev e)) e) (takeTally (skidFl 1) s))
  else none

/-- Flume an entry waits for: the mailbox of the channel it names, or the skid transmit flume (R32, R643). -/
def entryFlume (s : State) (e : List Byte) : FlumeId := if forwards s e then skidFl 1 else mbxFl (Fin.ofNat 64 (eChan e))

/-- The decoder's turn at ring r with entry e of a row whose OPC p picks. A command that must wait keeps its place, and the
turn passes on (R32, R291). -/
def ringRow (p : Nat → Bool) (r : Ring) (e : List Byte) (wbOk : Bool) (s : State) : State :=
  if decodes s r && e.length == 64 && p (eOpc e) then
    let s1 := modHost (fun h => { h with rr := r }) s
    match (if forwards s e then forwardCmd e (ringAdvance r s1) else runCmd e wbOk (ringAdvance r s1)) with
    | some t => t
    | none => modRing r (fun x => { x with held := some (entryFlume s e) }) s1
  else s

/-- CMD_NOP (R295). -/
def execCmdNop (r : Ring) (e : List Byte) (s : State) : Host.Outcome State Fault Refusal := .next (ringRow (· == 0) r e true s)
/-- CMD_ARM (R218). -/
def execCmdArm (r : Ring) (e : List Byte) (s : State) : Host.Outcome State Fault Refusal := .next (ringRow (· == 1) r e true s)
/-- CMD_DISARM (R225). -/
def execCmdDisarm (r : Ring) (e : List Byte) (wbOk : Bool) (s : State) : Host.Outcome State Fault Refusal :=
  .next (ringRow (· == 2) r e wbOk s)
/-- CMD_REFRESH (R228). -/
def execCmdRefresh (r : Ring) (e : List Byte) (s : State) : Host.Outcome State Fault Refusal := .next (ringRow (· == 3) r e true s)
/-- CMD_MAIL (R294). -/
def execCmdMail (r : Ring) (e : List Byte) (s : State) : Host.Outcome State Fault Refusal := .next (ringRow (· == 4) r e true s)
/-- CMD_PLAN (R564). -/
def execCmdPlan (r : Ring) (e : List Byte) (s : State) : Host.Outcome State Fault Refusal := .next (ringRow (· == 5) r e true s)
/-- CMD_PAGE_ABORT (R589). -/
def execCmdPageAbort (r : Ring) (e : List Byte) (s : State) : Host.Outcome State Fault Refusal :=
  .next (ringRow (· == 6) r e true s)
/-- CMD_BAD (R295). -/
def execCmdBad (r : Ring) (e : List Byte) (s : State) : Host.Outcome State Fault Refusal :=
  .next (ringRow (fun o => decide (7 ≤ o)) r e true s)

/-! ## Page plans arrive (R563-R568) -/

/-- Status of a plan (R564) whose address is a; none is a failed read. -/
def planVerdict (s : State) (a : Nat) (d : Option (List Byte)) : Nat :=
  match d with
  | none => 0x21
  | some _ => if a % 64 ≠ 0 then 0x31 else planStatus s d

/-- The plan is accepted, or refused. With PD3 off there is no plan table and the status is a free value (log 4). -/
def planArrived (q : CmdReq) (d : Option (List Byte)) (s : State) : State :=
  if !domUp s 3 then complCmd q (bitsN (freeWord s) 7 0) 0 0 (useFree s)
  else
    let st := planVerdict s q.arg.toNat d
    match st, d, freePlan s with
    | 0, some b, some ix => let h := s.cue.nextHdl.toNat; acceptPlan ix (planOf b) (complCmd q 0 0 h s)
    | _, _, _ => complCmd q st 0 0 (if d.isNone then aerLog s else s)

/-- PLAN_ARRIVE (R564). -/
def execPlanArrive (data : Option (List Byte)) (s : State) : Host.Outcome State Fault Refusal :=
  .next (match s.host.planQ with
    | [] => s
    | q :: rest =>
      if data.any (·.length != 192) then s
      else planArrived q data (modHost (fun h => { h with planQ := rest }) s))

/-! ## CPQ (R296-R301) -/

/-- Log of the number of CPQ records. -/
def cpqLog (s : State) : Nat := clampN 6 16 s.host.regs.cpqSize.toNat

/-- The 32 bytes of a record. -/
def recBytes (r : Rec) (phase : Bool) : List Byte :=
  [BitVec.ofNat 8 (b2n phase), BitVec.ofNat 8 r.kind] ++ leBytes 2 r.epoch.toNat ++ leBytes 2 r.src.toNat ++
    [r.status, r.xb] ++ leBytes 8 r.et.toNat ++ (r.body ++ List.replicate 16 0).take 16

/-- An entry of the staging flume is free again (R30). A reserved one serves a waiting record of its device at once (R31). -/
def freeStg (x : StgEntry) (s : State) : State :=
  let s1 := match x.cls with
    | .general => retTally stgFl s
    | .own => serveWaiting s.host.waiting.length (modHost (fun h => { h with resFree := h.resFree + 1 }) s)
    | .worker d =>
      if s.skid.live.getLsbD d.1 then
        serveWaiting s.host.waiting.length (modHost (fun h => { h with wresFree := tmod h.wresFree d (· + 1) }) s)
      else s
    | .gone => s
  if x.aon then retTally aonFl s1 else s1

/-- A write of HOST_CPQ_CFG (R296). -/
def cpqCfgWrite (v : Word) (s : State) : State :=
  let r := s.host.regs
  if r.cpqEn then modRegs (fun r => { r with cpqEn := bitB v 8 }) s
  else modRegs (fun r => { r with
    cpqSize := BitVec.ofNat 5 (bitsN v 4 0), cpqEn := bitB v 8
    cpqTail := if bitB v 8 then 0 else r.cpqTail, cpqHead := if bitB v 8 then 0 else r.cpqHead }) s

/-- CPQ_ENABLE (R296). -/
def execCpqEnable (v : Word) (s : State) : Host.Outcome State Fault Refusal :=
  .next (whenS (reach s .bar0 1) (cpqCfgWrite (v ||| 0x100)) s)

/-- CPQ has room for a record (R297, R300). -/
def cpqRoom (s : State) : Bool :=
  let r := s.host.regs
  r.cpqEn && decide ((r.cpqTail - r.cpqHead).toNat < 2 ^ cpqLog s)

/-- The RECOVER record has been written: RECBUSY clears, and NEEDREC unless an exit from PERST_n set it since; the loss it
carries is told (R315, R316, R691). -/
def recoverWritten (r : Rec) (s : State) : State :=
  match s.host.recov with
  | some v =>
    let s1 := modHost (fun h => { h with
      recov := none
      regs := { h.regs with needrec := h.regs.needrec && v.perstAfter } }) s
    if bitB r.xb 2 then modAon (fun a => { a with lost := false }) s1 else s1
  | none => s

/-- The first staged record is written to CPQ. -/
def cpqWrite (x : StgEntry) (rest : List StgEntry) (s : State) : State :=
  let g := s.host.regs
  let k := cpqLog s
  let t := g.cpqTail.toNat
  let addr := g.cpqBase.toNat / 4096 * 4096 + 32 * (t % 2 ^ k)
  let b := recBytes x.rcd (decide (t % 2 ^ (k + 1) < 2 ^ k))
  let s1 := modHost (fun h => { h with staging := rest, regs := { h.regs with cpqTail := h.regs.cpqTail + 1 } }) s
  let s2 := emit (emit (freeStg x s1) (.hostWrite (addr + 1) (b.drop 1))) (.hostWrite addr (b.take 1))
  signalKind x.rcd.kind (if x.rcd.kind = 10 then recoverWritten x.rcd s2 else s2)

/-- Records of this worker that are on their way to the manager. -/
def sentRecs (s : State) : Nat :=
  let p := tget s.skid.port 0
  ((p.unacked ++ p.waiting).filter fun f => match f with | .record d _ => d.1 == devNum s | _ => false).length

/-- SRC of a worker's record that has no channel (R644). -/
def workerRec (s : State) (r : Rec) : Rec := if r.src = 0xFFFF then { r with src := BitVec.ofNat 16 (0xFF00 + devNum s) } else r

/-- A worker sends its first unsent record to the manager (R644): the staging entry is kept until it is acknowledged. -/
def recordForward (s : State) : State :=
  match s.host.staging.drop (sentRecs s) with
  | x :: _ =>
    if hasTally s (skidFl 0) then
      skidPushed 0 (.record (Fin.ofNat 8 (devNum s)) (recBytes (workerRec s x.rcd) false)) (takeTally (skidFl 0) s)
    else s
  | [] => s

/-- CPQ_RECORD_WRITE (R297, R298, R644). -/
def execCpqRecordWrite (s : State) : Host.Outcome State Fault Refusal :=
  .next (if isManager s then
    match s.host.staging with
    | x :: rest => if bar0Reach s && cpqRoom s then cpqWrite x rest s else s
    | [] => s
  else recordForward s)

/-! ## Sheet records -/

/-- SHEET_RECORD_STAGE (R578); a channel that RECOVER is to disarm may now be page-critical no longer (R312). -/
def execSheetRecordStage (s : State) : Host.Outcome State Fault Refusal := .next (recoverDisarm (sheetStage s))

/-! ## RECOVER (R309-R316, R657, R691) -/

/-- Records of the old epoch but for SHEET and SHEET_ABORT. -/
def discardable (n : BitVec 16) (x : StgEntry) : Bool := x.rcd.epoch == n && x.rcd.kind != 6 && x.rcd.kind != 7

/-- R314 with MODE at 1. On a worker the first entries have been sent: what is discarded among them keeps its place until its
frame is acknowledged (R644, R657). -/
def discardStaged (n : BitVec 16) (s : State) : State :=
  let k := if isManager s then 0 else sentRecs s
  let gone := s.host.staging.filter fun x => discardable n x && x.cls != .gone
  forEach freeStg gone (modHost (fun h => { h with
    staging := (h.staging.take k).map (fun x => if discardable n x then { x with cls := .gone, aon := false } else x) ++
      (h.staging.drop k).filter (!discardable n ·)
    recov := h.recov.map fun v => { v with discarded := v.discarded + gone.length } }) s)

/-- Admitted pages that a RECOVER aborts (R311). -/
def toAbort (s : State) : Nat := (s.cue.pages.filter fun g => g.isAdm && g.st != .aborting).length

/-- Steps R310-R314 at T, where the epoch becomes `new`. -/
def recoverAt (new : BitVec 16) (disarm discard : Bool) (workers : BitVec 8) (s : State) : State :=
  let n := s.epoch
  let later := s.host.lifeQ.map reqChan
  let todo := if disarm then (allFin 64).filter fun c => (getCh s c).st != .disarmed || later.contains c else []
  let v : Recov :=
    { oldEpoch := n, discard := discard, disarm := disarm, pagesAborted := toAbort s, discarded := 0, disarmed := 0,
      todo := todo, workers := workers, made := false, perstAfter := false }
  let s1 := modHost (fun h => { h with
    recov := some v, regs := { h.regs with rings := h.regs.rings.map fun x => { x with en := false } } }) { s with epoch := new }
  let s2 := if discard then discardStaged n s1 else s1
  recoverDisarm (abortPages (fun _ => true) 7 1 (forEach ringTally (allFin 8) s2))

/-- A write of HOST_RECOVER (R309, R310). -/
def recoverWrite (v : Word) (s : State) : State :=
  if !bitB v 0 then s
  else if s.host.recov.isSome then sendMsix 31 (modRegs (fun r => { r with recRefused := true }) s)
  else
    let disarm := bitB v 2
    let discard := bitB v 1
    let s1 := recoverAt (s.epoch + 1) disarm discard s.skid.live s
    forEach (fun d : Fin 8 => if s.skid.live.getLsbD d.1 then sendSkid 1 (.recover d s1.epoch disarm discard) else id) (allFin 8) s1

/-- RECOVER (R310): only a manager has a host. -/
def execRecover (v : Word) (s : State) : Host.Outcome State Fault Refusal :=
  .next (whenS (reach s .bar0 1 && isManager s) (recoverWrite (v ||| 1)) s)

/-- Something of the old epoch is still to be staged (R315). -/
def oldLeft (s : State) (n : BitVec 16) : Bool :=
  (match s.cue.life with | some l => l.req.epoch == n | none => false) || (s.host.lifeQ ++ s.host.planQ).any (·.epoch == n) ||
    s.cue.pages.any (fun g => g.isAdm && g.epoch == n) || s.host.waiting.any fun w => w.rcd.epoch == n

/-- Every step of the RECOVER is done. -/
def recoverDone (s : State) (v : Recov) : Bool := !v.made && v.todo.isEmpty && v.workers == 0 && !oldLeft s v.oldEpoch

/-- The RECOVER record (R301). -/
def recoverRec (s : State) (v : Recov) : Rec :=
  mkRec s 10 0xFFFF 0 (BitVec.ofNat 8 (bitsOf [v.discard, v.disarm, s.aon.lost]))
    (leBytes 2 v.oldEpoch.toNat ++ leBytes 2 v.pagesAborted ++ leBytes 4 v.discarded ++ leBytes 1 v.disarmed ++ List.replicate 7 0)

/-- The record is created and staged, and the records of the new epoch may follow. -/
def recoverMake (v : Recov) (s : State) : State :=
  let s1 := post (recoverRec s v) .sheet (modHost (fun h => { h with recov := some { v with made := true } }) s)
  serveWaiting s1.host.waiting.length s1

/-- A worker replies DONE once its kept records of the old epoch have been sent (R657). -/
def recoverReply (v : Recov) (s : State) : State :=
  if s.host.staging.any fun x => x.rcd.epoch == v.oldEpoch && x.cls != .gone then s
  else
    let s1 := sendSkid 0 (.recoverDone (Fin.ofNat 8 (devNum s))) (modHost (fun h => { h with recov := none }) s)
    serveWaiting s1.host.waiting.length s1

/-- RECOVER_RECORD (R315, R657). -/
def execRecoverRecord (s : State) : Host.Outcome State Fault Refusal :=
  .next (match s.host.recov with
    | some v =>
      if !recoverDone s v then s
      else if !isManager s then recoverReply v s
      else if (stgRoom s 10 none).isNone then s
      else recoverMake v s
    | none => s)

/-! ## PERST_n (R307, R308, R691) -/

/-- Ring flumes follow their registers. -/
def ringFlumes (s : State) : State := forEach (fun r : Ring => fun s => ringTally r (reDepth (ringFl r) s)) (allFin 8) s

/-- PERST_ASSERT (R307). -/
def execPerstAssert (s : State) : Host.Outcome State Fault Refusal :=
  .next (whenS (!s.aon.por) (fun s => ringFlumes (modHost (fun h => { h with perst := false, regs := HostR.reset }) s)) s)

/-- PERST_RELEASE (R308, R691). -/
def execPerstRelease (s : State) : Host.Outcome State Fault Refusal :=
  .next (whenS (!s.aon.por) (modHost fun h => { h with
    perst := true, regs := { h.regs with needrec := true }
    recov := h.recov.map fun v => { v with perstAfter := true } }) s)

end Sys2Proof.Machine
end

