-- ==== Sys2Proof/Machine/Boot.lean ====
section
/-!
DEFINITION. Boot (05): AON power-on reset and the ORD tables (03), the boot modes, images and their checks, slots, trial and
fallback, OTP and the rollback count, sheet clear.
-/

namespace Sys2Proof.Machine

/-! ## OTP (R193-R196) -/

/-- OTP with the first n bits of RB set. -/
def otpRaised (n : Nat) (v : Vector Word 32) : Vector Word 32 :=
  let word := fun lo : Nat => BitVec.ofNat 32 (bitsOf ((List.range 32).map fun i => decide (lo + i < n)))
  tmod (tmod v 24 (· ||| word 0)) 25 (· ||| word 32)

/-- OTP as it reads: an advance of the rollback count shows at once, while its bits are being programmed (R194, log 59). -/
def otpNow (b : Boot) : Vector Word 32 :=
  match b.rbRun with
  | some (n, _) => otpRaised n b.otp
  | none => b.otp

def otpWord (s : State) (w : Nat) : Word := if h : w < 32 then tget (otpNow s.boot) ⟨w, h⟩ else 0

/-- Words w to w + n - 1 of OTP as bytes. -/
def otpBytes (s : State) (w n : Nat) : List Byte := (List.range n).flatMap fun k => leBytes 4 (otpWord s (w + k)).toNat

/-- The number of consecutive 1 bits of a list. -/
def leadingOnes : List Bool → Nat
  | true :: l => leadingOnes l + 1
  | _ => 0

/-- The rollback count that OTP words hold, and the count as it reads. -/
def rbOf (v : Vector Word 32) : Nat :=
  leadingOnes ((List.range 64).map fun i => (tget v (if i < 32 then 24 else 25)).getLsbD (i % 32))
def rbCount (s : State) : Nat := rbOf (otpNow s.boot)

/-- Bits of a word that BOOT_OTP_* may program. -/
def otpMask (w : Nat) : Word :=
  if 12 ≤ w ∧ w < 20 then 0xFFFFFFFF else if w = 20 then 0xFFFF else if w = 21 ∨ w = 22 then 0xFFFFFFFF
  else if w = 23 then 1 else 0

/-- PROG (R195, R196). -/
def otpProgOp (s : State) : State :=
  let w := s.boot.otpAddr.toNat
  if otpMask w = 0 ∨ s.lock = true ∨ inRecovery s = true then modBoot (fun b => { b with otpRefused := true }) s
  else modBoot (fun b => { b with
    otp := tmod b.otp (Fin.ofNat 32 w) (· ||| (b.otpData &&& otpMask w)), otpRefused := false }) s

/-- OTP_PROG (R196). -/
def execOtpProg (p : Port) (s : State) : Host.Outcome State Fault Refusal := .next (whenS (reach s p 0) otpProgOp s)

/-! ## Image headers (R173-R176) -/

def hMagic (h : List Byte) : Nat := fieldN h 0 4
def hPart (h : List Byte) : Nat := fieldN h 6 1
def hFlags (h : List Byte) : Byte := BitVec.ofNat 8 (fieldN h 7 1)
def hIface (h : List Byte) : Nat := fieldN h 0x14 2
def hRb (h : List Byte) : Nat := fieldN h 0x1A 1
def hNblk (h : List Byte) : Nat := fieldN h 0x1C 2
def hLen (h : List Byte) : Nat := fieldN h 0x28 4

/-- Blocks a part may have. -/
def maxBlk (part : Nat) : Nat := if part = 1 then 15 else if part = 2 then 64 else if part = 3 then 16 else 0

/-- Bytes of the CRC table with its padding (R172). -/
def tblLen (h : List Byte) : Nat := ceilDiv (4 * hNblk h) 64 * 64

/-- Bytes before the signature. -/
def bodyLen (h : List Byte) : Nat := 256 + tblLen h + 4096 * hNblk h

/-- The key hash KEYSEL selects. -/
def keyHash (s : State) (h : List Byte) : List Byte := if bitB (hFlags h) 1 then otpBytes s 12 8 else otpBytes s 4 8

/-- R175. -/
def keyOk (s : State) (h : List Byte) : Bool :=
  let k := keyHash s h
  !(k.all (· == 0)) && !(!bitB (hFlags h) 1 && bitB (otpWord s 23) 0) && (sha512 (slice h 0x40 32)).take 32 == k

/-- Check 1 fails. -/
def badHeader (h : List Byte) : Bool :=
  decide (fieldN h 0xFC 4 ≠ (crc32c (h.take 0xFC)).toNat ∨ hMagic h ≠ 0x4E52494D ∨ fieldN h 4 2 ≠ 1 ∨ hNblk h = 0 ∨
    maxBlk (hPart h) < hNblk h)

/-- Checks 1-5 (R176): the status of the first failure, 0 for none. -/
def headerCheck (s : State) (h : List Byte) : Nat :=
  if badHeader h then 0x10
  else if fieldN h 8 2 ≠ 0x9640 ∨ 0xB0 < fieldN h 0x0A 1 ∨ fieldN h 0x0B 1 < 0xB0 ∨
      (fieldN h 0x0C 2 ≠ 0 ∧ fieldN h 0x0C 2 ≠ (otpWord s 20).toNat % 65536) then 0x11
  else if slice h 0x30 16 ≠ (if bitB (hFlags h) 0 then otpBytes s 0 4 else List.replicate 16 0) then 0x12
  else if hRb h < rbCount s then 0x13
  else if !keyOk s h then 0x14
  else 0

/-- Block i of an image (bytes from the header on). -/
def blockOf (img : List Byte) (i : Nat) : List Byte := slice img (256 + tblLen img + 4096 * i) 4096

/-- Check 6 of block i. -/
def imgBlockOk (img : List Byte) (i : Nat) : Bool := fieldN img (256 + 4 * i) 4 == (crc32c (blockOf img i)).toNat

/-- The first bad block from i on, of k. -/
def badBlock (img : List Byte) : Nat → Nat → Option Nat
  | _, 0 => none
  | i, k + 1 => if imgBlockOk img i then badBlock img (i + 1) k else some i

/-- Check 7 (R174). -/
def signatureOk (img : List Byte) : Bool :=
  let n := bodyLen img
  ed25519Verify (slice img 0x40 32) (sha512 (img.take n)) (slice img n 64)

/-- One header's window holds the other's interface level. -/
def windowHolds (h other : List Byte) : Bool := decide (fieldN h 0x16 2 ≤ hIface other ∧ hIface other ≤ fieldN h 0x18 2)

/-- Headers of the parts active on this device, but for part k (R185). On a worker of a running chain the manager's active Keeper
is one of them; no frame brings its header, which is free (log 60). -/
def activeHdrs (s : State) (k : Nat) : List (List Byte) :=
  (if !isManager s && s.skid.chain == 2 then [Config.managerKeeper s.skid.upAt] else []) ++
  (if k = 1 then [] else (s.boot.keeper.map (·.hdr)).toList) ++ (if k = 2 then [] else (s.boot.cuelib.map (·.hdr)).toList) ++
    if k = 3 then [] else (s.boot.preset.map (·.hdr)).toList

/-- Check 8 (R185). -/
def compatOk (s : State) (h : List Byte) : Bool :=
  (activeHdrs s (hPart h)).all fun o => windowHolds h o && windowHolds o h

/-- Checks 7 and 8 on a complete image. -/
def finalCheck (s : State) (img : List Byte) : Nat := if !signatureOk img then 0x16 else if !compatOk s img then 0x17 else 0

/-- Every check (R176, R182). -/
def fullCheck (s : State) (img : List Byte) : Nat :=
  let r := headerCheck s (img.take 256)
  if r ≠ 0 then r
  else if img.length < bodyLen img + 64 then 0x15
  else if (badBlock img 0 (hNblk img)).isSome then 0x15
  else finalCheck s img

/-- The part as loaded. -/
def loadedOf (img : List Byte) : Loaded :=
  { hdr := img.take 256, data := slice img (256 + tblLen img) (hLen img), img := img }

/-! ## Boot modes and the Keeper boot (R156-R159, R180-R184) -/

/-- BOOT_STAT. -/
def bootStat (s : State) : Word :=
  packW [(s.boot.mode.toNat, 2), (s.boot.recause.toNat, 4), ((failsNow s).toNat, 2), ((slotNow s 0).toNat, 4),
    ((slotNow s 1).toNat, 4), (b2n s.nv.actSlot, 1), (b2n s.boot.ldieDone, 1), (b2n s.boot.cuelib.isSome, 1),
    (b2n s.boot.preset.isSome, 1), (0, 4), (rbCount s, 7)]

/-- RECOVERY with a cause. -/
def enterRecovery (cause : BitVec 4) (s : State) : State :=
  modBoot (fun b => { b with mode := 2, recause := cause, checking := none, keeper := none, wdFrom := none }) s

/-- The slot in a state, the lower first. -/
def slotIn (s : State) (code : BitVec 4) : Option (Fin 2) := (allFin 2).find? fun k => slotNow s k == code

/-- A slot is staged and checked; with none there is no image. -/
def checkSlot (k : Option (Fin 2)) (s : State) : State :=
  match k with
  | some k => modBoot (fun b => { b with checking := some k }) s
  | none => enterRecovery 3 s

/-- BOOT_FAILS is written and in the NV store before the boot goes on; a write of it that waits is overtaken (R181). -/
def bumpFails (s : State) : State :=
  modNv (fun n => { n with
    fails := failsNow s + 1, queue := n.queue.filter fun w => match w with | .bootFails _ => false | _ => true }) s

/-- The slot a Keeper boot takes (R181): PENDING, else ACTIVE, the trial of the last boot having failed. -/
def keeperBoot (s : State) : State :=
  let s1 := bumpFails s
  match slotIn s 2 with
  | some k => checkSlot (some k) s1
  | none =>
    let s2 := match slotIn s 3 with
      | some k => setSlot k 5 s1
      | none => s1
    checkSlot ((slotIn s2 4).orElse fun _ => slotIn s2 1) s2

/-- ROM step 3 (R156-R159). -/
def bootSelect (s : State) : State :=
  let s1 := modBoot (fun b => { b with mode := 0, recause := 0, checking := none, keeper := none, wdFrom := none }) s
  if bitB s.aon.strap 4 then enterRecovery 1 s1
  else if failsNow s = 3 then enterRecovery 2 s1
  else if slotNow s 0 = 0 ∧ slotNow s 1 = 0 then s1
  else keeperBoot s1

/-- The Keeper core runs an image from slot k (R183, R184, R186). -/
def runKeeper (k : Fin 2) (img : List Byte) (s : State) : State :=
  nvPut (.actSlot (k == 1)) (modBoot (fun b => { b with
    mode := 1, recause := 0, checking := none, keeper := some (loadedOf img), wdFrom := some s.now }) s)

/-- State of a slot that passes at a boot: PENDING becomes TRIAL; a VALID fallback taken is the one that runs. -/
def passedState (c : BitVec 4) : BitVec 4 := if c = 2 then 3 else if c = 1 then 4 else c

/-- KEEPER_CHECK_DONE (R181, R182). -/
def keeperCheckOp (k : Fin 2) (s : State) : State :=
  let img := tget s.nv.image k
  let c := slotNow s k
  if fullCheck s img = 0 then runKeeper k img (if passedState c = c then s else setSlot k (passedState c) s)
  else
    let s1 := setSlot k 0 s
    let o := slotNow s (k + 1)
    checkSlot (if o = 1 ∨ o = 4 then some (k + 1) else none) s1

def execKeeperCheckDone (s : State) : Host.Outcome State Fault Refusal :=
  .next (match s.boot.checking with
    | some k => if s.aon.por then s else keeperCheckOp k s
    | none => s)

/-- BOOT_OK (R183). -/
def bootOkOp (s : State) : State :=
  let s1 := modBoot (fun b => { b with wdFrom := none }) (nvPut (.bootFails 0) s)
  match slotIn s 3 with
  | some k =>
    let s2 := setSlot k 4 s1
    if slotNow s (k + 1) = 4 then setSlot (k + 1) 1 s2 else s2
  | none => s1

/-- BOOT_OK. -/
def execBootOk (p : Port) (s : State) : Host.Outcome State Fault Refusal := .next (whenS (reach s p 0) bootOkOp s)

/-- A boot restart (R184): every island but PD0 is reset, and the ROM resumes at step 3. It pulls no SAFE_n (R161). -/
def bootRestartOp (s : State) : State :=
  let s0 := imageCut Config.abandonErr.toNat s
  let s1 := settle s0 (modAon (fun a => { a with mrst := true }) s0)
  let s2 := settle s1 (modAon (fun a => { a with mrst := s.aon.mrst }) s1)
  bootSelect (modAon (fun a => { a with driveEnd := s.aon.driveEnd }) s2)

/-- BOOT_TIMEOUT (R184). -/
def execBootTimeout (s : State) : Host.Outcome State Fault Refusal :=
  .next (match s.boot.wdFrom with
    | some t =>
      if s.aon.por then s
      else
        let s1 := timeTo (t + max 1 s.boot.bootWd.toNat * sec) s
        bootRestartOp (logPost 0x010B (BitVec.ofNat 32 (b2n s.nv.actSlot)) ((failsNow s).setWidth 32) s1)
    | none => s)

/-- BOOT_RESTART (R184). -/
def execBootRestart (p : Port) (s : State) : Host.Outcome State Fault Refusal := .next (whenS (reach s p 0) bootRestartOp s)

/-! ## L-die (R162, R659) -/

/-- Pieces of n bytes of a list, at most k of them. -/
def pieces (n : Nat) : Nat → List Byte → List (List Byte)
  | 0, _ => []
  | k + 1, b => if b.isEmpty then [] else b.take n :: pieces n k (b.drop n)

/-- An image goes to worker d in frames of up to 256 bytes. -/
def sendImage (d : Fin 8) (img : List Byte) (s : State) : State :=
  forEach (fun b => sendSkid 1 (.image d b)) (pieces 256 (ceilDiv img.length 256) img) s

/-- Under RELOAD the manager sends its checked copies to the workers named, and its active Keeper image to a worker whose Keeper
fails check 8 against it: which do is free, as no frame tells (R191, R659, log 47). What follows the worker's own checks has no
row. -/
def reloadWorkers (who : BitVec 8) (s : State) : State :=
  if isManager s && !s.boot.scheme && who != 0 then
    useFree (forEach (fun d : Fin 8 => if who.getLsbD d.1 then
      fun t => forEach (fun l : Loaded => sendImage d l.img)
        ((if bitB (freeWord s) d.1 then t.boot.keeper.toList else []) ++ t.boot.cuelib.toList ++ t.boot.preset.toList) t
      else id) (allFin 8) s)
  else s

/-- LDIE_DONE is written with 1 (R162, R639). -/
def ldieDoneOp (s : State) : State :=
  if domUp s 3 && !chainHolds s && !s.boot.ldieDone then
    reloadWorkers s.skid.live (modBoot (fun b => { b with ldieDone := true }) s)
  else s

/-- LDIE_DONE. -/
def execLdieDone (p : Port) (s : State) : Host.Outcome State Fault Refusal := .next (whenS (reach s p 0) ldieDoneOp s)

/-! ## Image operations (R177-R180, R186-R190, R687) -/

/-- The slot a Keeper image is written into (R180). -/
def freeImgSlot (s : State) : Fin 2 :=
  if slotNow s 0 = 4 then 1 else if slotNow s 1 = 4 then 0
  else
    let rank := fun c : BitVec 4 => match c.toNat with | 0 => 0 | 5 => 1 | 2 => 2 | 3 => 3 | _ => (4 : Nat)
    if rank (slotNow s 1) < rank (slotNow s 0) then 1 else 0

/-- PD1 for an image load: its own on a manager, the manager's behind PD11 on a worker (R648, R687). -/
def loadPath (s : State) : Bool := domUp s (hostDom s)

/-- An operation ends with a status; one that had passed its header leaves its target invalid (R179). -/
def failOp (op : ImageOp) (err : Nat) (s : State) : State := imageDone op err (invalidate op s)

/-- Status a CUELIB or PRESET load is refused with before any check (R160, R163, R188, R687). GO names no part: the header tells it,
so the refusal comes once PART has been read. NEXTBOOT is refused with BAD_ARG in RECOVERY too: DESIGN CHOICE (log 61). -/
def partRefusal (s : State) (op : ImageOp) (h : List Byte) : Nat :=
  if hPart h ≠ 2 ∧ hPart h ≠ 3 then 0
  else if op.nextBoot then 0x05
  else if op.dev = 0 ∧ (inRecovery s || s.cue.ch.toList.any (fun x => x.st != .disarmed) || !domUp s 3) then 0x03
  else 0

/-- One of the values listed, which the free word picks; 0 where none is. -/
def freeOf (s : State) (l : List Nat) : Nat := l.getD ((freeWord s).toNat % l.length) 0

/-- What a worker answers to a header beyond check 1: its OTP, PD3, channels and mode are its own, so that this is free (log 4). -/
def workerHeader (s : State) (h : List Byte) : Nat :=
  freeOf s (if hPart h = 1 then [0, 0x11, 0x12, 0x13, 0x14] else [0, 0x03, 0x11, 0x12, 0x13, 0x14])

/-- The header has been copied (R177): the operation ends, or its target is chosen. -/
def takeHeader (op : ImageOp) (h : List Byte) (s0 : State) : State :=
  let r := if partRefusal s0 op h ≠ 0 then partRefusal s0 op h
    else if op.dev = 0 then headerCheck s0 h
    else if badHeader h then 0x10 else workerHeader s0 h
  let s := if op.dev = 0 then s0 else useFree s0
  if r ≠ 0 then imageDone op r s
  else
    let k := freeImgSlot s
    let op1 := { op with part := hPart h, slot := k, got := h }
    let s1 := modBoot (fun b => { b with op := some op1 }) s
    if hPart h = 1 ∧ op.dev = 0 then setSlot k 0 s1 else s1

/-- Blocks of an image wholly inside its first n bytes. -/
def blocksIn (img : List Byte) (n : Nat) : Nat := min (hNblk img) ((n - (256 + tblLen img)) / 4096)

/-- More bytes of the image have been copied; each block that is now complete is checked (R177), but for NEXTBOOT (R187). -/
def takeBytes (op : ImageOp) (b : List Byte) (s : State) : State :=
  let img := op.got ++ b
  let i := blocksIn img op.got.length
  let bad := if op.nextBoot then none else badBlock img i (blocksIn img img.length - i)
  match bad with
  | some j => failOp { op with blk := BitVec.ofNat 16 j, got := img } 0x15 s
  | none => modBoot (fun x => { x with op := some { op with got := img } }) s

/-- A complete operation passes: the part is activated (R183, R186, R187, R205). -/
def activate (op : ImageOp) (s : State) : State :=
  let img := op.got
  let s1 := if op.part = 1 then modNv (fun n => { n with image := tset n.image op.slot img }) s else s
  if op.part = 2 then modBoot (fun b => { b with cuelib := some (loadedOf img) }) s1
  else if op.part = 3 then modBoot (fun b => { b with preset := some (loadedOf img) }) s1
  else if inRecovery s && op.jrp then setSlot op.slot 2 (nvPut (.bootFails 0) s1)
  else if op.nextBoot then setSlot op.slot 2 s1
  else runKeeper op.slot img (setSlot op.slot 3 s1)

/-- The end of an operation that has every byte (R176): checks 7 and 8, but for NEXTBOOT. -/
def finishOp (op : ImageOp) (s : State) : State :=
  let r := if op.nextBoot then 0 else finalCheck s op.got
  if r = 0 then imageDone op 0 (activate op s) else failOp op r s

/-- GO of BOOT_LOAD_CTL is refused: ERR and DONE are set and IMAGE_DONE posted (R189, R687). -/
def refuseLoad (err : Nat) (s : State) : State :=
  aonEvent 0x010C (BitVec.ofNat 32 err) (packW [(0, 16), (s.boot.dev.toNat, 3)])
    (modBoot (fun b => { b with ldErr := BitVec.ofNat 8 err, ldBlk := 0, ldDone := true }) s)

/-- A write of BOOT_LOAD_CTL (R189, R687). -/
def loadCtlWrite (v : Word) (s0 : State) : State :=
  let s := modBoot (fun b => { b with dev := BitVec.ofNat 3 (bitsN v 10 8), ldMode := bitB v 1 }) s0
  if !bitB v 0 then s
  else if s.boot.op.isSome then refuseLoad 0x06 s
  else if !loadPath s then refuseLoad 0x03 s
  else if s.boot.dev ≠ 0 ∧ (isManager s && devKnown s s.boot.dev.toNat) = false then refuseLoad 0x05 s
  else modBoot (fun b => { b with
    ldErr := 0, ldBlk := 0
    op := some { jrp := false, dev := b.dev, part := 0, nextBoot := b.ldMode, slot := 0, got := [], err := 0, blk := 0 } }) s

/-- IMAGE_LOAD_GO (R687). -/
def execImageLoadGo (p : Port) (v : Word) (s : State) : Host.Outcome State Fault Refusal :=
  .next (whenS (reach s p 0) (loadCtlWrite (v ||| 1)) s)

/-- Bytes of the next piece of an image after those got: header, CRC table, block, signature. -/
def nextPiece (got : List Byte) : Nat :=
  if got.length < 256 then 256
  else if got.length < 256 + tblLen got then tblLen got
  else if got.length < bodyLen got then 4096 else 64

/-- The operation has every byte. -/
def allGot (got : List Byte) : Bool := decide (256 ≤ got.length) && decide (bodyLen got + 64 ≤ got.length)

/-- A piece read over PCIe for a worker goes on to it (R648, R660). -/
def passOn (op : ImageOp) (b : List Byte) (s : State) : State := if op.dev = 0 then s else sendImage (Fin.ofNat 8 op.dev.toNat) b s

/-- The manager sends this worker an image (R191, R192, R659): its header begins the operation; that a Keeper image is sent for
NEXTBOOT no frame says, so that it is free (log 47). -/
def imageSent (s : State) : Bool :=
  domUp s 11 && !isManager s && s.skid.chain == 2 && (tget s.skid.port 0).st == .up

/-- IMAGE_BLOCK_ARRIVE (R177). -/
def execImageBlockArrive (data : Option (List Byte)) (s : State) : Host.Outcome State Fault Refusal :=
  .next (match s.boot.op with
    | none =>
      match data with
      | some b =>
        if imageSent s && b.length == 256 then
          takeHeader { jrp := false, dev := 0, part := 0, nextBoot := hPart b == 1 && bitB (freeWord s) 0, slot := 0, got := []
                       err := 0, blk := 0 } b (useFree (modBoot (fun x => { x with ldErr := 0, ldBlk := 0 }) s))
        else s
      | none => s
    | some op =>
      if op.jrp || allGot op.got then s
      else match data with
        | none => failOp op 0x21 (aerLog s)
        | some b =>
          if b.length ≠ nextPiece op.got then s
          else if op.got.isEmpty then takeHeader op b (passOn op b s)
          else takeBytes op b (passOn op b s))

/-- Check 7 on the manager's copy of a worker's image, then the worker's verdict on check 8, which is free (log 4). -/
def workerVerdict (s : State) (op : ImageOp) : Nat :=
  if op.nextBoot then 0 else if !signatureOk op.got then 0x16 else freeOf s [0, 0x17]

/-- IMAGE_LOAD_COMPLETE (R176). -/
def execImageLoadComplete (s : State) : Host.Outcome State Fault Refusal :=
  .next (match s.boot.op with
    | none => s
    | some op =>
      if op.jrp || !allGot op.got then s
      else if op.dev = 0 then finishOp op s
      else imageDone op (workerVerdict s op) (useFree s))

/-- IMAGE_ABORT (R190). -/
def execImageAbort (p : Port) (s : State) : Host.Outcome State Fault Refusal :=
  .next (whenS (reach s p 0) (imageCut Config.abandonErr.toNat) s)

/-! ## The rollback count (R193, R194) -/

/-- RB_INDEX of the ACTIVE Keeper and of the loaded parts. -/
def activeRbs (s : State) : List Nat :=
  ((allFin 2).filter (fun k => slotNow s k == 4)).map (fun k => hRb (tget s.nv.image k)) ++
    (s.boot.cuelib.toList ++ s.boot.preset.toList).map fun l => hRb l.hdr

/-- The count is raised to n: its bits are programmed one after the other from now on (R194). -/
def raiseRb (n : Nat) (s : State) : State := modBoot (fun b => { b with otp := otpNow b, rbRun := some (n, s.now) }) s

/-- OTP when power fails (R194): bits still being programmed, 100 us for each at most (R196), leave the count anywhere from the old
one to the target. -/
def otpAtCut (s : State) : Vector Word 32 :=
  match s.boot.rbRun with
  | some (n, t) =>
    let old := rbOf s.boot.otp
    if s.now < t + (n - old) * (100 * us) then otpRaised (old + (freeWord s).toNat % (n - old + 1)) s.boot.otp
    else otpRaised n s.boot.otp
  | none => s.boot.otp

/-- ADVANCE. -/
def rbAdvanceOp (s : State) : State :=
  if (slotIn s 3).isSome then modBoot (fun b => { b with rbErr := true }) s
  else match (activeRbs s).min? with
    | some n => if rbCount s < n then raiseRb (min n 64) s else s
    | none => s

/-- RB_ADVANCE (R193). -/
def execRbAdvance (p : Port) (s : State) : Host.Outcome State Fault Refusal := .next (whenS (reach s p 0) rbAdvanceOp s)

/-! ## Sheet clear (R164-R171) -/

/-- COVER_CLOSE (R164): the cover closes after an open of 50 ms or longer during a press. A close counts where the power state is
ON_A or ON_B at it: DESIGN CHOICE (log 57). -/
def execCoverClose (s : State) : Host.Outcome State Fault Refusal :=
  .next (match s.aon.press with
    | some p =>
      if !p.long && !p.cut && (s.aon.seqState == .onA || s.aon.seqState == .onB) then
        modAon (fun a => { a with press := some { p with covers := p.covers + 1 } }) s
      else s
    | none => s)

/-- The conditions of R166. -/
def sheetReady (s : State) : Bool :=
  safeIn s && decide (max (max s.aon.safeRiseAt s.aon.driveEnd) s.aon.resetExit + ms ≤ s.now) && railOk s 5 && domUp s 6

/-- A channel that holds a stepper of MASK is stopped with SHEET_CLEAR (R167). -/
def sheetFault (c : Chan) (s : State) : State :=
  if liveChan s c && (allFin 16).any (fun n => s.aon.scMask.getLsbD n.1 && holder s n.1 == some c) then
    chFault c fSheetClear (getCh s c).pc.shown s
  else s

/-- A stepper of MASK starts at current CUR (R168). -/
def sheetStart (n : Fin 16) (s : State) : State :=
  if s.aon.scMask.getLsbD n.1 then noteMoving n (modStep n (fun x => { x with amps := s.aon.scCur }) s) else s

/-- SHEET_CLEAR_START (R166, R167, R169, R171). Safe Hold is entered where it is not set already (log 58). -/
def execSheetClearStart (s : State) : Host.Outcome State Fault Refusal :=
  .next (match s.aon.sheet with
    | .chord since =>
      if s.aon.press.isNone && sheetReady s && decide (s.now ≤ since + 2 * sec) then
        let s1 := forEach sheetFault (allFin 64) (safeEnter s)
        if s.aon.scMask = 0 then sheetOutcome 0 s.now s1
        else forEach sheetStart (allFin 16) (modAon (fun a => { a with sheet := .running s.now }) s1)
      else s
    | _ => s)

/-- SHEET_CLEAR_CANCEL (R166). -/
def execSheetClearCancel (s : State) : Host.Outcome State Fault Refusal :=
  .next (match s.aon.sheet with
    | .chord since => logCode (Config.logCode 1).toNat 0 0 (modAon (fun a => { a with sheet := .idle }) (timeTo (since + 2 * sec) s))
    | _ => s)

/-- SHEET_CLEAR_END (R168, R170). -/
def execSheetClearEnd (s : State) : Host.Outcome State Fault Refusal :=
  .next (match s.aon.sheet with
    | .running since => sheetOutcome 0 since (timeTo (since + 4100 * ms) s)
    | _ => s)

/-! ## AON power-on reset (R48, R50, R64, R89, R91, R616, R670) -/

/-- Dependency mask of a rail slot (R89). -/
def railDeps (n : Nat) : List Nat :=
  match n with
  | 1 | 4 => [0]
  | 2 => [1]
  | 3 => [2]
  | 5 => [4, 22]
  | 6 => [4, 21]
  | 7 => [5, 23]
  | 8 => [24]
  | 9 => [5, 25]
  | 10 => [4, 26]
  | 11 => [1, 17]
  | _ => []

/-- Rails NEEDed by a domain (R89). -/
def domNeeds (d : Nat) : List Nat :=
  if d = 2 then [0, 1, 2, 3] else if 5 ≤ d ∧ d ≤ 10 then [0, 4] else if d = 0 then [] else [0, 1]

/-- Items of stage A and of stage B of an order: rails 0-15, domains 16 + d (R89). -/
def ordStages (o : Nat) : List Nat × List Nat :=
  let a := [0, 1, 2, 3, 4, 5, 11, 17, 18, 19, 20, 22]
  match o with
  | 0 => (a ++ [27], [6, 7, 8, 9, 10, 21, 23, 24, 25, 26])
  | 1 => (a, [6, 7, 8, 9, 21, 23, 24, 25])
  | 2 => (a, [6, 7, 8, 10, 21, 23, 24, 26])
  | 3 => (a, [6, 7, 8, 21, 23, 24])
  | 4 => (a, [9, 25])
  | 5 => ([0, 1, 2, 3, 4, 5, 18, 19, 20, 22, 27], [6, 7, 8, 9, 10, 21, 23, 24, 25, 26])
  | 6 => ([0, 1, 2, 3, 4, 11, 17, 18, 19], [])
  | _ => ([], [])

/-- The mask with the listed bits set. -/
def maskBits (w : Nat) (l : List Nat) : BitVec w := l.foldl (fun m i => m ||| BitVec.twoPow w i) 0

/-- A rail slot as an order loads it. -/
def ordRail (o : Nat) (n : Fin 16) : RailS :=
  let st := ordStages o
  { RailS.reset with
    mask := maskBits 28 (railDeps n.1), ssw := if 5 ≤ n.1 ∧ n.1 ≤ 10 then 50 else 10, csEn := decide (5 ≤ n.1 ∧ n.1 ≤ 10)
    stage := st.2.contains n.1, en := st.1.contains n.1 || st.2.contains n.1 }

/-- A domain as an order loads it; PD0 is always good. -/
def ordDom (o : Nat) (d : Fin 12) : DomS :=
  let st := ordStages o
  if d = 0 then { DomS.reset with en := true, st := .good }
  else { DomS.reset with
    need := maskBits 16 (domNeeds d.1), stage := st.2.contains (16 + d.1), en := st.1.contains (16 + d.1) || st.2.contains (16 + d.1) }

/-- Everything but the NV store, OTP and what lies outside the device returns to its reset state (R670). -/
def porBase (s : State) : State :=
  { State.reset with
    now := s.now, nv := { s.nv with queue := [] }, boot := { Boot.reset with otp := otpAtCut s }
    aon := { Aon.reset with safeHigh := s.aon.safeHigh, pfwLow := s.aon.pfwLow, pfwAt := s.aon.pfwAt, mrst := s.aon.mrst }
    host := { HostS.reset with perst := s.host.perst, linkUp := s.host.linkUp }
    out := s.out, pending := s.pending, freeCount := s.freeCount + (if s.boot.rbRun.isSome then 1 else 0) }

/-- AON_POR_ASSERT (R670): a log record in writing is cut (R614, R615), then the reset takes hold. -/
def porOp (s : State) : State := porBase (if s.aon.por then s else cutLog false s)

def execAonPorAssert (s : State) : Host.Outcome State Fault Refusal := .next (porOp s)

/-- Values AON and BOOT keep in the NV store. -/
def nvCopies (s : State) : State :=
  let n := s.nv
  let s1 := modAon (fun a => { a with
    autoOn := n.autoOn, scDir := n.scDir, scMask := n.scMask, scCur := n.scCur, scSpmm := n.scSpmm, usage := n.usage, pages := n.pages }) s
  modNv (fun n => { n with streams := n.streams.map locateStream })
    (modLg (fun l => { l with mode := n.logMode }) (modBoot (fun b => { b with scheme := n.scheme, bootWd := n.bootWd }) s1))

/-- The registers at the release: straps, the order, the reset exit (R48, R64, R89). A low that another agent holds on SAFE_n
counts from here (R59, R66). -/
def porRegs (strap : Byte) (s : State) : State :=
  let o := bitsN strap 2 0
  modAon (fun a => { a with
    por := false, porAt := s.now, strap := strap, hold := true, cRst := true, resetExit := s.now
    safeLowAt := if a.safeHigh then none else some s.now
    rails := Vector.ofFn (ordRail o), doms := Vector.ofFn (ordDom o) }) s

/-- The release (R89, R91): sequencer registers, stage A, boot mode, the POWER_ON record. -/
def porRelease (strap : Byte) (s : State) : State :=
  let s1 := bootSelect (nvCopies (settled (fun s => noteDrive (porRegs strap) s) s))
  let s2 := logCode 0x0190 (strap.setWidth 32) (bootStat s1) s1
  settled autoRaise s2

/-- AON_POR_RELEASE (R89): with TEST_EN latched at 1 nothing of the manual applies (R50). -/
def execAonPorRelease (ord : BitVec 3) (role recovN kpMode kpAddr testEn : Bool) (s : State) : Host.Outcome State Fault Refusal :=
  if !s.aon.por then .next s
  else if testEn then .fault .productionTest
  else .next (porRelease (BitVec.ofNat 8 (bitsOf ((List.range 3).map ord.getLsbD ++ [role, !recovN, kpMode, kpAddr, false]))) s)

end Sys2Proof.Machine
end

