-- ==== Sys2Proof/Machine/Cascade.lean ====
section
/-!
DEFINITION. The cascade (18): ports and frames of the skid link, enumeration, Engine Time distribution, forwarded commands,
records, signals and bus accesses, heartbeat and partner loss, RECOVER and power across the chain.
-/

namespace Sys2Proof.Machine

/-! ## Ports (R632-R634) -/

def getPort (s : State) (q : SkidPort) : PortS := tget s.skid.port q
def modPort (q : SkidPort) (f : PortS → PortS) (s : State) : State := modSkid (fun k => { k with port := tmod k.port q f }) s
def portUp (s : State) (q : SkidPort) : Bool := domUp s 11 && (getPort s q).st == .up

/-- A frame of the reserved transmit entry leaves at once on a port that is UP (R633). -/
def emitUp (q : SkidPort) (f : Frame) (s : State) : State := if portUp s q then emit s (.skid q f) else s

/-- The receiver acknowledges a frame (R632). -/
def ackTo (q : SkidPort) (s : State) : State := emitUp q .ack s

/-- A worker with its number in an enumerated chain (R639). -/
def inChain (s : State) : Bool := domUp s 11 && !isManager s && s.skid.chain == 2

/-- A frame for another device of the chain goes on at the other port (log 32). -/
def relay (q : SkidPort) (f : Frame) (s : State) : State := sendSkid (if q = 0 then 1 else 0) f (ackTo q s)

/-- A frame of worker d, beyond this one, on its way to the manager. -/
def fromBeyond (s : State) (d : Fin 8) : Bool := inChain s && portUp s 1 && decide (devNum s < d.1)

/-- Frames that wait for a tally take the tallies that became usable, n at most (R632). -/
def pumpSkid (q : SkidPort) : Nat → State → State
  | 0, s => s
  | n + 1, s =>
    match (getPort s q).waiting with
    | f :: rest =>
      if hasTally s (skidFl q) then
        pumpSkid q n (skidPushed q f (takeTally (skidFl q) (modPort q (fun p => { p with waiting := rest }) s)))
      else s
    | [] => s

/-- This device's own record. -/
def ownRecord (s : State) : Frame → Bool
  | .record d _ => d.1 == devNum s && !isManager s
  | _ => false

/-- The staging entry of the first record sent is given back (R644). -/
def freeSent (s : State) : State :=
  match s.host.staging with
  | x :: rest => freeStg x (modHost (fun h => { h with staging := rest }) s)
  | [] => s

/-- SKID_ACK_FRAME (R632): the tally of the oldest unacknowledged frame returns. -/
def execSkidAckFrame (q : SkidPort) (s : State) : Host.Outcome State Fault Refusal :=
  .next (match (getPort s q).unacked with
    | f :: rest =>
      if portUp s q then
        let s1 := retTally (skidFl q) (modPort q (fun p => { p with unacked := rest, sentAt := p.sentAt.tail, fails := 0 }) s)
        if q == 0 && ownRecord s f then freeSent s1 else s1
      else s
    | [] => s)

/-- Instant at which the acknowledgement of the oldest frame is overdue: 2 us after it was last sent (R632). -/
def ackDue (s : State) (q : SkidPort) : Nat := (getPort s q).sentAt.headD 0 + 2 * us

/-- The oldest frame has failed: it is sent again, or the eighth failure in a row makes the port FAULT (R632). -/
def ackMissed (q : SkidPort) (f : Frame) (s : State) : State :=
  if 8 ≤ (getPort s q).fails + 1 then modPort q (fun p => { p with st := .fault, since := s.now, fails := 0 }) s
  else emit (modPort q (fun p => { p with fails := p.fails + 1, sentAt := s.now :: p.sentAt.tail }) s) (.skid q f)

/-- SKID_ACK_TIMEOUT (R632). -/
def execSkidAckTimeout (q : SkidPort) (s : State) : Host.Outcome State Fault Refusal :=
  .next (match (getPort s q).unacked with
    | f :: _ => if portUp s q then ackMissed q f (timeTo (ackDue s q) s) else s
    | [] => s)

/-- Frames of a port are lost (R634): their tallies return, and own records among them are gone (R654). -/
def loseUnacked (q : SkidPort) (s : State) : State :=
  let l := (getPort s q).unacked
  let n := if q == 0 then (l.filter (ownRecord s)).length else 0
  let gone := s.host.staging.take n
  let s1 := forEach freeStg gone (modHost (fun h => { h with staging := h.staging.drop n }) s)
  let s2 := if gone.all (·.cls == .gone) then s1 else modAon (fun a => { a with lost := true }) s1
  retTallies (skidFl q) l.length (modPort q (fun p => { p with unacked := [], sentAt := [] }) s2)

/-- SKID_PORT_RETRAIN (R634): 1 ms after FAULT. -/
def execSkidPortRetrain (q : SkidPort) (s : State) : Host.Outcome State Fault Refusal :=
  .next (if domUp s 11 && (getPort s q).st == .fault then
    modPort q (fun p => { p with st := .train }) (loseUnacked q (timeTo ((getPort s q).since + ms) s))
  else s)

/-- SKID_PARTNER_SIGNAL: the partner's signal appears or vanishes; a port in FAULT waits for its retraining. -/
def execSkidPartnerSignal (q : SkidPort) (present : Bool) (s : State) : Host.Outcome State Fault Refusal :=
  let st := (getPort s q).st
  .next (if !domUp s 11 then s
    else if present && st == .down then modPort q (fun p => { p with st := .train, since := s.now }) s
    else if !present && (st == .train || st == .up) then modPort q (fun p => { p with st := .down, since := s.now }) s
    else s)

/-! ## Enumeration (R635-R639) -/

/-- "Each device logs the outcome" (R638). -/
def logEnum (err n : Nat) (s : State) : State := logFrom (unitSrc 11 0) (Config.logCode 3).toNat (BitVec.ofNat 32 err) (BitVec.ofNat 32 n) s

/-- ENUM leaves SKID1 when enumeration has begun and the port is UP. -/
def sendEnum (s : State) : State :=
  match s.skid.enum with
  | .manager _ => emitUp 1 (.enum 1 (etNow s) s.epoch) s
  | .worker _ d _ e =>
    if portUp s 1 then
      emit (modSkid (fun k => { k with enum := .idle, chain := 2 }) s) (.skid 1 (.enum (d + 1) (etNow s) e))
    else s
  | .idle => s

/-- SKID_LANES_ALIGNED: frames not acknowledged are sent again, and a waiting ENUM goes out. -/
def execSkidLanesAligned (q : SkidPort) (s : State) : Host.Outcome State Fault Refusal :=
  .next (if domUp s 11 && (getPort s q).st == .train then
    let s1 := modPort q (fun p => { p with st := .up, since := s.now, fails := 0, sentAt := p.unacked.map fun _ => s.now }) s
    let s2 := forEach (fun f s => emit s (.skid q f)) (getPort s q).unacked s1
    if q == 1 then sendEnum s2 else s2
  else s)

/-- The manager starts an enumeration (R635). -/
def enumStart (s : State) : State := sendEnum (modSkid (fun k => { k with enum := .manager s.now, chain := 1 }) s)

/-- SKID_ENUM (R635): "ignored on a worker". -/
def execSkidEnum (s : State) : Host.Outcome State Fault Refusal := .next (whenS (reach s .bar0 11 && isManager s) enumStart s)

/-- Workers 1 to n. -/
def firstWorkers (n : Nat) : BitVec 8 := (List.range 8).foldl (fun m d => withBit m d (decide (1 ≤ d ∧ d ≤ n))) 0

/-- Number of workers of a set. -/
def countW (m : BitVec 8) : Nat := ((List.range 8).filter m.getLsbD).length

/-- Entries of the staging flume reserved for worker d that are taken (R31). -/
def takenBy (s : State) (d : Fin 8) : Nat := (s.host.staging.filter fun x => x.cls == .worker d).length

/-- The enumerated set becomes `new`: reserved entries and the staging flume's depth follow it (R31). -/
def setLive (new : BitVec 8) (s : State) : State :=
  let old := s.skid.live
  let s1 := modSkid (fun k => { k with
    live := new, workers := BitVec.ofNat 3 (countW new)
    dir := k.dir.filter fun t => new.getLsbD (t.toNat / 64)
    echo := Vector.ofFn fun d : Fin 8 => if new.getLsbD d.1 && !old.getLsbD d.1 then s.cue.et.toNat / 8000 else tget k.echo d
    echoMiss := Vector.ofFn fun d : Fin 8 => if new.getLsbD d.1 && !old.getLsbD d.1 then 0 else tget k.echoMiss d }) s
  let s2 := modHost (fun h => { h with
    wresFree := Vector.ofFn fun d : Fin 8 =>
    if !new.getLsbD d.1 then 0 else if old.getLsbD d.1 then tget h.wresFree d else 64 - takenBy s d }) s1
  noteMin stgFl (modFl stgFl (fun f => { f with depth := depthNow s2 stgFl }) s2)

/-- Outcomes with which the chain runs: none and TIMEOUT (R636). -/
def enumRuns (err : BitVec 3) : Bool := err == 0 || err == 3

/-- An enumeration ends on the manager (R636, R638), and workers that came in are sent the images they lack (R659). -/
def endEnum (err n : BitVec 3) (s : State) : State :=
  let ok := enumRuns err
  let new := if ok then firstWorkers n.toNat else 0
  let fresh := new &&& ~~~s.skid.live
  let k := countW new
  let s1 := setLive new (modSkid (fun k => { k with
    err := err, enum := .idle, chain := if ok then 2 else 3, partOk := ok }) s)
  let s2 := engine (unitSrc 11 0) 0x01A0 0xFFFF [err.setWidth 8, BitVec.ofNat 8 k] (logEnum err.toNat k s1)
  if s.boot.ldieDone then reloadWorkers fresh s2 else s2

/-- A worker refuses its number (R636). -/
def refuseEnum (err : BitVec 3) (s : State) : State :=
  emitUp 0 (.enumEnd err 0) (logEnum err.toNat 0 (modSkid (fun k => { k with
    err := err, devnum := 0, chain := 3, enum := .idle, partOk := false, gotEnum := true }) s))

/-- Every channel is DISARMED and every tracker's EN is 0 (R640). -/
def etLoadable (s : State) : Bool :=
  s.cue.ch.toList.all (fun x => x.st == .disarmed) && s.cue.trk.toList.all fun t => !t.en

/-- A worker may not take number d (R636, R640). -/
def renumbers (d : Nat) (et : DWord) (s : State) : Bool :=
  (d != devNum s && s.cue.ch.toList.any fun x => x.st != .disarmed) ||
    (!etLoadable s && decide (ms < (max s.cue.et.toNat et.toNat - min s.cue.et.toNat et.toNat)))

/-- A worker takes number d: it loads ET where it may, takes the epoch (R658) and passes ENUM on. -/
def takeNumber (d : BitVec 4) (et : DWord) (epoch : BitVec 16) (s : State) : State :=
  let s1 := if etLoadable s then modCue (fun c => { c with et := et }) s else s
  sendEnum { modSkid (fun k => { k with
    err := 0, devnum := d.setWidth 3, chain := 1, gotEnum := true, partOk := true, hb := s1.cue.et.toNat / 8000, hbMiss := 0
    enum := .worker s.now d et epoch }) s1 with epoch := epoch }

/-- ENUM_FRAME (R635, R636, R640). -/
def execEnumFrame (q : SkidPort) (d : BitVec 4) (mgrEt : DWord) (epoch : BitVec 16) (s : State) :
    Host.Outcome State Fault Refusal :=
  .next (if !portUp s q || q != 0 then s
    else if isManager s then emitUp 0 (.enumEnd 1 0) (endEnum 1 0 s)
    else if d = 8 then refuseEnum 2 s
    else if d = 0 ∨ 8 < d.toNat then s
    else if renumbers d.toNat mgrEt s then refuseEnum 4 s
    else takeNumber d mgrEt epoch s)

/-- ENUM_LINK_WAIT_EXPIRE (R635): SKID1 is not UP within 10 ms. -/
def execEnumLinkWaitExpire (s : State) : Host.Outcome State Fault Refusal :=
  .next (match s.skid.enum with
    | .worker since d _ _ =>
      let s1 := timeTo (since + 10 * ms) s
      emitUp 0 (.enumEnd 0 (d.setWidth 3)) (logEnum 0 d.toNat (modSkid (fun k => { k with enum := .idle, chain := 2 }) s1))
    | _ => s)

/-- A reply passes a worker on its way upstream (R635, R636). -/
def passReply (err n : BitVec 3) (s : State) : State :=
  emitUp 0 (.enumEnd err n) (logEnum err.toNat n.toNat (modSkid (fun k =>
    if enumRuns err then { k with err := err } else { k with err := err, devnum := 0, chain := 3, partOk := false }) s))

/-- ENUM_REPLY (R636). -/
def execEnumReply (err n : BitVec 3) (s : State) : Host.Outcome State Fault Refusal :=
  .next (if !portUp s 1 then s
    else match isManager s, s.skid.enum with
      | true, .manager _ => endEnum err n s
      | true, _ => s
      | false, _ => if s.skid.chain == 2 then passReply err n s else s)

/-- ENUM_TIMEOUT (R636): 100 ms without a reply. -/
def execEnumTimeout (replied : BitVec 3) (s : State) : Host.Outcome State Fault Refusal :=
  .next (match s.skid.enum with
    | .manager since => endEnum 3 replied (timeTo (since + 100 * ms) s)
    | _ => s)

/-- NO_MANAGER (R637). -/
def execNoManager (s : State) : Host.Outcome State Fault Refusal :=
  .next (if domUp s 11 && !isManager s && !s.skid.gotEnum && !s.skid.noMgr then
    modSkid (fun k => { k with noMgr := true }) (logFrom (unitSrc 11 0) (Config.logCode 2).toNat 0 0 (timeTo (s.skid.upAt + sec) s))
  else s)

/-! ## Heartbeat, Engine Time and partner loss (R640-R642, R650-R654) -/

/-- RUNNING channels of this device, as device * 64 + channel. -/
def ownRunning (s : State) : List (BitVec 9) :=
  ((allFin 64).filter fun c => (getCh s c).st == .running).map fun c => BitVec.ofNat 9 (devNum s * 64 + c.1)

/-- HEARTBEAT_SEND (R650): heartbeat k leaves at H_k, with the directory (R645) and a TSYNC frame. -/
def execHeartbeatSend (s : State) : Host.Outcome State Fault Refusal :=
  let k := s.cue.et.toNat / 8000 + 1
  .next (if domUp s 11 && isManager s then
    let s1 := modSkid (fun x => { x with hb := k }) (etTo (8000 * k) s)
    emitUp 1 (.tsync (16 * s1.cue.et.toNat)) (emitUp 1 (.heartbeat k (ownRunning s1 ++ s1.skid.dir)) s1)
  else s)

/-- HEARTBEAT_FRAME (R650, R645): the ECHO goes back, the heartbeat goes on. A heartbeat already missed ends no run of
misses. -/
def execHeartbeatFrame (k : Nat) (running : List (BitVec 9)) (s : State) : Host.Outcome State Fault Refusal :=
  .next (if inChain s && portUp s 0 then
    let s1 := modSkid (fun x => { x with
      dir := running, hb := if x.hb + x.hbMiss < k then k else x.hb, hbMiss := if x.hb + x.hbMiss < k then 0 else x.hbMiss }) s
    emitUp 1 (.heartbeat k running) (emitUp 0 (.echo (Fin.ofNat 8 (devNum s)) k) s1)
  else s)

/-- ECHO_FRAME (R650); a worker hands on the ECHO of one beyond it (R633). -/
def execEchoFrame (d : Fin 8) (k : Nat) (s : State) : Host.Outcome State Fault Refusal :=
  .next (if portUp s 1 && isManager s && s.skid.live.getLsbD d.1 && decide (tget s.skid.echo d + tget s.skid.echoMiss d < k) then
    modSkid (fun x => { x with echo := tset x.echo d k, echoMiss := tset x.echoMiss d 0 }) s
  else if fromBeyond s d then emitUp 0 (.echo d k) s
  else s)

/-- A partner is lost: Safe Hold with cause C_PART, live until R653 holds (R652). An image operation through a device that p
picks, or on a worker through its manager, is cut (R661). -/
def partLoss (p : Nat → Bool) (s : State) : State :=
  driveEnter (modAon (fun a => { a with livePart := true, cPart := true })
    (modSkid (fun k => { k with partOk := false }) (workerCut p s)))

/-- HEARTBEAT_MISS (R650, R651): the deadline of the next heartbeat passes. -/
def execHeartbeatMiss (s : State) : Host.Outcome State Fault Refusal :=
  let k := s.skid
  .next (if inChain s && decide (k.hbMiss < 3) then
    let s1 := etTo (8000 * (k.hb + k.hbMiss + 1) + 2400) s
    let s2 := modSkid (fun x => { x with hbMiss := x.hbMiss + 1, missAt := s1.now }) s1
    if k.hbMiss + 1 = 3 then
      partLoss (fun _ => true) (modSkid (fun x => { x with wlost := withBit x.wlost 0 true, tsync := false, offOkFrom := none }) s2)
    else s2
  else s)

/-- A window access to a lost worker ends with BAD_ARG (R649). -/
def winLost (m : BitVec 8) (s : State) : State :=
  if s.skid.winBusy && m.getLsbD s.skid.winDev.toNat then
    modSkid (fun k => { k with winBusy := false, winDone := true, winErr := 5 }) s
  else s

/-- Records of the lost workers may have gone missing (R654); a worker that had not answered a RECOVER is skipped, and LOST is
set (R658). Whether any went missing is open (log 4). -/
def loseRecords (m : BitVec 8) (s : State) : State :=
  let cut := match s.host.recov with | some v => v.workers &&& m != 0 | none => false
  let s1 := modHost (fun h => { h with recov := h.recov.map fun v => { v with workers := v.workers &&& ~~~m } }) s
  modAon (fun a => { a with lost := a.lost || cut || bitB (freeWord s) 0 }) (useFree s1)

/-- Workers are lost (R651, R652). -/
def loseWorkers (m : BitVec 8) (s : State) : State :=
  let s1 := setLive (s.skid.live &&& ~~~m) (winLost m (loseRecords m s))
  let s2 := modSkid (fun k => { k with wlost := k.wlost ||| m }) s1
  let s3 := engine (unitSrc 11 1) 0x01A1 0xFFFF [m] (partLoss m.getLsbD s2)
  formCheck (modAon (fun a => { a with waitWorkers := a.waitWorkers &&& ~~~m }) s3)

/-- Worker d of the set, and every worker of it beyond d. -/
def beyond (live : BitVec 8) (d : Nat) : BitVec 8 := (List.range 8).foldl (fun m e => withBit m e (decide (d ≤ e) && live.getLsbD e)) 0

/-- ECHO_MISS (R650, R651). -/
def execEchoMiss (d : Fin 8) (s : State) : Host.Outcome State Fault Refusal :=
  let k := s.skid
  let n := tget k.echoMiss d + 1
  .next (if domUp s 11 && isManager s && k.live.getLsbD d.1 then
    let s1 := etTo (8000 * (tget k.echo d + n) + 4800) s
    let s2 := modSkid (fun x => { x with echoMiss := tset x.echoMiss d n, missAt := s1.now }) s1
    if 3 ≤ n then loseWorkers (beyond k.live d.1) s2 else s2
  else s)

/-- TSYNC_FRAME (R640, R641): the offset in 1/16 tick, saturating. -/
def execTsyncFrame (et16 : Nat) (s : State) : Host.Outcome State Fault Refusal :=
  let off : Int := 16 * (s.cue.et.toNat : Int) - et16
  let near := decide (-32 ≤ off ∧ off ≤ 32)
  .next (if inChain s && portUp s 0 then
    emitUp 1 (.tsync et16) (modSkid (fun k => { k with
      toff := BitVec.ofInt 16 (clampI (-32768) 32767 off), tsync := k.tsync && near
      offOkFrom := if near then (match k.offOkFrom with | some t => some t | none => some s.now) else none }) s)
  else s)

/-- TSYNC_ACQUIRED (R641). -/
def execTsyncAcquired (s : State) : Host.Outcome State Fault Refusal :=
  .next (match s.skid.offOkFrom with
    | some t => if inChain s && !s.skid.tsync then modSkid (fun k => { k with tsync := true }) (timeTo (t + ms) s) else s
    | none => s)

/-- C_PART_CLEAR (R653): the cause is live no longer. What other devices of the chain must show, the event says. -/
def execCPartClear (s : State) : Host.Outcome State Fault Refusal :=
  .next (if s.aon.livePart && domUp s 11 && s.skid.chain == 2 && s.skid.partOk && (isManager s || s.skid.tsync) then
    noteDrive (modAon fun a => { a with livePart := false }) (timeTo (s.skid.missAt + ms) s)
  else s)

/-! ## Commands, records, signals and bus accesses across the chain (R643-R648) -/

/-- SKID_CMD_FRAME (R643): a worker's decoder takes the command as the manager's would; one that must wait is not
acknowledged yet. -/
def execSkidCmdFrame (e : List Byte) (s : State) : Host.Outcome State Fault Refusal :=
  .next (if inChain s && portUp s 0 && e.length == 64 && eDev e == devNum s && !s.host.waiting.any (fun w => w.by_ == .decoder) then
    match runCmd e (freeWb s) (if eOpc e == 2 then useFree s else s) with
    | some t => ackTo 0 t
    | none => s
  else if inChain s && portUp s 0 && e.length == 64 && decide (devNum s < eDev e) then relay 0 (.cmd (Fin.ofNat 8 (eDev e)) e) s
  else s)

/-- A record from its 32 bytes. -/
def recParse (b : List Byte) : Rec :=
  { kind := fieldN b 1 1, epoch := BitVec.ofNat 16 (fieldN b 2 2), src := BitVec.ofNat 16 (fieldN b 4 2),
    status := BitVec.ofNat 8 (fieldN b 6 1), xb := BitVec.ofNat 8 (fieldN b 7 1), et := BitVec.ofNat 64 (fieldN b 8 8),
    body := slice b 16 16 }

/-- The manager's directory follows the records of its workers (R645). -/
def dirFollow (r : Rec) (s : State) : State :=
  let t : BitVec 9 := r.src.setWidth 9
  let out := modSkid (fun k => { k with dir := k.dir.filter (· != t) })
  let cmd := r.kind == 1 && r.status == 0
  if cmd && (r.xb == 1 || r.xb == 3) then modSkid (fun k => { k with dir := k.dir ++ [t] }) (out s)
  else if (cmd && r.xb == 2) || (r.kind == 3 && r.xb == 0) || r.kind == 4 then out s
  else s

/-- SKID_RECORD_FRAME (R644). -/
def execSkidRecordFrame (d : Fin 8) (rec : List Byte) (s : State) : Host.Outcome State Fault Refusal :=
  .next (if isManager s && portUp s 1 && s.skid.live.getLsbD d.1 && rec.length == 32 && !(getFl s stgFl).down then
    post (recParse rec) (.worker d) (dirFollow (recParse rec) s)
  else if fromBeyond s d && rec.length == 32 then relay 1 (.record d rec) s
  else s)

/-- Port toward a device. -/
def portTo (s : State) (d : Nat) : SkidPort := if d < devNum s then 0 else 1

/-- A remote SIG reaches its target, waits there, or is discarded (R646). -/
def sigArrive (src : BitVec 9) (c : Chan) (code : Byte) (payload : Word) (s : State) : State :=
  let q := portTo s (src.toNat / 64)
  let e : ChEvent := { upper := src.setWidth 16, code := code.setWidth 16, payload := payload }
  let x := getCh s c
  if x.st != .running then ackTo q (modSkid (fun k => { k with sigDrop := satInc k.sigDrop }) s)
  else if hasTally s (evFl c) && x.evLatch.isEmpty && x.sigWait.isEmpty then
    ackTo q (takeTally (evFl c) (modCh c (fun x => { x with evq := x.evq ++ [e] }) s))
  else modCh c (fun x => { x with sigWait := x.sigWait ++ [e] }) s

/-- SKID_SIG_FRAME (R646). -/
def execSkidSigFrame (src target : BitVec 9) (code : Byte) (payload : Word) (s : State) : Host.Outcome State Fault Refusal :=
  .next (if portUp s (portTo s (src.toNat / 64)) && s.skid.chain == 2 && target.toNat / 64 == devNum s then
    sigArrive src (Fin.ofNat 64 target.toNat) code payload s
  else if inChain s && portUp s (portTo s (src.toNat / 64)) && portTo s (target.toNat / 64) != portTo s (src.toNat / 64) then
    relay (portTo s (src.toNat / 64)) (.sig src target code payload) s
  else s)

/-- SKID_BUSMASTER_FRAME (R648): the manager performs the access and replies; a failed read gives no data. -/
def execSkidBusmasterFrame (d : Fin 8) (write : Bool) (addr : DWord) (n : Nat) (data : Option (List Byte)) (s : State) :
    Host.Outcome State Fault Refusal :=
  .next (if isManager s && portUp s 1 && s.skid.live.getLsbD d.1 && !data.any (·.length != n) then
    let s1 := ackTo 1 s
    match write, data with
    | true, some b => if bar0Reach s then emit s1 (.hostWrite addr.toNat b) else s1
    | true, none => s1
    | false, r => sendSkid 1 (.busReply d (if bar0Reach s then r else none)) (if bar0Reach s && r.isNone then aerLog s1 else s1)
  else if fromBeyond s d && !data.any (·.length != n) then relay 1 (.bus d write addr n (data.getD [])) s
  else s)

/-! ## The register window (R649) -/

/-- A write of SKID_WIN_CTL. -/
def winCtlWrite (v : Word) (s : State) : State :=
  let k := s.skid
  let s1 := modSkid (fun k => { k with winDone := k.winDone && !bitB v 2, winWrite := bitB v 1 }) s
  if !bitB v 0 then s1
  else if k.winBusy then modSkid (fun k => { k with winErr := 3 }) s1
  else if !isManager s then modSkid (fun k => { k with winErr := 3, winDone := true }) s1
  else if !k.live.getLsbD k.winDev.toNat then modSkid (fun k => { k with winErr := 5, winDone := true }) s1
  else sendSkid 1 (.win (Fin.ofNat 8 k.winDev.toNat) (bitB v 1) (k.winOff.toNat / 4 * 4) k.winData)
    (modSkid (fun k => { k with winErr := 0, winDone := false, winBusy := true, winOp := bitB v 1 }) s1)

/-- SKID_WIN_GO (R649). -/
def execSkidWinGo (v : Word) (s : State) : Host.Outcome State Fault Refusal :=
  .next (whenS (reach s .bar0 11) (winCtlWrite (v ||| 1)) s)

/-- SKID_WIN_REPLY (R649). -/
def execSkidWinReply (data : Word) (err : Byte) (s : State) : Host.Outcome State Fault Refusal :=
  .next (if isManager s && portUp s 1 && s.skid.winBusy then
    ackTo 1 (modSkid (fun k => { k with
      winBusy := false, winDone := true, winErr := err, winData := if k.winOp then k.winData else data }) s)
  else s)

/-! ## RECOVER and power across the chain (R655, R657) -/

/-- SKID_RECOVER_FRAME (R657). -/
def execSkidRecoverFrame (epoch : BitVec 16) (disarm discard : Bool) (s : State) : Host.Outcome State Fault Refusal :=
  .next (if inChain s && portUp s 0 && s.host.recov.isNone then recoverAt epoch disarm discard 0 (ackTo 0 s) else s)

/-- SKID_RECOVER_DONE (R657). -/
def execSkidRecoverDone (d : Fin 8) (s : State) : Host.Outcome State Fault Refusal :=
  .next (if isManager s && portUp s 1 then
    modHost (fun h => { h with recov := h.recov.map fun v => { v with workers := withBit v.workers d.1 false } }) (ackTo 1 s)
  else if fromBeyond s d then relay 1 (.recoverDone d) s
  else s)

/-- SKID_POWER_FRAME (R655): ENGINES_UP, ENGINES_DOWN or OFF from the manager. -/
def execSkidPowerFrame (code : BitVec 4) (s : State) : Host.Outcome State Fault Refusal :=
  .next (if inChain s && portUp s 0 && decide (1 ≤ code.toNat ∧ code.toNat ≤ 3) then seqCmdWrite code.toNat 0 (ackTo 0 s) else s)

/-- SKID_OFF_REPORT (R655). -/
def execSkidOffReport (d : Fin 8) (s : State) : Host.Outcome State Fault Refusal :=
  .next (if isManager s && portUp s 1 then
    formCheck (modAon (fun a => { a with waitWorkers := withBit a.waitWorkers d.1 false }) (ackTo 1 s))
  else if fromBeyond s d then relay 1 (.offReport d) s
  else s)

/-- WORKER_OFF_TIMEOUT (R655): 50 ms after step 4 of R92 is reached. -/
def execWorkerOffTimeout (s : State) : Host.Outcome State Fault Refusal :=
  .next (match formPhase s.aon.form with
    | some (.aborts since, _) =>
      if s.aon.waitWorkers != 0 then
        formCheck (modAon (fun a => { a with waitWorkers := 0 }) (timeTo (since + 50 * ms) s))
      else s
    | _ => s)

end Sys2Proof.Machine
end

