-- ==== Sys2Proof/Machine/RegAon.lean ====
section
/-!
DEFINITION. The registers of the GLB, AON and BOOT blocks, which PD0 holds (R11): what each reads as and what a write does
(R2, R5-R7). Offsets are inside the block (R10).
-/

namespace Sys2Proof.Machine

/-- Field h:l of a written word. -/
def fld (v : Word) (h l w : Nat) : BitVec w := BitVec.ofNat w (bitsN v h l)

/-- A field of write-1-to-clear bits (R2). -/
def w1c {w : Nat} (cur : BitVec w) (ones : BitVec w) : BitVec w := cur &&& ~~~ones

/-- Low or high half of a 64-bit register. -/
def halfOf (v : DWord) (hi : Bool) : Word := if hi then v.extractLsb' 32 32 else v.setWidth 32
/-- A 64-bit register with one half written. -/
def putHalf (cur : DWord) (hi : Bool) (v : Word) : DWord :=
  if hi then v ++ cur.setWidth 32 else cur.extractLsb' 32 32 ++ v

/-- f unless GLB_LOCK freezes the field (RWL, R2). -/
def unlocked (f : State → State) (s : State) : State := if s.lock then s else f s

/-! ## GLB (00, 01, 08) -/

/-- The flume GLB_FLSEL names, when the map lists it. -/
def selFlume (s : State) : Option FlumeId :=
  if h : s.flSel.toNat < 434 then (if flumeDepth s.flSel.toNat = 0 then none else some ⟨s.flSel.toNat, h⟩) else none

/-- A channel is blocked at flume f: it wants more tallies than are open to it, and a push than it holds (R20, R272). -/
def chanWaits (s : State) (f : FlumeId) (c : Chan) : Bool :=
  decide (openTallies s c f + (if (getCh s c).taking.isSome then 0 else heldOn (getCh s c) f) < wantsFlume s f c)

/-- A record waits for the staging flume at its source, which holds no latch (R690). -/
def recWaits (s : State) : Bool :=
  s.host.waiting.any fun w => match w.by_ with | .latch _ _ _ | .event => false | _ => true

/-- The staging checker of engine e has a band for its full flume. -/
def checkWaits (s : State) (e : Engine) : Bool :=
  match tget s.rast.cur e with
  | some b => bandReady s e b && (getFl s (bandFl e)).tally == 0
  | none => false

/-- The fetcher of decoder u has a descriptor for its full flume. -/
def fetchWaits (s : State) (u : Fin 6) : Bool :=
  let d := tget s.rast.dec u
  d.active && !d.fetchEnd && (getFl s (decFl u)).tally == 0

/-- The producer of encoder e has a block for its full flume. -/
def feedWaits (s : State) (e : Fin 2) : Bool :=
  let x := tget s.rast.enc e
  let k := min x.curBlk (x.total - pushedBytes x)
  x.active && (getFl s (encFl e)).tally == 0 && decide (0 < k) &&
    (x.forLog || decide (k ≤ s.scan.q.flatten.length - s.scan.fed))

/-- A blocking push waits at flume f (R20, R33): a channel's, the command decoder's, a record's, a staging checker's, a band
fetcher's, an encoder producer's, a remote SIG's or a frame's. -/
def pushWaits (s : State) (f : FlumeId) : Bool :=
  (allFin 64).any (chanWaits s f) || s.host.regs.rings.toList.any (fun r => r.held == some f) || (f == stgFl && recWaits s) ||
    (allFin 5).any (fun e => f == bandFl e && checkWaits s e) || (allFin 6).any (fun u => f == decFl u && fetchWaits s u) ||
    (allFin 2).any (fun e => f == encFl e && feedWaits s e) ||
    (allFin 64).any (fun c => f == evFl c && !(getCh s c).sigWait.isEmpty) ||
    (allFin 2).any fun q => f == skidFl q && !(getPort s q).waiting.isEmpty

/-- GLB_FLSTAT. -/
def flStat (s : State) : Word :=
  match selFlume s with
  | some f => packW [(shownTally s f, 13), (0, 3), (depthNow s f, 13), (b2n (pushWaits s f), 1), (b2n (getFl s f).down, 1)]
  | none => 0

/-- GLB_FLMIN. -/
def flMin (s : State) : Word :=
  match selFlume s with
  | some f => packW [((getFl s f).minTally, 13), (0, 3), (b2n (getFl s f).zero, 1)]
  | none => 0

/-- A write of GLB_FLMIN: ZERO clears, and CLR sets MINTALLY to the present tally. -/
def flMinWrite (v : Word) (s : State) : State :=
  match selFlume s with
  | some f =>
    let s1 := modFl f (fun x => { x with zero := x.zero && !bitB v 16 }) s
    if bitB v 31 then modFl f (fun x => { x with minTally := shownTally s f, zero := false }) s1 else s1
  | none => s

def readGlb (s : State) (o : Nat) : Word :=
  match o with
  | 0x000 => 0xA964B000 ||| Config.metalFix.setWidth 32
  | 0x010 => BitVec.ofNat 32 (b2n s.lock)
  | 0x020 => s.epoch.setWidth 32
  | 0x100 => s.flSel.setWidth 32
  | 0x104 => flStat s
  | 0x108 => flMin s
  | _ => 0

def writeGlb (o : Nat) (v : Word) (s : State) : State :=
  match o with
  | 0x010 => { s with lock := s.lock || bitB v 0 }
  | 0x100 => { s with flSel := fld v 9 0 10 }
  | 0x108 => flMinWrite v s
  | _ => s

/-! ## AON: the sequencer and SAFE_n (02, 03) -/

/-- AON_SAFE. -/
def safeReg (s : State) : Word :=
  let a := s.aon
  packW [(b2n (safeIn s), 1), (b2n (safeDrive s), 1), (b2n a.hold, 1), (b2n a.assert_, 1), (0, 1), (b2n (aliveOn s), 1),
    (b2n (liveCause s), 1), (0, 1), (b2n a.cRst, 1), (b2n a.cExt, 1), (b2n a.cSw, 1), (b2n a.cTherm, 1), (b2n a.cPart, 1),
    (b2n a.cBeat, 1), (0, 1), (b2n a.relFail, 1)]

/-- A write of AON_SAFE: REL_FAIL clears, then ASSERT is set, then RELEASE is judged. -/
def safeWrite (v : Word) (s : State) : State :=
  let s1 := modAon (fun a => { a with relFail := a.relFail && !bitB v 15 }) s
  let s2 := if bitB v 3 == s1.aon.assert_ then s1 else safeAssertOp (bitB v 3) s1
  if bitB v 4 then safeReleaseOp s2 else s2

/-- The host grace is running. -/
def graceRuns (s : State) : Bool := match s.aon.form with | .orderly (.grace _) _ _ => true | _ => false

/-- AON_SEQ_STAT. -/
def seqStat (s : State) : Word :=
  packW [(pwrCode s.aon.seqState, 3), (b2n s.aon.stall, 1), (b2n (s.aon.faults != 0), 1), (s.aon.offCause.toNat, 3),
    (s.aon.cmdErr.toNat, 3), (b2n (graceRuns s), 1), (0, 4), (bitsN s.aon.strap 2 0, 3)]

/-- The item's STATE reads FAULT. -/
def showsFault (s : State) (i : Nat) : Bool :=
  match itemKind i with
  | some (.inl n) => (getRail s n).st == .fault
  | some (.inr d) => (getDom s d).st == .fault
  | none => false

/-- Faults cleared in AON_FAULTS (R109): an item that shows FAULT returns to OFF; a loss of PD3 to it is live no more (R71). -/
def faultsClear (m : BitVec 28) (s : State) : State :=
  noteDrive (fun s => forEach (fun i s =>
    if m.getLsbD i && itemFault s i then
      let s1 := modAon (fun a => { a with faults := withBit a.faults i false, beatMask := withBit a.beatMask i false }) s
      if showsFault s i then setItem .off .off i s1 else s1
    else s) allItems s) s

/-- State codes of rails and domains. -/
def railCode : RailSt → Nat
  | .off => 0
  | .wait => 1
  | .delay => 2
  | .soft => 3
  | .good => 4
  | .fault => 5
  | .cool => 6
  | .down => 7
def domCode : DomSt → Nat
  | .off => 0
  | .wait => 1
  | .switch => 3
  | .good => 4
  | .fault => 5

/-- AON_RAILn_DEP, _CFG, _RTY, _STAT by number. -/
def railReg (x : RailS) (k : Nat) : Word :=
  match k with
  | 0 => x.mask.setWidth 32
  | 1 => packW [(b2n x.en, 1), (b2n x.stage, 1), (b2n x.csEn, 1), (0, 1), (x.dly.toNat, 4), (x.ssw.toNat, 8), (x.offw.toNat, 8)]
  | 2 => packW [(x.retry.toNat, 2), (0, 6), (x.cool.toNat, 8)]
  | _ => packW [(railCode x.st, 3), (0, 1), (x.tries.toNat, 3), (0, 1), (x.cause.toNat, 3), (b2n x.offSlow, 1)]

/-- A rail register written; settings only in OFF or FAULT (R110). -/
def railPut (k : Nat) (v : Word) (x : RailS) : RailS :=
  let free := x.st == .off || x.st == .fault
  match k with
  | 0 => if free then { x with mask := fld v 27 0 28 } else x
  | 1 => if free then { x with en := bitB v 0, stage := bitB v 1, csEn := bitB v 2, dly := fld v 7 4 4, ssw := fld v 15 8 8, offw := fld v 23 16 8 } else x
  | 2 => if free then { x with retry := fld v 1 0 2, cool := fld v 15 8 8 } else x
  | _ => { x with offSlow := x.offSlow && !bitB v 11 }

/-- AON_DOMn_CFG and _STAT. -/
def domReg (x : DomS) (stat : Bool) : Word :=
  if stat then BitVec.ofNat 32 (domCode x.st) else packW [(x.need.toNat, 16), (b2n x.en, 1), (b2n x.stage, 1)]
def domPut (v : Word) (x : DomS) : DomS :=
  if x.st == .off || x.st == .fault then { x with need := fld v 15 0 16, en := bitB v 16, stage := bitB v 17 } else x

def readSeq (s : State) (o : Nat) : Word :=
  let a := s.aon
  if h : 0x100 ≤ o ∧ o < 0x200 then railReg (getRail s ⟨(o - 0x100) / 16, by omega⟩) (o % 16 / 4)
  else if h : 0x208 ≤ o ∧ o < 0x260 then domReg (getDom s ⟨(o - 0x200) / 8, by omega⟩) (o % 8 == 4)
  else match o with
    | 0x08 => a.strap.setWidth 32
    | 0x10 => safeReg s
    | 0x20 => seqStat s
    | 0x28 => (goodMask s).setWidth 32
    | 0x2C => a.faults.setWidth 32
    | 0x30 => packW [(b2n a.btnLow, 1), (0, 7), (heldUnits s, 8), (b2n a.autoOn, 1)]
    | 0x34 => packW [(a.longS.toNat, 5), (0, 3), (a.cutS.toNat, 5)]
    | 0x38 => packW [(a.grace.toNat, 8), (a.vsLow.toNat, 8), (b2n a.vsEn, 1)]
    | 0x40 => packW [(a.scMask.toNat, 16), (a.scDir.toNat, 16)]
    | 0x44 => packW [(a.scSpmm.toNat, 12), (0, 4), (a.scCur.toNat, 8)]
    | _ => 0

/-- Settings of the sequencer with an NV copy are written through (R607). -/
def autoOnWrite (b : Bool) (s : State) : State := nvPut (.autoOn b) (modAon (fun a => { a with autoOn := b }) s)
def scCfgWrite (v : Word) (s : State) : State :=
  nvPut (.scCfg (fld v 31 16 16) (fld v 15 0 16)) (modAon (fun a => { a with scDir := fld v 31 16 16, scMask := fld v 15 0 16 }) s)
def scCfg2Write (v : Word) (s : State) : State :=
  nvPut (.scCfg2 (fld v 23 16 8) (fld v 11 0 12)) (modAon (fun a => { a with scCur := fld v 23 16 8, scSpmm := fld v 11 0 12 }) s)

def writeSeq (o : Nat) (v : Word) (s : State) : State :=
  if h : 0x100 ≤ o ∧ o < 0x200 then modRail ⟨(o - 0x100) / 16, by omega⟩ (railPut (o % 16 / 4) v) s
  else if h : 0x208 ≤ o ∧ o < 0x260 then
    if o % 8 = 0 then modDom ⟨(o - 0x200) / 8, by omega⟩ (domPut v) s else s
  else match o with
    | 0x10 => safeWrite v s
    | 0x20 => modAon (fun a => { a with cmdErr := w1c a.cmdErr (fld v 10 8 3), stall := a.stall && !bitB v 3 }) s
    | 0x24 => seqCmdWrite (bitsN v 3 0) (bitsN v 12 8) s
    | 0x2C => faultsClear (fld v 27 0 28) s
    | 0x30 => autoOnWrite (bitB v 16) s
    | 0x34 => unlocked (modAon fun a => { a with longS := fld v 4 0 5, cutS := fld v 12 8 5 }) s
    | 0x38 => unlocked (modAon fun a => { a with grace := fld v 7 0 8, vsLow := fld v 15 8 8, vsEn := bitB v 16 }) s
    | 0x40 => unlocked (scCfgWrite v) s
    | 0x44 => unlocked (scCfg2Write v) s
    | _ => s

/-! ## AON: retention, usage, temperature and the log (12, 16, 17) -/

def tstat (t : Thermal) : Word :=
  packW [(t.td.toNat, 16), (t.band.toNat, 3), (0, 6), (b2n t.isWarn, 1), (b2n t.isThr, 1), (b2n t.isShut, 1), (0, 1),
    (t.cause.toNat, 3)]
def sensorReg (x : Sensor) : Word := packW [(x.temp.toNat, 16), (b2n x.valid, 1), (b2n x.failed, 1)]
def thermReg (x : Therm) : Word := packW [(x.count.toNat, 12), (b2n x.valid, 1), (0, 3), (x.limit.toNat, 12)]

def readTherm (s : State) (o : Nat) : Word :=
  let t := s.therm
  if h : 0x520 ≤ o ∧ o < 0x544 then sensorReg (tget t.sensors ⟨(o - 0x520) / 4, by omega⟩)
  else if h : 0x560 ≤ o ∧ o < 0x580 then thermReg (tget t.ths ⟨(o - 0x560) / 4, by omega⟩)
  else match o with
    | 0x500 => packW [(t.warn.toNat, 8), (t.thr.toNat, 8), (t.shut.toNat, 8), (t.hys.toNat, 4)]
    | 0x504 => packW [(t.thk.toNat, 8), (0, 8), (t.cap.toNat, 16)]
    | 0x508 => packW [((tget t.tb 0).toNat, 8), ((tget t.tb 1).toNat, 8), ((tget t.tb 2).toNat, 8), ((tget t.tb 3).toNat, 8)]
    | 0x50C => packW [((tget t.tb 4).toNat, 8), ((tget t.tb 5).toNat, 8), ((tget t.tb 6).toNat, 8)]
    | 0x510 => tstat t
    | 0x514 => t.ext.setWidth 32
    | _ => 0

/-- Strictly ascending. -/
def ascending : List Nat → Bool
  | a :: b :: l => decide (a < b) && ascending (b :: l)
  | _ => true

/-- New band limits are taken where they ascend strictly (R605). -/
def tbWrite (v : Vector Byte 7) (s : State) : State :=
  if ascending (v.toList.map (·.toNat)) then modTherm (fun t => { t with tb := v }) s else s

def writeTherm (o : Nat) (v : Word) (s : State) : State :=
  let b := s.therm.tb
  if h : 0x560 ≤ o ∧ o < 0x580 then
    modTherm (fun t => { t with ths := tmod t.ths ⟨(o - 0x560) / 4, by omega⟩ fun x => { x with limit := fld v 27 16 12 } }) s
  else match o with
    | 0x500 => unlocked (modTherm fun t => { t with warn := fld v 7 0 8, thr := fld v 15 8 8, shut := fld v 23 16 8, hys := fld v 27 24 4 }) s
    | 0x504 => unlocked (modTherm fun t => { t with thk := fld v 7 0 8, cap := fld v 31 16 16 }) s
    | 0x508 => unlocked (tbWrite (tset (tset (tset (tset b 0 (fld v 7 0 8)) 1 (fld v 15 8 8)) 2 (fld v 23 16 8)) 3 (fld v 31 24 8))) s
    | 0x50C => unlocked (tbWrite (tset (tset (tset b 4 (fld v 7 0 8)) 5 (fld v 15 8 8)) 6 (fld v 23 16 8))) s
    | _ => s

def readLog (s : State) (o : Nat) : Word :=
  let l := s.lg
  if h : 0x610 ≤ o ∧ o < 0x630 then
    let st := tget s.nv.streams ⟨(o - 0x610) / 8, by omega⟩
    if o % 8 = 0 then st.nextSeq else st.lost
  else if h : 0x660 ≤ o ∧ o < 0x680 then tget l.win ⟨(o - 0x660) / 4, by omega⟩
  else match o with
    | 0x600 => l.mode.setWidth 32
    | 0x640 => l.rdStream.setWidth 32
    | 0x648 => packW [(b2n l.rdBusy, 1), (b2n l.rdFound, 1)]
    | 0x64C => l.rdRseq
    | 0x680 => l.xDst.setWidth 32
    | 0x684 => (l.xDst >>> 32).setWidth 32
    | 0x688 => l.xFirst
    | 0x68C => packW [(0, 1), (l.xMode.toNat, 2), (0, 1), (l.xStream.toNat, 2), (0, 10), (l.xCount.toNat, 12)]
    | 0x690 => packW [(b2n l.xBusy, 1), (b2n l.xDone, 1), (0, 6), (l.xErr.toNat, 8)]
    | _ => 0

/-- One half of a 36-bit local address written. -/
def put36 (cur : BitVec 36) (hi : Bool) (v : Word) : BitVec 36 := (putHalf (cur.setWidth 64) hi v).setWidth 36

def logModeWrite (m : BitVec 4) (s : State) : State := nvPut (.logCfg m) (modLg (fun l => { l with mode := m }) s)

def writeLog (o : Nat) (v : Word) (s : State) : State :=
  match o with
  | 0x600 => unlocked (logModeWrite (fld v 3 0 4)) s
  | 0x640 => modLg (fun l => { l with rdStream := fld v 1 0 2 }) s
  | 0x644 => logReadoutOp v s
  | 0x680 => modLg (fun l => { l with xDst := put36 l.xDst false v }) s
  | 0x684 => modLg (fun l => { l with xDst := put36 l.xDst true v }) s
  | 0x688 => modLg (fun l => { l with xFirst := v }) s
  | 0x68C => exportStart v s
  | 0x690 => modLg (fun l => { l with xDone := l.xDone && !bitB v 1 }) s
  | _ => s

def readAon (s : State) (o : Nat) : Word :=
  let a := s.aon
  if o < 0x300 then readSeq s o
  else if h : 0x340 ≤ o ∧ o < 0x380 then tget a.shadow ⟨(o - 0x340) / 4, by omega⟩
  else if h : 0x400 ≤ o ∧ o < 0x440 then halfOf (tget a.usage ⟨(o - 0x400) / 8, by omega⟩) (o % 8 == 4)
  else if 0x500 ≤ o ∧ o < 0x600 then readTherm s o
  else if 0x600 ≤ o ∧ o < 0x700 then readLog s o
  else match o with
    | 0x300 => packW [(a.retain.toNat, 16), (a.shadowValid.toNat, 16)]
    | 0x304 => a.irest.setWidth 32
    | 0x440 => halfOf a.pages false
    | 0x444 => halfOf a.pages true
    | _ => 0

def writeAon (o : Nat) (v : Word) (s : State) : State :=
  if o < 0x300 then writeSeq o v s
  else if 0x500 ≤ o ∧ o < 0x600 then writeTherm o v s
  else if 0x600 ≤ o ∧ o < 0x700 then writeLog o v s
  else match o with
    | 0x300 => modAon (fun a => { a with retain := fld v 15 0 16 }) s
    | 0x304 => modAon (fun a => { a with irest := fld v 7 0 8 }) s
    | _ => s

/-- What a read of the AON block changes (RC). -/
def readAonEff (o : Nat) (s : State) : State :=
  if h : 0x610 ≤ o ∧ o < 0x630 then
    if o % 8 = 4 then modStream ⟨(o - 0x610) / 8, by omega⟩ (fun x => { x with lost := 0 }) s else s
  else s

/-! ## BOOT (05) -/

def readBoot (s : State) (o : Nat) : Word :=
  let b := s.boot
  if h : 0x100 ≤ o ∧ o < 0x180 then tget (otpNow b) ⟨(o - 0x100) / 4, by omega⟩
  else match o with
    | 0x00 => bootStat s
    | 0x04 => packW [(0, 1), (b2n b.ldieDone, 1)]
    | 0x08 => packW [(b.bootWd.toNat, 8), (b2n b.scheme, 1)]
    | 0x10 => halfOf b.src false
    | 0x14 => halfOf b.src true
    | 0x18 => packW [(0, 1), (b2n b.ldMode, 1), (0, 6), (b.dev.toNat, 3)]
    | 0x1C => packW [(b2n b.op.isSome, 1), (b2n b.ldDone, 1), (0, 6), (b.ldErr.toNat, 8), (b.ldBlk.toNat, 16)]
    | 0x20 => packW [(0, 1), (b2n b.rbErr, 1)]
    | 0x30 => b.otpAddr.setWidth 32
    | 0x34 => b.otpData
    | 0x38 => packW [(0, 1), (b2n b.otpRefused, 1)]
    | _ => 0

/-- A write of BOOT_CTL: each action whose bit is 1, from bit 0 up, a restart last. -/
def bootCtlWrite (v : Word) (s : State) : State :=
  let s1 := if bitB v 0 then bootOkOp s else s
  let s2 := if bitB v 1 then ldieDoneOp s1 else s1
  let s3 := if bitB v 3 then imageCut Config.abandonErr.toNat s2 else s2
  if bitB v 2 then bootRestartOp s3 else s3

def bootCfgWrite (v : Word) (s : State) : State :=
  nvPut (.bootCfg (bitB v 8) (fld v 7 0 8)) (modBoot (fun b => { b with scheme := bitB v 8, bootWd := fld v 7 0 8 }) s)

def writeBoot (o : Nat) (v : Word) (s : State) : State :=
  match o with
  | 0x04 => bootCtlWrite v s
  | 0x08 => unlocked (bootCfgWrite v) s
  | 0x10 => modBoot (fun b => { b with src := putHalf b.src false v }) s
  | 0x14 => modBoot (fun b => { b with src := putHalf b.src true v }) s
  | 0x18 => loadCtlWrite v s
  | 0x1C => modBoot (fun b => { b with ldDone := b.ldDone && !bitB v 1 }) s
  | 0x20 =>
    let s1 := modBoot (fun b => { b with rbErr := b.rbErr && !bitB v 1 }) s
    if bitB v 0 then rbAdvanceOp s1 else s1
  | 0x30 => modBoot (fun b => { b with otpAddr := fld v 4 0 5 }) s
  | 0x34 => modBoot (fun b => { b with otpData := v }) s
  | 0x38 =>
    let s1 := modBoot (fun b => { b with otpRefused := b.otpRefused && !bitB v 1 }) s
    if bitB v 0 then otpProgOp s1 else s1
  | _ => s

end Sys2Proof.Machine
end

