-- ==== Sys2Proof/Machine/RegHost.lean ====
section
/-!
DEFINITION. The registers of the HOST, MEM, CUE and TIME blocks (04, 06, 08, 09, 16). Offsets are inside the block (R10).
-/

namespace Sys2Proof.Machine

/-- A bit per element of a table. -/
def bitsBy (n : Nat) (p : Fin n → Bool) : Nat := bitsOf ((allFin n).map p)

/-! ## HOST (08) -/

def hostStat (s : State) : Word :=
  let r := s.host.regs
  packW [(b2n r.needrec, 1), (b2n s.host.recov.isSome, 1), (b2n r.recRefused, 1), (0, 5),
    (bitsBy 8 fun n => (tget r.rings n).err != 0, 8)]

/-- Vectors of kinds from `k` on, five bits each. -/
def vmapReg (s : State) (k n : Nat) : Word :=
  packW ((List.range n).map fun i => ((tget s.host.regs.vmap (Fin.ofNat 10 (k + i))).toNat, 5))
def vmapPut (k n : Nat) (v : Word) (m : Vector (BitVec 5) 10) : Vector (BitVec 5) 10 :=
  Vector.ofFn fun i => if k ≤ i.1 ∧ i.1 < k + n then fld v (5 * (i.1 - k) + 4) (5 * (i.1 - k)) 5 else tget m i

def ringReg (x : RingS) (k : Nat) : Word :=
  match k with
  | 0 => halfOf x.base false
  | 1 => halfOf x.base true
  | 2 => packW [(x.size.toNat, 4), (0, 4), (b2n x.en, 1)]
  | 3 => x.tail
  | 4 => x.head
  | 5 => x.err.setWidth 32
  | _ => 0

def readHost (s : State) (o : Nat) : Word :=
  let r := s.host.regs
  if h : 0x100 ≤ o ∧ o < 0x200 then ringReg (getRing s ⟨(o - 0x100) / 32, by omega⟩) (o % 32 / 4)
  else if h : 0x8000 ≤ o ∧ o < 0x8200 then tget r.msix ⟨(o - 0x8000) / 4, by omega⟩
  else match o with
    | 0x00 => hostStat s
    | 0x08 => packW [(r.coalCount.toNat, 8), (0, 8), (r.coalTime.toNat, 10)]
    | 0x10 => vmapReg s 0 6
    | 0x14 => vmapReg s 6 4
    | 0x18 => r.bar2.setWidth 32
    | 0x40 => halfOf r.cpqBase false
    | 0x44 => halfOf r.cpqBase true
    | 0x48 => packW [(r.cpqSize.toNat, 5), (0, 3), (b2n r.cpqEn, 1)]
    | 0x4C => r.cpqHead
    | 0x50 => r.cpqTail
    | _ => 0

/-- The base of a ring is taken while the ring is disabled (R286). -/
def ringBase (r : Ring) (hi : Bool) (v : Word) (s : State) : State :=
  modRing r (fun x => if x.en then x else { x with base := putHalf x.base hi v }) s

def writeRing (r : Ring) (k : Nat) (v : Word) (s : State) : State :=
  match k with
  | 0 => ringBase r false v s
  | 1 => ringBase r true v s
  | 2 => ringCfgWrite r v s
  | 3 => ringTailWrite r v s
  | 5 => if bitsN v 7 0 = 0 then s else modRing r (fun x => { x with err := 0 }) s
  | _ => s

/-- The base of CPQ is taken while CPQ is disabled (R296). -/
def cpqBase (hi : Bool) (v : Word) (s : State) : State :=
  modRegs (fun r => if r.cpqEn then r else { r with cpqBase := putHalf r.cpqBase hi v }) s

def writeHost (o : Nat) (v : Word) (s : State) : State :=
  if h : 0x100 ≤ o ∧ o < 0x200 then writeRing ⟨(o - 0x100) / 32, by omega⟩ (o % 32 / 4) v s
  else if h : 0x8000 ≤ o ∧ o < 0x8200 then modRegs (fun r => { r with msix := tset r.msix ⟨(o - 0x8000) / 4, by omega⟩ v }) s
  else match o with
    | 0x00 => modRegs (fun r => { r with recRefused := r.recRefused && !bitB v 2 }) s
    | 0x04 => if isManager s then recoverWrite v s else s
    | 0x08 => modRegs (fun r => { r with coalCount := fld v 7 0 8, coalTime := fld v 25 16 10 }) s
    | 0x10 => modRegs (fun r => { r with vmap := vmapPut 0 6 v r.vmap }) s
    | 0x14 => modRegs (fun r => { r with vmap := vmapPut 6 4 v r.vmap }) s
    | 0x18 => modRegs (fun r => { r with bar2 := fld v 2 0 3 }) s
    | 0x40 => cpqBase false v s
    | 0x44 => cpqBase true v s
    | 0x48 => cpqCfgWrite v s
    | 0x4C => modRegs (fun r => { r with cpqHead := v }) s
    | _ => s

/-! ## MEM (09) -/

def memStat (s : State) : Word :=
  packW [(b2n s.mem.ready, 1), (b2n s.mem.trainFail, 1), (0, 2), (s.therm.band.toNat, 3), (0, 1), (s.mem.mult.toNat, 2)]

/-- MEM_ARBn reads as last written. -/
def arbReg (r : ReqS) : Word :=
  match r.pend with
  | some (q, w, b) => packW [(b.toNat, 4), (0, 4), (w.toNat, 4), (0, 4), (q.toNat, 12)]
  | none => packW [(r.base.toNat, 4), (0, 4), (r.wlog.toNat, 4), (0, 4), (r.q.toNat, 12)]
def arbStat (r : ReqS) : Word := packW [(r.eff.toNat, 4), (0, 4), (b2n r.choke, 1), (0, 7), (r.usedq.toNat, 12)]

def readMem (s : State) (o : Nat) : Word :=
  let m := s.mem
  if h : 0x200 ≤ o ∧ o < 0x300 then
    let r := tget m.req ⟨(o - 0x200) / 16, by omega⟩
    (match o % 16 with | 0 => arbReg r | 4 => arbStat r | _ => 0)
  else if h : 0x400 ≤ o ∧ o < 0x500 then
    let r := tget m.req ⟨(o - 0x400) / 16, by omega⟩
    (match o % 16 with | 0 => r.grants | 4 => r.waits | 8 => r.longest | _ => 0)
  else if h : 0x600 ≤ o ∧ o < 0x700 then
    let r := tget m.req ⟨(o - 0x600) / 16, by omega⟩
    (match o % 16 with | 0 => r.snapGrants | 4 => r.snapWaits | 8 => r.snapLongest | _ => 0)
  else match o with
    | 0x00 => packW [(m.rate.toNat, 3), (0, 1), (b2n m.ranks, 1), (0, 3), (m.dens.toNat, 2), (0, 2), (b2n m.eccEn, 1)]
    | 0x08 => memStat s
    | 0x0C => packW [(m.ce.toNat, 16), (m.ue.toNat, 16)]
    | 0x10 => m.ueAddr.setWidth 32
    | 0x14 => (m.ueAddr >>> 32).setWidth 32
    | 0x18 => m.scrub.setWidth 32
    | 0x20 => halfOf m.cpyHost false
    | 0x24 => halfOf m.cpyHost true
    | 0x28 => m.cpyLoc.setWidth 32
    | 0x2C => (m.cpyLoc >>> 32).setWidth 32
    | 0x30 => m.cpyLen.setWidth 32
    | 0x34 => packW [(0, 1), (b2n m.cpyDir, 1)]
    | 0x38 => packW [(b2n m.cpyCur.isSome, 1), (b2n m.cpyDone, 1), (0, 6), (m.cpyErr.toNat, 8)]
    | 0x100 => m.preset.setWidth 32
    | 0x104 => m.pool.setWidth 32
    | 0x108 => packW [(bwLimit s, 17)]
    | 0x10C => packW [(bwUsed s, 17)]
    | _ => 0

/-- MEM_CFG takes no write after INIT (R325). -/
def memCfgWrite (v : Word) (m : MemS) : MemS :=
  if m.frozen then m else { m with eccEn := bitB v 12, dens := fld v 9 8 2, ranks := bitB v 4, rate := fld v 2 0 3 }

def writeMem (o : Nat) (v : Word) (s : State) : State :=
  if h : 0x200 ≤ o ∧ o < 0x300 then (if o % 16 = 0 then arbWrite ⟨(o - 0x200) / 16, by omega⟩ v s else s)
  else match o with
    | 0x00 => modMem (memCfgWrite v) s
    | 0x04 => if bitB v 0 then memInitOp s else s
    | 0x18 => modMem (fun m => { m with scrub := fld v 7 0 8 }) s
    | 0x20 => modMem (fun m => { m with cpyHost := putHalf m.cpyHost false v }) s
    | 0x24 => modMem (fun m => { m with cpyHost := putHalf m.cpyHost true v }) s
    | 0x28 => modMem (fun m => { m with cpyLoc := put36 m.cpyLoc false v }) s
    | 0x2C => modMem (fun m => { m with cpyLoc := put36 m.cpyLoc true v }) s
    | 0x30 => modMem (fun m => { m with cpyLen := fld v 24 0 25 }) s
    | 0x34 => copyCtl v s
    | 0x38 => modMem (fun m => { m with cpyDone := m.cpyDone && !bitB v 1 }) s
    | 0x100 => arbCtl v s
    | 0x104 => modMem (fun m => { m with pool := fld v 16 0 17 }) s
    | _ => s

/-- What a read of the MEM block changes (RC). -/
def readMemEff (o : Nat) (s : State) : State := if o = 0x0C then modMem (fun m => { m with ue := 0, ce := 0 }) s else s

/-! ## CUE (06, 16) -/

/-- Longest run of free pages and their number: n pages from i on, with the run before them. -/
def pageRuns (s : State) : Nat → Nat → Nat → Nat × Nat → Nat × Nat
  | 0, _, _, r => r
  | n + 1, i, run, (best, free) =>
    if pageFree s i then pageRuns s n (i + 1) (run + 1) (max best (run + 1), free + 1) else pageRuns s n (i + 1) 0 (best, free)

def cueMem (s : State) : Word :=
  let r := pageRuns s cuePages 0 0 (0, 0)
  packW [(r.2, 10), (0, 6), (r.1, 10)]

/-- Channels lo to lo + 31 that satisfy p. -/
def chanBits (s : State) (hi : Bool) (p : Channel → Bool) : Word :=
  BitVec.ofNat 32 (bitsOf ((List.range 32).map fun i => p (getCh s (Fin.ofNat 64 (i + if hi then 32 else 0)))))

/-- A REFRESH is staging for the channel. -/
def refreshStages (s : State) (c : Chan) : Bool := match s.cue.life with | some l => l.refresh && l.chan == c | none => false

def chanReg (s : State) (c : Chan) (k : Nat) : Word :=
  let x := getCh s c
  match k with
  | 0 => packW [(chCode x.st, 3), (b2n x.blocked.isSome, 1), (0, 1), (b2n (refreshStages s c), 1), (0, 10),
      ((flagWord s c).toNat, 16)]
  | 1 => packW [(x.pc.off, 18)]
  | 2 => x.faultCode.setWidth 32
  | 3 => packW [(x.fpc, 18)]
  | 4 => packW [(x.stack.length, 3), (0, 5), ((pendingActs s c).length, 5), (0, 3), (x.mailbox.length, 4), (0, 4), (x.evq.length, 6)]
  | _ => 0

/-- PAGE_PLANi.STATE. -/
def planCode (g : Page) : Nat :=
  match g.st with
  | .posted => 1
  | .admitted => 2
  | .ended => 3
  | .aborting => 4

def planReg (s : State) (i : Fin 32) (hi : Bool) : Word :=
  match s.cue.pages.find? (·.ix == i) with
  | none => 0
  | some g => if hi then packW [(planCode g, 3), (0, 5), (g.plan.path.toNat, 2), (0, 6), (g.unmet.toNat, 12)] else g.handle

def pageStat (s : State) : Word :=
  packW [(s.cue.pages.length, 6), (0, 2), ((s.cue.pages.filter Page.isAdm).length, 6), (0, 2),
    (b2n s.cue.jamLatch, 1), (0, 7), (s.cue.jamSrc.toNat, 5)]

def grantReg (s : State) (i : Fin 256) : Word :=
  match tget s.cue.grant i with
  | some c => packW [(c.1, 6), (0, 1), (1, 1)]
  | none => 0

def readCue (s : State) (o : Nat) : Word :=
  if h : 0x900 ≤ o ∧ o < 0xA00 then planReg s ⟨(o - 0x900) / 8, by omega⟩ (o % 8 == 4)
  else if h : 0x1000 ≤ o ∧ o < 0x2000 then chanReg s ⟨(o - 0x1000) / 64, by omega⟩ (o % 64 / 4)
  else if h : 0x2000 ≤ o ∧ o < 0x2400 then grantReg s ⟨(o - 0x2000) / 4, by omega⟩
  else if h : 0x4000 ≤ o ∧ o < 0x5000 then tget (getCh s ⟨(o - 0x4000) / 64, by omega⟩).slots ⟨o % 64 / 4, by omega⟩
  else if h : 0x8000 ≤ o ∧ o < 0x9000 then
    BitVec.ofNat 32 (fieldN (statBytes (getCh s ⟨(o - 0x8000) / 64, by omega⟩).stats) (o % 64) 4)
  else match o with
    | 0x00 => halfOf s.cue.ctBase false
    | 0x04 => halfOf s.cue.ctBase true
    | 0x08 => cueMem s
    | 0x10 => chanBits s false (·.st != .disarmed)
    | 0x14 => chanBits s true (·.st != .disarmed)
    | 0x18 => chanBits s false (·.st == .faulted)
    | 0x1C => chanBits s true (·.st == .faulted)
    | 0x800 => packW [(s.cue.lead.toNat, 8), (s.cue.jamFilt.toNat, 8), (s.cue.keepb.toNat, 4)]
    | 0x804 => pageStat s
    | 0x808 => s.cue.pol
    | 0x80C => s.cue.nextAdm
    | 0x810 => s.cue.nextHdl
    | _ => 0

/-- The table base is taken while every channel is DISARMED (R237). -/
def ctBaseWrite (hi : Bool) (v : Word) (s : State) : State :=
  if s.cue.ch.toList.all (fun x => x.st == .disarmed) then modCue (fun c => { c with ctBase := putHalf c.ctBase hi v }) s else s

def writeCue (o : Nat) (v : Word) (s : State) : State :=
  match o with
  | 0x00 => ctBaseWrite false v s
  | 0x04 => ctBaseWrite true v s
  | 0x800 => modCue (fun c => { c with keepb := fld v 19 16 4, jamFilt := fld v 15 8 8, lead := fld v 7 0 8 }) s
  | 0x804 => if bitB v 16 then jamClear s.cue.gpioIn s else s
  | 0x808 => modCue (fun c => { c with pol := v }) s
  | _ => s

/-! ## TIME (04) -/

def trkStat (k : Tracker) : Word :=
  packW [(trkCode k.st, 2), (k.run, 2), (b2n k.lastSynth, 1), (0, 3), (b2n k.loss, 1), (b2n k.lateClaim, 1), (0, 14),
    (k.p256 % 256, 8)]

def trkReg (s : State) (k : Tracker) (r : Nat) : Word :=
  match r with
  | 0 => packW [(b2n k.en, 1), (k.src.toNat, 4), (k.edge.toNat, 2), (0, 1), (k.avg.toNat, 2), (0, 14), (k.filt.toNat, 8)]
  | 1 => packW [(k.noiseT.toNat, 6), (0, 2), (k.miss.toNat, 7), (0, 1), (k.latew.toNat, 6)]
  | 2 => k.guard.setWidth 32
  | 3 => k.pmin
  | 4 => k.pmax
  | 6 => trkStat k
  | 7 => BitVec.ofNat 32 (trkPhase s k)
  | 8 => k.index
  | 9 => BitVec.ofNat 32 (k.p256 / 256)
  | 10 => BitVec.ofNat 32 (k.anchor256 / 256)
  | 11 => k.anchorHi
  | 12 => k.noise
  | 13 => k.synth
  | _ => 0

def readTime (s : State) (o : Nat) : Word :=
  if h : 0x100 ≤ o ∧ o < 0x500 then trkReg s (getTrk s ⟨(o - 0x100) / 64, by omega⟩) (o % 64 / 4)
  else match o with
    | 0x00 => s.cue.et.setWidth 32
    | 0x04 => s.cue.etHi
    | 0x08 => packW [(b2n s.aon.xtalOk, 1), (b2n s.cue.slipped, 1)]
    | 0x10 => packW [(s.cue.slips.toNat, 16), ((allPending s).length, 11)]
    | _ => 0

/-- Settings taken while EN is 0 (R148). -/
def trkPut (t : Trk) (f : Tracker → Tracker) (s : State) : State := if (getTrk s t).en then s else modTrk t f s

def writeTrk (t : Trk) (r : Nat) (v : Word) (s : State) : State :=
  match r with
  | 0 => trkCfgWrite t v s
  | 1 => trkPut t (fun k => { k with latew := fld v 21 16 6, miss := fld v 14 8 7, noiseT := fld v 5 0 6 }) s
  | 2 => trkGuardWrite t v s
  | 3 => trkPut t (fun k => { k with pmin := v }) s
  | 4 => trkPut t (fun k => { k with pmax := v }) s
  | 5 => trkCtlWrite t v s
  | 6 => modTrk t (fun k => { k with loss := k.loss && !bitB v 8, lateClaim := k.lateClaim && !bitB v 9 }) s
  | 8 => trkPut t (fun k => { k with index := v }) s
  | _ => s

def writeTime (o : Nat) (v : Word) (s : State) : State :=
  if h : 0x100 ≤ o ∧ o < 0x500 then writeTrk ⟨(o - 0x100) / 64, by omega⟩ (o % 64 / 4) v s
  else if o = 0x08 then modCue (fun c => { c with slipped := c.slipped && !bitB v 1 }) s
  else s

/-- What a read of the TIME block changes: the latches of the low reads (R129, R147) and RC. -/
def readTimeEff (o : Nat) (s : State) : State :=
  if h : 0x100 ≤ o ∧ o < 0x500 then
    modTrk ⟨(o - 0x100) / 64, by omega⟩ (fun k => match o % 64 / 4 with
      | 10 => { k with anchorHi := BitVec.ofNat 32 (k.anchor256 / 256 / 2 ^ 32) }
      | 12 => { k with noise := 0 }
      | 13 => { k with synth := 0 }
      | _ => k) s
  else match o with
    | 0x00 => modCue (fun c => { c with etHi := (c.et >>> 32).setWidth 32 }) s
    | 0x10 => modCue (fun c => { c with slips := 0 }) s
    | _ => s

end Sys2Proof.Machine
end

