-- ==== Sys2Proof/Machine/RegEng.lean ====
section
/-!
DEFINITION. The registers of the TAMP, RAST, BEAM, MOTN, LOOP, HEAD, SCAN and SKID blocks (09-15, 18). Offsets are inside the
block (R10).
-/

namespace Sys2Proof.Machine

/-! ## TAMP (10) -/

/-- Unit u is working. -/
def tampBusy (s : State) (u : Fin 8) : Bool :=
  if h : u.1 < 6 then (tget s.rast.dec ⟨u.1, h⟩).active else (tget s.rast.enc ⟨u.1 - 6, by omega⟩).active

def encReg (x : Enc) : Word :=
  packW [(x.level.toNat, 3), (0, 5), (x.depth.toNat, 9), (0, 3), (x.blk.toNat, 4), (0, 7), (b2n x.xp, 1)]
def encPut (v : Word) (x : Enc) : Enc := { x with level := fld v 2 0 3, depth := fld v 16 8 9, blk := fld v 23 20 4, xp := bitB v 31 }

/-- Results of unit u: last error, streams, errors, output bytes. -/
def unitReg (s : State) (u : Fin 8) (k : Nat) : Word :=
  if h : u.1 < 6 then
    let x := tget s.rast.dec ⟨u.1, h⟩
    match k with
    | 0 => packW [(x.lastCode.toNat, 8), (0, 8), (x.lastBlk.toNat, 16)]
    | 1 => x.streams
    | 2 => x.errors
    | _ => x.outBytes
  else
    let x := tget s.rast.enc ⟨u.1 - 6, by omega⟩
    match k with
    | 0 => packW [(x.lastCode.toNat, 8), (0, 8), (x.lastBlk.toNat, 16)]
    | 1 => x.streams
    | 2 => x.errors
    | _ => x.outBytes

def readTamp (s : State) (o : Nat) : Word :=
  let r := s.rast
  if h : 0x100 ≤ o ∧ o < 0x180 then unitReg s ⟨(o - 0x100) / 16, by omega⟩ (o % 16 / 4)
  else match o with
    | 0x00 => packW [(bitsBy 8 (tampBusy s), 8), (r.tampErr.toNat, 8)]
    | 0x10 => encReg (tget r.enc 0)
    | 0x14 => encReg (tget r.enc 1)
    | 0x20 => r.genSrc.setWidth 32
    | 0x24 => (r.genSrc >>> 32).setWidth 32
    | 0x28 => r.genSlen
    | 0x2C => r.genDst.setWidth 32
    | 0x30 => (r.genDst >>> 32).setWidth 32
    | 0x34 => r.genDlen
    | 0x3C => packW [(b2n r.genBusy, 1), (b2n r.genDone, 1), (0, 6), (r.genErr.toNat, 8)]
    | _ => 0

def writeTamp (o : Nat) (v : Word) (s : State) : State :=
  match o with
  | 0x00 => modRast (fun r => { r with tampErr := w1c r.tampErr (fld v 15 8 8) }) s
  | 0x10 => modRast (fun r => { r with enc := tmod r.enc 0 (encPut v) }) s
  | 0x14 => modRast (fun r => { r with enc := tmod r.enc 1 (encPut v) }) s
  | 0x20 => modRast (fun r => { r with genSrc := put36 r.genSrc false v }) s
  | 0x24 => modRast (fun r => { r with genSrc := put36 r.genSrc true v }) s
  | 0x28 => modRast (fun r => { r with genSlen := v }) s
  | 0x2C => modRast (fun r => { r with genDst := put36 r.genDst false v }) s
  | 0x30 => modRast (fun r => { r with genDst := put36 r.genDst true v }) s
  | 0x34 => modRast (fun r => { r with genDlen := v }) s
  | 0x38 => if bitB v 0 then genGo s else s
  | 0x3C => modRast (fun r => { r with genDone := r.genDone && !bitB v 1 }) s
  | _ => s

/-- Streams and errors of a unit clear when read (RC). -/
def readTampEff (o : Nat) (s : State) : State :=
  if h : 0x100 ≤ o ∧ o < 0x160 then
    modRast (fun r => { r with
      dec := tmod r.dec ⟨(o - 0x100) / 16, by omega⟩ fun x => match o % 16 with
      | 4 => { x with streams := 0 }
      | 8 => { x with errors := 0 }
      | _ => x }) s
  else if h : 0x160 ≤ o ∧ o < 0x180 then
    modRast (fun r => { r with
      enc := tmod r.enc ⟨(o - 0x160) / 16, by omega⟩ fun x => match o % 16 with
      | 4 => { x with streams := 0 }
      | 8 => { x with errors := 0 }
      | _ => x }) s
  else s

/-! ## RAST: Landing SRAM (09) -/

def landReg (s : State) (n : Fin 10) (word : Bool) : Word :=
  let x := tget s.rast.res n
  if word then packW [(x.slot.toNat, 12), (0, 19), (b2n (resActive s n), 1)]
  else packW [(x.base.toNat, 8), (x.units.toNat, 8), (0, 15), (b2n x.en, 1)]

def readRast (s : State) (o : Nat) : Word :=
  if h : 0x100 ≤ o ∧ o < 0x150 then landReg s ⟨(o - 0x100) / 8, by omega⟩ (o % 8 == 4)
  else if o = 0x80 then packW [(b2n s.rast.landErr, 1), (s.rast.landCe.toNat, 15), (s.rast.landUe.toNat, 16)]
  else 0

def writeRast (o : Nat) (v : Word) (s : State) : State :=
  if h : 0x100 ≤ o ∧ o < 0x150 then landWrite ⟨(o - 0x100) / 8, by omega⟩ (o % 8 == 4) v s
  else if o = 0x80 then modRast (fun r => { r with landErr := r.landErr && !bitB v 0 }) s
  else s

def readRastEff (o : Nat) (s : State) : State := if o = 0x80 then modRast (fun r => { r with landUe := 0, landCe := 0 }) s else s

/-! ## BEAM (11) -/

def beamStat (s : State) : Word :=
  packW (((allFin 4).map fun n => (beamCode (getStn s n).st, 2)) ++ [(0, 8), (bitsBy 4 (lenHigh s), 4)])

def stnReg (s : State) (n : Station) (k : Nat) : Word :=
  let x := getStn s n
  let c := x.reg
  let w := fun i : Fin 7 => (tget c.pwm i).toNat
  match k with
  | 1 => packW [(beamCode x.st, 2), (0, 2), (b2n (lenHigh s n), 1), (0, 3), (b2n (polyOk s n), 1), (0, 7), (x.cmdErr.toNat, 2),
      (0, 6), (x.fcause.toNat, 8)]
  | 2 => packW [(b2n c.depth, 1), (0, 3), (b2n c.align, 1), (0, 3), (x.trk.toNat, 4), (0, 4), (x.profile.toNat, 8),
      (c.gain.toNat, 4), (0, 3), (b2n x.xp, 1)]
  | 3 => x.loff.setWidth 32
  | 4 => c.pixels.setWidth 32
  | 5 => c.tpix.setWidth 32
  | 6 => c.sos.setWidth 32
  | 7 => c.bdwin.setWidth 32
  | 8 => packW [(w 0, 8), (w 1, 8), (w 2, 8), (w 3, 8)]
  | 9 => packW [(w 4, 8), (w 5, 8), (w 6, 8)]
  | 10 => x.trim.setWidth 32
  | 12 => x.blankl
  | 13 => x.starvel
  | 14 => x.bdmiss
  | 15 => x.overrun
  | _ => 0

def beamWord (x : BeamB) (word : Bool) : Word :=
  if word then packW [(x.boff.toNat, 8), (0, 1), (b2n x.weak, 1), (0, 6), (x.idrv.toNat, 12)]
  else packW [(x.tgt.toNat, 12), (0, 4), (x.ilim.toNat, 12)]

def readBeam (s : State) (o : Nat) : Word :=
  if h : 0x100 ≤ o ∧ o < 0x300 then stnReg s ⟨(o - 0x100) / 128, by omega⟩ (o % 128 / 4)
  else if h : 0x1000 ≤ o ∧ o < 0x1400 then
    beamWord (tget (getStn s ⟨(o - 0x1000) / 256, by omega⟩).beams ⟨o % 256 / 8, by omega⟩) (o % 8 == 4)
  else if h : 0x10 ≤ o ∧ o < 0x30 then (tget s.beam.apcm ⟨(o - 0x10) / 4, by omega⟩).setWidth 32
  else match o with
    | 0x00 => beamStat s
    | 0x04 => s.beam.nom
    | 0x08 => s.beam.tol.setWidth 32
    | _ => 0

/-- A change of a station's registers. -/
def stnCfg (n : Station) (f : BeamCfg → BeamCfg) (s : State) : State := modStn n (fun x => { x with reg := f x.reg }) s

def writeStn (n : Station) (k : Nat) (v : Word) (s : State) : State :=
  match k with
  | 0 => beamCmd n v s
  | 1 => modStn n (fun x => { x with cmdErr := w1c x.cmdErr (fld v 17 16 2) }) s
  | 2 => modStn n (fun x => { x with
      xp := bitB v 31, profile := fld v 23 16 8, trk := fld v 11 8 4
      reg := { x.reg with gain := fld v 27 24 4, align := bitB v 4, depth := bitB v 0 } }) s
  | 3 => modStn n (fun x => { x with loff := fld v 4 0 5 }) s
  | 4 => stnCfg n (fun c => { c with pixels := fld v 13 0 14 }) s
  | 5 => stnCfg n (fun c => { c with tpix := fld v 23 0 24 }) s
  | 6 => stnCfg n (fun c => { c with sos := fld v 23 0 24 }) s
  | 7 => stnCfg n (fun c => { c with bdwin := fld v 8 0 9 }) s
  | 8 => stnCfg n (fun c => { c with pwm := tset (tset (tset (tset c.pwm 0 (fld v 6 0 7)) 1 (fld v 14 8 7)) 2 (fld v 22 16 7)) 3 (fld v 30 24 7) }) s
  | 9 => stnCfg n (fun c => { c with pwm := tset (tset (tset c.pwm 4 (fld v 6 0 7)) 5 (fld v 14 8 7)) 6 (fld v 22 16 7) }) s
  | _ => s

def writeBeamWord (n : Station) (b : Beam) (word : Bool) (v : Word) (s : State) : State :=
  modStn n (fun x => { x with
    beams := tmod x.beams b fun y =>
    if word then { y with boff := fld v 7 0 8 } else { y with ilim := fld v 27 16 12, tgt := fld v 11 0 12 } }) s

def writeBeam (o : Nat) (v : Word) (s : State) : State :=
  if h : 0x100 ≤ o ∧ o < 0x300 then writeStn ⟨(o - 0x100) / 128, by omega⟩ (o % 128 / 4) v s
  else if h : 0x1000 ≤ o ∧ o < 0x1400 then writeBeamWord ⟨(o - 0x1000) / 256, by omega⟩ ⟨o % 256 / 8, by omega⟩ (o % 8 == 4) v s
  else if h : 0x10 ≤ o ∧ o < 0x30 then
    { s with beam := { s.beam with apcm := tset s.beam.apcm ⟨(o - 0x10) / 4, by omega⟩ (fld v 15 0 16) } }
  else match o with
    | 0x04 => withPoly (fun s => { s with beam := { s.beam with nom := v } }) s
    | 0x08 => withPoly (fun s => { s with beam := { s.beam with tol := fld v 7 0 8 } }) s
    | _ => s

def readBeamEff (o : Nat) (s : State) : State :=
  if h : 0x100 ≤ o ∧ o < 0x300 then
    modStn ⟨(o - 0x100) / 128, by omega⟩ (fun x => match o % 128 / 4 with
      | 12 => { x with blankl := 0 }
      | 13 => { x with starvel := 0 }
      | 14 => { x with bdmiss := 0 }
      | 15 => { x with overrun := 0 }
      | _ => x) s
  else s

/-! ## MOTN (12) -/

def stepReg (x : StepperS) (k : Nat) : Word :=
  match k with
  | 1 => packW [(stepCode x.st, 3), (0, 2), (b2n x.homed, 1), (0, 2), (x.res.toNat, 3), (0, 1), (x.cmdErr.toNat, 2), (0, 2),
      (x.q.length, 5), (0, 3), (x.fcause.toNat, 8)]
  | 2 => packW [(b2n x.mode, 1), (0, 3), (b2n x.stallEn, 1), (0, 3), (x.stallTrk.toNat, 4), (0, 4), (x.safeDec.toNat, 8),
      (x.iholdD.toNat, 8)]
  | 3 => x.pos
  | 4 => x.posw
  | 5 => velReg x
  | 6 => packW [((tget x.vt 0).toNat, 16), ((tget x.vt 1).toNat, 16)]
  | 7 => packW [((tget x.vt 2).toNat, 16), ((tget x.vt 3).toNat, 16)]
  | 8 => packW [(x.tol.toNat, 8), (0, 8), (x.ratio.toNat, 16)]
  | _ => 0

def bldcReg (x : BldcS) (k : Nat) : Word :=
  match k with
  | 1 => packW [(bldcCode x.st, 3), (0, 13), (x.q.length, 5), (0, 3), (x.fcause.toNat, 8)]
  | 2 => packW [(x.stallT.toNat, 8), (0, 4), (b2n x.dir, 1), (0, 3), (x.pairs.toNat, 4), (0, 4), (x.loopSlot.toNat, 6)]
  | 3 => x.speed.setWidth 32
  | 4 => x.safeDec.setWidth 32
  | _ => 0

def motnStat (s : State) : Word :=
  packW [(bitsBy 16 fun n => (getStep s n).st == .fault, 16), (bitsBy 4 fun k => (getBldc s k).st == .fault, 4), (0, 11),
    (b2n s.motn.vmotOk, 1)]

def readMotn (s : State) (o : Nat) : Word :=
  if h : 0x100 ≤ o ∧ o < 0x500 then stepReg { getStep s ⟨(o - 0x100) / 64, by omega⟩ with pos := posNow s ⟨(o - 0x100) / 64, by omega⟩ } (o % 64 / 4)
  else if h : 0x800 ≤ o ∧ o < 0x900 then bldcReg (getBldc s ⟨(o - 0x800) / 64, by omega⟩) (o % 64 / 4)
  else match o with
    | 0x00 => packW [(s.motn.vmot.toNat, 4), (0, 4), (b2n s.motn.vmotEn, 1)]
    | 0x04 => motnStat s
    | _ => 0

/-- MOTN_SnCFG is taken in IDLE or HOLD with an empty flume; else CMDERR is set (R450). -/
def stepCfgWrite (n : Fin 16) (v : Word) (s : State) : State :=
  if stepFree (getStep s n) then modStep n (fun x => { x with
    mode := bitB v 0, stallEn := bitB v 4, stallTrk := fld v 11 8 4, safeDec := fld v 23 16 8, iholdD := fld v 31 24 8 }) s
  else motErr (stepMotor n) s

def writeStep (n : Fin 16) (k : Nat) (v : Word) (s : State) : State :=
  match k with
  | 0 => motCmd (stepMotor n) v s
  | 1 => modStep n (fun x => { x with cmdErr := w1c x.cmdErr (fld v 13 12 2) }) s
  | 2 => stepCfgWrite n v s
  | 4 => modStep n (fun x => { x with posw := v }) s
  | 6 => modStep n (fun x => { x with vt := tset (tset x.vt 0 (fld v 15 0 16)) 1 (fld v 31 16 16) }) s
  | 7 => modStep n (fun x => { x with vt := tset (tset x.vt 2 (fld v 15 0 16)) 3 (fld v 31 16 16) }) s
  | 8 => modStep n (fun x => { x with tol := fld v 7 0 8, ratio := fld v 31 16 16 }) s
  | _ => s

def writeBldc (k : Fin 4) (r : Nat) (v : Word) (s : State) : State :=
  match r with
  | 0 => motCmd (bldcMotor k) v s
  | 2 => modBldc k (fun x => { x with loopSlot := fld v 29 24 6, pairs := fld v 19 16 4, dir := bitB v 12, stallT := fld v 7 0 8 }) s
  | 4 => modBldc k (fun x => { x with safeDec := fld v 15 0 16 }) s
  | _ => s

def writeMotn (o : Nat) (v : Word) (s : State) : State :=
  if h : 0x100 ≤ o ∧ o < 0x500 then writeStep ⟨(o - 0x100) / 64, by omega⟩ (o % 64 / 4) v s
  else if h : 0x800 ≤ o ∧ o < 0x900 then writeBldc ⟨(o - 0x800) / 64, by omega⟩ (o % 64 / 4) v s
  else if o = 0 then syncVmot { s with motn := { s.motn with vmotEn := bitB v 8, vmot := fld v 3 0 4 } }
  else s

/-! ## LOOP (13) -/

/-- A bit per slot, low or high half. -/
def slotBits (s : State) (hi : Bool) (p : LoopS → Bool) : Word :=
  halfOf (BitVec.ofNat 64 (bitsBy 48 fun l => p (getLoop s l))) hi

/-- A 48-bit value with one half written. -/
def put48 (cur : BitVec 48) (hi : Bool) (v : Word) : BitVec 48 := (putHalf (cur.setWidth 64) hi v).setWidth 48

def loopReg (x : LoopS) (k : Nat) : Word :=
  match k with
  | 1 => packW [(loopCode x.st, 3), (0, 5), (b2n x.locked, 1), (b2n (x.st == .run && x.sp != 256 * x.target), 1), (0, 6),
      (x.tries.toNat, 3), (0, 1), (x.cmdErr.toNat, 2), (0, 2), (x.cause.toNat, 8)]
  | 2 => packW [(x.out.toNat, 4), (0, 12), (x.inp.toNat, 6), (0, 2), (x.kind.toNat, 3)]
  | 3 => halfOf (x.dep.setWidth 64) false
  | 4 => halfOf (x.dep.setWidth 64) true
  | 5 => packW [(x.m.toNat, 16), (x.u.toNat, 16)]
  | 6 => packW [(x.sp / 256, 16), (x.target, 16)]
  | 7 => x.unlocks
  | _ => 0

def hvReg (x : HvS) (k : Nat) : Word :=
  match k with
  | 0 => packW [(x.vscale.toNat, 16), (x.iscale.toNat, 16)]
  | 1 => x.ilim.setWidth 32
  | 2 => x.fpwm.setWidth 32
  | _ => x.stby.setWidth 32

def zoneReg (x : ZoneS) (o : Nat) : Word :=
  if h : 0x40 ≤ o ∧ o < 0xC4 then (tget x.tht ⟨(o - 0x40) / 4, by omega⟩).setWidth 32
  else match o with
    | 0x00 => packW [(x.pri.toNat, 3), (0, 1), (x.guard.toNat, 3), (0, 9), (x.zdly.toNat, 11)]
    | 0x04 => packW [(x.gpw.toNat, 7), (0, 1), (x.gpulses.toNat, 4)]
    | 0x08 => packW [(x.tmax.toNat, 12), (0, 4), (x.warmt.toNat, 8)]
    | 0x0C => packW [(x.priT.toNat, 16), (x.guardT.toNat, 16)]
    | _ => 0

def readLoop (s : State) (o : Nat) : Word :=
  let e := s.loops
  if h : 0x100 ≤ o ∧ o < 0x700 then loopReg (getLoop s ⟨(o - 0x100) / 32, by omega⟩) (o % 32 / 4)
  else if h : 0x800 ≤ o ∧ o < 0x900 then hvReg (tget e.hv ⟨(o - 0x800) / 16, by omega⟩) (o % 16 / 4)
  else if h : 0xA00 ≤ o ∧ o < 0xC00 then zoneReg (getZone s ⟨(o - 0xA00) / 256, by omega⟩) (o % 256)
  else if h : 0x20 ≤ o ∧ o < 0x40 then (tget e.hvrlim ⟨(o - 0x20) / 4, by omega⟩).setWidth 32
  else match o with
    | 0x00 => slotBits s false fun x => x.st == .short || x.st == .cool
    | 0x04 => slotBits s true fun x => x.st == .short || x.st == .cool
    | 0x08 => slotBits s false (·.locked)
    | 0x0C => slotBits s true (·.locked)
    | 0x10 => BitVec.ofNat 32 (b2n e.alt)
    | 0x14 => packW [(e.half.toNat, 16), (b2n e.zcok, 1)]
    | _ => 0

/-- Settings of a slot are taken while it is OFF (R494). -/
def loopPut (l : LoopId) (f : LoopS → LoopS) (s : State) : State := modLoop l (fun x => if x.st == .off then f x else x) s

def writeSlot (l : LoopId) (k : Nat) (v : Word) (s : State) : State :=
  match k with
  | 0 => loopCmd l v s
  | 1 => modLoop l (fun x => { x with cmdErr := w1c x.cmdErr (fld v 21 20 2) }) s
  | 2 => loopPut l (fun x => { x with kind := fld v 26 24 3, inp := fld v 21 16 6, out := fld v 3 0 4 }) s
  | 3 => loopPut l (fun x => { x with dep := put48 x.dep false v }) s
  | 4 => loopPut l (fun x => { x with dep := put48 x.dep true v }) s
  | _ => s

def hvPut (k : Nat) (v : Word) (x : HvS) : HvS :=
  match k with
  | 0 => { x with vscale := fld v 15 0 16, iscale := fld v 31 16 16 }
  | 1 => { x with ilim := fld v 11 0 12 }
  | 2 => { x with fpwm := fld v 7 0 8 }
  | _ => { x with stby := fld v 11 0 12 }

/-- The slot concerned with a zone's table is not OFF (R494). -/
def zoneSlotOn (s : State) (z : Zone) : Bool :=
  s.loops.slot.toList.any fun x => x.kind == 2 && x.out.toNat % 2 == z.1 && x.st != .off

def zonePut (o : Nat) (v : Word) (x : ZoneS) : ZoneS :=
  if h : 0x40 ≤ o ∧ o < 0xC4 then { x with tht := tset x.tht ⟨(o - 0x40) / 4, by omega⟩ (fld v 15 0 16) }
  else match o with
    | 0x00 => { x with pri := fld v 2 0 3, guard := fld v 6 4 3, zdly := fld v 26 16 11 }
    | 0x04 => { x with gpw := fld v 6 0 7, gpulses := fld v 11 8 4 }
    | 0x08 => { x with tmax := fld v 11 0 12, warmt := fld v 23 16 8 }
    | _ => x

def writeLoop (o : Nat) (v : Word) (s : State) : State :=
  if h : 0x100 ≤ o ∧ o < 0x700 then writeSlot ⟨(o - 0x100) / 32, by omega⟩ (o % 32 / 4) v s
  else if h : 0x800 ≤ o ∧ o < 0x900 then
    { s with loops := { s.loops with hv := tmod s.loops.hv ⟨(o - 0x800) / 16, by omega⟩ (hvPut (o % 16 / 4) v) } }
  else if h : 0xA00 ≤ o ∧ o < 0xC00 then
    if 0x40 ≤ o % 256 ∧ zoneSlotOn s ⟨(o - 0xA00) / 256, by omega⟩ then s
    else modZone ⟨(o - 0xA00) / 256, by omega⟩ (zonePut (o % 256) v) s
  else if h : 0x20 ≤ o ∧ o < 0x40 then
    { s with loops := { s.loops with hvrlim := tset s.loops.hvrlim ⟨(o - 0x20) / 4, by omega⟩ (fld v 15 0 16) } }
  else if o = 0x10 then { s with loops := { s.loops with alt := bitB v 0 } }
  else s

def readLoopEff (o : Nat) (s : State) : State :=
  if h : 0x100 ≤ o ∧ o < 0x700 then
    if o % 32 = 28 then modLoop ⟨(o - 0x100) / 32, by omega⟩ (fun x => { x with unlocks := 0 }) s else s
  else s

/-! ## HEAD (14) -/

def readHead (s : State) (o : Nat) : Word :=
  let x := s.head
  let c := x.reg
  if h : 0x10 ≤ o ∧ o < 0x20 then
    packW [((tget c.maxp ⟨(o - 0x10) / 4, by omega⟩).toNat, 8), ((tget c.nbloom ⟨(o - 0x10) / 4, by omega⟩).toNat, 4)]
  else if h : 0x40 ≤ o ∧ o < 0x7C then (tget c.hbt ⟨(o - 0x40) / 4, by omega⟩).setWidth 32
  else if h : 0x80 ≤ o ∧ o < 0x104 then (tget c.tht ⟨(o - 0x80) / 4, by omega⟩).setWidth 32
  else if h : 0x200 ≤ o ∧ o < 0x300 then
    packW [((tget c.bw ⟨(o - 0x200) / 4, by omega⟩).toNat, 8), (0, 8), ((tget c.mw ⟨(o - 0x200) / 4, by omega⟩).toNat, 12)]
  else match o with
    | 0x04 => packW [(headCode x.st, 2), (0, 2), (b2n (headEn s), 1), (0, 3), (x.lineCtr.toNat, 3), (0, 1), (x.hband.toNat, 4),
        (x.cmdErr.toNat, 2), (0, 6), (x.fcause.toNat, 8)]
    | 0x08 => packW [(b2n c.fmt, 1), (0, 3), (c.gmax.toNat, 3), (0, 1), (c.elem64.toNat, 6), (0, 2), (x.profile.toNat, 8), (0, 7),
        (b2n x.xp, 1)]
    | 0x0C => packW [(c.hdiv.toNat, 6), (0, 2), (c.gap.toNat, 8)]
    | 0x20 => x.temp.setWidth 32
    | 0x24 => packW [(x.htmax.toNat, 12), (0, 4), (x.hhys.toNat, 6), (0, 2), (x.rail.toNat, 4), (0, 3), (b2n x.railEn, 1)]
    | 0x28 => x.tlmax
    | 0x30 => x.blankl
    | 0x34 => x.starvel
    | 0x38 => x.overrun
    | _ => 0

/-- A change of the head's registers. -/
def headCfg (f : HeadCfg → HeadCfg) (s : State) : State := modHead (fun x => { x with reg := f x.reg }) s

def writeHead (o : Nat) (v : Word) (s : State) : State :=
  if h : 0x10 ≤ o ∧ o < 0x20 then
    headCfg (fun c => { c with
      maxp := tset c.maxp ⟨(o - 0x10) / 4, by omega⟩ (fld v 7 0 8), nbloom := tset c.nbloom ⟨(o - 0x10) / 4, by omega⟩ (fld v 11 8 4) }) s
  else if h : 0x40 ≤ o ∧ o < 0x7C then headCfg (fun c => { c with hbt := tset c.hbt ⟨(o - 0x40) / 4, by omega⟩ (fld v 11 0 12) }) s
  else if h : 0x80 ≤ o ∧ o < 0x104 then headCfg (fun c => { c with tht := tset c.tht ⟨(o - 0x80) / 4, by omega⟩ (fld v 15 0 16) }) s
  else if h : 0x200 ≤ o ∧ o < 0x300 then
    headCfg (fun c => { c with
      mw := tset c.mw ⟨(o - 0x200) / 4, by omega⟩ (fld v 27 16 12), bw := tset c.bw ⟨(o - 0x200) / 4, by omega⟩ (fld v 7 0 8) }) s
  else match o with
    | 0x00 => headCmd v s
    | 0x04 => modHead (fun x => { x with cmdErr := w1c x.cmdErr (fld v 17 16 2) }) s
    | 0x08 => modHead (fun x => { x with
        xp := bitB v 31, profile := fld v 23 16 8
        reg := { x.reg with elem64 := fld v 13 8 6, gmax := fld v 6 4 3, fmt := bitB v 0 } }) s
    | 0x0C => headCfg (fun c => { c with gap := fld v 15 8 8, hdiv := fld v 5 0 6 }) s
    | 0x24 => syncHead (modHead (fun x => { x with
        railEn := bitB v 31, rail := fld v 27 24 4, hhys := fld v 21 16 6, htmax := fld v 11 0 12 }) s)
    | _ => s

def readHeadEff (o : Nat) (s : State) : State :=
  match o with
  | 0x30 => modHead (fun x => { x with blankl := 0 }) s
  | 0x34 => modHead (fun x => { x with starvel := 0 }) s
  | 0x38 => modHead (fun x => { x with overrun := 0 }) s
  | _ => s

/-! ## SCAN (15) -/

def afeReg (c : ScanCfg) (k : Fin 3) : Word :=
  let g := fun j : Nat => (tget c.gains (Fin.ofNat 9 (3 * k.1 + j))).toNat
  packW [(g 0, 6), (0, 2), (g 1, 6), (0, 2), (g 2, 6), (0, 1), ((tget c.offs k).toNat, 9)]
def afePut (k : Fin 3) (v : Word) (c : ScanCfg) : ScanCfg :=
  let g := fun j : Nat => Fin.ofNat 9 (3 * k.1 + j)
  { c with
    offs := tset c.offs k (fld v 31 23 9)
    gains := tset (tset (tset c.gains (g 0) (fld v 5 0 6)) (g 1) (fld v 13 8 6)) (g 2) (fld v 21 16 6) }

def readScan (s : State) (o : Nat) : Word :=
  let x := s.scan
  let c := x.reg
  if h : 0x40 ≤ o ∧ o < 0x4C then afeReg c ⟨(o - 0x40) / 4, by omega⟩
  else match o with
    | 0x04 => packW [(scanCode x.st, 2), (0, 10), (b2n x.calClip, 1), (0, 3), (x.cmdErr.toNat, 2), (0, 6), (x.fcause.toNat, 8)]
    | 0x08 => packW [(0, 1), (x.mode.avg.toNat, 2), (b2n x.mode.ofmt, 1), (x.mode.out.toNat, 2), (0, 2), (x.mode.stepper.toNat, 4),
        (0, 4), (x.profile.toNat, 8), (0, 7), (b2n x.xp, 1)]
    | 0x0C => packW [(c.segpix.toNat, 14), (0, 2), (c.segs.toNat, 2), (0, 6), (c.dummy.toNat, 8)]
    | 0x10 => packW [(c.exp.toNat, 16), (c.cdiv.toNat, 8)]
    | 0x14 => packW [(x.mode.feed.toNat, 16), (b2n x.mode.dir, 1), (0, 3), (x.mode.stepEvery.toNat, 2), (0, 2), (x.mode.istep.toNat, 8)]
    | 0x18 => packW [(c.seq.toNat, 6), (0, 2), (c.seqlen.toNat, 2)]
    | 0x1C => packW [(x.bufLines.toNat, 16), (x.bufDepth.toNat, 7)]
    | 0x20 => x.bufLoc.setWidth 32
    | 0x24 => (x.bufLoc >>> 32).setWidth 32
    | 0x28 => x.bufLen
    | 0x30 => packW [(0, 8), (x.bufErr.toNat, 8), ((getFl s bufFl).tally, 7)]
    | 0x50 => packW [(c.dark.toNat, 16), (c.white.toNat, 16)]
    | 0x54 => x.lines
    | 0x58 => x.overrun
    | _ => 0

/-- A change of the scanner's registers. -/
def scanCfg (f : ScanCfg → ScanCfg) (s : State) : State := modScan (fun x => { x with reg := f x.reg }) s

/-- SCAN_BUFCFG is taken while the scanner is OFF; the buffer flume follows BUFDEPTH. -/
def bufCfgWrite (v : Word) (s : State) : State :=
  if s.scan.st == .off then reDepth bufFl (modScan (fun x => { x with bufDepth := fld v 22 16 7, bufLines := fld v 15 0 16 }) s) else s

def writeScan (o : Nat) (v : Word) (s : State) : State :=
  if h : 0x40 ≤ o ∧ o < 0x4C then scanCfg (afePut ⟨(o - 0x40) / 4, by omega⟩ v) s
  else match o with
    | 0x00 => scanCmd v s
    | 0x04 => modScan (fun x => { x with cmdErr := w1c x.cmdErr (fld v 17 16 2) }) s
    | 0x08 => modScan (fun x => { x with
        xp := bitB v 31, profile := fld v 23 16 8
        mode := { x.mode with stepper := fld v 11 8 4, out := fld v 5 4 2, ofmt := bitB v 3, avg := fld v 2 1 2 } }) s
    | 0x0C => scanCfg (fun c => { c with dummy := fld v 31 24 8, segs := fld v 17 16 2, segpix := fld v 13 0 14 }) s
    | 0x10 => scanCfg (fun c => { c with cdiv := fld v 23 16 8, exp := fld v 15 0 16 }) s
    | 0x14 => modScan (fun x => { x with
        mode := { x.mode with istep := fld v 31 24 8, stepEvery := fld v 21 20 2, dir := bitB v 16, feed := fld v 15 0 16 } }) s
    | 0x18 => scanCfg (fun c => { c with seqlen := fld v 9 8 2, seq := fld v 5 0 6 }) s
    | 0x1C => bufCfgWrite v s
    | 0x20 => modScan (fun x => { x with bufLoc := put36 x.bufLoc false v }) s
    | 0x24 => modScan (fun x => { x with bufLoc := put36 x.bufLoc true v }) s
    | 0x28 => modScan (fun x => { x with bufLen := v }) s
    | 0x2C => if bitB v 0 then bufPushOp s else s
    | 0x30 => modScan (fun x => { x with bufErr := w1c x.bufErr (fld v 15 8 8) }) s
    | 0x50 => scanCfg (fun c => { c with white := fld v 31 16 16, dark := fld v 15 0 16 }) s
    | _ => s

def readScanEff (o : Nat) (s : State) : State := if o = 0x58 then modScan (fun x => { x with overrun := 0 }) s else s

/-! ## SKID (18) -/

def skidStat (s : State) : Word :=
  let k := s.skid
  packW [(b2n (isManager s), 1), (b2n (isManager s || k.tsync), 1), (0, 2), (k.chain.toNat, 2), (0, 2), (linkCode (getPort s 0).st, 2),
    (0, 2), (linkCode (getPort s 1).st, 2), (0, 6), (k.workers.toNat, 3), (0, 1), (k.devnum.toNat, 3), (0, 2), (k.err.toNat, 3)]

def readSkid (s : State) (o : Nat) : Word :=
  let k := s.skid
  match o with
  | 0x00 => skidStat s
  | 0x08 => k.wlost.setWidth 32
  | 0x0C => k.toff.setWidth 32
  | 0x10 => k.sigDrop
  | 0x20 => packW [(k.winOff.toNat, 24), (k.winDev.toNat, 3)]
  | 0x24 => k.winData
  | 0x28 => packW [(0, 1), (b2n k.winWrite, 1), (b2n k.winDone, 1), (b2n k.winBusy, 1), (0, 4), (k.winErr.toNat, 8)]
  | _ => 0

def writeSkid (o : Nat) (v : Word) (s : State) : State :=
  match o with
  | 0x04 => if bitB v 0 && isManager s then enumStart s else s
  | 0x08 => modSkid (fun k => { k with wlost := w1c k.wlost (fld v 7 0 8) }) s
  | 0x20 => modSkid (fun k => { k with winDev := fld v 26 24 3, winOff := fld v 23 0 24 }) s
  | 0x24 => modSkid (fun k => { k with winData := v }) s
  | 0x28 => winCtlWrite v s
  | _ => s

def readSkidEff (o : Nat) (s : State) : State := if o = 0x10 then modSkid (fun k => { k with sigDrop := 0 }) s else s

end Sys2Proof.Machine
end

