-- ==== Sys2Proof/Machine/Registers.lean ====
section
/-!
DEFINITION. Register accesses of any block (00): the block map, what a read returns and changes, what a write does, the rows
for accesses that have no row of their own, the register window's far end, and the tallies that cross back (01).
-/

namespace Sys2Proof.Machine

/-! ## The block map (R10, R11) -/

/-- Domain that holds a block; none where no block lies. -/
def blockDom (b : Nat) : Option Dom :=
  match b with
  | 0 | 1 | 14 => some 0
  | 2 => some 1
  | 3 => some 2
  | 4 | 13 => some 3
  | 5 | 6 => some 4
  | 7 => some 5
  | 8 => some 6
  | 9 => some 7
  | 10 => some 9
  | 11 => some 10
  | 12 => some 11
  | _ => none

/-- The block at an offset is on and out of reset. -/
def blockOn (s : State) (off : Nat) : Bool := match blockDom (off / 65536) with | some d => domUp s d | none => false

/-- What a register of an on block reads as. -/
def readBlock (s : State) (b o : Nat) : Word :=
  match b with
  | 0 => readGlb s o
  | 1 => readAon s o
  | 2 => readHost s o
  | 3 => readMem s o
  | 4 => readCue s o
  | 5 => readTamp s o
  | 6 => readRast s o
  | 7 => readBeam s o
  | 8 => readMotn s o
  | 9 => readLoop s o
  | 10 => readHead s o
  | 11 => readScan s o
  | 12 => readSkid s o
  | 13 => readTime s o
  | 14 => readBoot s o
  | _ => 0

/-- What the read itself changes. -/
def readEff (b o : Nat) (s : State) : State :=
  match b with
  | 1 => readAonEff o s
  | 3 => readMemEff o s
  | 5 => readTampEff o s
  | 6 => readRastEff o s
  | 7 => readBeamEff o s
  | 9 => readLoopEff o s
  | 10 => readHeadEff o s
  | 11 => readScanEff o s
  | 12 => readSkidEff o s
  | 13 => readTimeEff o s
  | _ => s

def writeBlock (b o : Nat) (v : Word) (s : State) : State :=
  match b with
  | 0 => writeGlb o v s
  | 1 => writeAon o v s
  | 2 => writeHost o v s
  | 3 => writeMem o v s
  | 4 => writeCue o v s
  | 5 => writeTamp o v s
  | 6 => writeRast o v s
  | 7 => writeBeam o v s
  | 8 => writeMotn o v s
  | 9 => writeLoop o v s
  | 10 => writeHead o v s
  | 11 => writeScan o v s
  | 12 => writeSkid o v s
  | 13 => writeTime o v s
  | 14 => writeBoot o v s
  | _ => s

/-- A 32-bit aligned read: its value, and the state after it. An unoccupied offset and a block that is off read 0 (R6, R11). -/
def readReg (s : State) (off : Nat) : Word := if blockOn s off && off % 4 == 0 then readBlock s (off / 65536) (off % 65536) else 0
def readRegEff (off : Nat) (s : State) : State :=
  if blockOn s off && off % 4 == 0 then readEff (off / 65536) (off % 65536) s else s

/-- A 32-bit aligned write; no effect on an unoccupied offset or a block that is off (R6, R11). -/
def writeReg (off : Nat) (v : Word) (s : State) : State :=
  if blockOn s off && off % 4 == 0 then writeBlock (off / 65536) (off % 65536) v s else s

/-! ## Accesses from outside -/

/-- The access reaches the controller: BAR0 under R682, the Keeper port in the AON and BOOT blocks only (R13). -/
def portReach (s : State) (p : Port) (off : Nat) : Bool :=
  match p with
  | .bar0 => bar0Reach s
  | .keeper => !s.aon.por && (off / 65536 == 1 || off / 65536 == 14)

/-- REG_WRITE (R2). -/
def execRegWrite (p : Port) (off : Nat) (v : Word) (s : State) : Host.Outcome State Fault Refusal :=
  .next (whenS (portReach s p off) (writeReg off v) s)

/-- RC_FIELD_READ (R2): the field is returned and cleared in the same access. -/
def execRcFieldRead (p : Port) (off : Nat) (s : State) : Host.Outcome State Fault Refusal :=
  .next (whenS (portReach s p off) (fun s => emit (readRegEff off s) (.readData (readReg s off))) s)

/-- Naturally aligned 32-bit accesses (R3). -/
def aligned32 (off size : Nat) : Bool := size == 4 && off % 4 == 0

/-- BAR0_MISALIGNED_ACCESS (R4): a write is discarded, a read returns 0. -/
def execBar0MisalignedAccess (write : Bool) (off size : Nat) (_v : DWord) (s : State) : Host.Outcome State Fault Refusal :=
  .next (if bar0Reach s && !write && !aligned32 off size then emit s (.readData 0) else s)

/-- GLB_LOCK_SET (R8). -/
def execGlbLockSet (s : State) : Host.Outcome State Fault Refusal :=
  .next (whenS (bar0Reach s) (fun s => { s with lock := true }) s)

/-- FLUME_MIN_CLEAR: GLB_FLMIN.CLR. -/
def execFlumeMinClear (s : State) : Host.Outcome State Fault Refusal :=
  .next (whenS (bar0Reach s) (flMinWrite 0x80000000) s)

/-- SKID_WIN_FRAME (R649): the worker performs the access and replies. -/
def execSkidWinFrame (write : Bool) (off : Nat) (v : Word) (s : State) : Host.Outcome State Fault Refusal :=
  .next (if inChain s && portUp s 0 then
    if write then sendSkid 0 (.winReply 0 0) (writeReg off v (ackTo 0 s))
    else sendSkid 0 (.winReply (readReg s off) 0) (readRegEff off (ackTo 0 s))
  else s)

/-! ## Tallies that have crossed, producers that go on (R20, R23) -/

/-- The skid port of a flume. -/
def flPort (f : FlumeId) : Option SkidPort := if f == skidFl 0 then some 0 else if f == skidFl 1 then some 1 else none

/-- Producers waiting at a flume go on: latches and records (R26, R690), frames (R632), encoder feeders (R20). -/
def resumeAt (f : FlumeId) (s : State) : State :=
  let s1 := serveFlume f s
  let s2 := match flPort f with
    | some q => pumpSkid q (getPort s1 q).waiting.length s1
    | none => s1
  let s3 := if f == encFl 0 || f == encFl 1 then driveEnc s2 else s2
  if f == stgFl then endPages s3 else s3

/-- TALLY_USABLE (R23): one returned tally reaches the producer. -/
def execTallyUsable (f : FlumeId) (s : State) : Host.Outcome State Fault Refusal :=
  .next (if (getFl s f).ret != 0 && !(getFl s f).down then
    resumeAt f (modFl f (fun x => { x with tally := x.tally + 1, ret := x.ret - 1 }) s)
  else s)

/-- PRODUCER_PUSH_RESUME (R20): a producer that waits at the flume takes a tally that is there. A channel's push goes on at
its issue slot (R235), as BLOCKED_INSTRUCTION_RESUME. -/
def execProducerPushResume (f : FlumeId) (s : State) : Host.Outcome State Fault Refusal :=
  .next (if hasTally s f || (f == stgFl && !(getFl s f).down) then resumeAt f s else s)

end Sys2Proof.Machine
end

