-- ==== Sys2Proof/Machine/Jrp.lean ====
section
/-!
DEFINITION. The Jokufer Recovery Protocol (05): transports, frames, the rule of the repeated request, and its commands.
-/

namespace Sys2Proof.Machine

def jrpIx : JrpPort → Fin 3
  | .uart => 0
  | .i2c => 1
  | .usb => 2

def getJrp (s : State) (j : JrpPort) : JrpS := tget s.boot.jrp (jrpIx j)
def modJrp (j : JrpPort) (f : JrpS → JrpS) (s : State) : State := modBoot (fun b => { b with jrp := tmod b.jrp (jrpIx j) f }) s

/-- The transport is there: KP_MODE selects UART or I2C, USB needs PD1. -/
def jrpOn (s : State) (j : JrpPort) : Bool :=
  !s.aon.por && match j with
    | .uart => !bitB s.aon.strap 5
    | .i2c => bitB s.aon.strap 5
    | .usb => domUp s 1

/-! ## Frames (R197-R201) -/

def jLen (b : List Byte) : Nat := fieldN b 2 2
def jSeq (b : List Byte) : Byte := BitVec.ofNat 8 (fieldN b 4 1)
def jCmd (b : List Byte) : Byte := BitVec.ofNat 8 (fieldN b 5 1)
def jPayload (b : List Byte) : List Byte := slice b 8 (jLen b)

/-- SYNC matches and LEN is at most 4,100. -/
def jFramed (b : List Byte) : Bool := b.take 2 == [0x4A, 0x50] && decide (jLen b ≤ 4100)

/-- Bytes of a frame. -/
def jTotal (b : List Byte) : Nat := 12 + jLen b

/-- The CRC of bytes 2 to 7 + LEN. -/
def jCrcOk (b : List Byte) : Bool := fieldN b (8 + jLen b) 4 == (crc32c (slice b 2 (6 + jLen b))).toNat

/-- A response frame. -/
def jResponse (seq cmd stat : Byte) (payload : List Byte) : List Byte :=
  let mid := leBytes 2 payload.length ++ [seq, cmd ||| 0x80, stat, 0] ++ payload
  [0x4A, 0x50] ++ mid ++ leBytes 4 (crc32c mid).toNat

/-- A response frame leaves the port; on I2C it waits for the host's read transaction (R198). -/
def reply (j : JrpPort) (r : List Byte) (s : State) : State :=
  if j = .i2c then modJrp j (fun x => { x with reply := r }) s else emit s (.jrp j r)

/-- The n bytes that a read transaction on I2C returns: the response frame, and 0x00 while none is ready (R198). -/
def i2cRead (s : State) (n : Nat) : List Byte := ((getJrp s .i2c).reply ++ List.replicate n 0).take n

/-- The request is answered. -/
def answer (j : JrpPort) (b : List Byte) (stat : Byte) (payload : List Byte) (s : State) : State :=
  reply j (jResponse (jSeq b) (jCmd b) stat payload) s

/-- An executed request: its response is kept for a repetition (R201). -/
def executed (j : JrpPort) (b : List Byte) (stat : Byte) (payload : List Byte) (s : State) : State :=
  answer j b stat payload (modJrp j (fun x => { x with
    last := some (jSeq b, jCmd b), resp := jResponse (jSeq b) (jCmd b) stat payload }) s)

/-! ## What each command does: status, payload, state -/

abbrev JResult := Byte × List Byte × State

def jHello (j : JrpPort) (s : State) : JResult :=
  (0, leBytes 4 (0xA964B000 ||| Config.metalFix.setWidth 32 : Word).toNat ++
    [s.boot.mode.setWidth 8, s.boot.recause.setWidth 8, BitVec.ofNat 8 (jrpIx j).1, BitVec.ofNat 8 (rbCount s),
      (slotNow s 0).setWidth 8, (slotNow s 1).setWidth 8, (failsNow s).setWidth 8, 0] ++ otpBytes s 0 4 ++
    (match s.boot.keeper with | some k => slice k.hdr 0x10 4 | none => [0, 0, 0, 0]), s)

def jSetBaud (p : List Byte) (s : State) : JResult :=
  let n := fieldN p 0 4
  if 9600 ≤ n ∧ n ≤ 1000000 then (0, [], modBoot (fun b => { b with baud := n }) s) else (5, [], s)

/-- LOG_READ (R619): whole records, up to the smaller of the maximum and 4,096 bytes. -/
def jLogRead (p : List Byte) (s : State) : JResult :=
  if 3 < fieldN p 0 1 ∨ zeros p 1 3 = false then (5, [], s)
  else
    let l := readOut (tget s.nv.streams (Fin.ofNat 4 (fieldN p 0 1))) (BitVec.ofNat 32 (fieldN p 4 4))
    (0, ((l.take (min (fieldN p 8 2) 4096 / 32)).map slotBytes).flatten, s)

/-- The offset is a word of the AON or BOOT block (R13). -/
def jRegOk (off : Nat) : Bool := off % 4 == 0 && (off / 65536 == 1 || off / 65536 == 14)

def jRegRead (p : List Byte) (s : State) : JResult :=
  let off := fieldN p 0 4
  if jRegOk off then (0, leBytes 4 (readReg s off).toNat, readRegEff off s) else (5, [], s)

def jRegWrite (p : List Byte) (s : State) : JResult :=
  let off := fieldN p 0 4
  if jRegOk off then (0, [], writeReg off (BitVec.ofNat 32 (fieldN p 4 4)) s) else (5, [], s)

/-- IMG_BEGIN (R180, R189, R203). -/
def jImgBegin (p : List Byte) (s : State) : JResult :=
  let h := slice p 4 256
  let r := headerCheck s h
  if s.boot.op.isSome then (6, [], s)
  else if 1 < fieldN p 0 4 then (5, [], s)
  else if r ≠ 0 then (BitVec.ofNat 8 r, [], s)
  else if hPart h ≠ 1 then (5, [], s)
  else (0, [], takeHeader { jrp := true, dev := 0, part := 0, nextBoot := fieldN p 0 4 == 1, slot := 0, got := [], err := 0, blk := 0 } h s)

/-- The JRP operation in progress, or the status a request for one is refused with (R189). A request on another JRP port than the one
that began it goes on with it: DESIGN CHOICE (log 62). -/
def jOp (s : State) : Except Byte ImageOp :=
  match s.boot.op with
  | none => .error 3
  | some op => if op.jrp then .ok op else .error 6

/-- IMG_DATA (R204): a gap, an overlap or a byte past the blocks ends the operation. -/
def jImgData (p : List Byte) (s : State) : JResult :=
  match jOp s with
  | .error e => (e, [], s)
  | .ok op =>
    let d := p.drop 4
    if fieldN p 0 4 ≠ op.got.length ∨ bodyLen op.got < op.got.length + d.length then (5, [], failOp op 5 s)
    else
      let t := takeBytes op d s
      (if t.boot.op.isNone then 0x15 else 0, [], t)

/-- IMG_END (R176, R205): an incomplete image ends with BAD_ARG. -/
def jImgEnd (p : List Byte) (s : State) : JResult :=
  match jOp s with
  | .error e => (e, [], s)
  | .ok op =>
    let full := { op with got := op.got ++ p }
    if op.got.length ≠ bodyLen op.got then (5, [], failOp op 5 s)
    else (if op.nextBoot then 0 else BitVec.ofNat 8 (finalCheck s full.got), [], finishOp full s)

/-- IMG_ABORT (R190). -/
def jImgAbort (s : State) : JResult :=
  match jOp s with
  | .error e => (e, [], s)
  | .ok op => (0, [], failOp op Config.abandonErr.toNat s)

/-- Payload length a command takes; none for a CMD the table does not list. -/
def jLenOk (cmd len : Nat) : Option Bool :=
  match cmd with
  | 0x01 => some (len == 0)
  | 0x02 => some (len == 4)
  | 0x03 => some (len == 10)
  | 0x04 => some (len == 4)
  | 0x05 => some (len == 8)
  | 0x10 => some (len == 260)
  | 0x11 => some (decide (5 ≤ len ∧ len ≤ 4100))
  | 0x12 => some (len == 64)
  | 0x13 => some (len == 0)
  | 0x20 => some (len == 0)
  | _ => none

/-- A command of the table is executed. -/
def jRun (j : JrpPort) (cmd : Nat) (p : List Byte) (s : State) : JResult :=
  match cmd with
  | 0x01 => jHello j s
  | 0x02 => jSetBaud p s
  | 0x03 => jLogRead p s
  | 0x04 => jRegRead p s
  | 0x05 => jRegWrite p s
  | 0x10 => jImgBegin p s
  | 0x11 => jImgData p s
  | 0x12 => jImgEnd p s
  | 0x13 => jImgAbort s
  | _ => (0, [], s)

/-- A whole frame with SYNC and LEN right is answered (R200, R201); RESET restarts after its response. One whose CRC is right is
valid (R197). -/
def jFrame (j : JrpPort) (b : List Byte) (s0 : State) : State :=
  let cmd := (jCmd b).toNat
  let s := if jCrcOk b then modJrp j (fun x => { x with validAt := s0.now }) s0 else s0
  if !jCrcOk b then answer j b 1 [] s
  else if (getJrp s j).last == some (jSeq b, jCmd b) then reply j (getJrp s j).resp s
  else match jLenOk cmd (jLen b) with
    | none => answer j b 2 [] s
    | some false => answer j b 4 [] s
    | some true =>
      let r := jRun j cmd (jPayload b) s
      let t := executed j b r.1 r.2.1 r.2.2
      if cmd = 0x20 then bootRestartOp t else t

/-- Bytes already received of the frame that goes on now: those of the UART, unless a gap of more than 10 ms has ended them (R197). -/
def jrpPart (s : State) (j : JrpPort) : List Byte :=
  if j = .uart ∧ s.now ≤ (getJrp s j).byteAt + 10 * ms then (getJrp s j).part else []

/-- Bytes that end a frame of a command that p picks arrive on a port. On the UART they follow the partial frame there and may
leave it partial; on the others a frame is one transfer (R198, R199). No response is ready while they come. -/
def jrpRow (p : Nat → Bool) (j : JrpPort) (frame : List Byte) (s : State) : State :=
  if !jrpOn s j then s
  else
    let b := jrpPart s j ++ frame
    let take := fun q : List Byte => modJrp j (fun x => { x with part := q, byteAt := s.now, reply := [] }) s
    if 6 ≤ b.length ∧ p (jCmd b).toNat = false then s
    else if 4 ≤ b.length ∧ jFramed b = false then take []
    else if b.length < 4 ∨ b.length < jTotal b then take (if j = .uart then b else [])
    else jFrame j (b.take (jTotal b)) (take [])

/-! ## Rows -/

/-- JRP_HELLO (R202). -/
def execJrpHello (j : JrpPort) (frame : List Byte) (s : State) : Host.Outcome State Fault Refusal := .next (jrpRow (· == 0x01) j frame s)
/-- JRP_SET_BAUD (R202). -/
def execJrpSetBaud (j : JrpPort) (frame : List Byte) (s : State) : Host.Outcome State Fault Refusal := .next (jrpRow (· == 0x02) j frame s)
/-- JRP_LOG_READ (R619). -/
def execJrpLogRead (j : JrpPort) (frame : List Byte) (s : State) : Host.Outcome State Fault Refusal := .next (jrpRow (· == 0x03) j frame s)
/-- JRP_REG_READ (R13). -/
def execJrpRegRead (j : JrpPort) (frame : List Byte) (s : State) : Host.Outcome State Fault Refusal := .next (jrpRow (· == 0x04) j frame s)
/-- JRP_REG_WRITE (R13). -/
def execJrpRegWrite (j : JrpPort) (frame : List Byte) (s : State) : Host.Outcome State Fault Refusal := .next (jrpRow (· == 0x05) j frame s)
/-- IMG_BEGIN (R180). -/
def execImgBegin (j : JrpPort) (frame : List Byte) (s : State) : Host.Outcome State Fault Refusal := .next (jrpRow (· == 0x10) j frame s)
/-- IMG_DATA (R204). -/
def execImgData (j : JrpPort) (frame : List Byte) (s : State) : Host.Outcome State Fault Refusal := .next (jrpRow (· == 0x11) j frame s)
/-- IMG_END (R205). -/
def execImgEnd (j : JrpPort) (frame : List Byte) (s : State) : Host.Outcome State Fault Refusal := .next (jrpRow (· == 0x12) j frame s)
/-- IMG_ABORT (R190). -/
def execImgAbort (j : JrpPort) (frame : List Byte) (s : State) : Host.Outcome State Fault Refusal := .next (jrpRow (· == 0x13) j frame s)
/-- JRP_RESET (R184). -/
def execJrpReset (j : JrpPort) (frame : List Byte) (s : State) : Host.Outcome State Fault Refusal := .next (jrpRow (· == 0x20) j frame s)
/-- JRP_BAD_CMD (R200). -/
def execJrpBadCmd (j : JrpPort) (frame : List Byte) (s : State) : Host.Outcome State Fault Refusal :=
  .next (jrpRow (fun c => (jLenOk c 0).isNone) j frame s)

/-- JRP_UART_GAP (R197): more than 10 ms after the last byte the partial frame is discarded. -/
def execJrpUartGap (s : State) : Host.Outcome State Fault Refusal :=
  .next (whenS (jrpOn s .uart) (fun s => modJrp .uart (fun x => { x with part := [] })
    (timeTo ((getJrp s .uart).byteAt + 10 * ms + 1) s)) s)

/-- JRP_BAUD_REVERT (R197): 5 s after the last valid frame. -/
def execJrpBaudRevert (s : State) : Host.Outcome State Fault Refusal :=
  .next (whenS (jrpOn s .uart) (fun s => modBoot (fun b => { b with baud := 115200 })
    (timeTo ((getJrp s .uart).validAt + 5 * sec) s)) s)

end Sys2Proof.Machine
end

