-- ==== Sys2Proof/Machine/Dispatch.lean ====
section
/-!
DEFINITION. Which meaning each command has: one arm per row of spec/opcode_table.json.
-/

namespace Sys2Proof.Machine

/-- The effect of a command on everything but the queue of waiting commands. -/
def exec (i : Instr) (s : State) : Host.Outcome State Fault Refusal :=
  match i with
  | .regWrite p off v => Sys2Proof.Machine.execRegWrite p off v s
  | .bar0MisalignedAccess write off size v => Sys2Proof.Machine.execBar0MisalignedAccess write off size v s
  | .glbLockSet => Sys2Proof.Machine.execGlbLockSet s
  | .flumeMinClear => Sys2Proof.Machine.execFlumeMinClear s
  | .etLoRead => Sys2Proof.Machine.execEtLoRead s
  | .trkAnchorLoRead t => Sys2Proof.Machine.execTrkAnchorLoRead t s
  | .tallyUsable f => Sys2Proof.Machine.execTallyUsable f s
  | .producerPushResume f => Sys2Proof.Machine.execProducerPushResume f s
  | .aonPorAssert => Sys2Proof.Machine.execAonPorAssert s
  | .aonPorRelease ord role recovN kpMode kpAddr testEn => Sys2Proof.Machine.execAonPorRelease ord role recovN kpMode kpAddr testEn s
  | .keeperCheckDone => Sys2Proof.Machine.execKeeperCheckDone s
  | .xtalStable => Sys2Proof.Machine.execXtalStable s
  | .domainSwitchStart => Sys2Proof.Machine.execDomainSwitchStart s
  | .domainGood d => Sys2Proof.Machine.execDomainGood d s
  | .domainTimeout d => Sys2Proof.Machine.execDomainTimeout d s
  | .pllLockLost p => Sys2Proof.Machine.execPllLockLost p s
  | .railDlyExpire n => Sys2Proof.Machine.execRailDlyExpire n s
  | .railGood n => Sys2Proof.Machine.execRailGood n s
  | .railSswExpire n => Sys2Proof.Machine.execRailSswExpire n s
  | .railOvercurrent n => Sys2Proof.Machine.execRailOvercurrent n s
  | .railCoolExpire n => Sys2Proof.Machine.execRailCoolExpire n s
  | .railDrop n oc => Sys2Proof.Machine.execRailDrop n oc s
  | .collapseStep => Sys2Proof.Machine.execCollapseStep s
  | .graceExpire => Sys2Proof.Machine.execGraceExpire s
  | .orderlyTakedownStep => Sys2Proof.Machine.execOrderlyTakedownStep s
  | .offWindowExpire => Sys2Proof.Machine.execOffWindowExpire s
  | .enginesUp p => Sys2Proof.Machine.execEnginesUp p s
  | .enginesDown p => Sys2Proof.Machine.execEnginesDown p s
  | .seqOff p => Sys2Proof.Machine.execSeqOff p s
  | .offAck p => Sys2Proof.Machine.execOffAck p s
  | .retry p => Sys2Proof.Machine.execRetry p s
  | .itemUp p item => Sys2Proof.Machine.execItemUp p item s
  | .itemDown p item => Sys2Proof.Machine.execItemDown p item s
  | .seqBadCmd p code => Sys2Proof.Machine.execSeqBadCmd p code s
  | .btnPress => Sys2Proof.Machine.execBtnPress s
  | .btnRelease => Sys2Proof.Machine.execBtnRelease s
  | .btnLong => Sys2Proof.Machine.execBtnLong s
  | .btnCut => Sys2Proof.Machine.execBtnCut s
  | .mrstAssert => Sys2Proof.Machine.execMrstAssert s
  | .mrstRelease => Sys2Proof.Machine.execMrstRelease s
  | .pfwNFall => Sys2Proof.Machine.execPfwNFall s
  | .pfwCollapse => Sys2Proof.Machine.execPfwCollapse s
  | .vsenseCollapse => Sys2Proof.Machine.execVsenseCollapse s
  | .vsenseArm => Sys2Proof.Machine.execVsenseArm s
  | .collapseRecovery => Sys2Proof.Machine.execCollapseRecovery s
  | .safeNFall => Sys2Proof.Machine.execSafeNFall s
  | .safeNRecognised => Sys2Proof.Machine.execSafeNRecognised s
  | .safeNRise => Sys2Proof.Machine.execSafeNRise s
  | .safeAssert p on => Sys2Proof.Machine.execSafeAssert p on s
  | .safeRelease p => Sys2Proof.Machine.execSafeRelease p s
  | .heartbeatLost k => Sys2Proof.Machine.execHeartbeatLost k s
  | .thermalConversion die th => Sys2Proof.Machine.execThermalConversion die th s
  | .bootOk p => Sys2Proof.Machine.execBootOk p s
  | .bootTimeout => Sys2Proof.Machine.execBootTimeout s
  | .bootRestart p => Sys2Proof.Machine.execBootRestart p s
  | .imageAbort p => Sys2Proof.Machine.execImageAbort p s
  | .ldieDone p => Sys2Proof.Machine.execLdieDone p s
  | .imageLoadGo p v => Sys2Proof.Machine.execImageLoadGo p v s
  | .imageBlockArrive data => Sys2Proof.Machine.execImageBlockArrive data s
  | .imageLoadComplete => Sys2Proof.Machine.execImageLoadComplete s
  | .rbAdvance p => Sys2Proof.Machine.execRbAdvance p s
  | .otpProg p => Sys2Proof.Machine.execOtpProg p s
  | .coverClose => Sys2Proof.Machine.execCoverClose s
  | .sheetClearStart => Sys2Proof.Machine.execSheetClearStart s
  | .sheetClearCancel => Sys2Proof.Machine.execSheetClearCancel s
  | .sheetClearEnd => Sys2Proof.Machine.execSheetClearEnd s
  | .jrpHello j frame => Sys2Proof.Machine.execJrpHello j frame s
  | .jrpSetBaud j frame => Sys2Proof.Machine.execJrpSetBaud j frame s
  | .jrpLogRead j frame => Sys2Proof.Machine.execJrpLogRead j frame s
  | .jrpRegRead j frame => Sys2Proof.Machine.execJrpRegRead j frame s
  | .jrpRegWrite j frame => Sys2Proof.Machine.execJrpRegWrite j frame s
  | .imgBegin j frame => Sys2Proof.Machine.execImgBegin j frame s
  | .imgData j frame => Sys2Proof.Machine.execImgData j frame s
  | .imgEnd j frame => Sys2Proof.Machine.execImgEnd j frame s
  | .imgAbort j frame => Sys2Proof.Machine.execImgAbort j frame s
  | .jrpReset j frame => Sys2Proof.Machine.execJrpReset j frame s
  | .jrpBadCmd j frame => Sys2Proof.Machine.execJrpBadCmd j frame s
  | .jrpUartGap => Sys2Proof.Machine.execJrpUartGap s
  | .jrpBaudRevert => Sys2Proof.Machine.execJrpBaudRevert s
  | .cmdNop r e => Sys2Proof.Machine.execCmdNop r e s
  | .cmdArm r e => Sys2Proof.Machine.execCmdArm r e s
  | .armEntryArrive data => Sys2Proof.Machine.execArmEntryArrive data s
  | .armProgramArrive data => Sys2Proof.Machine.execArmProgramArrive data s
  | .cmdDisarm r e wbOk => Sys2Proof.Machine.execCmdDisarm r e wbOk s
  | .cmdRefresh r e => Sys2Proof.Machine.execCmdRefresh r e s
  | .refreshSwap => Sys2Proof.Machine.execRefreshSwap s
  | .cmdMail r e => Sys2Proof.Machine.execCmdMail r e s
  | .cmdPlan r e => Sys2Proof.Machine.execCmdPlan r e s
  | .planArrive data => Sys2Proof.Machine.execPlanArrive data s
  | .cmdPageAbort r e => Sys2Proof.Machine.execCmdPageAbort r e s
  | .cmdBad r e => Sys2Proof.Machine.execCmdBad r e s
  | .cqEnable r v => Sys2Proof.Machine.execCqEnable r v s
  | .cqReadError r => Sys2Proof.Machine.execCqReadError r s
  | .cpqEnable v => Sys2Proof.Machine.execCpqEnable v s
  | .cpqRecordWrite => Sys2Proof.Machine.execCpqRecordWrite s
  | .msixCoalTimeout vec => Sys2Proof.Machine.execMsixCoalTimeout vec s
  | .recover v => Sys2Proof.Machine.execRecover v s
  | .recoverRecord => Sys2Proof.Machine.execRecoverRecord s
  | .perstAssert => Sys2Proof.Machine.execPerstAssert s
  | .perstRelease => Sys2Proof.Machine.execPerstRelease s
  | .bar2Write x data => Sys2Proof.Machine.execBar2Write x data s
  | .bar2Read x n ecc => Sys2Proof.Machine.execBar2Read x n ecc s
  | .blockedInstructionResume c gpio => Sys2Proof.Machine.execBlockedInstructionResume c gpio s
  | .illegalOpcode c => Sys2Proof.Machine.execIllegalOpcode c s
  | .nop c => Sys2Proof.Machine.execNop c s
  | .jmp c => Sys2Proof.Machine.execJmp c s
  | .jcc c => Sys2Proof.Machine.execJcc c s
  | .call c => Sys2Proof.Machine.execCall c s
  | .ret c => Sys2Proof.Machine.execRet c s
  | .loop c => Sys2Proof.Machine.execLoop c s
  | .halt c => Sys2Proof.Machine.execHalt c s
  | .ldi c => Sys2Proof.Machine.execLdi c s
  | .ldh c => Sys2Proof.Machine.execLdh c s
  | .mov c => Sys2Proof.Machine.execMov c s
  | .movFlagsRead c => Sys2Proof.Machine.execMovFlagsRead c s
  | .movFlagsWrite c => Sys2Proof.Machine.execMovFlagsWrite c s
  | .movStatus c => Sys2Proof.Machine.execMovStatus c s
  | .add c => Sys2Proof.Machine.execAdd c s
  | .sub c => Sys2Proof.Machine.execSub c s
  | .and c => Sys2Proof.Machine.execAnd c s
  | .or c => Sys2Proof.Machine.execOr c s
  | .xor c => Sys2Proof.Machine.execXor c s
  | .shl c => Sys2Proof.Machine.execShl c s
  | .shr c => Sys2Proof.Machine.execShr c s
  | .cmp c => Sys2Proof.Machine.execCmp c s
  | .ldm c => Sys2Proof.Machine.execLdm c s
  | .stm c => Sys2Proof.Machine.execStm c s
  | .waitet c => Sys2Proof.Machine.execWaitet c s
  | .waitth c => Sys2Proof.Machine.execWaitth c s
  | .waitev c => Sys2Proof.Machine.execWaitev c s
  | .atPfx c => Sys2Proof.Machine.execAtPfx c s
  | .atthPfx c => Sys2Proof.Machine.execAtthPfx c s
  | .push c => Sys2Proof.Machine.execPush c s
  | .pop c => Sys2Proof.Machine.execPop c s
  | .take c => Sys2Proof.Machine.execTake c s
  | .give c => Sys2Proof.Machine.execGive c s
  | .move c => Sys2Proof.Machine.execMove c s
  | .movx c => Sys2Proof.Machine.execMovx c s
  | .setp c => Sys2Proof.Machine.execSetp c s
  | .ramp c => Sys2Proof.Machine.execRamp c s
  | .loopon c => Sys2Proof.Machine.execLoopon c s
  | .loopoff c => Sys2Proof.Machine.execLoopoff c s
  | .fire c => Sys2Proof.Machine.execFire c s
  | .strobe c => Sys2Proof.Machine.execStrobe c s
  | .scanl c => Sys2Proof.Machine.execScanl c s
  | .sig c => Sys2Proof.Machine.execSig c s
  | .fence c => Sys2Proof.Machine.execFence c s
  | .commitAdmit c gpio => Sys2Proof.Machine.execCommitAdmit c gpio s
  | .commitDone c => Sys2Proof.Machine.execCommitDone c s
  | .abort c => Sys2Proof.Machine.execAbort c s
  | .log c => Sys2Proof.Machine.execLog c s
  | .trap c => Sys2Proof.Machine.execTrap c s
  | .wheelDispatch => Sys2Proof.Machine.execWheelDispatch s
  | .guardOpen => Sys2Proof.Machine.execGuardOpen s
  | .trkEdge t => Sys2Proof.Machine.execTrkEdge t s
  | .trkSynthInsert t => Sys2Proof.Machine.execTrkSynthInsert t s
  | .trkEnable t v => Sys2Proof.Machine.execTrkEnable t v s
  | .trkDisable t => Sys2Proof.Machine.execTrkDisable t s
  | .trkRearm t => Sys2Proof.Machine.execTrkRearm t s
  | .trkReacq t => Sys2Proof.Machine.execTrkReacq t s
  | .memInit => Sys2Proof.Machine.execMemInit s
  | .memTrainingDone fail => Sys2Proof.Machine.execMemTrainingDone fail s
  | .arbRound reqs addr read ecc => Sys2Proof.Machine.execArbRound reqs addr read ecc s
  | .quotaWindowEnd n => Sys2Proof.Machine.execQuotaWindowEnd n s
  | .arbReferenceWindow => Sys2Proof.Machine.execArbReferenceWindow s
  | .memRefresh => Sys2Proof.Machine.execMemRefresh s
  | .mr4Poll mult => Sys2Proof.Machine.execMr4Poll mult s
  | .memCopyGo v => Sys2Proof.Machine.execMemCopyGo v s
  | .memCopyDone data ok => Sys2Proof.Machine.execMemCopyDone data ok s
  | .arbSnap => Sys2Proof.Machine.execArbSnap s
  | .arbPresetLoad v => Sys2Proof.Machine.execArbPresetLoad v s
  | .landResWrite n word v => Sys2Proof.Machine.execLandResWrite n word v s
  | .bandFetch u poison => Sys2Proof.Machine.execBandFetch u poison s
  | .tampDecodeBlock u poison => Sys2Proof.Machine.execTampDecodeBlock u poison s
  | .tampEncodeBlock e poison => Sys2Proof.Machine.execTampEncodeBlock e poison s
  | .tampGenGo => Sys2Proof.Machine.execTampGenGo s
  | .tampGenDone => Sys2Proof.Machine.execTampGenDone s
  | .bandStage g desc => Sys2Proof.Machine.execBandStage g desc s
  | .bandCheckDone g => Sys2Proof.Machine.execBandCheckDone g s
  | .bdWindowExpire n => Sys2Proof.Machine.execBdWindowExpire n s
  | .beamLineStart n b ecc => Sys2Proof.Machine.execBeamLineStart n b ecc s
  | .bandRelease n => Sys2Proof.Machine.execBandRelease n s
  | .apcSample n b pd => Sys2Proof.Machine.execApcSample n b pd s
  | .apcOvp n b => Sys2Proof.Machine.execApcOvp n b s
  | .calTimeout n => Sys2Proof.Machine.execCalTimeout n s
  | .beamOn n => Sys2Proof.Machine.execBeamOn n s
  | .beamOff n => Sys2Proof.Machine.execBeamOff n s
  | .beamRecal n => Sys2Proof.Machine.execBeamRecal n s
  | .segmentTakeup m => Sys2Proof.Machine.execSegmentTakeup m s
  | .trajectoryUpdate ti => Sys2Proof.Machine.execTrajectoryUpdate ti s
  | .motOvercurrent m => Sys2Proof.Machine.execMotOvercurrent m s
  | .bldcStall k => Sys2Proof.Machine.execBldcStall k s
  | .hallFault k => Sys2Proof.Machine.execHallFault k s
  | .hallEdge k code => Sys2Proof.Machine.execHallEdge k code s
  | .motStop m => Sys2Proof.Machine.execMotStop m s
  | .motClr m => Sys2Proof.Machine.execMotClr m s
  | .motSetpos n => Sys2Proof.Machine.execMotSetpos n s
  | .loopSample l m => Sys2Proof.Machine.execLoopSample l m s
  | .loopOutput l => Sys2Proof.Machine.execLoopOutput l s
  | .hvIlim l => Sys2Proof.Machine.execHvIlim l s
  | .hvCoolExpire l => Sys2Proof.Machine.execHvCoolExpire l s
  | .zeroCrossing => Sys2Proof.Machine.execZeroCrossing s
  | .heaterBurst z => Sys2Proof.Machine.execHeaterBurst z s
  | .fuserCheck raw => Sys2Proof.Machine.execFuserCheck raw s
  | .loopClr l => Sys2Proof.Machine.execLoopClr l s
  | .loopOff l => Sys2Proof.Machine.execLoopOff l s
  | .headSlotLatch ecc => Sys2Proof.Machine.execHeadSlotLatch ecc s
  | .headGroupSlot => Sys2Proof.Machine.execHeadGroupSlot s
  | .headLineEnd => Sys2Proof.Machine.execHeadLineEnd s
  | .headTempConvert raw => Sys2Proof.Machine.execHeadTempConvert raw s
  | .headOn => Sys2Proof.Machine.execHeadOn s
  | .headOff => Sys2Proof.Machine.execHeadOff s
  | .scanExposureEnd => Sys2Proof.Machine.execScanExposureEnd s
  | .scanLineEnd samples => Sys2Proof.Machine.execScanLineEnd samples s
  | .scanRawWrite => Sys2Proof.Machine.execScanRawWrite s
  | .scanBufPush => Sys2Proof.Machine.execScanBufPush s
  | .scanOn => Sys2Proof.Machine.execScanOn s
  | .scanOff => Sys2Proof.Machine.execScanOff s
  | .scanCal => Sys2Proof.Machine.execScanCal s
  | .scanCalComplete dark red green blue => Sys2Proof.Machine.execScanCalComplete dark red green blue s
  | .pageAbortComplete adm => Sys2Proof.Machine.execPageAbortComplete adm s
  | .sheetRecordStage => Sys2Proof.Machine.execSheetRecordStage s
  | .jamDetect g => Sys2Proof.Machine.execJamDetect g s
  | .jamlatchClear gpio => Sys2Proof.Machine.execJamlatchClear gpio s
  | .nvWrite => Sys2Proof.Machine.execNvWrite s
  | .logRecordCommit => Sys2Proof.Machine.execLogRecordCommit s
  | .logReadout p v => Sys2Proof.Machine.execLogReadout p v s
  | .logExport p v => Sys2Proof.Machine.execLogExport p v s
  | .logExportDone => Sys2Proof.Machine.execLogExportDone s
  | .skidEnum => Sys2Proof.Machine.execSkidEnum s
  | .enumFrame q d mgrEt epoch => Sys2Proof.Machine.execEnumFrame q d mgrEt epoch s
  | .enumLinkWaitExpire => Sys2Proof.Machine.execEnumLinkWaitExpire s
  | .enumReply err n => Sys2Proof.Machine.execEnumReply err n s
  | .enumTimeout replied => Sys2Proof.Machine.execEnumTimeout replied s
  | .noManager => Sys2Proof.Machine.execNoManager s
  | .heartbeatSend => Sys2Proof.Machine.execHeartbeatSend s
  | .heartbeatFrame k running => Sys2Proof.Machine.execHeartbeatFrame k running s
  | .echoFrame d k => Sys2Proof.Machine.execEchoFrame d k s
  | .heartbeatMiss => Sys2Proof.Machine.execHeartbeatMiss s
  | .echoMiss d => Sys2Proof.Machine.execEchoMiss d s
  | .tsyncFrame et16 => Sys2Proof.Machine.execTsyncFrame et16 s
  | .tsyncAcquired => Sys2Proof.Machine.execTsyncAcquired s
  | .cPartClear => Sys2Proof.Machine.execCPartClear s
  | .skidAckFrame q => Sys2Proof.Machine.execSkidAckFrame q s
  | .skidAckTimeout q => Sys2Proof.Machine.execSkidAckTimeout q s
  | .skidPortRetrain q => Sys2Proof.Machine.execSkidPortRetrain q s
  | .skidCmdFrame e => Sys2Proof.Machine.execSkidCmdFrame e s
  | .skidRecordFrame d rec => Sys2Proof.Machine.execSkidRecordFrame d rec s
  | .skidSigFrame src target code payload => Sys2Proof.Machine.execSkidSigFrame src target code payload s
  | .skidBusmasterFrame d write addr n data => Sys2Proof.Machine.execSkidBusmasterFrame d write addr n data s
  | .skidWinGo v => Sys2Proof.Machine.execSkidWinGo v s
  | .skidWinFrame write off v => Sys2Proof.Machine.execSkidWinFrame write off v s
  | .skidRecoverFrame epoch disarm discard => Sys2Proof.Machine.execSkidRecoverFrame epoch disarm discard s
  | .skidRecoverDone d => Sys2Proof.Machine.execSkidRecoverDone d s
  | .skidPowerFrame code => Sys2Proof.Machine.execSkidPowerFrame code s
  | .skidOffReport d => Sys2Proof.Machine.execSkidOffReport d s
  | .workerOffTimeout => Sys2Proof.Machine.execWorkerOffTimeout s
  | .rcFieldRead p off => Sys2Proof.Machine.execRcFieldRead p off s
  | .cueUncorrectableEcc k => Sys2Proof.Machine.execCueUncorrectableEcc k s
  | .skidPartnerSignal q present => Sys2Proof.Machine.execSkidPartnerSignal q present s
  | .skidLanesAligned q => Sys2Proof.Machine.execSkidLanesAligned q s
  | .skidWinReply data err => Sys2Proof.Machine.execSkidWinReply data err s
  | .logReadoutDone => Sys2Proof.Machine.execLogReadoutDone s

end Sys2Proof.Machine
end

