-- ==== Sys2Proof/Machine/Pins.lean ====
section
/-!
DEFINITION. What the balls show in each boundary condition (R51, R52), as functions of the state and of the two supplies on
which the conditions without power depend: the state holds no supply (log 33).
-/

namespace Sys2Proof.Machine

/-- The supplies of R51 and R52: VAON is at 0.50 V or above, VDRV is present. -/
structure Supplies where
  vaon : Bool
  vdrv : Bool
deriving DecidableEq, Repr

/-- A boundary condition of the pins of one domain. -/
inductive PinCond where
  | unpowered
  | aonOnly
  | reset
  | running
  | safeHold
deriving DecidableEq, Repr

/-- What an output ball does: high impedance, a driven level, an input with its 50 kOhm pull-down, low by a passive 100 kOhm
pull-down, held low by a D-die clamp (R52), electrical idle, or driven with a signal. -/
inductive PinLevel where
  | hiZ
  | low
  | high
  | pullDown
  | passive
  | clamp
  | idle
  | signal
deriving DecidableEq, Repr

/-- What an input ball does. -/
inductive PinIn where
  | hiZ
  | ignored
  | sampled
deriving DecidableEq, Repr

/-- The condition of domain d's pins. While AON power-on reset is asserted, AON pins are in Reset and the others as with AON
only. -/
def pinCond (p : Supplies) (s : State) (d : Dom) : PinCond :=
  if !p.vaon then .unpowered
  else if s.aon.por then (if d = 0 then .reset else .aonOnly)
  else if !domOn s d && d != 0 then .aonOnly
  else if !domUp s d then .reset
  else if s.aon.hold then .safeHold
  else .running

def driven (b : Bool) : PinLevel := if b then .high else .low

/-- An output that is low by its 50 kOhm pull-down without power, and else driven to b. -/
def pulled (p : Supplies) (b : Bool) : PinLevel := if p.vaon then driven b else .pullDown

/-- A gate ball that is off: driven low, or without VAON held low by the clamp or by the passive pull-down (R52). -/
def gateOff (p : Supplies) : PinLevel := if p.vaon then .low else if p.vdrv then .clamp else .passive

/-! ## PD0 -/

/-- RS_ENn: per sequencer, and unchanged by Safe Hold; low in AON power-on reset. -/
def pinRailEn (p : Supplies) (s : State) (n : Rail) : PinLevel :=
  pulled p (!s.aon.por && ((getRail s n).st == .soft || (getRail s n).st == .good))

/-- SAFE_n: open drain (R62). -/
def pinSafe (p : Supplies) (s : State) : PinLevel := if p.vaon && safeDrive s then .low else .hiZ

/-- ALIVE toggles at 1 MHz, or is low (R69). -/
def pinAlive (p : Supplies) (s : State) : PinLevel :=
  if !p.vaon then .hiZ else if pinCond p s 0 == .running && aliveOn s then .signal else .low

/-- The AON inputs, and the Keeper port, which is active where they are sampled. -/
def pinAonIn (p : Supplies) (s : State) : PinIn := if p.vaon && !s.aon.por then .sampled else .hiZ
def pinKeeper (p : Supplies) (s : State) : PinLevel := if p.vaon && !s.aon.por then .signal else .hiZ

/-- Crystal, JTAG, TEST_EN and the straps are active with VAON. -/
def pinOther (p : Supplies) : PinIn := if p.vaon then .sampled else .hiZ

/-! ## PD5, PD7, PD8, PD9, PD10: what Safe Hold turns off -/

/-- LD_*: current may flow only while running. -/
def pinLaser (p : Supplies) (s : State) : Bool := pinCond p s 5 == .running

/-- LEN_n (R409). -/
def pinLen (p : Supplies) (s : State) (n : Station) : PinLevel := pulled p (pinLaser p s && lenHigh s n)

/-- Duty of HV_Gh: that of the RUN slot bound to the channel (R474), 0 for gates that stay low. -/
def hvDuty (p : Supplies) (s : State) (h : Fin 16) : Nat :=
  if pinCond p s 7 == .running then
    match (allFin 48).find? fun l => (getLoop s l).st == .run && hvOf (getLoop s l) == some h with
    | some l => (outNow s (getLoop s l)).toNat
    | none => 0
  else 0

/-- HV_Gh. -/
def pinHvGate (p : Supplies) (s : State) (h : Fin 16) : PinLevel := if hvDuty p s h = 0 then gateOff p else .signal

/-- HTR pulse pairs may be emitted for a zone. -/
def pinHeater (p : Supplies) (s : State) (z : Zone) : PinLevel :=
  if !p.vaon then .passive
  else if pinCond p s 8 == .running && (tget s.loops.zone z).firing.isSome then .signal else .low

/-- HD_EN (R520). -/
def pinHeadEn (p : Supplies) (s : State) : PinLevel := pulled p (pinCond p s 9 == .running && headEn s)

/-- HD_D, HD_CLK, HD_LAT and HD_STB: low but where HD_EN is high, when the line engine drives them (R520). -/
def pinHead (p : Supplies) (s : State) : PinLevel := if pinHeadEn p s == .high then .signal else pinHeadEn p s

/-- CIS_CLK and CIS_SI. -/
def pinCis (p : Supplies) (s : State) : PinLevel :=
  if !p.vaon then .hiZ else if pinCond p s 10 == .running then .signal else .low

/-- LED sinks on, bit 0 red (R539). -/
def pinLeds (p : Supplies) (s : State) : BitVec 3 :=
  if pinCond p s 10 == .running then
    match s.scan.line with
    | some l => if l.reading then 0 else l.leds
    | none => 0
  else 0

/-! ## PD1, PD2, PD3, PD11 -/

/-- GPIOg: as programmed while running (R268). -/
def pinGpio (p : Supplies) (s : State) (g : Gpio) : PinLevel :=
  match pinCond p s 3 with
  | .unpowered | .aonOnly => .hiZ
  | .running =>
    let x := gpioNow s.now (tget s.cue.gpio g)
    if x.1 then driven x.2 else .pullDown
  | _ => .pullDown

/-- DDA_* and DDB_*, and DDR_RESET_n, which is high while the memory interface is active. -/
def pinDdr (p : Supplies) (s : State) : PinLevel := if p.vaon && domUp s 2 then .signal else .hiZ
def pinDdrReset (p : Supplies) (s : State) : PinLevel := if p.vaon then driven (domUp s 2) else .hiZ

/-- The serial links of domain 1 (PCIe, USB) or 11 (skid): active, or in electrical idle. -/
def pinLink (p : Supplies) (s : State) (d : Dom) : PinLevel :=
  if !p.vaon then .hiZ else if pinCond p s d == .running || pinCond p s d == .safeHold then .signal else .idle

/-- An engine input of domain d. -/
def pinEngineIn (p : Supplies) (s : State) (d : Dom) : PinIn :=
  match pinCond p s d with
  | .unpowered => .hiZ
  | .aonOnly | .reset => .ignored
  | .running | .safeHold => .sampled

/-! ## PD6: motor gates -/

/-- The gates of stepper n are driven: not in IDLE or FAULT, in Safe Hold only until it stands, and never without a motor supply
(R443). Sheet clear drives its steppers in Safe Hold (R169). -/
def pinGates (p : Supplies) (s : State) (n : Fin 16) : Bool :=
  let x := getStep s n
  s.motn.vmotOk && match pinCond p s 6 with
    | .running => sheetDrives s n || x.st == .hold || x.st == .moving || x.st == .stopping
    | .safeHold => sheetDrives s n || x.st == .moving || x.st == .stopping
    | _ => false

/-- Chopper peak of a current code, in 1/256 mV (R426). -/
def chopPeak (code : Byte) : Nat := code.toNat * 250

/-- Current code of stepper n: CUR while sheet clear drives it (R168). -/
def ampsNow (s : State) (n : Fin 16) : Byte := if sheetDrives s n then s.aon.scCur else (getStep s n).amps

/-- Currents of coils A and B of stepper n: the code times the sine and the cosine at position mod 1,024 (R427). -/
def coils (p : Supplies) (s : State) (n : Fin 16) : Int × Int :=
  let x := (posNow s n).toNat % 1024
  if pinGates p s n then
    ((ampsNow s n).toNat * Config.sineTable x, (ampsNow s n).toNat * Config.sineTable ((x + 256) % 1024))
  else (0, 0)

/-- The gates of BLDC k are driven: not in IDLE or FAULT (R447, R455), with a motor supply (R443) and a valid Hall code. -/
def bldcDrives (p : Supplies) (s : State) (k : Fin 4) : Bool :=
  let x := getBldc s k
  (pinCond p s 6 == .running || pinCond p s 6 == .safeHold) && s.motn.vmotOk && x.st != .idle && x.st != .fault &&
    x.hall != 0 && x.hall != 7

/-- Duty of BLDC k, over 4,096 (13, table of slot kinds). -/
def pinBldc (p : Supplies) (s : State) (k : Fin 4) : Nat := if bldcDrives p s k then bldcDuty s k else 0

/-- Gates of phase ph (0 U, 1 V, 2 W) of BLDC k: the duty of its high side, and whether its low side is on, as the six steps of
R452 put them (log 67). -/
def bldcPhase (p : Supplies) (s : State) (k : Fin 4) (ph : Fin 3) : Nat × Bool :=
  let x := getBldc s k
  let step := Config.sixStep x.dir x.hall.toNat
  let hi := step.1 % 3
  let lo := (hi + if step.2 then 1 else 2) % 3
  (if hi = ph.1 then pinBldc p s k else 0, bldcDrives p s k && lo == ph.1 && pinBldc p s k != 0)

/-! ## Safe Hold -/

/-- Low, or at most pulled down. -/
def PinLevel.off (x : PinLevel) : Bool := x == .low || x == .pullDown || x == .passive || x == .clamp || x == .hiZ

/-- Every output that Safe Hold turns off is off: lasers, LEN, high voltage, heaters, every head output, the scan clocks and
LEDs, ALIVE and GPIO (R51, R60). -/
def outputsOff (p : Supplies) (s : State) : Bool :=
  !pinLaser p s && (pinAlive p s).off && (pinHeadEn p s).off && (pinHead p s).off && (pinCis p s).off && pinLeds p s == 0 &&
    (allFin 4).all (fun n => (pinLen p s n).off) && (allFin 16).all (fun h => (pinHvGate p s h).off) &&
    (allFin 2).all (fun z => (pinHeater p s z).off) && (allFin 32).all fun g => (pinGpio p s g).off

end Sys2Proof.Machine
end

