-- ==== Sys2Proof/Safety.lean ====
section
/-!
DEFINITION. What a safe state is, in the terms the statements use: every memory the block holds is in its canonical form,
and what a step may never take back (OTP bits, outputs that have left the device, time).
-/

namespace Sys2Proof.Machine

/-- The parts of a state, for statements of what a command leaves as it is. -/
inductive Part where
  /-- time -/
  | now
  /-- sequencer, supervisor, AON registers -/
  | aon
  /-- thermal watch -/
  | therm
  /-- NV store -/
  | nv
  /-- log flume, read-out, export -/
  | lg
  /-- BOOT, images, OTP -/
  | boot
  /-- GLB_LOCK -/
  | lock
  /-- GLB_EPOCH -/
  | epoch
  /-- GLB_FLSEL -/
  | flSel
  /-- flume controls -/
  | fl
  /-- PD1: rings, completion staging -/
  | host
  /-- PD3: Engine Time, trackers, channels, pages -/
  | cue
  /-- PD2: memory controller and local memory -/
  | mem
  /-- PD4: Landing SRAM, Tamp, band staging -/
  | rast
  /-- PD5 -/
  | beam
  /-- PD6 -/
  | motn
  /-- PD7 and PD8 -/
  | loops
  /-- PD9 -/
  | head
  /-- PD10 -/
  | scan
  /-- PD11 -/
  | skid
  /-- outputs -/
  | out
  /-- count of the free values used -/
  | freeCount
  /-- the queue of commands -/
  | pending
deriving DecidableEq, Repr

/-- A part is the same in both states. -/
def Part.same (s t : State) : Part → Prop
  | .now => t.now = s.now
  | .aon => t.aon = s.aon
  | .therm => t.therm = s.therm
  | .nv => t.nv = s.nv
  | .lg => t.lg = s.lg
  | .boot => t.boot = s.boot
  | .lock => t.lock = s.lock
  | .epoch => t.epoch = s.epoch
  | .flSel => t.flSel = s.flSel
  | .fl => t.fl = s.fl
  | .host => t.host = s.host
  | .cue => t.cue = s.cue
  | .mem => t.mem = s.mem
  | .rast => t.rast = s.rast
  | .beam => t.beam = s.beam
  | .motn => t.motn = s.motn
  | .loops => t.loops = s.loops
  | .head => t.head = s.head
  | .scan => t.scan = s.scan
  | .skid => t.skid = s.skid
  | .out => t.out = s.out
  | .freeCount => t.freeCount = s.freeCount
  | .pending => t.pending = s.pending

/-- Only the parts listed may differ. -/
def ChangesOnly (ps : List Part) (s t : State) : Prop := ∀ p, p ∉ ps → p.same s t

/-- The domains of t are those of v, but for the instants at which each came up and went. -/
def DomsAre (t : State) (v : Vector DomS 12) : Prop :=
  ∀ d : Dom, { getDom t d with upAt := 0, downAt := 0 } = { tget v d with upAt := 0, downAt := 0 }

/-- Every rail that p names is in t as in s; but one that waits or is in its on delay may be in either of the two (R79, R84). -/
def RailsStay (p : Rail → Prop) (s t : State) : Prop :=
  ∀ m : Rail, p m →
    if (getRail s m).st = .wait ∨ (getRail s m).st = .delay then
      getRail t m = { getRail s m with st := (getRail t m).st, since := (getRail t m).since } ∧
        ((getRail t m).st = .wait ∨ (getRail t m).st = .delay)
    else getRail t m = getRail s m

/-- A take-down that has no item left to take. -/
def spent (f : Form) : Bool :=
  match f with
  | .collapse [] _ => true
  | f => match formPhase f with
    | some (.items, []) | some (.aborts _, []) => true
    | _ => false

/-- The take-downs after failures when item i fails at instant k: those in progress go on without it, and one of its started
dependents begins (R78, R85). A collapse form has the dependents already. -/
def partsAfter (s : State) (i k : Nat) : List PartDown :=
  let l := downOrder s fun j => j != i && dependsOn s j i
  partsWithout i s.aon.parts ++ match s.aon.form with
    | .collapse _ _ => []
    | _ => if l = [] then [] else [{ todo := l, last := k }]

/-- A whole request frame of JRP command cmd arrives on port j: no partial frame before it, SYNC, LEN and CRC right. -/
def JrpRequest (s : State) (j : JrpPort) (f : List Byte) (cmd : Nat) : Prop :=
  jrpOn s j = true ∧ (getJrp s j).part = [] ∧ jFramed f = true ∧ f.length = jTotal f ∧ jCrcOk f = true ∧ (jCmd f).toNat = cmd

/-- It repeats the last executed request (R201). -/
def jrpRepeats (s : State) (j : JrpPort) (f : List Byte) : Prop := (getJrp s j).last = some (jSeq f, jCmd f)

/-- The frame r has left port j, after everything that had left before; on I2C it is ready for the host's read transaction (R198). -/
def JrpSent (s t : State) (j : JrpPort) (r : List Byte) : Prop :=
  if j = .i2c then t.out = s.out ∧ (getJrp t j).reply = r else t.out = s.out ++ [.jrp j r]

/-- The response with the status and payload given has been sent on port j. -/
def JrpAnswered (s t : State) (j : JrpPort) (f : List Byte) (stat : Byte) (payload : List Byte) : Prop :=
  JrpSent s t j (jResponse (jSeq f) (jCmd f) stat payload)

/-- The state in which a valid frame of port j is executed: the port alone has noted its arrival (R197). -/
def jrpTaken (j : JrpPort) (s : State) : State :=
  modJrp j (fun x => { x with part := [], byteAt := s.now, validAt := s.now, reply := [] }) s

/-- The executed request of state s and its response are the ones a repetition is answered with; the frame is the port's last
valid one (R197, R201). -/
def JrpKept (s t : State) (j : JrpPort) (f : List Byte) (stat : Byte) (payload : List Byte) : Prop :=
  let r := jResponse (jSeq f) (jCmd f) stat payload
  getJrp t j = { last := some (jSeq f, jCmd f), resp := r, part := [], byteAt := s.now, validAt := s.now,
                 reply := if j = .i2c then r else [] }

/-- The CMD record of a command taken from a ring (R301, R302, R313): its status, the fields A and B. -/
def cmdRec (s : State) (q : CmdReq) (status a b : Nat) : Rec :=
  { kind := 1, epoch := q.epoch, src := if 1 ≤ q.opc ∧ q.opc ≤ 4 then q.chanField.setWidth 16 else 0xFFFF
    status := BitVec.ofNat 8 status, xb := BitVec.ofNat 8 q.opc, et := etNow s
    body := leBytes 4 q.tag.toNat ++ [0, 0] ++ leBytes 2 a ++ leBytes 4 b ++ [0, 0, 0, 0] }

/-- The records staged, and those that wait, in order. -/
def stagedRecs (s : State) : List Rec := s.host.staging.map (·.rcd)
def waitingRecs (s : State) : List Rec := s.host.waiting.map (·.rcd)

/-- Exactly the record r has been made: it is the last one staged, or the last one waiting. -/
def Told (s t : State) (r : Rec) : Prop :=
  (stagedRecs t = stagedRecs s ++ [r] ∧ waitingRecs t = waitingRecs s) ∨
    (stagedRecs t = stagedRecs s ∧ waitingRecs t = waitingRecs s ++ [r])

/-- The record r has been made last. -/
def LastTold (t : State) (r : Rec) : Prop := (stagedRecs t).getLast? = some r ∨ (waitingRecs t).getLast? = some r

/-- The decoder takes entry e with that OPC from ring r, for this device. -/
def TakesCommand (s : State) (r : Ring) (e : List Byte) (opc : Nat) : Prop :=
  decodes s r = true ∧ e.length = 64 ∧ eOpc e = opc ∧ forwards s e = false ∧ (getFl s stgFl).down = false

/-- HEAD of ring r has advanced, and the turn is past it. -/
def RingMoved (s t : State) (r : Ring) : Prop :=
  getRing t r = { getRing s r with head := (getRing s r).head + 1, held := none } ∧ t.host.rr = r ∧ ∀ k : Ring, k ≠ r → getRing t k = getRing s k

/-- No lifecycle command is in progress or waits, and no RECOVER is in progress. -/
def LifeIdle (s : State) : Prop := s.cue.life = none ∧ s.host.lifeQ = [] ∧ s.host.recov = none

/-- Channel c has context x; nothing else of the state differs. -/
def withCh (s : State) (c : Chan) (x : Channel) : State := { s with cue := { s.cue with ch := tset s.cue.ch c x } }

/-- Nothing of PD3 but channel c differs. -/
def CueBut (s t : State) (c : Chan) : Prop :=
  t.cue = { s.cue with ch := t.cue.ch } ∧ ∀ d : Chan, d ≠ c → getCh t d = getCh s d

/-- A channel after a complete instruction: at program counter p, no prefix, one more instruction issued (R238). -/
def stepped (x : Channel) (p : Pc) : Channel :=
  { x with pc := p, pfx := none, stats := { x.stats with issued := satInc x.stats.issued } }

/-- A channel after a complete instruction that is no branch. -/
def past (x : Channel) : Channel := stepped x { lib := x.pc.lib, off := x.pc.off + 4 }

/-- A channel blocked since ET, in state s. -/
def blockedCh (s : State) (x : Channel) : Channel := { x with blocked := some s.cue.et.toNat }

/-- Channel c issues instruction i at its PC for the first time. -/
def Issues (s : State) (c : Chan) (i : CueI) : Prop :=
  canIssue s c = true ∧ (getCh s c).blocked = none ∧ presentI s c = some (some i)

/-- The word after the present one lies in the region (R254). -/
def Follows (s : State) (c : Chan) : Prop := inRegion s c (getCh s c).pc.lib ((getCh s c).pc.off + 4) = true

/-- Channel c issues i, no prefix stands before it, and the next word lies in the region. -/
def Plain (s : State) (c : Chan) (i : CueI) : Prop := Issues s c i ∧ (getCh s c).pfx = none ∧ Follows s c

/-- Offset of a branch. -/
def branchOff (x : Channel) (d : BitVec 21) : Int := x.pc.off + 4 + 4 * d.toInt

/-- Z, N, C and V of a flag word are these, every other flag is as before (R208, R257). -/
def FlagsAre (old new : BitVec 16) (z n cy ov : Bool) : Prop :=
  new.getLsbD 0 = z ∧ new.getLsbD 1 = n ∧ new.getLsbD 2 = cy ∧ new.getLsbD 3 = ov ∧
    ∀ k : Nat, 4 ≤ k → new.getLsbD k = old.getLsbD k

/-- The row of a data instruction writes a result v, a carry and an overflow that meet f of its two operands. -/
def AluRow (row : Chan → Instr) (o : Alu) (signed : Bool) (f : Word → Word → Word → Bool → Bool → Prop) : Prop :=
  ∀ (s : State) (c : Chan) (d a : Slot) (b : Op2), Plain s c (.alu o d a b) →
    let x := getCh s c
    ∃ v cy ov fl, f (chSlot x a) (op2Of x signed b) v cy ov ∧ FlagsAre x.flags fl (v == 0) v.msb cy ov ∧
      Machine.exec (row c) s = .next (withCh s c (past { x with slots := tset x.slots d v, flags := fl }))

/-- A channel after it has used one tally of f: a held one first (R272). -/
def usedOne (x : Channel) (f : FlumeId) : Channel :=
  if heldOn x f = 0 then x
  else { x with held := x.held.filter (·.1 != f) ++ (if heldOn x f - 1 = 0 then [] else [(f, heldOn x f - 1)]) }

/-- WB after a non-blocking form that did not block; a blocking form leaves it (R253). -/
def wbDone (nb : Bool) (x : Channel) : Channel := if nb then { x with flags := withBit x.flags 4 false } else x

/-- A form that would block: WB 1 and past it, or blocked (R253). -/
def wouldBlock (s : State) (c : Chan) (nb : Bool) : State :=
  let x := getCh s c
  withCh s c (if nb then past { x with flags := withBit x.flags 4 true } else blockedCh s x)

/-- The row of a decoded instruction; gpio are the levels COMMIT ADMIT samples. -/
def rowOf (i : CueI) (c : Chan) (gpio : Word) : Instr :=
  match i with
  | .nop => .nop c
  | .jmp _ => .jmp c
  | .jcc _ _ => .jcc c
  | .call _ _ => .call c
  | .ret => .ret c
  | .loop _ _ => .loop c
  | .halt => .halt c
  | .ldi _ _ => .ldi c
  | .ldh _ _ => .ldh c
  | .mov _ _ => .mov c
  | .movFr _ => .movFlagsRead c
  | .movFw _ => .movFlagsWrite c
  | .movSt _ _ _ => .movStatus c
  | .alu .add _ _ _ => .add c
  | .alu .sub _ _ _ => .sub c
  | .alu .and _ _ _ => .and c
  | .alu .or _ _ _ => .or c
  | .alu .xor _ _ _ => .xor c
  | .alu .shl _ _ _ => .shl c
  | .alu .shr _ _ _ => .shr c
  | .cmp _ _ => .cmp c
  | .ldm _ _ _ => .ldm c
  | .stm _ _ _ => .stm c
  | .waitet _ => .waitet c
  | .waitth _ _ _ => .waitth c
  | .waitev _ _ _ => .waitev c
  | .at_ _ _ _ _ => .atPfx c
  | .atth _ _ _ _ _ => .atthPfx c
  | .push _ _ _ => .push c
  | .pop _ _ => .pop c
  | .take _ _ _ => .take c
  | .give _ _ => .give c
  | .move _ _ _ _ => .move c
  | .movx _ _ _ => .movx c
  | .setp _ _ _ _ => .setp c
  | .ramp _ _ _ _ _ _ => .ramp c
  | .loopon _ _ _ _ _ => .loopon c
  | .loopoff _ _ => .loopoff c
  | .fire _ _ => .fire c
  | .strobe _ _ => .strobe c
  | .scanl _ _ _ => .scanl c
  | .sig _ _ _ _ => .sig c
  | .fence _ => .fence c
  | .admitPl _ _ _ => .commitAdmit c gpio
  | .done _ => .commitDone c
  | .abort _ => .abort c
  | .log _ _ _ _ => .log c
  | .trap _ => .trap c

/-- Channel c has taken a fault (R232): code and offset are held and posted, the instruction's wait and prefix are over, and
the channel is FAULTED, or runs its handler. -/
def FaultTaken (s t : State) (c : Chan) (code : Nat) : Prop :=
  let x := getCh s c
  let y := getCh t c
  let halt := !x.entry.handlerPol || code == 0x20 || code == 0x22 || x.flags.getLsbD 6
  y.faultCode = BitVec.ofNat 16 code ∧ y.fpc = x.pc.shown ∧ y.pfx = none ∧ y.blocked = none ∧ y.taking = none ∧
  y.stats.faults = satInc x.stats.faults ∧ y.stats.lastFault = BitVec.ofNat 16 code ∧
  mkRec s 3 (srcOf s c) 0 (if halt then 0 else 1) (leBytes 4 x.pc.shown ++ leBytes 2 code ++ List.replicate 10 0) ∈
    stagedRecs t ++ waitingRecs t ∧
  (halt = true → y.st = .faulted ∧ y.pc = x.pc ∧ y.slots = x.slots ∧ y.held = [] ∧ ∀ a ∈ y.actq, a.done = true) ∧
  (halt = false → y.st = .running ∧ y.pc = { lib := false, off := x.entry.handler } ∧ y.stack = [] ∧
    y.flags = withBit x.flags 6 true ∧ y.held = x.held ∧
    y.slots = tset (tset x.slots 15 (BitVec.ofNat 32 code)) 14 (BitVec.ofNat 32 x.pc.shown))

/-- The row of instruction i at channel c takes a fault. -/
def RowFaults (s : State) (c : Chan) (i : CueI) (code : Nat) : Prop :=
  ∀ gpio : Word, ∃ t, Machine.exec (rowOf i c gpio) s = .next t ∧ FaultTaken s t c code

/-- The action numbers of a channel's queue differ, lie below the next one, and name the channel. -/
def ActsOk (s : State) : Prop :=
  ∀ c : Chan, ((getCh s c).actq.map (·.id)).Nodup ∧ ∀ a ∈ (getCh s c).actq, a.chan = c ∧ a.id < s.cue.nextId

/-- N of an instruction of format D. -/
def nbOf : CueI → Bool
  | .waitev nb _ _ | .push nb _ _ | .pop nb _ | .take nb _ _ | .move nb _ _ _ | .movx nb _ _ | .setp nb _ _ _
  | .ramp nb _ _ _ _ _ | .loopon nb _ _ _ _ | .loopoff nb _ | .fire nb _ | .strobe nb _ | .scanl nb _ _ | .sig nb _ _ _
  | .admitPl nb _ _ => nb
  | _ => false

/-- An engine instruction or SIG passes its checks and forms the operation op (R241, R243, R244, R260-R262, R277, R387, R449, R451, R461,
R489, R514, R542). -/
def EngineForm (s : State) (c : Chan) (i : CueI) (op : ActOp) : Prop :=
  let x := getCh s c
  let held := fun id : Nat => holder s id = some c
  let expert := fun e : Bool => (e = true → x.entry.expert = true) ∧ (e = false → s.boot.preset ≠ none)
  match i with
  | .move _ id k a => ∃ (m : Motor) (g : Segment), id.toNat = m.1 ∧ held m.1 ∧ expert false ∧ moveSeg s c m k.toNat (chSlot x a) = .ok g ∧
      op = .seg m g false
  | .movx _ id a => ∃ (m : Motor) (g : Segment), id.toNat = m.1 ∧ held m.1 ∧ expert true ∧ scratchOk (chSlot x a) 16 = true ∧
      movxSeg s c m (memRead x.scratch (chSlot x a).toNat 16) = some g ∧ op = .seg m g true
  | .setp _ e id a =>
    (∃ l : LoopId, id.toNat = 20 + l.1 ∧ held (20 + l.1) ∧ expert e ∧ (getLoop s l).kind ≠ 3 ∧ (e = true → (chSlot x a).toNat ≤ 4095) ∧
      op = .setp l ⟨if e then (chSlot x a).toNat else toCounts s (getLoop s l) (chSlot x a).toNat, none, c, x.pc.shown⟩) ∨
    (∃ g : Gpio, id.toNat = 90 + g.1 ∧ held (90 + g.1) ∧ expert false ∧ e = false ∧ op = .gpio g ((chSlot x a).getLsbD 0) ((chSlot x a).getLsbD 1))
  | .ramp _ e id k a b => ∃ (l : LoopId) (en : SpEntry), id.toNat = 20 + l.1 ∧ held (20 + l.1) ∧ expert e ∧
      rampEntry s c e (getLoop s l) k.toNat (chSlot x a) (chSlot x b) = .ok en ∧ op = .ramp l en
  | .loopon _ e id k a => ∃ (l : LoopId) (g : Gains), id.toNat = 20 + l.1 ∧ (∀ n ∈ loopIds (getLoop s l) (20 + l.1), held n) ∧ expert e ∧
      (e = true → scratchOk (chSlot x a) 32 = true ∧ gainsOk (memRead x.scratch (chSlot x a).toNat 32) = true ∧
        g = gainsOf (memRead x.scratch (chSlot x a).toNat 32)) ∧
      (e = false → presetGains s (getLoop s l) k.toNat = some g) ∧ op = .loopon l g
  | .loopoff _ id => ∃ l : LoopId, id.toNat = 20 + l.1 ∧ held (20 + l.1) ∧ expert false ∧ op = .loopoff l
  | .fire _ id => ∃ n : Station, id.toNat = 84 + n.1 ∧ held (84 + n.1) ∧ expert false ∧ op = .fire n
  | .strobe _ id => id.toNat = 88 ∧ held 88 ∧ expert false ∧
      op = .strobe (match (if pcrit s c then tagFor s c 4 else none) with | some g => tget g.tagged 4 | none => 0)
  | .scanl _ id k => id.toNat = 89 ∧ held 89 ∧ expert false ∧ held s.scan.mode.stepper.toNat ∧ op = .scanl k
  | .sig _ k a b => let t : BitVec 9 := (chSlot x a).extractLsb' 0 9
      (isManager s = true → devKnown s (t.toNat / 64) = true) ∧ chanRuns s t = true ∧ op = .sig t k (chSlot x b)
  | _ => False

/-- The page a FIRE or STROBE of a page-critical channel is tagged with (R387, R514). -/
def opTag (s : State) (c : Chan) : ActOp → Option (Page × Engine)
  | .fire n => (if pcrit s c then tagFor s c (beamEngine n) else none).map (·, beamEngine n)
  | .strobe _ => (if pcrit s c then tagFor s c 4 else none).map (·, 4)
  | _ => none

/-- Flumes a timed operation takes a tally of: the channel's action queue and the operation's own (R263). -/
def timedFlumes (s : State) (c : Chan) (op : ActOp) : List FlumeId := actFl c :: (actDest s op).toList

/-- A timed operation of channel c that now stands in its action queue as a, the instruction complete; nothing else differs but
the tallies and the tag of the page (R262, R263, R272). -/
def Queued (s t : State) (c : Chan) (nb : Bool) (p : Pfx) (op : ActOp) (a : Action) : Prop :=
  let x := getCh s c
  a.id = s.cue.nextId ∧ a.chan = c ∧ a.pc = x.pc.shown ∧ a.res = actRes op ∧ a.op = op ∧ a.target = p.target ∧ a.cpl = p.cpl ∧
  a.pol = policyOf s c ((opTag s c op).map (·.1.adm)) p.pol ∧ a.shift = false ∧ a.slip = false ∧ a.due = none ∧ a.destLost = false ∧ a.done = false ∧
  a.page = (opTag s c op).map (·.1.adm) ∧
  getCh t c = { past (wbDone nb ((timedFlumes s c op).foldl usedOne x)) with actq := x.actq ++ [a] } ∧
  (∀ d : Chan, d ≠ c → getCh t d = getCh s d) ∧
  t.cue = { s.cue with ch := t.cue.ch, pages := t.cue.pages, nextId := s.cue.nextId + 1 } ∧
  t.cue.pages = (match opTag s c op with
    | none => s.cue.pages
    | some (g, e) => s.cue.pages.map fun h => if h.handle == g.handle then { h with tagged := tmod h.tagged e (· + 1) } else h) ∧
  (∀ f : FlumeId, (getFl t f).tally =
    if f ∈ timedFlumes s c op ∧ heldOn x f = 0 then (getFl s f).tally - 1 else (getFl s f).tally) ∧
  ChangesOnly [.cue, .fl, .freeCount] s t

/-- The record r of unit src with that code has been made: it is the last one staged, or it waits behind all but the latches of
the same cycle that go after it (R26). -/
def LatchTold (s t : State) (src code : Nat) (r : Rec) : Prop :=
  (stagedRecs t = stagedRecs s ++ [r] ∧ waitingRecs t = waitingRecs s) ∨
    (stagedRecs t = stagedRecs s ∧ ∃ l l' : List Waiting, s.host.waiting = l ++ l' ∧
      waitingRecs t = l.map (·.rcd) ++ r :: l'.map (·.rcd) ∧ (∀ w ∈ l', latchAfter t src code w = true) ∧
      ∀ w, l.getLast? = some w → latchAfter t src code w = false)

/-- The unit src has posted ENGINE event code about resource res with its data bytes, made now (R25, R301, R688): a second
occurrence of a waiting one only counts. -/
def EngineTold (s t : State) (src code res : Nat) (data : List Byte) : Prop :=
  if s.host.waiting.any (fun w => match w.by_ with | .latch a b _ => a == src && b == code | _ => false) then
    stagedRecs t = stagedRecs s ∧ waitingRecs t = waitingRecs s
  else LatchTold s t src code
    (mkRec t 9 0xFFFF 0 0 (leBytes 2 code ++ [1, 0] ++ leBytes 2 res ++ (data ++ List.replicate 10 0).take 10))

/-- Flume f has n more tallies on their way back, where it is up; no other flume changes. -/
def Returned (s t : State) (f : FlumeId) (n : Nat) : Prop :=
  t.fl = tset s.fl f (if (getFl s f).down then getFl s f else { getFl s f with ret := (getFl s f).ret + n })

/-- Local memory, the Landing SRAM and every channel's scratch are in canonical form. -/
def State.memWf (s : State) : Bool :=
  Memory.wf s.mem.data && Memory.wf s.rast.land && s.cue.ch.toList.all fun x => Memory.wf x.scratch

/-- Every OTP bit that is 1 before is 1 after (R196). -/
def OtpKept (s t : State) : Prop := ∀ (i : Fin 32) (k : Nat), (tget s.boot.otp i).getLsbD k = true → (tget t.boot.otp i).getLsbD k = true

/-- What has left the device stays so: the outputs before are a beginning of those after. -/
def OutKept (s t : State) : Prop := ∃ l, t.out = s.out ++ l

/-- Time does not run backwards. -/
def TimeKept (s t : State) : Prop := s.now ≤ t.now

end Sys2Proof.Machine
end

