-- ==== Sys2Proof/Certificates/Slice0/Obligations.lean ====
section
/-!
DEFINITION. The statements for the provers (OBLIGATIONS.json lists them): what the machine and each command do, by the
rules of spec/. A statement holds of every state that meets its hypotheses, whether or not a run reaches it.
-/

open Sys2Proof Sys2Proof.Machine

/-- A step runs the front command with the queue's rest. The queue of waiting commands is the model's own (log 2). -/
def Obligations.StepRunsFrontCommand : Prop :=
  ∀ (c : Instr) (s : State) (r : List Instr), s.pending = c :: r → step s = exec c { s with pending := r }

/-- An empty queue lets one tick pass: Engine Time counts it while PD3 runs (R123). The tick itself is the model's choice
(log 2). -/
def Obligations.EmptyQueueLetsOneTickPass : Prop :=
  ∀ s : State, s.pending = [] → ∃ t, step s = .next t ∧ t.now = s.now + 1 ∧
    t.cue.et = (if domUp s 3 then s.cue.et + 1 else s.cue.et) ∧
    { t.cue with et := s.cue.et } = s.cue ∧ ChangesOnly [.now, .cue] s t

/-- The machine right after reset: AON power-on reset asserted. The blank OTP and the zero memory are the model's choices (logs
6 and 9). -/
def Obligations.ResetHoldsOnlyPdZero : Prop :=
  State.reset.aon.por = true ∧ State.reset.aon.hold = true ∧ State.reset.aon.cRst = true ∧ safeDrive State.reset = true ∧
    (∀ d : Dom, d ≠ 0 → domOn State.reset d = false) ∧ (∀ n : Rail, (getRail State.reset n).st = .off) ∧
    State.reset.aon.seqState = .off ∧ State.reset.cue.et = 0 ∧ State.reset.lock = false ∧ State.reset.epoch = 0 ∧
    (∀ i : Fin 32, tget State.reset.boot.otp i = 0) ∧ State.reset.mem.data = [] ∧ State.reset.rast.land = [] ∧
    State.reset.pending = [] ∧ State.reset.out = []

/-- The invariant of the memories: whatever command is in front, a step keeps local memory, the Landing SRAM and every
channel's scratch in the canonical form of log 6. -/
def Obligations.EveryStepKeepsMemoryCanonical : Prop :=
  ∀ s t : State, s.memWf = true → step s = .next t → t.memWf = true

/-- The invariants hold after reset. -/
def Obligations.ResetMeetsTheInvariants : Prop :=
  State.reset.memWf = true ∧ ActsOk State.reset

/-- The invariant of the action queues, which the statements about the wheel assume: numbers tell the actions of a channel apart.
The numbers are the model's own. -/
def Obligations.EveryStepKeepsActionNumbers : Prop :=
  ∀ s t : State, ActsOk s → step s = .next t → ActsOk t

/-- A bit once set is never cleared (from R196). -/
def Obligations.OtpBitsAreNeverCleared : Prop :=
  ∀ s t : State, step s = .next t → OtpKept s t

/-- LOCK stays 1 until power-on reset or MRST_n (R8). -/
def Obligations.LockStaysUntilPowerOnResetOrMrst : Prop :=
  ∀ s t : State, s.lock = true → s.pending.head? ≠ some .aonPorAssert → s.pending.head? ≠ some .mrstAssert →
    step s = .next t → t.lock = true

/-- What exec never does, whatever the command: touch the queue, take back an output, run time backwards. -/
def Obligations.CommandsLeaveTheQueueAndThePast : Prop :=
  ∀ (c : Instr) (s t : State), exec c s = .next t → t.pending = s.pending ∧ OutKept s t ∧ TimeKept s t

/-- Any BAR0 access but a naturally aligned 32-bit one completes: its data is discarded, or 0 is returned (R4). Where BAR0
accesses do not reach the controller (from R682), nothing changes and nothing is returned. -/
def Obligations.Bar0AccessesNotAlignedOrNotReaching : Prop :=
  (∀ (s : State) (off size : Nat) (v : DWord), bar0Reach s = true → ¬ (size = 4 ∧ off % 4 = 0) →
    exec (.bar0MisalignedAccess true off size v) s = .next s ∧
    ∃ t, exec (.bar0MisalignedAccess false off size v) s = .next t ∧ t.out = s.out ++ [.readData 0] ∧ ChangesOnly [.out] s t) ∧
  (∀ (s : State) (off size : Nat) (v : DWord) (w : Word) (wr : Bool), bar0Reach s = false →
    exec (.bar0MisalignedAccess wr off size v) s = .next s ∧ exec (.regWrite .bar0 off w) s = .next s ∧
    exec (.rcFieldRead .bar0 off) s = .next s ∧ exec .glbLockSet s = .next s ∧ exec .etLoRead s = .next s)

/-- A block that is off reads as 0 and writes to it have no effect; GLB, AON and BOOT are never off (R11). So does an offset
that no register occupies (R6). -/
def Obligations.BlocksThatAreOffReadZeroAndIgnoreWrites : Prop :=
  (∀ (s : State) (p : Port) (off : Nat) (v : Word), portReach s p off = true → blockOn s off = false →
    exec (.regWrite p off v) s = .next s ∧
    ∃ t, exec (.rcFieldRead p off) s = .next t ∧ t.out = s.out ++ [.readData 0] ∧ ChangesOnly [.out] s t) ∧
  (∀ (s : State) (off : Nat), s.aon.por = false → (off / 65536 = 0 ∨ off / 65536 = 1 ∨ off / 65536 = 14) → blockOn s off = true) ∧
  (∀ off : Nat, 0xF0000 ≤ off → blockDom (off / 65536) = none) ∧
  (blockDom 2 = some 1 ∧ blockDom 3 = some 2 ∧ blockDom 4 = some 3 ∧ blockDom 13 = some 3 ∧ blockDom 5 = some 4 ∧
    blockDom 6 = some 4 ∧ blockDom 7 = some 5 ∧ blockDom 8 = some 6 ∧ blockDom 9 = some 7 ∧ blockDom 10 = some 9 ∧
    blockDom 11 = some 10 ∧ blockDom 12 = some 11) ∧
  (∀ (s : State) (off : Nat) (v : Word), bar0Reach s = true → 0x200 ≤ off → off < 0x10000 → off % 4 = 0 →
    exec (.regWrite .bar0 off v) s = .next s ∧
    ∃ t, exec (.rcFieldRead .bar0 off) s = .next t ∧ t.out = s.out ++ [.readData 0] ∧ ChangesOnly [.out] s t)

/-- Writes of registers of each access code (from R2, R8, R13). -/
def Obligations.RegisterWritesTakeTheirFields : Prop :=
  (∀ (s : State) (v : Word), bar0Reach s = true →
    (∃ t, exec (.regWrite .bar0 0x100 v) s = .next t ∧ t.flSel = v.extractLsb' 0 10 ∧ readReg t 0x100 = (v.extractLsb' 0 10).setWidth 32 ∧
      ChangesOnly [.flSel] s t) ∧
    (∃ t, exec (.regWrite .bar0 0x010 v) s = .next t ∧ t.lock = (s.lock || v.getLsbD 0) ∧ ChangesOnly [.lock] s t) ∧
    (∃ t, exec .glbLockSet s = .next t ∧ t.lock = true ∧ readReg t 0x010 = 1 ∧ ChangesOnly [.lock] s t)) ∧
  (∀ (s : State) (v : Word), s.aon.por = false →
    (∃ t, exec (.regWrite .keeper 0xE0034 v) s = .next t ∧ t.boot = { s.boot with otpData := v } ∧ ChangesOnly [.boot] s t) ∧
    (s.lock = false → ∃ t, exec (.regWrite .keeper 0x10034 v) s = .next t ∧
      t.aon = { s.aon with longS := v.extractLsb' 0 5, cutS := v.extractLsb' 8 5 } ∧ ChangesOnly [.aon] s t) ∧
    (s.lock = true → exec (.regWrite .keeper 0x10034 v) s = .next s) ∧
    (∃ t, exec (.regWrite .keeper 0x10020 v) s = .next t ∧
      t.aon = { s.aon with cmdErr := s.aon.cmdErr &&& ~~~(v.extractLsb' 8 3), stall := s.aon.stall && !v.getLsbD 3 } ∧
      ChangesOnly [.aon] s t)) ∧
  (∀ (s : State) (off : Nat) (v : Word), off / 65536 ≠ 1 → off / 65536 ≠ 14 → exec (.regWrite .keeper off v) s = .next s)

/-- Reads that latch the other half of a 64-bit value (from R147, R129) and reads of RC fields (from R2). -/
def Obligations.ReadsThatLatchOrClear : Prop :=
  ∀ s : State, reach s .bar0 3 = true →
    (∃ t, exec .etLoRead s = .next t ∧ t.out = s.out ++ [.readData (s.cue.et.setWidth 32)] ∧
      t.cue = { s.cue with etHi := (s.cue.et >>> 32).setWidth 32 } ∧ readReg t 0xD0004 = (s.cue.et >>> 32).setWidth 32 ∧
      ChangesOnly [.cue, .out] s t) ∧
    (∀ k : Trk, ∃ t, exec (.trkAnchorLoRead k) s = .next t ∧
      t.out = s.out ++ [.readData (BitVec.ofNat 32 ((getTrk s k).anchor256 / 256))] ∧
      (getTrk t k).anchorHi = BitVec.ofNat 32 ((getTrk s k).anchor256 / 256 / 4294967296) ∧
      (∀ j : Trk, j ≠ k → getTrk t j = getTrk s j) ∧ ChangesOnly [.cue, .out] s t) ∧
    (∃ t, exec (.rcFieldRead .bar0 0xD0010) s = .next t ∧ t.out = s.out ++ [.readData (readReg s 0xD0010)] ∧
      t.cue = { s.cue with slips := 0 } ∧ ChangesOnly [.cue, .out] s t) ∧
    (∃ t, exec (.rcFieldRead .bar0 0xD0130) s = .next t ∧ t.out = s.out ++ [.readData (getTrk s 0).noise] ∧
      (getTrk t 0) = { getTrk s 0 with noise := 0 } ∧ (∀ j : Trk, j ≠ 0 → getTrk t j = getTrk s j) ∧ ChangesOnly [.cue, .out] s t)

/-- Returned tallies become usable (from R23), waiting producers take them (from R20, R26), GLB_FLMIN.CLR (01). -/
def Obligations.TalliesCrossAndWaitingProducersTakeThem : Prop :=
  (∀ (s : State) (f : FlumeId) (k : Nat), 0x100 ≤ f.1 → f.1 < 0x188 → (getFl s f).down = false → (getFl s f).ret = k + 1 →
    ∃ t, exec (.tallyUsable f) s = .next t ∧ getFl t f = { getFl s f with tally := (getFl s f).tally + 1, ret := k } ∧
      (∀ g : FlumeId, g ≠ f → getFl t g = getFl s g) ∧ ChangesOnly [.fl] s t) ∧
  (∀ (s : State) (k : Nat) (e : LogLatch) (l : List LogLatch), (getFl s logFl).down = false → (getFl s logFl).ret = k + 1 →
    (getFl s logFl).tally = 0 → s.lg.latches = e :: l →
    ∃ t, exec (.tallyUsable logFl) s = .next t ∧ t.lg = { s.lg with queue := s.lg.queue ++ [e.entry], latches := l } ∧
      (getFl t logFl).tally = 0 ∧ (getFl t logFl).ret = k ∧ (∀ g : FlumeId, g ≠ logFl → getFl t g = getFl s g) ∧
      ChangesOnly [.fl, .lg] s t) ∧
  (∀ (s : State) (k : Nat) (e : LogLatch), (getFl s logFl).down = false → (getFl s logFl).tally = k + 1 → s.lg.latches = [e] →
    ∃ t, exec (.producerPushResume logFl) s = .next t ∧ t.lg = { s.lg with queue := s.lg.queue ++ [e.entry], latches := [] } ∧
      (getFl t logFl).tally = k ∧ (∀ g : FlumeId, g ≠ logFl → getFl t g = getFl s g) ∧ ChangesOnly [.fl, .lg] s t) ∧
  (∀ (s : State) (f : FlumeId), bar0Reach s = true → selFlume s = some f →
    ∃ t, exec .flumeMinClear s = .next t ∧ getFl t f = { getFl s f with minTally := shownTally s f, zero := false } ∧
      (∀ g : FlumeId, g ≠ f → getFl t g = getFl s g) ∧ ChangesOnly [.fl] s t)

/-- Soft start, power good and soft-start failure of a rail (from R79 to R84, R115, R116). A take-down that the failing item was the
last to wait for ends, which the premises on `spent` leave out. -/
def Obligations.RailSoftStartAndFailure : Prop :=
  (∀ (s : State) (n : Rail), (getRail s n).st = .delay → spent s.aon.form = false → ∃ t, exec (.railDlyExpire n) s = .next t ∧
    t.now = max s.now ((getRail s n).since + (getRail s n).dly.toNat * ms) ∧
    (depsReady s n.1 = true → getRail t n = { getRail s n with st := .soft, since := t.now } ∧
      t.aon.started = insertStart (n.1, t.now) s.aon.started) ∧
    (depsReady s n.1 = false → (getRail t n).st = .wait ∧ t.aon.started = s.aon.started) ∧
    DomsAre t s.aon.doms ∧ t.aon.faults = s.aon.faults ∧ t.aon.form = s.aon.form ∧ t.aon.parts = s.aon.parts ∧
    RailsStay (· ≠ n) s t) ∧
  (∀ (s : State) (n : Rail), (getRail s n).st = .soft → s.now ≤ (getRail s n).since + (getRail s n).ssw.toNat * ms →
    spent s.aon.form = false →
    ∃ t, exec (.railGood n) s = .next t ∧ t.now = max s.now ((getRail s n).since + 100 * us) ∧
    getRail t n = { getRail s n with st := .good, since := t.now } ∧ t.aon.started = s.aon.started ∧
    DomsAre t s.aon.doms ∧ t.aon.faults = s.aon.faults ∧ t.aon.form = s.aon.form ∧ t.aon.parts = s.aon.parts ∧
    RailsStay (· ≠ n) s t) ∧
  (∀ (s u : State) (n : Rail) (c : Instr) (cause : BitVec 3), (getRail s n).st = .soft →
    (c = .railSswExpire n ∧ u = timeTo ((getRail s n).since + (getRail s n).ssw.toNat * ms) s ∧ cause = 1) ∨
      (c = .railOvercurrent n ∧ (getRail s n).csEn = true ∧ u = s ∧ cause = 2) →
    spent (formWithout n.1 s.aon.form) = false →
    ∃ t, exec c s = .next t ∧ t.now = u.now ∧ t.aon.started = s.aon.started.filter (·.1 != n.1) ∧ DomsAre t s.aon.doms ∧
      t.aon.form = formWithout n.1 s.aon.form ∧ t.aon.parts = partsWithout n.1 s.aon.parts ∧ RailsStay (· ≠ n) s t ∧
      (takingDown s n.1 = false →
        getRail t n = { getRail s n with
          st := if (getRail s n).retry.toNat ≤ (getRail s n).tries.toNat then .fault else .cool
          cause := cause, tries := (getRail s n).tries + 1, since := t.now } ∧
        t.aon.faults =
          (if (getRail s n).retry.toNat ≤ (getRail s n).tries.toNat then withBit s.aon.faults n.1 true else s.aon.faults)) ∧
      (takingDown s n.1 = true →
        getRail t n = { getRail s n with st := .off, cause := cause, tries := (getRail s n).tries + 1, since := t.now } ∧
        t.aon.faults = s.aon.faults)) ∧
  (∀ (s : State) (n : Rail), (getRail s n).st = .soft → spent (formWithout n.1 s.aon.form) = false →
    (∃ t, exec (.railSswExpire n) s = .next t ∧ t.now = max s.now ((getRail s n).since + (getRail s n).ssw.toNat * ms)) ∧
    ((getRail s n).csEn = true → ∃ t, exec (.railOvercurrent n) s = .next t ∧ t.now = s.now))

/-- Restart after cooling (from R83, R84, R108) and the drop of a good rail (from R85, R95, R96, R116). -/
def Obligations.RailCoolingAndDrop : Prop :=
  (∀ (s : State) (n : Rail), (getRail s n).st = .cool → ∃ t, exec (.railCoolExpire n) s = .next t ∧
    t.now = max s.now ((getRail s n).since + (getRail s n).cool.toNat * 100 * ms) ∧
    ((getRail t n).st = .wait ∨ (getRail t n).st = .delay) ∧ (getRail t n).tries = (getRail s n).tries ∧
    t.aon.started = s.aon.started ∧ DomsAre t s.aon.doms ∧ t.aon.faults = s.aon.faults ∧ t.aon.form = s.aon.form ∧
    (s.aon.retryIn = [] → s.aon.upItem = none → t.aon.retryIn = [] ∧ t.aon.upItem = none) ∧ RailsStay (· ≠ n) s t) ∧
  (∀ (s : State) (n : Rail) (oc : Bool), (getRail s n).st = .good → (oc = true → (getRail s n).csEn = true) →
    spent (formWithout n.1 s.aon.form) = false →
    ∃ t, exec (.railDrop n oc) s = .next t ∧ t.now = s.now ∧ t.aon.started = s.aon.started.filter (·.1 != n.1) ∧
    DomsAre t s.aon.doms ∧ t.aon.form = formWithout n.1 s.aon.form ∧ t.aon.parts = partsAfter s n.1 s.now ∧
    RailsStay (· ≠ n) s t ∧
    (oc = false ∨ takingDown s n.1 = false →
      getRail t n = { getRail s n with st := .fault, cause := if oc then 6 else 4, since := s.now } ∧
      t.aon.faults = withBit s.aon.faults n.1 true) ∧
    (oc = true → takingDown s n.1 = true →
      getRail t n = { getRail s n with st := .off, cause := 6, since := s.now } ∧ t.aon.faults = s.aon.faults)) ∧
  (∀ (s : State) (n : Rail) (last : Option Nat), (getRail s n).st = .good → s.aon.form = .collapse [n.1] last →
    ∃ t, exec (.railDrop n false) s = .next t ∧ (getRail t n).st = .fault ∧ t.aon.form = .none ∧ t.aon.seqState = .off ∧
      t.aon.offCause = 4 ∧ t.aon.parts = [] ∧ t.aon.vsArmed = false)

/-- Domains: one switch at a time, good within 200 us, late, and PLL loss; the crystal (from R77, R78, R96, R120, R122). -/
def Obligations.DomainSwitchingAndFailure : Prop :=
  (∀ (s : State) (d : Dom), d ≠ 0 → itemReady s (16 + d.1) = true → (∀ e : Dom, e ≠ 0 → e < d → itemReady s (16 + e.1) = false) →
    switching s = false → spent s.aon.form = false → ∃ t, exec .domainSwitchStart s = .next t ∧ t.now = s.now ∧
    DomsAre t (tset s.aon.doms d { getDom s d with st := .switch, since := s.now }) ∧
    t.aon.started = insertStart (16 + d.1, s.now) s.aon.started ∧ t.aon.faults = s.aon.faults ∧ t.aon.form = s.aon.form ∧
    t.aon.parts = s.aon.parts ∧ RailsStay (fun _ => True) s t) ∧
  (∀ s : State, switching s = true → exec .domainSwitchStart s = .next s) ∧
  (∀ (s : State) (d : Dom), (getDom s d).st = .switch → s.now ≤ (getDom s d).since + 200 * us → spent s.aon.form = false →
    ∃ t, exec (.domainGood d) s = .next t ∧ t.now = s.now ∧
    DomsAre t (tset s.aon.doms d { getDom s d with st := .good, since := s.now }) ∧ t.aon.started = s.aon.started ∧
    t.aon.faults = s.aon.faults ∧ t.aon.form = s.aon.form ∧ t.aon.parts = s.aon.parts ∧ RailsStay (fun _ => True) s t) ∧
  (∀ (s : State) (d : Dom), (getDom s d).since + 200 * us < s.now → exec (.domainGood d) s = .next s) ∧
  (∀ (s : State) (d : Dom), (getDom s d).st = .switch → spent (formWithout (16 + d.1) s.aon.form) = false →
    ∃ t, exec (.domainTimeout d) s = .next t ∧ t.now = max s.now ((getDom s d).since + 200 * us) ∧
    DomsAre t (tset s.aon.doms d { getDom s d with st := .fault, since := t.now }) ∧
    t.aon.faults = withBit s.aon.faults (16 + d.1) true ∧ t.aon.started = s.aon.started.filter (·.1 != 16 + d.1) ∧
    t.aon.form = formWithout (16 + d.1) s.aon.form ∧ t.aon.parts = partsAfter s (16 + d.1) t.now ∧
    RailsStay (fun _ => True) s t) ∧
  (∀ (s : State) (p : Pll) (d : Dom), pllDom p = d → (getDom s d).st = .good ∨ (getDom s d).st = .switch →
    spent (formWithout (16 + d.1) s.aon.form) = false → ∃ t, exec (.pllLockLost p) s = .next t ∧ t.now = s.now ∧
    DomsAre t (tset s.aon.doms d { getDom s d with st := .fault, since := s.now }) ∧
    t.aon.faults = withBit s.aon.faults (16 + d.1) true ∧ t.aon.started = s.aon.started.filter (·.1 != 16 + d.1) ∧
    t.aon.form = formWithout (16 + d.1) s.aon.form ∧ t.aon.parts = partsAfter s (16 + d.1) s.now ∧
    RailsStay (fun _ => True) s t) ∧
  (pllDom .et = 3 ∧ pllDom .loop = 7 ∧ pllDom .mem = 2 ∧ pllDom .pcie = 1 ∧ pllDom .usb = 1 ∧ pllDom .skid = 11) ∧
  (∀ s : State, s.aon.por = false → ∃ t, exec .xtalStable s = .next t ∧ t.now = s.now ∧ t.aon.xtalOk = true ∧
    DomsAre t s.aon.doms ∧ t.aon.started = s.aon.started ∧ t.aon.faults = s.aon.faults ∧ t.aon.form = s.aon.form ∧
    t.aon.parts = s.aon.parts ∧ RailsStay (fun _ => True) s t)

/-- How a take-down goes from item to item: the orderly form (from R92), the collapse form (from R93), the take-downs after
failures (from R78, R85, R86), their ends (from R95, R96). `lastOff` makes the rail awaited OFF, as the last clause says. -/
def Obligations.TakedownsGoItemByItem : Prop :=
  (∀ (s : State) (t0 : Nat) (todo : List Nat) (c : BitVec 3), s.aon.form = .orderly (.grace t0) todo c →
    (s.aon.started ≠ [] → ∃ t, exec .graceExpire s = .next t ∧ t.now = max s.now (t0 + s.aon.grace.toNat * 100 * ms) ∧
      t.aon.form = .orderly (.aborts t.now) (s.aon.started.map (·.1)).reverse c ∧ t.aon.waitWorkers = workersLive s ∧
      t.aon.seqState = s.aon.seqState ∧ t.aon.started = s.aon.started ∧ t.aon.rails = s.aon.rails ∧ t.aon.doms = s.aon.doms) ∧
    (s.aon.started = [] → s.cue.pages = [] → workersLive s = 0 → awaited s = none → ∃ t, exec .graceExpire s = .next t ∧
      t.aon.form = .none ∧ t.aon.seqState = .off ∧ t.aon.offCause = c ∧ t.aon.vsArmed = false ∧ t.aon.rails = s.aon.rails ∧
      t.aon.doms = s.aon.doms)) ∧
  (∀ (s : State) (ph : Phase) (todo : List Nat), formPhase s.aon.form = some (ph, todo) → spent s.aon.form = false →
    (∃ t0, ph = .grace t0 ∨ (ph = .aborts t0 ∧ stepFour s = false)) →
    ∃ t, exec .orderlyTakedownStep s = .next t ∧ t.now = s.now ∧ t.aon.form = s.aon.form ∧ t.aon.started = s.aon.started ∧
      DomsAre t s.aon.doms ∧ RailsStay (fun _ => True) (lastOff s) t) ∧
  (∀ (s : State) (ph : Phase) (i : Nat) (rest : List Nat), formPhase s.aon.form = some (ph, i :: rest) →
    (∃ t0, ph = .aborts t0 ∧ stepFour s = true) ∨ ph = .items →
    (∀ n : Rail, i = n.1 → ∃ t, exec .orderlyTakedownStep s = .next t ∧ t.now = s.now ∧
      getRail t n = { getRail (lastOff s) n with st := .down, since := s.now } ∧
      t.aon.form = formWithout i (withPhase .items s.aon.form) ∧ t.aon.started = s.aon.started.filter (·.1 != i) ∧
      t.aon.parts = partsWithout i s.aon.parts ∧ DomsAre t s.aon.doms ∧ RailsStay (· ≠ n) (lastOff s) t) ∧
    (∀ d : Dom, i = 16 + d.1 → d ≠ 0 → spent (formWithout i (withPhase .items s.aon.form)) = false →
      ∃ t, exec .orderlyTakedownStep s = .next t ∧ t.now = s.now ∧
      DomsAre t (tset s.aon.doms d { getDom s d with st := .off, since := s.now }) ∧
      t.aon.form = formWithout i (withPhase .items s.aon.form) ∧ t.aon.started = s.aon.started.filter (·.1 != i) ∧
      t.aon.parts = partsWithout i s.aon.parts ∧ RailsStay (fun _ => True) (lastOff s) t)) ∧
  (∀ (s : State) (c : BitVec 3), s.aon.form = .orderly .items [] c → awaited (lastOff s) = none →
    ∃ t, exec .orderlyTakedownStep s = .next t ∧ t.aon.form = .none ∧ t.aon.seqState = .off ∧ t.aon.offCause = c ∧
      t.aon.vsArmed = false ∧ DomsAre t s.aon.doms ∧ t.aon.started = s.aon.started) ∧
  (∀ (s : State) (n : Rail) (i : Nat) (rest : List Nat), awaited s = some n → formPhase s.aon.form = some (.items, i :: rest) →
    i < 16 ∨ spent (formWithout i s.aon.form) = false → ∃ t, exec .offWindowExpire s = .next t ∧
      t.now = max s.now ((getRail s n).since + (getRail s n).offw.toNat * ms) ∧ (getRail t n).offSlow = true ∧
      t.aon.form = formWithout i s.aon.form ∧ t.aon.started = s.aon.started.filter (·.1 != i)) ∧
  (∀ (s : State) (i : Nat) (rest : List Nat) (last : Option Nat), s.aon.form = .collapse (i :: rest) last →
    ∃ t, exec .collapseStep s = .next t ∧
      t.now = (match last with | none => s.now | some a => max s.now (a + 50 * us)) ∧
      t.aon.form = (if without i rest = [] then .none else .collapse (without i rest) (some t.now)) ∧
      (without i rest = [] → t.aon.seqState = .off ∧ t.aon.offCause = 4 ∧ t.aon.vsArmed = false) ∧
      t.aon.started = s.aon.started.filter (·.1 != i) ∧
      (∀ n : Rail, i = n.1 → getRail t n = { getRail s n with st := .off, since := t.now }) ∧
      (∀ d : Dom, i = 16 + d.1 → d ≠ 0 → DomsAre t (tset s.aon.doms d { getDom s d with st := .off, since := t.now }))) ∧
  (∀ (s : State) (p : PartDown) (i : Nat) (rest : List Nat), nextPart s.aon.parts = some p → p.todo = i :: rest →
    (∀ (l : List Nat) (a : Option Nat), s.aon.form ≠ .collapse l a) → spent (formWithout i s.aon.form) = false →
    ∃ t, exec .collapseStep s = .next t ∧ t.now = max s.now (p.last + 50 * us) ∧
      t.aon.form = formWithout i s.aon.form ∧
      t.aon.parts = partsWithout i (s.aon.parts.map fun q => if q = p then { q with last := t.now } else q) ∧
      t.aon.started = s.aon.started.filter (·.1 != i) ∧
      (isWanted s i = false →
        (∀ n : Rail, i = n.1 → getRail t n = { getRail s n with st := .off, since := t.now }) ∧
        (∀ d : Dom, i = 16 + d.1 → d ≠ 0 → DomsAre t (tset s.aon.doms d { getDom s d with st := .off, since := t.now }))) ∧
      (isWanted s i = true → (∀ n : Rail, i = n.1 → (getRail t n).st = .wait ∨ (getRail t n).st = .delay) ∧
        (∀ d : Dom, i = 16 + d.1 → d ≠ 0 → DomsAre t (tset s.aon.doms d { getDom s d with st := .wait, since := t.now })))) ∧
  (∀ s : State, (awaited s = none → lastOff s = s) ∧ (∀ n : Rail, awaited s = some n → (getRail s n).st = .down ∧
    lastOff s = modRail n (fun x => { x with st := .off, since := s.now }) s))

/-- The sequencer commands (from R92, R96, R108, R109, R111, R112). -/
def Obligations.SequencerCommands : Prop :=
  (∀ (s : State) (p : Port), reach s p 0 = true → cmdBusy s = false →
    (s.aon.seqState = .onA → inRecovery s = false → thermLive s = false → collapseHolds s = false →
      ∃ t, exec (.enginesUp p) s = .next t ∧ (t.aon.seqState = .risingB ∨ t.aon.seqState = .onB) ∧ t.aon.form = s.aon.form ∧ t.aon.started = s.aon.started ∧
      (∀ n : Rail, (getRail s n).en = true → (getRail s n).stage = true → s.aon.faults.getLsbD n.1 = false →
        (getRail s n).st = .off → (getRail t n).st = .wait ∨ (getRail t n).st = .delay) ∧
      (∀ d : Dom, d ≠ 0 → (getDom s d).en = true → (getDom s d).stage = true → s.aon.faults.getLsbD (16 + d.1) = false →
        (getDom s d).st = .off → (getDom t d).st = .wait)) ∧
    (s.aon.seqState = .onA → inRecovery s = false → thermLive s = false → collapseHolds s = true → s.aon.started ≠ [] →
      ∃ t, exec (.enginesUp p) s = .next t ∧ t.aon.seqState = .collapse ∧
        t.aon.form = .collapse (s.aon.started.map (·.1)).reverse none ∧ t.aon.started = s.aon.started) ∧
    (s.aon.seqState = .onB → stageBDown s ≠ [] → ∃ t, exec (.enginesDown p) s = .next t ∧ t.aon.seqState = .fallingB ∧
      t.aon.form = .enginesDown (.aborts s.now) (stageBDown s) ∧ t.aon.waitWorkers = workersLive s ∧
      t.aon.started = s.aon.started) ∧
    (s.aon.seqState = .onA ∨ s.aon.seqState = .onB → s.aon.started ≠ [] → ∃ t, exec (.seqOff p) s = .next t ∧
      t.aon.seqState = .falling ∧ t.aon.form = .orderly (.aborts s.now) (s.aon.started.map (·.1)).reverse 3 ∧
      t.aon.waitWorkers = workersLive s ∧ t.aon.started = s.aon.started) ∧
    (s.aon.seqState = .onB ∨ s.aon.seqState = .risingB → ∃ t, exec (.retry p) s = .next t ∧
      (∀ n : Rail, (getRail s n).en = true → (getRail s n).st = .off → itemStarted s n.1 = false →
        s.aon.faults.getLsbD n.1 = false → (getRail t n).st = .wait ∨ (getRail t n).st = .delay) ∧
      t.aon.form = s.aon.form ∧ t.aon.started = s.aon.started) ∧
    (s.aon.seqState = .onA ∨ s.aon.seqState = .risingA → ∃ t, exec (.retry p) s = .next t ∧
      (∀ n : Rail, (getRail s n).en = true → (getRail s n).stage = false → (getRail s n).st = .off →
        itemStarted s n.1 = false → s.aon.faults.getLsbD n.1 = false →
        (getRail t n).st = .wait ∨ (getRail t n).st = .delay) ∧
      t.aon.form = s.aon.form ∧ t.aon.started = s.aon.started) ∧
    (s.aon.seqState = .onA ∨ s.aon.seqState = .onB → inRecovery s = false → ∀ i : BitVec 5, itemEn s i.toNat = true →
      itemStarted s i.toNat = false →
      (itemFault s i.toNat = false → ∃ t, exec (.itemUp p i) s = .next t ∧
        (∀ n : Rail, i.toNat = n.1 → (getRail s n).st = .off → (getRail t n).st = .wait ∨ (getRail t n).st = .delay) ∧
        (∀ d : Dom, d ≠ 0 → i.toNat = 16 + d.1 → (getDom s d).st = .off → (getDom t d).st = .wait) ∧
        t.aon.form = s.aon.form ∧ t.aon.started = s.aon.started) ∧
      (itemFault s i.toNat = true → ∃ t, exec (.itemUp p i) s = .next t ∧ t.aon.stall = true ∧ t.aon.rails = s.aon.rails ∧
        t.aon.doms = s.aon.doms ∧ t.aon.form = s.aon.form ∧ t.aon.started = s.aon.started)) ∧
    (s.aon.seqState = .onA ∨ s.aon.seqState = .onB → ∀ i : BitVec 5, itemDownList s i.toNat ≠ [] →
      ∃ t, exec (.itemDown p i) s = .next t ∧ t.aon.form = .itemDown .items (itemDownList s i.toNat) ∧
        t.aon.seqState = s.aon.seqState ∧ t.aon.started = s.aon.started)) ∧
  (∀ (s : State) (p : Port) (t0 : Nat) (todo : List Nat) (c : BitVec 3), reach s p 0 = true → s.aon.seqState = .falling →
    s.aon.form = .orderly (.grace t0) todo c → s.aon.started ≠ [] → ∃ t, exec (.offAck p) s = .next t ∧
      t.aon.form = .orderly (.aborts s.now) (s.aon.started.map (·.1)).reverse c ∧ t.aon.seqState = .falling ∧
      t.aon.started = s.aon.started) ∧
  (∀ (s : State) (p : Port) (i : BitVec 5), reach s p 0 = true → cmdBusy s = true ∨ s.aon.seqState = .off →
    ∀ c : Instr, c = .enginesUp p ∨ c = .enginesDown p ∨ c = .seqOff p ∨ c = .retry p ∨ c = .itemUp p i ∨ c = .itemDown p i →
    exec c s = .next { s with aon := { s.aon with cmdErr := 1 } }) ∧
  (∀ (s : State) (p : Port), reach s p 0 = true → s.aon.seqState ≠ .falling →
    exec (.offAck p) s = .next { s with aon := { s.aon with cmdErr := 1 } }) ∧
  (∀ (s : State) (p : Port) (k : BitVec 4), reach s p 0 = true → k = 6 ∨ 9 ≤ k.toNat →
    exec (.seqBadCmd p k) s = .next { s with aon := { s.aon with cmdErr := 2 } }) ∧
  (∀ (s : State) (i j : Nat), j ∈ itemDownList s i ↔
    (itemStarted s j = true ∧ j ≠ i ∧ dependsOn s j i = true) ∨ (j = i ∧ itemStarted s i = true)) ∧
  (∀ (s : State) (j : Nat), j ∈ stageBDown s ↔ itemStarted s j = true ∧
    (itemB s j = true ∨ ∃ k, itemStarted s k = true ∧ itemB s k = true ∧ dependsOn s j k = true))

/-- The power button (from R92, R94, R97 to R99, R164). -/
def Obligations.PowerButtonPresses : Prop :=
  (∀ s : State, s.aon.por = false → s.aon.press = none → ∃ t, exec .btnPress s = .next t ∧ t.now = s.now + 20 * ms ∧
    t.aon = { s.aon with btnLow := true, press := some { start := s.now, atState := s.aon.seqState, long := false, cut := false,
                                                         covers := 0 } } ∧ ChangesOnly [.now, .aon, .cue] s t) ∧
  (∀ (s : State) (p : Press), s.aon.press = some p →
    (p.long = false → p.cut = false → s.aon.seqState = .onA ∨ s.aon.seqState = .onB →
      exec .coverClose s = .next { s with aon := { s.aon with press := some { p with covers := p.covers + 1 } } }) ∧
    (p.long = true ∨ p.cut = true →
      exec .btnRelease s = .next { s with aon := { s.aon with press := none, btnLow := false } }) ∧
    (p.long = false → p.cut = false → 2 ≤ p.covers → s.aon.sheet = .idle →
      exec .btnRelease s = .next { s with aon := { s.aon with press := none, btnLow := false, sheet := .chord s.now } }) ∧
    (p.long = false → p.cut = false → p.covers < 2 → p.atState = .off → s.now < p.start + sec → mayRaise s = true → collapseHolds s = false →
      ∃ t, exec .btnRelease s = .next t ∧ t.aon.press = none ∧
        (t.aon.seqState = .risingA ∨ t.aon.seqState = .onA) ∧ t.aon.form = s.aon.form ∧ t.aon.started = s.aon.started ∧
        (∀ n : Rail, (getRail s n).en = true → (getRail s n).stage = false → s.aon.faults.getLsbD n.1 = false →
          (getRail s n).st = .off → (getRail t n).st = .wait ∨ (getRail t n).st = .delay)) ∧
    (p.long = false → p.cut = false → p.covers < 2 → runningState p.atState = true → s.now - p.start < longTicks s →
      exec .btnRelease s = .next (aonEvent (if s.now - p.start < sec then 0x0101 else 0x0102)
        (BitVec.ofNat 32 (min 255 ((s.now - p.start) / (100 * ms)))) (BitVec.ofNat 32 (pwrCode p.atState))
        { s with aon := { s.aon with press := none, btnLow := false } })) ∧
    (p.long = false → ∃ t, exec .btnLong s = .next t ∧ t.now = max s.now (p.start + longTicks s) ∧
      t.aon.press = some { p with long := true, covers := 0 } ∧
      (runningState p.atState = true → runningState s.aon.seqState = true → s.aon.grace ≠ 0 →
        t.aon.seqState = .falling ∧ t.aon.form = .orderly (.grace t.now) [] 1 ∧ t.aon.started = s.aon.started) ∧
      (runningState p.atState = false ∨ runningState s.aon.seqState = false →
        t.aon = { s.aon with press := some { p with long := true, covers := 0 } } ∧ ChangesOnly [.now, .aon, .cue] s t)) ∧
    (p.cut = false → ∃ t, exec .btnCut s = .next t ∧ t.now = max s.now (p.start + cutTicks s) ∧
      t.aon.press = some { p with cut := true, covers := 0 } ∧
      (runningState p.atState = true ∨ p.atState = .falling →
        t.aon.seqState = .off ∧ t.aon.offCause = 2 ∧ t.aon.form = .none ∧ (∀ i ∈ allItems, itemStarted t i = false) ∧
        (∀ d : Dom, d ≠ 0 → s.aon.faults.getLsbD (16 + d.1) = false → (getDom t d).st = .off) ∧
        (∀ n : Rail, s.aon.faults.getLsbD n.1 = false → (getRail t n).st = .off))))

/-- MRST_n (from R8, R12, R64, R101), the fall of PFW_n (from R615) and input collapse (from R102, R104, R105, R107).
Whether a record was in writing as PFW_n fell, and how far, is the model's free value (log 31). -/
def Obligations.MasterResetAndInputCollapse : Prop :=
  (∀ s : State, s.aon.por = false → s.aon.mrst = false → ∃ t, exec .mrstAssert s = .next t ∧ t.aon.mrst = true ∧
    t.lock = false ∧ t.flSel = 0 ∧ (∀ d : Dom, d ≠ 0 → domUp t d = false) ∧ safeDrive t = true ∧
    t.aon.seqState = s.aon.seqState ∧ t.aon.rails = s.aon.rails ∧ DomsAre t s.aon.doms ∧
    ChangesOnly [.aon, .nv, .lg, .boot, .lock, .flSel, .fl, .host, .cue, .mem, .rast, .beam, .motn, .loops, .head, .scan,
      .skid, .out] s t) ∧
  (∀ s : State, s.aon.por = false → s.aon.mrst = true → ∃ t, exec .mrstRelease s = .next t ∧ t.aon.mrst = false ∧
    t.aon.hold = true ∧ t.aon.cRst = true ∧ t.aon.resetExit = s.now ∧ t.aon.seqState = s.aon.seqState ∧
    t.aon.rails = s.aon.rails ∧ DomsAre t s.aon.doms ∧ t.aon.cSw = s.aon.cSw ∧ t.aon.cTherm = s.aon.cTherm) ∧
  (∀ s : State, s.aon.por = false → ∃ t, exec .pfwNFall s = .next t ∧ t.aon = { s.aon with pfwLow := true, pfwAt := s.now } ∧
    t.lg = { s.lg with queue := s.lg.queue.filter fun e => !abandonMode s e.stream } ∧
    (∀ k : Fin 4, (tget t.nv.streams k).nextSeq = (tget s.nv.streams k).nextSeq ∧
      (tget t.nv.streams k).next = (tget s.nv.streams k).next ∧
      (∀ i : Nat, i ≠ (tget s.nv.streams k).next →
        slotAt (tget t.nv.streams k) i = slotAt (tget s.nv.streams k) i) ∧
      (slotAt (tget t.nv.streams k) (tget s.nv.streams k).next = slotAt (tget s.nv.streams k) (tget s.nv.streams k).next ∨
        ∃ x, slotAt (tget t.nv.streams k) (tget s.nv.streams k).next = some x ∧ x.seq = 0xFFFFFFFF)) ∧
    (∀ k : Fin 4, abandonMode s k = false ∨ s.lg.queue.all (fun e => e.stream != k) = true →
      tget t.nv.streams k = tget s.nv.streams k) ∧
    (∀ (k : Fin 4) (e : LogEntry), s.lg.queue = [e] → e.stream = k → abandonMode s k = true →
      (tget t.nv.streams k).lost = satInc (tget s.nv.streams k).lost) ∧ ChangesOnly [.aon, .nv, .lg, .fl, .freeCount] s t) ∧
  (∀ s : State, s.aon.por = false → s.aon.pfwLow = true →
    ∃ t, exec .pfwCollapse s = .next t ∧ t.now = max s.now (s.aon.pfwAt + us) ∧ t.boot.op = none ∧
      t.aon.started = s.aon.started ∧ DomsAre t s.aon.doms ∧
      (s.aon.seqState = .off ∨ s.aon.seqState = .collapse →
        t.aon.seqState = s.aon.seqState ∧ t.aon.form = s.aon.form ∧ t.aon.rails = s.aon.rails) ∧
      (s.aon.seqState ≠ .off → s.aon.seqState ≠ .collapse →
        (s.aon.started ≠ [] → t.aon.seqState = .collapse ∧ t.aon.form = .collapse (s.aon.started.map (·.1)).reverse none ∧
          t.aon.parts = [] ∧ t.aon.retryIn = [] ∧ t.aon.upItem = none) ∧
        (s.aon.started = [] → t.aon.seqState = .off ∧ t.aon.offCause = 4 ∧ t.aon.form = .none))) ∧
  (∀ s : State, s.aon.por = false → s.aon.vsEn = true → s.aon.vsArmed = true →
    ∃ t, exec .vsenseCollapse s = .next t ∧ t.now = s.now ∧ t.boot.op = none ∧ t.aon.vsBelow = true ∧ t.aon.vsLowAt = s.now ∧
      t.aon.started = s.aon.started ∧ DomsAre t s.aon.doms ∧
      (s.aon.seqState = .off ∨ s.aon.seqState = .collapse →
        t.aon.seqState = s.aon.seqState ∧ t.aon.form = s.aon.form ∧ t.aon.rails = s.aon.rails) ∧
      (s.aon.seqState ≠ .off → s.aon.seqState ≠ .collapse →
        (s.aon.started ≠ [] → t.aon.seqState = .collapse ∧ t.aon.form = .collapse (s.aon.started.map (·.1)).reverse none ∧
          t.aon.parts = [] ∧ t.aon.retryIn = [] ∧ t.aon.upItem = none) ∧
        (s.aon.started = [] → t.aon.seqState = .off ∧ t.aon.offCause = 4 ∧ t.aon.form = .none))) ∧
  (∀ s : State, s.aon.por = false → ∃ t, exec .vsenseArm s = .next t ∧
    t.now = max s.now (max s.aon.disarmAt s.aon.vsLowAt + 100 * ms) ∧
    t.aon = { s.aon with vsArmed := true, vsBelow := false } ∧ ChangesOnly [.now, .aon, .cue] s t) ∧
  (∀ s : State, s.aon.por = false →
    let back : Aon := { s.aon with awaitRecovery := false, pfwLow := false, vsBelow := s.aon.vsBelow && !s.aon.vsEn }
    (s.aon.awaitRecovery = true → s.aon.seqState ≠ .off → exec .collapseRecovery s = .next s) ∧
    (s.aon.awaitRecovery = false → ∃ t, exec .collapseRecovery s = .next t ∧ t.now = max s.now (goodFrom s + 100 * ms) ∧
      t.aon = back ∧ ChangesOnly [.now, .aon, .cue] s t) ∧
    (s.aon.awaitRecovery = true → s.aon.seqState = .off → s.aon.autoOn = false ∨ thermLive s = true →
      ∃ t, exec .collapseRecovery s = .next t ∧ t.now = max s.now (goodFrom s + 100 * ms) ∧ t.aon = back ∧
        ChangesOnly [.now, .aon, .cue] s t) ∧
    (s.aon.awaitRecovery = true → s.aon.seqState = .off → s.aon.autoOn = true → thermLive s = false →
      ∃ t, exec .collapseRecovery s = .next t ∧ t.now = max s.now (goodFrom s + 100 * ms) ∧ t.aon.awaitRecovery = false ∧
        (t.aon.seqState = .risingA ∨ t.aon.seqState = .onA) ∧ t.aon.form = s.aon.form))

/-- Safe Hold: its entries and its release (from R51, R59, R60, R62, R65, R66, R68, R70, R71, R595 to R601). -/
def Obligations.SafeHoldEntryAndRelease : Prop :=
  (∀ s : State, s.aon.safeHigh = true →
    exec .safeNFall s = .next { s with aon := { s.aon with safeHigh := false, safeLowAt := some s.now, safeSeen := false } }) ∧
  (∀ (s : State) (a : Nat), s.aon.por = false → s.aon.safeHigh = false → s.aon.safeSeen = false → s.aon.safeLowAt = some a →
    a + 200 ≤ s.now → ∃ t, exec .safeNRise s = .next t ∧ t.now = s.now ∧ t.aon.hold = true ∧ t.aon.safeHigh = true ∧
      t.aon.safeRiseAt = s.now ∧ (∀ p : Supplies, outputsOff p t = true)) ∧
  (∀ s : State, s.aon.safeHigh = false → s.aon.safeSeen = true ∨ (∀ a : Nat, s.aon.safeLowAt = some a → s.now < a + 200) →
    exec .safeNRise s = .next { s with aon := { s.aon with
      safeHigh := true, safeLowAt := none, safeSeen := false
      safeRiseAt := if s.aon.safeSeen = true then s.now else s.aon.safeRiseAt } }) ∧
  (∀ (s : State) (a : Nat), s.aon.safeHigh = false → s.aon.safeLowAt = some a → s.aon.por = false →
    ∃ t, exec .safeNRecognised s = .next t ∧ t.aon.hold = true ∧ t.aon.safeSeen = true ∧ a + 200 ≤ t.now ∧
      (∀ p : Supplies, outputsOff p t = true)) ∧
  (∀ (s : State) (p : Port), reach s p 0 = true →
    (∃ t, exec (.safeAssert p true) s = .next t ∧ t.aon.assert_ = true ∧ t.aon.cSw = true ∧ t.aon.hold = true ∧ t.now = s.now ∧
      (∀ p : Supplies, outputsOff p t = true ∧ (p.vaon = true → pinSafe p t = .low))) ∧
    (∃ t, exec (.safeAssert p false) s = .next t ∧
      t.aon = { s.aon with assert_ := false, driveEnd := t.aon.driveEnd } ∧ ChangesOnly [.aon] s t)) ∧
  (∀ (s : State) (p : Port), reach s p 0 = true →
    (liveCause s = false → s.aon.assert_ = false → safeDrive s = false → lowPresent s = false → inRecovery s = false →
      chainHolds s = false → sheetRuns s = false → s.aon.safeRiseAt + ms ≤ s.now → s.aon.driveEnd + ms ≤ s.now → s.aon.resetExit + ms ≤ s.now →
      exec (.safeRelease p) s = .next { s with aon := { s.aon with
        hold := false, cBeat := false, cPart := false, cTherm := false, cSw := false, cExt := false, cRst := false } }) ∧
    (liveCause s = true ∨ s.aon.assert_ = true ∨ safeDrive s = true ∨ lowPresent s = true ∨ inRecovery s = true ∨
      chainHolds s = true ∨ sheetRuns s = true ∨ s.now < s.aon.safeRiseAt + ms ∨ s.now < s.aon.driveEnd + ms ∨ s.now < s.aon.resetExit + ms →
      exec (.safeRelease p) s = .next { s with aon := { s.aon with relFail := true } })) ∧
  (∀ (s : State) (k : Fin 8), domUp s 3 = true → s.cue.coreStopped.getLsbD k.1 = true → s.aon.liveBeat = false →
    ∃ t, exec (.heartbeatLost k) s = .next t ∧ t.now = max s.now (s.cue.stopAt + 2 * us + 1) ∧ t.aon.hold = true ∧ t.aon.cBeat = true ∧
      (∀ p : Supplies, outputsOff p t = true)) ∧
  (∀ (s : State) (die : Vector (BitVec 16) 9) (th : Vector (BitVec 12) 8), s.aon.por = false →
    ∃ t, exec (.thermalConversion die th) s = .next t ∧ t.now = s.aon.porAt + ((s.now - s.aon.porAt) / ms + 1) * ms ∧
      (∀ n : Fin 9, tget t.therm.sensors n =
        convSensor (if n.1 < 6 then domUp s 3 else true) (tget die n) (tget s.therm.sensors n)) ∧
      (∀ (i : Nat) (td : BitVec 16), hottest t = some (i, td) → t.therm.td = td ∧
        (s.therm.isShut = false → s.therm.cause ≠ 2 → shutQ s ≤ td.toInt → t.therm.isShut = true ∧ t.aon.hold = true ∧
          t.aon.cTherm = true)))

/-- AON power-on reset and its release (from R48, R59, R64, R89, R91, R194, R614, R616, R670); TEST_EN at 1 (from R50) is a fault. Whether
a log record was in writing as the supply failed, and how far, is the model's free value (log 31). -/
def Obligations.PowerOnResetAndRelease : Prop :=
  (∀ s : State, ∃ t, exec .aonPorAssert s = .next t ∧ t.aon.por = true ∧ t.boot = { Boot.reset with otp := t.boot.otp } ∧
    (s.boot.rbRun = none → t.boot.otp = s.boot.otp) ∧
    (∀ n t0 : Nat, s.boot.rbRun = some (n, t0) → t0 ≤ s.now → ∃ k, t.boot.otp = otpRaised k s.boot.otp ∧
      (k = n ∨ (rbOf s.boot.otp ≤ k ∧ k ≤ n))) ∧
    t.nv = { s.nv with queue := [], streams := t.nv.streams } ∧
    (s.lg.queue = [] ∨ (nvPick s).isSome = true → t.nv.streams = s.nv.streams) ∧
    (∀ k : Fin 4, (tget t.nv.streams k).lost = (tget s.nv.streams k).lost ∧
      (∀ i : Nat, i ≠ (tget s.nv.streams k).next →
        slotAt (tget t.nv.streams k) i = slotAt (tget s.nv.streams k) i) ∧
      (slotAt (tget t.nv.streams k) (tget s.nv.streams k).next = slotAt (tget s.nv.streams k) (tget s.nv.streams k).next ∨
        ∃ x, slotAt (tget t.nv.streams k) (tget s.nv.streams k).next = some x ∧
          (abandonMode s k = true → x.seq = 0xFFFFFFFF) ∧
          (abandonMode s k = false → x.seq = (tget s.nv.streams k).nextSeq ∧
            ∀ y, slotAt (tget s.nv.streams k) (tget s.nv.streams k).next = some y →
              x.rest.drop 24 = y.rest.drop 24))) ∧
    t.lock = false ∧ t.epoch = 0 ∧ t.cue = Cue.reset ∧ t.mem = MemS.reset ∧
    t.rast = Rast.reset ∧ t.beam = BeamE.reset ∧ t.motn = Motn.reset ∧ t.loops = LoopE.reset ∧ t.head = HeadE.reset ∧
    t.scan = ScanE.reset ∧ t.skid = Skid.reset ∧ t.lg = LogS.reset ∧ t.therm = Thermal.reset ∧ t.fl = flumesReset ∧
    t.host = { HostS.reset with perst := s.host.perst, linkUp := s.host.linkUp } ∧
    t.aon = { Aon.reset with safeHigh := s.aon.safeHigh, pfwLow := s.aon.pfwLow, pfwAt := s.aon.pfwAt, mrst := s.aon.mrst } ∧ t.now = s.now ∧ t.out = s.out ∧
    t.pending = s.pending) ∧
  (∀ (s : State) (ord : BitVec 3) (role recovN kpMode kpAddr : Bool), s.aon.por = true →
    (∃ t, exec (.aonPorRelease ord role recovN kpMode kpAddr false) s = .next t ∧ t.aon.por = false ∧ t.aon.porAt = s.now ∧
      t.now = s.now ∧ t.aon.hold = true ∧ t.aon.cRst = true ∧ t.aon.resetExit = s.now ∧
      bitsN t.aon.strap 2 0 = ord.toNat ∧ bitB t.aon.strap 3 = role ∧ bitB t.aon.strap 4 = !recovN ∧
      bitB t.aon.strap 5 = kpMode ∧ bitB t.aon.strap 6 = kpAddr ∧
      (∀ n : Rail, getRail t n = { ordRail ord.toNat n with st := (getRail t n).st, since := (getRail t n).since }) ∧
      (∀ d : Dom, getDom t d = { ordDom ord.toNat d with
        st := (getDom t d).st, since := (getDom t d).since, upAt := (getDom t d).upAt, downAt := (getDom t d).downAt }) ∧
      (s.aon.safeHigh = false → t.aon.safeLowAt = some s.now) ∧ t.aon.mrst = s.aon.mrst ∧
      t.aon.autoOn = s.nv.autoOn ∧ t.aon.usage = s.nv.usage ∧ t.aon.pages = s.nv.pages ∧
      (s.nv.autoOn = false → s.aon.seqState = .off → t.aon.seqState = .off) ∧
      (s.nv.autoOn = true → mayRaise s = true → collapseHolds s = false →
        t.aon.seqState = .risingA ∨ t.aon.seqState = .onA)) ∧
    exec (.aonPorRelease ord role recovN kpMode kpAddr true) s = .fault .productionTest) ∧
  (∀ (s : State) (ord : BitVec 3) (role recovN kpMode kpAddr testEn : Bool), s.aon.por = false →
    exec (.aonPorRelease ord role recovN kpMode kpAddr testEn) s = .next s)

/-- The Keeper's image checks and slots (from R181 to R183), LDIE_DONE (from R162, R639). -/
def Obligations.KeeperSlotsAndBootChecks : Prop :=
  (∀ (s : State) (k : Fin 2), s.boot.checking = some k → s.aon.por = false → ∃ t, exec .keeperCheckDone s = .next t ∧
    ChangesOnly [.boot, .nv] s t ∧
    (fullCheck s (tget s.nv.image k) = 0 →
      t.boot = { s.boot with mode := 1, recause := 0, checking := none, keeper := some (loadedOf (tget s.nv.image k)), wdFrom := some s.now } ∧
      slotNow t k = (if slotNow s k = 2 then 3 else if slotNow s k = 1 then 4 else slotNow s k) ∧
      slotNow t (k + 1) = slotNow s (k + 1)) ∧
    (fullCheck s (tget s.nv.image k) ≠ 0 → slotNow t k = 0 ∧ slotNow t (k + 1) = slotNow s (k + 1) ∧
      (slotNow s (k + 1) = 1 ∨ slotNow s (k + 1) = 4 → t.boot = { s.boot with checking := some (k + 1) }) ∧
      (¬ (slotNow s (k + 1) = 1 ∨ slotNow s (k + 1) = 4) →
        t.boot = { s.boot with mode := 2, recause := 3, checking := none, keeper := none, wdFrom := none }))) ∧
  (∀ (s : State) (p : Port), reach s p 0 = true → ∃ t, exec (.bootOk p) s = .next t ∧ ChangesOnly [.boot, .nv] s t ∧
    t.boot = { s.boot with wdFrom := none } ∧ failsNow t = 0 ∧
    (slotIn s 3 = none → slotNow t 0 = slotNow s 0 ∧ slotNow t 1 = slotNow s 1) ∧
    (∀ k : Fin 2, slotIn s 3 = some k → slotNow t k = 4 ∧
      slotNow t (k + 1) = if slotNow s (k + 1) = 4 then 1 else slotNow s (k + 1))) ∧
  (∀ (s : State) (p : Port), reach s p 0 = true → domUp s 3 = true → chainHolds s = false → s.boot.ldieDone = false →
    (∃ t, exec (.ldieDone p) s = .next t ∧ t.boot = { s.boot with ldieDone := true }) ∧
    (isManager s = false ∨ s.boot.scheme = true ∨ s.skid.live = 0 →
      exec (.ldieDone p) s = .next { s with boot := { s.boot with ldieDone := true } }))

/-- Boot restarts (from R156 to R159, R161, R181, R184). -/
def Obligations.BootRestartTakesRomStepThree : Prop :=
  (∀ (s : State) (p : Port), reach s p 0 = true → s.boot.op = none → ∃ t, exec (.bootRestart p) s = .next t ∧ t.now = s.now ∧
    DomsAre t s.aon.doms ∧ t.aon.started = s.aon.started ∧ t.aon.faults = s.aon.faults ∧ t.lock = s.lock ∧
    t.epoch = s.epoch ∧ t.boot.otp = s.boot.otp ∧ (s.aon.hold = true → t.aon.hold = true) ∧
    t.aon.rails = s.aon.rails ∧
    (bitB s.aon.strap 4 = true → t.boot.mode = 2 ∧ t.boot.recause = 1) ∧
    (bitB s.aon.strap 4 = false → failsNow s = 3 → t.boot.mode = 2 ∧ t.boot.recause = 2) ∧
    (bitB s.aon.strap 4 = false → failsNow s ≠ 3 → slotNow s 0 = 0 → slotNow s 1 = 0 →
      t.boot.mode = 0 ∧ t.boot.checking = none) ∧
    (∀ k : Fin 2, bitB s.aon.strap 4 = false → failsNow s ≠ 3 → slotIn s 2 = some k →
      t.boot.mode = 0 ∧ t.boot.checking = some k ∧ failsNow t = failsNow s + 1)) ∧
  (∀ (s : State) (w : Nat), s.boot.wdFrom = some w → s.aon.por = false → ∃ t u,
    exec .bootTimeout s = .next t ∧ exec (.bootRestart .keeper) u = .next t ∧
    t.now = max s.now (w + max 1 s.boot.bootWd.toNat * sec) ∧ t.boot.op = none ∧ (bitB s.aon.strap 4 = true → t.boot.mode = 2) ∧
    u = logPost 0x010B (BitVec.ofNat 32 (if s.nv.actSlot then 1 else 0)) ((failsNow s).setWidth 32) (timeTo (w + max 1 s.boot.bootWd.toNat * sec) s))

/-- OTP programming (from R195, R196) and the rollback count (from R193, R194), whose advance reads whole at once (log 59). -/
def Obligations.OtpProgrammingAndRollback : Prop :=
  (∀ (s : State) (p : Port), reach s p 0 = true →
    (otpMask s.boot.otpAddr.toNat ≠ 0 → s.lock = false → inRecovery s = false → ∃ t, exec (.otpProg p) s = .next t ∧
      t.boot = { s.boot with otp := t.boot.otp, otpRefused := false } ∧ ChangesOnly [.boot] s t ∧
      ∀ i : Fin 32, tget t.boot.otp i =
        if i.1 = s.boot.otpAddr.toNat then tget s.boot.otp i ||| (s.boot.otpData &&& otpMask i.1) else tget s.boot.otp i) ∧
    (otpMask s.boot.otpAddr.toNat = 0 ∨ s.lock = true ∨ inRecovery s = true →
      exec (.otpProg p) s = .next { s with boot := { s.boot with otpRefused := true } }) ∧
    ((slotIn s 3).isSome = true → exec (.rbAdvance p) s = .next { s with boot := { s.boot with rbErr := true } }) ∧
    (∀ n : Nat, slotIn s 3 = none → (activeRbs s).min? = some n → rbCount s < n → ∃ t, exec (.rbAdvance p) s = .next t ∧
      t.boot = { s.boot with otp := otpNow s.boot, rbRun := some (min n 64, s.now) } ∧ ChangesOnly [.boot] s t ∧
      (∀ i : Fin 32, i.1 ≠ 24 → i.1 ≠ 25 → otpWord t i.1 = otpWord s i.1) ∧
      (∀ j : Nat, j < 32 → (otpWord t 24).getLsbD j = ((otpWord s 24).getLsbD j || decide (j < min n 64)) ∧
        (otpWord t 25).getLsbD j = ((otpWord s 25).getLsbD j || decide (32 + j < min n 64)))) ∧
    (∀ n : Nat, slotIn s 3 = none → (activeRbs s).min? = some n → n ≤ rbCount s → exec (.rbAdvance p) s = .next s) ∧
    (slotIn s 3 = none → activeRbs s = [] → exec (.rbAdvance p) s = .next s)) ∧
  (∀ w : Nat, 12 ≤ w → w < 20 → otpMask w = 0xFFFFFFFF) ∧ otpMask 20 = 0xFFFF ∧ otpMask 21 = 0xFFFFFFFF ∧
  otpMask 22 = 0xFFFFFFFF ∧ otpMask 23 = 1 ∧ (∀ w : Nat, w < 12 ∨ 23 < w → otpMask w = 0)

/-- Image operations of BOOT_LOAD_CTL (from R176, R177, R179, R183, R186, R187, R189, R190, R687); the status an abort leaves is
the model's opaque Config.abandonErr (log 4), and that a worker's operation begins with the header it is sent is the model's
choice (log 47). -/
def Obligations.ImageOperations : Prop :=
  (∀ (s : State) (p : Port) (v : Word), reach s p 0 = true →
    (s.boot.op = none → loadPath s = true → bitsN v 10 8 = 0 → ∃ t, exec (.imageLoadGo p v) s = .next t ∧
      ChangesOnly [.boot] s t ∧ t.boot = { s.boot with
        dev := 0, ldMode := v.getLsbD 1, ldErr := 0, ldBlk := 0
        op := some { jrp := false, dev := 0, part := 0, nextBoot := v.getLsbD 1, slot := 0, got := [], err := 0, blk := 0 } }) ∧
    (s.boot.op.isSome = true → ∃ t, exec (.imageLoadGo p v) s = .next t ∧
      t.boot = { s.boot with dev := BitVec.ofNat 3 (bitsN v 10 8), ldMode := v.getLsbD 1, ldErr := 6, ldBlk := 0, ldDone := true }) ∧
    (s.boot.op = none → loadPath s = false → ∃ t, exec (.imageLoadGo p v) s = .next t ∧
      t.boot = { s.boot with dev := BitVec.ofNat 3 (bitsN v 10 8), ldMode := v.getLsbD 1, ldErr := 3, ldBlk := 0, ldDone := true })) ∧
  (∀ (s : State) (op : ImageOp), s.boot.op = some op → op.jrp = false →
    (allGot op.got = false → ∃ t, exec (.imageBlockArrive none) s = .next t ∧ t.boot.op = none ∧ t.boot.ldErr = 0x21 ∧
      t.boot.ldDone = true) ∧
    (∀ b : List Byte, op.got = [] → op.dev = 0 → b.length = 256 →
      (partRefusal s op b ≠ 0 ∨ headerCheck s b ≠ 0 →
        ∃ t, exec (.imageBlockArrive (some b)) s = .next t ∧ t.boot.op = none ∧
          t.boot.ldErr = BitVec.ofNat 8 (if partRefusal s op b ≠ 0 then partRefusal s op b else headerCheck s b) ∧
          t.boot.ldDone = true ∧ t.boot.cuelib = s.boot.cuelib ∧ t.boot.preset = s.boot.preset) ∧
      (partRefusal s op b = 0 → headerCheck s b = 0 → ∃ t, exec (.imageBlockArrive (some b)) s = .next t ∧
        t.boot = { s.boot with op := some { op with part := hPart b, slot := freeImgSlot s, got := b } } ∧
        (hPart b = 1 → slotNow t (freeImgSlot s) = 0) ∧ ChangesOnly [.boot, .nv] s t)) ∧
    (∀ b : List Byte, 256 ≤ op.got.length → op.dev = 0 → allGot op.got = false → b.length = nextPiece op.got →
      (op.nextBoot = true ∨ badBlock (op.got ++ b) (blocksIn (op.got ++ b) op.got.length)
          (blocksIn (op.got ++ b) (op.got ++ b).length - blocksIn (op.got ++ b) op.got.length) = none →
        exec (.imageBlockArrive (some b)) s = .next { s with boot := { s.boot with op := some { op with got := op.got ++ b } } }) ∧
      (∀ j : Nat, op.nextBoot = false → badBlock (op.got ++ b) (blocksIn (op.got ++ b) op.got.length)
          (blocksIn (op.got ++ b) (op.got ++ b).length - blocksIn (op.got ++ b) op.got.length) = some j →
        ∃ t, exec (.imageBlockArrive (some b)) s = .next t ∧ t.boot.op = none ∧ t.boot.ldErr = 0x15 ∧
          t.boot.ldBlk = BitVec.ofNat 16 j ∧ t.boot.ldDone = true)) ∧
    (allGot op.got = true → op.dev = 0 → ∃ t, exec .imageLoadComplete s = .next t ∧ t.boot.op = none ∧ t.boot.ldDone = true ∧
      (op.nextBoot = false → finalCheck s op.got ≠ 0 → t.boot.ldErr = BitVec.ofNat 8 (finalCheck s op.got)) ∧
      (op.nextBoot = true ∨ finalCheck s op.got = 0 → t.boot.ldErr = 0 ∧
        (op.part = 2 → t.boot.cuelib = some (loadedOf op.got) ∧ t.boot.preset = s.boot.preset) ∧
        (op.part = 3 → t.boot.preset = some (loadedOf op.got) ∧ t.boot.cuelib = s.boot.cuelib) ∧
        (op.part = 1 → tget t.nv.image op.slot = op.got ∧
          (op.nextBoot = true → slotNow t op.slot = 2 ∧ t.boot.keeper = s.boot.keeper) ∧
          (op.nextBoot = false → slotNow t op.slot = 3 ∧ t.boot.keeper = some (loadedOf op.got) ∧ t.boot.wdFrom = some s.now)))) ∧
    (∀ p : Port, reach s p 0 = true → ∃ t, exec (.imageAbort p) s = .next t ∧ t.boot.op = none ∧ t.boot.ldDone = true ∧
      (op.dev = 0 → op.part = 2 → t.boot.cuelib = none) ∧ (op.dev = 0 → op.part = 3 → t.boot.preset = none))) ∧
  (∀ (s : State) (b : List Byte), s.boot.op = none →
    (imageSent s = false ∨ b.length ≠ 256 → exec (.imageBlockArrive (some b)) s = .next s) ∧
    (imageSent s = true → b.length = 256 → headerCheck s b ≠ 0 →
      (hPart b ≠ 2 ∧ hPart b ≠ 3) ∨ (inRecovery s = false ∧ (∀ c : Chan, (getCh s c).st = .disarmed) ∧ domUp s 3 = true) → ∃ t, exec (.imageBlockArrive (some b)) s = .next t ∧
      t.boot.op = none ∧ t.boot.ldErr = BitVec.ofNat 8 (headerCheck s b) ∧ t.boot.ldDone = true))

/-- Sheet clear (from R164 to R171), whose steppers' gates are driven in Safe Hold (R169), and which ends Safe Hold at no RELEASE;
that its start enters Safe Hold is the model's reading (log 58); the code a called-off chord is logged with is the model's opaque Config.logCode 1 (log 4). -/
def Obligations.SheetClearRoutine : Prop :=
  (∀ (s : State) (a : Nat), s.aon.sheet = .chord a →
    (s.aon.press = none → sheetReady s = true → s.now ≤ a + 2 * sec → s.aon.scMask ≠ 0 →
      (∀ c : Chan, (allFin 16).any (fun n => s.aon.scMask.getLsbD n.1 && holder s n.1 == some c) = false) →
      ∃ t, exec .sheetClearStart s = .next t ∧ t.now = s.now ∧ t.aon.sheet = .running s.now ∧ t.aon.hold = true ∧
        (∀ p : Supplies, outputsOff p t = true) ∧
        (∀ n : Fin 16, s.aon.scMask.getLsbD n.1 = true →
          (getStep t n).amps = s.aon.scCur ∧ t.aon.shadowValid.getLsbD n.1 = false ∧
          ∀ p : Supplies, p.vaon = true → t.motn.vmotOk = true → pinGates p t n = true) ∧
        (s.aon.hold = true →
          (∀ n : Fin 16, getStep t n = if s.aon.scMask.getLsbD n.1 then { getStep s n with amps := s.aon.scCur } else getStep s n) ∧
          ChangesOnly [.aon, .motn] s t)) ∧
    (sheetReady s = false → exec .sheetClearStart s = .next s) ∧
    (∃ t, exec .sheetClearCancel s = .next t ∧ t.now = max s.now (a + 2 * sec) ∧ t.aon = { s.aon with sheet := .idle } ∧
      ChangesOnly [.now, .aon, .cue, .lg, .fl] s t)) ∧
  (∀ (s : State) (a : Nat), s.aon.sheet = .running a → ∃ t k, exec .sheetClearEnd s = .next t ∧
    t.now = max s.now (a + 4100 * ms) ∧ t.aon.sheet = .idle ∧
    k = (sheetRun (t.now - a) + sheetBrake (t.now - a)) * clampN 1 4095 s.aon.scSpmm.toNat / (16 * sec * sec) ∧
    (∀ n : Fin 16, getStep t n = if s.aon.scMask.getLsbD n.1 then { getStep s n with
        pos := (getStep s n).pos + BitVec.ofInt 32 (if s.aon.scDir.getLsbD n.1 then -(256 * (k : Int)) else 256 * (k : Int)), amps := 0 }
      else getStep s n) ∧ ChangesOnly [.now, .aon, .cue, .motn, .lg, .fl, .host, .out] s t)

/-- JRP frames, repetition and the commands that are no image transfer (from R13, R184, R197 to R202, R619). -/
def Obligations.JrpFramesAndRegisterCommands : Prop :=
  (∀ (s : State) (j : JrpPort) (f : List Byte) (i : Instr) (cmd : Nat),
    (cmd, i) ∈ [(0x01, .jrpHello j f), (0x02, .jrpSetBaud j f), (0x03, .jrpLogRead j f), (0x04, .jrpRegRead j f),
      (0x05, .jrpRegWrite j f), (0x10, .imgBegin j f), (0x11, .imgData j f), (0x12, .imgEnd j f), (0x13, .imgAbort j f),
      (0x20, .jrpReset j f)] →
    (jrpOn s j = true → (getJrp s j).part = [] → jFramed f = true → f.length = jTotal f → jCrcOk f = false → (jCmd f).toNat = cmd →
      ∃ t, exec i s = .next t ∧ JrpAnswered s t j f 1 [] ∧ t.boot = { s.boot with jrp := t.boot.jrp } ∧
        (getJrp t j).last = (getJrp s j).last ∧ (getJrp t j).resp = (getJrp s j).resp ∧ ChangesOnly [.boot, .out] s t) ∧
    (JrpRequest s j f cmd → jrpRepeats s j f → ∃ t, exec i s = .next t ∧ JrpSent s t j (getJrp s j).resp ∧
      t.boot = { s.boot with jrp := t.boot.jrp } ∧ (getJrp t j).last = (getJrp s j).last ∧
      (getJrp t j).resp = (getJrp s j).resp ∧ ChangesOnly [.boot, .out] s t) ∧
    (JrpRequest s j f cmd → ¬ jrpRepeats s j f → jLenOk cmd (jLen f) = some false →
      ∃ t, exec i s = .next t ∧ JrpAnswered s t j f 4 [] ∧ t.boot = { s.boot with jrp := t.boot.jrp } ∧
        (getJrp t j).last = (getJrp s j).last ∧ ChangesOnly [.boot, .out] s t)) ∧
  (∀ (s : State) (j : JrpPort) (f : List Byte) (cmd : Nat), JrpRequest s j f cmd → ¬ jrpRepeats s j f → jLenOk cmd 0 = none →
    ∃ t, exec (.jrpBadCmd j f) s = .next t ∧ JrpAnswered s t j f 2 [] ∧ t.boot = { s.boot with jrp := t.boot.jrp } ∧
      (getJrp t j).last = (getJrp s j).last ∧ ChangesOnly [.boot, .out] s t) ∧
  (∀ (s : State) (j : JrpPort) (f : List Byte), JrpRequest s j f 1 → ¬ jrpRepeats s j f → jLen f = 0 → ∃ t r,
    exec (.jrpHello j f) s = .next t ∧ JrpAnswered s t j f 0 r ∧ JrpKept s t j f 0 r ∧ ChangesOnly [.boot, .out] s t ∧
    t.boot = { s.boot with jrp := t.boot.jrp } ∧
    r = leBytes 4 (0xA964B000 ||| Config.metalFix.setWidth 32 : Word).toNat ++ [s.boot.mode.setWidth 8, s.boot.recause.setWidth 8,
      BitVec.ofNat 8 (jrpIx j).1, BitVec.ofNat 8 (rbCount s), (slotNow s 0).setWidth 8, (slotNow s 1).setWidth 8,
      (failsNow s).setWidth 8, 0] ++ otpBytes s 0 4 ++
      (match s.boot.keeper with | some k => slice k.hdr 0x10 4 | none => [0, 0, 0, 0])) ∧
  (∀ (s : State) (j : JrpPort) (f : List Byte), JrpRequest s j f 2 → ¬ jrpRepeats s j f → jLen f = 4 →
    let n := fieldN (jPayload f) 0 4
    ∃ t, exec (.jrpSetBaud j f) s = .next t ∧ ChangesOnly [.boot, .out] s t ∧
    (9600 ≤ n → n ≤ 1000000 → JrpAnswered s t j f 0 [] ∧ JrpKept s t j f 0 [] ∧ t.boot = { s.boot with baud := n, jrp := t.boot.jrp }) ∧
    (n < 9600 ∨ 1000000 < n → JrpAnswered s t j f 5 [] ∧ t.boot = { s.boot with jrp := t.boot.jrp })) ∧
  (∀ (s : State) (j : JrpPort) (f : List Byte) (k : Fin 4), JrpRequest s j f 3 → ¬ jrpRepeats s j f → jLen f = 10 →
    fieldN (jPayload f) 0 1 = k.1 → zeros (jPayload f) 1 3 = true → ∃ t r, exec (.jrpLogRead j f) s = .next t ∧
    ChangesOnly [.boot, .out] s t ∧ JrpAnswered s t j f 0 r ∧ JrpKept s t j f 0 r ∧ t.boot = { s.boot with jrp := t.boot.jrp } ∧
    r = (((readOut (tget s.nv.streams k) (BitVec.ofNat 32 (fieldN (jPayload f) 4 4))).take
      (min (fieldN (jPayload f) 8 2) 4096 / 32)).map slotBytes).flatten) ∧
  (∀ (s : State) (j : JrpPort) (f : List Byte), ¬ jrpRepeats s j f →
    let off := fieldN (jPayload f) 0 4
    let v : Word := BitVec.ofNat 32 (fieldN (jPayload f) 4 4)
    let ok := off % 4 = 0 ∧ (off / 65536 = 1 ∨ off / 65536 = 14)
    (JrpRequest s j f 4 → jLen f = 4 → ∃ t, exec (.jrpRegRead j f) s = .next t ∧
      (ok → JrpAnswered s t j f 0 (leBytes 4 (readReg (jrpTaken j s) off).toNat)) ∧ (¬ ok → JrpAnswered s t j f 5 [] ∧ ChangesOnly [.boot, .out] s t)) ∧
    (JrpRequest s j f 5 → jLen f = 8 → ∃ t, exec (.jrpRegWrite j f) s = .next t ∧
      (ok → t = { writeReg off v (jrpTaken j s) with boot := { (writeReg off v (jrpTaken j s)).boot with jrp := t.boot.jrp }, out := t.out }
        ∧ JrpAnswered (writeReg off v (jrpTaken j s)) t j f 0 []) ∧
      (¬ ok → JrpAnswered s t j f 5 [] ∧ ChangesOnly [.boot, .out] s t))) ∧
  (∀ (s : State) (j : JrpPort) (f : List Byte), JrpRequest s j f 0x20 → ¬ jrpRepeats s j f → jLen f = 0 → ∃ t u,
    exec (.jrpReset j f) s = .next t ∧ t.now = s.now ∧ t.boot.op = none ∧ (bitB s.aon.strap 4 = true → t.boot.mode = 2) ∧
    exec (.bootRestart .keeper) u = .next t ∧ JrpAnswered s u j f 0 [] ∧ JrpKept s u j f 0 [] ∧
    ChangesOnly [.boot, .out] s u) ∧
  (∀ s : State, jrpOn s .uart = true →
    (∃ t, exec .jrpUartGap s = .next t ∧ t.now = max s.now ((getJrp s .uart).byteAt + 10 * ms + 1) ∧
      ChangesOnly [.now, .boot, .cue] s t ∧ (getJrp t .uart).part = [] ∧
      (getJrp t .uart).last = (getJrp s .uart).last ∧ t.boot = { s.boot with jrp := t.boot.jrp }) ∧
    ∃ t, exec .jrpBaudRevert s = .next t ∧ t.now = max s.now ((getJrp s .uart).validAt + 5 * sec) ∧
      t.boot = { s.boot with baud := 115200 } ∧ ChangesOnly [.now, .boot, .cue] s t)

/-- Image transfer over JRP (from R176, R180, R189, R190, R203 to R205). -/
def Obligations.JrpImageTransfer : Prop :=
  ∀ (s : State) (j : JrpPort) (f : List Byte), ¬ jrpRepeats s j f →
    (JrpRequest s j f 0x10 → jLen f = 260 →
      let h := slice (jPayload f) 4 256
      let m := fieldN (jPayload f) 0 4
      (s.boot.op = none → m ≤ 1 → headerCheck s h = 0 → hPart h = 1 → ∃ t, exec (.imgBegin j f) s = .next t ∧ JrpAnswered s t j f 0 [] ∧
        t.boot.op = some { jrp := true, dev := 0, part := 1, nextBoot := m == 1, slot := freeImgSlot s, got := h, err := 0, blk := 0 } ∧
        slotNow t (freeImgSlot s) = 0 ∧ slotNow t (freeImgSlot s + 1) = slotNow s (freeImgSlot s + 1) ∧
        ChangesOnly [.boot, .nv, .out] s t) ∧
      (s.boot.op.isSome = true → ∃ t, exec (.imgBegin j f) s = .next t ∧ JrpAnswered s t j f 6 [] ∧ t.boot.op = s.boot.op ∧
        ChangesOnly [.boot, .out] s t) ∧
      (s.boot.op = none → m ≤ 1 → headerCheck s h ≠ 0 → ∃ t, exec (.imgBegin j f) s = .next t ∧
        JrpAnswered s t j f (BitVec.ofNat 8 (headerCheck s h)) [] ∧ t.boot.op = none ∧ ChangesOnly [.boot, .out] s t)) ∧
    (JrpRequest s j f 0x11 → 5 ≤ jLen f → jLen f ≤ 4100 → ∀ op : ImageOp, s.boot.op = some op → op.jrp = true →
      let d := (jPayload f).drop 4
      let img := op.got ++ d
      let i := blocksIn img op.got.length
      (fieldN (jPayload f) 0 4 = op.got.length → op.got.length + d.length ≤ bodyLen op.got →
        op.nextBoot = true ∨ badBlock img i (blocksIn img img.length - i) = none →
        ∃ t, exec (.imgData j f) s = .next t ∧ JrpAnswered s t j f 0 [] ∧ t.boot.op = some { op with got := img } ∧
          ChangesOnly [.boot, .out] s t) ∧
      (fieldN (jPayload f) 0 4 ≠ op.got.length ∨ bodyLen op.got < op.got.length + d.length →
        ∃ t, exec (.imgData j f) s = .next t ∧ JrpAnswered s t j f 5 [] ∧ t.boot.op = none)) ∧
    (JrpRequest s j f 0x12 → jLen f = 64 → ∀ op : ImageOp, s.boot.op = some op → op.jrp = true → op.part = 1 → op.dev = 0 →
      op.got.length = bodyLen op.got →
      let img := op.got ++ jPayload f
      ∃ t, exec (.imgEnd j f) s = .next t ∧ t.boot.op = none ∧
      (op.nextBoot = false → finalCheck s img ≠ 0 → JrpAnswered s t j f (BitVec.ofNat 8 (finalCheck s img)) [] ∧ slotNow t op.slot = 0) ∧
      (op.nextBoot = true ∨ finalCheck s img = 0 → JrpAnswered s t j f 0 [] ∧ tget t.nv.image op.slot = img ∧
        (inRecovery s = true → slotNow t op.slot = 2 ∧ failsNow t = 0) ∧
        (inRecovery s = false → op.nextBoot = true → slotNow t op.slot = 2) ∧
        (inRecovery s = false → op.nextBoot = false → slotNow t op.slot = 3 ∧ t.boot.keeper = some (loadedOf img)))) ∧
    (JrpRequest s j f 0x13 → jLen f = 0 → ∀ op : ImageOp, s.boot.op = some op → op.jrp = true → op.part = 1 → op.dev = 0 →
      ∃ t, exec (.imgAbort j f) s = .next t ∧ JrpAnswered s t j f 0 [] ∧ t.boot.op = none ∧ slotNow t op.slot = 0) ∧
    (∀ (i : Instr) (cmd : Nat), (cmd, i) ∈ [(0x11, .imgData j f), (0x12, .imgEnd j f), (0x13, .imgAbort j f)] →
      JrpRequest s j f cmd → jLenOk cmd (jLen f) = some true →
      (s.boot.op = none → ∃ t, exec i s = .next t ∧ JrpAnswered s t j f 3 [] ∧ t.boot.op = none ∧ ChangesOnly [.boot, .out] s t) ∧
      (∀ op : ImageOp, s.boot.op = some op → op.jrp = false →
        ∃ t, exec i s = .next t ∧ JrpAnswered s t j f 6 [] ∧ t.boot.op = some op ∧ ChangesOnly [.boot, .out] s t))

/-- Command rings and what their decoder does with an entry (from R32, R286 to R295, R643). -/
def Obligations.RingsAndTheirDecoder : Prop :=
  (∀ (s : State) (r : Ring) (v : Word), reach s .bar0 1 = true → ∃ t, exec (.cqEnable r v) s = .next t ∧
    getRing t r = (if (getRing s r).en then getRing s r else
      { getRing s r with size := v.extractLsb' 0 4, en := true, head := (getRing s r).tail }) ∧
    (∀ k : Ring, k ≠ r → getRing t k = getRing s k) ∧ ChangesOnly [.host, .fl] s t) ∧
  (∀ (s : State) (r : Ring), decodes s r = true → ∃ t, exec (.cqReadError r) s = .next t ∧
    getRing t r = { getRing s r with en := false, err := 0x21, held := none } ∧ t.host.rr = r ∧ (∀ k : Ring, k ≠ r → getRing t k = getRing s k) ∧
    t.out = s.out ++ [.aer, .msix 31] ∧ stagedRecs t = stagedRecs s ∧ waitingRecs t = waitingRecs s ∧ ChangesOnly [.host, .fl, .out] s t) ∧
  (∀ (s : State) (r : Ring) (e : List Byte) (i : Instr) (opc : Nat),
    (opc, i) ∈ [(0, .cmdNop r e), (1, .cmdArm r e), (2, .cmdDisarm r e true), (3, .cmdRefresh r e), (4, .cmdMail r e),
      (5, .cmdPlan r e), (6, .cmdPageAbort r e)] ∨ (7 ≤ opc ∧ i = .cmdBad r e) →
    (TakesCommand s r e opc → refusal s e ≠ 0 → ∃ t, exec i s = .next t ∧ RingMoved s t r ∧
      Told s t (cmdRec s (reqOf s e true) (refusal s e) 0 0) ∧ ChangesOnly [.host, .fl] s t) ∧
    (decodes s r = true → e.length = 64 → eOpc e = opc → forwards s e = true → hasTally s (skidFl 1) = true →
      (getPort s 1).waiting = [] → ∃ t, exec i s = .next t ∧ RingMoved s t r ∧
      (getPort t 1).unacked = (getPort s 1).unacked ++ [.cmd (Fin.ofNat 8 (eDev e)) e] ∧
      t.out = s.out ++ (if (getPort s 1).st = .up then [.skid 1 (.cmd (Fin.ofNat 8 (eDev e)) e)] else []) ∧
      stagedRecs t = stagedRecs s ∧ waitingRecs t = waitingRecs s ∧ ChangesOnly [.host, .fl, .skid, .out] s t)) ∧
  (∀ (s : State) (e : List Byte), (7 ≤ eOpc e → refusal s e = 2) ∧
    (eOpc e < 7 → entryClean e = false ∨ devKnown s (eDev e) = false → refusal s e = 5) ∧
    (eOpc e < 7 → entryClean e = true → devKnown s (eDev e) = true →
      refusal s e = if (eFlags e).getLsbD 1 = true ∧ fieldN e 2 2 ≠ s.epoch.toNat then 0x29 else 0)) ∧
  (∀ (s : State) (r : Ring) (e : List Byte), TakesCommand s r e 0 → refusal s e = 0 → ∃ t, exec (.cmdNop r e) s = .next t ∧
    RingMoved s t r ∧ ChangesOnly [.host, .fl] s t ∧
    ((eFlags e).getLsbD 0 = true → Told s t (cmdRec s (reqOf s e true) 0 0 0)) ∧
    ((eFlags e).getLsbD 0 = false → stagedRecs t = stagedRecs s ∧ waitingRecs t = waitingRecs s)) ∧
  (∀ (s : State) (r : Ring) (e : List Byte), TakesCommand s r e 4 → refusal s e = 0 →
    let c := reqChan (reqOf s e true)
    ((getCh s c).st = .running → hasTally s (mbxFl c) = true → ∃ t, exec (.cmdMail r e) s = .next t ∧ RingMoved s t r ∧
      getCh t c = { getCh s c with mailbox := (getCh s c).mailbox ++ [e] } ∧ (∀ d : Chan, d ≠ c → getCh t d = getCh s d) ∧
      (getFl t (mbxFl c)).tally = (getFl s (mbxFl c)).tally - 1 ∧ ChangesOnly [.host, .fl, .cue] s t ∧
      ((eFlags e).getLsbD 0 = true → Told s t (cmdRec s (reqOf s e true) 0 0 0)) ∧
      ((eFlags e).getLsbD 0 = false → stagedRecs t = stagedRecs s ∧ waitingRecs t = waitingRecs s)) ∧
    ((getCh s c).st ≠ .running → ∃ t, exec (.cmdMail r e) s = .next t ∧ RingMoved s t r ∧
      Told s t (cmdRec s (reqOf s e true) 3 0 0) ∧ ChangesOnly [.host, .fl] s t) ∧
    ((getCh s c).st = .running → hasTally s (mbxFl c) = false →
      exec (.cmdMail r e) s = .next (modRing r (fun x => { x with held := some (mbxFl c) }) { s with host := { s.host with rr := r } }))) ∧
  (∀ (s : State) (r : Ring) (e : List Byte) (opc : Nat), 7 ≤ opc → TakesCommand s r e opc → ∃ t, exec (.cmdBad r e) s = .next t ∧
    RingMoved s t r ∧ Told s t (cmdRec s (reqOf s e true) 2 0 0) ∧ ChangesOnly [.host, .fl] s t)

/-- ARM (from R206, R215, R218 to R223). -/
def Obligations.ArmingAChannel : Prop :=
  (∀ (s : State) (r : Ring) (e : List Byte), TakesCommand s r e 1 → refusal s e = 0 → LifeIdle s →
    let q := reqOf s e true
    let c := reqChan q
    ∃ t, exec (.cmdArm r e) s = .next t ∧ RingMoved s t r ∧
    (s.boot.ldieDone = true → s.boot.mode ≠ 2 → (getCh s c).st = .disarmed →
      getCh t c = { getCh s c with st := .arming } ∧ (∀ d : Chan, d ≠ c → getCh t d = getCh s d) ∧
      t.cue.life = some { req := q, chan := c, refresh := false, st := .entry } ∧ t.cue.grant = s.cue.grant ∧
      stagedRecs t = stagedRecs s ∧ waitingRecs t = waitingRecs s ∧ t.out = s.out ++ [.hostRead (entryAddr s c) 0xC0] ∧
      ChangesOnly [.host, .fl, .cue, .out] s t) ∧
    (s.boot.ldieDone = false ∨ s.boot.mode = 2 → Told s t (cmdRec s q 0x20 0 0) ∧ ChangesOnly [.host, .fl] s t) ∧
    (s.boot.ldieDone = true → s.boot.mode ≠ 2 → (getCh s c).st ≠ .disarmed →
      Told s t (cmdRec s q 3 0 0) ∧ ChangesOnly [.host, .fl] s t)) ∧
  (∀ (s : State) (l : Life), s.cue.life = some l → l.st = .entry → l.refresh = false → s.host.lifeQ = [] → s.host.recov = none →
    (getFl s stgFl).down = false →
    let ends (t : State) (status a b : Nat) : Prop := Told s t (cmdRec s l.req status a b) ∧ t.cue.life = none ∧
      t.out = s.out ++ (if status = 0x21 ∧ isManager s = true then [.aer] else []) ∧
      getCh t l.chan = { getCh s l.chan with st := .disarmed } ∧
      (∀ i : Fin 256, tget t.cue.grant i = if tget s.cue.grant i = some l.chan then none else tget s.cue.grant i) ∧
      (∀ d : Chan, d ≠ l.chan → getCh t d = getCh s d) ∧ ChangesOnly [.host, .fl, .cue, .out] s t
    (∃ t, exec (.armEntryArrive none) s = .next t ∧ ends t 0x21 0 0) ∧
    (∀ b : List Byte, b.length = 0xC0 → ∃ t, exec (.armEntryArrive (some b)) s = .next t ∧
      ((entryStep2 b && entryStep3 b) = false → ends t 0x22 0 0) ∧
      ((entryStep2 b && entryStep3 b) = true → (entryOf b).grant.toNat / 2 ^ 140 ≠ 0 → ends t 0x23 0 0) ∧
      ((entryStep2 b && entryStep3 b) = true → (entryOf b).grant.toNat / 2 ^ 140 = 0 →
        (∀ (i : Fin 256) (d : Chan), conflictOf s l.chan (entryOf b) = some (i, d) → ends t 0x24 i.1 (devNum s * 64 + d.1)) ∧
        (∀ p : Nat, conflictOf s l.chan (entryOf b) = none → firstRun s (pagesFor (entryOf b).progLen) cuePages 0 0 = some p →
          t.cue.life = some { l with st := .program (entryOf b) p (pagesFor (entryOf b).progLen) } ∧
          (∀ i : Fin 256, tget t.cue.grant i = if (entryOf b).grant.getLsbD i.1 then some l.chan else tget s.cue.grant i) ∧
          t.cue.ch = s.cue.ch ∧ ChangesOnly [.cue, .skid, .fl, .out] s t ∧
          (isManager s = true → t.out = s.out ++ [.hostRead (entryOf b).progAddr.toNat (entryOf b).progLen] ∧
            ChangesOnly [.cue, .out] s t)) ∧
        (conflictOf s l.chan (entryOf b) = none → firstRun s (pagesFor (entryOf b).progLen) cuePages 0 0 = none → ends t 0x25 0 0)))) ∧
  (∀ (s : State) (l : Life) (e : Entry) (p n : Nat), s.cue.life = some l → l.st = .program e p n → l.refresh = false →
    s.host.lifeQ = [] → s.host.recov = none → (getFl s stgFl).down = false →
    let ends (t : State) (status : Nat) : Prop := Told s t (cmdRec s l.req status 0 0) ∧ t.cue.life = none ∧
      (getCh t l.chan).st = .disarmed ∧
      (∀ i : Fin 256, tget t.cue.grant i = if tget s.cue.grant i = some l.chan then none else tget s.cue.grant i)
    (∃ t, exec (.armProgramArrive none) s = .next t ∧ ends t 0x21) ∧
    (∀ b : List Byte, b.length = e.progLen → ∃ t, exec (.armProgramArrive (some b)) s = .next t ∧
      (crc32c b ≠ e.progCrc → ends t 0x26) ∧
      (crc32c b = e.progCrc → Told s t (cmdRec s l.req 0 0 0) ∧ t.cue.life = none ∧
        let x := getCh t l.chan
        x.st = .running ∧ x.slots = e.slots ∧ x.pc = { lib := false, off := e.entry } ∧ x.stack = [] ∧ x.mailbox = [] ∧ x.evq = [] ∧
        x.actq = (getCh s l.chan).actq ∧ x.scratch = [] ∧ x.prog = wordsOf (e.progLen / 4) b ∧ x.entry = e ∧ x.faultCode = 0 ∧
        x.stats = { Stats.zero with etArm := s.cue.et } ∧ (∀ d : Chan, d ≠ l.chan → getCh t d = getCh s d) ∧
        t.cue.grant = s.cue.grant)))

/-- DISARM (from R216, R217, R225 to R227) and REFRESH (from R228 to R230). -/
def Obligations.DisarmingAndRefreshingAChannel : Prop :=
  (∀ (s : State) (r : Ring) (e : List Byte) (wb : Bool), TakesCommand s r e 2 → refusal s e = 0 → LifeIdle s →
    let q := reqOf s e wb
    let c := reqChan q
    ∃ t, exec (.cmdDisarm r e wb) s = .next t ∧ RingMoved s t r ∧
    (armedSt (getCh s c) = false → Told s t (cmdRec s q 3 0 0) ∧ ChangesOnly [.host, .fl] s t) ∧
    (armedSt (getCh s c) = true → pcrit s c = true → Told s t (cmdRec s q 0x27 0 0) ∧ ChangesOnly [.host, .fl] s t) ∧
    (armedSt (getCh s c) = true → pcrit s c = false →
      let x := getCh t c
      x.st = .disarmed ∧ x.prog = [] ∧ x.npages = 0 ∧ x.mailbox = [] ∧ x.evq = [] ∧ x.entry = Entry.empty ∧
      x.slots = (getCh s c).slots ∧ x.stack = (getCh s c).stack ∧ x.stats.etDisarm = s.cue.et ∧
      x.stats.finalState = BitVec.ofNat 8 (chCode (getCh s c).st) ∧
      (∀ i : Fin 256, tget t.cue.grant i = if tget s.cue.grant i = some c then none else tget s.cue.grant i) ∧
      (bar0Reach s = true → wb = true → LastTold t (cmdRec s q 0 (getCh s c).mailbox.length 0) ∧
        ∃ l, t.out = s.out ++ l ++ [.hostWrite (entryAddr s c + 0xC0) (statBytes x.stats)]) ∧
      (wb = false → LastTold t (cmdRec s q 0x28 (getCh s c).mailbox.length 0)))) ∧
  (∀ (s : State) (r : Ring) (e : List Byte), TakesCommand s r e 3 → refusal s e = 0 → LifeIdle s →
    let q := reqOf s e true
    let c := reqChan q
    ∃ t, exec (.cmdRefresh r e) s = .next t ∧ RingMoved s t r ∧ t.cue.ch = s.cue.ch ∧ t.cue.grant = s.cue.grant ∧
    (armedSt (getCh s c) = false → Told s t (cmdRec s q 3 0 0) ∧ t.cue.life = none) ∧
    (armedSt (getCh s c) = true → pcrit s c = true → Told s t (cmdRec s q 0x27 0 0) ∧ t.cue.life = none) ∧
    (armedSt (getCh s c) = true → pcrit s c = false → t.cue.life = some { req := q, chan := c, refresh := true, st := .entry } ∧
      stagedRecs t = stagedRecs s ∧ waitingRecs t = waitingRecs s ∧ t.out = s.out ++ [.hostRead (entryAddr s c) 0xC0])) ∧
  (∀ (s : State) (l : Life) (e : Entry) (prog : List Word) (p n : Nat), s.cue.life = some l → l.st = .swap e prog p n →
    s.host.lifeQ = [] → s.host.recov = none → (getFl s stgFl).down = false →
    ∃ t, exec .refreshSwap s = .next t ∧ t.cue.life = none ∧
    (pcrit s l.chan = true → Told s t (cmdRec s l.req 0x27 0 0) ∧ t.cue.grant = s.cue.grant ∧
      (l.refresh = true → t.cue.ch = s.cue.ch)) ∧
    (pcrit s l.chan = false → Told s t (cmdRec s l.req 0 0 0) ∧
      (let x := getCh t l.chan
      x.st = .running ∧ x.slots = e.slots ∧ x.stack = [] ∧ x.pc = { lib := false, off := e.entry } ∧ x.prog = prog ∧ x.page0 = p ∧
      x.npages = n ∧ x.entry = e ∧ x.mailbox = (getCh s l.chan).mailbox ∧ x.evq = (getCh s l.chan).evq ∧
      x.stats.refreshes = satInc (getCh s l.chan).stats.refreshes) ∧
      (∀ d : Chan, d ≠ l.chan → getCh t d = getCh s d) ∧
      (∀ i : Fin 256, tget t.cue.grant i = if e.grant.getLsbD i.1 then some l.chan
        else if tget s.cue.grant i = some l.chan then none else tget s.cue.grant i)))

/-- Page plans and the ends of pages (from R563 to R568, R578, R580, R584, R587 to R589). -/
def Obligations.PagePlansAndAborts : Prop :=
  (∀ (s : State) (r : Ring) (e : List Byte), TakesCommand s r e 5 → refusal s e = 0 → ∃ t, exec (.cmdPlan r e) s = .next t ∧
    RingMoved s t r ∧ t.host.planQ = s.host.planQ ++ [reqOf s e true] ∧ stagedRecs t = stagedRecs s ∧
    waitingRecs t = waitingRecs s ∧ t.out = s.out ++ [.hostRead (eArg e) 192] ∧ ChangesOnly [.host, .fl, .out] s t) ∧
  (∀ (s : State) (q : CmdReq) (l : List CmdReq) (d : Option (List Byte)), s.host.planQ = q :: l → domUp s 3 = true →
    (getFl s stgFl).down = false → (∀ b, d = some b → b.length = 192) → ∃ t, exec (.planArrive d) s = .next t ∧ t.host.planQ = l ∧
    (planVerdict s q.arg.toNat d ≠ 0 → Told s t (cmdRec s q (planVerdict s q.arg.toNat d) 0 0) ∧ t.cue = s.cue) ∧
    (∀ (b : List Byte) (ix : Fin 32), d = some b → planVerdict s q.arg.toNat d = 0 → freePlan s = some ix → (planOf b).dup2 = false →
      Told s t (cmdRec s q 0 0 s.cue.nextHdl.toNat) ∧ t.cue.pages = s.cue.pages ++ [newPage ix s.cue.nextHdl (planOf b)] ∧
      t.cue.nextHdl = (if s.cue.nextHdl + 1 = 0 then 1 else s.cue.nextHdl + 1))) ∧
  (∀ (s : State) (r : Ring) (e : List Byte), TakesCommand s r e 6 → refusal s e = 0 →
    let q := reqOf s e true
    let n : Word := q.arg.setWidth 32
    ∃ t, exec (.cmdPageAbort r e) s = .next t ∧ RingMoved s t r ∧
    (q.arg.getLsbD 33 = true → (∀ g ∈ s.cue.pages, g.handle = n → g.isAdm = true) →
      Told s t (cmdRec s q 0x33 0 0) ∧ ChangesOnly [.host, .fl] s t) ∧
    (q.arg.getLsbD 33 = false → (∀ g ∈ s.cue.pages, g.isAdm = true → g.adm ≠ n) →
      Told s t (cmdRec s q 0x33 0 0) ∧ ChangesOnly [.host, .fl] s t) ∧
    (∀ g : Page, q.arg.getLsbD 33 = false → pageByAdm s n = some g →
      LastTold t (cmdRec s q 0 0 0) ∧ ∀ h ∈ t.cue.pages, h.isAdm = true → h.adm = n → h.handle = g.handle → h.st = .aborting)) ∧
  (∀ (s : State) (n : Word) (g : Page), pageByAdm s n = some g → abortDone s g = true →
    exec (.pageAbortComplete n) s = .next { s with cue := { s.cue with
      pages := s.cue.pages.map fun h => if h.handle = g.handle then { h with complete := true } else h } }) ∧
  (∀ (s : State) (g : Page), s.cue.pages.find? (reportable s) = some g → (stgRoom s 6 none).isSome = true →
    s.host.recov = none →
    ∃ t, exec .sheetRecordStage s = .next t ∧ stagedRecs t = stagedRecs s ++ [sheetRec s g] ∧
      (∀ h ∈ t.cue.pages, h.isAdm = true → h.adm ≠ g.adm) ∧ (∀ h ∈ s.cue.pages, h.isAdm = false → h ∈ t.cue.pages) ∧
      t.cue.nextReport = g.adm + 1 ∧ ChangesOnly [.host, .fl, .cue] s t) ∧
  (∀ (s : State) (n : Gpio), domUp s 3 = true → (∃ g ∈ s.cue.pages, g.isAdm = true ∧ g.plan.jam.getLsbD n.1 = true) →
    ∃ t, exec (.jamDetect n) s = .next t ∧ t.cue.jamLatch = true ∧ t.cue.jamSrc = BitVec.ofNat 5 n.1 ∧
      (∀ h ∈ t.cue.pages, h.isAdm = true → h.st = .aborting)) ∧
  (∀ (s : State) (gpio : Word), reach s .bar0 3 = true → exec (.jamlatchClear gpio) s = .next { s with cue := { s.cue with
    gpioIn := gpio, jamLatch := s.cue.jamLatch && (gpio.getLsbD s.cue.jamSrc.toNat == s.cue.pol.getLsbD s.cue.jamSrc.toNat) } })

/-- CPQ, PHASE and MSI-X coalescing (from R296 to R300, R303, R304). -/
def Obligations.CompletionQueueAndInterrupts : Prop :=
  (∀ (s : State) (v : Word), reach s .bar0 1 = true → ∃ t, exec (.cpqEnable v) s = .next t ∧ ChangesOnly [.host] s t ∧
    t.host = { s.host with regs := t.host.regs } ∧
    t.host.regs = if s.host.regs.cpqEn then s.host.regs else
      { s.host.regs with cpqSize := v.extractLsb' 0 5, cpqEn := true, cpqTail := 0, cpqHead := 0 }) ∧
  (∀ s : State, isManager s = true → s.host.staging = [] ∨ bar0Reach s = false ∨ cpqRoom s = false →
    exec .cpqRecordWrite s = .next s) ∧
  (∀ (s : State) (x : StgEntry) (l : List StgEntry), isManager s = true → bar0Reach s = true → cpqRoom s = true →
    s.host.staging = x :: l → x.rcd.kind ≠ 10 → x.cls = .general ∨ s.host.waiting = [] →
    let g := s.host.regs
    let n := 2 ^ clampN 6 16 g.cpqSize.toNat
    let addr := g.cpqBase.toNat / 4096 * 4096 + 32 * (g.cpqTail.toNat % n)
    let b := recBytes x.rcd (decide (g.cpqTail.toNat % (2 * n) < n))
    let v := kindVec s x.rcd.kind
    let now := reservedKind x.rcd.kind = true ∨ g.coalTime = 0 ∨ max 1 g.coalCount.toNat ≤ (tget g.vecs v).count + 1
    ∃ t, exec .cpqRecordWrite s = .next t ∧ t.host.staging = l ∧ t.host.waiting = s.host.waiting ∧
      t.host.regs = { g with cpqTail := g.cpqTail + 1, vecs := t.host.regs.vecs } ∧
      (now → t.out = s.out ++ [.hostWrite (addr + 1) (b.drop 1), .hostWrite addr (b.take 1), .msix v] ∧
        (tget t.host.regs.vecs v).count = 0) ∧
      (¬ now → t.out = s.out ++ [.hostWrite (addr + 1) (b.drop 1), .hostWrite addr (b.take 1)] ∧
        (tget t.host.regs.vecs v).count = (tget g.vecs v).count + 1) ∧
      (x.cls = .own → t.host.resFree = s.host.resFree + 1) ∧
      (x.cls = .general → x.aon = false → (getFl s stgFl).down = false → (getFl t stgFl).ret = (getFl s stgFl).ret + 1 ∧
        ∀ f : FlumeId, f ≠ stgFl → getFl t f = getFl s f) ∧
      ChangesOnly [.host, .fl, .out] s t) ∧
  (∀ (s : State) (x : StgEntry) (l : List StgEntry) (d : Fin 8) (r : Rec) (n : Nat), isManager s = true → bar0Reach s = true →
    cpqRoom s = true → s.host.staging = x :: l → x.rcd.kind ≠ 10 → x.cls = .worker d → s.skid.live.getLsbD d.1 = true →
    s.host.recov = none → (getFl s stgFl).down = false → s.host.waiting = [⟨r, .worker d, n⟩] → reservedKind r.kind = true →
    ∃ t, exec .cpqRecordWrite s = .next t ∧ stagedRecs t = l.map (·.rcd) ++ [r] ∧ t.host.waiting = [] ∧
      t.host.wresFree = s.host.wresFree) ∧
  (∀ (r : Rec) (p : Bool), (recBytes r p).length = 32 ∧ (recBytes r p).take 1 = [if p then 1 else 0]) ∧
  (∀ (s : State) (v : Fin 32), domUp s 1 = true → (tget s.host.regs.vecs v).count ≠ 0 → ∃ t,
    exec (.msixCoalTimeout v) s = .next t ∧ t.now = max s.now ((tget s.host.regs.vecs v).first + s.host.regs.coalTime.toNat * us) ∧
    t.out = s.out ++ [.msix v] ∧ (tget t.host.regs.vecs v).count = 0 ∧
    t.host = { s.host with regs := { s.host.regs with vecs := t.host.regs.vecs } } ∧ ChangesOnly [.now, .cue, .host, .out] s t)

/-- RECOVER (from R309 to R316) and PERST_n (from R307, R308, R691). -/
def Obligations.RecoverAndPerst : Prop :=
  (∀ (s : State) (v : Word), reach s .bar0 1 = true → isManager s = true →
    (s.host.recov = none → s.skid.live = 0 → ∃ t w, exec (.recover v) s = .next t ∧ t.epoch = s.epoch + 1 ∧ t.now = s.now ∧
      (∀ r : Ring, (getRing t r).en = false ∧ (getRing t r).head = (getRing s r).head) ∧
      (∀ g ∈ t.cue.pages, g.isAdm = true → g.st = .aborting) ∧
      t.host.recov = some w ∧ w.oldEpoch = s.epoch ∧ w.made = false ∧ w.perstAfter = false ∧ w.discard = v.getLsbD 1 ∧
      w.disarm = v.getLsbD 2 ∧
      (v.getLsbD 1 = true → v.getLsbD 2 = false → (∀ x ∈ s.host.waiting, x.rcd.epoch = s.epoch → x.rcd.kind = 6 ∨ x.rcd.kind = 7) →
        ∀ x ∈ t.host.staging, x.rcd.epoch = s.epoch → x.rcd.kind = 6 ∨ x.rcd.kind = 7)) ∧
    (s.host.recov.isSome = true → ∃ t, exec (.recover v) s = .next t ∧ t.epoch = s.epoch ∧ t.host.regs.recRefused = true ∧
      t.host.recov = s.host.recov ∧ t.host.staging = s.host.staging ∧ t.out = s.out ++ [.msix 31] ∧ ChangesOnly [.host, .out] s t)) ∧
  (∀ (s : State) (w : Recov), s.host.recov = some w → recoverDone s w = true → isManager s = true → (stgRoom s 10 none).isSome = true →
    ∃ t l r, exec .recoverRecord s = .next t ∧ t.host.recov = some { w with made := true } ∧ stagedRecs t = stagedRecs s ++ r :: l ∧
      r.kind = 10 ∧ r.epoch = s.epoch ∧ r.xb.getLsbD 0 = w.discard ∧ r.xb.getLsbD 1 = w.disarm ∧ r.xb.getLsbD 2 = s.aon.lost ∧
      r.body = leBytes 2 w.oldEpoch.toNat ++ leBytes 2 w.pagesAborted ++ leBytes 4 w.discarded ++ leBytes 1 w.disarmed ++
        List.replicate 7 0) ∧
  (∀ s : State, s.aon.por = false →
    (∃ t, exec .perstAssert s = .next t ∧ t.host = { s.host with perst := false, regs := HostR.reset } ∧
      ChangesOnly [.host, .fl] s t) ∧
    (∃ t, exec .perstRelease s = .next t ∧ ChangesOnly [.host] s t ∧ t.host = { s.host with
      perst := true, regs := { s.host.regs with needrec := true }
      recov := s.host.recov.map fun w => { w with perstAfter := true } }))

/-- Local memory (from R323 to R325, R331) and the host copy engine (from R333 to R335). -/
def Obligations.LocalMemoryRefreshAndCopies : Prop :=
  (∀ s : State, reach s .bar0 2 = true →
    exec .memInit s = .next { s with mem := { s.mem with frozen := true, training := true } }) ∧
  (∀ s : State, domUp s 2 = true →
    (s.mem.training = true → (∃ t, exec (.memTrainingDone none) s = .next t ∧ t.mem = memReady s.now s.mem ∧ t.mem.ready = true ∧
        t.mem.training = false ∧ t.mem.data = s.mem.data ∧ ChangesOnly [.mem] s t ∧
        (s.mem.ready = false → t.mem.readyAt = s.now ∧ t.mem.cyc = 0 ∧ t.mem.refAt = 0)) ∧
      ∀ f : Byte × Byte, ∃ t, exec (.memTrainingDone (some f)) s = .next t ∧
        t.mem = { s.mem with training := false, trainFail := true, ready := false } ∧ ChangesOnly [.mem, .lg, .fl, .host] s t) ∧
    (∃ t, exec .memRefresh s = .next t ∧ t.out = s.out ++ [.refresh] ∧ t.now = max s.now (refreshDue s) ∧
      t.mem = { s.mem with
        mult := t.mem.mult, refreshAt := t.now, cyc := t.mem.cyc, exclFrom := t.mem.exclFrom, exclTo := t.mem.exclTo } ∧
      (s.mem.ready = true → t.mem.cyc = nextCycle (timeTo (refreshDue s) s) + trfcCycles s ∧ t.mem.exclTo = t.mem.cyc) ∧
      t.mem.mult = BitVec.ofNat 2 (max (if s.therm.band.toNat < 4 then 0 else if s.therm.band.toNat < 6 then 1 else 2)
        (min 2 s.mem.mr4.toNat)) ∧ ChangesOnly [.now, .cue, .mem, .out] s t) ∧
    (∀ m : BitVec 2, ∃ t, exec (.mr4Poll m) s = .next t ∧ t.mem = { s.mem with mr4 := m } ∧
      t.now = max s.now (gridNext (getDom s 2).since (16 * ms) s) ∧ ChangesOnly [.now, .cue, .mem] s t) ∧
    (∀ (data : List Byte) (ok : Bool), s.mem.ready = false → exec (.memCopyDone data ok) s = .next s) ∧
    (∀ (h l len : Nat) (data : List Byte) (ok : Bool), s.mem.ready = true → s.mem.cpyCur = some (h, l, len, false) → Memory.wf s.mem.data = true →
      ∃ t, exec (.memCopyDone data ok) s = .next t ∧ t.mem.cpyCur = none ∧ t.mem.cpyDone = true ∧
        t.mem.cpyErr = (if ok = true ∧ len ≤ data.length then 0 else 0x21) ∧
        (∀ a : Nat, memGet t.mem.data a = if l ≤ a ∧ a < l + min len data.length ∧ a < usableBytes s then data.getD (a - l) 0
          else memGet s.mem.data a) ∧
        t.out = s.out ++ (if (ok = false ∨ data.length < len) ∧ isManager s = true then [.aer] else []) ∧
        ChangesOnly [.mem, .host, .fl, .out] s t) ∧
    (∀ (h l len : Nat) (data : List Byte), s.mem.ready = true → s.mem.cpyCur = some (h, l, len, true) → l + len ≤ usableBytes s →
      s.mem.poison.getLsbD 8 = false →
      ∃ t, exec (.memCopyDone data true) s = .next t ∧ t.mem = { s.mem with cpyCur := none, cpyDone := true, cpyErr := 0 } ∧
        t.out = s.out ++ [.hostWrite h (memRead s.mem.data l len)] ∧ ChangesOnly [.mem, .host, .fl, .out] s t)) ∧
  (∀ (s : State) (v : Word), reach s .bar0 2 = true →
    let m := s.mem
    let ok := 64 ≤ m.cpyLen.toNat ∧ m.cpyLen.toNat ≤ 16777216 ∧ m.cpyLen.toNat % 64 = 0 ∧ m.cpyLoc.toNat % 64 = 0 ∧
      m.cpyLoc.toNat < usableBytes s
    (m.cpyCur = none → m.ready = true → ok → exec (.memCopyGo v) s = .next { s with mem := { m with
      cpyDir := v.getLsbD 1, cpyCur := some (m.cpyHost.toNat, m.cpyLoc.toNat, m.cpyLen.toNat, v.getLsbD 1) } }) ∧
    (m.cpyCur.isSome = true ∨ m.ready = false → exec (.memCopyGo v) s = .next { s with mem := { m with
      cpyDir := v.getLsbD 1, cpyErr := 3, cpyDone := true } }) ∧
    (m.cpyCur = none → m.ready = true → ¬ ok → exec (.memCopyGo v) s = .next { s with mem := { m with
      cpyDir := v.getLsbD 1, cpyErr := 5, cpyDone := true } }))

/-- The Landing SRAM (from R285, R336 to R340). -/
def Obligations.LandingReservationsAndBarTwo : Prop :=
  (∀ (s : State) (n : Fin 10) (w : Bool) (v : Word), reach s .bar0 4 = true →
    let x : LandRes := if w then { tget s.rast.res n with slot := v.extractLsb' 0 12 }
      else { tget s.rast.res n with en := v.getLsbD 31, units := v.extractLsb' 8 8, base := v.extractLsb' 0 8 }
    (resActive s n = true → exec (.landResWrite n w v) s = .next s) ∧
    (resActive s n = false → resOk n x s.rast.res = false →
      exec (.landResWrite n w v) s = .next { s with rast := { s.rast with landErr := true } }) ∧
    (resActive s n = false → resOk n x s.rast.res = true → ∃ t, exec (.landResWrite n w v) s = .next t ∧
      t.rast = { s.rast with res := tset s.rast.res n x } ∧ ChangesOnly [.rast, .fl] s t)) ∧
  (∀ (s : State) (x : Nat) (d : List Byte), bar0Reach s = true → domUp s 4 = true → bar2Ok x d.length = true →
    Memory.wf s.rast.land = true → ∃ t, exec (.bar2Write x d) s = .next t ∧ t.rast = { s.rast with land := t.rast.land } ∧
    (∀ a : Nat, memGet t.rast.land a =
      if bar2Base s + x ≤ a ∧ a < bar2Base s + x + d.length ∧
        (∀ n : Fin 10, n ≠ 0 → (tget s.rast.res n).holds a = false) then d.getD (a - (bar2Base s + x)) 0
      else memGet s.rast.land a) ∧ ChangesOnly [.rast] s t) ∧
  (∀ (s : State) (x n : Nat), bar0Reach s = true → domUp s 4 = true → bar2Ok x n = true →
    let d := memRead s.rast.land (bar2Base s + x) n
    (∃ t, exec (.bar2Read x n .clean) s = .next t ∧ t.out = s.out ++ [.bar2Data d false] ∧ ChangesOnly [.out] s t) ∧
    (∃ t, exec (.bar2Read x n .corrected) s = .next t ∧ t.out = s.out ++ [.bar2Data d false] ∧
      t.rast = { s.rast with landCe := satInc s.rast.landCe } ∧ ChangesOnly [.out, .rast] s t) ∧
    (∃ t, exec (.bar2Read x n .uncorrectable) s = .next t ∧ t.out = s.out ++ [.bar2Data d true] ∧
      t.rast = { s.rast with landUe := satInc s.rast.landUe } ∧ ChangesOnly [.out, .rast, .lg, .fl, .host, .freeCount] s t))

/-- The arbiter (from R342 to R346, R351, R352). -/
def Obligations.ArbiterRoundsWindowsAndSnapshots : Prop :=
  (∀ (s : State) (reqs : BitVec 16) (a : Nat) (rd : Bool) (ecc : Ecc), domUp s 2 = true →
    (s.mem.ready = false → exec (.arbRound reqs a rd ecc) s = .next s) ∧
    (s.mem.ready = true → let c := roundCycle s
      let live := roundReqs (scrubPass (toCycle c s)) reqs
      ∃ t, exec (.arbRound reqs a rd ecc) s = .next t ∧ t.mem.data = s.mem.data ∧ t.mem.cyc = c + 1 ∧
      t.now = max s.now (s.mem.readyAt + cycleTicks s c) ∧ ChangesOnly [.now, .cue, .mem, .lg, .fl, .host, .freeCount] s t ∧
      ∀ n : Req, tget t.mem.req n = roundReq c live (beforeRound s live).req n)) ∧
  (∀ (reqs : BitVec 16) (v : Vector ReqS 16) (n : Req), arbWinner reqs v = some n ↔
    inRound reqs v n = true ∧ ∀ m : Req, inRound reqs v m = true →
      (tget v m).eff.toNat < (tget v n).eff.toNat ∨ ((tget v m).eff = (tget v n).eff ∧ n ≤ m)) ∧
  (∀ (c : Nat) (reqs : BitVec 16) (v : Vector ReqS 16) (n : Req),
    let r := tget v n
    let r' := roundReq c reqs v n
    (arbWinner reqs v = some n → r'.eff = r.base ∧ r'.grants = satInc r.grants ∧ r'.waits = r.waits ∧ r'.since = none ∧
      (∀ k, r.since = some k → r'.longest.toNat = max r.longest.toNat (min (c - k) 0xFFFFFFFF)) ∧
      r'.usedq = satInc r.usedq ∧ (12 ≤ r.base.toNat → (clampN 1 4095 r.q.toNat ≤ r'.usedq.toNat → r'.choke = true))) ∧
    (arbWinner reqs v ≠ some n → inRound reqs v n = true → r'.eff.toNat = min 15 (r.eff.toNat + 1) ∧ r'.waits = satInc r.waits ∧
      r'.grants = r.grants ∧ r'.usedq = r.usedq) ∧
    (inRound reqs v n = false → r' = r)) ∧
  (∀ (s : State) (n : Req), domUp s 2 = true → s.mem.ready = true → ∃ t, exec (.quotaWindowEnd n) s = .next t ∧
    tget t.mem.req n = { tget s.mem.req n with usedq := 0, choke := false, winAt := (tget t.mem.req n).winAt } ∧
    (tget s.mem.req n).winAt < (tget t.mem.req n).winAt ∧
    (tget t.mem.req n).winAt % windowOf (tget s.mem.req n) = 0 ∧
    (∀ m : Req, m ≠ n → tget t.mem.req m = tget s.mem.req m) ∧ t.mem = { s.mem with req := t.mem.req } ∧
    t.now = max s.now (s.mem.readyAt + cycleTicks s ((tget s.mem.req n).winAt + windowOf (tget s.mem.req n))) ∧
    ChangesOnly [.now, .cue, .mem] s t) ∧
  (∀ s : State, domUp s 2 = true → s.mem.ready = true → ∃ t, exec .arbReferenceWindow s = .next t ∧
    t.mem = { s.mem with req := t.mem.req, refAt := t.mem.refAt } ∧ s.mem.refAt < t.mem.refAt ∧ t.mem.refAt % 65536 = 0 ∧
    t.now = max s.now (s.mem.readyAt + cycleTicks s (s.mem.refAt + 65536)) ∧ ChangesOnly [.now, .cue, .mem] s t ∧ ∀ n : Req, (tget t.mem.req n).usedq = 0 ∧ (tget t.mem.req n).choke = false ∧
      (tget t.mem.req n).pend = none ∧ (tget t.mem.req n).grants = (tget s.mem.req n).grants ∧
      ((tget s.mem.req n).pend = none → (tget t.mem.req n).q = (tget s.mem.req n).q) ∧
      (∀ q w b, (tget s.mem.req n).pend = some (q, w, b) →
        (tget t.mem.req n).q = q ∧ (tget t.mem.req n).wlog = w ∧ (tget t.mem.req n).base = b)) ∧
  (∀ s : State, reach s .bar0 2 = true →
    (∃ t, exec .arbSnap s = .next t ∧ t.mem = { s.mem with req := t.mem.req } ∧ ChangesOnly [.mem] s t ∧
      ∀ n : Req, tget t.mem.req n = { tget s.mem.req n with
        snapGrants := (tget s.mem.req n).grants, snapWaits := (tget s.mem.req n).waits, snapLongest := (tget s.mem.req n).longest
        grants := 0, waits := 0, longest := 0 }) ∧
    (∀ v : Word, v.getLsbD 8 = false → ∃ t, exec (.arbPresetLoad v) s = .next t ∧
      t.mem = { s.mem with preset := v.extractLsb' 0 2, req := t.mem.req } ∧ ChangesOnly [.mem] s t ∧
      ∀ n : Req, tget t.mem.req n = if n.1 < 12 then { tget s.mem.req n with pend := some (presetReq (v.extractLsb' 0 2).toNat n.1) }
        else tget s.mem.req n))

/-- Flow instructions (from R207, R212, R213, R238, R254, R255, R275). That HALT must stay in its region, as any instruction that advances the PC, is read from R254 (log 18). -/
def Obligations.CueFlow : Prop :=
  (∀ (s : State) (c : Chan), Plain s c .nop → exec (.nop c) s = .next (withCh s c (past (getCh s c)))) ∧
  (∀ (s : State) (c : Chan) (d : BitVec 21), Issues s c (.jmp d) → (getCh s c).pfx = none →
    inRegion s c (getCh s c).pc.lib (branchOff (getCh s c) d) = true →
    exec (.jmp c) s = .next (withCh s c (stepped (getCh s c) ⟨(getCh s c).pc.lib, (branchOff (getCh s c) d).toNat⟩))) ∧
  (∀ (s : State) (c : Chan) (cc : BitVec 4) (d : BitVec 21),
    (Plain s c (.jcc cc d) → ccHolds cc (flagWord s c) = false → exec (.jcc c) s = .next (withCh s c (past (getCh s c)))) ∧
    (Issues s c (.jcc cc d) → (getCh s c).pfx = none → ccHolds cc (flagWord s c) = true →
      inRegion s c (getCh s c).pc.lib (branchOff (getCh s c) d) = true →
      exec (.jcc c) s = .next (withCh s c (stepped (getCh s c) ⟨(getCh s c).pc.lib, (branchOff (getCh s c) d).toNat⟩)))) ∧
  (∀ f : BitVec 16, let z := f.getLsbD 0; let n := f.getLsbD 1; let cy := f.getLsbD 2; let v := f.getLsbD 3; let w := f.getLsbD 4
    (List.range 16).map (fun k => ccHolds (BitVec.ofNat 4 k) f) =
      [z, !z, cy, !cy, n, !n, v, !v, n != v, n == v, z || n != v, !z && n == v, w, !w, cy || z, !cy && !z]) ∧
  (∀ (s : State) (c : Chan) (d : BitVec 21) (lib : Bool), Issues s c (.call lib d) → (getCh s c).pfx = none →
    (getCh s c).stack.length < 4 →
    let x := getCh s c
    let t : Int := if lib then 4 * d.toNat else branchOff x d
    let l := lib || x.pc.lib
    inRegion s c l t = true → exec (.call c) s =
      .next (withCh s c (stepped { x with stack := ⟨x.pc.lib, x.pc.off + 4⟩ :: x.stack } ⟨l, t.toNat⟩))) ∧
  (∀ (s : State) (c : Chan) (p : Pc) (l : List Pc), Issues s c .ret → (getCh s c).pfx = none → (getCh s c).stack = p :: l →
    inRegion s c p.lib p.off = true → exec (.ret c) s = .next (withCh s c (stepped { getCh s c with stack := l } p))) ∧
  (∀ (s : State) (c : Chan) (n : Slot) (d : BitVec 21), Issues s c (.loop n d) → (getCh s c).pfx = none →
    let x := getCh s c
    let r := chSlot x n - 1
    (r = 0 → Follows s c → exec (.loop c) s = .next (withCh s c (past { x with slots := tset x.slots n r }))) ∧
    (r ≠ 0 → inRegion s c x.pc.lib (branchOff x d) = true → exec (.loop c) s =
      .next (withCh s c (stepped { x with slots := tset x.slots n r } ⟨x.pc.lib, (branchOff x d).toNat⟩)))) ∧
  (∀ (s : State) (c : Chan), Plain s c .halt → pcrit s c = false → ∃ t, exec (.halt c) s = .next t ∧
    getCh t c = { past (getCh s c) with st := .halted } ∧ CueBut s t c ∧ ChangesOnly [.cue, .fl, .host] s t ∧
    Told s t (mkRec s 4 (srcOf s c) 0 0 (leBytes 4 (getCh s c).pc.shown ++ List.replicate 12 0))) ∧
  (∀ (s : State) (c : Chan) (gpio : Word) (b : Nat), canIssue s c = true → (getCh s c).blocked = some b → (getCh s c).pfx = none →
    Follows s c →
    (∀ n : Slot, presentI s c = some (some (.waitet n)) → ∃ t m, exec (.blockedInstructionResume c gpio) s = .next t ∧
      t.cue.et.toNat = max s.cue.et.toNat (pairOf (getCh s c) n).toNat ∧ CueBut { s with cue := { s.cue with et := t.cue.et } } t c ∧
      getCh t c = past { getCh s c with blocked := none, stats := { (getCh s c).stats with maxBlock := m } } ∧
      m.toNat = max (getCh s c).stats.maxBlock.toNat (min ((t.cue.et.toNat - b) / 8) 0xFFFFFFFF) ∧ ChangesOnly [.now, .cue] s t) ∧
    (∀ (a d : Slot) (e : ChEvent) (l : List ChEvent), presentI s c = some (some (.waitev false a d)) → (getCh s c).evq = e :: l →
      ∃ t m, exec (.blockedInstructionResume c gpio) s = .next (retTally (evFl c) t) ∧
        t = withCh s c (past { getCh s c with
          evq := l, slots := tset (tset (getCh s c).slots a (e.upper ++ e.code)) d e.payload
          blocked := none, stats := { (getCh s c).stats with maxBlock := m } })))

/-- Data instructions (from R208, R249, R257 to R259). -/
def Obligations.CueData : Prop :=
  (∀ (s : State) (c : Chan) (d : Slot) (v : BitVec 16),
    (Plain s c (.ldi d v) → exec (.ldi c) s = .next (withCh s c (past { getCh s c with slots := tset (getCh s c).slots d (v.setWidth 32) }))) ∧
    (Plain s c (.ldh d v) → ∃ w : Word, w.extractLsb' 16 16 = v ∧ w.extractLsb' 0 16 = (chSlot (getCh s c) d).extractLsb' 0 16 ∧
      exec (.ldh c) s = .next (withCh s c (past { getCh s c with slots := tset (getCh s c).slots d w })))) ∧
  (∀ (s : State) (c : Chan) (d a : Slot), Plain s c (.mov d a) →
    exec (.mov c) s = .next (withCh s c (past { getCh s c with slots := tset (getCh s c).slots d (chSlot (getCh s c) a) }))) ∧
  (∀ (s : State) (c : Chan) (d : Slot), Plain s c (.movFr d) → ∃ w : Word, (∀ k, k < 16 → w.getLsbD k =
      if k = 5 then pcrit s c else (getCh s c).flags.getLsbD k) ∧ w.toNat < 65536 ∧
    exec (.movFlagsRead c) s = .next (withCh s c (past { getCh s c with slots := tset (getCh s c).slots d w }))) ∧
  (∀ (s : State) (c : Chan) (a : Slot), Plain s c (.movFw a) → ∃ f : BitVec 16, (∀ k, k < 16 → f.getLsbD k =
      if k < 5 ∨ 12 ≤ k then (chSlot (getCh s c) a).getLsbD k else (getCh s c).flags.getLsbD k) ∧
    exec (.movFlagsWrite c) s = .next (withCh s c (past { getCh s c with flags := f }))) ∧
  (∀ (s : State) (c : Chan) (d : Slot) (r i : Byte), Plain s c (.movSt d r i) →
    let x := getCh s c
    (r = 0xFF → i = 0 → exec (.movStatus c) s = .next (withCh s c (past { x with
      etHi := s.cue.et.extractLsb' 32 32, slots := tset x.slots d (s.cue.et.setWidth 32) }))) ∧
    (r = 0xFF → i = 1 → exec (.movStatus c) s = .next (withCh s c (past { x with slots := tset x.slots d x.etHi }))) ∧
    (∀ v : Nat, r ≠ 0xFF → liveItem s r.toNat i.toNat = some v → exec (.movStatus c) s = .next (withCh s c (past { x with
      slots := tset x.slots d (if domUp s (resDom r.toNat) then BitVec.ofNat 32 v else 0) })))) ∧
  AluRow Instr.add .add true (fun a b v cy ov => v.toNat = (a.toNat + b.toNat) % 2 ^ 32 ∧ cy = decide (2 ^ 32 ≤ a.toNat + b.toNat) ∧
    ov = decide (a.toInt + b.toInt < -2147483648 ∨ 2147483647 < a.toInt + b.toInt)) ∧
  AluRow Instr.sub .sub true (fun a b v cy ov => v.toNat = (a.toNat + 2 ^ 32 - b.toNat) % 2 ^ 32 ∧ cy = decide (a.toNat < b.toNat) ∧
    ov = decide (a.toInt - b.toInt < -2147483648 ∨ 2147483647 < a.toInt - b.toInt)) ∧
  AluRow Instr.and .and false (fun a b v cy ov => (∀ k, v.getLsbD k = (a.getLsbD k && b.getLsbD k)) ∧ cy = false ∧ ov = false) ∧
  AluRow Instr.or .or false (fun a b v cy ov => (∀ k, v.getLsbD k = (a.getLsbD k || b.getLsbD k)) ∧ cy = false ∧ ov = false) ∧
  AluRow Instr.xor .xor false (fun a b v cy ov => (∀ k, v.getLsbD k = (a.getLsbD k != b.getLsbD k)) ∧ cy = false ∧ ov = false) ∧
  AluRow Instr.shl .shl false (fun a b v cy ov => v.toNat = a.toNat * 2 ^ (b.toNat % 32) % 2 ^ 32 ∧
    cy = (b.toNat % 32 != 0 && a.getLsbD (32 - b.toNat % 32)) ∧ ov = false) ∧
  AluRow Instr.shr .shr false (fun a b v cy ov => v.toNat = a.toNat / 2 ^ (b.toNat % 32) ∧
    cy = (b.toNat % 32 != 0 && a.getLsbD (b.toNat % 32 - 1)) ∧ ov = false) ∧
  (∀ (s : State) (c : Chan) (a : Slot) (b : Op2), Plain s c (.cmp a b) →
    let v := chSlot (getCh s c) a
    let w := op2Of (getCh s c) true b
    ∃ f, FlagsAre (getCh s c).flags f (v == w) (v - w).msb (decide (v.toNat < w.toNat))
        (decide (v.toInt - w.toInt < -2147483648 ∨ 2147483647 < v.toInt - w.toInt)) ∧
      exec (.cmp c) s = .next (withCh s c (past { getCh s c with flags := f }))) ∧
  (∀ (x : Channel) (g : Bool) (b : Slot) (v : BitVec 17), op2Of x g (.slot b) = tget x.slots b ∧
    (op2Of x true (.imm v)).toInt = v.toInt ∧ (op2Of x false (.imm v)).toNat = v.toNat) ∧
  (∀ (s : State) (c : Chan) (d a : Slot) (b : Op2),
    let x := getCh s c
    let w := (chSlot x a + op2Of x true b).toNat
    w % 4 = 0 → w + 4 ≤ 1024 →
    (Plain s c (.ldm d a b) → ∃ v : Word, v.toNat = (memGet x.scratch w).toNat + 256 * (memGet x.scratch (w + 1)).toNat +
        65536 * (memGet x.scratch (w + 2)).toNat + 16777216 * (memGet x.scratch (w + 3)).toNat ∧
      exec (.ldm c) s = .next (withCh s c (past { x with slots := tset x.slots d v }))) ∧
    (Plain s c (.stm d a b) → Memory.wf x.scratch = true → ∃ m : Mem, Memory.wf m = true ∧
      (∀ k : Nat, memGet m k = if w ≤ k ∧ k < w + 4 then (chSlot x d).extractLsb' (8 * (k - w)) 8 else memGet x.scratch k) ∧
      exec (.stm c) s = .next (withCh s c (past { x with scratch := m }))))

/-- Time, flume, FENCE and LOG instructions (from R22, R213, R235, R252, R253, R267, R269 to R273, R276, R610, R611). That WAITEV
sets and clears WB like the other N forms is read from R253 (log 17). -/
def Obligations.CueWaitsAndFlumes : Prop :=
  (∀ (s : State) (c : Chan) (n : Slot), Plain s c (.waitet n) →
    exec (.waitet c) s = .next (withCh s c (if (pairOf (getCh s c) n).toNat ≤ s.cue.et.toNat then past (getCh s c)
      else blockedCh s (getCh s c)))) ∧
  (∀ (s : State) (c : Chan) (k : Trk) (n : Slot) (ph : BitVec 10), Plain s c (.waitth k n ph) →
    let go : Prop := if (getTrk s k).st = .locked then trkTarget (getTrk s k) (chSlot (getCh s c) n) ph ≤ s.cue.et.toNat
      else ph = 0 ∧ (chSlot (getCh s c) n - (getTrk s k).index).toInt ≤ 0
    (getTrk s k).st = .locked ∨ (getTrk s k).st = .acquire →
    (go → exec (.waitth c) s = .next (withCh s c (past (getCh s c)))) ∧
    (¬ go → exec (.waitth c) s = .next (withCh s c (blockedCh s (getCh s c))))) ∧
  (∀ (s : State) (c : Chan) (nb : Bool) (a b : Slot), Plain s c (.waitev nb a b) →
    ((getCh s c).evq = [] → exec (.waitev c) s = .next (wouldBlock s c nb)) ∧
    (∀ (e : ChEvent) (l : List ChEvent), (getCh s c).evq = e :: l → exec (.waitev c) s =
      .next (retTally (evFl c) (withCh s c (past (wbDone nb { getCh s c with
        evq := l, slots := tset (tset (getCh s c).slots a (e.upper ++ e.code)) b e.payload })))))) ∧
  (∀ (s : State) (c : Chan) (pol : BitVec 2) (cpl rel : Bool) (n : Slot), Plain s c (.at_ pol cpl rel n) →
    let x := getCh s c
    let t : DWord := if rel then x.lastAt + (chSlot x n).setWidth 64 else pairOf x n
    exec (.atPfx c) s = .next (withCh s c { past { x with lastAt := t } with pfx := some { target := .abs t.toNat, pol := pol, cpl := cpl } })) ∧
  (∀ (s : State) (c : Chan) (pol : BitVec 2) (cpl : Bool) (k : Trk) (n : Slot) (ph : BitVec 10), Plain s c (.atth pol cpl k n ph) →
    exec (.atthPfx c) s = .next (withCh s c { past (getCh s c) with
      pfx := some { target := .tooth k (chSlot (getCh s c) n) ph, pol := pol, cpl := cpl } })) ∧
  (∀ (s : State) (c : Chan) (nb : Bool) (k : Byte) (a : Slot), Plain s c (.push nb k a) → (getFl s stgFl).down = false →
    let x := getCh s c
    let w := (chSlot x a).toNat
    let room := heldOn x stgFl ≠ 0 ∨ openTallies s c stgFl ≠ 0 ∧ ordinaryWaits s = false
    w % 4 = 0 → w + 16 ≤ 1024 →
    (¬ room → exec (.push c) s = .next (wouldBlock s c nb)) ∧
    (room → ordinaryWaits s = false → ∃ t, exec (.push c) s = .next t ∧ getCh t c = past (wbDone nb (usedOne x stgFl)) ∧
      Told s t (mkRec s 5 (srcOf s c) 0 k (memRead x.scratch w 16)) ∧ CueBut s t c ∧ ChangesOnly [.cue, .fl, .host] s t) ∧
    (room → ordinaryWaits s = true → ∃ t, exec (.push c) s = .next t ∧ (getCh t c).pc = (past x).pc ∧
      (getCh t c).held = (usedOne x stgFl).held ∧ LastTold t (mkRec s 5 (srcOf s c) 0 k (memRead x.scratch w 16)))) ∧
  (∀ (s : State) (c : Chan) (nb : Bool) (a : Slot), Plain s c (.pop nb a) → (getFl s (mbxFl c)).down = false →
    let x := getCh s c
    let w := (chSlot x a).toNat
    w % 4 = 0 → w + 64 ≤ 1024 →
    (x.mailbox = [] → exec (.pop c) s = .next (wouldBlock s c nb)) ∧
    (∀ (e : List Byte) (l : List (List Byte)), x.mailbox = e :: l → exec (.pop c) s = .next (retTally (mbxFl c)
      (withCh s c (past (wbDone nb { x with mailbox := l, scratch := memWrite x.scratch w (e.take 64) })))))) ∧
  (∀ (s : State) (c : Chan) (nb : Bool) (r k : Byte) (f : FlumeId), Plain s c (.take nb r k) → takeFlume c r.toNat = some f →
    takeUngranted s c r.toNat = false → 1 ≤ k.toNat → k.toNat ≤ 16 → takeOver s (getCh s c) f k.toNat = false →
    (getFl s f).down = false → (getCh s c).taking = none →
    let x := getCh s c
    let n := min k.toNat (openTallies s c f)
    (n = k.toNat → ∃ t, exec (.take c) s = .next t ∧ CueBut s t c ∧ ChangesOnly [.cue, .fl] s t ∧
      getCh t c = past (wbDone nb { x with held := x.held.filter (·.1 != f) ++ [(f, heldOn x f + n)] }) ∧
      (getFl t f).tally = (getFl s f).tally - n ∧ ∀ g : FlumeId, g ≠ f → getFl t g = getFl s g) ∧
    (n < k.toNat → nb = true → exec (.take c) s = .next (wouldBlock s c nb)) ∧
    (n < k.toNat → nb = false → ∃ t, exec (.take c) s = .next t ∧ CueBut s t c ∧ ChangesOnly [.cue, .fl] s t ∧
      getCh t c = blockedCh s { x with taking := some (f, n) } ∧
      (getFl t f).tally = (getFl s f).tally - n ∧ ∀ g : FlumeId, g ≠ f → getFl t g = getFl s g)) ∧
  (∀ (s : State) (c : Chan) (r k : Byte) (f : FlumeId), Plain s c (.give r k) → takeFlume c r.toNat = some f →
    takeUngranted s c r.toNat = false → 1 ≤ k.toNat → k.toNat ≤ 16 → k.toNat ≤ heldOn (getCh s c) f → (getFl s f).down = false →
    let x := getCh s c
    let n := heldOn x f - k.toNat
    ∃ t, exec (.give c) s = .next t ∧ CueBut s t c ∧ ChangesOnly [.cue, .fl] s t ∧
      getCh t c = past { x with held := x.held.filter (·.1 != f) ++ (if n = 0 then [] else [(f, n)]) } ∧
      getFl t f = { getFl s f with ret := (getFl s f).ret + k.toNat } ∧ ∀ g : FlumeId, g ≠ f → getFl t g = getFl s g) ∧
  (∀ (s : State) (c : Chan) (k : BitVec 4), Plain s c (.fence k) → fenceDown s c k = false →
    let isOver := (k.getLsbD 0 = true → (getCh s c).actq = []) ∧ (k.getLsbD 1 = true → segsOf s c = false) ∧
      (k.getLsbD 2 = true → spsOf s c = false) ∧ (k.getLsbD 3 = true → userOf s c = false)
    (isOver → exec (.fence c) s = .next (withCh s c (past (getCh s c)))) ∧
    (¬ isOver → exec (.fence c) s = .next (withCh s c (blockedCh s (getCh s c))))) ∧
  (∀ (s : State) (c : Chan) (m : Fin 4) (k : Byte) (a b : Slot), Plain s c (.log m k a b) →
    (openTallies s c logFl = 0 ∨ s.lg.latches ≠ [] → exec (.log c) s = .next (withCh s c (blockedCh s (getCh s c)))) ∧
    (openTallies s c logFl ≠ 0 → s.lg.latches = [] → ∃ t, exec (.log c) s = .next t ∧ t = { withCh s c (past (getCh s c)) with
      lg := { s.lg with queue := s.lg.queue ++ [⟨m, BitVec.ofNat 16 (0xC000 + k.toNat), srcOf s c, etNow s, aont s,
        chSlot (getCh s c) a, chSlot (getCh s c) b⟩] }
      fl := t.fl } ∧ (getFl t logFl).tally = (getFl s logFl).tally - 1 ∧ ∀ g : FlumeId, g ≠ logFl → getFl t g = getFl s g))

/-- Faults (from R214, R232, R250, R254, R255, R256, R258 to R260, R270, R273, R275, R276, R281). The order among several
faults of one instruction, and a row whose instruction is not at the PC changing nothing, are the model's choices (logs 1, 17). -/
def Obligations.CueFaults : Prop :=
  (∀ (s : State) (c : Chan), canIssue s c = true →
    (presentI s c = some none → ∃ t, exec (.illegalOpcode c) s = .next t ∧ FaultTaken s t c 0x0001) ∧
    (presentI s c = none → ∃ t, exec (.illegalOpcode c) s = .next t ∧ FaultTaken s t c 0x0002) ∧
    ((∃ i, presentI s c = some (some i)) → exec (.illegalOpcode c) s = .next s)) ∧
  (∀ (s : State) (c : Chan) (k : Byte), Issues s c (.trap k) → (getCh s c).pfx = none →
    ∃ t, exec (.trap c) s = .next t ∧ FaultTaken s t c (0x8000 + k.toNat)) ∧
  (∀ (s : State) (c : Chan) (i : CueI), Issues s c i → (getCh s c).pfx.isSome = true → timable i = false → RowFaults s c i 0x0006) ∧
  (∀ (s : State) (c : Chan) (i j : CueI) (g h : Word), presentI s c = some (some i) → rowOf i c g ≠ rowOf j c g →
    exec (rowOf j c h) s = .next s) ∧
  (∀ (s : State) (c : Chan) (i : CueI) (g : Word), canIssue s c = false → exec (rowOf i c g) s = .next s ∧
    exec (.blockedInstructionResume c g) s = .next s ∧ exec (.illegalOpcode c) s = .next s) ∧
  (∀ (s : State) (c : Chan), (getCh s c).pfx = none →
    (Issues s c .nop → ¬ Follows s c → RowFaults s c .nop 0x0002) ∧
    (∀ d, Issues s c (.jmp d) → inRegion s c (getCh s c).pc.lib (branchOff (getCh s c) d) = false → RowFaults s c (.jmp d) 0x0002) ∧
    (∀ lib d, Issues s c (.call lib d) → 4 ≤ (getCh s c).stack.length → RowFaults s c (.call lib d) 0x0003) ∧
    (∀ d, Issues s c (.call true d) → (getCh s c).stack.length < 4 →
      (libLen s ≤ 4 * d.toNat → RowFaults s c (.call true d) 0x0005) ∧
      (4 * d.toNat < libLen s → inRegion s c true (4 * d.toNat : Nat) = false → RowFaults s c (.call true d) 0x0002)) ∧
    (Issues s c .ret → (getCh s c).stack = [] → RowFaults s c .ret 0x0003) ∧
    (Issues s c .halt → pcrit s c = true → RowFaults s c .halt 0x000F) ∧
    (Issues s c .halt → pcrit s c = false → ¬ Follows s c → RowFaults s c .halt 0x0002) ∧
    (∀ d r i, Issues s c (.movSt d r i) → (r ≠ 0xFF → liveItem s r.toNat i.toNat = none) → (r = 0xFF → i ≠ 0 ∧ i ≠ 1) →
      RowFaults s c (.movSt d r i) 0x0008) ∧
    (∀ d a b, Issues s c (.ldm d a b) ∨ Issues s c (.stm d a b) →
      let w := (chSlot (getCh s c) a + op2Of (getCh s c) true b).toNat
      w % 4 ≠ 0 ∨ 1024 < w + 4 → (Issues s c (.ldm d a b) → RowFaults s c (.ldm d a b) 0x0004) ∧
        (Issues s c (.stm d a b) → RowFaults s c (.stm d a b) 0x0004)) ∧
    (∀ k n ph, Issues s c (.waitth k n ph) → (getTrk s k).st = .off ∨ (getTrk s k).st = .lost →
      RowFaults s c (.waitth k n ph) 0x0021) ∧
    (∀ nb k a, Issues s c (.push nb k a) →
      let w := (chSlot (getCh s c) a).toNat
      (w % 4 ≠ 0 ∨ 1024 < w + 16 → RowFaults s c (.push nb k a) 0x0004) ∧
      (w % 4 = 0 → w + 16 ≤ 1024 → (getFl s stgFl).down = true → RowFaults s c (.push nb k a) 0x000C)) ∧
    (∀ nb a, Issues s c (.pop nb a) →
      let w := (chSlot (getCh s c) a).toNat
      (w % 4 ≠ 0 ∨ 1024 < w + 64 → RowFaults s c (.pop nb a) 0x0004) ∧
      (w % 4 = 0 → w + 64 ≤ 1024 → (getFl s (mbxFl c)).down = true → RowFaults s c (.pop nb a) 0x000C)) ∧
    (∀ nb r k, Issues s c (.take nb r k) →
      (takeFlume c r.toNat = none → RowFaults s c (.take nb r k) 0x0008) ∧
      (∀ f, takeFlume c r.toNat = some f → takeUngranted s c r.toNat = true → RowFaults s c (.take nb r k) 0x0009) ∧
      (∀ f, takeFlume c r.toNat = some f → takeUngranted s c r.toNat = false →
        k.toNat = 0 ∨ 16 < k.toNat ∨ takeOver s (getCh s c) f k.toNat = true → RowFaults s c (.take nb r k) 0x000E) ∧
      (∀ f, takeFlume c r.toNat = some f → takeUngranted s c r.toNat = false → 1 ≤ k.toNat → k.toNat ≤ 16 →
        takeOver s (getCh s c) f k.toNat = false → (getFl s f).down = true → RowFaults s c (.take nb r k) 0x000C)) ∧
    (∀ r k, Issues s c (.give r k) →
      (takeFlume c r.toNat = none → RowFaults s c (.give r k) 0x0008) ∧
      (∀ f, takeFlume c r.toNat = some f → takeUngranted s c r.toNat = true → RowFaults s c (.give r k) 0x0009) ∧
      (∀ f, takeFlume c r.toNat = some f → takeUngranted s c r.toNat = false →
        k.toNat = 0 ∨ 16 < k.toNat ∨ heldOn (getCh s c) f < k.toNat → RowFaults s c (.give r k) 0x000E))) ∧
  (∀ (s : State) (k : Fin 8), domUp s 3 = true →
    exec (.cueUncorrectableEcc k) s = .next { s with cue := { s.cue with
      coreStopped := withBit s.cue.coreStopped k.1 true, stopAt := if s.cue.coreStopped = 0 then s.now else s.cue.stopAt } } ∧
    ∀ t (c : Chan), exec (.cueUncorrectableEcc k) s = .next t → c.1 / 8 = k.1 → canIssue t c = false)

/-- Timed engine instructions (from R134, R137, R142 to R144, R151, R260 to R265, R272). -/
def Obligations.TimedEngineInstructions : Prop :=
  ∀ (s : State) (c : Chan) (i : CueI) (op : ActOp) (p : Pfx) (gpio : Word), Issues s c i → Follows s c → (getCh s c).pfx = some p →
    EngineForm s c i op → ActsOk s → (∃ b, rowOf i c gpio = .move b ∨ rowOf i c gpio = .movx b ∨ rowOf i c gpio = .setp b ∨
      rowOf i c gpio = .ramp b ∨ rowOf i c gpio = .loopon b ∨ rowOf i c gpio = .loopoff b ∨ rowOf i c gpio = .fire b ∨
      rowOf i c gpio = .strobe b ∨ rowOf i c gpio = .scanl b ∨ rowOf i c gpio = .sig b) ∧
    let fl := timedFlumes s c op
    let e := s.cue.et.toNat
    let open_ := fl.all fun f => !(getFl s f).down
    let room := open_ = true ∧ fl.all (roomIn s c) = true
    (open_ = false → RowFaults s c i 0x000C) ∧
    (open_ = true → fl.all (roomIn s c) = false → ∃ n, exec (rowOf i c gpio) s = .next { wouldBlock s c (nbOf i) with freeCount := n }) ∧
    (∀ t : Nat, room → p.target = .abs t → e + 8 < t → ∃ u a, exec (rowOf i c gpio) s = .next u ∧ Queued s u c (nbOf i) p op a ∧
      a.et = some t ∧ a.frozen = true ∧ a.held = false ∧ a.late = false) ∧
    (∀ o : Option Nat, room →
      (∃ t : Nat, p.target = .abs t ∧ t ≤ e + 8 ∧ o = some t) ∨
      (∃ k n ph, p.target = .tooth k n ph ∧ (getTrk s k).st = .locked ∧ trkTarget (getTrk s k) n ph ≤ (e : Int) + 8 ∧
        o = some (trkTarget (getTrk s k) n ph).toNat) ∨
      (∃ k n ph, p.target = .tooth k n ph ∧ (getTrk s k).st = .acquire ∧ ph = 0 ∧ toothStarted (getTrk s k) n = true ∧ o = none) →
      ∃ u v a y, exec (rowOf i c gpio) s = .next v ∧ Queued s u c (nbOf i) p op a ∧
      a.et = o ∧ a.late = true ∧ a.frozen = false ∧ a.held = false ∧
      (a.pol = .drop → Told u v (actionRec u a 1 0 y)) ∧
      (a.pol = .fault → (getCh v c).faultCode = 0x20 ∧ (getCh v c).fpc = (getCh s c).pc.shown ∧
        actionRec u a 2 0x20 y ∈ stagedRecs v ++ waitingRecs v) ∧
      (a.pol = .fireNow → v = dispatchNow c a.id u)) ∧
    (∀ (k : Trk) (n : Word) (ph : BitVec 10), room → p.target = .tooth k n ph →
      let x := trkTarget (getTrk s k) n ph
      ((getTrk s k).st = .locked → (e : Int) + 8 < x → ∃ u a, exec (rowOf i c gpio) s = .next u ∧ Queued s u c (nbOf i) p op a ∧
        a.et = some x.toNat ∧ a.held = false ∧ a.late = false ∧
        (a.frozen = true ↔ guardTick (getTrk s k) x ≤ e)) ∧
      ((getTrk s k).st = .acquire → ¬ (ph = 0 ∧ toothStarted (getTrk s k) n = true) → ∃ u a, exec (rowOf i c gpio) s = .next u ∧
        Queued s u c (nbOf i) p op a ∧ a.et = none ∧ a.held = true ∧ a.frozen = false) ∧
      ((getTrk s k).st = .off ∨ (getTrk s k).st = .lost → ∃ v, exec (rowOf i c gpio) s = .next v ∧
        (getCh v c).faultCode = 0x21 ∧ (getCh v c).fpc = (getCh s c).pc.shown ∧
        ∃ r ∈ stagedRecs v ++ waitingRecs v, r.kind = 2 ∧ r.src = srcOf s c ∧ r.xb.toNat / 64 = 2)) ∧
    let page := (opTag s c op).map (·.1.adm)
    (page.isSome = true → policyOf s c page p.pol = .fault) ∧
    (page = none →
      let q := if p.pol = 0 then (getCh s c).entry.lateDef else p.pol
      policyOf s c page p.pol = if q = 2 then .drop else if q = 3 then .fault else .fireNow)

/-- Untimed engine instructions (from R242, R243, R263, R268, R272, R277, R468, R491, R586) and their faults (from R241, R243, R261). -/
def Obligations.UntimedEngineInstructionsAndFaults : Prop :=
  (∀ (s : State) (c : Chan) (i : CueI) (op : ActOp) (gpio : Word), Issues s c i → Follows s c → (getCh s c).pfx = none →
    EngineForm s c i op →
    let x := getCh s c
    let done := past (wbDone (nbOf i) x)
    (∀ f : FlumeId, actDest s op = some f → (∀ k, op ≠ .scanl k) →
      ((getFl s f).down = true → RowFaults s c i 0x000C) ∧
      ((getFl s f).down = false → roomIn s c f = false →
        ∃ n, exec (rowOf i c gpio) s = .next { wouldBlock s c (nbOf i) with freeCount := n }) ∧
      ((getFl s f).down = false → roomIn s c f = true → ∃ t, exec (rowOf i c gpio) s = .next t ∧
        (entryReject s op = none →
          ∀ g : FlumeId, (getFl t g).tally = if g = f ∧ heldOn x f = 0 then (getFl s f).tally - 1 else (getFl s g).tally) ∧
        (∀ m g b, op = .seg m g b → getCh t c = past (wbDone (nbOf i) (usedOne x f)) ∧ CueBut s t c ∧
          ChangesOnly [.cue, .fl, .motn] s t ∧
          (∀ n, motKind m = .inl n → t.motn = if (getStep s n).stopNew then s.motn else
            { s.motn with step := tset s.motn.step n { getStep s n with
              q := (getStep s n).q ++ [{ g with enteredAt := s.now }], lastTarget := if g.home then 0 else g.target } }) ∧
          (∀ k, motKind m = .inr k → t.motn = if (getBldc s k).stopNew then s.motn else
            { s.motn with bldc := tset s.motn.bldc k { getBldc s k with
              q := (getBldc s k).q ++ [{ g with enteredAt := s.now }] } })) ∧
        (∀ l e code, op = .setp l e ∨ op = .ramp l e → entryFault (getLoop s l) = some code →
          (getCh t c).faultCode = BitVec.ofNat 16 code ∧ (getCh t c).fpc = e.pc) ∧
        (∀ l e, op = .setp l e ∨ op = .ramp l e → entryFault (getLoop s l) = none → getCh t c = past (wbDone (nbOf i) (usedOne x f)) ∧ CueBut s t c ∧
          ChangesOnly [.cue, .fl, .loops, .freeCount] s t ∧
          t.loops = { s.loops with slot := tset s.loops.slot l { getLoop s l with q := (getLoop s l).q ++ [e] } }) ∧
        (∀ d k v, op = .sig d k v → d.toNat / 64 = devNum s → ∃ m : Chan, m.1 = d.toNat % 64 ∧
          (getCh t m).evq = (getCh s m).evq ++ [⟨(BitVec.ofNat 16 (devNum s * 64 + c.1)), k.setWidth 16, v⟩] ∧
          (getCh t c).pc = done.pc ∧ (getCh t c).held = (usedOne x f).held ∧ ChangesOnly [.cue, .fl] s t) ∧
        (∀ d k v, op = .sig d k v → d.toNat / 64 ≠ devNum s → ∃ q : SkidPort, (q = 0 ↔ d.toNat / 64 < devNum s) ∧
          (tget t.skid.port q).unacked = (tget s.skid.port q).unacked ++ [.sig (BitVec.ofNat 9 (devNum s * 64 + c.1)) d k v] ∧
          getCh t c = past (wbDone (nbOf i) (usedOne x f)) ∧ CueBut s t c ∧ ChangesOnly [.cue, .fl, .skid, .out] s t))) ∧
    (∀ g v o, op = .gpio g v o → ∃ (t : State) (d : Nat) (y : GpioS), d ≤ 16 ∧ exec (rowOf i c gpio) s = .next t ∧
      t = { withCh s c done with cue := { (withCh s c done).cue with gpio := tset s.cue.gpio g y } } ∧ y.divert = false ∧
      (y.out, y.level) = gpioNow s.now (tget s.cue.gpio g) ∧
      y.next = (tget s.cue.gpio g).next.filter (fun n => decide (s.now < n.1)) ++ [(s.now + d, v, o)]) ∧
    (∀ (k : Nat) (y : GpioS) (v o : Bool), (∀ n ∈ y.next, n.1 ≤ k) → gpioNow k { y with next := y.next ++ [(k, v, o)] } = (o, v)) ∧
    (∀ l g, op = .loopon l g → domUp s 7 = true →
      (∀ code, loopOnFault s l = some code → RowFaults s c i code) ∧
      (loopOnFault s l = none → ∃ t, exec (rowOf i c gpio) s = .next t ∧ getCh t c = done ∧ CueBut s t c ∧ ChangesOnly [.cue, .loops] s t ∧
        (∀ k : LoopId, k ≠ l → getLoop t k = getLoop s k) ∧
        ((getLoop s l).st = .run → getLoop t l = { getLoop s l with gNext := some g }) ∧
        ((getLoop s l).st ≠ .run → (getLoop t l).st = .run ∧ (getLoop t l).g = g ∧ (getLoop t l).i = 0 ∧ (getLoop t l).sp = 0 ∧
          (getLoop t l).target = 0 ∧ (getLoop t l).locked = false ∧ (getLoop t l).q = (getLoop s l).q ∧
          (getLoop t l).u = (getLoop s l).u ∧ (getLoop t l).owner = some c))) ∧
    (∀ l, op = .loopoff l → domUp s 7 = true → ∃ t, exec (rowOf i c gpio) s = .next t ∧ getCh t c = done ∧ CueBut s t c ∧
      ChangesOnly [.cue, .loops, .fl] s t ∧ (∀ k : LoopId, k ≠ l → getLoop t k = getLoop s k) ∧
      ((getLoop s l).st ≠ .run → getLoop t l = getLoop s l) ∧
      ((getLoop s l).st = .run → (getLoop t l).st = .off ∧ (getLoop t l).q = [] ∧ (getLoop t l).locked = false ∧
        (getLoop t l).u = if (getLoop s l).kind = 4 then (getLoop s l).u else 0)) ∧
    (∀ l g, op = .loopon l g ∨ op = .loopoff l → domUp s 7 = false → RowFaults s c i 0x000C)) ∧
  (∀ (s : State) (c : Chan) (nb e : Bool) (id k : Byte) (a b : Slot),
    let bad := fun i : CueI => Issues s c i → RowFaults s c i 0x0008
    let loop := 20 ≤ id.toNat ∧ id.toNat < 68
    (20 ≤ id.toNat → bad (.move nb id k a) ∧ bad (.movx nb id a)) ∧
    (¬ loop → bad (.ramp nb e id k a b) ∧ bad (.loopon nb e id k a) ∧ bad (.loopoff nb id)) ∧
    (¬ loop → ¬ (90 ≤ id.toNat ∧ id.toNat < 122) → bad (.setp nb e id a)) ∧
    (¬ (84 ≤ id.toNat ∧ id.toNat < 88) → bad (.fire nb id)) ∧ (id.toNat ≠ 88 → bad (.strobe nb id)) ∧
    (∀ q, id.toNat ≠ 89 → bad (.scanl nb id q)) ∧
    (holder s id.toNat ≠ some c →
      let not := fun i : CueI => Issues s c i → RowFaults s c i 0x0009
      (id.toNat < 20 → not (.move nb id k a) ∧ not (.movx nb id a)) ∧
      (loop → not (.setp nb e id a) ∧ not (.ramp nb e id k a b) ∧ not (.loopon nb e id k a) ∧ not (.loopoff nb id)) ∧
      (90 ≤ id.toNat → id.toNat < 122 → not (.setp nb false id a)) ∧ (84 ≤ id.toNat → id.toNat < 88 → not (.fire nb id)) ∧
      (id.toNat = 88 → not (.strobe nb id)) ∧ (∀ q, id.toNat = 89 → not (.scanl nb id q))) ∧
    (holder s id.toNat = some c → (getCh s c).entry.expert = false →
      (id.toNat < 20 → Issues s c (.movx nb id a) → RowFaults s c (.movx nb id a) 0x000A) ∧
      (loop → (Issues s c (.setp nb true id a) → RowFaults s c (.setp nb true id a) 0x000A) ∧
        (Issues s c (.ramp nb true id k a b) → RowFaults s c (.ramp nb true id k a b) 0x000A))) ∧
    (90 ≤ id.toNat → id.toNat < 122 → Issues s c (.setp nb true id a) → RowFaults s c (.setp nb true id a) 0x0001) ∧
    (s.boot.preset = none → holder s id.toNat = some c →
      let lacks := fun i : CueI => Issues s c i → RowFaults s c i 0x000B
      (id.toNat < 20 → lacks (.move nb id k a)) ∧
      (loop → lacks (.setp nb false id a) ∧ lacks (.ramp nb false id k a b) ∧ lacks (.loopoff nb id)) ∧
      (90 ≤ id.toNat → id.toNat < 122 → lacks (.setp nb false id a)) ∧ (84 ≤ id.toNat → id.toNat < 88 → lacks (.fire nb id)) ∧
      (id.toNat = 88 → lacks (.strobe nb id)) ∧
      (∀ q, id.toNat = 89 → holder s s.scan.mode.stepper.toNat = some c → lacks (.scanl nb id q))) ∧
    (s.boot.preset ≠ none → holder s id.toNat = some c → (getCh s c).pfx = none →
      (84 ≤ id.toNat → id.toNat < 88 → Issues s c (.fire nb id) → RowFaults s c (.fire nb id) 0x0007) ∧
      (id.toNat = 88 → Issues s c (.strobe nb id) → RowFaults s c (.strobe nb id) 0x0007) ∧
      (∀ q, id.toNat = 89 → holder s s.scan.mode.stepper.toNat = some c → Issues s c (.scanl nb id q) →
        RowFaults s c (.scanl nb id q) 0x0007)) ∧
    (chanRuns s ((chSlot (getCh s c) a).extractLsb' 0 9) = false → Issues s c (.sig nb k a b) → RowFaults s c (.sig nb k a b) 0x000D))

/-- COMMIT and ABORT (from R279, R280, R569, R570, R573 to R575, R580). -/
def Obligations.CommitAndAbort : Prop :=
  (∀ (s : State) (c : Chan) (nb : Bool) (a b : Slot) (gpio : Word) (g : Page), Plain s c (.admitPl nb a b) →
    pageByHandle s (chSlot (getCh s c) a) = some g → g.names c = true →
    let x := getCh s c
    let m := unmetMask s g gpio
    (g.isAdm = true → exec (.commitAdmit c gpio) s = .next (withCh s c (past (wbDone nb { x with slots := tset x.slots b g.adm })))) ∧
    (g.isAdm = false → m = 0 → ∃ t h, exec (.commitAdmit c gpio) s = .next t ∧ ChangesOnly [.cue, .nv] s t ∧
      getCh t c = past (wbDone nb { x with slots := tset x.slots b s.cue.nextAdm }) ∧ (∀ d : Chan, d ≠ c → getCh t d = getCh s d) ∧
      t.cue.nextAdm = s.cue.nextAdm + 1 ∧ t.cue.gpioIn = gpio ∧ pageByHandle t g.handle = some h ∧
      h.st = .admitted ∧ h.adm = s.cue.nextAdm ∧ h.epoch = s.epoch ∧ h.plan = g.plan ∧ h.unmet = 0 ∧
      (∀ k : Station, tget h.loff k = (getStn s k).loff) ∧ tget t.cue.lastAdm (Fin.ofNat 4 g.plan.path.toNat) = some s.cue.et.toNat ∧
      (∀ q ∈ s.cue.pages, q.handle ≠ g.handle → q ∈ t.cue.pages) ∧
      t.nv = { s.nv with queue := s.nv.queue ++ [.usage g.plan.usage] }) ∧
    (g.isAdm = false → m ≠ 0 → ∃ t h, exec (.commitAdmit c gpio) s = .next t ∧ ChangesOnly [.cue] s t ∧
      getCh t c = (if nb then past { x with slots := tset x.slots b (m.setWidth 32), flags := withBit x.flags 4 true } else blockedCh s x) ∧
      (∀ d : Chan, d ≠ c → getCh t d = getCh s d) ∧ pageByHandle t g.handle = some h ∧ h = { g with unmet := m } ∧
      t.cue.nextAdm = s.cue.nextAdm)) ∧
  (∀ (s : State) (c : Chan) (nb : Bool) (a b : Slot) (gpio : Word),
    (∀ g, pageByHandle s (chSlot (getCh s c) a) = some g → g.names c = false) → (getCh s c).pfx = none →
    (Issues s c (.admitPl nb a b) → RowFaults s c (.admitPl nb a b) 0x0010) ∧
    (canIssue s c = true → presentI s c = some (some (.admitPl nb a b)) → (getCh s c).blocked.isSome = true →
      pageByHandle s (chSlot (getCh s c) a) = none →
      ∃ t, exec (.blockedInstructionResume c gpio) s = .next t ∧ FaultTaken s t c 0x00A0)) ∧
  (∀ (s : State) (c : Chan) (a : Slot), (getCh s c).pfx = none →
    (∀ g : Page, Plain s c (.done a) → pageByAdm s (chSlot (getCh s c) a) = some g → g.names c = true → g.doneBy.contains c = false →
      ∃ u, exec (.commitDone c) s = .next (endPages u) ∧ u = { withCh s c (past (getCh s c)) with
        cue := { (withCh s c (past (getCh s c))).cue with
          pages := s.cue.pages.map fun h => if h.handle == g.handle then { h with doneBy := h.doneBy ++ [c] } else h } }) ∧
    (Issues s c (.done a) → (∀ g, pageByAdm s (chSlot (getCh s c) a) = some g → g.names c = false ∨ g.doneBy.contains c = true) →
      RowFaults s c (.done a) 0x0010)) ∧
  (∀ (s : State) (c : Chan) (a : Slot), Plain s c (.abort a) →
    let x := getCh s c
    let n := chSlot x a
    ((∀ g, pageByAdm s n = some g → g.names c = false) →
      exec (.abort c) s = .next (withCh s c (past { x with flags := withBit x.flags 0 true }))) ∧
    (∀ g, pageByAdm s n = some g → g.names c = true → ∃ t, exec (.abort c) s = .next t ∧
      (getCh t c).flags = withBit x.flags 0 false ∧ (getCh t c).pc = (past x).pc ∧ (getCh t c).st = x.st ∧
      (∀ h, pageByAdm t n = some h → h.st = .aborting) ∧
      (g.st ≠ .aborting → (∀ q ∈ s.cue.pages, q.handle = g.handle → q = g) →
        ∃ h ∈ t.cue.pages, h.handle = g.handle ∧ h.adm = n ∧ h.st = .aborting ∧ h.cause = 2 ∧ h.form = 1)))

/-- The time wheel (from R134, R135, R140, R141, R145, R154, R238, R266, R690). The number of places is 16 (R141). -/
def Obligations.WheelDispatchAndGuards : Prop :=
  (∀ s : State, (domUp s 3 = false ∨ (allPending s).filterMap (actDue s) = [] → exec .wheelDispatch s = .next s) ∧
    (domUp s 3 = false ∨ nextGuard s = none → exec .guardOpen s = .next s)) ∧
  (∀ (s : State) (g : Nat), domUp s 3 = true → nextGuard s = some g → g < 2 ^ 64 → ActsOk s → ∃ t, exec .guardOpen s = .next t ∧
    t.cue.et.toNat = max s.cue.et.toNat g ∧ ChangesOnly [.now, .cue] s t ∧ t.cue = { s.cue with et := t.cue.et, ch := t.cue.ch } ∧
    let f : Action → Action := fun a => match a.done, guardOf s a with
      | false, some (x, w) => if w ≤ t.cue.et.toNat then { a with et := some x.toNat, frozen := true } else a
      | _, _ => a
    ∀ c : Chan, getCh t c = { getCh s c with actq := (getCh s c).actq.map f }) ∧
  (∀ (s : State) (k : Nat), domUp s 3 = true → ((allPending s).filterMap (actDue s)).min? = some k → k < 2 ^ 64 →
    ∃ v u, exec .wheelDispatch s = .next (endPages (forEach dispatchDue (dueActs u) u)) ∧ u = synthAll v ∧ v.cue.et.toNat = k ∧
      s.cue.et.toNat ≤ k ∧ v.cue.dispEt = s.cue.dispEt ∧ v.cue.dispN = s.cue.dispN ∧ ChangesOnly [.now, .cue] s v ∧
      (domUp s 5 = false → (∀ n, (getTrk s n).st = .locked → k < synthDue (getTrk s n)) → u = v) ∧
      (dueActs u).Pairwise (fun a b => (actKey a).getD 0 ≤ (actKey b).getD 0) ∧
      ∀ a, a ∈ dueActs u ↔ a ∈ allPending u ∧ ∃ n, actKey a = some n ∧ n ≤ u.cue.et.toNat) ∧
  (∀ (s : State) (n : Trk), (getTrk s n).st = .locked → synthDue (getTrk s n) + (getTrk s n).filt.toNat ≤ s.cue.et.toNat →
    synthNow n s = synthOp n s) ∧
  (∀ (s : State) (c : Chan) (a : Action), ActsOk s → a ∈ (getCh s c).actq → a.done = false →
    (16 ≤ placesUsed s → a.slip = true → dispatchDue a s = s) ∧
    (16 ≤ placesUsed s → a.slip = false → ∃ x, dispatchDue a s = { withCh s c x with
        cue := { (withCh s c x).cue with slipped := true, slips := satInc s.cue.slips } } ∧
      x = { getCh s c with actq := (getCh s c).actq.map fun b => if b.id = a.id then { b with slip := true } else b }) ∧
    (placesUsed s < 16 → ∃ t, t = dispatchDue a s ∧ t.cue.dispEt = s.cue.et ∧ t.cue.dispN = placesUsed s + 1 ∧
      (s.aon.hold = true ∧ heldOutput a.op = true ∨ sigDropped s a = true → Told s t (actionRec s a 1 0 (onSynth s a)) ∧ ChangesOnly [.cue, .fl, .host] s t) ∧
      ((s.aon.hold = false ∨ heldOutput a.op = false) → sigDropped s a = false →
        (∀ code, actFault s a = some code → actionRec s a 2 code (onSynth s a) ∈ stagedRecs t ++ waitingRecs t ∧
          (liveChan s c = true → (getCh t c).faultCode = BitVec.ofNat 16 code ∧ (getCh t c).fpc = a.pc)) ∧
        (actFault s a = none → (getCh t c).stats.executed = satInc (getCh s c).stats.executed ∧
          (a.cpl = false → ∀ b ∈ (getCh t c).actq, b.id ≠ a.id) ∧
          (a.cpl = true → actionRec s a 0 0 (onSynth s a) ∈ stagedRecs t ++ waitingRecs t))) ∧
      (s.aon.hold = false → actFault s a = none →
        (∀ g v o, a.op = .gpio g v o → (tget t.cue.gpio g).divert = false ∧
          (tget t.cue.gpio g).next = (tget s.cue.gpio g).next.filter (fun n => decide (s.now < n.1)) ++ [(s.now + 4, v, o)]) ∧
        (∀ m g x, a.op = .seg m g x →
          let g' : Segment := { g with enteredAt := s.now }
          (∀ n, motKind m = .inl n → (getStep t n).q = (getStep s n).q ++ (if (getStep s n).stopNew then [] else [g'])) ∧
          (∀ n, motKind m = .inr n → (getBldc t n).q = (getBldc s n).q ++ (if (getBldc s n).stopNew then [] else [g']))) ∧
        (∀ l e, a.op = .setp l e ∨ a.op = .ramp l e → (getLoop t l).q = (getLoop s l).q ++ [e]))))

/-- Trackers (from R125 to R131, R135, R148, R150, R152). -/
def Obligations.ToothTrackers : Prop :=
  (∀ (s : State) (n : Trk), domUp s 3 = true → trkReceives s (getTrk s n) = true →
    let k := getTrk s n
    let x := s.cue.et.toNat - k.filt.toNat
    let d := x - k.lastEdge
    let real : Tracker := { k with
      index := k.index + 1, anchor256 := 256 * x, lastEdge := x, hasEdge := true, lastSynth := false, run := 0, insAt := none, synthSince := 0 }
    ∃ t, exec (.trkEdge n) s = .next t ∧ (∀ m : Trk, m ≠ n → getTrk t m = getTrk s m) ∧
      (k.st = .acquire → k.hasEdge = false → getTrk t n = { real with ivals := [] }) ∧
      (k.st = .acquire → k.hasEdge = true → d < trkPmin k → getTrk t n = { k with noise := satInc k.noise }) ∧
      (k.st = .acquire → k.hasEdge = true → trkPmin k ≤ d → d ≤ trkPmax k →
        let iv := (256 * d :: k.ivals).take 8
        getTrk t n = if 2 ^ k.avg.toNat ≤ iv.length then
          { real with ivals := iv, st := .locked, p256 := (iv.take (2 ^ k.avg.toNat)).sum / 2 ^ k.avg.toNat } else { real with ivals := iv }) ∧
      (k.st = .acquire → k.hasEdge = true → trkPmax k < d → getTrk t n = { real with ivals := [] }) ∧
      (k.st = .locked → lateEdge k x = true → getTrk t n = { k with
        anchor256 := 256 * x, lastEdge := x, hasEdge := true, lateClaim := true, run := 0, lastSynth := false, insAt := none, synthSince := 0,
        synthTeeth := k.synthTeeth.filter (· != k.index) }) ∧
      (k.st = .locked → lateEdge k x = false → (256 * (x : Int) - k.anchor256) * 64 < trkNoise k * k.p256 →
        getTrk t n = { k with noise := satInc k.noise }) ∧
      (k.st = .locked → lateEdge k x = false → ¬ ((256 * (x : Int) - k.anchor256) * 64 < trkNoise k * k.p256) →
        let iv := (256 * d / (k.synthSince + 1) :: k.ivals).take 8
        getTrk t n = { real with ivals := iv, p256 := (iv.take (2 ^ k.avg.toNat)).sum / 2 ^ k.avg.toNat }) ∧
      (k.st = .off ∨ k.st = .lost → getTrk t n = k) ∧
      (ActsOk s → k.st = .locked → domUp s 5 = false → s.cue.pages = [] → (∀ m, (getStep s m).stallEn = false) →
        (∀ a ∈ allPending s, ∀ j ph, a.target = .tooth n j ph → a.frozen = true ∨ a.held = true ∨
          ((s.cue.et.toNat : Int) < guardTick k (trkTarget k j ph) ∧ (s.cue.et.toNat : Int) < trkTarget (getTrk t n) j ph ∧
            (s.cue.et.toNat : Int) < guardTick (getTrk t n) (trkTarget (getTrk t n) j ph))) →
        ∀ (c : Chan) (a : Action), a ∈ (getCh s c).actq → a.done = false → ∀ j ph, a.target = .tooth n j ph →
          a.frozen = false → a.held = false → getTrk t n ≠ { k with noise := satInc k.noise } →
          { a with et := some (trkTarget (getTrk t n) j ph).toNat } ∈ (getCh t c).actq)) ∧
  (∀ (s : State) (n : Trk), domUp s 3 = true → (getTrk s n).st = .locked → synthDue (getTrk s n) < 2 ^ 64 →
    let k := getTrk s n
    let i := synthDue k
    ∃ t, exec (.trkSynthInsert n) s = .next t ∧ (∀ m : Trk, m ≠ n → getTrk t m = getTrk s m) ∧
      t.cue.et.toNat = max s.cue.et.toNat i ∧
      16384 * i < 64 * k.anchor256 + trkMiss k * k.p256 + 16384 ∧ 64 * k.anchor256 + trkMiss k * k.p256 ≤ 16384 * i ∧
      (k.run < 2 → getTrk t n = { k with
        index := k.index + 1, anchor256 := k.anchor256 + k.p256, run := k.run + 1, lastSynth := true, synth := satInc k.synth
        insAt := some i, synthSince := k.synthSince + 1, synthTeeth := k.synthTeeth ++ [k.index + 1] }) ∧
      (2 ≤ k.run → getTrk t n = { k with st := .lost, loss := true } ∧
        (ActsOk s → ∀ (c : Chan), ∀ a ∈ (getCh t c).actq, onTrk n a = true → a.done = true))) ∧
  (∀ (s : State) (n : Trk) (v : Word), reach s .bar0 3 = true →
    let k := getTrk s n
    (k.en = true → exec (.trkEnable n v) s = .next s) ∧
    (k.en = false → ∃ t, exec (.trkEnable n v) s = .next t ∧ (∀ m : Trk, m ≠ n → getTrk t m = getTrk s m) ∧
      getTrk t n = { k with
        filt := v.extractLsb' 24 8, avg := v.extractLsb' 8 2, edge := v.extractLsb' 5 2, src := v.extractLsb' 1 4, en := true
        st := .acquire, hasEdge := false, ivals := [], insAt := none, synthSince := 0, run := 0, lastSynth := false, synthTeeth := [] }) ∧
    (k.en = false → exec (.trkDisable n) s = .next s) ∧
    (k.en = true → ∃ t, exec (.trkDisable n) s = .next t ∧ (∀ m : Trk, m ≠ n → getTrk t m = getTrk s m) ∧
      getTrk t n = { k with en := false, st := .off, run := 0, lastSynth := false } ∧
      (ActsOk s → k.st ≠ .lost → ∀ (c : Chan), ∀ a ∈ (getCh t c).actq, onTrk n a = true → a.done = true)) ∧
    (k.st ≠ .lost → exec (.trkRearm n) s = .next s) ∧
    (k.st = .lost → ∃ t, exec (.trkRearm n) s = .next t ∧ (∀ m : Trk, m ≠ n → getTrk t m = getTrk s m) ∧
      getTrk t n = { k with
        st := .acquire, hasEdge := false, ivals := [], insAt := none, synthSince := 0, run := 0, lastSynth := false }) ∧
    (k.st ≠ .locked → exec (.trkReacq n) s = .next s) ∧
    (k.st = .locked → ∃ t, exec (.trkReacq n) s = .next t ∧ (∀ m : Trk, m ≠ n → getTrk t m = getTrk s m) ∧
      getTrk t n = { k with st := .acquire, hasEdge := false, ivals := [], insAt := none, synthSince := 0 } ∧
      (ActsOk s → domUp s 5 = false →
        let f : Action → Action := fun a => if onTrk n a = true ∧ a.frozen = false ∧ a.done = false then { a with held := true } else a
        ∀ c : Chan, getCh t c = { getCh s c with actq := (getCh s c).actq.map f })))

/-- Tamp (from R356, R358, R359, R361 to R363, R372, R373, R376, R377, R379, R380, R382, R383). The code lengths an encoder chooses are
the model's opaque Config.tampLens and Config.tampTokens (log 21). -/
def Obligations.TampUnits : Prop :=
  (∀ (s : State) (u : Fin 6) (poison : Bool),
    let d := tget s.rast.dec u
    let may := domUp s 4 = true ∧ s.mem.ready = true ∧ d.active = true ∧ d.fetchEnd = false ∧ hasTally s (decFl u) = true
    let first := d.fetchIx = 0
    let held := s.mem.poison.getLsbD u.1
    let bad := held || srcOut s d d.src (if first then 16 else 8) || (poison && s.mem.eccEn)
    let b : BlkDesc := ⟨if first then d.src + 8 else d.src, d.fetchIx, bad⟩
    let sh := srcRead s d d.src 8
    let hd := srcRead s d b.addr 8
    let total := if first then fieldN sh 4 4 else d.total
    (¬ may → exec (.bandFetch u poison) s = .next s) ∧
    (may → ∃ t x, exec (.bandFetch u poison) s = .next t ∧ ChangesOnly [.rast, .fl, .mem, .lg, .host] s t ∧
      (bad = false → ChangesOnly [.rast, .fl] s t) ∧ (held = true → t.mem = { s.mem with poison := withBit s.mem.poison u.1 false }) ∧
      (bad = true → held = false → t.mem = { s.mem with ue := satInc s.mem.ue, ueAddr := BitVec.ofNat 36 d.src } ∧
        EngineTold s t (unitSrc 2 0) 0x0111 0xFFFF (leBytes 8 d.src ++ leBytes 1 u.1)) ∧
      t.rast = { s.rast with dec := tset s.rast.dec u x } ∧
      x = { d with
        q := d.q ++ [b], total := total, fetched := d.fetched + fieldN hd 0 2 + 1, fetchIx := d.fetchIx + 1
        src := b.addr + 8 + fieldN hd 4 4, fetchEnd := x.fetchEnd } ∧
      (x.fetchEnd = true ↔ b.poison = true ∨ first ∧ streamOk sh = false ∨ blockOk hd (d.srcEnd - (b.addr + 8)) = false ∨
        total ≤ d.fetched + fieldN hd 0 2 + 1 ∨ fieldN hd 3 1 ≠ 0) ∧
      (getFl t (decFl u)).tally = (getFl s (decFl u)).tally - 1 ∧
      (bad = false → ∀ f : FlumeId, f ≠ decFl u → getFl t f = getFl s f))) ∧
  (∀ (s : State) (u : Fin 6) (poison : Bool) (b : BlkDesc) (l : List BlkDesc), domUp s 4 = true → s.mem.ready = true →
    (tget s.rast.dec u).q = b :: l → Memory.wf s.rast.land = true → Memory.wf s.mem.data = true →
    let d := tget s.rast.dec u
    let p := if headsOk s d b = true then payloadPoison u d b poison s else (false, s)
    let r := decBlock s d b p.1
    let n := d.out.length
    ∃ t, exec (.tampDecodeBlock u poison) s = .next t ∧ (∃ w, r.1 = d.out ++ w) ∧ (tget t.rast.dec u).out = r.1 ∧
      (∀ a : Nat, memGet t.rast.land a = if u ≠ 5 ∧ d.dst + n ≤ a ∧ a < d.dst + r.1.length then r.1.getD (a - d.dst) 0
        else memGet s.rast.land a) ∧
      (∀ a : Nat, memGet t.mem.data a = if u = 5 ∧ d.dst + n ≤ a ∧ a < d.dst + r.1.length ∧ a < usableBytes s then r.1.getD (a - d.dst) 0
        else memGet s.mem.data a) ∧
      (r.2 = none → (tget t.rast.dec u).q = l ∧ (tget t.rast.dec u).err = d.err ∧ Returned s t (decFl u) 1 ∧
        (r.1.length = d.total → (tget t.rast.dec u).active = false ∧ (tget t.rast.dec u).streams = satInc d.streams ∧
          (tget t.rast.dec u).outBytes = BitVec.ofNat 32 r.1.length) ∧
        (r.1.length ≠ d.total → (tget t.rast.dec u).active = d.active) ∧ ChangesOnly [.rast, .mem, .fl] s t) ∧
      (∀ c : Nat, r.2 = some c → (tget t.rast.dec u).q = [] ∧ (tget t.rast.dec u).active = false ∧
        (tget t.rast.dec u).err = BitVec.ofNat 8 c ∧ (tget t.rast.dec u).lastBlk = BitVec.ofNat 16 b.ix ∧
        (tget t.rast.dec u).streams = satInc d.streams ∧ (tget t.rast.dec u).errors = satInc d.errors ∧
        t.rast.tampErr = withBit s.rast.tampErr u.1 true ∧
        ((getFl s (decFl u)).down = false → (getFl t (decFl u)).ret = (getFl s (decFl u)).ret + 1 + l.length) ∧
        EngineTold p.2 t (0x2041 + u.1) 0x0118 0xFFFF (leBytes 1 u.1 ++ leBytes 1 c ++ leBytes 2 b.ix ++ leBytes 4 r.1.length))) ∧
  (∀ (s : State) (d : Dec) (b : BlkDesc) (poison : Bool),
    let hd := srcRead s d b.addr 8
    let n := d.out.length
    let u := fieldN hd 0 2 + 1
    let pay := srcRead s d (b.addr + 8) (fieldN hd 4 4)
    let head := b.ix ≠ 0 ∨ streamOk (srcRead s d (b.addr - 8) 8) = true
    let fits := n + u ≤ d.total ∧ ((fieldN hd 3 1).testBit 0 = true ↔ n + u = d.total)
    let ok := blockOk hd (d.srcEnd - (b.addr + 8)) = true
    (b.poison = true → decBlock s d b poison = (d.out, some 0x46)) ∧
    (b.poison = false → ¬ head → decBlock s d b poison = (d.out, some 0x40)) ∧
    (b.poison = false → head → ¬ ok → decBlock s d b poison = (d.out, some 0x41)) ∧
    (b.poison = false → head → ok → ¬ fits → decBlock s d b poison = (d.out, some 0x45)) ∧
    (b.poison = false → head → ok → fits → poison = true → decBlock s d b poison = (d.out, some 0x46)) ∧
    (b.poison = false → head → ok → fits → poison = false → fieldN hd 2 1 = 0 →
      (n + u ≤ d.cap → decBlock s d b poison = (d.out ++ pay.take u, none)) ∧
      (d.cap < n + u → decBlock s d b poison = (d.out ++ pay.take (d.cap - n), some 0x47)))) ∧
  (∀ (s : State) (n a : Nat) (bad out : Bool), (usePoison n a bad out s).1 =
      (s.mem.poison.getLsbD n || out || (bad && s.mem.eccEn)) ∧ (usePoison n a bad out s).2.rast = s.rast) ∧
  (∀ (s : State) (e : Fin 2) (poison : Bool) (b : List Byte) (l : List (List Byte)), domUp s 4 = true → s.mem.ready = true →
    (tget s.rast.enc e).q = b :: l → (tget s.rast.enc e).active = true →
    let x := tget s.rast.enc e
    let bs := encBytes x b
    let bad : Option Nat := if poison then some 0x46
      else if x.total < x.taken + b.length ∨ b.length < x.curBlk ∧ x.taken + b.length < x.total then some 0x45
      else if x.cap < x.written + bs.length then some 0x47 else none
    ∃ u, exec (.tampEncodeBlock e poison) s = .next (driveEnc (encTold e b.length u)) ∧
      (bad = none → u.mem = { s.mem with
          data := memWrite s.mem.data (x.dst + x.written) (bs.take (usableBytes s - (x.dst + x.written))), soft := u.mem.soft } ∧
        Returned s u (encFl e) 1 ∧ ChangesOnly [.rast, .fl, .mem] s u ∧
        (tget u.rast.enc e).q = l ∧ (tget u.rast.enc e).taken = x.taken + b.length ∧ (tget u.rast.enc e).hist = x.hist ++ b ∧
        (tget u.rast.enc e).written = x.written + bs.length ∧ (tget u.rast.enc e).blkIx = x.blkIx + 1 ∧
        (tget u.rast.enc e).active = decide (x.taken + b.length ≠ x.total)) ∧
      (∀ c : Nat, bad = some c → u.mem = s.mem ∧ (tget u.rast.enc e).q = [] ∧ (tget u.rast.enc e).active = false ∧
        (tget u.rast.enc e).err = BitVec.ofNat 8 c ∧ (tget u.rast.enc e).errors = satInc x.errors ∧
        (tget u.rast.enc e).streams = satInc x.streams ∧ u.rast.tampErr = withBit s.rast.tampErr (6 + e.1) true ∧
        EngineTold (if poison = true ∧ x.forLog = false then lineUe s else s) u (0x2047 + e.1) 0x0118 0xFFFF (leBytes 1 (6 + e.1) ++ leBytes 1 c ++ leBytes 2 x.blkIx ++ leBytes 4 x.written))) ∧
  (∀ (k : Nat) (hist block : List Byte) (last : Bool), block ≠ [] → block.length ≤ 65536 →
    let p := encodeBlock k hist block last
    fieldN p 0 2 = block.length - 1 ∧ fieldN p 3 1 = (if last then 1 else 0) ∧ p.length = 8 + fieldN p 4 4 ∧
    (fieldN p 2 1 = 0 ∧ p.drop 8 = block ∨ fieldN p 2 1 = 1 ∧ fieldN p 4 4 < block.length)) ∧
  (∀ s : State, reach s .bar0 4 = true →
    let r := s.rast
    let a := r.genSrc.toNat
    let b := r.genDst.toNat
    let clash := a < b + r.genDlen.toNat ∧ b < a + r.genSlen.toNat
    let out := usableBytes s < a + r.genSlen.toNat ∨ usableBytes s < b + r.genDlen.toNat
    (r.genBusy = true ∨ s.mem.ready = false → exec .tampGenGo s = .next { s with rast := { r with genErr := 3, genDone := true } }) ∧
    (r.genBusy = false → s.mem.ready = true → clash ∨ out →
      exec .tampGenGo s = .next { s with rast := { r with genErr := 5, genDone := true } }) ∧
    (r.genBusy = false → s.mem.ready = true → ¬ (clash ∨ out) → exec .tampGenGo s = .next { s with rast := { r with
      genBusy := true
      dec := tset r.dec 5 { tget r.dec 5 with
        active := true, src := a, srcEnd := a + r.genSlen.toNat, total := 0, fetched := 0, fetchIx := 0, fetchEnd := false, out := []
        dst := b, cap := r.genDlen.toNat, err := 0 } } })) ∧
  (∀ s : State, domUp s 4 = true → s.rast.genBusy = true → (tget s.rast.dec 5).active = false → ∃ t, exec .tampGenDone s = .next t ∧
    t.rast = { s.rast with genBusy := false, genErr := (tget s.rast.dec 5).err, genDone := true } ∧ ChangesOnly [.rast, .fl, .host] s t ∧
    EngineTold s t 0x2049 0x0119 0xFFFF ([(tget s.rast.dec 5).err, 0] ++ leBytes 4 (tget s.rast.dec 5).out.length))

/-- Bands (from R18, R397 to R399, R401, R403, R404, R513, R567, R568). The line number of a band whose descriptor could not be read is a
free value (log 4), and at a tally of 0 the fetcher waits (log 16). -/
def Obligations.BandsAreStagedCheckedReleased : Prop :=
  (∀ (s : State) (e : Engine) (desc : Option (List Byte)),
    let go := domUp s 4 = true ∧ tget s.rast.cur e = none ∧ hasTally s (bandFl e) = true
    (stageNext s e = none ∨ freeSlot s e = none ∨ ¬ go → exec (.bandStage e desc) s = .next s) ∧
    (∀ (g : Page) (k : Nat), stageNext s e = some g → freeSlot s e = some k → go → Memory.wf s.rast.land = true →
      ∃ t b, exec (.bandStage e desc) s = .next t ∧ tget t.rast.cur e = some b ∧ ChangesOnly [.cue, .rast, .freeCount] s t ∧
      b.handle = g.handle ∧ b.no = tget g.nextBand e ∧ b.line0 = tget g.nextLine e ∧ b.slot = k ∧ b.lpitch = linePitch s e ∧
      (∀ x, desc = some x → b.lines = fieldN x 0x14 2 ∧ b.bcrc = BitVec.ofNat 32 (fieldN x 0x18 4) ∧ b.empty = (fieldN x 3 1).testBit 0) ∧
      (b.cause = 0 ↔ ∃ x, desc = some x ∧ descOk s e g x = true) ∧ (b.cause ≠ 0 → b.cause = 1) ∧
      (∀ h ∈ s.cue.pages, (if h.handle = g.handle then { h with
        nextBand := tset h.nextBand e (tget h.nextBand e + 1), nextLine := tset h.nextLine e (tget h.nextLine e + b.lines) } else h) ∈ t.cue.pages) ∧
      (b.cause = 0 → b.empty = true → ∀ a : Nat, memGet t.rast.land a =
        if slotAddr s e k ≤ a ∧ a < slotAddr s e k + b.lines * b.lpitch then 0 else memGet s.rast.land a) ∧
      (b.cause = 0 → b.empty = false → t.rast.land = s.rast.land ∧ ∀ x, desc = some x → ∃ u : Fin 6, u.1 = e.1 ∧
        (tget t.rast.dec u).active = true ∧ (tget t.rast.dec u).src = fieldN x 8 8 ∧
        (tget t.rast.dec u).srcEnd = fieldN x 8 8 + fieldN x 0x10 4 ∧ (tget t.rast.dec u).dst = slotAddr s e k ∧
        (tget t.rast.dec u).cap = slotBytesOf s e ∧ (tget t.rast.dec u).out = []) ∧
      (b.cause ≠ 0 → t.rast.land = s.rast.land ∧ t.rast.dec = s.rast.dec))) ∧
  (∀ (s : State) (e : Engine),
    ((∀ b, tget s.rast.cur e = some b → domUp s 4 = true → bandReady s e b = false ∨ hasTally s (bandFl e) = false) →
      exec (.bandCheckDone e) s = .next s) ∧
    (∀ (b : Band) (u : Fin 6), tget s.rast.cur e = some b → domUp s 4 = true → u.1 = e.1 →
      hasTally s (bandFl e) = true → b.cause ≠ 0 ∨ b.empty = true ∨ (tget s.rast.dec u).active = false →
      let d := tget s.rast.dec u
      let v : Nat × Byte := if b.cause ≠ 0 then (b.cause.toNat, 0) else if b.empty then (0, 0) else if d.err ≠ 0 then (2, d.err)
        else if d.total ≠ b.lines * b.lpitch then (3, 0)
        else if crc32c (memRead s.rast.land (slotAddr s e b.slot) (b.lines * b.lpitch)) ≠ b.bcrc then (4, 0) else (0, 0)
      let b' := { b with cause := BitVec.ofNat 8 v.1, tampCode := v.2, pass := decide (v.1 = 0) }
      ∃ t, exec (.bandCheckDone e) s = .next t ∧ tget t.rast.cur e = none ∧
        (v.1 = 0 → ChangesOnly [.rast, .fl] s t ∧
          (∀ g, pageByHandle s b.handle = some g → ¬ (g.isAdm = true ∧ bandStarted s g e b = true) →
            t.rast = { s.rast with cur := tset s.rast.cur e none, staged := tset s.rast.staged e (tget s.rast.staged e ++ [b']) } ∧
            (getFl t (bandFl e)).ret = (getFl s (bandFl e)).ret) ∧
          (∀ g, pageByHandle s b.handle = some g → g.isAdm = true ∧ bandStarted s g e b = true →
            t.rast = { s.rast with cur := tset s.rast.cur e none } ∧
            ((getFl s (bandFl e)).down = false → (getFl t (bandFl e)).ret = (getFl s (bandFl e)).ret + 1)) ∧
          (∀ g, pageByHandle s b.handle = some g → (getFl t (bandFl e)).tally = (getFl s (bandFl e)).tally - 1 ∧
            ∀ f : FlumeId, f ≠ bandFl e → getFl t f = getFl s f) ∧
          (pageByHandle s b.handle = none → t.rast = { s.rast with cur := tset s.rast.cur e none } ∧ t.fl = s.fl)) ∧
        (v.1 ≠ 0 → ∀ g, pageByHandle s b.handle = some g →
          (g.isAdm = true → ∃ h, pageByHandle t b.handle = some h ∧ h.degraded = true ∧ h.failb = satInc g.failb ∧
            (e.1 < 4 → EngineTold s t (84 + e.1) 0x0120 (84 + e.1) (leBytes 1 e.1 ++ leBytes 1 v.1 ++ leBytes 4 b.no ++ leBytes 1 v.2.toNat)) ∧
            (e.1 = 4 → EngineTold s t 88 0x0150 88 (leBytes 1 b.panel ++ leBytes 1 v.1 ++ leBytes 4 b.no ++ leBytes 1 v.2.toNat))) ∧
          (g.isAdm = false → pageByHandle t b.handle = none ∧ ∀ k : Engine, ∀ x ∈ tget t.rast.staged k, x.handle ≠ b.handle)))) ∧
  (∀ (s : State) (n : Station),
    (doneBand s n = none → exec (.bandRelease n) s = .next s) ∧
    (∀ b : Band, doneBand s n = some b →
      let left := (tget s.rast.staged (beamEngine n)).filter fun x => !(x.handle == b.handle && x.no == b.no)
      ∃ t, exec (.bandRelease n) s = .next t ∧ ChangesOnly [.now, .cue, .rast, .fl] s t ∧
      t.rast = { s.rast with staged := tset s.rast.staged (beamEngine n) left } ∧
      Returned s t (bandFl (beamEngine n)) 1 ∧ t.cue = { s.cue with et := t.cue.et } ∧
      (domUp s 3 = true → bandEnd s n b < 2 ^ 64 → t.cue.et.toNat = max s.cue.et.toNat (bandEnd s n b))))

/-- The beam engine (from R388, R390, R393, R395, R401 to R403, R405 to R407, R410, R412, R415, R417, R418, R422). -/
def Obligations.BeamScansAndStations : Prop :=
  (∀ (s : State) (n : Station),
    let x := getStn s n
    ((∀ sc, x.scan = some sc → sc.e.isSome = true) → exec (.bdWindowExpire n) s = .next s) ∧
    (∀ sc, x.scan = some sc → sc.e = none → ∃ t, exec (.bdWindowExpire n) s = .next t ∧ ChangesOnly [.now, .cue, .beam] s t ∧
      t.beam = { s.beam with stn := tset s.beam.stn n { x with
        bdmiss := satInc x.bdmiss, scan := some { sc with e := some sc.d, apcm := apcMargin t sc.tab sc.d } } } ∧
      t.cue = { s.cue with et := t.cue.et } ∧
      (domUp s 3 = true → sc.d + sc.win < 2 ^ 64 → t.cue.et.toNat = max s.cue.et.toNat (sc.d + sc.win)))) ∧
  (∀ (s : State) (n : Station) (b : Beam) (ecc : Ecc) (sc : Scan) (e : Nat), (getStn s n).scan = some sc → sc.e = some e →
    let x := getStn s n
    let line := sc.lptr + b.1
    let begun : StationS := { x with scan := some { sc with begun := withBit sc.begun b.1 true } }
    (sc.begun.getLsbD b.1 = true → exec (.beamLineStart n b ecc) s = .next s) ∧
    (sc.begun.getLsbD b.1 = false → ∃ t, exec (.beamLineStart n b ecc) s = .next t ∧ (getStn t n).scan = begun.scan ∧
      (domUp s 3 = true → e + x.cur.sos.toNat + (tget x.beams b).curBoff.toNat < 2 ^ 64 →
        t.cue.et.toNat = max s.cue.et.toNat (e + x.cur.sos.toNat + (tget x.beams b).curBoff.toNat)) ∧
      ((∀ g, sc.page.bind (pageByAdm s) = some g → line < 0 ∨ ((tget g.plan.lines n : Nat) : Int) ≤ line) →
        t.beam = { s.beam with stn := tset s.beam.stn n begun } ∧ t.out = s.out ∧ ChangesOnly [.now, .cue, .beam] s t) ∧
      (∀ g, sc.page.bind (pageByAdm s) = some g → 0 ≤ line → line < ((tget g.plan.lines n : Nat) : Int) →
        let k := line.toNat
        (∀ q, (tget s.rast.staged (beamEngine n)).find? (fun q => q.has g.handle k) = some q →
          let data := memRead s.rast.land (slotAddr s (beamEngine n) q.slot + (k - q.line0) * q.lpitch) q.lpitch
          let good := q.pass = true ∧ ∀ u, q.ueFrom = some u → k < u
          (good → ecc ≠ .uncorrectable → t.out = s.out ++ (if lenHigh s n then
              [.pulses n b e (linePulses x.cur (tget x.beams b).curBoff.toNat data)] else []) ∧
            t.rast = (if ecc = .corrected then { s.rast with landCe := satInc s.rast.landCe } else s.rast) ∧
            t.beam = { s.beam with stn := tset s.beam.stn n begun }) ∧
          (good → ecc = .uncorrectable → t.out = s.out ∧ (getStn t n).blankl = satInc x.blankl ∧
            t.rast.landUe = satInc s.rast.landUe ∧
            ∀ y ∈ tget t.rast.staged (beamEngine n), y.handle = q.handle → y.no = q.no → y.ueFrom = some k) ∧
          (¬ good → t.out = s.out ∧ (getStn t n).blankl = satInc x.blankl ∧ (getStn t n).starvel = x.starvel ∧ t.rast = s.rast)) ∧
        ((tget s.rast.staged (beamEngine n)).find? (fun q => q.has g.handle k) = none → t.out = s.out ∧
          (getStn t n).starvel = satInc x.starvel ∧ (getStn t n).blankl = x.blankl ∧
          (∀ y ∈ t.cue.pages, y.handle = g.handle → y.degraded = true) ∧
          ((tget s.rast.starved (beamEngine n)).any (fun y => y.handle == g.handle && y.no == lateBand s (beamEngine n) g k) = false →
            EngineTold s t (84 + n.1) 0x0124 (84 + n.1) (leBytes 1 n.1 ++ [0] ++ leBytes 4 (lateBand s (beamEngine n) g k) ++ [0])))))) ∧
  (∀ (s : State) (n : Station) (b : Beam) (pd : BitVec 12),
    let x := getStn s n
    let o := tget x.beams b
    let tgt : Int := (o.curTgt.toNat * x.trim.toNat / 1024 : Nat)
    let cal := x.st = .cal ∧ x.polySeen = true ∧ polyOk s n = true ∧ ∃ f, x.facet = some f ∧ f.sampled.getLsbD b.1 = false
    let scan := x.st = .ready ∧ ∃ sc, x.scan = some sc ∧ sc.e.isSome = true ∧ sc.begun.getLsbD b.1 = true ∧ sc.sampled.getLsbD b.1 = false
    (s.aon.hold = true ∨ domUp s 5 = false ∨ ¬ cal ∧ ¬ scan → exec (.apcSample n b pd) s = .next s) ∧
    (s.aon.hold = false → domUp s 5 = true → cal ∨ scan → ∃ t w, exec (.apcSample n b pd) s = .next t ∧
      (getStn t n).beams = tset x.beams b w ∧ (∀ m : Station, m ≠ n → getStn t m = getStn s m) ∧ w.pd = pd ∧
      (w.idrv.toNat : Int) = clampI 0 o.curIlim.toNat (o.idrv.toNat + (clampN 1 15 x.cur.gain.toNat : Nat) * (tgt - pd.toNat) / 16) ∧
      w.low = (if o.idrv = o.curIlim ∧ 16 * (pd.toNat : Int) < 15 * tgt then o.low + 1 else 0) ∧
      w.weak = (if 16 ≤ w.low then true else if 15 * tgt ≤ 16 * (pd.toNat : Int) then false else o.weak) ∧
      w.okN = (if x.st = .cal then (if 31 * tgt ≤ 32 * (pd.toNat : Int) ∧ 32 * (pd.toNat : Int) ≤ 33 * tgt then o.okN + 1 else 0) else o.okN) ∧
      (∀ f, cal → x.facet = some f → t.out = s.out ++ (if lenHigh s n then
        [.apcLight n b o.idrv (f.e + lineTicks x b + f.apcm)] else [])) ∧
      (cal → (getStn t n).st = if (∀ c : Beam, 16 ≤ (tget (tset x.beams b w) c).okN) then .ready else .cal))) ∧
  (∀ (s : State) (n : Station) (b : Beam),
    let fault := fun (t : State) (cause : Byte) => (getStn t n).st = .fault ∧ (getStn t n).fcause = cause ∧ (getStn t n).scan = none ∧
      (∀ c : Beam, (tget (getStn t n).beams c).idrv = 0) ∧ ∀ g ∈ t.cue.pages, g.isAdm = true → g.uses n.1 = true → g.st = .aborting
    let late := domUp s 5 = true ∧ (getStn s n).st = .cal ∧ s.aon.hold = false ∧ 256 ≤ (getStn s n).facets
    (lenHigh s n = false → exec (.apcOvp n b) s = .next s) ∧
    (lenHigh s n = true → ∃ t, exec (.apcOvp n b) s = .next t ∧ fault t 2 ∧
      (s.cue.pages = [] → EngineTold s t (84 + n.1) 0x0122 (84 + n.1) (leBytes 1 b.1))) ∧
    (¬ late → exec (.calTimeout n) s = .next s) ∧ (late → ∃ t, exec (.calTimeout n) s = .next t ∧ fault t 3)) ∧
  (∀ (s : State) (n : Station), reach s .bar0 5 = true →
    let x := getStn s n
    let err := fun c : BitVec 2 => { s with beam := { s.beam with stn := tset s.beam.stn n { x with cmdErr := c } } }
    (x.st ≠ .off → exec (.beamOn n) s = .next (err 1)) ∧
    (x.st = .off → beamLoad s n = none → exec (.beamOn n) s = .next (err 2)) ∧
    (∀ c v, x.st = .off → beamLoad s n = some (c, v) →
      (beamGeom s c v = false → exec (.beamOn n) s = .next (err 3)) ∧
      (beamGeom s c v = true → ∃ t, exec (.beamOn n) s = .next t ∧ (getStn t n).st = .cal ∧ (getStn t n).cur = c ∧
        (getStn t n).curTrk = x.trk ∧ (getStn t n).facets = 0 ∧ (getStn t n).scan = none ∧ ∀ b : Beam,
          (tget (getStn t n).beams b).curTgt = (tget v b).1 ∧ (tget (getStn t n).beams b).curIlim = (tget v b).2.1 ∧
          (tget (getStn t n).beams b).curBoff = (tget v b).2.2 ∧ (tget (getStn t n).beams b).idrv = (tget x.beams b).idrv)) ∧
    (x.xp = true → ∃ c, beamLoad s n = some (c, x.beams.map fun b => (b.tgt, b.ilim, b.boff)) ∧
      c.pixels.toNat = clampN 1 12288 x.reg.pixels.toNat ∧ c.tpix.toNat = max 5120 x.reg.tpix.toNat ∧
      c.bdwin.toNat = min 256 x.reg.bdwin.toNat ∧ c.gain.toNat = max 1 x.reg.gain.toNat ∧ c.sos = x.reg.sos) ∧
    (∃ t, exec (.beamOff n) s = .next t ∧ (getStn t n).st = .off ∧ (getStn t n).fcause = 0 ∧ (getStn t n).scan = none ∧
      ∀ g ∈ t.cue.pages, g.isAdm = true → g.uses n.1 = true → g.st = .aborting) ∧
    (let free := x.st = .ready ∧ ∀ g ∈ s.cue.pages, g.isAdm = true → g.uses n.1 = false
     (¬ free → exec (.beamRecal n) s = .next (err 1)) ∧
      (free → ∃ t, exec (.beamRecal n) s = .next t ∧ (getStn t n).st = .cal ∧ (getStn t n).cur = x.cur ∧ (getStn t n).facets = 0 ∧
        (getStn t n).scan = none ∧ ∀ b : Beam, (tget (getStn t n).beams b).okN = 0)))

/-- Motion (from R427 to R432, R436, R437, R440, R446 to R450, R452). The arithmetic of the trajectory is the model's choice (log 20),
as is the CMDERR code (log 22). -/
def Obligations.MotorsMoveStopAndFault : Prop :=
  (∀ (s : State) (m : Motor) (g : Segment) (l : List Segment), domUp s 6 = true →
    (match motKind m with | .inl n => (getStep s n).q | .inr k => (getBldc s k).q) = g :: l →
    let st := match motKind m with | .inl n => (getStep s n).st | .inr k => (getBldc s k).st
    let gone := fun t : State => (match motKind m with | .inl n => (getStep t n).q | .inr k => (getBldc t k).q) = l
    let told := fun (t : State) (c : BitVec 16) => liveChan s g.chan = true → (getCh t g.chan).faultCode = c ∧ (getCh t g.chan).fpc = g.pc
    let homed := ∀ n, motKind m = .inl n → g.home = true ∨ (getStep s n).homed = true
    let free := ∀ n, motKind m = .inl n → (getStep s n).coupled = false
    (st = .moving ∨ st = .stopping → exec (.segmentTakeup m) s = .next s) ∧
    (st = .idle ∨ st = .hold ∨ st = .fault → ∃ t, exec (.segmentTakeup m) s = .next t ∧ t.now = max s.now (g.enteredAt + 160) ∧
      (s.aon.hold = true → gone t ∧ ChangesOnly [.now, .cue, .motn, .fl] s t ∧ Returned s t (motFl m) 1) ∧
      (s.aon.hold = false → st = .fault → s.cue.pages = [] → gone t ∧ told t 0x61) ∧
      (s.aon.hold = false → st ≠ .fault →
        (¬ free → ChangesOnly [.now, .cue] s t) ∧
        (free → ¬ homed → s.cue.pages = [] → gone t ∧ told t 0x60) ∧
        (free → homed → s.motn.vmotOk = false → s.cue.pages = [] →
          (∀ n, motKind m = .inl n → (getStep t n).st = .fault ∧ (getStep t n).fcause = 4) ∧
          (∀ k, motKind m = .inr k → (getBldc t k).st = .fault ∧ (getBldc t k).fcause = 4)) ∧
        (free → homed → s.motn.vmotOk = true → gone t ∧
          (∀ n, motKind m = .inl n → g.home = true ∨ g.target ≠ (getStep s n).pos.toInt → (getStep t n).st = .moving ∧
            (getStep t n).cur = some g ∧ (getStep t n).vel = 0 ∧ (getStep t n).pos = (getStep s n).pos ∧ (getStep t n).amps = g.irun ∧
            (getStep t n).evalAt = t.now ∧
            (getStep t n).goal = (if g.home then (getStep s n).pos.toInt + g.target else g.target)) ∧
          (∀ k, motKind m = .inr k → (getBldc t k).st = .moving ∧ (getBldc t k).cur = some g ∧ (getBldc t k).set_ = 0 ∧
            (getBldc t k).evalAt = t.now))))) ∧
  (∀ (s : State) (ti : BitVec 12), nextEval s = none → exec (.trajectoryUpdate ti) s = .next s) ∧
  (∀ (s : State) (ti : BitVec 12) (at_ : Nat), domUp s 6 = true → s.cue.pages = [] → nextEval s = some at_ →
    ∃ t, exec (.trajectoryUpdate ti) s = .next t ∧ t.now = max s.now at_ ∧
      (∀ n : Fin 16, let x := getStep s n
        (x.st = .idle ∨ x.st = .hold ∨ x.st = .fault ∨ t.now < x.evalAt + 4000 → getStep t n = x) ∧
        (x.evalAt + 4000 ≤ t.now →
        (∀ g, x.st = .moving → x.cur = some g → x.homeHit = false → x.q = [] → (∀ v, x.joint ≠ some (some v)) →
          (g.home = true → ti.getLsbD (bitsN g.homeSrc 3 0) ≠ g.homeSrc.getLsbD 7) →
          let p := exactPos x
          let d : Int := (x.goal * posUnit - p).natAbs
          let dir : Int := if p < x.goal * posUnit then 1 else -1
          let v := max 0 (x.vel * dir)
          let w := if d * (16 * g.dec) ≤ v * v then max (max 0 (v - 16 * g.dec)) (min v (16 * g.dec)) else min (200000 * g.vmax16) (v + 16 * g.acc)
          (d ≠ 0 → v + w < d → (getStep t n).vel = dir * w ∧ (getStep t n).st = .moving ∧ (getStep t n).cur = some g ∧
            (getStep t n).evalAt = x.evalAt + 4000 ∧
            (getStep t n).pos = BitVec.ofInt 32 ((p + dir * (v + w)) / posUnit) ∧ (getStep t n).frac = (p + dir * (v + w)) % posUnit ∧
            ((getStep t n).pos ≠ x.pos → .usteps n ((getStep t n).pos.toInt - x.pos.toInt) ∈ t.out)) ∧
          (d = 0 ∨ d ≤ v + w → g.home = false → (getStep t n).st = .hold ∧ (getStep t n).vel = 0 ∧ (getStep t n).cur = none ∧
            (getStep t n).amps = g.ihold ∧ (d ≠ 0 → (getStep t n).pos = BitVec.ofInt 32 x.goal) ∧
            ((getFl s (motFl (stepMotor n))).down = false →
              (getFl t (motFl (stepMotor n))).ret = (getFl s (motFl (stepMotor n))).ret + 1)) ∧
          (d = 0 ∨ d ≤ v + w → g.home = true → (getStep t n).st = .fault ∧ (getStep t n).fcause = 3)) ∧
        (∀ g, x.st = .moving → x.cur = some g → x.homeHit = false → g.home = true →
          ti.getLsbD (bitsN g.homeSrc 3 0) = g.homeSrc.getLsbD 7 → (getStep t n).pos = 0 ∧ (getStep t n).homed = true ∧
          (x.vel = 0 → (getStep t n).st = .hold)) ∧
        (x.st = .stopping → let w := max 0 ((x.vel.natAbs : Int) - 16 * (256 * max 1 x.safeDec.toNat : Nat))
          (w ≠ 0 → (getStep t n).st = .stopping ∧ ((getStep t n).vel.natAbs : Int) = w) ∧
          (w = 0 → (getStep t n).vel = 0 ∧ ((getStep t n).st = .hold ∨ (getStep t n).st = .idle))))) ∧
      (∀ (k : Fin 4) (g : Segment), (getBldc s k).st = .moving → (getBldc s k).cur = some g →
        let v := (getBldc s k).set_
        let w := if v < 200000 * g.target then min (200000 * g.target) (v + g.acc) else max (200000 * g.target) (v - g.dec)
        (t.now < (getBldc s k).evalAt + 4000 → getBldc t k = getBldc s k) ∧
        ((getBldc s k).evalAt + 4000 ≤ t.now → (getBldc t k).set_ = w ∧ (getBldc t k).evalAt = (getBldc s k).evalAt + 4000 ∧
          (getBldc t k).cur = (if w = 200000 * g.target then (getBldc s k).q.head? else some g)))) ∧
  (∀ s : State,
    let faulted := fun (t : State) (m : Motor) (cause : Byte) (data : Nat) =>
      (∀ n, motKind m = .inl n → s.scan.line = none → getStep t n = { getStep s n with
        st := .fault, fcause := cause, homed := false, vel := 0, amps := 0, coupled := false, q := [], cur := none, joint := none
        stopNew := false }) ∧
      (∀ k, motKind m = .inr k → getBldc t k = { getBldc s k with
        st := .fault, fcause := cause, set_ := 0, q := [], cur := none, stopNew := false }) ∧
      (s.cue.pages = [] → s.scan.st = .off → EngineTold s t m.1 (0x12F + cause.toNat) m.1 (leBytes 4 data ++ leBytes 1 cause.toNat))
    (∀ m : Motor, domUp s 6 = true → (motorAlive s m = false → exec (.motOvercurrent m) s = .next s) ∧
      (motorAlive s m = true → ∃ t d, exec (.motOvercurrent m) s = .next t ∧ faulted t m 1 d ∧
        (∀ n, motKind m = .inl n → d = (getStep s n).pos.toNat) ∧ (∀ k, motKind m = .inr k → d = (getBldc s k).speed.toNat))) ∧
    (∀ k : Fin 4, domUp s 6 = true →
      let x := getBldc s k
      let bad := x.hall = 0 ∨ x.hall = 7
      ((x.st ≠ .moving ∧ x.st ≠ .stopping) ∨ bldcDuty s k = 0 → exec (.bldcStall k) s = .next s) ∧
      (x.st = .moving ∨ x.st = .stopping → bldcDuty s k ≠ 0 → ∃ t, exec (.bldcStall k) s = .next t ∧ faulted t (bldcMotor k) 2 x.speed.toNat ∧
        t.now = max s.now (max x.lastHall x.dutyAt + max 1 x.stallT.toNat * ms)) ∧
      (x.st = .fault ∨ ¬ bad → exec (.hallFault k) s = .next s) ∧
      (x.st ≠ .fault → bad → ∃ t, exec (.hallFault k) s = .next t ∧ faulted t (bldcMotor k) 5 x.speed.toNat ∧ t.now = s.now + 10 * us) ∧
      (∀ code, ∃ v, exec (.hallEdge k code) s = .next { s with motn := { s.motn with bldc := tset s.motn.bldc k { x with
          hall := code, lastHall := s.now, speed := v } } } ∧
        v.toNat = if s.now = x.lastHall ∨ s.now < x.lastHall then 65535
          else min 65535 (8000000000 / ((s.now - x.lastHall) * max 1 x.pairs.toNat)))) ∧
    (∀ m : Motor, reach s .bar0 6 = true →
      (∀ n, motKind m = .inl n → let x := getStep s n
        (∃ t, exec (.motStop m) s = .next t ∧ (getStep t n).q = [] ∧ (getStep t n).cur = none ∧ (getStep t n).pos = x.pos ∧
          (x.st = .fault → (getStep t n).st = .fault) ∧
          (x.st = .idle ∨ x.st = .hold ∨ x.st ≠ .fault ∧ x.vel = 0 → (getStep t n).st = (if s.aon.hold = true ∨ s.motn.vmotOk = false then .idle else .hold)) ∧
          (x.st = .moving ∨ x.st = .stopping → x.vel ≠ 0 → (getStep t n).st = .stopping ∧ (getStep t n).vel = x.vel) ∧
          ((getFl s (motFl m)).down = false → (getFl t (motFl m)).ret = (getFl s (motFl m)).ret + x.q.length + x.cur.toList.length)) ∧
        (x.st ≠ .fault ∨ s.motn.vmotOk = false → exec (.motClr m) s =
          .next { s with motn := { s.motn with step := tset s.motn.step n { x with cmdErr := 1 } } }) ∧
        (x.st = .fault → s.motn.vmotOk = true → exec (.motClr m) s =
          .next { s with motn := { s.motn with step := tset s.motn.step n { x with st := .idle, fcause := 0 } } }) ∧
        (let free := (x.st = .idle ∨ x.st = .hold) ∧ x.q = [] ∧ x.cur = none
         (¬ free → exec (.motSetpos n) s = .next { s with motn := { s.motn with step := tset s.motn.step n { x with cmdErr := 1 } } }) ∧
         (free → ∃ t, exec (.motSetpos n) s = .next t ∧ getStep t n = { x with pos := x.posw, frac := 0, homed := true } ∧
           ChangesOnly [.motn, .aon] s t ∧ ∀ k : Fin 16, k ≠ n → getStep t k = getStep s k))) ∧
      (∀ k, motKind m = .inr k → let x := getBldc s k
        (∃ t, exec (.motStop m) s = .next t ∧ (getBldc t k).q = [] ∧ (getBldc t k).cur = none ∧
          (getBldc t k).st = (if x.st = .fault ∨ x.st = .idle then x.st else .stopping)) ∧
        (x.st ≠ .fault ∨ s.motn.vmotOk = false → exec (.motClr m) s = .next s) ∧
        (x.st = .fault → s.motn.vmotOk = true → exec (.motClr m) s =
          .next { s with motn := { s.motn with bldc := tset s.motn.bldc k { x with st := .idle, fcause := 0, set_ := 0 } } }))))

/-- Control loops and HV shorts (from R462 to R480, R490, R491, R494, R498). The numeric choices of the trajectory are log 23, the
CMDERR code log 22. -/
def Obligations.LoopsSampleLockAndShort : Prop :=
  (∀ (s : State) (l : LoopId) (m : BitVec 16), domUp s 7 = true →
    ((getLoop s l).st ≠ .run → justOff s (getLoop s l) = false ∨ nextSample (getLoop s l) ≠ s.cue.et.toNat →
      exec (.loopSample l m) s = .next s) ∧
    ((getLoop s l).st ≠ .run → justOff s (getLoop s l) = true → nextSample (getLoop s l) = s.cue.et.toNat →
      (getLoop s l).trail = false → ∃ t, exec (.loopSample l m) s = .next t ∧
      getLoop t l = { getLoop s l with m := m, startAt := s.cue.et.toNat + 1 } ∧ ChangesOnly [.loops] s t) ∧
    ((getLoop s l).st = .run →
      let x := getLoop s l
      let v := (loopInput s x m).toNat
      let g := x.gNext.getD x.g
      let hv := x.kind = 1
      let fresh := x.mPrev = none
      let prev : Int := x.mPrev.getD v
      let sp0 := if fresh ∧ ¬ hv then 256 * v else x.sp
      let tg0 := if fresh ∧ ¬ hv then 256 * v else x.target
      let take : Option SpEntry := if sp0 = tg0 then x.q.head? else none
      let tg := match take with | some e => 256 * e.target | none => tg0
      let rate := match take with | some e => e.rate | none => x.rate
      let sp1 := if take.isSome = true ∧ ¬ hv ∧ rate = none then tg else sp0
      let band := (tget s.loops.hvrlim (Fin.ofNat 8 s.therm.band.toNat)).toNat * clampN 2000 2000000 g.period * 256 / 200000
      let step := match decide hv, rate with | true, some r => min r band | true, none => band | false, some r => r | false, none => tg + sp1
      let sp := if sp1 < tg then min tg (sp1 + step) else max tg (sp1 - step)
      let omax := if x.kind = 4 then min 2047 g.omax else g.omax
      let e : Int := (sp / 256 : Nat) - (v : Int)
      let i := clampI (g.omin * 256) (omax * 256) (sat32 (x.i + g.ki.toInt * e))
      let u := clampI g.omin omax (sat32 (sat32 (g.kp.toInt * e) + i + sat32 (g.kd.toInt * (prev - v))) / 256)
      let change := take.isSome = true ∧ tg ≠ tg0
      let near := e.natAbs ≤ g.lockTol
      let inN := if near ∧ sp = tg then (if change then 0 else x.inN) + 1 else 0
      let outN := if near then 0 else (if change then 0 else x.outN) + 1
      let locked := x.locked = true ∧ ¬ change
      (hv → x.trail = false ∧ tg ≤ x.target) →
      ∃ t, exec (.loopSample l m) s = .next t ∧ (∀ k : LoopId, k ≠ l → getLoop t k = getLoop s k) ∧
        (domUp s 3 = true → nextSample x < 2 ^ 64 → t.cue.et.toNat = max s.cue.et.toNat (nextSample x)) ∧
        (getLoop t l).st = .run ∧ (getLoop t l).g = g ∧ (getLoop t l).gNext = none ∧ (getLoop t l).m.toNat = v ∧
        (getLoop t l).mPrev = some (v : Int) ∧ (getLoop t l).sp = sp ∧ (getLoop t l).target = tg ∧ (getLoop t l).rate = rate ∧
        (getLoop t l).i = i ∧ (getLoop t l).uNext = some (BitVec.ofInt 16 u) ∧ (getLoop t l).u = x.u ∧
        (getLoop t l).q = (if take.isSome then x.q.tail else x.q) ∧ (getLoop t l).inN = inN ∧ (getLoop t l).outN = outN ∧
        ((getLoop t l).locked = true ↔ ¬ locked ∧ max 1 g.lockN ≤ inN ∨ locked ∧ outN < max 1 g.lockN) ∧
        ((getFl s (spFl l)).down = false → (getFl t (spFl l)).ret = (getFl s (spFl l)).ret + (if take.isSome then 1 else 0)) ∧
        (¬ locked → max 1 g.lockN ≤ inN → EngineTold s t (20 + l.1) 0x0144 (20 + l.1) (leBytes 2 (sp / 256) ++ leBytes 2 v)) ∧
        (locked → max 1 g.lockN ≤ outN → EngineTold s t (20 + l.1) 0x0143 (20 + l.1) (leBytes 2 (sp / 256) ++ leBytes 2 v)))) ∧
  (∀ (s : State) (l : LoopId), domUp s 7 = true →
    let x := getLoop s l
    (x.uNext = none ∨ x.st ≠ .run → exec (.loopOutput l) s = .next s) ∧
    (∀ u, x.uNext = some u → x.st = .run → ∃ t, exec (.loopOutput l) s = .next t ∧
      t.loops = { s.loops with slot := tset s.loops.slot l { x with
        u := u, uOld := if outAt s x ≤ t.now then x.u else x.uOld, uAt := t.now, uNext := none } } ∧
      (x.kind = 3 → x.u = 0 → u ≠ 0 → (getBldc t (Fin.ofNat 4 x.out.toNat)).dutyAt = t.now) ∧
      (x.kind ≠ 3 ∨ x.u ≠ 0 ∨ u = 0 → t.motn = s.motn) ∧
      (x.kind ≠ 4 → t.beam = s.beam) ∧ (x.kind = 4 → (getStn t (Fin.ofNat 4 x.out.toNat)).trim = u.setWidth 11) ∧
      ChangesOnly [.now, .cue, .loops, .beam, .motn] s t ∧ (domUp s 3 = true → x.startAt - 1 + 160 < 2 ^ 64 →
        t.cue.et.toNat = max s.cue.et.toNat (x.startAt - 1 + 160))) ∧
    (x.kind ≠ 1 ∨ x.st ≠ .run ∧ justOff s x = false → exec (.hvIlim l) s = .next s) ∧
    (x.st = .run → x.kind = 1 → x.dep.getLsbD l.1 = false → ∃ t, exec (.hvIlim l) s = .next t ∧
      (getLoop t l).st = (if x.tries.toNat < x.g.retry then .cool else .short) ∧ (getLoop t l).cause = 2 ∧ (getLoop t l).u = 0 ∧
      (getLoop t l).tries = x.tries + 1 ∧ (getLoop t l).locked = false ∧ (getLoop t l).q = [] ∧ (getLoop t l).again = x.target ∧
      (∀ k : LoopId, k ≠ l → (getLoop s k).dep.getLsbD l.1 = true → (getLoop s k).st ≠ .short → (getLoop t k).st = .off) ∧
      ((getFl s (spFl l)).down = false → (getFl t (spFl l)).ret = (getFl s (spFl l)).ret + x.q.length) ∧
      (s.cue.pages = [] → (∀ k, (getLoop s k).dep.getLsbD l.1 = false) → EngineTold s t (20 + l.1) 0x0140 (20 + l.1)
        (leBytes 1 2 ++ leBytes 1 (x.tries + 1).toNat ++ leBytes 2 (x.sp / 256) ++ leBytes 2 x.m.toNat))) ∧
    (x.st ≠ .cool → exec (.hvCoolExpire l) s = .next s) ∧
    (x.st = .cool → ∃ t, exec (.hvCoolExpire l) s = .next t ∧ (∀ k : LoopId, k ≠ l → getLoop t k = getLoop s k) ∧
      (s.aon.hold = true → (getLoop t l).st = .short) ∧
      (s.aon.hold = false → (getLoop t l).st = .run ∧ (getLoop t l).target = x.again ∧ (getLoop t l).sp = 0 ∧ (getLoop t l).i = 0 ∧
        (getLoop t l).locked = false ∧ EngineTold s t (20 + l.1) 0x0145 (20 + l.1) (leBytes 1 x.tries.toNat)))) ∧
  (∀ (s : State) (l : LoopId), reach s .bar0 7 = true →
    let x := getLoop s l
    let put := fun y : LoopS => { s with loops := { s.loops with slot := tset s.loops.slot l y } }
    (x.st = .cool ∨ x.st = .short → exec (.loopClr l) s = .next (put { x with st := .off, cause := 0 })) ∧
    (x.st = .off ∨ x.st = .run ∨ x.st = .fault ∧ causeHolds s x = true → exec (.loopClr l) s = .next (put { x with cmdErr := 1 })) ∧
    (x.st = .fault → causeHolds s x = false → ∃ t, exec (.loopClr l) s = .next t ∧ getLoop t l = { x with st := .off, cause := 0 } ∧
      ChangesOnly [.loops] s t ∧ (getZone t (Fin.ofNat 2 x.out.toNat)).cause = 0) ∧
    (x.st ≠ .run → exec (.loopOff l) s = .next (put { x with cmdErr := 1 })) ∧
    (x.st = .run → ∃ t, exec (.loopOff l) s = .next t ∧ (getLoop t l).st = .off ∧ (getLoop t l).q = [] ∧
      (getLoop t l).u = (if x.kind = 4 then x.u else 0) ∧ (getLoop t l).locked = false ∧ Returned s t (spFl l) x.q.length ∧
      ChangesOnly [.loops, .fl] s t ∧ ∀ k : LoopId, k ≠ l → getLoop t k = getLoop s k))

/-- Heaters (from R482 to R487) and the head (from R402, R505 to R512, R518, R522, R526, R528 to R530). -/
def Obligations.FuserAndThermalHead : Prop :=
  (∀ s : State, domUp s 8 = true →
    let acc := fun (z : Zone) => (runHeater s z).map fun l => min 8191 ((getZone s z).acc + (getLoop s l).u.toNat)
    let fires := fun (z : Zone) (may : Prop) (t : State) => ∀ a, acc z = some a →
      (4096 ≤ a → may → getZone t z = { getZone s z with acc := a - 4096, firing := some (s.now + min 2000 (getZone s z).zdly.toNat * us) }) ∧
      (a < 4096 ∨ ¬ may → getZone t z = { getZone s z with acc := a })
    ∃ t, exec .zeroCrossing s = .next t ∧ ChangesOnly [.loops] s t ∧ t.loops.lastZc = some s.now ∧ t.loops.slot = s.loops.slot ∧
      fires 0 True t ∧ fires 1 (¬ (s.loops.alt = true ∧ ∃ a, acc 0 = some a ∧ 4096 ≤ a)) t ∧
      (∀ z : Zone, acc z = none → getZone t z = getZone s z)) ∧
  (∀ (s : State) (z : Zone), ((getZone s z).firing = none → exec (.heaterBurst z) s = .next s) ∧
    (∀ b, (getZone s z).firing = some b → ∃ t, exec (.heaterBurst z) s = .next t ∧ t.now = max s.now b ∧
      t.loops = { s.loops with zone := tset s.loops.zone z { getZone s z with firing := none } } ∧
      t.out = s.out ++ (if domUp s 8 = true ∧ (runHeater s z).isSome = true then
        [.heater z (clampN 1 15 (getZone s z).gpulses.toNat) (clampN 5 100 (getZone s z).gpw.toNat)] else []))) ∧
  (∀ (s : State) (raw : Vector (BitVec 12) 8) (z : Zone), domUp s 8 = true → s.cue.pages = [] →
    let x := getZone s z
    let rp := tget raw (Fin.ofNat 8 x.pri.toNat)
    let rg := tget raw (Fin.ofNat 8 x.guard.toNat)
    let tp := tableTemp x.tht (4095 - rp.toNat)
    let tg := tableTemp x.tht (4095 - rg.toNat)
    let ovt := if (x.tmax.toNat : Int) < tp ∨ (x.tmax.toNat : Int) < tg then x.ovt + 1 else 0
    let sens := if rp.toNat ≤ 16 ∨ 4079 ≤ rp.toNat ∨ rg.toNat ≤ 16 ∨ 4079 ≤ rg.toNat then x.sens + 1 else 0
    ∃ t, exec (.fuserCheck raw) s = .next t ∧ t.now = max s.now (gridNext (getDom s 8).since (10 * ms) s) ∧ (getZone t z).priT = BitVec.ofInt 16 tp ∧ (getZone t z).guardT = BitVec.ofInt 16 tg ∧
      (getZone t z).ovt = ovt ∧ (getZone t z).sens = sens ∧
      (x.cause ≠ 0 → (getZone t z).cause = x.cause) ∧
      (x.cause = 0 → 3 ≤ ovt ∨ 3 ≤ sens → (getZone t z).cause = (if 3 ≤ ovt then 3 else 4) ∧
        ∀ l, zoneSlot s z = some l → (getLoop t l).st = .fault ∧ (getLoop t l).u = 0 ∧ (getLoop t l).locked = false)) ∧
  (∀ (s : State) (ecc : Ecc),
    (s.head.line = none → exec (.headSlotLatch ecc) s = .next s ∧ exec .headGroupSlot s = .next s ∧ exec .headLineEnd s = .next s) ∧
    (∀ l, s.head.line = some l →
      let c := s.head.cur
      let waits := headEn s = true ∧ l.stop = false ∧ l.slot < l.nb + l.nm ∧ headGroups c ≤ l.group
      let w := slotWidth c l.panel l.band.toNat l.nb (l.slot - 1)
      let strobing := headEn s = true ∧ l.stop = false ∧ l.slot ≠ 0 ∧ l.group < headGroups c
      let isOver := l.stop = true ∨ l.nb + l.nm ≤ l.slot ∧ headGroups c ≤ l.group
      (¬ waits → exec (.headSlotLatch ecc) s = .next s) ∧
      (waits → l.slot = 0 → ecc = .uncorrectable → ∃ t, exec (.headSlotLatch ecc) s = .next t ∧ t.head.line = none ∧ t.out = s.out) ∧
      (waits → l.slot ≠ 0 ∨ ecc ≠ .uncorrectable → ∃ t, exec (.headSlotLatch ecc) s = .next t ∧
        t.head = { s.head with
          latched := latchMask l l.slot, line := some { l with slot := l.slot + 1, group := 0, latchAt := nextLatch c l } } ∧
        (domUp s 3 = true → nextLatch c l < 2 ^ 64 → t.cue.et.toNat = max s.cue.et.toNat (nextLatch c l)) ∧
        t.out = s.out ++ [.headShift (nextLatch c l - headShift c) (laneBits c (latchMask l l.slot))] ∧
        ChangesOnly [.now, .cue, .head, .rast, .out] s t) ∧
      (¬ strobing → exec .headGroupSlot s = .next s) ∧
      (strobing → ∃ t, exec .headGroupSlot s = .next t ∧ t.head = { s.head with line := some { l with group := l.group + 1 } } ∧
        t.out = s.out ++ [.strobes (groupMask c s.head.lineCtr.toNat l.group) w] ∧ ChangesOnly [.now, .cue, .head, .out] s t ∧
        (domUp s 3 = true → l.latchAt + l.group * (w + headGap c) < 2 ^ 64 →
          t.cue.et.toNat = max s.cue.et.toNat (l.latchAt + l.group * (w + headGap c)))) ∧
      (¬ isOver → exec .headLineEnd s = .next s) ∧
      (isOver → ∃ t, exec .headLineEnd s = .next t ∧ t.head.line = none ∧ t.head.lineCtr = s.head.lineCtr + 1 ∧ t.head.st = s.head.st))) ∧
  (∀ (s : State) (raw : BitVec 12), domUp s 9 = true →
    let x := s.head
    let v := tableTemp x.cur.tht (4095 - raw.toNat)
    let bad := if raw.toNat ≤ 16 ∨ 4079 ≤ raw.toNat then x.badN + 1 else 0
    ∃ t, exec (.headTempConvert raw) s = .next t ∧ t.now = max s.now (gridNext (getDom s 9).since (100 * us) s) ∧ t.head.temp = BitVec.ofInt 16 v ∧ t.head.badN = bad ∧
      t.head.hband = BitVec.ofNat 4 (nextHband x.cur (min 50 x.hhys.toNat : Nat) v x.hband.toNat) ∧
      (x.st ≠ .fault → (x.htmax.toNat : Int) < v → t.head.st = .fault ∧ t.head.fcause = 1) ∧
      (x.st ≠ .fault → ¬ ((x.htmax.toNat : Int) < v) → 3 ≤ bad → t.head.st = .fault ∧ t.head.fcause = 2) ∧
      (x.st = .fault ∨ ¬ ((x.htmax.toNat : Int) < v) ∧ bad < 3 → t.head.st = x.st ∧ ChangesOnly [.now, .cue, .head] s t)) ∧
  (∀ s : State, reach s .bar0 9 = true →
    let x := s.head
    let err := fun c : BitVec 2 => { s with head := { x with cmdErr := c } }
    (x.st ≠ .off ∨ headGood s = false → exec .headOn s = .next (err 1)) ∧
    (x.st = .off → headGood s = true → headLoad s = none → exec .headOn s = .next (err 2)) ∧
    (∀ c hys tm, x.st = .off → headGood s = true → headLoad s = some (c, hys, tm) →
      ((∃ i : Fin 64, tget c.mw i = 0 ∨ (tget c.mw i).toNat ≤ (tget c.bw i).toNat) → exec .headOn s = .next (err 3)) ∧
      ((∀ i : Fin 64, tget c.mw i ≠ 0 ∧ (tget c.bw i).toNat < (tget c.mw i).toNat) → ∃ t, exec .headOn s = .next t ∧
        t.head = { x with
          st := .ready, cur := clampHead c, hhys := hys, htmax := tm, lineCtr := 0, tlmax := BitVec.ofNat 32 (headTlmax (clampHead c)) } ∧
        ChangesOnly [.head, .fl, .host] s t ∧ EngineTold s t 88 0x0153 88 [])) ∧
    (∃ t, exec .headOff s = .next t ∧ t.head.st = .off ∧ t.head.fcause = 0 ∧ t.head.line = none ∧
      ∀ g ∈ t.cue.pages, g.isAdm = true → g.uses 4 = true → g.st = .aborting))

/-- Line scanning (from R537 to R557). The roundings of calibration and BUFLINES 0 are log 24. -/
def Obligations.ScannerLinesBuffersAndCalibration : Prop :=
  (∀ s : State, (s.scan.line = none → exec .scanExposureEnd s = .next s) ∧ (∀ l, s.scan.line = some l →
    let n : Fin 16 := Fin.ofNat 16 s.scan.curMode.stepper.toNat
    let x0 := l.d + 800 * s.scan.cur.exp.toNat
    (l.reading = true → exec .scanExposureEnd s = .next s) ∧
    (l.reading = false → ∃ t, exec .scanExposureEnd s = .next t ∧
      t.scan = { s.scan with line := some { l with reading := true, leds := 0 } } ∧ t.out = s.out ++ [.cisSi] ∧
      (domUp s 3 = true → x0 < 2 ^ 64 → t.cue.et.toNat = max s.cue.et.toNat x0) ∧
      (l.couples = false → ChangesOnly [.now, .cue, .scan, .out] s t) ∧
      (l.couples = true → ChangesOnly [.now, .cue, .scan, .out, .motn, .aon] s t ∧ t.aon.shadowValid.getLsbD n.1 = false ∧
        t.motn = { s.motn with
          step := tset s.motn.step n { getStep s n with coupled := true, amps := s.scan.curMode.istep } })))) ∧
  (∀ (s : State) (samples : List (List (BitVec 16))), (s.scan.line = none → exec (.scanLineEnd samples) s = .next s) ∧
    (∀ l, s.scan.line = some l →
      let n : Fin 16 := Fin.ofNat 16 s.scan.curMode.stepper.toNat
      let c := s.scan.cur
      let k := s.scan.curMode.feed.toNat * scanAvg s.scan
      let d : Int := if s.scan.curMode.dir then -(k : Int) else k
      let e := l.d + 800 * c.exp.toNat + (1 + c.dummy.toNat + c.segpix.toNat) * (2 * c.cdiv.toNat)
      (l.reading = false → exec (.scanLineEnd samples) s = .next s) ∧
      (l.reading = true → ∃ t, exec (.scanLineEnd samples) s = .next t ∧
        (s.scan.offWant = false → t.scan = { s.scan with
          line := none, endAt := e, lines := s.scan.lines + 1, q := s.scan.q ++ [scanLineBytes s.scan samples], fed := t.scan.fed }) ∧
        (s.scan.offWant = true → t.scan.st = .off ∧ t.scan.line = none ∧ t.scan.q = [] ∧ t.scan.bufs = []) ∧
        (domUp s 3 = true → e < 2 ^ 64 → t.cue.et.toNat = max s.cue.et.toNat e) ∧
        t.out = s.out ++ (if l.couples = true ∧ k ≠ 0 then [.usteps n d, .ustepTimes n
          (coupledTimes { s with now := t.now, cue := { s.cue with et := t.cue.et } } (l.d + 800 * c.exp.toNat) k)] else []) ∧
        (l.couples = false → t.motn = s.motn) ∧
        (l.couples = true → t.motn = { s.motn with
          step := tset s.motn.step n { getStep s n with
            pos := (getStep s n).pos + BitVec.ofInt 32 d, coupled := false
            amps := if (getStep s n).st = .hold then (getStep s n).iholdD else (getStep s n).amps } })))) ∧
  (∀ s : State,
    let may := domUp s 10 = true ∧ s.mem.ready = true ∧ s.scan.curMode.out = 0
    (¬ may ∨ s.scan.q = [] ∨ s.scan.bufs = [] → exec .scanRawWrite s = .next s) ∧
    (∀ line rest b bs, may → s.scan.q = line :: rest → s.scan.bufs = b :: bs →
      let at_ := b.loc + b.lines * lineBytes s.scan
      let full := max 1 s.scan.bufLines.toNat ≤ b.lines + 1
      ∃ t, exec .scanRawWrite s = .next t ∧
        t.mem = { s.mem with data := memWrite s.mem.data at_ (line.take (usableBytes s - at_)), soft := t.mem.soft } ∧ t.scan = { s.scan with
          q := rest, bufs := if full then bs else { b with lines := b.lines + 1, bytes := b.bytes + line.length } :: bs } ∧
        ((getFl s scanFl).down = false → (getFl t scanFl).ret = (getFl s scanFl).ret + 1) ∧
        (full → EngineTold s t 89 0x0160 89 (leBytes 4 b.seq.toNat ++ leBytes 4 (b.bytes + line.length) ++ leBytes 1 0) ∧
          ((getFl s bufFl).down = false → (getFl t bufFl).tally = min (getFl s bufFl).depth ((getFl s bufFl).tally + 1))) ∧
        (¬ full → ChangesOnly [.mem, .scan, .fl] s t ∧ Returned s t scanFl 1))) ∧
  (∀ s : State, reach s .bar0 10 = true →
    let x := s.scan
    let good := hasTally s bufFl = true
    let fits := x.bufLoc.toNat % 64 = 0 ∧ x.bufLoc.toNat + x.bufLen.toNat ≤ usableBytes s ∧ bufNeed x ≤ x.bufLen.toNat
    let err := fun e : Byte => { s with scan := { x with bufErr := e } }
    let e2 := fun e : BitVec 2 => { s with scan := { x with cmdErr := e } }
    (¬ good → exec .scanBufPush s = .next (err 3)) ∧ (good → ¬ fits → exec .scanBufPush s = .next (err 5)) ∧
    (good → fits → ∃ t, exec .scanBufPush s = .next t ∧ ChangesOnly [.scan, .fl] s t ∧ t.scan = { x with
      bufs := x.bufs ++ [{ loc := x.bufLoc.toNat, len := x.bufLen.toNat, seq := x.nextBuf, lines := 0, bytes := 0 }]
      nextBuf := x.nextBuf + 1 } ∧ (getFl t bufFl).tally + 1 = (getFl s bufFl).tally) ∧
    (x.st ≠ .off ∨ scanGood s = false → exec .scanOn s = .next (e2 1)) ∧
    (x.st = .off → scanGood s = true → scanLoad s = none → exec .scanOn s = .next (e2 2)) ∧
    (∀ c, x.st = .off → scanGood s = true → scanLoad s = some c →
      let seg := clampN 1 3 c.segs.toNat
      let steps := x.mode.feed.toNat * (if x.mode.avg = 0 then 1 else if x.mode.avg = 1 then 2 else 4)
      let geom := 10 * seg ≤ c.cdiv.toNat ∧ seg * c.segpix.toNat ≤ 10240 ∧ c.segpix.toNat % 4 = 0 ∧
        steps * 800 ≤ (c.dummy.toNat + c.segpix.toNat) * (2 * c.cdiv.toNat)
      (¬ geom → exec .scanOn s = .next (e2 3)) ∧
      (geom → ∃ t, exec .scanOn s = .next t ∧ t.scan = { x with
        st := .ready, cur := c, curMode := x.mode, lines := 0, k3 := 0, bufs := renumber 0 x.bufs
        nextBuf := BitVec.ofNat 32 x.bufs.length, fed := 0, coded := 0, offWant := false } ∧
        ChangesOnly [.scan, .fl, .host] s t ∧ EngineTold s t 89 0x0163 89 [])) ∧
    (x.line ≠ none → exec .scanOff s = .next { s with scan := { x with offWant := true } }) ∧
    (x.line = none → ∃ t, exec .scanOff s = .next t ∧ t.scan.st = .off ∧ t.scan.fcause = 0 ∧ t.scan.line = none ∧ t.scan.q = [] ∧
      t.scan.bufs = [] ∧ t.scan.cur = x.cur ∧
      ((getFl s scanFl).down = false → (getFl t scanFl).ret = (getFl s scanFl).ret + x.q.length) ∧
      ((getFl s bufFl).down = false → x.bufs ≠ [] →
        (getFl t bufFl).tally = min (getFl s bufFl).depth ((getFl s bufFl).tally + x.bufs.length))) ∧
    (x.st = .ready ∧ x.line = none → exec .scanCal s = .next { s with scan := { x with st := .cal } }) ∧
    (¬ (x.st = .ready ∧ x.line = none) → exec .scanCal s = .next (e2 1))) ∧
  (∀ (s : State) (dark red green blue : List (List (BitVec 16))),
    (s.scan.st ≠ .cal ∨ s.aon.hold = true → exec (.scanCalComplete dark red green blue) s = .next s) ∧
    (s.scan.st = .cal → s.aon.hold = false →
      let c := s.scan.cur
      let n := c.segpix.toNat
      let ni : Int := n
      let w : Int := (c.white.toNat : Int) - c.dark.toNat
      let md := fun k : Fin 3 => segSum n dark k.1
      let mx := fun (k x : Fin 3) => segSum n (if x = 0 then red else if x = 1 then green else blue) k.1
      let o := fun k : Fin 3 => (tget c.offs k).toInt - roundDiv (md k - ni * c.dark.toNat) (32 * max 1 ni)
      let at_ := fun (k x : Fin 3) => (⟨3 * k.1 + x.1, by omega⟩ : Fin 9)
      let g := fun (k x : Fin 3) =>
        roundDiv ((63 + 5 * ((tget c.gains (at_ k x)).toNat : Int)) * w * ni - 63 * (mx k x - md k)) (5 * (mx k x - md k))
      let used := fun k : Fin 3 => k.1 < clampN 1 3 c.segs.toNat
      ∃ t, exec (.scanCalComplete dark red green blue) s = .next t ∧ t.scan.st = .ready ∧
        (∀ k, used k → tget t.scan.cur.offs k = BitVec.ofInt 9 (clampI (-256) 255 (o k)) ∧
          tget t.scan.reg.offs k = tget t.scan.cur.offs k ∧ ∀ x, md k < mx k x →
            tget t.scan.cur.gains (at_ k x) = BitVec.ofInt 6 (clampI 0 63 (g k x)) ∧
            tget t.scan.reg.gains (at_ k x) = tget t.scan.cur.gains (at_ k x)) ∧
        (∀ k, ¬ used k → tget t.scan.cur.offs k = tget c.offs k ∧ ∀ x, tget t.scan.cur.gains (at_ k x) = tget c.gains (at_ k x)) ∧
        (t.scan.calClip = true ↔ ∃ k, used k ∧ ((o k < -256 ∨ 255 < o k) ∨ ∃ x, mx k x ≤ md k ∨ g k x < 0 ∨ 63 < g k x)) ∧
        EngineTold s t 89 0x0162 89 (leBytes 1 (b2n t.scan.calClip)) ∧ ChangesOnly [.scan, .fl, .host, .freeCount] s t))

/-- The NV writer and the fault log (from R607 to R623). A record cut short by a power loss is in PowerOnResetAndRelease. -/
def Obligations.NvWritesAndTheFaultLog : Prop :=
  (∀ s : State,
    let ok := fun (c : Nat) (w : NvWrite) => nvClass w = c ∧ ¬ (c = 0 ∧ s.aon.pfwLow = true)
    (s.aon.por = true ∨ (∀ w ∈ s.nv.queue, ∀ c, ¬ ok c w) → exec .nvWrite s = .next s) ∧
    (∀ (c : Nat) (l r : List NvWrite) (w : NvWrite), s.aon.por = false → s.nv.queue = l ++ w :: r → ok c w → (∀ v ∈ l, ¬ ok c v) →
      (∀ v ∈ s.nv.queue, ∀ d < c, ¬ ok d v) →
      exec .nvWrite s = .next (nvApply w { s with nv := { s.nv with queue := l ++ r } }))) ∧
  (∀ (s : State) (k : Fin 2) (c : BitVec 4), nvApply (.slotState k c) s = { s with nv := { s.nv with slot := tset s.nv.slot k c } }) ∧
  (∀ (s : State) (inc : Vector Word 8),
    let sum := fun v : Vector DWord 8 => Vector.ofFn fun k : Fin 8 => tget v k + (tget inc k).setWidth 64
    nvApply (.usage inc) s = { s with
      nv := { s.nv with usage := sum s.nv.usage, pages := s.nv.pages + 1 }
      aon := { s.aon with usage := sum s.aon.usage, pages := s.aon.pages + 1 } }) ∧
  (∀ s : State,
    (s.lg.queue = [] ∨ s.aon.por = true ∨ (nvPick s).isSome = true → exec .logRecordCommit s = .next s) ∧
    (∀ e rest, s.lg.queue = e :: rest → s.aon.por = false → nvPick s = none →
      let k := e.stream
      let st := tget s.nv.streams k
      let gone := s.lg.mode.getLsbD k.1 = true ∧ s.aon.pfwLow = true
      let lg := { s.lg with queue := rest }
      (gone → ∃ t, exec .logRecordCommit s = .next t ∧ ChangesOnly [.lg, .nv, .fl] s t ∧ Returned s t logFl 1 ∧ t.lg = lg ∧
        t.nv = { s.nv with streams := tset s.nv.streams k { st with lost := satInc st.lost } }) ∧
      (¬ gone → exportCovers s k st.next = true → exec .logRecordCommit s = .next s) ∧
      (¬ gone → exportCovers s k st.next = false → ∃ t, exec .logRecordCommit s = .next t ∧ ChangesOnly [.lg, .nv, .fl] s t ∧
        Returned s t logFl 1 ∧ t.lg = lg ∧ (∀ j : Fin 4, j ≠ k → tget t.nv.streams j = tget s.nv.streams j) ∧
        (tget t.nv.streams k).next = (if st.next + 1 < 3040 then st.next + 1 else (st.next + 1) % 3040) ∧
        (tget t.nv.streams k).nextSeq = (if st.nextSeq = 0xFFFFFFFE then 0 else st.nextSeq + 1) ∧
        (tget t.nv.streams k).lost = st.lost ∧ (∀ i, i ≠ st.next → slotAt (tget t.nv.streams k) i = slotAt st i) ∧
        ∃ x, slotAt (tget t.nv.streams k) st.next = some x ∧ x.seq = st.nextSeq ∧
          (slotBytes x).take 28 = leBytes 4 st.nextSeq.toNat ++ leBytes 2 e.code.toNat ++ leBytes 2 e.src.toNat ++
            leBytes 8 e.et.toNat ++ leBytes 4 e.aont.toNat ++ leBytes 4 e.d0.toNat ++ leBytes 4 e.d1.toNat ∧
          (slotBytes x).length = 32 ∧ fieldN (slotBytes x) 28 4 = (crc32c ((slotBytes x).take 28)).toNat))) ∧
  (∀ (s : State) (p : Port) (v : Word), reach s p 0 = true →
    exec (.logReadout p v) s = .next { s with lg := { s.lg with rdSeq := v, rdBusy := true } }) ∧
  (∀ s : State, (s.lg.rdBusy = false → exec .logReadoutDone s = .next s) ∧
    (s.lg.rdBusy = true →
      let has := fun x : LogSlot => x ∈ (tget s.nv.streams (Fin.ofNat 4 s.lg.rdStream.toNat)).slots.map (·.2) ∧ slotOk x = true ∧
        s.lg.rdSeq.toNat ≤ x.seq.toNat
      ((∀ x, ¬ has x) → exec .logReadoutDone s = .next { s with lg := { s.lg with rdBusy := false, rdFound := false } }) ∧
      ((∃ x, has x) → ∃ x, has x ∧ (∀ y, has y → x.seq.toNat ≤ y.seq.toNat) ∧ exec .logReadoutDone s = .next { s with
        lg := { s.lg with rdBusy := false, rdFound := true, rdRseq := x.seq, win := slotWords x } }))) ∧
  (∀ (s : State) (p : Port) (v : Word), reach s p 0 = true →
    let lg := { s.lg with
      xCount := BitVec.ofNat 12 (v.toNat / 2 ^ 16), xStream := BitVec.ofNat 2 (v.toNat / 2 ^ 4), xMode := BitVec.ofNat 2 (v.toNat / 2) }
    let state := s.lg.xBusy = true ∨ domUp s 2 = false ∨ s.mem.ready = false ∨ lg.xMode ≠ 0 ∧ domUp s 4 = false
    let bytes := 32 * lg.xCount.toNat + (if lg.xMode = 0 then 0 else 8 + 8 * ((32 * lg.xCount.toNat + 4095) / 4096))
    let range := rangePresent (tget s.nv.streams (Fin.ofNat 4 lg.xStream.toNat)) lg.xFirst lg.xCount.toNat = true
    let fits := lg.xMode ≠ 3 ∧ 1 ≤ lg.xCount.toNat ∧ lg.xCount.toNat ≤ 3040 ∧ range ∧ lg.xDst.toNat % 64 = 0 ∧
      lg.xDst.toNat + bytes ≤ usableBytes s
    (state → exec (.logExport p v) s = .next { s with lg := { lg with xErr := 3, xDone := true } }) ∧
    (¬ state → ¬ fits → exec (.logExport p v) s = .next { s with lg := { lg with xErr := 5, xDone := true } }) ∧
    (¬ state → fits → ∃ t, exec (.logExport p v) s = .next t ∧ t.lg.xBusy = true ∧ t.lg.xErr = 0 ∧ t.lg.xRes = none ∧
      t.lg.xRun = { dst := lg.xDst, first := lg.xFirst, count := lg.xCount, stream := lg.xStream, mode := lg.xMode } ∧
      t.lg.xCount = lg.xCount ∧ t.lg.xStream = lg.xStream ∧ t.lg.xMode = lg.xMode ∧ t.lg.queue = s.lg.queue ∧ t.nv = s.nv ∧
      t.mem = s.mem ∧ (lg.xMode = 0 → t.rast.enc = s.rast.enc ∨ scanEnc s.scan ≠ none))) ∧
  (∀ s : State,
    let ends := fun (t : State) (err : Byte) (n : Nat) => t.lg.xBusy = false ∧ t.lg.xDone = true ∧ t.lg.xErr = err ∧
      let e : LogEntry := { stream := 0, code := 0x0187, src := 0xFFFF, et := etNow s, aont := aont s, d0 := err.setWidth 32, d1 := BitVec.ofNat 32 n }
      (hasTally s logFl = true → s.lg.latches = [] → t.lg.queue = s.lg.queue ++ [e]) ∧
      (s.aon.latches = [] → hasTally s aonFl = false → t.aon.latches = [{ code := 0x0187, count := 1, d0 := e.d0, d1 := e.d1, since := s.now }])
    let r := s.lg.xRun
    (s.lg.xBusy = false ∨ s.mem.ready = false ∨ r.mode ≠ 0 ∧ s.lg.xRes = none → exec .logExportDone s = .next s) ∧
    (s.lg.xBusy = true → s.mem.ready = true → r.mode = 0 → ∃ t, exec .logExportDone s = .next t ∧
      ends t 0 (exportData s).length ∧ t.mem = { s.mem with
        data := memWrite s.mem.data r.dst.toNat ((exportData s).take (usableBytes s - r.dst.toNat)), soft := t.mem.soft } ∧ t.nv = s.nv) ∧
    (∀ err n, s.lg.xBusy = true → s.mem.ready = true → r.mode ≠ 0 → s.lg.xRes = some (err, n) → err < 256 → ∃ t, exec .logExportDone s = .next t ∧
      ends t (BitVec.ofNat 8 err) n ∧ t.mem = s.mem ∧ t.nv = s.nv))

/-- Ports and frames of the skid link (from R632 to R635, R644, R654). That unacknowledged frames stay through DOWN and go out again, and
what a FAULT port does with its partner's signal, are the model's readings (log 27). -/
def Obligations.SkidPortsAndFrames : Prop :=
  (∀ (s : State) (q : SkidPort) (f : Frame),
    let p := getPort s q
    let t := sendSkid q f s
    (p.st ≠ .up → t = s) ∧
    (p.st = .up → hasTally s (skidFl q) = true → p.waiting = [] → getPort t q = { p with
        unacked := p.unacked ++ [f], sentAt := p.sentAt ++ [s.now] } ∧
      t.out = s.out ++ [.skid q f] ∧ (getFl t (skidFl q)).tally + 1 = (getFl s (skidFl q)).tally ∧ ChangesOnly [.skid, .fl, .out] s t) ∧
    (p.st = .up → hasTally s (skidFl q) = false ∨ p.waiting ≠ [] → getPort t q = { p with waiting := p.waiting ++ [f] } ∧
      ChangesOnly [.skid] s t)) ∧
  (∀ (s : State) (q : SkidPort),
    let p := getPort s q
    let put := fun y : PortS => { s with skid := { s.skid with port := tset s.skid.port q y } }
    (p.unacked = [] ∨ portUp s q = false → exec (.skidAckFrame q) s = .next s ∧ exec (.skidAckTimeout q) s = .next s) ∧
    (∀ f rest, p.unacked = f :: rest → portUp s q = true →
      (∃ t, exec (.skidAckFrame q) s = .next t ∧ t.skid = (put { p with
          unacked := rest, sentAt := p.sentAt.tail, fails := 0 }).skid ∧
        ((getFl s (skidFl q)).down = false → (getFl t (skidFl q)).ret = (getFl s (skidFl q)).ret + 1) ∧
        (q = 1 ∨ ownRecord s f = false → ChangesOnly [.skid, .fl] s t ∧ Returned s t (skidFl q) 1) ∧
        (q = 0 → ownRecord s f = true →
          s.host.waiting = [] ∨ (∀ x, s.host.staging.head? = some x → x.cls = .general ∨ x.cls = .gone) → stagedRecs t = (stagedRecs s).tail ∧ waitingRecs t = waitingRecs s ∧
          ChangesOnly [.skid, .fl, .host] s t)) ∧
      (∃ t, exec (.skidAckTimeout q) s = .next t ∧ t.now = max s.now (p.sentAt.headD 0 + 2 * us) ∧
        (8 ≤ p.fails + 1 → t.skid = (put { p with st := .fault, since := t.now, fails := 0 }).skid ∧
          ChangesOnly [.now, .cue, .skid] s t) ∧
        (p.fails + 1 < 8 → t.skid = (put { p with fails := p.fails + 1, sentAt := t.now :: p.sentAt.tail }).skid ∧
          t.out = s.out ++ [.skid q f] ∧ ChangesOnly [.now, .cue, .skid, .out] s t))) ∧
    (domUp s 11 = false ∨ p.st ≠ .fault → exec (.skidPortRetrain q) s = .next s) ∧
    (domUp s 11 = true → p.st = .fault →
      let n := if q = 0 then (p.unacked.filter (ownRecord s)).length else 0
      ∃ t, exec (.skidPortRetrain q) s = .next t ∧ t.now = max s.now (p.since + ms) ∧
        t.skid = (put { p with st := .train, unacked := [], sentAt := [] }).skid ∧
        t.aon.lost = (s.aon.lost || (s.host.staging.take n).any (·.cls != .gone)) ∧
        (s.host.waiting = [] → stagedRecs t = (stagedRecs s).drop n ∧ waitingRecs t = waitingRecs s ∧
          ((getFl s (skidFl q)).down = false → (getFl t (skidFl q)).ret = (getFl s (skidFl q)).ret + p.unacked.length) ∧
          ChangesOnly [.now, .cue, .skid, .fl, .host, .aon] s t))) ∧
  (∀ (s : State) (q : SkidPort),
    let p := getPort s q
    let put := fun y : PortS => { s with skid := { s.skid with port := tset s.skid.port q y } }
    (domUp s 11 = true → p.st = .down → exec (.skidPartnerSignal q true) s = .next (put { p with st := .train, since := s.now })) ∧
    (domUp s 11 = true → p.st = .train ∨ p.st = .up →
      exec (.skidPartnerSignal q false) s = .next (put { p with st := .down, since := s.now })) ∧
    (domUp s 11 = false ∨ p.st ≠ .down → exec (.skidPartnerSignal q true) s = .next s) ∧
    (domUp s 11 = false ∨ p.st = .down ∨ p.st = .fault → exec (.skidPartnerSignal q false) s = .next s) ∧
    (domUp s 11 = false ∨ p.st ≠ .train → exec (.skidLanesAligned q) s = .next s) ∧
    (domUp s 11 = true → p.st = .train →
      let up := put { p with st := .up, since := s.now, fails := 0, sentAt := p.unacked.map fun _ => s.now }
      let again := s.out ++ p.unacked.map (.skid q)
      (q = 0 ∨ s.skid.enum = .idle → exec (.skidLanesAligned q) s = .next { up with out := again }) ∧
      (∀ b, q = 1 → s.skid.enum = .manager b →
        exec (.skidLanesAligned q) s = .next { up with out := again ++ [.skid 1 (.enum 1 (etNow s) s.epoch)] }) ∧
      (∀ b d et e, q = 1 → s.skid.enum = .worker b d et e → exec (.skidLanesAligned q) s = .next { up with
        skid := { up.skid with enum := .idle, chain := 2 }, out := again ++ [.skid 1 (.enum (d + 1) (etNow s) e)] })))

/-- Enumeration (from R31, R635 to R640, R658, R659). How a chain that passed ENUM on counts as running before the reply is the model's
reading (log 28). -/
def Obligations.CascadeEnumeration : Prop :=
  (∀ s : State, reach s .bar0 11 = true →
    (isManager s = false → exec .skidEnum s = .next s) ∧
    (isManager s = true → exec .skidEnum s = .next { s with
      skid := { s.skid with enum := .manager s.now, chain := 1 }
      out := s.out ++ (if portUp s 1 then [.skid 1 (.enum 1 (etNow s) s.epoch)] else []) })) ∧
  (∀ (s : State) (q : SkidPort) (d : BitVec 4) (et : DWord) (ep : BitVec 16),
    let n := d.toNat
    let still := (∀ c : Chan, (getCh s c).st = .disarmed) ∧ ∀ k : Trk, (getTrk s k).en = false
    let off := max s.cue.et.toNat et.toNat - min s.cue.et.toNat et.toNat
    let renum := n ≠ devNum s ∧ (∃ c : Chan, (getCh s c).st ≠ .disarmed) ∨ ¬ still ∧ ms < off
    let refused := fun err : BitVec 3 => ∃ t, exec (.enumFrame q d et ep) s = .next t ∧
      t.skid = { s.skid with err := err, devnum := 0, chain := 3, enum := .idle, partOk := false, gotEnum := true } ∧
      t.out = s.out ++ [.skid 0 (.enumEnd err 0)] ∧ ChangesOnly [.skid, .lg, .fl, .out] s t
    (portUp s q = false ∨ q ≠ 0 → exec (.enumFrame q d et ep) s = .next s) ∧
    (q = 0 → portUp s 0 = true → isManager s = true → ∃ t, exec (.enumFrame q d et ep) s = .next t ∧
      t.skid.err = 1 ∧ t.skid.chain = 3 ∧ t.skid.live = 0 ∧ t.skid.enum = .idle ∧ t.skid.partOk = false ∧
      t.out = s.out ++ [.skid 0 (.enumEnd 1 0)] ∧ EngineTold s t (unitSrc 11 0) 0x01A0 0xFFFF [1, 0]) ∧
    (q = 0 → portUp s 0 = true → isManager s = false →
      (n = 8 → refused 2) ∧ (n = 0 ∨ 8 < n → exec (.enumFrame q d et ep) s = .next s) ∧ (1 ≤ n → n < 8 → renum → refused 4) ∧
      (1 ≤ n → n < 8 → ¬ renum → ∃ t, exec (.enumFrame q d et ep) s = .next t ∧ t.skid.devnum = d.setWidth 3 ∧ t.skid.err = 0 ∧
        t.skid.gotEnum = true ∧ t.skid.partOk = true ∧ t.skid.hbMiss = 0 ∧ t.epoch = ep ∧ t.cue.et = (if still then et else s.cue.et) ∧
        (portUp s 1 = true → t.skid.enum = .idle ∧ t.skid.chain = 2 ∧ t.out = s.out ++ [.skid 1 (.enum (d + 1) (etNow t) ep)]) ∧
        (portUp s 1 = false → t.skid.enum = .worker s.now d et ep ∧ t.skid.chain = 1 ∧ t.out = s.out) ∧
        ChangesOnly [.cue, .skid, .epoch, .out] s t))) ∧
  (∀ s : State, (∀ b d et e, s.skid.enum ≠ .worker b d et e) → exec .enumLinkWaitExpire s = .next s) ∧
  (∀ (s : State) (b : Nat) (d : BitVec 4) (et : DWord) (e : BitVec 16), s.skid.enum = .worker b d et e →
    ∃ t, exec .enumLinkWaitExpire s = .next t ∧ t.now = max s.now (b + 10 * ms) ∧ t.skid = { s.skid with enum := .idle, chain := 2 } ∧
      t.out = s.out ++ (if portUp s 0 then [.skid 0 (.enumEnd 0 (d.setWidth 3))] else []) ∧
      ChangesOnly [.now, .cue, .skid, .lg, .fl, .out] s t) ∧
  (∀ (s : State) (err n : BitVec 3),
    let runs := err = 0 ∨ err = 3
    let ended := fun (t : State) (err n : BitVec 3) => t.skid.err = err ∧ t.skid.enum = .idle ∧
      (err = 0 ∨ err = 3 → t.skid.chain = 2 ∧ t.skid.workers = n ∧ t.skid.partOk = true ∧
        ∀ d : Fin 8, t.skid.live.getLsbD d.1 = decide (1 ≤ d.1 ∧ d.1 ≤ n.toNat)) ∧
      (¬ (err = 0 ∨ err = 3) → t.skid.chain = 3 ∧ t.skid.workers = 0 ∧ t.skid.partOk = false ∧ t.skid.live = 0) ∧
      (∀ d : Fin 8, tget t.host.wresFree d = if t.skid.live.getLsbD d.1 = false then 0
        else if s.skid.live.getLsbD d.1 then tget s.host.wresFree d else 64 - takenBy s d) ∧
      (∀ x ∈ t.skid.dir, t.skid.live.getLsbD (x.toNat / 64) = true ∧ x ∈ s.skid.dir) ∧
      EngineTold s t (unitSrc 11 0) 0x01A0 0xFFFF [err.setWidth 8, t.skid.workers.setWidth 8] ∧
      (s.boot.ldieDone = false → ChangesOnly [.now, .cue, .skid, .host, .lg, .fl] s t)
    (portUp s 1 = false ∨ isManager s = true ∧ (∀ b, s.skid.enum ≠ .manager b) ∨ isManager s = false ∧ s.skid.chain ≠ 2 →
      exec (.enumReply err n) s = .next s) ∧
    (∀ b, portUp s 1 = true → isManager s = true → s.skid.enum = .manager b → ∃ t, exec (.enumReply err n) s = .next t ∧
      t.now = s.now ∧ ended t err n) ∧
    (portUp s 1 = true → isManager s = false → s.skid.chain = 2 → ∃ t, exec (.enumReply err n) s = .next t ∧
      t.skid = (if runs then { s.skid with err := err } else { s.skid with err := err, devnum := 0, chain := 3, partOk := false }) ∧
      t.out = s.out ++ (if portUp s 0 then [.skid 0 (.enumEnd err n)] else []) ∧ ChangesOnly [.skid, .lg, .fl, .out] s t) ∧
    ((∀ b, s.skid.enum ≠ .manager b) → exec (.enumTimeout n) s = .next s) ∧
    (∀ b, s.skid.enum = .manager b → ∃ t, exec (.enumTimeout n) s = .next t ∧ t.now = max s.now (b + 100 * ms) ∧ ended t 3 n)) ∧
  (∀ s : State,
    let due_ := domUp s 11 = true ∧ isManager s = false ∧ s.skid.gotEnum = false ∧ s.skid.noMgr = false
    (¬ due_ → exec .noManager s = .next s) ∧
    (due_ → ∃ t, exec .noManager s = .next t ∧ t.now = max s.now (s.skid.upAt + sec) ∧ t.skid = { s.skid with noMgr := true } ∧
      ChangesOnly [.now, .cue, .skid, .lg, .fl] s t ∧ (hasTally s logFl = true → s.lg.latches = [] → ∃ e : LogEntry,
        t.lg.queue = s.lg.queue ++ [e] ∧ e.stream = 0 ∧ e.code = BitVec.ofNat 16 (Config.logCode 2).toNat)))

/-- Heartbeats, Engine Time and partner loss (from R640 to R642, R645, R649 to R654, R658, R661). Which miss a late heartbeat or echo ends is
the model's reading (log 29); that ECHO goes on at each hop is R633. -/
def Obligations.CascadeHeartbeatTimeAndLoss : Prop :=
  (∀ s : State,
    let k := s.cue.et.toNat / 8000 + 1
    (domUp s 11 = false ∨ isManager s = false → exec .heartbeatSend s = .next s) ∧
    (domUp s 11 = true → isManager s = true → 8000 * k < 2 ^ 64 → ∃ t, exec .heartbeatSend s = .next t ∧ t.cue.et.toNat = 8000 * k ∧
      t.skid = { s.skid with hb := k } ∧ t.out = s.out ++ (if portUp s 1 then
        [.skid 1 (.heartbeat k (ownRunning s ++ s.skid.dir)), .skid 1 (.tsync (16 * (8000 * k)))] else []) ∧
      ChangesOnly [.now, .cue, .skid, .out] s t)) ∧
  (∀ (s : State) (k : Nat) (l : List (BitVec 9)) (off16 : Nat),
    let may := inChain s = true ∧ portUp s 0 = true
    let new := s.skid.hb + s.skid.hbMiss < k
    let off : Int := 16 * (s.cue.et.toNat : Int) - off16
    let near := -32 ≤ off ∧ off ≤ 32
    (¬ may → exec (.heartbeatFrame k l) s = .next s ∧ exec (.tsyncFrame off16) s = .next s) ∧
    (may → exec (.heartbeatFrame k l) s = .next { s with
      skid := { s.skid with dir := l, hb := if new then k else s.skid.hb, hbMiss := if new then 0 else s.skid.hbMiss }
      out := s.out ++ [.skid 0 (.echo (Fin.ofNat 8 (devNum s)) k)] ++ (if portUp s 1 then [.skid 1 (.heartbeat k l)] else []) }) ∧
    (may → exec (.tsyncFrame off16) s = .next { s with
      skid := { s.skid with
        toff := BitVec.ofInt 16 (max (-32768) (min 32767 off)), tsync := s.skid.tsync && decide near
        offOkFrom := if near then some (s.skid.offOkFrom.getD s.now) else none }
      out := s.out ++ (if portUp s 1 then [.skid 1 (.tsync off16)] else []) })) ∧
  (∀ (s : State) (d : Fin 8) (k : Nat),
    let may := portUp s 1 = true ∧ isManager s = true ∧ s.skid.live.getLsbD d.1 = true
    let new := tget s.skid.echo d + tget s.skid.echoMiss d < k
    let further := inChain s = true ∧ portUp s 1 = true ∧ devNum s < d.1
    (¬ (may ∧ new) → ¬ further → exec (.echoFrame d k) s = .next s) ∧
    (further → exec (.echoFrame d k) s = .next { s with out := s.out ++ (if portUp s 0 then [.skid 0 (.echo d k)] else []) }) ∧
    (may → new → exec (.echoFrame d k) s = .next { s with
      skid := { s.skid with echo := tset s.skid.echo d k, echoMiss := tset s.skid.echoMiss d 0 } })) ∧
  (∀ s : State,
    let n := s.skid.hbMiss + 1
    let at_ := 8000 * (s.skid.hb + n) + 2400
    (inChain s = false ∨ 3 < n → exec .heartbeatMiss s = .next s) ∧
    (inChain s = true → n ≤ 3 → ∃ t, exec .heartbeatMiss s = .next t ∧ t.skid.hbMiss = n ∧ t.skid.missAt = t.now ∧
      (at_ < 2 ^ 64 → t.cue.et.toNat = max s.cue.et.toNat at_) ∧
      (n < 3 → t.skid = { s.skid with hbMiss := n, missAt := t.now } ∧ ChangesOnly [.now, .cue, .skid] s t) ∧
      (n = 3 → t.aon.hold = true ∧ t.aon.livePart = true ∧ t.aon.cPart = true ∧ t.skid = { s.skid with
        hbMiss := n, missAt := t.now, wlost := withBit s.skid.wlost 0 true, tsync := false, offOkFrom := none, partOk := false } ∧
        (∀ op, s.boot.op = some op → op.jrp = false → t.boot.op = none)))) ∧
  (∀ (s : State) (d : Fin 8),
    let n := tget s.skid.echoMiss d + 1
    let at_ := 8000 * (tget s.skid.echo d + n) + 4800
    let may := domUp s 11 = true ∧ isManager s = true ∧ s.skid.live.getLsbD d.1 = true
    let gone := fun e : Nat => d.1 ≤ e ∧ s.skid.live.getLsbD e = true
    (¬ may → exec (.echoMiss d) s = .next s) ∧
    (may → ∃ t, exec (.echoMiss d) s = .next t ∧ (at_ < 2 ^ 64 → t.cue.et.toNat = max s.cue.et.toNat at_) ∧ t.skid.missAt = t.now ∧
      tget t.skid.echoMiss d = n ∧
      (n < 3 → t.skid = { s.skid with echoMiss := tset s.skid.echoMiss d n, missAt := t.now } ∧ ChangesOnly [.now, .cue, .skid] s t) ∧
      (3 ≤ n → t.aon.hold = true ∧ t.aon.livePart = true ∧ t.aon.cPart = true ∧ t.skid.partOk = false ∧
        (∀ e : Fin 8, t.skid.live.getLsbD e.1 = (s.skid.live.getLsbD e.1 && decide (e.1 < d.1)) ∧
          (t.skid.wlost.getLsbD e.1 = true ↔ s.skid.wlost.getLsbD e.1 = true ∨ gone e.1) ∧
          (gone e.1 → tget t.host.wresFree e = 0 ∧ t.aon.waitWorkers.getLsbD e.1 = false ∧
            ∀ v, t.host.recov = some v → v.workers.getLsbD e.1 = false)) ∧
        (s.skid.winBusy = true → gone s.skid.winDev.toNat → t.skid.winBusy = false ∧ t.skid.winDone = true ∧ t.skid.winErr = 5) ∧
        (∀ op, s.boot.op = some op → op.jrp = false → op.dev ≠ 0 → gone op.dev.toNat → t.boot.op = none) ∧
        (s.aon.hold = true → s.aon.form = .none → s.boot.op = none → (∀ t0, s.aon.sheet ≠ .running t0) → ∃ m : BitVec 8, (∀ e : Fin 8, m.getLsbD e.1 = true ↔ gone e.1) ∧
          EngineTold s t (unitSrc 11 1) 0x01A1 0xFFFF [m])))) ∧
  (∀ s : State,
    (s.skid.offOkFrom = none ∨ inChain s = false ∨ s.skid.tsync = true → exec .tsyncAcquired s = .next s) ∧
    (∀ b, s.skid.offOkFrom = some b → inChain s = true → s.skid.tsync = false → ∃ t, exec .tsyncAcquired s = .next t ∧
      t.skid = { s.skid with tsync := true } ∧ t.now = max s.now (b + ms) ∧ ChangesOnly [.now, .cue, .skid] s t) ∧
    (let ok := s.aon.livePart = true ∧ domUp s 11 = true ∧ s.skid.chain = 2 ∧ s.skid.partOk = true ∧
        (isManager s = true ∨ s.skid.tsync = true)
     (¬ ok → exec .cPartClear s = .next s) ∧
      (ok → ∃ t, exec .cPartClear s = .next t ∧ t.now = max s.now (s.skid.missAt + ms) ∧
        t.aon = { s.aon with
          livePart := false, driveEnd := (if safeDrive s = true ∧ safeDrive t = false then t.now else s.aon.driveEnd) } ∧
        ChangesOnly [.now, .cue, .aon] s t)))

/-- Commands, records, signals, bus accesses, RECOVER and power across the chain (from R643 to R649, R655, R657). That the directory
follows the records is the model's reading (log 30), as is how a device hands on a frame for another (log 32). An acknowledgement
leaves at once. -/
def Obligations.CascadeCommandsRecordsSignalsAndPower : Prop :=
  (∀ (s : State) (q : SkidPort), portUp s q = true → ackTo q s = { s with out := s.out ++ [.skid q .ack] }) ∧
  (∀ (s : State) (e : List Byte),
    let may := inChain s = true ∧ portUp s 0 = true ∧ e.length = 64 ∧ eDev e = devNum s ∧ (∀ w ∈ s.host.waiting, w.by_ ≠ .decoder)
    let further := inChain s = true ∧ portUp s 0 = true ∧ e.length = 64 ∧ devNum s < eDev e
    let wb := freeWb s
    let s' := if eOpc e = 2 then useFree s else s
    (¬ further → ¬ may ∨ runCmd e wb s' = none → exec (.skidCmdFrame e) s = .next s) ∧
    (further → exec (.skidCmdFrame e) s =
      .next (sendSkid 1 (.cmd (Fin.ofNat 8 (eDev e)) e) { s with out := s.out ++ [.skid 0 .ack] })) ∧
    (∀ t, may → runCmd e wb s' = some t → exec (.skidCmdFrame e) s = .next (ackTo 0 t)) ∧
    (may → refusal s e ≠ 0 → (getFl s stgFl).down = false → ∃ t, exec (.skidCmdFrame e) s = .next t ∧
      Told s t (cmdRec s (reqOf s e wb) (refusal s e) 0 0) ∧ t.out = s.out ++ [.skid 0 .ack] ∧
      ChangesOnly [.host, .fl, .out, .freeCount] s t)) ∧
  (∀ (s : State) (d : Fin 8) (b : List Byte),
    let may := isManager s = true ∧ portUp s 1 = true ∧ s.skid.live.getLsbD d.1 = true ∧ b.length = 32 ∧ (getFl s stgFl).down = false
    let r := recParse b
    let starts := r.kind = 1 ∧ r.status = 0 ∧ (r.xb = 1 ∨ r.xb = 3)
    let ends := r.kind = 1 ∧ r.status = 0 ∧ r.xb = 2 ∨ r.kind = 3 ∧ r.xb = 0 ∨ r.kind = 4
    let others := s.skid.dir.filter (· != r.src.setWidth 9)
    let further := inChain s = true ∧ portUp s 1 = true ∧ devNum s < d.1 ∧ b.length = 32
    (¬ may → ¬ further → exec (.skidRecordFrame d b) s = .next s) ∧
    (further → exec (.skidRecordFrame d b) s = .next (sendSkid 0 (.record d b) { s with out := s.out ++ [.skid 1 .ack] })) ∧
    (may → ∃ t, exec (.skidRecordFrame d b) s = .next t ∧ Told s t r ∧
      t.out = s.out ++ (if (stagedRecs t).length = (stagedRecs s).length then [] else [.skid 1 .ack]) ∧
      t.skid = { s.skid with dir := if starts then others ++ [r.src.setWidth 9] else if ends then others else s.skid.dir } ∧
      ChangesOnly [.skid, .host, .fl, .out] s t)) ∧
  (∀ (s : State) (src target : BitVec 9) (code : Byte) (v : Word),
    let q : SkidPort := if src.toNat / 64 < devNum s then 0 else 1
    let may := portUp s q = true ∧ s.skid.chain = 2 ∧ target.toNat / 64 = devNum s
    let c : Chan := Fin.ofNat 64 target.toNat
    let e : ChEvent := { upper := src.setWidth 16, code := code.setWidth 16, payload := v }
    let room := hasTally s (evFl c) = true ∧ (getCh s c).evLatch = [] ∧ (getCh s c).sigWait = []
    let p : SkidPort := if target.toNat / 64 < devNum s then 0 else 1
    let further := inChain s = true ∧ portUp s q = true ∧ target.toNat / 64 ≠ devNum s ∧ p ≠ q
    (¬ may → ¬ further → exec (.skidSigFrame src target code v) s = .next s) ∧
    (further → exec (.skidSigFrame src target code v) s =
      .next (sendSkid p (.sig src target code v) { s with out := s.out ++ [.skid q .ack] })) ∧
    (may → (getCh s c).st ≠ .running → exec (.skidSigFrame src target code v) s = .next { s with
      skid := { s.skid with sigDrop := satInc s.skid.sigDrop }, out := s.out ++ [.skid q .ack] }) ∧
    (may → (getCh s c).st = .running → room → ∃ t, exec (.skidSigFrame src target code v) s = .next t ∧
      getCh t c = { getCh s c with evq := (getCh s c).evq ++ [e] } ∧ CueBut s t c ∧ t.out = s.out ++ [.skid q .ack] ∧
      (getFl t (evFl c)).tally + 1 = (getFl s (evFl c)).tally ∧ ChangesOnly [.cue, .fl, .out] s t) ∧
    (may → (getCh s c).st = .running → ¬ room → exec (.skidSigFrame src target code v) s =
      .next (withCh s c { getCh s c with sigWait := (getCh s c).sigWait ++ [e] }))) ∧
  (∀ (s : State) (d : Fin 8) (w : Bool) (addr : DWord) (n : Nat) (data : Option (List Byte)),
    let may := isManager s = true ∧ portUp s 1 = true ∧ s.skid.live.getLsbD d.1 = true ∧ (∀ b, data = some b → b.length = n)
    let acked : State := { s with out := s.out ++ [.skid 1 .ack] }
    let further := inChain s = true ∧ portUp s 1 = true ∧ devNum s < d.1 ∧ (∀ b, data = some b → b.length = n)
    (¬ may → ¬ further → exec (.skidBusmasterFrame d w addr n data) s = .next s) ∧
    (further → exec (.skidBusmasterFrame d w addr n data) s = .next (sendSkid 0 (.bus d w addr n (data.getD [])) acked)) ∧
    (may → w = false → exec (.skidBusmasterFrame d w addr n data) s =
      .next (sendSkid 1 (.busReply d (if bar0Reach s then data else none)) { acked with
        out := acked.out ++ (if bar0Reach s ∧ data = none then [.aer] else []) })) ∧
    (∀ b, may → w = true → data = some b → exec (.skidBusmasterFrame d w addr n data) s = .next { acked with
      out := acked.out ++ (if bar0Reach s then [.hostWrite addr.toNat b] else []) }) ∧
    (may → w = true → data = none → exec (.skidBusmasterFrame d w addr n data) s = .next acked)) ∧
  (∀ (s : State) (v : Word), reach s .bar0 11 = true →
    let k := s.skid
    let k1 := { k with winDone := k.winDone && !v.getLsbD 2, winWrite := v.getLsbD 1 }
    (k.winBusy = true → exec (.skidWinGo v) s = .next { s with skid := { k1 with winErr := 3 } }) ∧
    (k.winBusy = false → isManager s = false → exec (.skidWinGo v) s = .next { s with skid := { k1 with winErr := 3, winDone := true } }) ∧
    (k.winBusy = false → isManager s = true → k.live.getLsbD k.winDev.toNat = false →
      exec (.skidWinGo v) s = .next { s with skid := { k1 with winErr := 5, winDone := true } }) ∧
    (k.winBusy = false → isManager s = true → k.live.getLsbD k.winDev.toNat = true → exec (.skidWinGo v) s =
      .next (sendSkid 1 (.win (Fin.ofNat 8 k.winDev.toNat) (v.getLsbD 1) (k.winOff.toNat / 4 * 4) k.winData)
        { s with skid := { k1 with winErr := 0, winDone := false, winBusy := true, winOp := v.getLsbD 1 } }))) ∧
  (∀ (s : State) (off : Nat) (v : Word) (err : Byte),
    let acked : State := { s with out := s.out ++ [.skid 0 .ack] }
    (inChain s = true → portUp s 0 = true →
      exec (.skidWinFrame true off v) s = .next (sendSkid 0 (.winReply 0 0) (writeReg off v acked)) ∧
      exec (.skidWinFrame false off v) s = .next (sendSkid 0 (.winReply (readReg s off) 0) (readRegEff off acked))) ∧
    (isManager s = true → portUp s 1 = true → s.skid.winBusy = true → exec (.skidWinReply v err) s = .next { s with
      skid := { s.skid with
        winBusy := false, winDone := true, winErr := err, winData := if s.skid.winOp then s.skid.winData else v }
      out := s.out ++ [.skid 1 .ack] })) ∧
  (∀ (s : State) (ep : BitVec 16) (disarm discard : Bool), inChain s = true → portUp s 0 = true → s.host.recov = none →
    ∃ t w, exec (.skidRecoverFrame ep disarm discard) s = .next t ∧ t.epoch = ep ∧ t.now = s.now ∧
      (∀ r : Ring, (getRing t r).en = false) ∧ (∀ g ∈ t.cue.pages, g.isAdm = true → g.st = .aborting) ∧
      t.host.recov = some w ∧ w.oldEpoch = s.epoch ∧ w.made = false ∧ w.workers = 0 ∧ w.discard = discard ∧ w.disarm = disarm) ∧
  (∀ (s : State) (d : Fin 8), isManager s = true → portUp s 1 = true →
    let acked : State := { s with out := s.out ++ [.skid 1 .ack] }
    exec (.skidRecoverDone d) s = .next { acked with host := { s.host with
      recov := s.host.recov.map fun v => { v with workers := withBit v.workers d.1 false } } } ∧
    (∃ t, exec (.skidOffReport d) s = .next t ∧ t.aon.waitWorkers = withBit s.aon.waitWorkers d.1 false ∧
      (s.aon.form = .none → ChangesOnly [.aon, .out] s t ∧ t.out = acked.out))) ∧
  (∀ (s : State) (d : Fin 8), inChain s = true → portUp s 1 = true → devNum s < d.1 →
    let acked : State := { s with out := s.out ++ [.skid 1 .ack] }
    exec (.skidRecoverDone d) s = .next (sendSkid 0 (.recoverDone d) acked) ∧
    exec (.skidOffReport d) s = .next (sendSkid 0 (.offReport d) acked)) ∧
  (∀ s : State, inChain s = true → portUp s 0 = true →
    let acked : State := { s with out := s.out ++ [.skid 0 .ack] }
    ∃ t1 t2 t3, exec (.skidPowerFrame 1) s = .next t1 ∧ exec (.enginesUp .keeper) acked = .next t1 ∧
      exec (.skidPowerFrame 2) s = .next t2 ∧ exec (.enginesDown .keeper) acked = .next t2 ∧
      exec (.skidPowerFrame 3) s = .next t3 ∧ exec (.seqOff .keeper) acked = .next t3) ∧
  (∀ s : State,
    ((∀ b l, formPhase s.aon.form ≠ some (.aborts b, l)) ∨ s.aon.waitWorkers = 0 → exec .workerOffTimeout s = .next s) ∧
    (∀ b l, formPhase s.aon.form = some (.aborts b, l) → s.aon.waitWorkers ≠ 0 → ∃ t, exec .workerOffTimeout s = .next t ∧
      t.aon.waitWorkers = 0 ∧ t.now = max s.now (b + 50 * ms)))
end

