-- ==== Sys2Proof/Laws/Memory.lean ====
section
/-!
SUPPORT. Laws of the sparse memory: a read after a write, a write elsewhere, and the canonical form, which every write
keeps.
-/

namespace Sys2Proof.Machine

set_option linter.all false

theorem memGet_below (k a : Nat) : ∀ m : Mem, Memory.above (some k) m = true → a ≤ k → memGet m a = 0
  | [], _, _ => rfl
  | (x, b) :: m, h, ha => by
    simp only [Memory.above, Bool.and_eq_true, decide_eq_true_eq] at h
    have h1 : x ≠ a := by omega
    have h2 : a < x := by omega
    simp [memGet, h1, h2]

/-- A byte reads as it was written, and every other byte as before. -/
theorem memGet_memPut (a x : Nat) (b : Byte) :
    ∀ (m : Mem) (k : Option Nat), Memory.above k m = true → memGet (memPut m a b) x = if x = a then b else memGet m x
  | [], _, _ => by
    by_cases hb : b = 0
    · subst hb; simp [memPut, memGet]
    · simp only [memPut, if_neg hb, memGet]
      by_cases hx : x = a
      · simp [hx]
      · simp [hx, show ¬ a = x from fun e => hx e.symm]
  | (y, c) :: m, k, h => by
    simp only [Memory.above, Bool.and_eq_true] at h
    obtain ⟨⟨_, hc⟩, hm⟩ := h
    have ih := memGet_memPut a x b m (some y) hm
    simp only [memPut]
    split
    · rename_i h1
      by_cases hb : b = 0
      · simp only [hb, if_true]
        by_cases hx : x = a
        · subst hx; simp [memGet, show y ≠ x by omega, h1]
        · simp [hx]
      · simp only [hb, if_false]
        by_cases hx : x = a
        · subst hx; simp [memGet]
        · simp only [hx, if_false]
          rw [memGet]
          simp only [show ¬ a = x from fun e => hx e.symm, if_false]
          split
          · rename_i h2
            simp [memGet, show y ≠ x by omega, show x < y by omega]
          · rfl
    · split
      · rename_i h1 h2
        subst h2
        by_cases hb : b = 0
        · simp only [hb, if_true]
          by_cases hx : x = a
          · subst hx; simp [memGet_below x x m hm (Nat.le_refl x)]
          · simp only [hx, if_false, memGet]
            simp only [show ¬ a = x from fun e => hx e.symm, if_false]
            split
            · rename_i h3
              exact memGet_below a x m hm (by omega)
            · rfl
        · simp only [hb, if_false]
          by_cases hx : x = a
          · subst hx; simp [memGet]
          · simp only [hx, if_false, memGet]
            simp only [show ¬ a = x from fun e => hx e.symm, if_false]
      · rename_i h1 h2
        simp only [memGet]
        split
        · rename_i h3; subst h3; simp [show ¬ y = a from fun e => h2 e.symm]
        · split
          · rename_i h3 h4; simp [show ¬ x = a by omega]
          · exact ih

theorem memPut_above (a : Nat) (b : Byte) :
    ∀ (m : Mem) (k : Option Nat), Memory.above k m = true → (∀ x, k = some x → x < a) → Memory.above k (memPut m a b) = true
  | [], k, _, hk => by
    by_cases hb : b = 0
    · simp [memPut, hb, Memory.above]
    · simp only [memPut, if_neg hb]
      cases k with
      | none => simpa [Memory.above] using hb
      | some x => simpa [Memory.above, hk x rfl] using hb
  | (y, c) :: m, k, h, hk => by
    have h0 := h
    simp only [Memory.above, Bool.and_eq_true] at h
    obtain ⟨⟨h1, hc⟩, hm⟩ := h
    simp only [memPut]
    split
    · rename_i h2
      by_cases hb : b = 0
      · simp only [hb, if_true]; exact h0
      · simp only [hb, if_false, Memory.above, Bool.and_eq_true]
        refine ⟨⟨?_, by simpa using hb⟩, ⟨by simpa using h2, hc⟩, hm⟩
        cases k with
        | none => rfl
        | some x => simpa using hk x rfl
    · split
      · rename_i h2 h3
        subst h3
        by_cases hb : b = 0
        · simp only [hb, if_true]
          cases k with
          | none =>
            cases m with
            | nil => rfl
            | cons p m => simp only [Memory.above, Bool.and_eq_true] at hm ⊢; exact ⟨⟨trivial, hm.1.2⟩, hm.2⟩
          | some x =>
            cases m with
            | nil => rfl
            | cons p m =>
              simp only [Memory.above, Bool.and_eq_true, decide_eq_true_eq] at h1 hm ⊢
              exact ⟨⟨by omega, hm.1.2⟩, hm.2⟩
        · simp only [hb, if_false, Memory.above, Bool.and_eq_true]
          exact ⟨⟨h1, by simpa using hb⟩, hm⟩
      · rename_i h2 h3
        simp only [Memory.above, Bool.and_eq_true]
        exact ⟨⟨h1, hc⟩, memPut_above a b m (some y) hm (fun x hx => by cases hx; omega)⟩

/-- Writing one byte keeps the canonical form. -/
theorem memPut_wf (m : Mem) (a : Nat) (b : Byte) (h : Memory.wf m = true) : Memory.wf (memPut m a b) = true :=
  memPut_above a b m none h (fun _ hx => by cases hx)

/-- Writing bytes keeps the canonical form. -/
theorem memWrite_wf : ∀ (bs : List Byte) (m : Mem) (a : Nat), Memory.wf m = true → Memory.wf (memWrite m a bs) = true
  | [], _, _, h => h
  | b :: bs, m, a, h => memWrite_wf bs (memPut m a b) (a + 1) (memPut_wf m a b h)

theorem memGet_memPut_wf (m : Mem) (a x : Nat) (b : Byte) (h : Memory.wf m = true) :
    memGet (memPut m a b) x = if x = a then b else memGet m x := memGet_memPut a x b m none h

/-- A byte outside the written ones reads as before. -/
theorem memGet_memWrite_out : ∀ (bs : List Byte) (m : Mem) (a x : Nat), Memory.wf m = true →
    (x < a ∨ a + bs.length ≤ x) → memGet (memWrite m a bs) x = memGet m x
  | [], _, _, _, _, _ => rfl
  | b :: bs, m, a, x, h, hx => by
    rw [memWrite, memGet_memWrite_out bs _ _ _ (memPut_wf m a b h) (by simp only [List.length_cons] at hx; omega),
      memGet_memPut_wf m a x b h, if_neg (by simp only [List.length_cons] at hx; omega)]

/-- A written byte reads as it was written. -/
theorem memGet_memWrite_in : ∀ (bs : List Byte) (m : Mem) (a i : Nat), Memory.wf m = true → (hi : i < bs.length) →
    memGet (memWrite m a bs) (a + i) = bs[i]
  | b :: bs, m, a, 0, h, _ => by
    rw [memWrite, memGet_memWrite_out bs _ _ _ (memPut_wf m a b h) (by omega), memGet_memPut_wf m a _ b h]
    simp
  | b :: bs, m, a, i + 1, h, hi => by
    have := memGet_memWrite_in bs (memPut m a b) (a + 1) i (memPut_wf m a b h) (by simpa using hi)
    rw [memWrite, show a + (i + 1) = a + 1 + i by omega, this]
    simp

/-- n written bytes read back. -/
theorem memRead_memWrite : ∀ (bs : List Byte) (m : Mem) (a : Nat), Memory.wf m = true →
    memRead (memWrite m a bs) a bs.length = bs
  | [], _, _, _ => rfl
  | b :: bs, m, a, h => by
    have h0 := memPut_wf m a b h
    simp only [memWrite, List.length_cons, memRead]
    rw [memGet_memWrite_out bs _ _ _ h0 (by omega), memGet_memPut_wf m a _ b h, memRead_memWrite bs _ _ h0]
    simp

end Sys2Proof.Machine
end

