-- ==== Sys2Proof/Laws/State.lean ====
section
/-!
SUPPORT. The state's fields after each named update, one lemma a field and update, so that no proof unfolds a record update;
and the entries of its tables.
-/

namespace Sys2Proof.Machine

set_option linter.all false

/-! ## Tables -/

theorem tget_tset {α : Type} {n : Nat} (v : Vector α n) (i j : Fin n) (x : α) :
    tget (tset v i x) j = if i = j then x else tget v j := by
  simp only [tget, tset, Vector.getElem_set, Fin.ext_iff]

theorem tget_tmod {α : Type} {n : Nat} (v : Vector α n) (i j : Fin n) (f : α → α) :
    tget (tmod v i f) j = if i = j then f (tget v i) else tget v j := tget_tset v i j _

@[simp] theorem tget_tset_same {α : Type} {n : Nat} (v : Vector α n) (i : Fin n) (x : α) : tget (tset v i x) i = x := by
  rw [tget_tset, if_pos rfl]

@[simp] theorem tget_tmod_same {α : Type} {n : Nat} (v : Vector α n) (i : Fin n) (f : α → α) : tget (tmod v i f) i = f (tget v i) := by
  rw [tget_tmod, if_pos rfl]

theorem tget_tset_ne {α : Type} {n : Nat} {v : Vector α n} {i j : Fin n} {x : α} (h : i ≠ j) : tget (tset v i x) j = tget v j := by
  rw [tget_tset, if_neg h]

theorem tget_tmod_ne {α : Type} {n : Nat} {v : Vector α n} {i j : Fin n} {f : α → α} (h : i ≠ j) : tget (tmod v i f) j = tget v j :=
  tget_tset_ne h

variable {s : State}

/-! ## Entries after their own update -/

theorem getCh_modCh {i j : Chan} {f : Channel → Channel} : getCh (modCh i f s) j = if i = j then f (getCh s i) else getCh s j := tget_tmod _ i j f
@[simp] theorem getCh_modCh_same {i : Chan} {f : Channel → Channel} : getCh (modCh i f s) i = f (getCh s i) := tget_tmod_same _ i f
theorem getTrk_modTrk {i j : Trk} {f : Tracker → Tracker} : getTrk (modTrk i f s) j = if i = j then f (getTrk s i) else getTrk s j := tget_tmod _ i j f
@[simp] theorem getTrk_modTrk_same {i : Trk} {f : Tracker → Tracker} : getTrk (modTrk i f s) i = f (getTrk s i) := tget_tmod_same _ i f
theorem getStep_modStep {i j : Fin 16} {f : StepperS → StepperS} : getStep (modStep i f s) j = if i = j then f (getStep s i) else getStep s j := tget_tmod _ i j f
@[simp] theorem getStep_modStep_same {i : Fin 16} {f : StepperS → StepperS} : getStep (modStep i f s) i = f (getStep s i) := tget_tmod_same _ i f
theorem getBldc_modBldc {i j : Fin 4} {f : BldcS → BldcS} : getBldc (modBldc i f s) j = if i = j then f (getBldc s i) else getBldc s j := tget_tmod _ i j f
@[simp] theorem getBldc_modBldc_same {i : Fin 4} {f : BldcS → BldcS} : getBldc (modBldc i f s) i = f (getBldc s i) := tget_tmod_same _ i f
theorem getLoop_modLoop {i j : LoopId} {f : LoopS → LoopS} : getLoop (modLoop i f s) j = if i = j then f (getLoop s i) else getLoop s j := tget_tmod _ i j f
@[simp] theorem getLoop_modLoop_same {i : LoopId} {f : LoopS → LoopS} : getLoop (modLoop i f s) i = f (getLoop s i) := tget_tmod_same _ i f
theorem getZone_modZone {i j : Zone} {f : ZoneS → ZoneS} : getZone (modZone i f s) j = if i = j then f (getZone s i) else getZone s j := tget_tmod _ i j f
@[simp] theorem getZone_modZone_same {i : Zone} {f : ZoneS → ZoneS} : getZone (modZone i f s) i = f (getZone s i) := tget_tmod_same _ i f
theorem getStn_modStn {i j : Station} {f : StationS → StationS} : getStn (modStn i f s) j = if i = j then f (getStn s i) else getStn s j := tget_tmod _ i j f
@[simp] theorem getStn_modStn_same {i : Station} {f : StationS → StationS} : getStn (modStn i f s) i = f (getStn s i) := tget_tmod_same _ i f
theorem getRail_modRail {i j : Rail} {f : RailS → RailS} : getRail (modRail i f s) j = if i = j then f (getRail s i) else getRail s j := tget_tmod _ i j f
@[simp] theorem getRail_modRail_same {i : Rail} {f : RailS → RailS} : getRail (modRail i f s) i = f (getRail s i) := tget_tmod_same _ i f
theorem getDom_modDom {i j : Dom} {f : DomS → DomS} : getDom (modDom i f s) j = if i = j then f (getDom s i) else getDom s j := tget_tmod _ i j f
@[simp] theorem getDom_modDom_same {i : Dom} {f : DomS → DomS} : getDom (modDom i f s) i = f (getDom s i) := tget_tmod_same _ i f
theorem getFl_modFl {i j : FlumeId} {f : Flume → Flume} : getFl (modFl i f s) j = if i = j then f (getFl s i) else getFl s j := tget_tmod _ i j f
@[simp] theorem getFl_modFl_same {i : FlumeId} {f : Flume → Flume} : getFl (modFl i f s) i = f (getFl s i) := tget_tmod_same _ i f

/-! ## Fields after each update -/

@[simp] theorem modAon_now (f : Aon → Aon) : (modAon f s).now = s.now := rfl
@[simp] theorem modAon_aon (f : Aon → Aon) : (modAon f s).aon = f s.aon := rfl
@[simp] theorem modAon_therm (f : Aon → Aon) : (modAon f s).therm = s.therm := rfl
@[simp] theorem modAon_nv (f : Aon → Aon) : (modAon f s).nv = s.nv := rfl
@[simp] theorem modAon_lg (f : Aon → Aon) : (modAon f s).lg = s.lg := rfl
@[simp] theorem modAon_boot (f : Aon → Aon) : (modAon f s).boot = s.boot := rfl
@[simp] theorem modAon_lock (f : Aon → Aon) : (modAon f s).lock = s.lock := rfl
@[simp] theorem modAon_epoch (f : Aon → Aon) : (modAon f s).epoch = s.epoch := rfl
@[simp] theorem modAon_flSel (f : Aon → Aon) : (modAon f s).flSel = s.flSel := rfl
@[simp] theorem modAon_fl (f : Aon → Aon) : (modAon f s).fl = s.fl := rfl
@[simp] theorem modAon_host (f : Aon → Aon) : (modAon f s).host = s.host := rfl
@[simp] theorem modAon_cue (f : Aon → Aon) : (modAon f s).cue = s.cue := rfl
@[simp] theorem modAon_mem (f : Aon → Aon) : (modAon f s).mem = s.mem := rfl
@[simp] theorem modAon_rast (f : Aon → Aon) : (modAon f s).rast = s.rast := rfl
@[simp] theorem modAon_beam (f : Aon → Aon) : (modAon f s).beam = s.beam := rfl
@[simp] theorem modAon_motn (f : Aon → Aon) : (modAon f s).motn = s.motn := rfl
@[simp] theorem modAon_loops (f : Aon → Aon) : (modAon f s).loops = s.loops := rfl
@[simp] theorem modAon_head (f : Aon → Aon) : (modAon f s).head = s.head := rfl
@[simp] theorem modAon_scan (f : Aon → Aon) : (modAon f s).scan = s.scan := rfl
@[simp] theorem modAon_skid (f : Aon → Aon) : (modAon f s).skid = s.skid := rfl
@[simp] theorem modAon_out (f : Aon → Aon) : (modAon f s).out = s.out := rfl
@[simp] theorem modAon_freeCount (f : Aon → Aon) : (modAon f s).freeCount = s.freeCount := rfl
@[simp] theorem modAon_pending (f : Aon → Aon) : (modAon f s).pending = s.pending := rfl
@[simp] theorem modTherm_now (f : Thermal → Thermal) : (modTherm f s).now = s.now := rfl
@[simp] theorem modTherm_aon (f : Thermal → Thermal) : (modTherm f s).aon = s.aon := rfl
@[simp] theorem modTherm_therm (f : Thermal → Thermal) : (modTherm f s).therm = f s.therm := rfl
@[simp] theorem modTherm_nv (f : Thermal → Thermal) : (modTherm f s).nv = s.nv := rfl
@[simp] theorem modTherm_lg (f : Thermal → Thermal) : (modTherm f s).lg = s.lg := rfl
@[simp] theorem modTherm_boot (f : Thermal → Thermal) : (modTherm f s).boot = s.boot := rfl
@[simp] theorem modTherm_lock (f : Thermal → Thermal) : (modTherm f s).lock = s.lock := rfl
@[simp] theorem modTherm_epoch (f : Thermal → Thermal) : (modTherm f s).epoch = s.epoch := rfl
@[simp] theorem modTherm_flSel (f : Thermal → Thermal) : (modTherm f s).flSel = s.flSel := rfl
@[simp] theorem modTherm_fl (f : Thermal → Thermal) : (modTherm f s).fl = s.fl := rfl
@[simp] theorem modTherm_host (f : Thermal → Thermal) : (modTherm f s).host = s.host := rfl
@[simp] theorem modTherm_cue (f : Thermal → Thermal) : (modTherm f s).cue = s.cue := rfl
@[simp] theorem modTherm_mem (f : Thermal → Thermal) : (modTherm f s).mem = s.mem := rfl
@[simp] theorem modTherm_rast (f : Thermal → Thermal) : (modTherm f s).rast = s.rast := rfl
@[simp] theorem modTherm_beam (f : Thermal → Thermal) : (modTherm f s).beam = s.beam := rfl
@[simp] theorem modTherm_motn (f : Thermal → Thermal) : (modTherm f s).motn = s.motn := rfl
@[simp] theorem modTherm_loops (f : Thermal → Thermal) : (modTherm f s).loops = s.loops := rfl
@[simp] theorem modTherm_head (f : Thermal → Thermal) : (modTherm f s).head = s.head := rfl
@[simp] theorem modTherm_scan (f : Thermal → Thermal) : (modTherm f s).scan = s.scan := rfl
@[simp] theorem modTherm_skid (f : Thermal → Thermal) : (modTherm f s).skid = s.skid := rfl
@[simp] theorem modTherm_out (f : Thermal → Thermal) : (modTherm f s).out = s.out := rfl
@[simp] theorem modTherm_freeCount (f : Thermal → Thermal) : (modTherm f s).freeCount = s.freeCount := rfl
@[simp] theorem modTherm_pending (f : Thermal → Thermal) : (modTherm f s).pending = s.pending := rfl
@[simp] theorem modNv_now (f : Nv → Nv) : (modNv f s).now = s.now := rfl
@[simp] theorem modNv_aon (f : Nv → Nv) : (modNv f s).aon = s.aon := rfl
@[simp] theorem modNv_therm (f : Nv → Nv) : (modNv f s).therm = s.therm := rfl
@[simp] theorem modNv_nv (f : Nv → Nv) : (modNv f s).nv = f s.nv := rfl
@[simp] theorem modNv_lg (f : Nv → Nv) : (modNv f s).lg = s.lg := rfl
@[simp] theorem modNv_boot (f : Nv → Nv) : (modNv f s).boot = s.boot := rfl
@[simp] theorem modNv_lock (f : Nv → Nv) : (modNv f s).lock = s.lock := rfl
@[simp] theorem modNv_epoch (f : Nv → Nv) : (modNv f s).epoch = s.epoch := rfl
@[simp] theorem modNv_flSel (f : Nv → Nv) : (modNv f s).flSel = s.flSel := rfl
@[simp] theorem modNv_fl (f : Nv → Nv) : (modNv f s).fl = s.fl := rfl
@[simp] theorem modNv_host (f : Nv → Nv) : (modNv f s).host = s.host := rfl
@[simp] theorem modNv_cue (f : Nv → Nv) : (modNv f s).cue = s.cue := rfl
@[simp] theorem modNv_mem (f : Nv → Nv) : (modNv f s).mem = s.mem := rfl
@[simp] theorem modNv_rast (f : Nv → Nv) : (modNv f s).rast = s.rast := rfl
@[simp] theorem modNv_beam (f : Nv → Nv) : (modNv f s).beam = s.beam := rfl
@[simp] theorem modNv_motn (f : Nv → Nv) : (modNv f s).motn = s.motn := rfl
@[simp] theorem modNv_loops (f : Nv → Nv) : (modNv f s).loops = s.loops := rfl
@[simp] theorem modNv_head (f : Nv → Nv) : (modNv f s).head = s.head := rfl
@[simp] theorem modNv_scan (f : Nv → Nv) : (modNv f s).scan = s.scan := rfl
@[simp] theorem modNv_skid (f : Nv → Nv) : (modNv f s).skid = s.skid := rfl
@[simp] theorem modNv_out (f : Nv → Nv) : (modNv f s).out = s.out := rfl
@[simp] theorem modNv_freeCount (f : Nv → Nv) : (modNv f s).freeCount = s.freeCount := rfl
@[simp] theorem modNv_pending (f : Nv → Nv) : (modNv f s).pending = s.pending := rfl
@[simp] theorem modLg_now (f : LogS → LogS) : (modLg f s).now = s.now := rfl
@[simp] theorem modLg_aon (f : LogS → LogS) : (modLg f s).aon = s.aon := rfl
@[simp] theorem modLg_therm (f : LogS → LogS) : (modLg f s).therm = s.therm := rfl
@[simp] theorem modLg_nv (f : LogS → LogS) : (modLg f s).nv = s.nv := rfl
@[simp] theorem modLg_lg (f : LogS → LogS) : (modLg f s).lg = f s.lg := rfl
@[simp] theorem modLg_boot (f : LogS → LogS) : (modLg f s).boot = s.boot := rfl
@[simp] theorem modLg_lock (f : LogS → LogS) : (modLg f s).lock = s.lock := rfl
@[simp] theorem modLg_epoch (f : LogS → LogS) : (modLg f s).epoch = s.epoch := rfl
@[simp] theorem modLg_flSel (f : LogS → LogS) : (modLg f s).flSel = s.flSel := rfl
@[simp] theorem modLg_fl (f : LogS → LogS) : (modLg f s).fl = s.fl := rfl
@[simp] theorem modLg_host (f : LogS → LogS) : (modLg f s).host = s.host := rfl
@[simp] theorem modLg_cue (f : LogS → LogS) : (modLg f s).cue = s.cue := rfl
@[simp] theorem modLg_mem (f : LogS → LogS) : (modLg f s).mem = s.mem := rfl
@[simp] theorem modLg_rast (f : LogS → LogS) : (modLg f s).rast = s.rast := rfl
@[simp] theorem modLg_beam (f : LogS → LogS) : (modLg f s).beam = s.beam := rfl
@[simp] theorem modLg_motn (f : LogS → LogS) : (modLg f s).motn = s.motn := rfl
@[simp] theorem modLg_loops (f : LogS → LogS) : (modLg f s).loops = s.loops := rfl
@[simp] theorem modLg_head (f : LogS → LogS) : (modLg f s).head = s.head := rfl
@[simp] theorem modLg_scan (f : LogS → LogS) : (modLg f s).scan = s.scan := rfl
@[simp] theorem modLg_skid (f : LogS → LogS) : (modLg f s).skid = s.skid := rfl
@[simp] theorem modLg_out (f : LogS → LogS) : (modLg f s).out = s.out := rfl
@[simp] theorem modLg_freeCount (f : LogS → LogS) : (modLg f s).freeCount = s.freeCount := rfl
@[simp] theorem modLg_pending (f : LogS → LogS) : (modLg f s).pending = s.pending := rfl
@[simp] theorem modBoot_now (f : Boot → Boot) : (modBoot f s).now = s.now := rfl
@[simp] theorem modBoot_aon (f : Boot → Boot) : (modBoot f s).aon = s.aon := rfl
@[simp] theorem modBoot_therm (f : Boot → Boot) : (modBoot f s).therm = s.therm := rfl
@[simp] theorem modBoot_nv (f : Boot → Boot) : (modBoot f s).nv = s.nv := rfl
@[simp] theorem modBoot_lg (f : Boot → Boot) : (modBoot f s).lg = s.lg := rfl
@[simp] theorem modBoot_boot (f : Boot → Boot) : (modBoot f s).boot = f s.boot := rfl
@[simp] theorem modBoot_lock (f : Boot → Boot) : (modBoot f s).lock = s.lock := rfl
@[simp] theorem modBoot_epoch (f : Boot → Boot) : (modBoot f s).epoch = s.epoch := rfl
@[simp] theorem modBoot_flSel (f : Boot → Boot) : (modBoot f s).flSel = s.flSel := rfl
@[simp] theorem modBoot_fl (f : Boot → Boot) : (modBoot f s).fl = s.fl := rfl
@[simp] theorem modBoot_host (f : Boot → Boot) : (modBoot f s).host = s.host := rfl
@[simp] theorem modBoot_cue (f : Boot → Boot) : (modBoot f s).cue = s.cue := rfl
@[simp] theorem modBoot_mem (f : Boot → Boot) : (modBoot f s).mem = s.mem := rfl
@[simp] theorem modBoot_rast (f : Boot → Boot) : (modBoot f s).rast = s.rast := rfl
@[simp] theorem modBoot_beam (f : Boot → Boot) : (modBoot f s).beam = s.beam := rfl
@[simp] theorem modBoot_motn (f : Boot → Boot) : (modBoot f s).motn = s.motn := rfl
@[simp] theorem modBoot_loops (f : Boot → Boot) : (modBoot f s).loops = s.loops := rfl
@[simp] theorem modBoot_head (f : Boot → Boot) : (modBoot f s).head = s.head := rfl
@[simp] theorem modBoot_scan (f : Boot → Boot) : (modBoot f s).scan = s.scan := rfl
@[simp] theorem modBoot_skid (f : Boot → Boot) : (modBoot f s).skid = s.skid := rfl
@[simp] theorem modBoot_out (f : Boot → Boot) : (modBoot f s).out = s.out := rfl
@[simp] theorem modBoot_freeCount (f : Boot → Boot) : (modBoot f s).freeCount = s.freeCount := rfl
@[simp] theorem modBoot_pending (f : Boot → Boot) : (modBoot f s).pending = s.pending := rfl
@[simp] theorem modHost_now (f : HostS → HostS) : (modHost f s).now = s.now := rfl
@[simp] theorem modHost_aon (f : HostS → HostS) : (modHost f s).aon = s.aon := rfl
@[simp] theorem modHost_therm (f : HostS → HostS) : (modHost f s).therm = s.therm := rfl
@[simp] theorem modHost_nv (f : HostS → HostS) : (modHost f s).nv = s.nv := rfl
@[simp] theorem modHost_lg (f : HostS → HostS) : (modHost f s).lg = s.lg := rfl
@[simp] theorem modHost_boot (f : HostS → HostS) : (modHost f s).boot = s.boot := rfl
@[simp] theorem modHost_lock (f : HostS → HostS) : (modHost f s).lock = s.lock := rfl
@[simp] theorem modHost_epoch (f : HostS → HostS) : (modHost f s).epoch = s.epoch := rfl
@[simp] theorem modHost_flSel (f : HostS → HostS) : (modHost f s).flSel = s.flSel := rfl
@[simp] theorem modHost_fl (f : HostS → HostS) : (modHost f s).fl = s.fl := rfl
@[simp] theorem modHost_host (f : HostS → HostS) : (modHost f s).host = f s.host := rfl
@[simp] theorem modHost_cue (f : HostS → HostS) : (modHost f s).cue = s.cue := rfl
@[simp] theorem modHost_mem (f : HostS → HostS) : (modHost f s).mem = s.mem := rfl
@[simp] theorem modHost_rast (f : HostS → HostS) : (modHost f s).rast = s.rast := rfl
@[simp] theorem modHost_beam (f : HostS → HostS) : (modHost f s).beam = s.beam := rfl
@[simp] theorem modHost_motn (f : HostS → HostS) : (modHost f s).motn = s.motn := rfl
@[simp] theorem modHost_loops (f : HostS → HostS) : (modHost f s).loops = s.loops := rfl
@[simp] theorem modHost_head (f : HostS → HostS) : (modHost f s).head = s.head := rfl
@[simp] theorem modHost_scan (f : HostS → HostS) : (modHost f s).scan = s.scan := rfl
@[simp] theorem modHost_skid (f : HostS → HostS) : (modHost f s).skid = s.skid := rfl
@[simp] theorem modHost_out (f : HostS → HostS) : (modHost f s).out = s.out := rfl
@[simp] theorem modHost_freeCount (f : HostS → HostS) : (modHost f s).freeCount = s.freeCount := rfl
@[simp] theorem modHost_pending (f : HostS → HostS) : (modHost f s).pending = s.pending := rfl
@[simp] theorem modRegs_now (f : HostR → HostR) : (modRegs f s).now = s.now := rfl
@[simp] theorem modRegs_aon (f : HostR → HostR) : (modRegs f s).aon = s.aon := rfl
@[simp] theorem modRegs_therm (f : HostR → HostR) : (modRegs f s).therm = s.therm := rfl
@[simp] theorem modRegs_nv (f : HostR → HostR) : (modRegs f s).nv = s.nv := rfl
@[simp] theorem modRegs_lg (f : HostR → HostR) : (modRegs f s).lg = s.lg := rfl
@[simp] theorem modRegs_boot (f : HostR → HostR) : (modRegs f s).boot = s.boot := rfl
@[simp] theorem modRegs_lock (f : HostR → HostR) : (modRegs f s).lock = s.lock := rfl
@[simp] theorem modRegs_epoch (f : HostR → HostR) : (modRegs f s).epoch = s.epoch := rfl
@[simp] theorem modRegs_flSel (f : HostR → HostR) : (modRegs f s).flSel = s.flSel := rfl
@[simp] theorem modRegs_fl (f : HostR → HostR) : (modRegs f s).fl = s.fl := rfl
@[simp] theorem modRegs_host (f : HostR → HostR) : (modRegs f s).host = { s.host with regs := f s.host.regs } := rfl
@[simp] theorem modRegs_cue (f : HostR → HostR) : (modRegs f s).cue = s.cue := rfl
@[simp] theorem modRegs_mem (f : HostR → HostR) : (modRegs f s).mem = s.mem := rfl
@[simp] theorem modRegs_rast (f : HostR → HostR) : (modRegs f s).rast = s.rast := rfl
@[simp] theorem modRegs_beam (f : HostR → HostR) : (modRegs f s).beam = s.beam := rfl
@[simp] theorem modRegs_motn (f : HostR → HostR) : (modRegs f s).motn = s.motn := rfl
@[simp] theorem modRegs_loops (f : HostR → HostR) : (modRegs f s).loops = s.loops := rfl
@[simp] theorem modRegs_head (f : HostR → HostR) : (modRegs f s).head = s.head := rfl
@[simp] theorem modRegs_scan (f : HostR → HostR) : (modRegs f s).scan = s.scan := rfl
@[simp] theorem modRegs_skid (f : HostR → HostR) : (modRegs f s).skid = s.skid := rfl
@[simp] theorem modRegs_out (f : HostR → HostR) : (modRegs f s).out = s.out := rfl
@[simp] theorem modRegs_freeCount (f : HostR → HostR) : (modRegs f s).freeCount = s.freeCount := rfl
@[simp] theorem modRegs_pending (f : HostR → HostR) : (modRegs f s).pending = s.pending := rfl
@[simp] theorem modCue_now (f : Cue → Cue) : (modCue f s).now = s.now := rfl
@[simp] theorem modCue_aon (f : Cue → Cue) : (modCue f s).aon = s.aon := rfl
@[simp] theorem modCue_therm (f : Cue → Cue) : (modCue f s).therm = s.therm := rfl
@[simp] theorem modCue_nv (f : Cue → Cue) : (modCue f s).nv = s.nv := rfl
@[simp] theorem modCue_lg (f : Cue → Cue) : (modCue f s).lg = s.lg := rfl
@[simp] theorem modCue_boot (f : Cue → Cue) : (modCue f s).boot = s.boot := rfl
@[simp] theorem modCue_lock (f : Cue → Cue) : (modCue f s).lock = s.lock := rfl
@[simp] theorem modCue_epoch (f : Cue → Cue) : (modCue f s).epoch = s.epoch := rfl
@[simp] theorem modCue_flSel (f : Cue → Cue) : (modCue f s).flSel = s.flSel := rfl
@[simp] theorem modCue_fl (f : Cue → Cue) : (modCue f s).fl = s.fl := rfl
@[simp] theorem modCue_host (f : Cue → Cue) : (modCue f s).host = s.host := rfl
@[simp] theorem modCue_cue (f : Cue → Cue) : (modCue f s).cue = f s.cue := rfl
@[simp] theorem modCue_mem (f : Cue → Cue) : (modCue f s).mem = s.mem := rfl
@[simp] theorem modCue_rast (f : Cue → Cue) : (modCue f s).rast = s.rast := rfl
@[simp] theorem modCue_beam (f : Cue → Cue) : (modCue f s).beam = s.beam := rfl
@[simp] theorem modCue_motn (f : Cue → Cue) : (modCue f s).motn = s.motn := rfl
@[simp] theorem modCue_loops (f : Cue → Cue) : (modCue f s).loops = s.loops := rfl
@[simp] theorem modCue_head (f : Cue → Cue) : (modCue f s).head = s.head := rfl
@[simp] theorem modCue_scan (f : Cue → Cue) : (modCue f s).scan = s.scan := rfl
@[simp] theorem modCue_skid (f : Cue → Cue) : (modCue f s).skid = s.skid := rfl
@[simp] theorem modCue_out (f : Cue → Cue) : (modCue f s).out = s.out := rfl
@[simp] theorem modCue_freeCount (f : Cue → Cue) : (modCue f s).freeCount = s.freeCount := rfl
@[simp] theorem modCue_pending (f : Cue → Cue) : (modCue f s).pending = s.pending := rfl
@[simp] theorem modMem_now (f : MemS → MemS) : (modMem f s).now = s.now := rfl
@[simp] theorem modMem_aon (f : MemS → MemS) : (modMem f s).aon = s.aon := rfl
@[simp] theorem modMem_therm (f : MemS → MemS) : (modMem f s).therm = s.therm := rfl
@[simp] theorem modMem_nv (f : MemS → MemS) : (modMem f s).nv = s.nv := rfl
@[simp] theorem modMem_lg (f : MemS → MemS) : (modMem f s).lg = s.lg := rfl
@[simp] theorem modMem_boot (f : MemS → MemS) : (modMem f s).boot = s.boot := rfl
@[simp] theorem modMem_lock (f : MemS → MemS) : (modMem f s).lock = s.lock := rfl
@[simp] theorem modMem_epoch (f : MemS → MemS) : (modMem f s).epoch = s.epoch := rfl
@[simp] theorem modMem_flSel (f : MemS → MemS) : (modMem f s).flSel = s.flSel := rfl
@[simp] theorem modMem_fl (f : MemS → MemS) : (modMem f s).fl = s.fl := rfl
@[simp] theorem modMem_host (f : MemS → MemS) : (modMem f s).host = s.host := rfl
@[simp] theorem modMem_cue (f : MemS → MemS) : (modMem f s).cue = s.cue := rfl
@[simp] theorem modMem_mem (f : MemS → MemS) : (modMem f s).mem = f s.mem := rfl
@[simp] theorem modMem_rast (f : MemS → MemS) : (modMem f s).rast = s.rast := rfl
@[simp] theorem modMem_beam (f : MemS → MemS) : (modMem f s).beam = s.beam := rfl
@[simp] theorem modMem_motn (f : MemS → MemS) : (modMem f s).motn = s.motn := rfl
@[simp] theorem modMem_loops (f : MemS → MemS) : (modMem f s).loops = s.loops := rfl
@[simp] theorem modMem_head (f : MemS → MemS) : (modMem f s).head = s.head := rfl
@[simp] theorem modMem_scan (f : MemS → MemS) : (modMem f s).scan = s.scan := rfl
@[simp] theorem modMem_skid (f : MemS → MemS) : (modMem f s).skid = s.skid := rfl
@[simp] theorem modMem_out (f : MemS → MemS) : (modMem f s).out = s.out := rfl
@[simp] theorem modMem_freeCount (f : MemS → MemS) : (modMem f s).freeCount = s.freeCount := rfl
@[simp] theorem modMem_pending (f : MemS → MemS) : (modMem f s).pending = s.pending := rfl
@[simp] theorem modRast_now (f : Rast → Rast) : (modRast f s).now = s.now := rfl
@[simp] theorem modRast_aon (f : Rast → Rast) : (modRast f s).aon = s.aon := rfl
@[simp] theorem modRast_therm (f : Rast → Rast) : (modRast f s).therm = s.therm := rfl
@[simp] theorem modRast_nv (f : Rast → Rast) : (modRast f s).nv = s.nv := rfl
@[simp] theorem modRast_lg (f : Rast → Rast) : (modRast f s).lg = s.lg := rfl
@[simp] theorem modRast_boot (f : Rast → Rast) : (modRast f s).boot = s.boot := rfl
@[simp] theorem modRast_lock (f : Rast → Rast) : (modRast f s).lock = s.lock := rfl
@[simp] theorem modRast_epoch (f : Rast → Rast) : (modRast f s).epoch = s.epoch := rfl
@[simp] theorem modRast_flSel (f : Rast → Rast) : (modRast f s).flSel = s.flSel := rfl
@[simp] theorem modRast_fl (f : Rast → Rast) : (modRast f s).fl = s.fl := rfl
@[simp] theorem modRast_host (f : Rast → Rast) : (modRast f s).host = s.host := rfl
@[simp] theorem modRast_cue (f : Rast → Rast) : (modRast f s).cue = s.cue := rfl
@[simp] theorem modRast_mem (f : Rast → Rast) : (modRast f s).mem = s.mem := rfl
@[simp] theorem modRast_rast (f : Rast → Rast) : (modRast f s).rast = f s.rast := rfl
@[simp] theorem modRast_beam (f : Rast → Rast) : (modRast f s).beam = s.beam := rfl
@[simp] theorem modRast_motn (f : Rast → Rast) : (modRast f s).motn = s.motn := rfl
@[simp] theorem modRast_loops (f : Rast → Rast) : (modRast f s).loops = s.loops := rfl
@[simp] theorem modRast_head (f : Rast → Rast) : (modRast f s).head = s.head := rfl
@[simp] theorem modRast_scan (f : Rast → Rast) : (modRast f s).scan = s.scan := rfl
@[simp] theorem modRast_skid (f : Rast → Rast) : (modRast f s).skid = s.skid := rfl
@[simp] theorem modRast_out (f : Rast → Rast) : (modRast f s).out = s.out := rfl
@[simp] theorem modRast_freeCount (f : Rast → Rast) : (modRast f s).freeCount = s.freeCount := rfl
@[simp] theorem modRast_pending (f : Rast → Rast) : (modRast f s).pending = s.pending := rfl
@[simp] theorem modHead_now (f : HeadE → HeadE) : (modHead f s).now = s.now := rfl
@[simp] theorem modHead_aon (f : HeadE → HeadE) : (modHead f s).aon = s.aon := rfl
@[simp] theorem modHead_therm (f : HeadE → HeadE) : (modHead f s).therm = s.therm := rfl
@[simp] theorem modHead_nv (f : HeadE → HeadE) : (modHead f s).nv = s.nv := rfl
@[simp] theorem modHead_lg (f : HeadE → HeadE) : (modHead f s).lg = s.lg := rfl
@[simp] theorem modHead_boot (f : HeadE → HeadE) : (modHead f s).boot = s.boot := rfl
@[simp] theorem modHead_lock (f : HeadE → HeadE) : (modHead f s).lock = s.lock := rfl
@[simp] theorem modHead_epoch (f : HeadE → HeadE) : (modHead f s).epoch = s.epoch := rfl
@[simp] theorem modHead_flSel (f : HeadE → HeadE) : (modHead f s).flSel = s.flSel := rfl
@[simp] theorem modHead_fl (f : HeadE → HeadE) : (modHead f s).fl = s.fl := rfl
@[simp] theorem modHead_host (f : HeadE → HeadE) : (modHead f s).host = s.host := rfl
@[simp] theorem modHead_cue (f : HeadE → HeadE) : (modHead f s).cue = s.cue := rfl
@[simp] theorem modHead_mem (f : HeadE → HeadE) : (modHead f s).mem = s.mem := rfl
@[simp] theorem modHead_rast (f : HeadE → HeadE) : (modHead f s).rast = s.rast := rfl
@[simp] theorem modHead_beam (f : HeadE → HeadE) : (modHead f s).beam = s.beam := rfl
@[simp] theorem modHead_motn (f : HeadE → HeadE) : (modHead f s).motn = s.motn := rfl
@[simp] theorem modHead_loops (f : HeadE → HeadE) : (modHead f s).loops = s.loops := rfl
@[simp] theorem modHead_head (f : HeadE → HeadE) : (modHead f s).head = f s.head := rfl
@[simp] theorem modHead_scan (f : HeadE → HeadE) : (modHead f s).scan = s.scan := rfl
@[simp] theorem modHead_skid (f : HeadE → HeadE) : (modHead f s).skid = s.skid := rfl
@[simp] theorem modHead_out (f : HeadE → HeadE) : (modHead f s).out = s.out := rfl
@[simp] theorem modHead_freeCount (f : HeadE → HeadE) : (modHead f s).freeCount = s.freeCount := rfl
@[simp] theorem modHead_pending (f : HeadE → HeadE) : (modHead f s).pending = s.pending := rfl
@[simp] theorem modScan_now (f : ScanE → ScanE) : (modScan f s).now = s.now := rfl
@[simp] theorem modScan_aon (f : ScanE → ScanE) : (modScan f s).aon = s.aon := rfl
@[simp] theorem modScan_therm (f : ScanE → ScanE) : (modScan f s).therm = s.therm := rfl
@[simp] theorem modScan_nv (f : ScanE → ScanE) : (modScan f s).nv = s.nv := rfl
@[simp] theorem modScan_lg (f : ScanE → ScanE) : (modScan f s).lg = s.lg := rfl
@[simp] theorem modScan_boot (f : ScanE → ScanE) : (modScan f s).boot = s.boot := rfl
@[simp] theorem modScan_lock (f : ScanE → ScanE) : (modScan f s).lock = s.lock := rfl
@[simp] theorem modScan_epoch (f : ScanE → ScanE) : (modScan f s).epoch = s.epoch := rfl
@[simp] theorem modScan_flSel (f : ScanE → ScanE) : (modScan f s).flSel = s.flSel := rfl
@[simp] theorem modScan_fl (f : ScanE → ScanE) : (modScan f s).fl = s.fl := rfl
@[simp] theorem modScan_host (f : ScanE → ScanE) : (modScan f s).host = s.host := rfl
@[simp] theorem modScan_cue (f : ScanE → ScanE) : (modScan f s).cue = s.cue := rfl
@[simp] theorem modScan_mem (f : ScanE → ScanE) : (modScan f s).mem = s.mem := rfl
@[simp] theorem modScan_rast (f : ScanE → ScanE) : (modScan f s).rast = s.rast := rfl
@[simp] theorem modScan_beam (f : ScanE → ScanE) : (modScan f s).beam = s.beam := rfl
@[simp] theorem modScan_motn (f : ScanE → ScanE) : (modScan f s).motn = s.motn := rfl
@[simp] theorem modScan_loops (f : ScanE → ScanE) : (modScan f s).loops = s.loops := rfl
@[simp] theorem modScan_head (f : ScanE → ScanE) : (modScan f s).head = s.head := rfl
@[simp] theorem modScan_scan (f : ScanE → ScanE) : (modScan f s).scan = f s.scan := rfl
@[simp] theorem modScan_skid (f : ScanE → ScanE) : (modScan f s).skid = s.skid := rfl
@[simp] theorem modScan_out (f : ScanE → ScanE) : (modScan f s).out = s.out := rfl
@[simp] theorem modScan_freeCount (f : ScanE → ScanE) : (modScan f s).freeCount = s.freeCount := rfl
@[simp] theorem modScan_pending (f : ScanE → ScanE) : (modScan f s).pending = s.pending := rfl
@[simp] theorem modSkid_now (f : Skid → Skid) : (modSkid f s).now = s.now := rfl
@[simp] theorem modSkid_aon (f : Skid → Skid) : (modSkid f s).aon = s.aon := rfl
@[simp] theorem modSkid_therm (f : Skid → Skid) : (modSkid f s).therm = s.therm := rfl
@[simp] theorem modSkid_nv (f : Skid → Skid) : (modSkid f s).nv = s.nv := rfl
@[simp] theorem modSkid_lg (f : Skid → Skid) : (modSkid f s).lg = s.lg := rfl
@[simp] theorem modSkid_boot (f : Skid → Skid) : (modSkid f s).boot = s.boot := rfl
@[simp] theorem modSkid_lock (f : Skid → Skid) : (modSkid f s).lock = s.lock := rfl
@[simp] theorem modSkid_epoch (f : Skid → Skid) : (modSkid f s).epoch = s.epoch := rfl
@[simp] theorem modSkid_flSel (f : Skid → Skid) : (modSkid f s).flSel = s.flSel := rfl
@[simp] theorem modSkid_fl (f : Skid → Skid) : (modSkid f s).fl = s.fl := rfl
@[simp] theorem modSkid_host (f : Skid → Skid) : (modSkid f s).host = s.host := rfl
@[simp] theorem modSkid_cue (f : Skid → Skid) : (modSkid f s).cue = s.cue := rfl
@[simp] theorem modSkid_mem (f : Skid → Skid) : (modSkid f s).mem = s.mem := rfl
@[simp] theorem modSkid_rast (f : Skid → Skid) : (modSkid f s).rast = s.rast := rfl
@[simp] theorem modSkid_beam (f : Skid → Skid) : (modSkid f s).beam = s.beam := rfl
@[simp] theorem modSkid_motn (f : Skid → Skid) : (modSkid f s).motn = s.motn := rfl
@[simp] theorem modSkid_loops (f : Skid → Skid) : (modSkid f s).loops = s.loops := rfl
@[simp] theorem modSkid_head (f : Skid → Skid) : (modSkid f s).head = s.head := rfl
@[simp] theorem modSkid_scan (f : Skid → Skid) : (modSkid f s).scan = s.scan := rfl
@[simp] theorem modSkid_skid (f : Skid → Skid) : (modSkid f s).skid = f s.skid := rfl
@[simp] theorem modSkid_out (f : Skid → Skid) : (modSkid f s).out = s.out := rfl
@[simp] theorem modSkid_freeCount (f : Skid → Skid) : (modSkid f s).freeCount = s.freeCount := rfl
@[simp] theorem modSkid_pending (f : Skid → Skid) : (modSkid f s).pending = s.pending := rfl
@[simp] theorem modFl_now (i : FlumeId) (f : Flume → Flume) : (modFl i f s).now = s.now := rfl
@[simp] theorem modFl_aon (i : FlumeId) (f : Flume → Flume) : (modFl i f s).aon = s.aon := rfl
@[simp] theorem modFl_therm (i : FlumeId) (f : Flume → Flume) : (modFl i f s).therm = s.therm := rfl
@[simp] theorem modFl_nv (i : FlumeId) (f : Flume → Flume) : (modFl i f s).nv = s.nv := rfl
@[simp] theorem modFl_lg (i : FlumeId) (f : Flume → Flume) : (modFl i f s).lg = s.lg := rfl
@[simp] theorem modFl_boot (i : FlumeId) (f : Flume → Flume) : (modFl i f s).boot = s.boot := rfl
@[simp] theorem modFl_lock (i : FlumeId) (f : Flume → Flume) : (modFl i f s).lock = s.lock := rfl
@[simp] theorem modFl_epoch (i : FlumeId) (f : Flume → Flume) : (modFl i f s).epoch = s.epoch := rfl
@[simp] theorem modFl_flSel (i : FlumeId) (f : Flume → Flume) : (modFl i f s).flSel = s.flSel := rfl
@[simp] theorem modFl_fl (i : FlumeId) (f : Flume → Flume) : (modFl i f s).fl = tmod s.fl i f := rfl
@[simp] theorem modFl_host (i : FlumeId) (f : Flume → Flume) : (modFl i f s).host = s.host := rfl
@[simp] theorem modFl_cue (i : FlumeId) (f : Flume → Flume) : (modFl i f s).cue = s.cue := rfl
@[simp] theorem modFl_mem (i : FlumeId) (f : Flume → Flume) : (modFl i f s).mem = s.mem := rfl
@[simp] theorem modFl_rast (i : FlumeId) (f : Flume → Flume) : (modFl i f s).rast = s.rast := rfl
@[simp] theorem modFl_beam (i : FlumeId) (f : Flume → Flume) : (modFl i f s).beam = s.beam := rfl
@[simp] theorem modFl_motn (i : FlumeId) (f : Flume → Flume) : (modFl i f s).motn = s.motn := rfl
@[simp] theorem modFl_loops (i : FlumeId) (f : Flume → Flume) : (modFl i f s).loops = s.loops := rfl
@[simp] theorem modFl_head (i : FlumeId) (f : Flume → Flume) : (modFl i f s).head = s.head := rfl
@[simp] theorem modFl_scan (i : FlumeId) (f : Flume → Flume) : (modFl i f s).scan = s.scan := rfl
@[simp] theorem modFl_skid (i : FlumeId) (f : Flume → Flume) : (modFl i f s).skid = s.skid := rfl
@[simp] theorem modFl_out (i : FlumeId) (f : Flume → Flume) : (modFl i f s).out = s.out := rfl
@[simp] theorem modFl_freeCount (i : FlumeId) (f : Flume → Flume) : (modFl i f s).freeCount = s.freeCount := rfl
@[simp] theorem modFl_pending (i : FlumeId) (f : Flume → Flume) : (modFl i f s).pending = s.pending := rfl
@[simp] theorem modCh_now (i : Chan) (f : Channel → Channel) : (modCh i f s).now = s.now := rfl
@[simp] theorem modCh_aon (i : Chan) (f : Channel → Channel) : (modCh i f s).aon = s.aon := rfl
@[simp] theorem modCh_therm (i : Chan) (f : Channel → Channel) : (modCh i f s).therm = s.therm := rfl
@[simp] theorem modCh_nv (i : Chan) (f : Channel → Channel) : (modCh i f s).nv = s.nv := rfl
@[simp] theorem modCh_lg (i : Chan) (f : Channel → Channel) : (modCh i f s).lg = s.lg := rfl
@[simp] theorem modCh_boot (i : Chan) (f : Channel → Channel) : (modCh i f s).boot = s.boot := rfl
@[simp] theorem modCh_lock (i : Chan) (f : Channel → Channel) : (modCh i f s).lock = s.lock := rfl
@[simp] theorem modCh_epoch (i : Chan) (f : Channel → Channel) : (modCh i f s).epoch = s.epoch := rfl
@[simp] theorem modCh_flSel (i : Chan) (f : Channel → Channel) : (modCh i f s).flSel = s.flSel := rfl
@[simp] theorem modCh_fl (i : Chan) (f : Channel → Channel) : (modCh i f s).fl = s.fl := rfl
@[simp] theorem modCh_host (i : Chan) (f : Channel → Channel) : (modCh i f s).host = s.host := rfl
@[simp] theorem modCh_cue (i : Chan) (f : Channel → Channel) : (modCh i f s).cue = { s.cue with ch := tmod s.cue.ch i f } := rfl
@[simp] theorem modCh_mem (i : Chan) (f : Channel → Channel) : (modCh i f s).mem = s.mem := rfl
@[simp] theorem modCh_rast (i : Chan) (f : Channel → Channel) : (modCh i f s).rast = s.rast := rfl
@[simp] theorem modCh_beam (i : Chan) (f : Channel → Channel) : (modCh i f s).beam = s.beam := rfl
@[simp] theorem modCh_motn (i : Chan) (f : Channel → Channel) : (modCh i f s).motn = s.motn := rfl
@[simp] theorem modCh_loops (i : Chan) (f : Channel → Channel) : (modCh i f s).loops = s.loops := rfl
@[simp] theorem modCh_head (i : Chan) (f : Channel → Channel) : (modCh i f s).head = s.head := rfl
@[simp] theorem modCh_scan (i : Chan) (f : Channel → Channel) : (modCh i f s).scan = s.scan := rfl
@[simp] theorem modCh_skid (i : Chan) (f : Channel → Channel) : (modCh i f s).skid = s.skid := rfl
@[simp] theorem modCh_out (i : Chan) (f : Channel → Channel) : (modCh i f s).out = s.out := rfl
@[simp] theorem modCh_freeCount (i : Chan) (f : Channel → Channel) : (modCh i f s).freeCount = s.freeCount := rfl
@[simp] theorem modCh_pending (i : Chan) (f : Channel → Channel) : (modCh i f s).pending = s.pending := rfl
@[simp] theorem modTrk_now (i : Trk) (f : Tracker → Tracker) : (modTrk i f s).now = s.now := rfl
@[simp] theorem modTrk_aon (i : Trk) (f : Tracker → Tracker) : (modTrk i f s).aon = s.aon := rfl
@[simp] theorem modTrk_therm (i : Trk) (f : Tracker → Tracker) : (modTrk i f s).therm = s.therm := rfl
@[simp] theorem modTrk_nv (i : Trk) (f : Tracker → Tracker) : (modTrk i f s).nv = s.nv := rfl
@[simp] theorem modTrk_lg (i : Trk) (f : Tracker → Tracker) : (modTrk i f s).lg = s.lg := rfl
@[simp] theorem modTrk_boot (i : Trk) (f : Tracker → Tracker) : (modTrk i f s).boot = s.boot := rfl
@[simp] theorem modTrk_lock (i : Trk) (f : Tracker → Tracker) : (modTrk i f s).lock = s.lock := rfl
@[simp] theorem modTrk_epoch (i : Trk) (f : Tracker → Tracker) : (modTrk i f s).epoch = s.epoch := rfl
@[simp] theorem modTrk_flSel (i : Trk) (f : Tracker → Tracker) : (modTrk i f s).flSel = s.flSel := rfl
@[simp] theorem modTrk_fl (i : Trk) (f : Tracker → Tracker) : (modTrk i f s).fl = s.fl := rfl
@[simp] theorem modTrk_host (i : Trk) (f : Tracker → Tracker) : (modTrk i f s).host = s.host := rfl
@[simp] theorem modTrk_cue (i : Trk) (f : Tracker → Tracker) : (modTrk i f s).cue = { s.cue with trk := tmod s.cue.trk i f } := rfl
@[simp] theorem modTrk_mem (i : Trk) (f : Tracker → Tracker) : (modTrk i f s).mem = s.mem := rfl
@[simp] theorem modTrk_rast (i : Trk) (f : Tracker → Tracker) : (modTrk i f s).rast = s.rast := rfl
@[simp] theorem modTrk_beam (i : Trk) (f : Tracker → Tracker) : (modTrk i f s).beam = s.beam := rfl
@[simp] theorem modTrk_motn (i : Trk) (f : Tracker → Tracker) : (modTrk i f s).motn = s.motn := rfl
@[simp] theorem modTrk_loops (i : Trk) (f : Tracker → Tracker) : (modTrk i f s).loops = s.loops := rfl
@[simp] theorem modTrk_head (i : Trk) (f : Tracker → Tracker) : (modTrk i f s).head = s.head := rfl
@[simp] theorem modTrk_scan (i : Trk) (f : Tracker → Tracker) : (modTrk i f s).scan = s.scan := rfl
@[simp] theorem modTrk_skid (i : Trk) (f : Tracker → Tracker) : (modTrk i f s).skid = s.skid := rfl
@[simp] theorem modTrk_out (i : Trk) (f : Tracker → Tracker) : (modTrk i f s).out = s.out := rfl
@[simp] theorem modTrk_freeCount (i : Trk) (f : Tracker → Tracker) : (modTrk i f s).freeCount = s.freeCount := rfl
@[simp] theorem modTrk_pending (i : Trk) (f : Tracker → Tracker) : (modTrk i f s).pending = s.pending := rfl
@[simp] theorem modPages_now (i : Page → Bool) (f : Page → Page) : (modPages i f s).now = s.now := rfl
@[simp] theorem modPages_aon (i : Page → Bool) (f : Page → Page) : (modPages i f s).aon = s.aon := rfl
@[simp] theorem modPages_therm (i : Page → Bool) (f : Page → Page) : (modPages i f s).therm = s.therm := rfl
@[simp] theorem modPages_nv (i : Page → Bool) (f : Page → Page) : (modPages i f s).nv = s.nv := rfl
@[simp] theorem modPages_lg (i : Page → Bool) (f : Page → Page) : (modPages i f s).lg = s.lg := rfl
@[simp] theorem modPages_boot (i : Page → Bool) (f : Page → Page) : (modPages i f s).boot = s.boot := rfl
@[simp] theorem modPages_lock (i : Page → Bool) (f : Page → Page) : (modPages i f s).lock = s.lock := rfl
@[simp] theorem modPages_epoch (i : Page → Bool) (f : Page → Page) : (modPages i f s).epoch = s.epoch := rfl
@[simp] theorem modPages_flSel (i : Page → Bool) (f : Page → Page) : (modPages i f s).flSel = s.flSel := rfl
@[simp] theorem modPages_fl (i : Page → Bool) (f : Page → Page) : (modPages i f s).fl = s.fl := rfl
@[simp] theorem modPages_host (i : Page → Bool) (f : Page → Page) : (modPages i f s).host = s.host := rfl
@[simp] theorem modPages_cue (i : Page → Bool) (f : Page → Page) : (modPages i f s).cue = { s.cue with pages := s.cue.pages.map fun g => if i g then f g else g } := rfl
@[simp] theorem modPages_mem (i : Page → Bool) (f : Page → Page) : (modPages i f s).mem = s.mem := rfl
@[simp] theorem modPages_rast (i : Page → Bool) (f : Page → Page) : (modPages i f s).rast = s.rast := rfl
@[simp] theorem modPages_beam (i : Page → Bool) (f : Page → Page) : (modPages i f s).beam = s.beam := rfl
@[simp] theorem modPages_motn (i : Page → Bool) (f : Page → Page) : (modPages i f s).motn = s.motn := rfl
@[simp] theorem modPages_loops (i : Page → Bool) (f : Page → Page) : (modPages i f s).loops = s.loops := rfl
@[simp] theorem modPages_head (i : Page → Bool) (f : Page → Page) : (modPages i f s).head = s.head := rfl
@[simp] theorem modPages_scan (i : Page → Bool) (f : Page → Page) : (modPages i f s).scan = s.scan := rfl
@[simp] theorem modPages_skid (i : Page → Bool) (f : Page → Page) : (modPages i f s).skid = s.skid := rfl
@[simp] theorem modPages_out (i : Page → Bool) (f : Page → Page) : (modPages i f s).out = s.out := rfl
@[simp] theorem modPages_freeCount (i : Page → Bool) (f : Page → Page) : (modPages i f s).freeCount = s.freeCount := rfl
@[simp] theorem modPages_pending (i : Page → Bool) (f : Page → Page) : (modPages i f s).pending = s.pending := rfl
@[simp] theorem modStep_now (i : Fin 16) (f : StepperS → StepperS) : (modStep i f s).now = s.now := rfl
@[simp] theorem modStep_aon (i : Fin 16) (f : StepperS → StepperS) : (modStep i f s).aon = s.aon := rfl
@[simp] theorem modStep_therm (i : Fin 16) (f : StepperS → StepperS) : (modStep i f s).therm = s.therm := rfl
@[simp] theorem modStep_nv (i : Fin 16) (f : StepperS → StepperS) : (modStep i f s).nv = s.nv := rfl
@[simp] theorem modStep_lg (i : Fin 16) (f : StepperS → StepperS) : (modStep i f s).lg = s.lg := rfl
@[simp] theorem modStep_boot (i : Fin 16) (f : StepperS → StepperS) : (modStep i f s).boot = s.boot := rfl
@[simp] theorem modStep_lock (i : Fin 16) (f : StepperS → StepperS) : (modStep i f s).lock = s.lock := rfl
@[simp] theorem modStep_epoch (i : Fin 16) (f : StepperS → StepperS) : (modStep i f s).epoch = s.epoch := rfl
@[simp] theorem modStep_flSel (i : Fin 16) (f : StepperS → StepperS) : (modStep i f s).flSel = s.flSel := rfl
@[simp] theorem modStep_fl (i : Fin 16) (f : StepperS → StepperS) : (modStep i f s).fl = s.fl := rfl
@[simp] theorem modStep_host (i : Fin 16) (f : StepperS → StepperS) : (modStep i f s).host = s.host := rfl
@[simp] theorem modStep_cue (i : Fin 16) (f : StepperS → StepperS) : (modStep i f s).cue = s.cue := rfl
@[simp] theorem modStep_mem (i : Fin 16) (f : StepperS → StepperS) : (modStep i f s).mem = s.mem := rfl
@[simp] theorem modStep_rast (i : Fin 16) (f : StepperS → StepperS) : (modStep i f s).rast = s.rast := rfl
@[simp] theorem modStep_beam (i : Fin 16) (f : StepperS → StepperS) : (modStep i f s).beam = s.beam := rfl
@[simp] theorem modStep_motn (i : Fin 16) (f : StepperS → StepperS) : (modStep i f s).motn = { s.motn with step := tmod s.motn.step i f } := rfl
@[simp] theorem modStep_loops (i : Fin 16) (f : StepperS → StepperS) : (modStep i f s).loops = s.loops := rfl
@[simp] theorem modStep_head (i : Fin 16) (f : StepperS → StepperS) : (modStep i f s).head = s.head := rfl
@[simp] theorem modStep_scan (i : Fin 16) (f : StepperS → StepperS) : (modStep i f s).scan = s.scan := rfl
@[simp] theorem modStep_skid (i : Fin 16) (f : StepperS → StepperS) : (modStep i f s).skid = s.skid := rfl
@[simp] theorem modStep_out (i : Fin 16) (f : StepperS → StepperS) : (modStep i f s).out = s.out := rfl
@[simp] theorem modStep_freeCount (i : Fin 16) (f : StepperS → StepperS) : (modStep i f s).freeCount = s.freeCount := rfl
@[simp] theorem modStep_pending (i : Fin 16) (f : StepperS → StepperS) : (modStep i f s).pending = s.pending := rfl
@[simp] theorem modBldc_now (i : Fin 4) (f : BldcS → BldcS) : (modBldc i f s).now = s.now := rfl
@[simp] theorem modBldc_aon (i : Fin 4) (f : BldcS → BldcS) : (modBldc i f s).aon = s.aon := rfl
@[simp] theorem modBldc_therm (i : Fin 4) (f : BldcS → BldcS) : (modBldc i f s).therm = s.therm := rfl
@[simp] theorem modBldc_nv (i : Fin 4) (f : BldcS → BldcS) : (modBldc i f s).nv = s.nv := rfl
@[simp] theorem modBldc_lg (i : Fin 4) (f : BldcS → BldcS) : (modBldc i f s).lg = s.lg := rfl
@[simp] theorem modBldc_boot (i : Fin 4) (f : BldcS → BldcS) : (modBldc i f s).boot = s.boot := rfl
@[simp] theorem modBldc_lock (i : Fin 4) (f : BldcS → BldcS) : (modBldc i f s).lock = s.lock := rfl
@[simp] theorem modBldc_epoch (i : Fin 4) (f : BldcS → BldcS) : (modBldc i f s).epoch = s.epoch := rfl
@[simp] theorem modBldc_flSel (i : Fin 4) (f : BldcS → BldcS) : (modBldc i f s).flSel = s.flSel := rfl
@[simp] theorem modBldc_fl (i : Fin 4) (f : BldcS → BldcS) : (modBldc i f s).fl = s.fl := rfl
@[simp] theorem modBldc_host (i : Fin 4) (f : BldcS → BldcS) : (modBldc i f s).host = s.host := rfl
@[simp] theorem modBldc_cue (i : Fin 4) (f : BldcS → BldcS) : (modBldc i f s).cue = s.cue := rfl
@[simp] theorem modBldc_mem (i : Fin 4) (f : BldcS → BldcS) : (modBldc i f s).mem = s.mem := rfl
@[simp] theorem modBldc_rast (i : Fin 4) (f : BldcS → BldcS) : (modBldc i f s).rast = s.rast := rfl
@[simp] theorem modBldc_beam (i : Fin 4) (f : BldcS → BldcS) : (modBldc i f s).beam = s.beam := rfl
@[simp] theorem modBldc_motn (i : Fin 4) (f : BldcS → BldcS) : (modBldc i f s).motn = { s.motn with bldc := tmod s.motn.bldc i f } := rfl
@[simp] theorem modBldc_loops (i : Fin 4) (f : BldcS → BldcS) : (modBldc i f s).loops = s.loops := rfl
@[simp] theorem modBldc_head (i : Fin 4) (f : BldcS → BldcS) : (modBldc i f s).head = s.head := rfl
@[simp] theorem modBldc_scan (i : Fin 4) (f : BldcS → BldcS) : (modBldc i f s).scan = s.scan := rfl
@[simp] theorem modBldc_skid (i : Fin 4) (f : BldcS → BldcS) : (modBldc i f s).skid = s.skid := rfl
@[simp] theorem modBldc_out (i : Fin 4) (f : BldcS → BldcS) : (modBldc i f s).out = s.out := rfl
@[simp] theorem modBldc_freeCount (i : Fin 4) (f : BldcS → BldcS) : (modBldc i f s).freeCount = s.freeCount := rfl
@[simp] theorem modBldc_pending (i : Fin 4) (f : BldcS → BldcS) : (modBldc i f s).pending = s.pending := rfl
@[simp] theorem modLoop_now (i : LoopId) (f : LoopS → LoopS) : (modLoop i f s).now = s.now := rfl
@[simp] theorem modLoop_aon (i : LoopId) (f : LoopS → LoopS) : (modLoop i f s).aon = s.aon := rfl
@[simp] theorem modLoop_therm (i : LoopId) (f : LoopS → LoopS) : (modLoop i f s).therm = s.therm := rfl
@[simp] theorem modLoop_nv (i : LoopId) (f : LoopS → LoopS) : (modLoop i f s).nv = s.nv := rfl
@[simp] theorem modLoop_lg (i : LoopId) (f : LoopS → LoopS) : (modLoop i f s).lg = s.lg := rfl
@[simp] theorem modLoop_boot (i : LoopId) (f : LoopS → LoopS) : (modLoop i f s).boot = s.boot := rfl
@[simp] theorem modLoop_lock (i : LoopId) (f : LoopS → LoopS) : (modLoop i f s).lock = s.lock := rfl
@[simp] theorem modLoop_epoch (i : LoopId) (f : LoopS → LoopS) : (modLoop i f s).epoch = s.epoch := rfl
@[simp] theorem modLoop_flSel (i : LoopId) (f : LoopS → LoopS) : (modLoop i f s).flSel = s.flSel := rfl
@[simp] theorem modLoop_fl (i : LoopId) (f : LoopS → LoopS) : (modLoop i f s).fl = s.fl := rfl
@[simp] theorem modLoop_host (i : LoopId) (f : LoopS → LoopS) : (modLoop i f s).host = s.host := rfl
@[simp] theorem modLoop_cue (i : LoopId) (f : LoopS → LoopS) : (modLoop i f s).cue = s.cue := rfl
@[simp] theorem modLoop_mem (i : LoopId) (f : LoopS → LoopS) : (modLoop i f s).mem = s.mem := rfl
@[simp] theorem modLoop_rast (i : LoopId) (f : LoopS → LoopS) : (modLoop i f s).rast = s.rast := rfl
@[simp] theorem modLoop_beam (i : LoopId) (f : LoopS → LoopS) : (modLoop i f s).beam = s.beam := rfl
@[simp] theorem modLoop_motn (i : LoopId) (f : LoopS → LoopS) : (modLoop i f s).motn = s.motn := rfl
@[simp] theorem modLoop_loops (i : LoopId) (f : LoopS → LoopS) : (modLoop i f s).loops = { s.loops with slot := tmod s.loops.slot i f } := rfl
@[simp] theorem modLoop_head (i : LoopId) (f : LoopS → LoopS) : (modLoop i f s).head = s.head := rfl
@[simp] theorem modLoop_scan (i : LoopId) (f : LoopS → LoopS) : (modLoop i f s).scan = s.scan := rfl
@[simp] theorem modLoop_skid (i : LoopId) (f : LoopS → LoopS) : (modLoop i f s).skid = s.skid := rfl
@[simp] theorem modLoop_out (i : LoopId) (f : LoopS → LoopS) : (modLoop i f s).out = s.out := rfl
@[simp] theorem modLoop_freeCount (i : LoopId) (f : LoopS → LoopS) : (modLoop i f s).freeCount = s.freeCount := rfl
@[simp] theorem modLoop_pending (i : LoopId) (f : LoopS → LoopS) : (modLoop i f s).pending = s.pending := rfl
@[simp] theorem modZone_now (i : Zone) (f : ZoneS → ZoneS) : (modZone i f s).now = s.now := rfl
@[simp] theorem modZone_aon (i : Zone) (f : ZoneS → ZoneS) : (modZone i f s).aon = s.aon := rfl
@[simp] theorem modZone_therm (i : Zone) (f : ZoneS → ZoneS) : (modZone i f s).therm = s.therm := rfl
@[simp] theorem modZone_nv (i : Zone) (f : ZoneS → ZoneS) : (modZone i f s).nv = s.nv := rfl
@[simp] theorem modZone_lg (i : Zone) (f : ZoneS → ZoneS) : (modZone i f s).lg = s.lg := rfl
@[simp] theorem modZone_boot (i : Zone) (f : ZoneS → ZoneS) : (modZone i f s).boot = s.boot := rfl
@[simp] theorem modZone_lock (i : Zone) (f : ZoneS → ZoneS) : (modZone i f s).lock = s.lock := rfl
@[simp] theorem modZone_epoch (i : Zone) (f : ZoneS → ZoneS) : (modZone i f s).epoch = s.epoch := rfl
@[simp] theorem modZone_flSel (i : Zone) (f : ZoneS → ZoneS) : (modZone i f s).flSel = s.flSel := rfl
@[simp] theorem modZone_fl (i : Zone) (f : ZoneS → ZoneS) : (modZone i f s).fl = s.fl := rfl
@[simp] theorem modZone_host (i : Zone) (f : ZoneS → ZoneS) : (modZone i f s).host = s.host := rfl
@[simp] theorem modZone_cue (i : Zone) (f : ZoneS → ZoneS) : (modZone i f s).cue = s.cue := rfl
@[simp] theorem modZone_mem (i : Zone) (f : ZoneS → ZoneS) : (modZone i f s).mem = s.mem := rfl
@[simp] theorem modZone_rast (i : Zone) (f : ZoneS → ZoneS) : (modZone i f s).rast = s.rast := rfl
@[simp] theorem modZone_beam (i : Zone) (f : ZoneS → ZoneS) : (modZone i f s).beam = s.beam := rfl
@[simp] theorem modZone_motn (i : Zone) (f : ZoneS → ZoneS) : (modZone i f s).motn = s.motn := rfl
@[simp] theorem modZone_loops (i : Zone) (f : ZoneS → ZoneS) : (modZone i f s).loops = { s.loops with zone := tmod s.loops.zone i f } := rfl
@[simp] theorem modZone_head (i : Zone) (f : ZoneS → ZoneS) : (modZone i f s).head = s.head := rfl
@[simp] theorem modZone_scan (i : Zone) (f : ZoneS → ZoneS) : (modZone i f s).scan = s.scan := rfl
@[simp] theorem modZone_skid (i : Zone) (f : ZoneS → ZoneS) : (modZone i f s).skid = s.skid := rfl
@[simp] theorem modZone_out (i : Zone) (f : ZoneS → ZoneS) : (modZone i f s).out = s.out := rfl
@[simp] theorem modZone_freeCount (i : Zone) (f : ZoneS → ZoneS) : (modZone i f s).freeCount = s.freeCount := rfl
@[simp] theorem modZone_pending (i : Zone) (f : ZoneS → ZoneS) : (modZone i f s).pending = s.pending := rfl
@[simp] theorem modStn_now (i : Station) (f : StationS → StationS) : (modStn i f s).now = s.now := rfl
@[simp] theorem modStn_aon (i : Station) (f : StationS → StationS) : (modStn i f s).aon = s.aon := rfl
@[simp] theorem modStn_therm (i : Station) (f : StationS → StationS) : (modStn i f s).therm = s.therm := rfl
@[simp] theorem modStn_nv (i : Station) (f : StationS → StationS) : (modStn i f s).nv = s.nv := rfl
@[simp] theorem modStn_lg (i : Station) (f : StationS → StationS) : (modStn i f s).lg = s.lg := rfl
@[simp] theorem modStn_boot (i : Station) (f : StationS → StationS) : (modStn i f s).boot = s.boot := rfl
@[simp] theorem modStn_lock (i : Station) (f : StationS → StationS) : (modStn i f s).lock = s.lock := rfl
@[simp] theorem modStn_epoch (i : Station) (f : StationS → StationS) : (modStn i f s).epoch = s.epoch := rfl
@[simp] theorem modStn_flSel (i : Station) (f : StationS → StationS) : (modStn i f s).flSel = s.flSel := rfl
@[simp] theorem modStn_fl (i : Station) (f : StationS → StationS) : (modStn i f s).fl = s.fl := rfl
@[simp] theorem modStn_host (i : Station) (f : StationS → StationS) : (modStn i f s).host = s.host := rfl
@[simp] theorem modStn_cue (i : Station) (f : StationS → StationS) : (modStn i f s).cue = s.cue := rfl
@[simp] theorem modStn_mem (i : Station) (f : StationS → StationS) : (modStn i f s).mem = s.mem := rfl
@[simp] theorem modStn_rast (i : Station) (f : StationS → StationS) : (modStn i f s).rast = s.rast := rfl
@[simp] theorem modStn_beam (i : Station) (f : StationS → StationS) : (modStn i f s).beam = { s.beam with stn := tmod s.beam.stn i f } := rfl
@[simp] theorem modStn_motn (i : Station) (f : StationS → StationS) : (modStn i f s).motn = s.motn := rfl
@[simp] theorem modStn_loops (i : Station) (f : StationS → StationS) : (modStn i f s).loops = s.loops := rfl
@[simp] theorem modStn_head (i : Station) (f : StationS → StationS) : (modStn i f s).head = s.head := rfl
@[simp] theorem modStn_scan (i : Station) (f : StationS → StationS) : (modStn i f s).scan = s.scan := rfl
@[simp] theorem modStn_skid (i : Station) (f : StationS → StationS) : (modStn i f s).skid = s.skid := rfl
@[simp] theorem modStn_out (i : Station) (f : StationS → StationS) : (modStn i f s).out = s.out := rfl
@[simp] theorem modStn_freeCount (i : Station) (f : StationS → StationS) : (modStn i f s).freeCount = s.freeCount := rfl
@[simp] theorem modStn_pending (i : Station) (f : StationS → StationS) : (modStn i f s).pending = s.pending := rfl
@[simp] theorem modRail_now (i : Rail) (f : RailS → RailS) : (modRail i f s).now = s.now := rfl
@[simp] theorem modRail_aon (i : Rail) (f : RailS → RailS) : (modRail i f s).aon = { s.aon with rails := tmod s.aon.rails i f } := rfl
@[simp] theorem modRail_therm (i : Rail) (f : RailS → RailS) : (modRail i f s).therm = s.therm := rfl
@[simp] theorem modRail_nv (i : Rail) (f : RailS → RailS) : (modRail i f s).nv = s.nv := rfl
@[simp] theorem modRail_lg (i : Rail) (f : RailS → RailS) : (modRail i f s).lg = s.lg := rfl
@[simp] theorem modRail_boot (i : Rail) (f : RailS → RailS) : (modRail i f s).boot = s.boot := rfl
@[simp] theorem modRail_lock (i : Rail) (f : RailS → RailS) : (modRail i f s).lock = s.lock := rfl
@[simp] theorem modRail_epoch (i : Rail) (f : RailS → RailS) : (modRail i f s).epoch = s.epoch := rfl
@[simp] theorem modRail_flSel (i : Rail) (f : RailS → RailS) : (modRail i f s).flSel = s.flSel := rfl
@[simp] theorem modRail_fl (i : Rail) (f : RailS → RailS) : (modRail i f s).fl = s.fl := rfl
@[simp] theorem modRail_host (i : Rail) (f : RailS → RailS) : (modRail i f s).host = s.host := rfl
@[simp] theorem modRail_cue (i : Rail) (f : RailS → RailS) : (modRail i f s).cue = s.cue := rfl
@[simp] theorem modRail_mem (i : Rail) (f : RailS → RailS) : (modRail i f s).mem = s.mem := rfl
@[simp] theorem modRail_rast (i : Rail) (f : RailS → RailS) : (modRail i f s).rast = s.rast := rfl
@[simp] theorem modRail_beam (i : Rail) (f : RailS → RailS) : (modRail i f s).beam = s.beam := rfl
@[simp] theorem modRail_motn (i : Rail) (f : RailS → RailS) : (modRail i f s).motn = s.motn := rfl
@[simp] theorem modRail_loops (i : Rail) (f : RailS → RailS) : (modRail i f s).loops = s.loops := rfl
@[simp] theorem modRail_head (i : Rail) (f : RailS → RailS) : (modRail i f s).head = s.head := rfl
@[simp] theorem modRail_scan (i : Rail) (f : RailS → RailS) : (modRail i f s).scan = s.scan := rfl
@[simp] theorem modRail_skid (i : Rail) (f : RailS → RailS) : (modRail i f s).skid = s.skid := rfl
@[simp] theorem modRail_out (i : Rail) (f : RailS → RailS) : (modRail i f s).out = s.out := rfl
@[simp] theorem modRail_freeCount (i : Rail) (f : RailS → RailS) : (modRail i f s).freeCount = s.freeCount := rfl
@[simp] theorem modRail_pending (i : Rail) (f : RailS → RailS) : (modRail i f s).pending = s.pending := rfl
@[simp] theorem modDom_now (i : Dom) (f : DomS → DomS) : (modDom i f s).now = s.now := rfl
@[simp] theorem modDom_aon (i : Dom) (f : DomS → DomS) : (modDom i f s).aon = { s.aon with doms := tmod s.aon.doms i f } := rfl
@[simp] theorem modDom_therm (i : Dom) (f : DomS → DomS) : (modDom i f s).therm = s.therm := rfl
@[simp] theorem modDom_nv (i : Dom) (f : DomS → DomS) : (modDom i f s).nv = s.nv := rfl
@[simp] theorem modDom_lg (i : Dom) (f : DomS → DomS) : (modDom i f s).lg = s.lg := rfl
@[simp] theorem modDom_boot (i : Dom) (f : DomS → DomS) : (modDom i f s).boot = s.boot := rfl
@[simp] theorem modDom_lock (i : Dom) (f : DomS → DomS) : (modDom i f s).lock = s.lock := rfl
@[simp] theorem modDom_epoch (i : Dom) (f : DomS → DomS) : (modDom i f s).epoch = s.epoch := rfl
@[simp] theorem modDom_flSel (i : Dom) (f : DomS → DomS) : (modDom i f s).flSel = s.flSel := rfl
@[simp] theorem modDom_fl (i : Dom) (f : DomS → DomS) : (modDom i f s).fl = s.fl := rfl
@[simp] theorem modDom_host (i : Dom) (f : DomS → DomS) : (modDom i f s).host = s.host := rfl
@[simp] theorem modDom_cue (i : Dom) (f : DomS → DomS) : (modDom i f s).cue = s.cue := rfl
@[simp] theorem modDom_mem (i : Dom) (f : DomS → DomS) : (modDom i f s).mem = s.mem := rfl
@[simp] theorem modDom_rast (i : Dom) (f : DomS → DomS) : (modDom i f s).rast = s.rast := rfl
@[simp] theorem modDom_beam (i : Dom) (f : DomS → DomS) : (modDom i f s).beam = s.beam := rfl
@[simp] theorem modDom_motn (i : Dom) (f : DomS → DomS) : (modDom i f s).motn = s.motn := rfl
@[simp] theorem modDom_loops (i : Dom) (f : DomS → DomS) : (modDom i f s).loops = s.loops := rfl
@[simp] theorem modDom_head (i : Dom) (f : DomS → DomS) : (modDom i f s).head = s.head := rfl
@[simp] theorem modDom_scan (i : Dom) (f : DomS → DomS) : (modDom i f s).scan = s.scan := rfl
@[simp] theorem modDom_skid (i : Dom) (f : DomS → DomS) : (modDom i f s).skid = s.skid := rfl
@[simp] theorem modDom_out (i : Dom) (f : DomS → DomS) : (modDom i f s).out = s.out := rfl
@[simp] theorem modDom_freeCount (i : Dom) (f : DomS → DomS) : (modDom i f s).freeCount = s.freeCount := rfl
@[simp] theorem modDom_pending (i : Dom) (f : DomS → DomS) : (modDom i f s).pending = s.pending := rfl
@[simp] theorem emit_now (o : Output) : (emit s o).now = s.now := rfl
@[simp] theorem useFree_now : (useFree s).now = s.now := rfl
@[simp] theorem emit_aon (o : Output) : (emit s o).aon = s.aon := rfl
@[simp] theorem useFree_aon : (useFree s).aon = s.aon := rfl
@[simp] theorem emit_therm (o : Output) : (emit s o).therm = s.therm := rfl
@[simp] theorem useFree_therm : (useFree s).therm = s.therm := rfl
@[simp] theorem emit_nv (o : Output) : (emit s o).nv = s.nv := rfl
@[simp] theorem useFree_nv : (useFree s).nv = s.nv := rfl
@[simp] theorem emit_lg (o : Output) : (emit s o).lg = s.lg := rfl
@[simp] theorem useFree_lg : (useFree s).lg = s.lg := rfl
@[simp] theorem emit_boot (o : Output) : (emit s o).boot = s.boot := rfl
@[simp] theorem useFree_boot : (useFree s).boot = s.boot := rfl
@[simp] theorem emit_lock (o : Output) : (emit s o).lock = s.lock := rfl
@[simp] theorem useFree_lock : (useFree s).lock = s.lock := rfl
@[simp] theorem emit_epoch (o : Output) : (emit s o).epoch = s.epoch := rfl
@[simp] theorem useFree_epoch : (useFree s).epoch = s.epoch := rfl
@[simp] theorem emit_flSel (o : Output) : (emit s o).flSel = s.flSel := rfl
@[simp] theorem useFree_flSel : (useFree s).flSel = s.flSel := rfl
@[simp] theorem emit_fl (o : Output) : (emit s o).fl = s.fl := rfl
@[simp] theorem useFree_fl : (useFree s).fl = s.fl := rfl
@[simp] theorem emit_host (o : Output) : (emit s o).host = s.host := rfl
@[simp] theorem useFree_host : (useFree s).host = s.host := rfl
@[simp] theorem emit_cue (o : Output) : (emit s o).cue = s.cue := rfl
@[simp] theorem useFree_cue : (useFree s).cue = s.cue := rfl
@[simp] theorem emit_mem (o : Output) : (emit s o).mem = s.mem := rfl
@[simp] theorem useFree_mem : (useFree s).mem = s.mem := rfl
@[simp] theorem emit_rast (o : Output) : (emit s o).rast = s.rast := rfl
@[simp] theorem useFree_rast : (useFree s).rast = s.rast := rfl
@[simp] theorem emit_beam (o : Output) : (emit s o).beam = s.beam := rfl
@[simp] theorem useFree_beam : (useFree s).beam = s.beam := rfl
@[simp] theorem emit_motn (o : Output) : (emit s o).motn = s.motn := rfl
@[simp] theorem useFree_motn : (useFree s).motn = s.motn := rfl
@[simp] theorem emit_loops (o : Output) : (emit s o).loops = s.loops := rfl
@[simp] theorem useFree_loops : (useFree s).loops = s.loops := rfl
@[simp] theorem emit_head (o : Output) : (emit s o).head = s.head := rfl
@[simp] theorem useFree_head : (useFree s).head = s.head := rfl
@[simp] theorem emit_scan (o : Output) : (emit s o).scan = s.scan := rfl
@[simp] theorem useFree_scan : (useFree s).scan = s.scan := rfl
@[simp] theorem emit_skid (o : Output) : (emit s o).skid = s.skid := rfl
@[simp] theorem useFree_skid : (useFree s).skid = s.skid := rfl
@[simp] theorem emit_out (o : Output) : (emit s o).out = s.out ++ [o] := rfl
@[simp] theorem useFree_out : (useFree s).out = s.out := rfl
@[simp] theorem emit_freeCount (o : Output) : (emit s o).freeCount = s.freeCount := rfl
@[simp] theorem useFree_freeCount : (useFree s).freeCount = s.freeCount + 1 := rfl
@[simp] theorem emit_pending (o : Output) : (emit s o).pending = s.pending := rfl
@[simp] theorem useFree_pending : (useFree s).pending = s.pending := rfl

/-! ## Time -/

@[simp] theorem timeTo_now {t : Nat} : (timeTo t s).now = max s.now t := by
  unfold timeTo; split
  · split <;> simp <;> omega
  · omega
theorem timeTo_past {t : Nat} (h : t ≤ s.now) : timeTo t s = s := by
  unfold timeTo; rw [if_neg (by omega)]

@[simp] theorem timeTo_aon {t : Nat} : (timeTo t s).aon = s.aon := by unfold timeTo; split <;> (try split) <;> rfl
@[simp] theorem timeTo_therm {t : Nat} : (timeTo t s).therm = s.therm := by unfold timeTo; split <;> (try split) <;> rfl
@[simp] theorem timeTo_nv {t : Nat} : (timeTo t s).nv = s.nv := by unfold timeTo; split <;> (try split) <;> rfl
@[simp] theorem timeTo_lg {t : Nat} : (timeTo t s).lg = s.lg := by unfold timeTo; split <;> (try split) <;> rfl
@[simp] theorem timeTo_boot {t : Nat} : (timeTo t s).boot = s.boot := by unfold timeTo; split <;> (try split) <;> rfl
@[simp] theorem timeTo_lock {t : Nat} : (timeTo t s).lock = s.lock := by unfold timeTo; split <;> (try split) <;> rfl
@[simp] theorem timeTo_epoch {t : Nat} : (timeTo t s).epoch = s.epoch := by unfold timeTo; split <;> (try split) <;> rfl
@[simp] theorem timeTo_flSel {t : Nat} : (timeTo t s).flSel = s.flSel := by unfold timeTo; split <;> (try split) <;> rfl
@[simp] theorem timeTo_fl {t : Nat} : (timeTo t s).fl = s.fl := by unfold timeTo; split <;> (try split) <;> rfl
@[simp] theorem timeTo_host {t : Nat} : (timeTo t s).host = s.host := by unfold timeTo; split <;> (try split) <;> rfl
@[simp] theorem timeTo_mem {t : Nat} : (timeTo t s).mem = s.mem := by unfold timeTo; split <;> (try split) <;> rfl
@[simp] theorem timeTo_rast {t : Nat} : (timeTo t s).rast = s.rast := by unfold timeTo; split <;> (try split) <;> rfl
@[simp] theorem timeTo_beam {t : Nat} : (timeTo t s).beam = s.beam := by unfold timeTo; split <;> (try split) <;> rfl
@[simp] theorem timeTo_motn {t : Nat} : (timeTo t s).motn = s.motn := by unfold timeTo; split <;> (try split) <;> rfl
@[simp] theorem timeTo_loops {t : Nat} : (timeTo t s).loops = s.loops := by unfold timeTo; split <;> (try split) <;> rfl
@[simp] theorem timeTo_head {t : Nat} : (timeTo t s).head = s.head := by unfold timeTo; split <;> (try split) <;> rfl
@[simp] theorem timeTo_scan {t : Nat} : (timeTo t s).scan = s.scan := by unfold timeTo; split <;> (try split) <;> rfl
@[simp] theorem timeTo_skid {t : Nat} : (timeTo t s).skid = s.skid := by unfold timeTo; split <;> (try split) <;> rfl
@[simp] theorem timeTo_out {t : Nat} : (timeTo t s).out = s.out := by unfold timeTo; split <;> (try split) <;> rfl
@[simp] theorem timeTo_freeCount {t : Nat} : (timeTo t s).freeCount = s.freeCount := by unfold timeTo; split <;> (try split) <;> rfl
@[simp] theorem timeTo_pending {t : Nat} : (timeTo t s).pending = s.pending := by unfold timeTo; split <;> (try split) <;> rfl

/-- Only Engine Time of PD3 moves with time. -/
theorem timeTo_cue {t : Nat} : (timeTo t s).cue = { s.cue with et := (timeTo t s).cue.et } := by
  unfold timeTo; split <;> (try split) <;> rfl

/-! ## Conditions -/

@[simp] theorem whenS_true (f : State → State) : whenS true f s = f s := if_pos rfl
@[simp] theorem whenS_false (f : State → State) : whenS false f s = s := if_neg Bool.false_ne_true

/-- The first member of a table that satisfies q. -/
theorem first_fin {n : Nat} (q : Fin n → Bool) (d : Fin n) (h2 : q d = true) (h : ∀ e, e < d → q e = false) :
    ((allFin n).filter q).head? = some d := by
  rw [List.head?_filter]
  refine List.find?_eq_some_iff_getElem.mpr ⟨h2, d.1, by simp [allFin], by simp [allFin], ?_⟩
  intro j hj
  simp only [allFin, List.getElem_finRange, Fin.cast_mk, Bool.not_eq_true']
  simpa using h _ hj

end Sys2Proof.Machine
end

