-- ==== Sys2Proof/Laws/Keeps.lean ====
section
/-!
SUPPORT. What no command takes back, as one relation between a state and a later one: the queue of waiting commands stays
as it is, outputs are only added, time does not run backwards, memories stay canonical, OTP bits stay programmed, LOCK
stays set, action numbers stay distinct. Each operation of the model keeps it; the files Laws/Keeps*.lean say so one lemma an operation.
-/

namespace Sys2Proof.Machine

set_option linter.all false

/-- What holds of channel c's scratch (b true), or of its action queue with action numbers below n (b false). -/
def chOk (b : Bool) (c : Chan) (n : Nat) (m : Mem) (l : List Action) : Prop :=
  if b then Memory.wf m = true else (l.map (·.id)).Nodup ∧ ∀ a ∈ l, a.chan = c ∧ a.id < n

/-- It holds of every channel. -/
def chWf (b : Bool) (q : Cue) : Prop := ∀ c : Chan, chOk b c q.nextId (tget q.ch c).scratch (tget q.ch c).actq

/-- The bit of a part in a mask of parts. -/
def Part.bit (p : Part) : Nat := p.ctorIdx

/-- Only the parts of the mask m may differ. -/
def Only (m : Nat) (r s : State) : Prop := ∀ p : Part, m.testBit p.bit = false → p.same r s

/-- What s keeps of an earlier state r, of which only the parts of m have changed. -/
def Keeps (m : Nat) (r s : State) : Prop :=
  Only m r s ∧ s.pending = r.pending ∧ OutKept r s ∧ TimeKept r s ∧ OtpKept r s ∧ (r.lock = true → s.lock = true) ∧
    (Memory.wf r.mem.data = true → Memory.wf s.mem.data = true) ∧
    (Memory.wf r.rast.land = true → Memory.wf s.rast.land = true) ∧ ∀ b : Bool, chWf b r.cue → chWf b s.cue

/-- The mask a is inside the mask b. -/
def Sub (a b : Nat) : Prop := a &&& b = a

theorem Sub.refl (a : Nat) : Sub a a := Nat.and_self a

theorem Sub.trans {a b c : Nat} (h : Sub b c) (g : Sub a b) : Sub a c := by
  unfold Sub at *
  rw [← g, Nat.and_assoc, h]

theorem Sub.bit {a b : Nat} (h : Sub a b) {i : Nat} (hi : a.testBit i = true) : b.testBit i = true := by
  have := congrArg (fun x => x.testBit i) h
  simp only [Nat.testBit_and, hi, Bool.true_and] at this
  exact this

theorem Part.same_refl (p : Part) (s : State) : p.same s s := by cases p <;> rfl

theorem Part.same_trans {p : Part} {r s t : State} (h : p.same r s) (g : p.same s t) : p.same r t := by
  cases p <;> exact Eq.trans g h

theorem Only.trans {m : Nat} {r s t : State} (h : Only m r s) (g : Only m s t) : Only m r t :=
  fun p hp => Part.same_trans (h p hp) (g p hp)

theorem Only.upd {m n : Nat} {r s t : State} (q : Part) (hl : Sub n m) (hn : n.testBit q.bit = true) (h : Only m r s)
    (ht : ∀ p : Part, p ≠ q → p.same s t) : Only m r t := by
  intro p hp
  by_cases e : p = q
  · subst e; rw [hl.bit hn] at hp; cases hp
  · exact Part.same_trans (h p hp) (ht p e)

theorem Keeps.refl (m : Nat) (s : State) : Keeps m s s :=
  ⟨fun p _ => p.same_refl s, rfl, ⟨[], by simp⟩, Nat.le_refl _, fun _ _ h => h, id, id, id, fun _ => id⟩

theorem Keeps.trans {m : Nat} {r s t : State} (h : Keeps m r s) (g : Keeps m s t) : Keeps m r t := by
  obtain ⟨h0, h1, ⟨l, hl⟩, h3, h4, h5, h6, h7, h8⟩ := h
  obtain ⟨g0, g1, ⟨k, hk⟩, g3, g4, g5, g6, g7, g8⟩ := g
  exact ⟨h0.trans g0, g1.trans h1, ⟨l ++ k, by rw [hk, hl, List.append_assoc]⟩, Nat.le_trans h3 g3, fun i k x => g4 i k (h4 i k x),
    fun x => g5 (h5 x), fun x => g6 (h6 x), fun x => g7 (h7 x), fun b x => g8 b (h8 b x)⟩

theorem Keeps.changesOnly {m : Nat} {r s : State} (h : Keeps m r s) {ps : List Part}
    (hp : ∀ p : Part, m.testBit p.bit = true → p ∈ ps) : ChangesOnly ps r s := by
  intro p hm
  refine h.1 p ?_
  cases e : m.testBit p.bit
  · rfl
  · exact absurd (hp p e) hm

theorem memWf_iff (s : State) :
    s.memWf = true ↔ Memory.wf s.mem.data = true ∧ Memory.wf s.rast.land = true ∧ chWf true s.cue := by
  simp only [State.memWf, Bool.and_eq_true, List.all_eq_true, chWf, chOk, if_true, tget, and_assoc]
  constructor
  · rintro ⟨h1, h2, h3⟩
    exact ⟨h1, h2, fun c => h3 _ (by simp [Vector.mem_toList_iff])⟩
  · rintro ⟨h1, h2, h3⟩
    refine ⟨h1, h2, fun x hx => ?_⟩
    rw [Vector.mem_toList_iff, Vector.mem_iff_getElem] at hx
    obtain ⟨i, hi, rfl⟩ := hx
    exact h3 ⟨i, hi⟩

theorem Keeps.memWf {m : Nat} {r s : State} (h : Keeps m r s) (hr : r.memWf = true) : s.memWf = true := by
  obtain ⟨_, _, _, _, _, _, h6, h7, h8⟩ := h
  rw [memWf_iff] at hr ⊢
  exact ⟨h6 hr.1, h7 hr.2.1, h8 _ hr.2.2⟩

theorem actsOk_iff (s : State) : ActsOk s ↔ chWf false s.cue := by
  simp [ActsOk, chWf, chOk, getCh]

theorem Keeps.actsOk {m : Nat} {r s : State} (h : Keeps m r s) (hr : ActsOk r) : ActsOk s :=
  (actsOk_iff s).2 (h.2.2.2.2.2.2.2.2 _ ((actsOk_iff r).1 hr))

variable {m : Nat} {r s : State}

/-! ## Replacing a part of the state -/

theorem keeps_now (hl : Sub 1 m) (h : Keeps m r s) (n : Nat) (hn : s.now ≤ n) : Keeps m r { s with now := n } :=
  ⟨h.1.upd .now hl rfl (fun p hp => by cases p <;> first | rfl | exact absurd rfl hp),
    h.2.1, h.2.2.1, Nat.le_trans h.2.2.2.1 hn, h.2.2.2.2⟩
theorem keeps_aon (hl : Sub 2 m) (h : Keeps m r s) (x : Aon) : Keeps m r { s with aon := x } :=
  ⟨h.1.upd .aon hl rfl (fun p hp => by cases p <;> first | rfl | exact absurd rfl hp),
    h.2.1, h.2.2.1, h.2.2.2.1, h.2.2.2.2.1, h.2.2.2.2.2⟩
theorem keeps_therm (hl : Sub 4 m) (h : Keeps m r s) (x : Thermal) : Keeps m r { s with therm := x } :=
  ⟨h.1.upd .therm hl rfl (fun p hp => by cases p <;> first | rfl | exact absurd rfl hp),
    h.2.1, h.2.2.1, h.2.2.2.1, h.2.2.2.2.1, h.2.2.2.2.2⟩
theorem keeps_nv (hl : Sub 8 m) (h : Keeps m r s) (x : Nv) : Keeps m r { s with nv := x } :=
  ⟨h.1.upd .nv hl rfl (fun p hp => by cases p <;> first | rfl | exact absurd rfl hp),
    h.2.1, h.2.2.1, h.2.2.2.1, h.2.2.2.2.1, h.2.2.2.2.2⟩
theorem keeps_lg (hl : Sub 16 m) (h : Keeps m r s) (x : LogS) : Keeps m r { s with lg := x } :=
  ⟨h.1.upd .lg hl rfl (fun p hp => by cases p <;> first | rfl | exact absurd rfl hp),
    h.2.1, h.2.2.1, h.2.2.2.1, h.2.2.2.2.1, h.2.2.2.2.2⟩
theorem keeps_epoch (hl : Sub 128 m) (h : Keeps m r s) (x : BitVec 16) : Keeps m r { s with epoch := x } :=
  ⟨h.1.upd .epoch hl rfl (fun p hp => by cases p <;> first | rfl | exact absurd rfl hp),
    h.2.1, h.2.2.1, h.2.2.2.1, h.2.2.2.2.1, h.2.2.2.2.2⟩
theorem keeps_flSel (hl : Sub 256 m) (h : Keeps m r s) (x : BitVec 10) : Keeps m r { s with flSel := x } :=
  ⟨h.1.upd .flSel hl rfl (fun p hp => by cases p <;> first | rfl | exact absurd rfl hp),
    h.2.1, h.2.2.1, h.2.2.2.1, h.2.2.2.2.1, h.2.2.2.2.2⟩
theorem keeps_fl (hl : Sub 512 m) (h : Keeps m r s) (x : Vector Flume 434) : Keeps m r { s with fl := x } :=
  ⟨h.1.upd .fl hl rfl (fun p hp => by cases p <;> first | rfl | exact absurd rfl hp),
    h.2.1, h.2.2.1, h.2.2.2.1, h.2.2.2.2.1, h.2.2.2.2.2⟩
theorem keeps_host (hl : Sub 1024 m) (h : Keeps m r s) (x : HostS) : Keeps m r { s with host := x } :=
  ⟨h.1.upd .host hl rfl (fun p hp => by cases p <;> first | rfl | exact absurd rfl hp),
    h.2.1, h.2.2.1, h.2.2.2.1, h.2.2.2.2.1, h.2.2.2.2.2⟩
theorem keeps_beam (hl : Sub 16384 m) (h : Keeps m r s) (x : BeamE) : Keeps m r { s with beam := x } :=
  ⟨h.1.upd .beam hl rfl (fun p hp => by cases p <;> first | rfl | exact absurd rfl hp),
    h.2.1, h.2.2.1, h.2.2.2.1, h.2.2.2.2.1, h.2.2.2.2.2⟩
theorem keeps_motn (hl : Sub 32768 m) (h : Keeps m r s) (x : Motn) : Keeps m r { s with motn := x } :=
  ⟨h.1.upd .motn hl rfl (fun p hp => by cases p <;> first | rfl | exact absurd rfl hp),
    h.2.1, h.2.2.1, h.2.2.2.1, h.2.2.2.2.1, h.2.2.2.2.2⟩
theorem keeps_loops (hl : Sub 65536 m) (h : Keeps m r s) (x : LoopE) : Keeps m r { s with loops := x } :=
  ⟨h.1.upd .loops hl rfl (fun p hp => by cases p <;> first | rfl | exact absurd rfl hp),
    h.2.1, h.2.2.1, h.2.2.2.1, h.2.2.2.2.1, h.2.2.2.2.2⟩
theorem keeps_head (hl : Sub 131072 m) (h : Keeps m r s) (x : HeadE) : Keeps m r { s with head := x } :=
  ⟨h.1.upd .head hl rfl (fun p hp => by cases p <;> first | rfl | exact absurd rfl hp),
    h.2.1, h.2.2.1, h.2.2.2.1, h.2.2.2.2.1, h.2.2.2.2.2⟩
theorem keeps_scan (hl : Sub 262144 m) (h : Keeps m r s) (x : ScanE) : Keeps m r { s with scan := x } :=
  ⟨h.1.upd .scan hl rfl (fun p hp => by cases p <;> first | rfl | exact absurd rfl hp),
    h.2.1, h.2.2.1, h.2.2.2.1, h.2.2.2.2.1, h.2.2.2.2.2⟩
theorem keeps_skid (hl : Sub 524288 m) (h : Keeps m r s) (x : Skid) : Keeps m r { s with skid := x } :=
  ⟨h.1.upd .skid hl rfl (fun p hp => by cases p <;> first | rfl | exact absurd rfl hp),
    h.2.1, h.2.2.1, h.2.2.2.1, h.2.2.2.2.1, h.2.2.2.2.2⟩
theorem keeps_free (hl : Sub 2097152 m) (h : Keeps m r s) (x : Nat) : Keeps m r { s with freeCount := x } :=
  ⟨h.1.upd .freeCount hl rfl (fun p hp => by cases p <;> first | rfl | exact absurd rfl hp),
    h.2.1, h.2.2.1, h.2.2.2.1, h.2.2.2.2.1, h.2.2.2.2.2⟩
theorem keeps_boot (hl : Sub 32 m) (h : Keeps m r s) (x : Boot)
    (hx : ∀ i k, (tget s.boot.otp i).getLsbD k = true → (tget x.otp i).getLsbD k = true) : Keeps m r { s with boot := x } :=
  ⟨h.1.upd .boot hl rfl (fun p hp => by cases p <;> first | rfl | exact absurd rfl hp),
    h.2.1, h.2.2.1, h.2.2.2.1, fun i k g => hx i k (h.2.2.2.2.1 i k g), h.2.2.2.2.2⟩
theorem keeps_lock (hl : Sub 64 m) (h : Keeps m r s) (x : Bool) (hx : s.lock = true → x = true) : Keeps m r { s with lock := x } :=
  ⟨h.1.upd .lock hl rfl (fun p hp => by cases p <;> first | rfl | exact absurd rfl hp),
    h.2.1, h.2.2.1, h.2.2.2.1, h.2.2.2.2.1, fun g => hx (h.2.2.2.2.2.1 g), h.2.2.2.2.2.2⟩
theorem keeps_cue (hl : Sub 2048 m) (h : Keeps m r s) (x : Cue) (hx : ∀ {b : Bool}, chWf b s.cue → chWf b x) : Keeps m r { s with cue := x } :=
  ⟨h.1.upd .cue hl rfl (fun p hp => by cases p <;> first | rfl | exact absurd rfl hp),
    h.2.1, h.2.2.1, h.2.2.2.1, h.2.2.2.2.1, h.2.2.2.2.2.1, h.2.2.2.2.2.2.1, h.2.2.2.2.2.2.2.1, fun b g => hx (h.2.2.2.2.2.2.2.2 b g)⟩
theorem keeps_mem (hl : Sub 4096 m) (h : Keeps m r s) (x : MemS) (hx : Memory.wf s.mem.data = true → Memory.wf x.data = true) :
    Keeps m r { s with mem := x } :=
  ⟨h.1.upd .mem hl rfl (fun p hp => by cases p <;> first | rfl | exact absurd rfl hp),
    h.2.1, h.2.2.1, h.2.2.2.1, h.2.2.2.2.1, h.2.2.2.2.2.1, fun g => hx (h.2.2.2.2.2.2.1 g), h.2.2.2.2.2.2.2⟩
theorem keeps_rast (hl : Sub 8192 m) (h : Keeps m r s) (x : Rast) (hx : Memory.wf s.rast.land = true → Memory.wf x.land = true) :
    Keeps m r { s with rast := x } :=
  ⟨h.1.upd .rast hl rfl (fun p hp => by cases p <;> first | rfl | exact absurd rfl hp),
    h.2.1, h.2.2.1, h.2.2.2.1, h.2.2.2.2.1, h.2.2.2.2.2.1, h.2.2.2.2.2.2.1, fun g => hx (h.2.2.2.2.2.2.2.1 g), h.2.2.2.2.2.2.2.2⟩
/-- GLB_LOCK, GLB_FLSEL and the flume table replaced, over an earlier state whose LOCK is 0. -/
theorem keeps_unlocked (hl : Sub 832 m) (hr : r.lock = false) (h : Keeps m r s) (b : Bool) (x : BitVec 10)
    (y : Vector Flume 434) : Keeps m r { s with lock := b, flSel := x, fl := y } := by
  refine keeps_fl (hl.trans rfl) (keeps_flSel (hl.trans rfl) (s := { s with lock := b }) ?_ x) y
  exact ⟨h.1.upd .lock (hl.trans (a := 64) rfl) rfl (fun p hp => by cases p <;> first | rfl | exact absurd rfl hp),
    h.2.1, h.2.2.1, h.2.2.2.1, h.2.2.2.2.1, fun g => absurd (hr ▸ g) (by decide), h.2.2.2.2.2.2⟩


/-! ## The operations that change one part -/

theorem useFree_keeps (hl : Sub 2097152 m) (h : Keeps m r s) : Keeps m r (useFree s) := keeps_free hl h _
theorem emit_keeps (hl : Sub 1048576 m) (h : Keeps m r s) {o : Output} : Keeps m r (emit s o) := by
  obtain ⟨h0, h1, ⟨l, e⟩, h3⟩ := h
  exact ⟨h0.upd .out hl rfl (fun p hp => by cases p <;> first | rfl | exact absurd rfl hp), h1,
    ⟨l ++ [o], by simp [emit, e]⟩, h3⟩
theorem modAon_keeps (hl : Sub 2 m) (h : Keeps m r s) {f : Aon → Aon} : Keeps m r (modAon f s) := keeps_aon hl h _
theorem modRail_keeps (hl : Sub 2 m) (h : Keeps m r s) {n : Rail} {f : RailS → RailS} : Keeps m r (modRail n f s) := keeps_aon hl h _
theorem modDom_keeps (hl : Sub 2 m) (h : Keeps m r s) {n : Dom} {f : DomS → DomS} : Keeps m r (modDom n f s) := keeps_aon hl h _
theorem modTherm_keeps (hl : Sub 4 m) (h : Keeps m r s) {f : Thermal → Thermal} : Keeps m r (modTherm f s) := keeps_therm hl h _
theorem modNv_keeps (hl : Sub 8 m) (h : Keeps m r s) {f : Nv → Nv} : Keeps m r (modNv f s) := keeps_nv hl h _
theorem modLg_keeps (hl : Sub 16 m) (h : Keeps m r s) {f : LogS → LogS} : Keeps m r (modLg f s) := keeps_lg hl h _
theorem modBoot_keeps (hl : Sub 32 m) (h : Keeps m r s) {f : Boot → Boot}
    (hf : ∀ b : Boot, ∀ i k, (tget b.otp i).getLsbD k = true → (tget (f b).otp i).getLsbD k = true) :
    Keeps m r (modBoot f s) := keeps_boot hl h _ (hf s.boot)
theorem modHost_keeps (hl : Sub 1024 m) (h : Keeps m r s) {f : HostS → HostS} : Keeps m r (modHost f s) := keeps_host hl h _
theorem modRegs_keeps (hl : Sub 1024 m) (h : Keeps m r s) {f : HostR → HostR} : Keeps m r (modRegs f s) := keeps_host hl h _
theorem modFl_keeps (hl : Sub 512 m) (h : Keeps m r s) {f : FlumeId} {g : Flume → Flume} : Keeps m r (modFl f g s) := keeps_fl hl h _
theorem modStep_keeps (hl : Sub 32768 m) (h : Keeps m r s) {n : Fin 16} {f : StepperS → StepperS} : Keeps m r (modStep n f s) := keeps_motn hl h _
theorem modBldc_keeps (hl : Sub 32768 m) (h : Keeps m r s) {n : Fin 4} {f : BldcS → BldcS} : Keeps m r (modBldc n f s) := keeps_motn hl h _
theorem modLoop_keeps (hl : Sub 65536 m) (h : Keeps m r s) {n : LoopId} {f : LoopS → LoopS} : Keeps m r (modLoop n f s) := keeps_loops hl h _
theorem modZone_keeps (hl : Sub 65536 m) (h : Keeps m r s) {n : Zone} {f : ZoneS → ZoneS} : Keeps m r (modZone n f s) := keeps_loops hl h _
theorem modStn_keeps (hl : Sub 16384 m) (h : Keeps m r s) {n : Station} {f : StationS → StationS} : Keeps m r (modStn n f s) := keeps_beam hl h _
theorem modHead_keeps (hl : Sub 131072 m) (h : Keeps m r s) {f : HeadE → HeadE} : Keeps m r (modHead f s) := keeps_head hl h _
theorem modScan_keeps (hl : Sub 262144 m) (h : Keeps m r s) {f : ScanE → ScanE} : Keeps m r (modScan f s) := keeps_scan hl h _
theorem modSkid_keeps (hl : Sub 524288 m) (h : Keeps m r s) {f : Skid → Skid} : Keeps m r (modSkid f s) := keeps_skid hl h _
theorem modMem_keeps (hl : Sub 4096 m) (h : Keeps m r s) {f : MemS → MemS}
    (hf : ∀ m : MemS, Memory.wf m.data = true → Memory.wf (f m).data = true) : Keeps m r (modMem f s) := keeps_mem hl h _ (hf s.mem)
theorem modRast_keeps (hl : Sub 8192 m) (h : Keeps m r s) {f : Rast → Rast}
    (hf : ∀ m : Rast, Memory.wf m.land = true → Memory.wf (f m).land = true) : Keeps m r (modRast f s) := keeps_rast hl h _ (hf s.rast)
theorem modCue_keeps (hl : Sub 2048 m) (h : Keeps m r s) {f : Cue → Cue} (hf : ∀ {b : Bool} (q : Cue), chWf b q → chWf b (f q)) : Keeps m r (modCue f s) :=
  keeps_cue hl h _ (hf s.cue)
theorem modTrk_keeps (hl : Sub 2048 m) (h : Keeps m r s) {n : Trk} {f : Tracker → Tracker} : Keeps m r (modTrk n f s) := keeps_cue hl h _ id
theorem modPages_keeps (hl : Sub 2048 m) (h : Keeps m r s) {p : Page → Bool} {f : Page → Page} : Keeps m r (modPages p f s) := keeps_cue hl h _ id

/-- A word that only gains bits keeps those it has. -/
theorem otp_or {v : Vector Word 32} {i j : Fin 32} {k : Nat} {m : Word} (h : (tget v i).getLsbD k = true) :
    (tget (tmod v j fun x => x ||| m) i).getLsbD k = true := by
  rw [tget_tmod]
  split
  · rename_i e; subst e; rw [BitVec.getLsbD_or, h]; rfl
  · exact h

theorem chOk_mem {b : Bool} {c : Chan} {n : Nat} {m m' : Mem} {l : List Action} (hm : Memory.wf m' = true) (h : chOk b c n m l) :
    chOk b c n m' l := by
  cases b
  · exact h
  · exact hm

theorem chOk_write {b : Bool} {c : Chan} {n : Nat} {m : Mem} {l : List Action} {a : Nat} {v : List Byte} (h : chOk b c n m l) :
    chOk b c n (memWrite m a v) l := by
  cases b
  · exact h
  · exact memWrite_wf _ _ _ h

theorem chOk_filter {b : Bool} {c : Chan} {n : Nat} {m : Mem} {l : List Action} {p : Action → Bool} (h : chOk b c n m l) :
    chOk b c n m (l.filter p) := by
  cases b
  · exact ⟨h.1.sublist (l.filter_sublist.map _), fun a ha => h.2 a (List.mem_filter.1 ha).1⟩
  · exact h

theorem chOk_map {b : Bool} {c : Chan} {n : Nat} {m : Mem} {l : List Action} {f : Action → Action}
    (hf : ∀ a, a.chan = c → (f a).id = a.id ∧ (f a).chan = c) (h : chOk b c n m l) : chOk b c n m (l.map f) := by
  cases b
  · have e : (l.map f).map (·.id) = l.map (·.id) := by
      rw [List.map_map]
      exact List.map_congr_left fun a ha => (hf a (h.2 a ha).1).1
    refine ⟨e ▸ h.1, fun x hx => ?_⟩
    obtain ⟨a, ha, rfl⟩ := List.mem_map.1 hx
    have g := hf a (h.2 a ha).1
    exact ⟨g.2, g.1 ▸ (h.2 a ha).2⟩
  · exact h

/-- A new action takes the next number. -/
theorem chOk_push {b : Bool} {c : Chan} {n : Nat} {m : Mem} {l : List Action} {a : Action} (h : chOk b c n m l) (hi : a.id = n)
    (hc : a.chan = c) : chOk b c (n + 1) m (l ++ [a]) := by
  cases b
  · refine ⟨?_, fun x hx => ?_⟩
    · rw [List.map_append]
      refine List.nodup_append.2 ⟨h.1, by simp, ?_⟩
      rintro i hi' j hj rfl
      obtain ⟨x, hx, rfl⟩ := List.mem_map.1 hi'
      simp only [List.map_cons, List.map_nil, List.mem_singleton] at hj
      exact absurd (hj ▸ (h.2 x hx).2) (by omega)
    · rcases List.mem_append.1 hx with hx | hx
      · exact ⟨(h.2 x hx).1, Nat.lt_succ_of_lt (h.2 x hx).2⟩
      · rw [List.mem_singleton.1 hx]; exact ⟨hc, by omega⟩
  · exact h

theorem chOk_next {b : Bool} {c : Chan} {n : Nat} {m : Mem} {l : List Action} (h : chOk b c n m l) : chOk b c (n + 1) m l := by
  cases b
  · exact ⟨h.1, fun a ha => ⟨(h.2 a ha).1, Nat.lt_succ_of_lt (h.2 a ha).2⟩⟩
  · exact h

theorem chWf_tmod {b : Bool} {v : Vector Channel 64} {c : Chan} {f : Channel → Channel} {q q' : Cue} (hq' : q'.ch = tmod v c f)
    (hv : q.ch = v) (hn : q'.nextId = q.nextId)
    (hf : ∀ x : Channel, chOk b c q.nextId x.scratch x.actq → chOk b c q.nextId (f x).scratch (f x).actq) (h : chWf b q) :
    chWf b q' := by
  intro d
  rw [hq', hn, tget_tmod]
  split
  · rename_i e; subst e; exact hf _ (hv ▸ h _)
  · exact hv ▸ h d

theorem chWf_map {b : Bool} {f : Channel → Channel} {q q' : Cue} (hq' : q'.ch = q.ch.map f) (hn : q'.nextId = q.nextId)
    (hf : ∀ {c : Chan} (x : Channel), chOk b c q.nextId x.scratch x.actq → chOk b c q.nextId (f x).scratch (f x).actq)
    (h : chWf b q) : chWf b q' := by
  intro d
  rw [hq', hn]
  simp only [tget, Vector.getElem_map]
  exact hf _ (h d)

theorem chWf_reset {b : Bool} : chWf b Cue.reset := by
  intro c
  cases b <;> simp [chOk, Cue.reset, tget, Channel.reset, Memory.wf, Memory.above]

theorem modCh_keeps (hl : Sub 2048 m) (h : Keeps m r s) {c : Chan} {f : Channel → Channel}
    (hf : ∀ {b : Bool} {n : Nat} (x : Channel), chOk b c n x.scratch x.actq → chOk b c n (f x).scratch (f x).actq) :
    Keeps m r (modCh c f s) :=
  keeps_cue hl h _ (chWf_tmod rfl rfl rfl hf)

@[simp] theorem endBlock_scratch (et : Nat) (x : Channel) : (endBlock et x).scratch = x.scratch := by
  unfold endBlock; split <;> rfl

@[simp] theorem endBlock_actq (et : Nat) (x : Channel) : (endBlock et x).actq = x.actq := by
  unfold endBlock; split <;> rfl

@[simp] theorem faultCtx_actq (code fpc et : Nat) (x : Channel) : (faultCtx code fpc et x).actq = x.actq := by
  unfold faultCtx; dsimp only; split <;> simp

@[simp] theorem swapCtx_actq (et : Nat) (e : Entry) (prog : List Word) (p n : Nat) (x : Channel) :
    (swapCtx et e prog p n x).actq = x.actq := endBlock_actq et x

@[simp] theorem faultCtx_scratch (code fpc et : Nat) (x : Channel) : (faultCtx code fpc et x).scratch = x.scratch := by
  unfold faultCtx; dsimp only; split <;> simp

@[simp] theorem swapCtx_scratch (et : Nat) (e : Entry) (prog : List Word) (p n : Nat) (x : Channel) :
    (swapCtx et e prog p n x).scratch = x.scratch := endBlock_scratch et x

/-! ## Time, conditions and lists of changes -/

theorem timeTo_keeps (hl : Sub 2049 m) (h : Keeps m r s) {t : Nat} : Keeps m r (timeTo t s) := by
  unfold timeTo
  split
  · rename_i hlt
    split
    · exact keeps_now (s := { s with cue := { s.cue with et := s.cue.et + BitVec.ofNat 64 (t - s.now) } }) (hl.trans rfl)
        (keeps_cue (hl.trans rfl) h _ id) t (Nat.le_of_lt hlt)
    · exact keeps_now (hl.trans rfl) h _ (Nat.le_of_lt hlt)
  · exact h

theorem id_keeps (h : Keeps m r s) : Keeps m r (id s) := h

theorem etTo_keeps (hl : Sub 2049 m) (h : Keeps m r s) {t : Nat} : Keeps m r (etTo t s) := timeTo_keeps hl h
theorem tick_keeps (hl : Sub 2049 m) (h : Keeps m r s) : Keeps m r (tick s) := timeTo_keeps hl h

theorem whenS_keeps (h : Keeps m r s) {b : Bool} {f : State → State} (hf : ∀ s, Keeps m r s → Keeps m r (f s)) : Keeps m r (whenS b f s) := by
  unfold whenS
  split
  · exact hf s h
  · exact h

theorem forEach_keeps {α : Type} {f : α → State → State} (hf : ∀ a s, Keeps m r s → Keeps m r (f a s)) :
    ∀ {l : List α} {s : State}, Keeps m r s → Keeps m r (forEach f l s)
  | [], _, h => h
  | a :: l, s, h => forEach_keeps hf (l := l) (hf a s h)

/-- Every next state of an outcome keeps. -/
def KeepsO (m : Nat) (r : State) (o : Host.Outcome State Fault Refusal) : Prop := ∀ t, o = .next t → Keeps m r t

theorem keepsO_next {t : State} (h : Keeps m r t) : KeepsO m r (.next t) := fun _ e => by cases e; exact h
theorem keepsO_fault {f : Fault} : KeepsO m r (.fault f) := fun _ e => by cases e

end Sys2Proof.Machine
end

