-- ==== Sys2Proof/Laws/KeepsOps.lean ====
section
/-!
SUPPORT. Machine/Ops.lean: each operation keeps what no command takes back (Laws/Keeps.lean).
-/

namespace Sys2Proof.Machine

set_option linter.all false

theorem aerLog_keeps {ms : Nat} {r0 : State} {s : State} (hM : Sub 1048576 ms) (hK : Keeps ms r0 s) :
    Keeps ms r0 (aerLog s) := by
  unfold aerLog
  try dsimp only
  repeat' (first
    | with_reducible assumption
    | exact hM.trans rfl
    | with_reducible apply emit_keeps
    | intro _
    | split)

theorem noteMin_keeps {ms : Nat} {r0 : State} {f : FlumeId} {s : State} (hM : Sub 512 ms) (hK : Keeps ms r0 s) :
    Keeps ms r0 (noteMin f s) := by
  unfold noteMin
  try dsimp only
  repeat' (first
    | with_reducible assumption
    | exact hM.trans rfl
    | with_reducible apply modFl_keeps
    | intro _
    | split)

theorem takeTally_keeps {ms : Nat} {r0 : State} {f : FlumeId} {s : State} (hM : Sub 512 ms) (hK : Keeps ms r0 s) :
    Keeps ms r0 (takeTally f s) := by
  unfold takeTally
  try dsimp only
  repeat' (first
    | with_reducible assumption
    | exact hM.trans rfl
    | with_reducible apply noteMin_keeps
    | with_reducible apply modFl_keeps
    | intro _
    | split)

theorem retTally_keeps {ms : Nat} {r0 : State} {f : FlumeId} {s : State} (hM : Sub 512 ms) (hK : Keeps ms r0 s) :
    Keeps ms r0 (retTally f s) := by
  unfold retTally
  try dsimp only
  repeat' (first
    | with_reducible assumption
    | exact hM.trans rfl
    | with_reducible apply modFl_keeps
    | intro _
    | split)

theorem retTallies_keeps {ms : Nat} {r0 : State} {f : FlumeId} (hM : Sub 512 ms) :
    ∀ {n : Nat} {s : State}, Keeps ms r0 s → Keeps ms r0 (retTallies f n s)
  | 0, _, h => h
  | n + 1, _, h => retTallies_keeps hM (n := n) (retTally_keeps (hM.trans rfl) h)

theorem takeClass_keeps {ms : Nat} {r0 : State} {k : StgClass} {s : State} (hM : Sub 1536 ms) (hK : Keeps ms r0 s) :
    Keeps ms r0 (takeClass k s) := by
  unfold takeClass
  try dsimp only
  repeat' (first
    | with_reducible assumption
    | exact hM.trans rfl
    | with_reducible apply takeTally_keeps
    | with_reducible apply noteMin_keeps
    | with_reducible apply modHost_keeps
    | intro _
    | split)

theorem stage_keeps {ms : Nat} {r0 : State} {r : Rec} {k : StgClass} {isAon : Bool} {s : State} (hM : Sub 1536 ms) (hK : Keeps ms r0 s) :
    Keeps ms r0 (stage r k isAon s) := by
  unfold stage
  try dsimp only
  repeat' (first
    | with_reducible assumption
    | exact hM.trans rfl
    | with_reducible apply takeClass_keeps
    | with_reducible apply modHost_keeps
    | intro _
    | split)

theorem finishAction_keeps {ms : Nat} {r0 : State} {c : Chan} {id : Nat} {s : State} (hM : Sub 2560 ms) (hK : Keeps ms r0 s) :
    Keeps ms r0 (finishAction c id s) := by
  unfold finishAction
  try dsimp only
  repeat' (first
    | with_reducible assumption
    | exact hM.trans rfl
    | with_reducible apply retTally_keeps
    | with_reducible apply modCh_keeps
    | with_reducible apply id_keeps
    | exact fun (_ : Channel) g => chOk_filter g
    | exact fun (_ : Channel) g => g
    | intro _
    | split)

theorem closePage_keeps {ms : Nat} {r0 : State} {adm : Nat} {s : State} (hM : Sub 2048 ms) (hK : Keeps ms r0 s) :
    Keeps ms r0 (closePage adm s) := by
  unfold closePage
  try dsimp only
  repeat' (first
    | with_reducible assumption
    | exact hM.trans rfl
    | with_reducible apply modCue_keeps
    | exact fun (_ : Cue) g => g
    | intro _
    | split)

theorem stageWaiting_keeps {ms : Nat} {r0 : State} {w : Waiting} {k : StgClass} {s : State} (hM : Sub 1052160 ms) (hK : Keeps ms r0 s) :
    Keeps ms r0 (stageWaiting w k s) := by
  unfold stageWaiting
  try dsimp only
  repeat' (first
    | with_reducible assumption
    | exact hM.trans rfl
    | with_reducible apply stage_keeps
    | with_reducible apply id_keeps
    | with_reducible apply finishAction_keeps
    | with_reducible apply closePage_keeps
    | with_reducible apply emit_keeps
    | intro _
    | split)

theorem post_keeps {ms : Nat} {r0 : State} {r : Rec} {w : Waiter} {s : State} (hM : Sub 1052162 ms) (hK : Keeps ms r0 s) :
    Keeps ms r0 (post r w s) := by
  unfold post
  try dsimp only
  repeat' (first
    | with_reducible assumption
    | exact hM.trans rfl
    | with_reducible apply modAon_keeps
    | with_reducible apply stageWaiting_keeps
    | with_reducible apply modHost_keeps
    | intro _
    | split)

theorem engine_keeps {ms : Nat} {r0 : State} {src : Nat} {code : Nat} {res : Nat} {data : List Byte} {s : State} (hM : Sub 1052162 ms) (hK : Keeps ms r0 s) :
    Keeps ms r0 (engine src code res data s) := by
  unfold engine
  try dsimp only
  repeat' (first
    | with_reducible assumption
    | exact hM.trans rfl
    | with_reducible apply modHost_keeps
    | with_reducible apply post_keeps
    | intro _
    | split)

theorem serveWaiting_keeps {ms : Nat} {r0 : State} (hM : Sub 1052160 ms) :
    ∀ {n : Nat} {s : State}, Keeps ms r0 s → Keeps ms r0 (serveWaiting n s)
  | 0, _, h => h
  | n + 1, s, h => by
    unfold serveWaiting
    split
    · exact h
    · exact serveWaiting_keeps hM (n := n) (stageWaiting_keeps (hM.trans rfl) (modHost_keeps (hM.trans rfl) h))

theorem aonEvent_keeps {ms : Nat} {r0 : State} {code : Nat} {d0 : Word} {d1 : Word} {s : State} (hM : Sub 1052162 ms) (hK : Keeps ms r0 s) :
    Keeps ms r0 (aonEvent code d0 d1 s) := by
  unfold aonEvent
  try dsimp only
  repeat' (first
    | with_reducible assumption
    | exact hM.trans rfl
    | with_reducible apply modAon_keeps
    | with_reducible apply post_keeps
    | with_reducible apply takeTally_keeps
    | intro _
    | split)

theorem serveAon_keeps {ms : Nat} {r0 : State} (hM : Sub 1052162 ms) :
    ∀ {n : Nat} {s : State}, Keeps ms r0 s → Keeps ms r0 (serveAon n s)
  | 0, _, h => h
  | n + 1, s, h => by
    unfold serveAon
    split
    · exact h
    · split
      · exact serveAon_keeps hM (n := n) (post_keeps (hM.trans rfl) (takeTally_keeps (hM.trans rfl) (modAon_keeps (hM.trans rfl) h)))
      · exact h

theorem chEvent_keeps {ms : Nat} {r0 : State} {c : Chan} {src : Nat} {code : Nat} {payload : Word} {s : State} (hM : Sub 2560 ms) (hK : Keeps ms r0 s) :
    Keeps ms r0 (chEvent c src code payload s) := by
  unfold chEvent
  try dsimp only
  repeat' (first
    | with_reducible assumption
    | exact hM.trans rfl
    | with_reducible apply modCh_keeps
    | with_reducible apply takeTally_keeps
    | exact fun (_ : Channel) g => g
    | intro _
    | split)

theorem serveEv_keeps {ms : Nat} {r0 : State} {c : Chan} (hM : Sub 1051136 ms) :
    ∀ {n : Nat} {s : State}, Keeps ms r0 s → Keeps ms r0 (serveEv c n s)
  | 0, _, h => h
  | n + 1, s, h => by
    unfold serveEv
    repeat' (first
      | with_reducible assumption
      | exact hM.trans rfl
      | exact fun (_ : Channel) g => g
      | with_reducible apply serveEv_keeps
      | with_reducible apply emit_keeps
      | with_reducible apply takeTally_keeps
      | with_reducible apply modCh_keeps
      | split)

theorem chEvents_keeps {ms : Nat} {r0 : State} {src code : Nat} {payload : Word} (hM : Sub 2560 ms) :
    ∀ {l : List Chan} {s : State}, Keeps ms r0 s → Keeps ms r0 (chEvents src code payload l s)
  | [], _, h => h
  | _ :: l, _, h => chEvents_keeps hM (l := l) (chEvent_keeps (hM.trans rfl) h)

theorem holderEvent_keeps {ms : Nat} {r0 : State} {id : Nat} {code : Nat} {payload : Word} {s : State} (hM : Sub 2560 ms) (hK : Keeps ms r0 s) :
    Keeps ms r0 (holderEvent id code payload s) := by
  unfold holderEvent
  try dsimp only
  repeat' (first
    | with_reducible assumption
    | exact hM.trans rfl
    | with_reducible apply id_keeps
    | with_reducible apply chEvent_keeps
    | intro _
    | split)

theorem logPut_keeps {ms : Nat} {r0 : State} {src : Nat} {e : LogEntry} {s : State} (hM : Sub 528 ms) (hK : Keeps ms r0 s) :
    Keeps ms r0 (logPut src e s) := by
  unfold logPut
  try dsimp only
  repeat' (first
    | with_reducible assumption
    | exact hM.trans rfl
    | with_reducible apply modLg_keeps
    | with_reducible apply takeTally_keeps
    | intro _
    | split)

theorem logFrom_keeps {ms : Nat} {r0 : State} {src : Nat} {code : Nat} {d0 : Word} {d1 : Word} {s : State} (hM : Sub 528 ms) (hK : Keeps ms r0 s) :
    Keeps ms r0 (logFrom src code d0 d1 s) := by
  unfold logFrom
  try dsimp only
  repeat' (first
    | with_reducible assumption
    | exact hM.trans rfl
    | with_reducible apply logPut_keeps
    | intro _
    | split)

theorem logCode_keeps {ms : Nat} {r0 : State} {code : Nat} {d0 : Word} {d1 : Word} {s : State} (hM : Sub 528 ms) (hK : Keeps ms r0 s) :
    Keeps ms r0 (logCode code d0 d1 s) := by
  unfold logCode
  try dsimp only
  repeat' (first
    | with_reducible assumption
    | exact hM.trans rfl
    | with_reducible apply logFrom_keeps
    | intro _
    | split)

theorem serveLog_keeps {ms : Nat} {r0 : State} (hM : Sub 528 ms) :
    ∀ {n : Nat} {s : State}, Keeps ms r0 s → Keeps ms r0 (serveLog n s)
  | 0, _, h => h
  | n + 1, s, h => by
    unfold serveLog
    split
    · exact h
    · split
      · exact serveLog_keeps hM (n := n) (takeTally_keeps (hM.trans rfl) (modLg_keeps (hM.trans rfl) h))
      · exact h

theorem logPost_keeps {ms : Nat} {r0 : State} {code : Nat} {d0 : Word} {d1 : Word} {s : State} (hM : Sub 1052178 ms) (hK : Keeps ms r0 s) :
    Keeps ms r0 (logPost code d0 d1 s) := by
  unfold logPost
  try dsimp only
  repeat' (first
    | with_reducible assumption
    | exact hM.trans rfl
    | with_reducible apply aonEvent_keeps
    | with_reducible apply logCode_keeps
    | intro _
    | split)

theorem nvPut_keeps {ms : Nat} {r0 : State} {w : NvWrite} {s : State} (hM : Sub 8 ms) (hK : Keeps ms r0 s) :
    Keeps ms r0 (nvPut w s) := by
  unfold nvPut
  try dsimp only
  repeat' (first
    | with_reducible assumption
    | exact hM.trans rfl
    | with_reducible apply modNv_keeps
    | intro _
    | split)

theorem serveFlume_keeps {ms : Nat} {r0 : State} {f : FlumeId} {s : State} (hM : Sub 1052178 ms) (hK : Keeps ms r0 s) :
    Keeps ms r0 (serveFlume f s) := by
  unfold serveFlume
  try dsimp only
  repeat' (first
    | with_reducible assumption
    | exact hM.trans rfl
    | with_reducible apply serveWaiting_keeps
    | with_reducible apply serveAon_keeps
    | with_reducible apply serveLog_keeps
    | with_reducible apply serveEv_keeps
    | intro _
    | split)

end Sys2Proof.Machine
end

