-- ==== Sys2Proof/Laws/KeepsEngines.lean ====
section
/-!
SUPPORT. Machine/Engines.lean: each operation keeps what no command takes back (Laws/Keeps.lean).
-/

namespace Sys2Proof.Machine

set_option linter.all false

theorem modPage_keeps {ms : Nat} {r0 : State} {h : Word} {f : Page → Page} {s : State} (hM : Sub 2048 ms) (hK : Keeps ms r0 s) :
    Keeps ms r0 (modPage h f s) := by
  unfold modPage
  try dsimp only
  repeat' (first
    | with_reducible assumption
    | exact hM.trans rfl
    | with_reducible apply modPages_keeps
    | intro _
    | split)

theorem finishOne_keeps {ms : Nat} {r0 : State} {adm : Option Word} {e : Engine} {s : State} (hM : Sub 2048 ms) (hK : Keeps ms r0 s) :
    Keeps ms r0 (finishOne adm e s) := by
  unfold finishOne
  try dsimp only
  repeat' (first
    | with_reducible assumption
    | exact hM.trans rfl
    | with_reducible apply modPages_keeps
    | intro _
    | split)

theorem endAction_keeps {ms : Nat} {r0 : State} {a : Action} {outcome : Nat} {code : Nat} {synth : Bool} {s : State} (hM : Sub 1052162 ms) (hK : Keeps ms r0 s) :
    Keeps ms r0 (endAction a outcome code synth s) := by
  unfold endAction
  try dsimp only
  repeat' (first
    | with_reducible assumption
    | exact hM.trans rfl
    | with_reducible apply modCh_keeps
    | with_reducible apply retTally_keeps
    | with_reducible apply finishOne_keeps
    | with_reducible apply post_keeps
    | with_reducible apply finishAction_keeps
    | exact fun (_ : Channel) g => chOk_map (fun a h => by (try dsimp only); split <;> exact ⟨rfl, h⟩) g
    | exact fun (_ : Channel) g => g
    | intro _
    | split)

theorem dropActs_keeps {ms : Nat} {r0 : State} {c : Chan} {p : Action → Bool} {s : State} (hM : Sub 1052162 ms) (hK : Keeps ms r0 s) :
    Keeps ms r0 (dropActs c p s) := by
  unfold dropActs
  try dsimp only
  repeat' (first
    | with_reducible assumption
    | exact hM.trans rfl
    | with_reducible apply forEach_keeps
    | with_reducible apply endAction_keeps
    | intro _
    | split)

theorem returnTaking_keeps {ms : Nat} {r0 : State} {c : Chan} {s : State} (hM : Sub 2560 ms) (hK : Keeps ms r0 s) :
    Keeps ms r0 (returnTaking c s) := by
  unfold returnTaking
  try dsimp only
  repeat' (first
    | with_reducible assumption
    | exact hM.trans rfl
    | with_reducible apply modCh_keeps
    | with_reducible apply forEach_keeps
    | with_reducible apply retTallies_keeps
    | exact fun (_ : Channel) g => g
    | intro _
    | split)

theorem returnHeld_keeps {ms : Nat} {r0 : State} {c : Chan} {s : State} (hM : Sub 2560 ms) (hK : Keeps ms r0 s) :
    Keeps ms r0 (returnHeld c s) := by
  unfold returnHeld
  try dsimp only
  repeat' (first
    | with_reducible assumption
    | exact hM.trans rfl
    | with_reducible apply forEach_keeps
    | with_reducible apply retTallies_keeps
    | with_reducible apply modCh_keeps
    | exact fun (_ : Channel) g => g
    | intro _
    | split)

theorem discardSegs_keeps {ms : Nat} {r0 : State} {m : Motor} {s : State} (hM : Sub 33280 ms) (hK : Keeps ms r0 s) :
    Keeps ms r0 (discardSegs m s) := by
  unfold discardSegs
  try dsimp only
  repeat' (first
    | with_reducible assumption
    | exact hM.trans rfl
    | with_reducible apply modStep_keeps
    | with_reducible apply retTallies_keeps
    | with_reducible apply modBldc_keeps
    | intro _
    | split)

theorem noteStill_keeps {ms : Nat} {r0 : State} {n : Fin 16} {s : State} (hM : Sub 2 ms) (hK : Keeps ms r0 s) :
    Keeps ms r0 (noteStill n s) := by
  unfold noteStill
  try dsimp only
  repeat' (first
    | with_reducible assumption
    | exact hM.trans rfl
    | with_reducible apply modAon_keeps
    | intro _
    | split)

theorem noteMoving_keeps {ms : Nat} {r0 : State} {n : Fin 16} {s : State} (hM : Sub 2 ms) (hK : Keeps ms r0 s) :
    Keeps ms r0 (noteMoving n s) := by
  unfold noteMoving
  try dsimp only
  repeat' (first
    | with_reducible assumption
    | exact hM.trans rfl
    | with_reducible apply modAon_keeps
    | intro _
    | split)

theorem stillStep_keeps {ms : Nat} {r0 : State} {n : Fin 16} {why : StopWhy} {s : State} (hM : Sub 32770 ms) (hK : Keeps ms r0 s) :
    Keeps ms r0 (stillStep n why s) := by
  unfold stillStep
  try dsimp only
  repeat' (first
    | with_reducible assumption
    | exact hM.trans rfl
    | with_reducible apply noteStill_keeps
    | with_reducible apply modStep_keeps
    | intro _
    | split)

theorem stopAtRest_keeps {ms : Nat} {r0 : State} {n : Fin 16} {why : StopWhy} {s : State} (hM : Sub 32768 ms) (hK : Keeps ms r0 s) :
    Keeps ms r0 (stopAtRest n why s) := by
  unfold stopAtRest
  try dsimp only
  repeat' (first
    | with_reducible assumption
    | exact hM.trans rfl
    | with_reducible apply modStep_keeps
    | intro _
    | split)

theorem stopStep_keeps {ms : Nat} {r0 : State} {n : Fin 16} {why : StopWhy} {s : State} (hM : Sub 33282 ms) (hK : Keeps ms r0 s) :
    Keeps ms r0 (stopStep n why s) := by
  unfold stopStep
  try dsimp only
  repeat' (first
    | with_reducible assumption
    | exact hM.trans rfl
    | with_reducible apply discardSegs_keeps
    | with_reducible apply stopAtRest_keeps
    | with_reducible apply stillStep_keeps
    | with_reducible apply modStep_keeps
    | intro _
    | split)

theorem stopBldc_keeps {ms : Nat} {r0 : State} {k : Fin 4} {why : StopWhy} {s : State} (hM : Sub 33280 ms) (hK : Keeps ms r0 s) :
    Keeps ms r0 (stopBldc k why s) := by
  unfold stopBldc
  try dsimp only
  repeat' (first
    | with_reducible assumption
    | exact hM.trans rfl
    | with_reducible apply discardSegs_keeps
    | with_reducible apply modBldc_keeps
    | intro _
    | split)

theorem stopMotor_keeps {ms : Nat} {r0 : State} {m : Motor} {why : StopWhy} {s : State} (hM : Sub 33282 ms) (hK : Keeps ms r0 s) :
    Keeps ms r0 (stopMotor m why s) := by
  unfold stopMotor
  try dsimp only
  repeat' (first
    | with_reducible assumption
    | exact hM.trans rfl
    | with_reducible apply stopStep_keeps
    | with_reducible apply stopBldc_keeps
    | intro _
    | split)

theorem runOnStep_keeps {ms : Nat} {r0 : State} {exitLen : Nat} {n : Fin 16} {s : State} (hM : Sub 33282 ms) (hK : Keeps ms r0 s) :
    Keeps ms r0 (runOnStep exitLen n s) := by
  unfold runOnStep
  try dsimp only
  repeat' (first
    | with_reducible assumption
    | exact hM.trans rfl
    | with_reducible apply discardSegs_keeps
    | with_reducible apply stillStep_keeps
    | with_reducible apply modStep_keeps
    | intro _
    | split)

theorem discardSps_keeps {ms : Nat} {r0 : State} {l : LoopId} {s : State} (hM : Sub 66048 ms) (hK : Keeps ms r0 s) :
    Keeps ms r0 (discardSps l s) := by
  unfold discardSps
  try dsimp only
  repeat' (first
    | with_reducible assumption
    | exact hM.trans rfl
    | with_reducible apply modLoop_keeps
    | with_reducible apply retTallies_keeps
    | intro _
    | split)

theorem loopIdle_keeps {ms : Nat} {r0 : State} {l : LoopId} {s : State} (hM : Sub 66048 ms) (hK : Keeps ms r0 s) :
    Keeps ms r0 (loopIdle l s) := by
  unfold loopIdle
  try dsimp only
  repeat' (first
    | with_reducible assumption
    | exact hM.trans rfl
    | with_reducible apply modLoop_keeps
    | with_reducible apply discardSps_keeps
    | intro _
    | split)

theorem loopOffOp_keeps {ms : Nat} {r0 : State} {l : LoopId} {s : State} (hM : Sub 66048 ms) (hK : Keeps ms r0 s) :
    Keeps ms r0 (loopOffOp l s) := by
  unfold loopOffOp
  try dsimp only
  repeat' (first
    | with_reducible assumption
    | exact hM.trans rfl
    | with_reducible apply loopIdle_keeps
    | intro _
    | split)

theorem hvStandby_keeps {ms : Nat} {r0 : State} {l : LoopId} {s : State} (hM : Sub 66048 ms) (hK : Keeps ms r0 s) :
    Keeps ms r0 (hvStandby l s) := by
  unfold hvStandby
  try dsimp only
  repeat' (first
    | with_reducible assumption
    | exact hM.trans rfl
    | with_reducible apply modLoop_keeps
    | with_reducible apply discardSps_keeps
    | intro _
    | split)

theorem cutDec_keeps {ms : Nat} {r0 : State} {e : Engine} {s : State} (hM : Sub 8704 ms) (hK : Keeps ms r0 s) :
    Keeps ms r0 (cutDec e s) := by
  unfold cutDec
  try dsimp only
  repeat' (first
    | with_reducible assumption
    | exact hM.trans rfl
    | with_reducible apply retTallies_keeps
    | with_reducible apply modRast_keeps
    | exact fun (_ : Rast) g => g
    | intro _
    | split)

theorem releaseEngine_keeps {ms : Nat} {r0 : State} {handle : Word} {e : Engine} {s : State} (hM : Sub 8704 ms) (hK : Keeps ms r0 s) :
    Keeps ms r0 (releaseEngine handle e s) := by
  unfold releaseEngine
  try dsimp only
  repeat' (first
    | with_reducible assumption
    | exact hM.trans rfl
    | with_reducible apply cutDec_keeps
    | with_reducible apply retTallies_keeps
    | with_reducible apply modRast_keeps
    | exact fun (_ : Rast) g => g
    | intro _
    | split)

theorem releaseAborted_keeps {ms : Nat} {r0 : State} {g : Page} {s : State} (hM : Sub 8704 ms) (hK : Keeps ms r0 s) :
    Keeps ms r0 (releaseAborted g s) := by
  unfold releaseAborted
  try dsimp only
  repeat' (first
    | with_reducible assumption
    | exact hM.trans rfl
    | with_reducible apply forEach_keeps
    | with_reducible apply id_keeps
    | with_reducible apply releaseEngine_keeps
    | intro _
    | split)

theorem rejectPlan_keeps {ms : Nat} {r0 : State} {cause : Nat} {g : Page} {s : State} (hM : Sub 1060354 ms) (hK : Keeps ms r0 s) :
    Keeps ms r0 (rejectPlan cause g s) := by
  unfold rejectPlan
  try dsimp only
  repeat' (first
    | with_reducible assumption
    | exact hM.trans rfl
    | with_reducible apply forEach_keeps
    | with_reducible apply releaseEngine_keeps
    | with_reducible apply modCue_keeps
    | with_reducible apply engine_keeps
    | exact fun (_ : Cue) g => g
    | exact fun (_ : Cue) g => chWf_map rfl rfl (fun x hx => by first | exact hx | (split <;> exact hx) | (dsimp only; split <;> exact hx)) g
    | intro _
    | split)

theorem rejectWithPartner_keeps {ms : Nat} {r0 : State} {cause : Nat} {g : Page} {s : State} (hM : Sub 1060354 ms) (hK : Keeps ms r0 s) :
    Keeps ms r0 (rejectWithPartner cause g s) := by
  unfold rejectWithPartner
  try dsimp only
  repeat' (first
    | with_reducible assumption
    | exact hM.trans rfl
    | with_reducible apply rejectPlan_keeps
    | intro _
    | split)

theorem applyDivert_keeps {ms : Nat} {r0 : State} {g : Page} {s : State} (hM : Sub 2048 ms) (hK : Keeps ms r0 s) :
    Keeps ms r0 (applyDivert g s) := by
  unfold applyDivert
  try dsimp only
  repeat' (first
    | with_reducible assumption
    | exact hM.trans rfl
    | with_reducible apply modCue_keeps
    | exact fun (_ : Cue) g => g
    | exact fun (_ : Cue) g => chWf_tmod rfl rfl rfl (fun x hx => by first | exact hx | (split <;> exact hx) | (dsimp only; split <;> exact hx)) g
    | intro _
    | split)

theorem formMotion_keeps {ms : Nat} {r0 : State} {form : Nat} {g : Page} {s : State} (hM : Sub 35330 ms) (hK : Keeps ms r0 s) :
    Keeps ms r0 (formMotion form g s) := by
  unfold formMotion
  try dsimp only
  repeat' (first
    | with_reducible assumption
    | exact hM.trans rfl
    | with_reducible apply forEach_keeps
    | with_reducible apply runOnStep_keeps
    | with_reducible apply id_keeps
    | with_reducible apply applyDivert_keeps
    | with_reducible apply stopBldc_keeps
    | with_reducible apply stopStep_keeps
    | intro _
    | split)

theorem abortOne_keeps {ms : Nat} {r0 : State} {cause : Nat} {form : Nat} {g : Page} {s : State} (hM : Sub 1256962 ms) (hK : Keeps ms r0 s) :
    Keeps ms r0 (abortOne cause form g s) := by
  unfold abortOne
  try dsimp only
  repeat' (first
    | with_reducible assumption
    | exact hM.trans rfl
    | with_reducible apply modPage_keeps
    | with_reducible apply forEach_keeps
    | with_reducible apply dropActs_keeps
    | with_reducible apply chEvents_keeps
    | with_reducible apply modHead_keeps
    | with_reducible apply hvStandby_keeps
    | with_reducible apply releaseAborted_keeps
    | with_reducible apply modCue_keeps
    | with_reducible apply rejectPlan_keeps
    | exact fun (_ : Cue) g => g
    | exact fun (_ : Cue) g => chWf_map rfl rfl (fun x hx => by first | exact hx | (split <;> exact hx) | (dsimp only; split <;> exact hx)) g
    | intro _
    | split)

theorem abortPages_keeps {ms : Nat} {r0 : State} {p : Page → Bool} {cause : Nat} {form : Nat} {s : State} (hM : Sub 1289730 ms) (hK : Keeps ms r0 s) :
    Keeps ms r0 (abortPages p cause form s) := by
  unfold abortPages
  try dsimp only
  repeat' (first
    | with_reducible assumption
    | exact hM.trans rfl
    | with_reducible apply forEach_keeps
    | with_reducible apply abortOne_keeps
    | with_reducible apply formMotion_keeps
    | intro _
    | split)

theorem raiseForm_keeps {ms : Nat} {r0 : State} {form : Nat} {s : State} (hM : Sub 2048 ms) (hK : Keeps ms r0 s) :
    Keeps ms r0 (raiseForm form s) := by
  unfold raiseForm
  try dsimp only
  repeat' (first
    | with_reducible assumption
    | exact hM.trans rfl
    | with_reducible apply modPages_keeps
    | intro _
    | split)

theorem abortChanPages_keeps {ms : Nat} {r0 : State} {cause : Nat} {c : Option Chan} {s : State} (hM : Sub 1289730 ms) (hK : Keeps ms r0 s) :
    Keeps ms r0 (abortChanPages cause c s) := by
  unfold abortChanPages
  try dsimp only
  repeat' (first
    | with_reducible assumption
    | exact hM.trans rfl
    | with_reducible apply abortPages_keeps
    | intro _
    | split)

theorem abortEnginePages_keeps {ms : Nat} {r0 : State} {e : Nat} {s : State} (hM : Sub 1289730 ms) (hK : Keeps ms r0 s) :
    Keeps ms r0 (abortEnginePages e s) := by
  unfold abortEnginePages
  try dsimp only
  repeat' (first
    | with_reducible assumption
    | exact hM.trans rfl
    | with_reducible apply abortPages_keeps
    | intro _
    | split)

theorem chFault_keeps {ms : Nat} {r0 : State} {c : Chan} {code : Nat} {fpc : Nat} {s : State} (hM : Sub 1289730 ms) (hK : Keeps ms r0 s) :
    Keeps ms r0 (chFault c code fpc s) := by
  unfold chFault
  try dsimp only
  repeat' (first
    | with_reducible assumption
    | exact hM.trans rfl
    | rw [faultCtx_scratch, faultCtx_actq]
    | with_reducible apply modCh_keeps
    | with_reducible apply post_keeps
    | with_reducible apply returnHeld_keeps
    | with_reducible apply dropActs_keeps
    | with_reducible apply returnTaking_keeps
    | with_reducible apply abortChanPages_keeps
    | exact fun (_ : Channel) g => g
    | intro _
    | split)

theorem refuseAction_keeps {ms : Nat} {r0 : State} {a : Action} {code : Nat} {synth : Bool} {s : State} (hM : Sub 1289730 ms) (hK : Keeps ms r0 s) :
    Keeps ms r0 (refuseAction a code synth s) := by
  unfold refuseAction
  try dsimp only
  repeat' (first
    | with_reducible assumption
    | exact hM.trans rfl
    | with_reducible apply endAction_keeps
    | with_reducible apply chFault_keeps
    | intro _
    | split)

theorem logEngine_keeps {ms : Nat} {r0 : State} {code : Nat} {res : Nat} {cause : Nat} {s : State} (hM : Sub 528 ms) (hK : Keeps ms r0 s) :
    Keeps ms r0 (logEngine code res cause s) := by
  unfold logEngine
  try dsimp only
  repeat' (first
    | with_reducible assumption
    | exact hM.trans rfl
    | with_reducible apply logFrom_keeps
    | intro _
    | split)

theorem stepCoupled_keeps {ms : Nat} {r0 : State} {x0 : Nat} {k : Nat} {s : State} (hM : Sub 1081346 ms) (hK : Keeps ms r0 s) :
    Keeps ms r0 (stepCoupled x0 k s) := by
  unfold stepCoupled
  try dsimp only
  repeat' (first
    | with_reducible assumption
    | exact hM.trans rfl
    | with_reducible apply noteStill_keeps
    | with_reducible apply modStep_keeps
    | with_reducible apply emit_keeps
    | intro _
    | split)

theorem cutCoupled_keeps {ms : Nat} {r0 : State} {s : State} (hM : Sub 1343490 ms) (hK : Keeps ms r0 s) :
    Keeps ms r0 (cutCoupled s) := by
  unfold cutCoupled
  try dsimp only
  repeat' (first
    | with_reducible assumption
    | exact hM.trans rfl
    | with_reducible apply stepCoupled_keeps
    | with_reducible apply modScan_keeps
    | intro _
    | split)

theorem dropLine_keeps {ms : Nat} {r0 : State} {s : State} (hM : Sub 262656 ms) (hK : Keeps ms r0 s) :
    Keeps ms r0 (dropLine s) := by
  unfold dropLine
  try dsimp only
  repeat' (first
    | with_reducible assumption
    | exact hM.trans rfl
    | with_reducible apply retTally_keeps
    | with_reducible apply modScan_keeps
    | intro _
    | split)

theorem scanFault_keeps {ms : Nat} {r0 : State} {cause : Nat} {s : State} (hM : Sub 1347074 ms) (hK : Keeps ms r0 s) :
    Keeps ms r0 (scanFault cause s) := by
  unfold scanFault
  try dsimp only
  repeat' (first
    | with_reducible assumption
    | exact hM.trans rfl
    | with_reducible apply engine_keeps
    | with_reducible apply modScan_keeps
    | with_reducible apply dropLine_keeps
    | with_reducible apply cutCoupled_keeps
    | intro _
    | split)

theorem motFaultTell_keeps {ms : Nat} {r0 : State} {m : Motor} {cause : Nat} {data : Nat} {s : State} (hM : Sub 1289730 ms) (hK : Keeps ms r0 s) :
    Keeps ms r0 (motFaultTell m cause data s) := by
  unfold motFaultTell
  try dsimp only
  repeat' (first
    | with_reducible assumption
    | exact hM.trans rfl
    | with_reducible apply holderEvent_keeps
    | with_reducible apply engine_keeps
    | with_reducible apply abortChanPages_keeps
    | intro _
    | split)

theorem motFault_keeps {ms : Nat} {r0 : State} {m : Motor} {cause : Nat} {s : State} (hM : Sub 1551874 ms) (hK : Keeps ms r0 s) :
    Keeps ms r0 (motFault m cause s) := by
  unfold motFault
  try dsimp only
  repeat' (first
    | with_reducible assumption
    | exact hM.trans rfl
    | with_reducible apply discardSegs_keeps
    | with_reducible apply cutCoupled_keeps
    | with_reducible apply motFaultTell_keeps
    | with_reducible apply modStep_keeps
    | with_reducible apply scanFault_keeps
    | with_reducible apply modBldc_keeps
    | intro _
    | split)

theorem releaseIfAborting_keeps {ms : Nat} {r0 : State} {adm : Option Word} {s : State} (hM : Sub 8704 ms) (hK : Keeps ms r0 s) :
    Keeps ms r0 (releaseIfAborting adm s) := by
  unfold releaseIfAborting
  try dsimp only
  repeat' (first
    | with_reducible assumption
    | exact hM.trans rfl
    | with_reducible apply releaseAborted_keeps
    | intro _
    | split)

theorem cutScan_keeps {ms : Nat} {r0 : State} {n : Station} {s : State} (hM : Sub 27136 ms) (hK : Keeps ms r0 s) :
    Keeps ms r0 (cutScan n s) := by
  unfold cutScan
  try dsimp only
  repeat' (first
    | with_reducible assumption
    | exact hM.trans rfl
    | with_reducible apply releaseIfAborting_keeps
    | with_reducible apply finishOne_keeps
    | with_reducible apply modStn_keeps
    | intro _
    | split)

theorem stationFault_keeps {ms : Nat} {r0 : State} {n : Station} {cause : Nat} {s : State} (hM : Sub 1306114 ms) (hK : Keeps ms r0 s) :
    Keeps ms r0 (stationFault n cause s) := by
  unfold stationFault
  try dsimp only
  repeat' (first
    | with_reducible assumption
    | exact hM.trans rfl
    | with_reducible apply abortEnginePages_keeps
    | with_reducible apply modStn_keeps
    | with_reducible apply cutScan_keeps
    | intro _
    | split)

theorem cutHead_keeps {ms : Nat} {r0 : State} {s : State} (hM : Sub 141824 ms) (hK : Keeps ms r0 s) :
    Keeps ms r0 (cutHead s) := by
  unfold cutHead
  try dsimp only
  repeat' (first
    | with_reducible assumption
    | exact hM.trans rfl
    | with_reducible apply releaseIfAborting_keeps
    | with_reducible apply finishOne_keeps
    | with_reducible apply modHead_keeps
    | intro _
    | split)

theorem headFault_keeps {ms : Nat} {r0 : State} {cause : Nat} {s : State} (hM : Sub 1289746 ms) (hK : Keeps ms r0 s) :
    Keeps ms r0 (headFault cause s) := by
  unfold headFault
  try dsimp only
  repeat' (first
    | with_reducible assumption
    | exact hM.trans rfl
    | with_reducible apply modHead_keeps
    | with_reducible apply cutHead_keeps
    | with_reducible apply holderEvent_keeps
    | with_reducible apply engine_keeps
    | with_reducible apply abortEnginePages_keeps
    | with_reducible apply logEngine_keeps
    | intro _
    | split)

theorem zoneFree_keeps {ms : Nat} {r0 : State} {x : LoopS} {s : State} (hM : Sub 65536 ms) (hK : Keeps ms r0 s) :
    Keeps ms r0 (zoneFree x s) := by
  unfold zoneFree
  try dsimp only
  repeat' (first
    | with_reducible assumption
    | exact hM.trans rfl
    | with_reducible apply modZone_keeps
    | intro _
    | split)

theorem depOff_keeps {ms : Nat} {r0 : State} {shorted : LoopId} {l : LoopId} {s : State} (hM : Sub 1117698 ms) (hK : Keeps ms r0 s) :
    Keeps ms r0 (depOff shorted l s) := by
  unfold depOff
  try dsimp only
  repeat' (first
    | with_reducible assumption
    | exact hM.trans rfl
    | with_reducible apply engine_keeps
    | with_reducible apply zoneFree_keeps
    | with_reducible apply modLoop_keeps
    | with_reducible apply loopIdle_keeps
    | intro _
    | split)

theorem hvShort_keeps {ms : Nat} {r0 : State} {l : LoopId} {cause : Nat} {s : State} (hM : Sub 1289746 ms) (hK : Keeps ms r0 s) :
    Keeps ms r0 (hvShort l cause s) := by
  unfold hvShort
  try dsimp only
  repeat' (first
    | with_reducible assumption
    | exact hM.trans rfl
    | with_reducible apply modLoop_keeps
    | with_reducible apply discardSps_keeps
    | with_reducible apply logEngine_keeps
    | with_reducible apply engine_keeps
    | with_reducible apply holderEvent_keeps
    | with_reducible apply abortChanPages_keeps
    | with_reducible apply forEach_keeps
    | with_reducible apply depOff_keeps
    | intro _
    | split)

theorem zoneFault_keeps {ms : Nat} {r0 : State} {z : Zone} {cause : Nat} {s : State} (hM : Sub 1289746 ms) (hK : Keeps ms r0 s) :
    Keeps ms r0 (zoneFault z cause s) := by
  unfold zoneFault
  try dsimp only
  repeat' (first
    | with_reducible assumption
    | exact hM.trans rfl
    | with_reducible apply modLoop_keeps
    | with_reducible apply discardSps_keeps
    | with_reducible apply logEngine_keeps
    | with_reducible apply modZone_keeps
    | with_reducible apply engine_keeps
    | with_reducible apply holderEvent_keeps
    | with_reducible apply abortChanPages_keeps
    | intro _
    | split)

theorem noteDrive_keeps {ms : Nat} {r0 : State} {f : State → State} {s : State} (hf : ∀  s, Keeps ms r0 s → Keeps ms r0 (f  s)) (hM : Sub 2 ms) (hK : Keeps ms r0 s) :
    Keeps ms r0 (noteDrive f s) := by
  unfold noteDrive
  try dsimp only
  repeat' (first
    | with_reducible assumption
    | exact hM.trans rfl
    | with_reducible apply hf
    | with_reducible apply hf
    | with_reducible apply hf
    | with_reducible apply hf
    | with_reducible apply hf
    | with_reducible apply hf
    | with_reducible apply hf
    | with_reducible apply hf
    | with_reducible apply modAon_keeps
    | intro _
    | split)

theorem scanHold_keeps {ms : Nat} {r0 : State} {s : State} (hM : Sub 1347074 ms) (hK : Keeps ms r0 s) :
    Keeps ms r0 (scanHold s) := by
  unfold scanHold
  try dsimp only
  repeat' (first
    | with_reducible assumption
    | exact hM.trans rfl
    | with_reducible apply dropLine_keeps
    | with_reducible apply cutCoupled_keeps
    | with_reducible apply scanFault_keeps
    | intro _
    | split)

theorem loopHold_keeps {ms : Nat} {r0 : State} {l : LoopId} {s : State} (hM : Sub 66048 ms) (hK : Keeps ms r0 s) :
    Keeps ms r0 (loopHold l s) := by
  unfold loopHold
  try dsimp only
  repeat' (first
    | with_reducible assumption
    | exact hM.trans rfl
    | with_reducible apply loopOffOp_keeps
    | intro _
    | split)

theorem holdEngines_keeps {ms : Nat} {r0 : State} {s : State} (hM : Sub 1568258 ms) (hK : Keeps ms r0 s) :
    Keeps ms r0 (holdEngines s) := by
  unfold holdEngines
  try dsimp only
  repeat' (first
    | with_reducible assumption
    | exact hM.trans rfl
    | with_reducible apply forEach_keeps
    | with_reducible apply stopStep_keeps
    | with_reducible apply stopBldc_keeps
    | with_reducible apply loopHold_keeps
    | with_reducible apply modZone_keeps
    | with_reducible apply modStn_keeps
    | with_reducible apply cutScan_keeps
    | with_reducible apply scanHold_keeps
    | with_reducible apply cutHead_keeps
    | with_reducible apply raiseForm_keeps
    | with_reducible apply abortPages_keeps
    | exact fun (_ : Cue) g => g
    | exact fun (_ : Cue) g => chWf_map rfl rfl (fun x hx => by first | exact hx | (split <;> exact hx) | (dsimp only; split <;> exact hx)) g
    | intro _
    | split)

theorem safeEnter_keeps {ms : Nat} {r0 : State} {s : State} (hM : Sub 1568258 ms) (hK : Keeps ms r0 s) :
    Keeps ms r0 (safeEnter s) := by
  unfold safeEnter
  try dsimp only
  repeat' (first
    | with_reducible assumption
    | exact hM.trans rfl
    | with_reducible apply holdEngines_keeps
    | with_reducible apply modAon_keeps
    | intro _
    | split)

end Sys2Proof.Machine
end

