-- ==== Sys2Proof/Laws/KeepsDomains.lean ====
section
/-!
SUPPORT. Machine/Domains.lean: each operation keeps what no command takes back (Laws/Keeps.lean).
-/

namespace Sys2Proof.Machine

set_option linter.all false

theorem loseDest_keeps {ms : Nat} {r0 : State} {f : FlumeId} {s : State} (hM : Sub 2048 ms) (hK : Keeps ms r0 s) :
    Keeps ms r0 (loseDest f s) := by
  unfold loseDest
  try dsimp only
  repeat' (first
    | with_reducible assumption
    | exact hM.trans rfl
    | with_reducible apply modCue_keeps
    | exact fun (_ : Cue) g => chWf_map rfl rfl (fun x hx => by split; exact hx; exact chOk_map (fun a h => by (try dsimp only); split <;> exact ⟨rfl, h⟩) hx) g
    | exact fun (_ : Cue) g => g
    | exact fun (_ : Cue) g => chWf_map rfl rfl (fun x hx => by first | exact hx | (split <;> exact hx) | (dsimp only; split <;> exact hx)) g
    | intro _
    | split)

theorem discardFlume_keeps {ms : Nat} {r0 : State} {f : FlumeId} {s : State} (hM : Sub 11778 ms) (hK : Keeps ms r0 s) :
    Keeps ms r0 (discardFlume f s) := by
  unfold discardFlume
  try dsimp only
  repeat' (first
    | with_reducible assumption
    | exact hM.trans rfl
    | with_reducible apply modCue_keeps
    | with_reducible apply loseDest_keeps
    | with_reducible apply modAon_keeps
    | with_reducible apply modHost_keeps
    | with_reducible apply modCh_keeps
    | with_reducible apply modRast_keeps
    | with_reducible apply cutDec_keeps
    | exact fun (_ : Channel) g => g
    | exact fun (_ : Cue) g => g
    | exact fun (_ : Rast) g => g
    | exact fun (_ : Cue) g => chWf_map rfl rfl (fun x hx => by first | exact hx | (split <;> exact hx) | (dsimp only; split <;> exact hx)) g
    | exact fun (_ : Cue) g => chWf_tmod rfl rfl rfl (fun x hx => by first | exact hx | (split <;> exact hx) | (dsimp only; split <;> exact hx)) g
    | intro _
    | split)

theorem syncFlume_keeps {ms : Nat} {r0 : State} {f : FlumeId} {s : State} (hM : Sub 1060370 ms) (hK : Keeps ms r0 s) :
    Keeps ms r0 (syncFlume f s) := by
  unfold syncFlume
  try dsimp only
  repeat' (first
    | with_reducible assumption
    | exact hM.trans rfl
    | with_reducible apply serveFlume_keeps
    | with_reducible apply modFl_keeps
    | with_reducible apply discardFlume_keeps
    | intro _
    | split)

theorem syncFlumes_keeps {ms : Nat} {r0 : State} {s : State} (hM : Sub 1060370 ms) (hK : Keeps ms r0 s) :
    Keeps ms r0 (syncFlumes s) := by
  unfold syncFlumes
  try dsimp only
  repeat' (first
    | with_reducible assumption
    | exact hM.trans rfl
    | with_reducible apply forEach_keeps
    | with_reducible apply syncFlume_keeps
    | intro _
    | split)

theorem reDepth_keeps {ms : Nat} {r0 : State} {f : FlumeId} {s : State} (hM : Sub 512 ms) (hK : Keeps ms r0 s) :
    Keeps ms r0 (reDepth f s) := by
  unfold reDepth
  try dsimp only
  repeat' (first
    | with_reducible assumption
    | exact hM.trans rfl
    | with_reducible apply noteMin_keeps
    | with_reducible apply modFl_keeps
    | intro _
    | split)

theorem setSlot_keeps {ms : Nat} {r0 : State} {k : Fin 2} {code : BitVec 4} {s : State} (hM : Sub 8 ms) (hK : Keeps ms r0 s) :
    Keeps ms r0 (setSlot k code s) := by
  unfold setSlot
  try dsimp only
  repeat' (first
    | with_reducible assumption
    | exact hM.trans rfl
    | with_reducible apply nvPut_keeps
    | intro _
    | split)

theorem invalidate_keeps {ms : Nat} {r0 : State} {op : ImageOp} {s : State} (hM : Sub 40 ms) (hK : Keeps ms r0 s) :
    Keeps ms r0 (invalidate op s) := by
  unfold invalidate
  try dsimp only
  repeat' (first
    | with_reducible assumption
    | exact hM.trans rfl
    | with_reducible apply setSlot_keeps
    | with_reducible apply modBoot_keeps
    | exact fun (_ : Boot) _ _ g => g
    | intro _
    | split)

theorem imageDone_keeps {ms : Nat} {r0 : State} {op : ImageOp} {err : Nat} {s : State} (hM : Sub 1052194 ms) (hK : Keeps ms r0 s) :
    Keeps ms r0 (imageDone op err s) := by
  unfold imageDone
  try dsimp only
  repeat' (first
    | with_reducible assumption
    | exact hM.trans rfl
    | with_reducible apply modBoot_keeps
    | with_reducible apply aonEvent_keeps
    | exact fun (_ : Boot) _ _ g => g
    | intro _
    | split)

theorem imageCut_keeps {ms : Nat} {r0 : State} {err : Nat} {s : State} (hM : Sub 1052202 ms) (hK : Keeps ms r0 s) :
    Keeps ms r0 (imageCut err s) := by
  unfold imageCut
  try dsimp only
  repeat' (first
    | with_reducible assumption
    | exact hM.trans rfl
    | with_reducible apply imageDone_keeps
    | with_reducible apply invalidate_keeps
    | intro _
    | split)

theorem workerCut_keeps {ms : Nat} {r0 : State} {p : Nat → Bool} {s : State} (hM : Sub 1052202 ms) (hK : Keeps ms r0 s) :
    Keeps ms r0 (workerCut p s) := by
  unfold workerCut
  try dsimp only
  repeat' (first
    | with_reducible assumption
    | exact hM.trans rfl
    | with_reducible apply imageCut_keeps
    | intro _
    | split)

theorem exportEnd_keeps {ms : Nat} {r0 : State} {err : Nat} {bytes : Nat} {s : State} (hM : Sub 1052178 ms) (hK : Keeps ms r0 s) :
    Keeps ms r0 (exportEnd err bytes s) := by
  unfold exportEnd
  try dsimp only
  repeat' (first
    | with_reducible assumption
    | exact hM.trans rfl
    | with_reducible apply logPost_keeps
    | with_reducible apply modLg_keeps
    | intro _
    | split)

theorem exportCut_keeps {ms : Nat} {r0 : State} {s : State} (hM : Sub 1052178 ms) (hK : Keeps ms r0 s) :
    Keeps ms r0 (exportCut s) := by
  unfold exportCut
  try dsimp only
  repeat' (first
    | with_reducible assumption
    | exact hM.trans rfl
    | with_reducible apply exportEnd_keeps
    | intro _
    | split)

theorem modEnc_keeps {ms : Nat} {r0 : State} {e : Fin 2} {f : Enc → Enc} {s : State} (hM : Sub 8192 ms) (hK : Keeps ms r0 s) :
    Keeps ms r0 (modEnc e f s) := by
  unfold modEnc
  try dsimp only
  repeat' (first
    | with_reducible assumption
    | exact hM.trans rfl
    | with_reducible apply modRast_keeps
    | exact fun (_ : Rast) g => g
    | intro _
    | split)

theorem tampReport_keeps {ms : Nat} {r0 : State} {u : Nat} {code : Nat} {ix : Nat} {out : Nat} {s : State} (hM : Sub 1060354 ms) (hK : Keeps ms r0 s) :
    Keeps ms r0 (tampReport u code ix out s) := by
  unfold tampReport
  try dsimp only
  repeat' (first
    | with_reducible assumption
    | exact hM.trans rfl
    | with_reducible apply engine_keeps
    | with_reducible apply modRast_keeps
    | exact fun (_ : Rast) g => g
    | intro _
    | split)

theorem encError_keeps {ms : Nat} {r0 : State} {e : Fin 2} {code : Nat} {s : State} (hM : Sub 1060354 ms) (hK : Keeps ms r0 s) :
    Keeps ms r0 (encError e code s) := by
  unfold encError
  try dsimp only
  repeat' (first
    | with_reducible assumption
    | exact hM.trans rfl
    | with_reducible apply tampReport_keeps
    | with_reducible apply retTallies_keeps
    | with_reducible apply modEnc_keeps
    | intro _
    | split)

theorem scanStreamCut_keeps {ms : Nat} {r0 : State} {s : State} (hM : Sub 1060354 ms) (hK : Keeps ms r0 s) :
    Keeps ms r0 (scanStreamCut s) := by
  unfold scanStreamCut
  try dsimp only
  repeat' (first
    | with_reducible assumption
    | exact hM.trans rfl
    | with_reducible apply forEach_keeps
    | with_reducible apply encError_keeps
    | with_reducible apply id_keeps
    | intro _
    | split)

theorem dropLatches_keeps {ms : Nat} {r0 : State} {d : Dom} {s : State} (hM : Sub 3088 ms) (hK : Keeps ms r0 s) :
    Keeps ms r0 (dropLatches d s) := by
  unfold dropLatches
  try dsimp only
  repeat' (first
    | with_reducible assumption
    | exact hM.trans rfl
    | with_reducible apply modLg_keeps
    | with_reducible apply modCue_keeps
    | with_reducible apply modHost_keeps
    | exact fun (_ : Cue) g => chWf_map rfl rfl (fun x hx => by first | exact hx | (split <;> exact hx) | (dsimp only; split <;> exact hx)) g
    | intro _
    | split)

theorem cutDecoder_keeps {ms : Nat} {r0 : State} {mgr : Bool} {s : State} (hM : Sub 1024 ms) (hK : Keeps ms r0 s) :
    Keeps ms r0 (cutDecoder mgr s) := by
  unfold cutDecoder
  try dsimp only
  repeat' (first
    | with_reducible assumption
    | exact hM.trans rfl
    | with_reducible apply modHost_keeps
    | intro _
    | split)

theorem leaveDom_keeps {ms : Nat} {r0 : State} {d : Dom} {s : State} (hM : Sub 2096698 ms) (hK : Keeps ms r0 s) :
    Keeps ms r0 (leaveDom d s) := by
  unfold leaveDom
  try dsimp only
  repeat' (first
    | with_reducible assumption
    | exact hM.trans rfl
    | with_reducible apply dropLatches_keeps
    | with_reducible apply imageCut_keeps
    | with_reducible apply modBoot_keeps
    | with_reducible apply cutDecoder_keeps
    | with_reducible apply modHost_keeps
    | with_reducible apply modMem_keeps
    | with_reducible apply exportCut_keeps
    | with_reducible apply modAon_keeps
    | with_reducible apply modCue_keeps
    | with_reducible apply modRast_keeps
    | with_reducible apply scanStreamCut_keeps
    | with_reducible apply cutCoupled_keeps
    | with_reducible apply workerCut_keeps
    | exact fun (_ : Cue) g => g
    | exact fun (_ : MemS) g => g
    | exact fun (_ : Rast) g => g
    | exact fun (_ : Cue) g => chWf_map rfl rfl (fun x hx => by first | exact hx | (split <;> exact hx) | (dsimp only; split <;> exact hx)) g
    | exact fun (_ : Cue) g => chWf_tmod rfl rfl rfl (fun x hx => by first | exact hx | (split <;> exact hx) | (dsimp only; split <;> exact hx)) g
    | exact fun (_ : Cue) _ => chWf_reset
    | exact fun (_ : MemS) _ => rfl
    | exact fun (_ : Rast) _ => rfl
    | exact fun (_ : Boot) _ _ g => g
    | intro _
    | split
    | with_reducible apply keeps_beam
    | with_reducible apply keeps_motn
    | with_reducible apply keeps_loops
    | with_reducible apply keeps_head
    | with_reducible apply keeps_scan
    | with_reducible apply keeps_skid)

theorem enterDom_keeps {ms : Nat} {r0 : State} {d : Dom} {s : State} (hM : Sub 524288 ms) (hK : Keeps ms r0 s) :
    Keeps ms r0 (enterDom d s) := by
  unfold enterDom
  try dsimp only
  repeat' (first
    | with_reducible assumption
    | exact hM.trans rfl
    | with_reducible apply modSkid_keeps
    | intro _
    | split)

theorem vmotLost_keeps {ms : Nat} {r0 : State} {s : State} (hM : Sub 1551874 ms) (hK : Keeps ms r0 s) :
    Keeps ms r0 (vmotLost s) := by
  unfold vmotLost
  try dsimp only
  repeat' (first
    | with_reducible assumption
    | exact hM.trans rfl
    | with_reducible apply forEach_keeps
    | with_reducible apply motFault_keeps
    | intro _
    | split
    | with_reducible apply keeps_motn)

theorem restoreStep_keeps {ms : Nat} {r0 : State} {n : Fin 16} {s : State} (hM : Sub 32768 ms) (hK : Keeps ms r0 s) :
    Keeps ms r0 (restoreStep n s) := by
  unfold restoreStep
  try dsimp only
  repeat' (first
    | with_reducible assumption
    | exact hM.trans rfl
    | with_reducible apply modStep_keeps
    | intro _
    | split)

theorem vmotBack_keeps {ms : Nat} {r0 : State} {s : State} (hM : Sub 32768 ms) (hK : Keeps ms r0 s) :
    Keeps ms r0 (vmotBack s) := by
  unfold vmotBack
  try dsimp only
  repeat' (first
    | with_reducible assumption
    | exact hM.trans rfl
    | with_reducible apply forEach_keeps
    | with_reducible apply restoreStep_keeps
    | intro _
    | split
    | with_reducible apply keeps_motn)

theorem syncVmot_keeps {ms : Nat} {r0 : State} {s : State} (hM : Sub 1551874 ms) (hK : Keeps ms r0 s) :
    Keeps ms r0 (syncVmot s) := by
  unfold syncVmot
  try dsimp only
  repeat' (first
    | with_reducible assumption
    | exact hM.trans rfl
    | with_reducible apply vmotLost_keeps
    | with_reducible apply vmotBack_keeps
    | intro _
    | split)

theorem syncHead_keeps {ms : Nat} {r0 : State} {s : State} (hM : Sub 1289746 ms) (hK : Keeps ms r0 s) :
    Keeps ms r0 (syncHead s) := by
  unfold syncHead
  try dsimp only
  repeat' (first
    | with_reducible assumption
    | exact hM.trans rfl
    | with_reducible apply headFault_keeps
    | intro _
    | split)

theorem syncScan_keeps {ms : Nat} {r0 : State} {s : State} (hM : Sub 1347074 ms) (hK : Keeps ms r0 s) :
    Keeps ms r0 (syncScan s) := by
  unfold syncScan
  try dsimp only
  repeat' (first
    | with_reducible assumption
    | exact hM.trans rfl
    | with_reducible apply scanFault_keeps
    | intro _
    | split)

theorem syncSupplies_keeps {ms : Nat} {r0 : State} {s : State} (hM : Sub 1551890 ms) (hK : Keeps ms r0 s) :
    Keeps ms r0 (syncSupplies s) := by
  unfold syncSupplies
  try dsimp only
  repeat' (first
    | with_reducible assumption
    | exact hM.trans rfl
    | with_reducible apply syncScan_keeps
    | with_reducible apply syncHead_keeps
    | with_reducible apply syncVmot_keeps
    | intro _
    | split)

theorem stampDoms_keeps {ms : Nat} {r0 : State} {s : State} {t : State} {u : State} (hM : Sub 2 ms) (hK : Keeps ms r0 u) :
    Keeps ms r0 (stampDoms s t u) := by
  unfold stampDoms
  try dsimp only
  repeat' (first
    | with_reducible assumption
    | exact hM.trans rfl
    | with_reducible apply forEach_keeps
    | with_reducible apply modDom_keeps
    | with_reducible apply id_keeps
    | intro _
    | split)

theorem settle_keeps {ms : Nat} {r0 : State} {s : State} {t : State} (hM : Sub 2096698 ms) (hK : Keeps ms r0 t) :
    Keeps ms r0 (settle s t) := by
  unfold settle
  try dsimp only
  repeat' (first
    | with_reducible assumption
    | exact hM.trans rfl
    | with_reducible apply syncSupplies_keeps
    | with_reducible apply forEach_keeps
    | with_reducible apply leaveDom_keeps
    | with_reducible apply id_keeps
    | with_reducible apply stampDoms_keeps
    | with_reducible apply modAon_keeps
    | with_reducible apply enterDom_keeps
    | with_reducible apply syncFlumes_keeps
    | intro _
    | split)

theorem settled_keeps {ms : Nat} {r0 : State} {f : State → State} {s : State} (hf : ∀  s, Keeps ms r0 s → Keeps ms r0 (f  s)) (hM : Sub 2096698 ms) (hK : Keeps ms r0 s) :
    Keeps ms r0 (settled f s) := by
  unfold settled
  try dsimp only
  repeat' (first
    | with_reducible assumption
    | exact hM.trans rfl
    | with_reducible apply hf
    | with_reducible apply hf
    | with_reducible apply hf
    | with_reducible apply hf
    | with_reducible apply hf
    | with_reducible apply hf
    | with_reducible apply hf
    | with_reducible apply hf
    | with_reducible apply settle_keeps
    | intro _
    | split)

end Sys2Proof.Machine
end

