-- ==== Sys2Proof/Laws/KeepsMemory.lean ====
section
/-!
SUPPORT. Machine/Memory.lean: each operation keeps what no command takes back (Laws/Keeps.lean).
-/

namespace Sys2Proof.Machine

set_option linter.all false

theorem localWrite_keeps {ms : Nat} {r0 : State} {a : Nat} {bs : List Byte} {s : State} (hM : Sub 4096 ms) (hK : Keeps ms r0 s) :
    Keeps ms r0 (localWrite a bs s) := by
  unfold localWrite
  try dsimp only
  repeat' (first
    | with_reducible assumption
    | exact hM.trans rfl
    | apply memWrite_wf
    | with_reducible apply modMem_keeps
    | exact fun (_ : MemS) g => g
    | exact fun (_ : MemS) g => memWrite_wf _ _ _ g
    | intro _
    | split)

theorem memUe_keeps {ms : Nat} {r0 : State} {n : Nat} {addr : Nat} {s : State} (hM : Sub 1056274 ms) (hK : Keeps ms r0 s) :
    Keeps ms r0 (memUe n addr s) := by
  unfold memUe
  try dsimp only
  repeat' (first
    | with_reducible assumption
    | exact hM.trans rfl
    | with_reducible apply engine_keeps
    | with_reducible apply logFrom_keeps
    | with_reducible apply modMem_keeps
    | exact fun (_ : MemS) g => g
    | intro _
    | split)

theorem handPoison_keeps {ms : Nat} {r0 : State} {n : Nat} {addr : Nat} {s : State} (hM : Sub 1056274 ms) (hK : Keeps ms r0 s) :
    Keeps ms r0 (handPoison n addr s) := by
  unfold handPoison
  try dsimp only
  repeat' (first
    | with_reducible assumption
    | exact hM.trans rfl
    | with_reducible apply memUe_keeps
    | with_reducible apply modMem_keeps
    | exact fun (_ : MemS) g => g
    | intro _
    | split)

theorem usePoison_keeps {ms : Nat} {r0 : State} {n : Nat} {a : Nat} {bad : Bool} {out : Bool} {s : State} (hM : Sub 1056274 ms) (hK : Keeps ms r0 s) :
    Keeps ms r0 (usePoison n a bad out s).2 := by
  unfold usePoison
  try dsimp only
  repeat' (first
    | with_reducible assumption
    | exact hM.trans rfl
    | with_reducible apply modMem_keeps
    | with_reducible apply memUe_keeps
    | exact fun (_ : MemS) g => g
    | dsimp only
    | intro _
    | split)

theorem memInitOp_keeps {ms : Nat} {r0 : State} {s : State} (hM : Sub 4096 ms) (hK : Keeps ms r0 s) :
    Keeps ms r0 (memInitOp s) := by
  unfold memInitOp
  try dsimp only
  repeat' (first
    | with_reducible assumption
    | exact hM.trans rfl
    | with_reducible apply modMem_keeps
    | exact fun (_ : MemS) g => g
    | intro _
    | split)

theorem execMemInit_keeps {ms : Nat} {r0 : State} {s : State} (hM : Sub 4096 ms) (hK : Keeps ms r0 s) :
    KeepsO ms r0 (execMemInit s) := by
  unfold execMemInit
  try dsimp only
  repeat' (first
    | with_reducible assumption
    | exact hM.trans rfl
    | with_reducible apply keepsO_next
    | with_reducible apply whenS_keeps
    | with_reducible apply memInitOp_keeps
    | with_reducible apply keepsO_fault
    | split
    | intro _
    | split)

theorem execMemTrainingDone_keeps {ms : Nat} {r0 : State} {fail : Option (Byte × Byte)} {s : State} (hM : Sub 1056274 ms) (hK : Keeps ms r0 s) :
    KeepsO ms r0 (execMemTrainingDone fail s) := by
  unfold execMemTrainingDone
  try dsimp only
  repeat' (first
    | with_reducible assumption
    | exact hM.trans rfl
    | with_reducible apply keepsO_next
    | with_reducible apply whenS_keeps
    | with_reducible apply modMem_keeps
    | with_reducible apply engine_keeps
    | with_reducible apply logFrom_keeps
    | exact fun (_ : MemS) g => g
    | exact fun (_ : MemS) g => by unfold memReady; split <;> exact g
    | with_reducible apply keepsO_fault
    | split
    | intro _
    | split)

theorem toCycle_keeps {ms : Nat} {r0 : State} {c : Nat} {s : State} (hM : Sub 2049 ms) (hK : Keeps ms r0 s) :
    Keeps ms r0 (toCycle c s) := by
  unfold toCycle
  try dsimp only
  repeat' (first
    | with_reducible assumption
    | exact hM.trans rfl
    | with_reducible apply timeTo_keeps
    | intro _
    | split)

theorem excludeCycles_keeps {ms : Nat} {r0 : State} {k : Nat} {s : State} (hM : Sub 4096 ms) (hK : Keeps ms r0 s) :
    Keeps ms r0 (excludeCycles k s) := by
  unfold excludeCycles
  try dsimp only
  repeat' (first
    | with_reducible assumption
    | exact hM.trans rfl
    | with_reducible apply modMem_keeps
    | exact fun (_ : MemS) g => g
    | intro _
    | split)

theorem execMemRefresh_keeps {ms : Nat} {r0 : State} {s : State} (hM : Sub 1054721 ms) (hK : Keeps ms r0 s) :
    KeepsO ms r0 (execMemRefresh s) := by
  unfold execMemRefresh
  try dsimp only
  repeat' (first
    | with_reducible assumption
    | exact hM.trans rfl
    | with_reducible apply keepsO_next
    | with_reducible apply whenS_keeps
    | with_reducible apply timeTo_keeps
    | with_reducible apply excludeCycles_keeps
    | with_reducible apply emit_keeps
    | with_reducible apply modMem_keeps
    | exact fun (_ : MemS) g => g
    | with_reducible apply keepsO_fault
    | split
    | intro _
    | split)

theorem execMr4Poll_keeps {ms : Nat} {r0 : State} {mult : BitVec 2} {s : State} (hM : Sub 6145 ms) (hK : Keeps ms r0 s) :
    KeepsO ms r0 (execMr4Poll mult s) := by
  unfold execMr4Poll
  try dsimp only
  repeat' (first
    | with_reducible assumption
    | exact hM.trans rfl
    | with_reducible apply keepsO_next
    | with_reducible apply whenS_keeps
    | with_reducible apply modMem_keeps
    | with_reducible apply timeTo_keeps
    | exact fun (_ : MemS) g => g
    | with_reducible apply keepsO_fault
    | split
    | intro _
    | split)

theorem copyCtl_keeps {ms : Nat} {r0 : State} {v : Word} {s : State} (hM : Sub 4096 ms) (hK : Keeps ms r0 s) :
    Keeps ms r0 (copyCtl v s) := by
  unfold copyCtl
  try dsimp only
  repeat' (first
    | with_reducible assumption
    | exact hM.trans rfl
    | with_reducible apply modMem_keeps
    | exact fun (_ : MemS) g => g
    | intro _
    | split)

theorem execMemCopyGo_keeps {ms : Nat} {r0 : State} {v : Word} {s : State} (hM : Sub 4096 ms) (hK : Keeps ms r0 s) :
    KeepsO ms r0 (execMemCopyGo v s) := by
  unfold execMemCopyGo
  try dsimp only
  repeat' (first
    | with_reducible assumption
    | exact hM.trans rfl
    | with_reducible apply keepsO_next
    | with_reducible apply whenS_keeps
    | with_reducible apply copyCtl_keeps
    | with_reducible apply keepsO_fault
    | split
    | intro _
    | split)

theorem copyEnd_keeps {ms : Nat} {r0 : State} {err : Nat} {n : Nat} {dir : Bool} {s : State} (hM : Sub 1056258 ms) (hK : Keeps ms r0 s) :
    Keeps ms r0 (copyEnd err n dir s) := by
  unfold copyEnd
  try dsimp only
  repeat' (first
    | with_reducible assumption
    | exact hM.trans rfl
    | with_reducible apply engine_keeps
    | with_reducible apply modMem_keeps
    | exact fun (_ : MemS) g => g
    | intro _
    | split)

theorem execMemCopyDone_keeps {ms : Nat} {r0 : State} {data : List Byte} {ok : Bool} {s : State} (hM : Sub 1056274 ms) (hK : Keeps ms r0 s) :
    KeepsO ms r0 (execMemCopyDone data ok s) := by
  unfold execMemCopyDone
  try dsimp only
  repeat' (first
    | with_reducible assumption
    | exact hM.trans rfl
    | with_reducible apply keepsO_next
    | with_reducible apply whenS_keeps
    | with_reducible apply copyEnd_keeps
    | with_reducible apply localWrite_keeps
    | with_reducible apply aerLog_keeps
    | with_reducible apply usePoison_keeps
    | with_reducible apply emit_keeps
    | with_reducible apply keepsO_fault
    | split
    | intro _
    | split)

theorem landWrite_keeps {ms : Nat} {r0 : State} {n : Fin 10} {word : Bool} {v : Word} {s : State} (hM : Sub 8704 ms) (hK : Keeps ms r0 s) :
    Keeps ms r0 (landWrite n word v s) := by
  unfold landWrite
  try dsimp only
  repeat' (first
    | with_reducible assumption
    | exact hM.trans rfl
    | with_reducible apply modRast_keeps
    | with_reducible apply reDepth_keeps
    | exact fun (_ : Rast) g => g
    | intro _
    | split)

theorem execLandResWrite_keeps {ms : Nat} {r0 : State} {n : Fin 10} {word : Bool} {v : Word} {s : State} (hM : Sub 8704 ms) (hK : Keeps ms r0 s) :
    KeepsO ms r0 (execLandResWrite n word v s) := by
  unfold execLandResWrite
  try dsimp only
  repeat' (first
    | with_reducible assumption
    | exact hM.trans rfl
    | with_reducible apply keepsO_next
    | with_reducible apply whenS_keeps
    | with_reducible apply landWrite_keeps
    | with_reducible apply keepsO_fault
    | split
    | intro _
    | split)

theorem landCorrected_keeps {ms : Nat} {r0 : State} {s : State} (hM : Sub 8192 ms) (hK : Keeps ms r0 s) :
    Keeps ms r0 (landCorrected s) := by
  unfold landCorrected
  try dsimp only
  repeat' (first
    | with_reducible assumption
    | exact hM.trans rfl
    | with_reducible apply modRast_keeps
    | exact fun (_ : Rast) g => g
    | intro _
    | split)

theorem landUe_keeps {ms : Nat} {r0 : State} {a : Nat} {n : Byte} {s : State} (hM : Sub 1060370 ms) (hK : Keeps ms r0 s) :
    Keeps ms r0 (landUe a n s) := by
  unfold landUe
  try dsimp only
  repeat' (first
    | with_reducible assumption
    | exact hM.trans rfl
    | with_reducible apply engine_keeps
    | with_reducible apply logFrom_keeps
    | with_reducible apply modRast_keeps
    | exact fun (_ : Rast) g => g
    | intro _
    | split)

theorem bar2Put_keeps {ms : Nat} {r0 : State} (hM : Sub 8192 ms) :
    ∀ {a : Nat} {bs : List Byte} {s : State}, Keeps ms r0 s → Keeps ms r0 (bar2Put a bs s)
  | _, [], _, h => h
  | a, b :: bs, s, h => by
    unfold bar2Put
    apply bar2Put_keeps hM
    split
    · exact modRast_keeps (hM.trans rfl) h fun x g => memPut_wf x.land a b g
    · exact h

theorem execBar2Write_keeps {ms : Nat} {r0 : State} {x : Nat} {data : List Byte} {s : State} (hM : Sub 8192 ms) (hK : Keeps ms r0 s) :
    KeepsO ms r0 (execBar2Write x data s) := by
  unfold execBar2Write
  try dsimp only
  repeat' (first
    | with_reducible assumption
    | exact hM.trans rfl
    | with_reducible apply keepsO_next
    | with_reducible apply whenS_keeps
    | with_reducible apply bar2Put_keeps
    | with_reducible apply keepsO_fault
    | split
    | intro _
    | split)

theorem execBar2Read_keeps {ms : Nat} {r0 : State} {x : Nat} {n : Nat} {ecc : Ecc} {s : State} (hM : Sub 3157522 ms) (hK : Keeps ms r0 s) :
    KeepsO ms r0 (execBar2Read x n ecc s) := by
  unfold execBar2Read
  try dsimp only
  repeat' (first
    | with_reducible assumption
    | exact hM.trans rfl
    | with_reducible apply keepsO_next
    | with_reducible apply whenS_keeps
    | with_reducible apply emit_keeps
    | with_reducible apply landCorrected_keeps
    | with_reducible apply landUe_keeps
    | with_reducible apply useFree_keeps
    | with_reducible apply keepsO_fault
    | split
    | intro _
    | split)

theorem modReq_keeps {ms : Nat} {r0 : State} {n : Req} {f : ReqS → ReqS} {s : State} (hM : Sub 4096 ms) (hK : Keeps ms r0 s) :
    Keeps ms r0 (modReq n f s) := by
  unfold modReq
  try dsimp only
  repeat' (first
    | with_reducible assumption
    | exact hM.trans rfl
    | with_reducible apply modMem_keeps
    | exact fun (_ : MemS) g => g
    | intro _
    | split)

theorem scrubPass_keeps {ms : Nat} {r0 : State} {s : State} (hM : Sub 4096 ms) (hK : Keeps ms r0 s) :
    Keeps ms r0 (scrubPass s) := by
  unfold scrubPass
  try dsimp only
  repeat' (first
    | with_reducible assumption
    | exact hM.trans rfl
    | with_reducible apply modMem_keeps
    | exact fun (_ : MemS) g => g
    | intro _
    | split)

theorem accessEcc_keeps {ms : Nat} {r0 : State} {n : Req} {addr : Nat} {read : Bool} {ecc : Ecc} {s : State} (hM : Sub 1056274 ms) (hK : Keeps ms r0 s) :
    Keeps ms r0 (accessEcc n addr read ecc s) := by
  unfold accessEcc
  try dsimp only
  repeat' (first
    | with_reducible assumption
    | exact hM.trans rfl
    | with_reducible apply handPoison_keeps
    | with_reducible apply memUe_keeps
    | with_reducible apply modMem_keeps
    | exact fun (_ : MemS) g => g
    | intro _
    | split)

theorem roundAccess_keeps {ms : Nat} {r0 : State} {n : Req} {addr : Nat} {read : Bool} {ecc : Ecc} {s : State} (hM : Sub 1056274 ms) (hK : Keeps ms r0 s) :
    Keeps ms r0 (roundAccess n addr read ecc s) := by
  unfold roundAccess
  try dsimp only
  repeat' (first
    | with_reducible assumption
    | exact hM.trans rfl
    | with_reducible apply accessEcc_keeps
    | with_reducible apply modMem_keeps
    | exact fun (_ : MemS) g => g
    | intro _
    | split)

theorem useFrees_keeps {ms : Nat} {r0 : State} {k : Nat} {s : State} (hM : Sub 2097152 ms) (hK : Keeps ms r0 s) :
    Keeps ms r0 (useFrees k s) := by
  unfold useFrees
  try dsimp only
  repeat' (first
    | with_reducible assumption
    | exact hM.trans rfl
    | intro _
    | split
    | with_reducible apply keeps_free)

theorem arbRoundOp_keeps {ms : Nat} {r0 : State} {reqs : BitVec 16} {addr : Nat} {read : Bool} {ecc : Ecc} {s : State} (hM : Sub 3153427 ms) (hK : Keeps ms r0 s) :
    Keeps ms r0 (arbRoundOp reqs addr read ecc s) := by
  unfold arbRoundOp
  try dsimp only
  repeat' (first
    | with_reducible assumption
    | exact hM.trans rfl
    | with_reducible apply scrubPass_keeps
    | with_reducible apply toCycle_keeps
    | with_reducible apply useFrees_keeps
    | with_reducible apply modMem_keeps
    | with_reducible apply roundAccess_keeps
    | exact fun (_ : MemS) g => g
    | intro _
    | split)

theorem execArbRound_keeps {ms : Nat} {r0 : State} {reqs : BitVec 16} {addr : Nat} {read : Bool} {ecc : Ecc} {s : State} (hM : Sub 3153427 ms) (hK : Keeps ms r0 s) :
    KeepsO ms r0 (execArbRound reqs addr read ecc s) := by
  unfold execArbRound
  try dsimp only
  repeat' (first
    | with_reducible assumption
    | exact hM.trans rfl
    | with_reducible apply keepsO_next
    | with_reducible apply whenS_keeps
    | with_reducible apply arbRoundOp_keeps
    | exact fun (_ : MemS) g => g
    | with_reducible apply keepsO_fault
    | split
    | intro _
    | split)

theorem execQuotaWindowEnd_keeps {ms : Nat} {r0 : State} {n : Req} {s : State} (hM : Sub 6145 ms) (hK : Keeps ms r0 s) :
    KeepsO ms r0 (execQuotaWindowEnd n s) := by
  unfold execQuotaWindowEnd
  try dsimp only
  repeat' (first
    | with_reducible assumption
    | exact hM.trans rfl
    | with_reducible apply keepsO_next
    | with_reducible apply whenS_keeps
    | with_reducible apply toCycle_keeps
    | with_reducible apply modReq_keeps
    | exact fun (_ : MemS) g => by unfold windowsAt; split <;> exact g
    | with_reducible apply keepsO_fault
    | split
    | intro _
    | split)

theorem execArbReferenceWindow_keeps {ms : Nat} {r0 : State} {s : State} (hM : Sub 6145 ms) (hK : Keeps ms r0 s) :
    KeepsO ms r0 (execArbReferenceWindow s) := by
  unfold execArbReferenceWindow
  try dsimp only
  repeat' (first
    | with_reducible assumption
    | exact hM.trans rfl
    | with_reducible apply keepsO_next
    | with_reducible apply whenS_keeps
    | with_reducible apply toCycle_keeps
    | with_reducible apply modMem_keeps
    | exact fun (_ : MemS) g => g
    | exact fun (_ : MemS) g => by unfold windowsAt; split <;> exact g
    | with_reducible apply keepsO_fault
    | split
    | intro _
    | split)

theorem arbCtl_keeps {ms : Nat} {r0 : State} {v : Word} {s : State} (hM : Sub 4096 ms) (hK : Keeps ms r0 s) :
    Keeps ms r0 (arbCtl v s) := by
  unfold arbCtl
  try dsimp only
  repeat' (first
    | with_reducible assumption
    | exact hM.trans rfl
    | with_reducible apply modMem_keeps
    | exact fun (_ : MemS) g => g
    | intro _
    | split)

theorem execArbSnap_keeps {ms : Nat} {r0 : State} {s : State} (hM : Sub 4096 ms) (hK : Keeps ms r0 s) :
    KeepsO ms r0 (execArbSnap s) := by
  unfold execArbSnap
  try dsimp only
  repeat' (first
    | with_reducible assumption
    | exact hM.trans rfl
    | with_reducible apply keepsO_next
    | with_reducible apply whenS_keeps
    | with_reducible apply modMem_keeps
    | exact fun (_ : MemS) g => g
    | with_reducible apply keepsO_fault
    | split
    | intro _
    | split)

theorem execArbPresetLoad_keeps {ms : Nat} {r0 : State} {v : Word} {s : State} (hM : Sub 4096 ms) (hK : Keeps ms r0 s) :
    KeepsO ms r0 (execArbPresetLoad v s) := by
  unfold execArbPresetLoad
  try dsimp only
  repeat' (first
    | with_reducible assumption
    | exact hM.trans rfl
    | with_reducible apply keepsO_next
    | with_reducible apply whenS_keeps
    | with_reducible apply arbCtl_keeps
    | with_reducible apply keepsO_fault
    | split
    | intro _
    | split)

theorem arbWrite_keeps {ms : Nat} {r0 : State} {n : Req} {v : Word} {s : State} (hM : Sub 4096 ms) (hK : Keeps ms r0 s) :
    Keeps ms r0 (arbWrite n v s) := by
  unfold arbWrite
  try dsimp only
  repeat' (first
    | with_reducible assumption
    | exact hM.trans rfl
    | with_reducible apply modReq_keeps
    | intro _
    | split)

end Sys2Proof.Machine
end

