-- ==== Sys2Proof/Laws/KeepsTamp.lean ====
section
/-!
SUPPORT. Machine/Tamp.lean: each operation keeps what no command takes back (Laws/Keeps.lean).
-/

namespace Sys2Proof.Machine

set_option linter.all false

theorem modDec_keeps {ms : Nat} {r0 : State} {u : Fin 6} {f : Dec → Dec} {s : State} (hM : Sub 8192 ms) (hK : Keeps ms r0 s) :
    Keeps ms r0 (modDec u f s) := by
  unfold modDec
  try dsimp only
  repeat' (first
    | with_reducible assumption
    | exact hM.trans rfl
    | with_reducible apply modRast_keeps
    | exact fun (_ : Rast) g => g
    | intro _
    | split)

theorem openDec_keeps {ms : Nat} {r0 : State} {u : Fin 6} {src : Nat} {len : Nat} {dst : Nat} {cap : Nat} {s : State} (hM : Sub 8192 ms) (hK : Keeps ms r0 s) :
    Keeps ms r0 (openDec u src len dst cap s) := by
  unfold openDec
  try dsimp only
  repeat' (first
    | with_reducible assumption
    | exact hM.trans rfl
    | with_reducible apply modDec_keeps
    | intro _
    | split)

theorem decStore_keeps {ms : Nat} {r0 : State} {u : Fin 6} {a : Nat} {bs : List Byte} {s : State} (hM : Sub 12288 ms) (hK : Keeps ms r0 s) :
    Keeps ms r0 (decStore u a bs s) := by
  unfold decStore
  try dsimp only
  repeat' (first
    | with_reducible assumption
    | exact hM.trans rfl
    | apply memWrite_wf
    | with_reducible apply modRast_keeps
    | with_reducible apply localWrite_keeps
    | exact fun (_ : Rast) g => g
    | exact fun (_ : Rast) g => memWrite_wf _ _ _ g
    | intro _
    | split)

theorem decError_keeps {ms : Nat} {r0 : State} {u : Fin 6} {code : Nat} {ix : Nat} {s : State} (hM : Sub 1060354 ms) (hK : Keeps ms r0 s) :
    Keeps ms r0 (decError u code ix s) := by
  unfold decError
  try dsimp only
  repeat' (first
    | with_reducible assumption
    | exact hM.trans rfl
    | with_reducible apply tampReport_keeps
    | with_reducible apply retTallies_keeps
    | with_reducible apply modDec_keeps
    | intro _
    | split)

theorem decOutput_keeps {ms : Nat} {r0 : State} {u : Fin 6} {all : List Byte} {s : State} (hM : Sub 12288 ms) (hK : Keeps ms r0 s) :
    Keeps ms r0 (decOutput u all s) := by
  unfold decOutput
  try dsimp only
  repeat' (first
    | with_reducible assumption
    | exact hM.trans rfl
    | with_reducible apply modDec_keeps
    | with_reducible apply decStore_keeps
    | intro _
    | split)

theorem payloadPoison_keeps {ms : Nat} {r0 : State} {u : Fin 6} {d : Dec} {b : BlkDesc} {bad : Bool} {s : State} (hM : Sub 1056274 ms) (hK : Keeps ms r0 s) :
    Keeps ms r0 (payloadPoison u d b bad s).2 := by
  unfold payloadPoison
  try dsimp only
  repeat' (first
    | with_reducible assumption
    | exact hM.trans rfl
    | with_reducible apply usePoison_keeps
    | dsimp only
    | intro _
    | split)

theorem decFinish_keeps {ms : Nat} {r0 : State} {u : Fin 6} {s : State} (hM : Sub 8192 ms) (hK : Keeps ms r0 s) :
    Keeps ms r0 (decFinish u s) := by
  unfold decFinish
  try dsimp only
  repeat' (first
    | with_reducible assumption
    | exact hM.trans rfl
    | with_reducible apply modDec_keeps
    | intro _
    | split)

theorem decodeStep_keeps {ms : Nat} {r0 : State} {u : Fin 6} {b : BlkDesc} {rest : List BlkDesc} {bad : Bool} {s : State} (hM : Sub 1064466 ms) (hK : Keeps ms r0 s) :
    Keeps ms r0 (decodeStep u b rest bad s) := by
  unfold decodeStep
  try dsimp only
  repeat' (first
    | with_reducible assumption
    | exact hM.trans rfl
    | with_reducible apply payloadPoison_keeps
    | with_reducible apply retTally_keeps
    | with_reducible apply modDec_keeps
    | with_reducible apply decOutput_keeps
    | with_reducible apply decError_keeps
    | with_reducible apply decFinish_keeps
    | intro _
    | split)

theorem execTampDecodeBlock_keeps {ms : Nat} {r0 : State} {u : Fin 6} {poison : Bool} {s : State} (hM : Sub 1064466 ms) (hK : Keeps ms r0 s) :
    KeepsO ms r0 (execTampDecodeBlock u poison s) := by
  unfold execTampDecodeBlock
  try dsimp only
  repeat' (first
    | with_reducible assumption
    | exact hM.trans rfl
    | with_reducible apply keepsO_next
    | with_reducible apply whenS_keeps
    | with_reducible apply decodeStep_keeps
    | with_reducible apply keepsO_fault
    | split
    | intro _
    | split)

theorem headPoison_keeps {ms : Nat} {r0 : State} {u : Fin 6} {bad : Bool} {s : State} (hM : Sub 1056274 ms) (hK : Keeps ms r0 s) :
    Keeps ms r0 (headPoison u bad s).2 := by
  unfold headPoison
  try dsimp only
  repeat' (first
    | with_reducible assumption
    | exact hM.trans rfl
    | with_reducible apply usePoison_keeps
    | dsimp only
    | intro _
    | split)

theorem execBandFetch_keeps {ms : Nat} {r0 : State} {u : Fin 6} {poison : Bool} {s : State} (hM : Sub 1064466 ms) (hK : Keeps ms r0 s) :
    KeepsO ms r0 (execBandFetch u poison s) := by
  unfold execBandFetch
  try dsimp only
  repeat' (first
    | with_reducible assumption
    | exact hM.trans rfl
    | with_reducible apply keepsO_next
    | with_reducible apply whenS_keeps
    | with_reducible apply headPoison_keeps
    | with_reducible apply takeTally_keeps
    | with_reducible apply modDec_keeps
    | with_reducible apply keepsO_fault
    | split
    | intro _
    | split)

theorem genGo_keeps {ms : Nat} {r0 : State} {s : State} (hM : Sub 8192 ms) (hK : Keeps ms r0 s) :
    Keeps ms r0 (genGo s) := by
  unfold genGo
  try dsimp only
  repeat' (first
    | with_reducible assumption
    | exact hM.trans rfl
    | with_reducible apply openDec_keeps
    | with_reducible apply modRast_keeps
    | exact fun (_ : Rast) g => g
    | intro _
    | split)

theorem execTampGenGo_keeps {ms : Nat} {r0 : State} {s : State} (hM : Sub 8192 ms) (hK : Keeps ms r0 s) :
    KeepsO ms r0 (execTampGenGo s) := by
  unfold execTampGenGo
  try dsimp only
  repeat' (first
    | with_reducible assumption
    | exact hM.trans rfl
    | with_reducible apply keepsO_next
    | with_reducible apply whenS_keeps
    | with_reducible apply genGo_keeps
    | with_reducible apply keepsO_fault
    | split
    | intro _
    | split)

theorem execTampGenDone_keeps {ms : Nat} {r0 : State} {s : State} (hM : Sub 1060354 ms) (hK : Keeps ms r0 s) :
    KeepsO ms r0 (execTampGenDone s) := by
  unfold execTampGenDone
  try dsimp only
  repeat' (first
    | with_reducible assumption
    | exact hM.trans rfl
    | with_reducible apply keepsO_next
    | with_reducible apply whenS_keeps
    | with_reducible apply engine_keeps
    | with_reducible apply modRast_keeps
    | exact fun (_ : Rast) g => g
    | with_reducible apply keepsO_fault
    | split
    | intro _
    | split)

theorem openEnc_keeps {ms : Nat} {r0 : State} {e : Fin 2} {forLog : Bool} {total : Nat} {dst : Nat} {cap : Nat} {s : State} (hM : Sub 8192 ms) (hK : Keeps ms r0 s) :
    Keeps ms r0 (openEnc e forLog total dst cap s) := by
  unfold openEnc
  try dsimp only
  repeat' (first
    | with_reducible assumption
    | exact hM.trans rfl
    | with_reducible apply modEnc_keeps
    | intro _
    | split)

theorem pushEnc_keeps {ms : Nat} {r0 : State} {e : Fin 2} {bs : List Byte} {s : State} (hM : Sub 8704 ms) (hK : Keeps ms r0 s) :
    Keeps ms r0 (pushEnc e bs s) := by
  unfold pushEnc
  try dsimp only
  repeat' (first
    | with_reducible assumption
    | exact hM.trans rfl
    | with_reducible apply takeTally_keeps
    | with_reducible apply modEnc_keeps
    | intro _
    | split)

theorem lineUe_keeps {ms : Nat} {r0 : State} {s : State} (hM : Sub 3157522 ms) (hK : Keeps ms r0 s) :
    Keeps ms r0 (lineUe s) := by
  unfold lineUe
  try dsimp only
  repeat' (first
    | with_reducible assumption
    | exact hM.trans rfl
    | with_reducible apply useFree_keeps
    | with_reducible apply landUe_keeps
    | intro _
    | split)

theorem encodeStep_keeps {ms : Nat} {r0 : State} {e : Fin 2} {b : List Byte} {rest : List (List Byte)} {poison : Bool} {s : State} (hM : Sub 3161618 ms) (hK : Keeps ms r0 s) :
    Keeps ms r0 (encodeStep e b rest poison s) := by
  unfold encodeStep
  try dsimp only
  repeat' (first
    | with_reducible assumption
    | exact hM.trans rfl
    | with_reducible apply retTally_keeps
    | with_reducible apply modEnc_keeps
    | with_reducible apply lineUe_keeps
    | with_reducible apply encError_keeps
    | with_reducible apply localWrite_keeps
    | intro _
    | split)

end Sys2Proof.Machine
end

