-- ==== Sys2Proof/Laws/KeepsBands.lean ====
section
/-!
SUPPORT. Machine/Bands.lean: each operation keeps what no command takes back (Laws/Keeps.lean).
-/

namespace Sys2Proof.Machine

set_option linter.all false

theorem fillBand_keeps {ms : Nat} {r0 : State} {e : Engine} {b : Band} {desc : List Byte} {s : State} (hM : Sub 8192 ms) (hK : Keeps ms r0 s) :
    Keeps ms r0 (fillBand e b desc s) := by
  unfold fillBand
  try dsimp only
  repeat' (first
    | with_reducible assumption
    | exact hM.trans rfl
    | apply memWrite_wf
    | with_reducible apply modRast_keeps
    | with_reducible apply openDec_keeps
    | exact fun (_ : Rast) g => g
    | exact fun (_ : Rast) g => memWrite_wf _ _ _ g
    | intro _
    | split)

theorem stageBand_keeps {ms : Nat} {r0 : State} {e : Engine} {g : Page} {slot : Nat} {desc : Option (List Byte)} {s : State} (hM : Sub 2107392 ms) (hK : Keeps ms r0 s) :
    Keeps ms r0 (stageBand e g slot desc s) := by
  unfold stageBand
  try dsimp only
  repeat' (first
    | with_reducible assumption
    | exact hM.trans rfl
    | with_reducible apply useFree_keeps
    | with_reducible apply modPage_keeps
    | with_reducible apply modRast_keeps
    | with_reducible apply fillBand_keeps
    | exact fun (_ : Rast) g => g
    | intro _
    | split)

theorem execBandStage_keeps {ms : Nat} {r0 : State} {g : Engine} {desc : Option (List Byte)} {s : State} (hM : Sub 2107392 ms) (hK : Keeps ms r0 s) :
    KeepsO ms r0 (execBandStage g desc s) := by
  unfold execBandStage
  try dsimp only
  repeat' (first
    | with_reducible assumption
    | exact hM.trans rfl
    | with_reducible apply keepsO_next
    | with_reducible apply stageBand_keeps
    | with_reducible apply keepsO_fault
    | split
    | intro _
    | split)

theorem bandEvent_keeps {ms : Nat} {r0 : State} {e : Engine} {starve : Bool} {panel : Nat} {x : Nat} {no : Nat} {tamp : Nat} {s : State} (hM : Sub 1052162 ms) (hK : Keeps ms r0 s) :
    Keeps ms r0 (bandEvent e starve panel x no tamp s) := by
  unfold bandEvent
  try dsimp only
  repeat' (first
    | with_reducible assumption
    | exact hM.trans rfl
    | with_reducible apply engine_keeps
    | intro _
    | split)

theorem bandFail_keeps {ms : Nat} {r0 : State} {e : Engine} {b : Band} {cause : Nat} {s : State} (hM : Sub 1052162 ms) (hK : Keeps ms r0 s) :
    Keeps ms r0 (bandFail e b cause s) := by
  unfold bandFail
  try dsimp only
  repeat' (first
    | with_reducible assumption
    | exact hM.trans rfl
    | with_reducible apply bandEvent_keeps
    | with_reducible apply modPage_keeps
    | intro _
    | split)

theorem blankLine_keeps {ms : Nat} {r0 : State} {e : Engine} {handle : Word} {s : State} (hM : Sub 149504 ms) (hK : Keeps ms r0 s) :
    Keeps ms r0 (blankLine e handle s) := by
  unfold blankLine
  try dsimp only
  repeat' (first
    | with_reducible assumption
    | exact hM.trans rfl
    | with_reducible apply modPage_keeps
    | with_reducible apply modStn_keeps
    | with_reducible apply modHead_keeps
    | intro _
    | split)

theorem starveLine_keeps {ms : Nat} {r0 : State} {e : Engine} {g : Page} {k : Nat} {s : State} (hM : Sub 3304962 ms) (hK : Keeps ms r0 s) :
    Keeps ms r0 (starveLine e g k s) := by
  unfold starveLine
  try dsimp only
  repeat' (first
    | with_reducible assumption
    | exact hM.trans rfl
    | with_reducible apply modPage_keeps
    | with_reducible apply useFree_keeps
    | with_reducible apply modStn_keeps
    | with_reducible apply modHead_keeps
    | with_reducible apply bandEvent_keeps
    | with_reducible apply modRast_keeps
    | exact fun (_ : Rast) g => g
    | intro _
    | split)

theorem bandUe_keeps {ms : Nat} {r0 : State} {e : Engine} {b : Band} {k : Nat} {s : State} (hM : Sub 1060370 ms) (hK : Keeps ms r0 s) :
    Keeps ms r0 (bandUe e b k s) := by
  unfold bandUe
  try dsimp only
  repeat' (first
    | with_reducible assumption
    | exact hM.trans rfl
    | with_reducible apply bandFail_keeps
    | with_reducible apply landUe_keeps
    | with_reducible apply modRast_keeps
    | exact fun (_ : Rast) g => g
    | intro _
    | split)

theorem lineData_keeps {ms : Nat} {r0 : State} {e : Engine} {g : Page} {k : Nat} {ecc : Ecc} {s : State} (hM : Sub 3304978 ms) (hK : Keeps ms r0 s) :
    Keeps ms r0 (lineData e g k ecc s).2 := by
  unfold lineData
  try dsimp only
  repeat' (first
    | with_reducible assumption
    | exact hM.trans rfl
    | with_reducible apply bandUe_keeps
    | with_reducible apply starveLine_keeps
    | with_reducible apply blankLine_keeps
    | with_reducible apply landCorrected_keeps
    | dsimp only
    | intro _
    | split)

theorem dropBand_keeps {ms : Nat} {r0 : State} {e : Engine} {b : Band} {s : State} (hM : Sub 8704 ms) (hK : Keeps ms r0 s) :
    Keeps ms r0 (dropBand e b s) := by
  unfold dropBand
  try dsimp only
  repeat' (first
    | with_reducible assumption
    | exact hM.trans rfl
    | with_reducible apply retTally_keeps
    | with_reducible apply modRast_keeps
    | exact fun (_ : Rast) g => g
    | intro _
    | split)

theorem pushBand_keeps {ms : Nat} {r0 : State} {e : Engine} {b : Band} {s : State} (hM : Sub 8704 ms) (hK : Keeps ms r0 s) :
    Keeps ms r0 (pushBand e b s) := by
  unfold pushBand
  try dsimp only
  repeat' (first
    | with_reducible assumption
    | exact hM.trans rfl
    | with_reducible apply modRast_keeps
    | with_reducible apply takeTally_keeps
    | with_reducible apply retTally_keeps
    | exact fun (_ : Rast) g => g
    | intro _
    | split)

theorem tellBand_keeps {ms : Nat} {r0 : State} {e : Engine} {b : Band} {s : State} (hM : Sub 1060354 ms) (hK : Keeps ms r0 s) :
    Keeps ms r0 (tellBand e b s) := by
  unfold tellBand
  try dsimp only
  repeat' (first
    | with_reducible assumption
    | exact hM.trans rfl
    | with_reducible apply bandFail_keeps
    | with_reducible apply rejectWithPartner_keeps
    | intro _
    | split)

theorem execBandCheckDone_keeps {ms : Nat} {r0 : State} {g : Engine} {s : State} (hM : Sub 1060354 ms) (hK : Keeps ms r0 s) :
    KeepsO ms r0 (execBandCheckDone g s) := by
  unfold execBandCheckDone
  try dsimp only
  repeat' (first
    | with_reducible assumption
    | exact hM.trans rfl
    | with_reducible apply keepsO_next
    | with_reducible apply tellBand_keeps
    | with_reducible apply pushBand_keeps
    | with_reducible apply keepsO_fault
    | split
    | intro _
    | split)

theorem endPage_keeps {ms : Nat} {r0 : State} {g : Page} {s : State} (hM : Sub 10752 ms) (hK : Keeps ms r0 s) :
    Keeps ms r0 (endPage g s) := by
  unfold endPage
  try dsimp only
  repeat' (first
    | with_reducible assumption
    | exact hM.trans rfl
    | with_reducible apply forEach_keeps
    | with_reducible apply releaseEngine_keeps
    | with_reducible apply modPage_keeps
    | intro _
    | split)

theorem endPages_keeps {ms : Nat} {r0 : State} {s : State} (hM : Sub 10752 ms) (hK : Keeps ms r0 s) :
    Keeps ms r0 (endPages s) := by
  unfold endPages
  try dsimp only
  repeat' (first
    | with_reducible assumption
    | exact hM.trans rfl
    | with_reducible apply forEach_keeps
    | with_reducible apply endPage_keeps
    | intro _
    | split)

end Sys2Proof.Machine
end

