-- ==== Sys2Proof/Laws/KeepsBeam.lean ====
section
/-!
SUPPORT. Machine/Beam.lean: each operation keeps what no command takes back (Laws/Keeps.lean).
-/

namespace Sys2Proof.Machine

set_option linter.all false

theorem polyFall_keeps {ms : Nat} {r0 : State} {n : Station} {s : State} (hM : Sub 1306114 ms) (hK : Keeps ms r0 s) :
    Keeps ms r0 (polyFall n s) := by
  unfold polyFall
  try dsimp only
  repeat' (first
    | with_reducible assumption
    | exact hM.trans rfl
    | with_reducible apply engine_keeps
    | with_reducible apply stationFault_keeps
    | intro _
    | split)

theorem syncPolyOne_keeps {ms : Nat} {r0 : State} {n : Station} {s : State} (hM : Sub 1306114 ms) (hK : Keeps ms r0 s) :
    Keeps ms r0 (syncPolyOne n s) := by
  unfold syncPolyOne
  try dsimp only
  repeat' (first
    | with_reducible assumption
    | exact hM.trans rfl
    | with_reducible apply modStn_keeps
    | with_reducible apply polyFall_keeps
    | intro _
    | split)

theorem syncPoly_keeps {ms : Nat} {r0 : State} {s : State} (hM : Sub 1306114 ms) (hK : Keeps ms r0 s) :
    Keeps ms r0 (syncPoly s) := by
  unfold syncPoly
  try dsimp only
  repeat' (first
    | with_reducible assumption
    | exact hM.trans rfl
    | with_reducible apply forEach_keeps
    | with_reducible apply syncPolyOne_keeps
    | intro _
    | split)

theorem withPoly_keeps {ms : Nat} {r0 : State} {f : State → State} {s : State} (hf : ∀  s, Keeps ms r0 s → Keeps ms r0 (f  s)) (hM : Sub 1306114 ms) (hK : Keeps ms r0 s) :
    Keeps ms r0 (withPoly f s) := by
  unfold withPoly
  try dsimp only
  repeat' (first
    | with_reducible assumption
    | exact hM.trans rfl
    | with_reducible apply hf
    | with_reducible apply hf
    | with_reducible apply hf
    | with_reducible apply hf
    | with_reducible apply hf
    | with_reducible apply hf
    | with_reducible apply hf
    | with_reducible apply hf
    | with_reducible apply syncPoly_keeps
    | intro _
    | split)

theorem setRef_keeps {ms : Nat} {r0 : State} {n : Station} {e : Nat} {s : State} (hM : Sub 16384 ms) (hK : Keeps ms r0 s) :
    Keeps ms r0 (setRef n e s) := by
  unfold setRef
  try dsimp only
  repeat' (first
    | with_reducible assumption
    | exact hM.trans rfl
    | with_reducible apply modStn_keeps
    | intro _
    | split)

theorem closeScan_keeps {ms : Nat} {r0 : State} {n : Station} {s : State} (hM : Sub 27136 ms) (hK : Keeps ms r0 s) :
    Keeps ms r0 (closeScan n s) := by
  unfold closeScan
  try dsimp only
  repeat' (first
    | with_reducible assumption
    | exact hM.trans rfl
    | with_reducible apply endPages_keeps
    | with_reducible apply cutScan_keeps
    | intro _
    | split)

theorem fireRun_keeps {ms : Nat} {r0 : State} {n : Station} {page : Option Word} {s : State} (hM : Sub 27136 ms) (hK : Keeps ms r0 s) :
    Keeps ms r0 (fireRun n page s) := by
  unfold fireRun
  try dsimp only
  repeat' (first
    | with_reducible assumption
    | exact hM.trans rfl
    | with_reducible apply closeScan_keeps
    | with_reducible apply modStn_keeps
    | with_reducible apply modPages_keeps
    | intro _
    | split)

theorem fireCount_keeps {ms : Nat} {r0 : State} {n : Station} {code : Nat} {s : State} (hM : Sub 16384 ms) (hK : Keeps ms r0 s) :
    Keeps ms r0 (fireCount n code s) := by
  unfold fireCount
  try dsimp only
  repeat' (first
    | with_reducible assumption
    | exact hM.trans rfl
    | with_reducible apply modStn_keeps
    | intro _
    | split)

theorem execBdWindowExpire_keeps {ms : Nat} {r0 : State} {n : Station} {s : State} (hM : Sub 18433 ms) (hK : Keeps ms r0 s) :
    KeepsO ms r0 (execBdWindowExpire n s) := by
  unfold execBdWindowExpire
  try dsimp only
  repeat' (first
    | with_reducible assumption
    | exact hM.trans rfl
    | with_reducible apply keepsO_next
    | with_reducible apply setRef_keeps
    | with_reducible apply modStn_keeps
    | with_reducible apply etTo_keeps
    | with_reducible apply keepsO_fault
    | split
    | intro _
    | split)

theorem beamLine_keeps {ms : Nat} {r0 : State} {n : Station} {b : Beam} {ecc : Ecc} {sc : Scan} {e : Nat} {s : State} (hM : Sub 3304978 ms) (hK : Keeps ms r0 s) :
    Keeps ms r0 (beamLine n b ecc sc e s) := by
  unfold beamLine
  try dsimp only
  repeat' (first
    | with_reducible assumption
    | exact hM.trans rfl
    | with_reducible apply lineData_keeps
    | with_reducible apply emit_keeps
    | intro _
    | split)

theorem execBeamLineStart_keeps {ms : Nat} {r0 : State} {n : Station} {b : Beam} {ecc : Ecc} {s : State} (hM : Sub 3304979 ms) (hK : Keeps ms r0 s) :
    KeepsO ms r0 (execBeamLineStart n b ecc s) := by
  unfold execBeamLineStart
  try dsimp only
  repeat' (first
    | with_reducible assumption
    | exact hM.trans rfl
    | with_reducible apply keepsO_next
    | with_reducible apply etTo_keeps
    | with_reducible apply modStn_keeps
    | with_reducible apply beamLine_keeps
    | with_reducible apply keepsO_fault
    | split
    | intro _
    | split)

theorem execBandRelease_keeps {ms : Nat} {r0 : State} {n : Station} {s : State} (hM : Sub 10753 ms) (hK : Keeps ms r0 s) :
    KeepsO ms r0 (execBandRelease n s) := by
  unfold execBandRelease
  try dsimp only
  repeat' (first
    | with_reducible assumption
    | exact hM.trans rfl
    | with_reducible apply keepsO_next
    | with_reducible apply dropBand_keeps
    | with_reducible apply etTo_keeps
    | with_reducible apply keepsO_fault
    | split
    | intro _
    | split)

theorem apcLit_keeps {ms : Nat} {r0 : State} {n : Station} {b : Beam} {t : Nat} {s : State} (hM : Sub 1048576 ms) (hK : Keeps ms r0 s) :
    Keeps ms r0 (apcLit n b t s) := by
  unfold apcLit
  try dsimp only
  repeat' (first
    | with_reducible assumption
    | exact hM.trans rfl
    | with_reducible apply emit_keeps
    | intro _
    | split)

theorem apcTake_keeps {ms : Nat} {r0 : State} {n : Station} {b : Beam} {pd : BitVec 12} {s : State} (hM : Sub 1068546 ms) (hK : Keeps ms r0 s) :
    Keeps ms r0 (apcTake n b pd s) := by
  unfold apcTake
  try dsimp only
  repeat' (first
    | with_reducible assumption
    | exact hM.trans rfl
    | with_reducible apply modStn_keeps
    | with_reducible apply engine_keeps
    | intro _
    | split)

theorem calCheck_keeps {ms : Nat} {r0 : State} {n : Station} {s : State} (hM : Sub 1068546 ms) (hK : Keeps ms r0 s) :
    Keeps ms r0 (calCheck n s) := by
  unfold calCheck
  try dsimp only
  repeat' (first
    | with_reducible assumption
    | exact hM.trans rfl
    | with_reducible apply engine_keeps
    | with_reducible apply modStn_keeps
    | intro _
    | split)

theorem scanCheck_keeps {ms : Nat} {r0 : State} {n : Station} {s : State} (hM : Sub 27136 ms) (hK : Keeps ms r0 s) :
    Keeps ms r0 (scanCheck n s) := by
  unfold scanCheck
  try dsimp only
  repeat' (first
    | with_reducible assumption
    | exact hM.trans rfl
    | with_reducible apply closeScan_keeps
    | intro _
    | split)

theorem apcScan_keeps {ms : Nat} {r0 : State} {n : Station} {b : Beam} {pd : BitVec 12} {sc : Scan} {e : Nat} {s : State} (hM : Sub 1076739 ms) (hK : Keeps ms r0 s) :
    Keeps ms r0 (apcScan n b pd sc e s) := by
  unfold apcScan
  try dsimp only
  repeat' (first
    | with_reducible assumption
    | exact hM.trans rfl
    | with_reducible apply apcLit_keeps
    | with_reducible apply etTo_keeps
    | with_reducible apply scanCheck_keeps
    | with_reducible apply modStn_keeps
    | with_reducible apply apcTake_keeps
    | intro _
    | split)

theorem apcCal_keeps {ms : Nat} {r0 : State} {n : Station} {b : Beam} {pd : BitVec 12} {f : CalFacet} {s : State} (hM : Sub 1068547 ms) (hK : Keeps ms r0 s) :
    Keeps ms r0 (apcCal n b pd f s) := by
  unfold apcCal
  try dsimp only
  repeat' (first
    | with_reducible assumption
    | exact hM.trans rfl
    | with_reducible apply apcLit_keeps
    | with_reducible apply etTo_keeps
    | with_reducible apply calCheck_keeps
    | with_reducible apply modStn_keeps
    | with_reducible apply apcTake_keeps
    | intro _
    | split)

theorem execApcSample_keeps {ms : Nat} {r0 : State} {n : Station} {b : Beam} {pd : BitVec 12} {s : State} (hM : Sub 1076739 ms) (hK : Keeps ms r0 s) :
    KeepsO ms r0 (execApcSample n b pd s) := by
  unfold execApcSample
  try dsimp only
  repeat' (first
    | with_reducible assumption
    | exact hM.trans rfl
    | with_reducible apply keepsO_next
    | with_reducible apply apcCal_keeps
    | with_reducible apply apcScan_keeps
    | with_reducible apply keepsO_fault
    | split
    | intro _
    | split)

theorem execApcOvp_keeps {ms : Nat} {r0 : State} {n : Station} {b : Beam} {s : State} (hM : Sub 1306114 ms) (hK : Keeps ms r0 s) :
    KeepsO ms r0 (execApcOvp n b s) := by
  unfold execApcOvp
  try dsimp only
  repeat' (first
    | with_reducible assumption
    | exact hM.trans rfl
    | with_reducible apply keepsO_next
    | with_reducible apply whenS_keeps
    | with_reducible apply engine_keeps
    | with_reducible apply stationFault_keeps
    | with_reducible apply keepsO_fault
    | split
    | intro _
    | split)

theorem execCalTimeout_keeps {ms : Nat} {r0 : State} {n : Station} {s : State} (hM : Sub 1306114 ms) (hK : Keeps ms r0 s) :
    KeepsO ms r0 (execCalTimeout n s) := by
  unfold execCalTimeout
  try dsimp only
  repeat' (first
    | with_reducible assumption
    | exact hM.trans rfl
    | with_reducible apply keepsO_next
    | with_reducible apply whenS_keeps
    | with_reducible apply stationFault_keeps
    | with_reducible apply keepsO_fault
    | split
    | intro _
    | split)

theorem stationEdgeOne_keeps {ms : Nat} {r0 : State} {t : Trk} {x : Nat} {n : Station} {s : State} (hM : Sub 16384 ms) (hK : Keeps ms r0 s) :
    Keeps ms r0 (stationEdgeOne t x n s) := by
  unfold stationEdgeOne
  try dsimp only
  repeat' (first
    | with_reducible assumption
    | exact hM.trans rfl
    | with_reducible apply setRef_keeps
    | with_reducible apply modStn_keeps
    | intro _
    | split)

theorem stationEdge_keeps {ms : Nat} {r0 : State} {t : Trk} {x : Nat} {s : State} (hM : Sub 16384 ms) (hK : Keeps ms r0 s) :
    Keeps ms r0 (stationEdge t x s) := by
  unfold stationEdge
  try dsimp only
  repeat' (first
    | with_reducible assumption
    | exact hM.trans rfl
    | with_reducible apply forEach_keeps
    | with_reducible apply stationEdgeOne_keeps
    | intro _
    | split)

theorem beamErr_keeps {ms : Nat} {r0 : State} {n : Station} {code : Nat} {s : State} (hM : Sub 16384 ms) (hK : Keeps ms r0 s) :
    Keeps ms r0 (beamErr n code s) := by
  unfold beamErr
  try dsimp only
  repeat' (first
    | with_reducible assumption
    | exact hM.trans rfl
    | with_reducible apply modStn_keeps
    | intro _
    | split)

theorem beamOnOp_keeps {ms : Nat} {r0 : State} {n : Station} {s : State} (hM : Sub 1306114 ms) (hK : Keeps ms r0 s) :
    Keeps ms r0 (beamOnOp n s) := by
  unfold beamOnOp
  try dsimp only
  repeat' (first
    | with_reducible assumption
    | exact hM.trans rfl
    | with_reducible apply beamErr_keeps
    | with_reducible apply syncPoly_keeps
    | with_reducible apply modStn_keeps
    | intro _
    | split)

theorem beamOffOp_keeps {ms : Nat} {r0 : State} {n : Station} {s : State} (hM : Sub 1306114 ms) (hK : Keeps ms r0 s) :
    Keeps ms r0 (beamOffOp n s) := by
  unfold beamOffOp
  try dsimp only
  repeat' (first
    | with_reducible assumption
    | exact hM.trans rfl
    | with_reducible apply abortEnginePages_keeps
    | with_reducible apply modStn_keeps
    | with_reducible apply cutScan_keeps
    | intro _
    | split)

theorem beamRecalOp_keeps {ms : Nat} {r0 : State} {n : Station} {s : State} (hM : Sub 1306114 ms) (hK : Keeps ms r0 s) :
    Keeps ms r0 (beamRecalOp n s) := by
  unfold beamRecalOp
  try dsimp only
  repeat' (first
    | with_reducible assumption
    | exact hM.trans rfl
    | with_reducible apply beamErr_keeps
    | with_reducible apply syncPoly_keeps
    | with_reducible apply modStn_keeps
    | with_reducible apply cutScan_keeps
    | intro _
    | split)

theorem beamCmd_keeps {ms : Nat} {r0 : State} {n : Station} {v : Word} {s : State} (hM : Sub 1306114 ms) (hK : Keeps ms r0 s) :
    Keeps ms r0 (beamCmd n v s) := by
  unfold beamCmd
  try dsimp only
  repeat' (first
    | with_reducible assumption
    | exact hM.trans rfl
    | with_reducible apply beamOnOp_keeps
    | with_reducible apply beamOffOp_keeps
    | with_reducible apply beamRecalOp_keeps
    | intro _
    | split)

theorem execBeamOn_keeps {ms : Nat} {r0 : State} {n : Station} {s : State} (hM : Sub 1306114 ms) (hK : Keeps ms r0 s) :
    KeepsO ms r0 (execBeamOn n s) := by
  unfold execBeamOn
  try dsimp only
  repeat' (first
    | with_reducible assumption
    | exact hM.trans rfl
    | with_reducible apply keepsO_next
    | with_reducible apply whenS_keeps
    | with_reducible apply beamOnOp_keeps
    | with_reducible apply keepsO_fault
    | split
    | intro _
    | split)

theorem execBeamOff_keeps {ms : Nat} {r0 : State} {n : Station} {s : State} (hM : Sub 1306114 ms) (hK : Keeps ms r0 s) :
    KeepsO ms r0 (execBeamOff n s) := by
  unfold execBeamOff
  try dsimp only
  repeat' (first
    | with_reducible assumption
    | exact hM.trans rfl
    | with_reducible apply keepsO_next
    | with_reducible apply whenS_keeps
    | with_reducible apply beamOffOp_keeps
    | with_reducible apply keepsO_fault
    | split
    | intro _
    | split)

theorem execBeamRecal_keeps {ms : Nat} {r0 : State} {n : Station} {s : State} (hM : Sub 1306114 ms) (hK : Keeps ms r0 s) :
    KeepsO ms r0 (execBeamRecal n s) := by
  unfold execBeamRecal
  try dsimp only
  repeat' (first
    | with_reducible assumption
    | exact hM.trans rfl
    | with_reducible apply keepsO_next
    | with_reducible apply whenS_keeps
    | with_reducible apply beamRecalOp_keeps
    | with_reducible apply keepsO_fault
    | split
    | intro _
    | split)

end Sys2Proof.Machine
end

