-- ==== Sys2Proof/Laws/KeepsLoops.lean ====
section
/-!
SUPPORT. Machine/Loops.lean: each operation keeps what no command takes back (Laws/Keeps.lean).
-/

namespace Sys2Proof.Machine

set_option linter.all false

theorem noteInput_keeps {ms : Nat} {r0 : State} {x : LoopS} {m : BitVec 16} {s : State} (hM : Sub 65536 ms) (hK : Keeps ms r0 s) :
    Keeps ms r0 (noteInput x m s) := by
  unfold noteInput
  try dsimp only
  repeat' (first
    | with_reducible assumption
    | exact hM.trans rfl
    | intro _
    | split
    | with_reducible apply keeps_loops)

theorem lockStep_keeps {ms : Nat} {r0 : State} {l : LoopId} {s : State} (hM : Sub 1117698 ms) (hK : Keeps ms r0 s) :
    Keeps ms r0 (lockStep l s) := by
  unfold lockStep
  try dsimp only
  repeat' (first
    | with_reducible assumption
    | exact hM.trans rfl
    | with_reducible apply engine_keeps
    | with_reducible apply modLoop_keeps
    | intro _
    | split)

theorem trailStep_keeps {ms : Nat} {r0 : State} {l : LoopId} {s : State} (hM : Sub 1289746 ms) (hK : Keeps ms r0 s) :
    Keeps ms r0 (trailStep l s) := by
  unfold trailStep
  try dsimp only
  repeat' (first
    | with_reducible assumption
    | exact hM.trans rfl
    | with_reducible apply hvShort_keeps
    | with_reducible apply modLoop_keeps
    | intro _
    | split)

theorem sampleOp_keeps {ms : Nat} {r0 : State} {l : LoopId} {m : BitVec 16} {s : State} (hM : Sub 1289747 ms) (hK : Keeps ms r0 s) :
    Keeps ms r0 (sampleOp l m s) := by
  unfold sampleOp
  try dsimp only
  repeat' (first
    | with_reducible assumption
    | exact hM.trans rfl
    | with_reducible apply noteInput_keeps
    | with_reducible apply etTo_keeps
    | with_reducible apply modLoop_keeps
    | with_reducible apply trailStep_keeps
    | with_reducible apply lockStep_keeps
    | with_reducible apply retTally_keeps
    | intro _
    | split)

theorem lateSample_keeps {ms : Nat} {r0 : State} {l : LoopId} {m : BitVec 16} {s : State} (hM : Sub 1289746 ms) (hK : Keeps ms r0 s) :
    Keeps ms r0 (lateSample l m s) := by
  unfold lateSample
  try dsimp only
  repeat' (first
    | with_reducible assumption
    | exact hM.trans rfl
    | with_reducible apply trailStep_keeps
    | with_reducible apply modLoop_keeps
    | with_reducible apply noteInput_keeps
    | intro _
    | split)

theorem execLoopSample_keeps {ms : Nat} {r0 : State} {l : LoopId} {m : BitVec 16} {s : State} (hM : Sub 1289747 ms) (hK : Keeps ms r0 s) :
    KeepsO ms r0 (execLoopSample l m s) := by
  unfold execLoopSample
  try dsimp only
  repeat' (first
    | with_reducible assumption
    | exact hM.trans rfl
    | with_reducible apply keepsO_next
    | with_reducible apply sampleOp_keeps
    | with_reducible apply lateSample_keeps
    | with_reducible apply keepsO_fault
    | split
    | intro _
    | split)

theorem noteDuty_keeps {ms : Nat} {r0 : State} {x : LoopS} {u : BitVec 16} {s : State} (hM : Sub 32768 ms) (hK : Keeps ms r0 s) :
    Keeps ms r0 (noteDuty x u s) := by
  unfold noteDuty
  try dsimp only
  repeat' (first
    | with_reducible assumption
    | exact hM.trans rfl
    | with_reducible apply modBldc_keeps
    | intro _
    | split)

theorem outputOp_keeps {ms : Nat} {r0 : State} {l : LoopId} {u : BitVec 16} {s : State} (hM : Sub 116737 ms) (hK : Keeps ms r0 s) :
    Keeps ms r0 (outputOp l u s) := by
  unfold outputOp
  try dsimp only
  repeat' (first
    | with_reducible assumption
    | exact hM.trans rfl
    | with_reducible apply etTo_keeps
    | with_reducible apply noteDuty_keeps
    | with_reducible apply modLoop_keeps
    | with_reducible apply modStn_keeps
    | intro _
    | split)

theorem execLoopOutput_keeps {ms : Nat} {r0 : State} {l : LoopId} {s : State} (hM : Sub 116737 ms) (hK : Keeps ms r0 s) :
    KeepsO ms r0 (execLoopOutput l s) := by
  unfold execLoopOutput
  try dsimp only
  repeat' (first
    | with_reducible assumption
    | exact hM.trans rfl
    | with_reducible apply keepsO_next
    | with_reducible apply outputOp_keeps
    | with_reducible apply keepsO_fault
    | split
    | intro _
    | split)

theorem loopOnRun_keeps {ms : Nat} {r0 : State} {l : LoopId} {g : Gains} {c : Chan} {s : State} (hM : Sub 65536 ms) (hK : Keeps ms r0 s) :
    Keeps ms r0 (loopOnRun l g c s) := by
  unfold loopOnRun
  try dsimp only
  repeat' (first
    | with_reducible assumption
    | exact hM.trans rfl
    | with_reducible apply modZone_keeps
    | with_reducible apply modLoop_keeps
    | intro _
    | split)

theorem pushSp_keeps {ms : Nat} {r0 : State} {l : LoopId} {e : SpEntry} {s : State} (hM : Sub 65536 ms) (hK : Keeps ms r0 s) :
    Keeps ms r0 (pushSp l e s) := by
  unfold pushSp
  try dsimp only
  repeat' (first
    | with_reducible assumption
    | exact hM.trans rfl
    | with_reducible apply modLoop_keeps
    | intro _
    | split)

theorem execHvIlim_keeps {ms : Nat} {r0 : State} {l : LoopId} {s : State} (hM : Sub 1289746 ms) (hK : Keeps ms r0 s) :
    KeepsO ms r0 (execHvIlim l s) := by
  unfold execHvIlim
  try dsimp only
  repeat' (first
    | with_reducible assumption
    | exact hM.trans rfl
    | with_reducible apply keepsO_next
    | with_reducible apply whenS_keeps
    | with_reducible apply hvShort_keeps
    | with_reducible apply keepsO_fault
    | split
    | intro _
    | split)

theorem coolEnd_keeps {ms : Nat} {r0 : State} {l : LoopId} {s : State} (hM : Sub 1117699 ms) (hK : Keeps ms r0 s) :
    Keeps ms r0 (coolEnd l s) := by
  unfold coolEnd
  try dsimp only
  repeat' (first
    | with_reducible assumption
    | exact hM.trans rfl
    | with_reducible apply etTo_keeps
    | with_reducible apply modLoop_keeps
    | with_reducible apply engine_keeps
    | intro _
    | split)

theorem execHvCoolExpire_keeps {ms : Nat} {r0 : State} {l : LoopId} {s : State} (hM : Sub 1117699 ms) (hK : Keeps ms r0 s) :
    KeepsO ms r0 (execHvCoolExpire l s) := by
  unfold execHvCoolExpire
  try dsimp only
  repeat' (first
    | with_reducible assumption
    | exact hM.trans rfl
    | with_reducible apply keepsO_next
    | with_reducible apply whenS_keeps
    | with_reducible apply coolEnd_keeps
    | with_reducible apply keepsO_fault
    | split
    | intro _
    | split)

theorem noteZc_keeps {ms : Nat} {r0 : State} {s : State} (hM : Sub 65536 ms) (hK : Keeps ms r0 s) :
    Keeps ms r0 (noteZc s) := by
  unfold noteZc
  try dsimp only
  repeat' (first
    | with_reducible assumption
    | exact hM.trans rfl
    | intro _
    | split
    | with_reducible apply keeps_loops)

theorem zoneFire_keeps {ms : Nat} {r0 : State} {z : Zone} {acc : Option Nat} {may : Bool} {s : State} (hM : Sub 65536 ms) (hK : Keeps ms r0 s) :
    Keeps ms r0 (zoneFire z acc may s) := by
  unfold zoneFire
  try dsimp only
  repeat' (first
    | with_reducible assumption
    | exact hM.trans rfl
    | with_reducible apply modZone_keeps
    | intro _
    | split)

theorem execZeroCrossing_keeps {ms : Nat} {r0 : State} {s : State} (hM : Sub 65536 ms) (hK : Keeps ms r0 s) :
    KeepsO ms r0 (execZeroCrossing s) := by
  unfold execZeroCrossing
  try dsimp only
  repeat' (first
    | with_reducible assumption
    | exact hM.trans rfl
    | with_reducible apply keepsO_next
    | with_reducible apply whenS_keeps
    | with_reducible apply noteZc_keeps
    | with_reducible apply zoneFire_keeps
    | with_reducible apply keepsO_fault
    | split
    | intro _
    | split)

theorem execHeaterBurst_keeps {ms : Nat} {r0 : State} {z : Zone} {s : State} (hM : Sub 1116161 ms) (hK : Keeps ms r0 s) :
    KeepsO ms r0 (execHeaterBurst z s) := by
  unfold execHeaterBurst
  try dsimp only
  repeat' (first
    | with_reducible assumption
    | exact hM.trans rfl
    | with_reducible apply keepsO_next
    | with_reducible apply modZone_keeps
    | with_reducible apply timeTo_keeps
    | with_reducible apply emit_keeps
    | with_reducible apply keepsO_fault
    | split
    | intro _
    | split)

theorem zoneCheck_keeps {ms : Nat} {r0 : State} {raw : Vector (BitVec 12) 8} {z : Zone} {s : State} (hM : Sub 1289746 ms) (hK : Keeps ms r0 s) :
    Keeps ms r0 (zoneCheck raw z s) := by
  unfold zoneCheck
  try dsimp only
  repeat' (first
    | with_reducible assumption
    | exact hM.trans rfl
    | with_reducible apply modZone_keeps
    | with_reducible apply zoneFault_keeps
    | intro _
    | split)

theorem execFuserCheck_keeps {ms : Nat} {r0 : State} {raw : Vector (BitVec 12) 8} {s : State} (hM : Sub 1289747 ms) (hK : Keeps ms r0 s) :
    KeepsO ms r0 (execFuserCheck raw s) := by
  unfold execFuserCheck
  try dsimp only
  repeat' (first
    | with_reducible assumption
    | exact hM.trans rfl
    | with_reducible apply keepsO_next
    | with_reducible apply whenS_keeps
    | with_reducible apply forEach_keeps
    | with_reducible apply zoneCheck_keeps
    | with_reducible apply timeTo_keeps
    | with_reducible apply keepsO_fault
    | split
    | intro _
    | split)

theorem loopErr_keeps {ms : Nat} {r0 : State} {l : LoopId} {s : State} (hM : Sub 65536 ms) (hK : Keeps ms r0 s) :
    Keeps ms r0 (loopErr l s) := by
  unfold loopErr
  try dsimp only
  repeat' (first
    | with_reducible assumption
    | exact hM.trans rfl
    | with_reducible apply modLoop_keeps
    | intro _
    | split)

theorem loopClrOp_keeps {ms : Nat} {r0 : State} {l : LoopId} {s : State} (hM : Sub 65536 ms) (hK : Keeps ms r0 s) :
    Keeps ms r0 (loopClrOp l s) := by
  unfold loopClrOp
  try dsimp only
  repeat' (first
    | with_reducible assumption
    | exact hM.trans rfl
    | with_reducible apply modLoop_keeps
    | with_reducible apply loopErr_keeps
    | with_reducible apply modZone_keeps
    | intro _
    | split)

theorem loopOffCmd_keeps {ms : Nat} {r0 : State} {l : LoopId} {s : State} (hM : Sub 66048 ms) (hK : Keeps ms r0 s) :
    Keeps ms r0 (loopOffCmd l s) := by
  unfold loopOffCmd
  try dsimp only
  repeat' (first
    | with_reducible assumption
    | exact hM.trans rfl
    | with_reducible apply loopIdle_keeps
    | with_reducible apply loopErr_keeps
    | intro _
    | split)

theorem loopCmd_keeps {ms : Nat} {r0 : State} {l : LoopId} {v : Word} {s : State} (hM : Sub 66048 ms) (hK : Keeps ms r0 s) :
    Keeps ms r0 (loopCmd l v s) := by
  unfold loopCmd
  try dsimp only
  repeat' (first
    | with_reducible assumption
    | exact hM.trans rfl
    | with_reducible apply loopClrOp_keeps
    | with_reducible apply loopOffCmd_keeps
    | intro _
    | split)

theorem execLoopClr_keeps {ms : Nat} {r0 : State} {l : LoopId} {s : State} (hM : Sub 65536 ms) (hK : Keeps ms r0 s) :
    KeepsO ms r0 (execLoopClr l s) := by
  unfold execLoopClr
  try dsimp only
  repeat' (first
    | with_reducible assumption
    | exact hM.trans rfl
    | with_reducible apply keepsO_next
    | with_reducible apply whenS_keeps
    | with_reducible apply loopClrOp_keeps
    | with_reducible apply keepsO_fault
    | split
    | intro _
    | split)

theorem execLoopOff_keeps {ms : Nat} {r0 : State} {l : LoopId} {s : State} (hM : Sub 66048 ms) (hK : Keeps ms r0 s) :
    KeepsO ms r0 (execLoopOff l s) := by
  unfold execLoopOff
  try dsimp only
  repeat' (first
    | with_reducible assumption
    | exact hM.trans rfl
    | with_reducible apply keepsO_next
    | with_reducible apply whenS_keeps
    | with_reducible apply loopOffCmd_keeps
    | with_reducible apply keepsO_fault
    | split
    | intro _
    | split)

end Sys2Proof.Machine
end

