-- ==== Sys2Proof/Laws/KeepsMotion.lean ====
section
/-!
SUPPORT. Machine/Motion.lean: each operation keeps what no command takes back (Laws/Keeps.lean).
-/

namespace Sys2Proof.Machine

set_option linter.all false

theorem emitSteps_keeps {ms : Nat} {r0 : State} {n : Fin 16} {x : StepperS} {m : Int} {m' : Int} {t0 : Nat} {s : State} (hM : Sub 1048576 ms) (hK : Keeps ms r0 s) :
    Keeps ms r0 (emitSteps n x m m' t0 s) := by
  unfold emitSteps
  try dsimp only
  repeat' (first
    | with_reducible assumption
    | exact hM.trans rfl
    | with_reducible apply emit_keeps
    | intro _
    | split)

theorem restStep_keeps {ms : Nat} {r0 : State} {n : Fin 16} {ihold : Byte} {s : State} (hM : Sub 32770 ms) (hK : Keeps ms r0 s) :
    Keeps ms r0 (restStep n ihold s) := by
  unfold restStep
  try dsimp only
  repeat' (first
    | with_reducible assumption
    | exact hM.trans rfl
    | with_reducible apply noteStill_keeps
    | with_reducible apply modStep_keeps
    | intro _
    | split)

theorem finishSeg_keeps {ms : Nat} {r0 : State} {n : Fin 16} {g : Segment} {s : State} (hM : Sub 33282 ms) (hK : Keeps ms r0 s) :
    Keeps ms r0 (finishSeg n g s) := by
  unfold finishSeg
  try dsimp only
  repeat' (first
    | with_reducible assumption
    | exact hM.trans rfl
    | with_reducible apply retTally_keeps
    | with_reducible apply modStep_keeps
    | with_reducible apply restStep_keeps
    | intro _
    | split)

theorem homeStop_keeps {ms : Nat} {r0 : State} {n : Fin 16} {g : Segment} {s : State} (hM : Sub 33282 ms) (hK : Keeps ms r0 s) :
    Keeps ms r0 (homeStop n g s) := by
  unfold homeStop
  try dsimp only
  repeat' (first
    | with_reducible assumption
    | exact hM.trans rfl
    | with_reducible apply restStep_keeps
    | with_reducible apply retTally_keeps
    | intro _
    | split)

theorem discardHead_keeps {ms : Nat} {r0 : State} {m : Motor} {g : Segment} {fault : Option Nat} {s : State} (hM : Sub 1289730 ms) (hK : Keeps ms r0 s) :
    Keeps ms r0 (discardHead m g fault s) := by
  unfold discardHead
  try dsimp only
  repeat' (first
    | with_reducible assumption
    | exact hM.trans rfl
    | with_reducible apply retTally_keeps
    | with_reducible apply modStep_keeps
    | with_reducible apply modBldc_keeps
    | with_reducible apply chFault_keeps
    | intro _
    | split)

theorem startSeg_keeps {ms : Nat} {r0 : State} {n : Fin 16} {g : Segment} {s : State} (hM : Sub 33282 ms) (hK : Keeps ms r0 s) :
    Keeps ms r0 (startSeg n g s) := by
  unfold startSeg
  try dsimp only
  repeat' (first
    | with_reducible assumption
    | exact hM.trans rfl
    | with_reducible apply noteMoving_keeps
    | with_reducible apply modStep_keeps
    | with_reducible apply finishSeg_keeps
    | intro _
    | split)

theorem takeStep_keeps {ms : Nat} {r0 : State} {n : Fin 16} {g : Segment} {s : State} (hM : Sub 1551874 ms) (hK : Keeps ms r0 s) :
    Keeps ms r0 (takeStep n g s) := by
  unfold takeStep
  try dsimp only
  repeat' (first
    | with_reducible assumption
    | exact hM.trans rfl
    | with_reducible apply discardHead_keeps
    | with_reducible apply motFault_keeps
    | with_reducible apply startSeg_keeps
    | intro _
    | split)

theorem writeSpeed_keeps {ms : Nat} {r0 : State} {k : Fin 4} {s : State} (hM : Sub 65536 ms) (hK : Keeps ms r0 s) :
    Keeps ms r0 (writeSpeed k s) := by
  unfold writeSpeed
  try dsimp only
  repeat' (first
    | with_reducible assumption
    | exact hM.trans rfl
    | with_reducible apply modLoop_keeps
    | intro _
    | split)

theorem takeBldc_keeps {ms : Nat} {r0 : State} {k : Fin 4} {g : Segment} {s : State} (hM : Sub 1551874 ms) (hK : Keeps ms r0 s) :
    Keeps ms r0 (takeBldc k g s) := by
  unfold takeBldc
  try dsimp only
  repeat' (first
    | with_reducible assumption
    | exact hM.trans rfl
    | with_reducible apply discardHead_keeps
    | with_reducible apply motFault_keeps
    | with_reducible apply writeSpeed_keeps
    | with_reducible apply modBldc_keeps
    | intro _
    | split)

theorem takeupOp_keeps {ms : Nat} {r0 : State} {m : Motor} {s : State} (hM : Sub 1551874 ms) (hK : Keeps ms r0 s) :
    Keeps ms r0 (takeupOp m s) := by
  unfold takeupOp
  try dsimp only
  repeat' (first
    | with_reducible assumption
    | exact hM.trans rfl
    | with_reducible apply takeStep_keeps
    | with_reducible apply takeBldc_keeps
    | intro _
    | split)

theorem execSegmentTakeup_keeps {ms : Nat} {r0 : State} {m : Motor} {s : State} (hM : Sub 1551875 ms) (hK : Keeps ms r0 s) :
    KeepsO ms r0 (execSegmentTakeup m s) := by
  unfold execSegmentTakeup
  try dsimp only
  repeat' (first
    | with_reducible assumption
    | exact hM.trans rfl
    | with_reducible apply keepsO_next
    | with_reducible apply whenS_keeps
    | with_reducible apply takeupOp_keeps
    | with_reducible apply timeTo_keeps
    | with_reducible apply keepsO_fault
    | split
    | intro _
    | split)

theorem brake_keeps {ms : Nat} {r0 : State} {n : Fin 16} {dec : Nat} {rest : State → State} {s : State} (hrest : ∀  s, Keeps ms r0 s → Keeps ms r0 (rest  s)) (hM : Sub 1081344 ms) (hK : Keeps ms r0 s) :
    Keeps ms r0 (brake n dec rest s) := by
  unfold brake
  try dsimp only
  repeat' (first
    | with_reducible assumption
    | exact hM.trans rfl
    | with_reducible apply hrest
    | with_reducible apply emitSteps_keeps
    | with_reducible apply modStep_keeps
    | intro _
    | split)

theorem runOnUpdate_keeps {ms : Nat} {r0 : State} {n : Fin 16} {left : Int} {s : State} (hM : Sub 1081344 ms) (hK : Keeps ms r0 s) :
    Keeps ms r0 (runOnUpdate n left s) := by
  unfold runOnUpdate
  try dsimp only
  repeat' (first
    | with_reducible assumption
    | exact hM.trans rfl
    | with_reducible apply emitSteps_keeps
    | with_reducible apply modStep_keeps
    | intro _
    | split)

theorem segMove_keeps {ms : Nat} {r0 : State} {n : Fin 16} {g : Segment} {dir : Int} {d : Int} {s : State} (hM : Sub 1551874 ms) (hK : Keeps ms r0 s) :
    Keeps ms r0 (segMove n g dir d s) := by
  unfold segMove
  try dsimp only
  repeat' (first
    | with_reducible assumption
    | exact hM.trans rfl
    | with_reducible apply emitSteps_keeps
    | with_reducible apply modStep_keeps
    | with_reducible apply motFault_keeps
    | with_reducible apply finishSeg_keeps
    | intro _
    | split)

theorem segUpdate_keeps {ms : Nat} {r0 : State} {n : Fin 16} {g : Segment} {ti : BitVec 12} {s : State} (hM : Sub 1551874 ms) (hK : Keeps ms r0 s) :
    Keeps ms r0 (segUpdate n g ti s) := by
  unfold segUpdate
  try dsimp only
  repeat' (first
    | with_reducible assumption
    | exact hM.trans rfl
    | with_reducible apply brake_keeps
    | with_reducible apply homeStop_keeps
    | with_reducible apply modStep_keeps
    | with_reducible apply motFault_keeps
    | with_reducible apply finishSeg_keeps
    | with_reducible apply segMove_keeps
    | intro _
    | split)

theorem stepUpdate_keeps {ms : Nat} {r0 : State} {ti : BitVec 12} {n : Fin 16} {s : State} (hM : Sub 1551874 ms) (hK : Keeps ms r0 s) :
    Keeps ms r0 (stepUpdate ti n s) := by
  unfold stepUpdate
  try dsimp only
  repeat' (first
    | with_reducible assumption
    | exact hM.trans rfl
    | with_reducible apply brake_keeps
    | with_reducible apply stillStep_keeps
    | with_reducible apply segUpdate_keeps
    | with_reducible apply runOnUpdate_keeps
    | intro _
    | split)

theorem bldcRest_keeps {ms : Nat} {r0 : State} {k : Fin 4} {s : State} (hM : Sub 98816 ms) (hK : Keeps ms r0 s) :
    Keeps ms r0 (bldcRest k s) := by
  unfold bldcRest
  try dsimp only
  repeat' (first
    | with_reducible assumption
    | exact hM.trans rfl
    | with_reducible apply modBldc_keeps
    | with_reducible apply loopOffOp_keeps
    | intro _
    | split)

theorem bldcUpdate_keeps {ms : Nat} {r0 : State} {k : Fin 4} {s : State} (hM : Sub 98816 ms) (hK : Keeps ms r0 s) :
    Keeps ms r0 (bldcUpdate k s) := by
  unfold bldcUpdate
  try dsimp only
  repeat' (first
    | with_reducible assumption
    | exact hM.trans rfl
    | with_reducible apply writeSpeed_keeps
    | with_reducible apply modBldc_keeps
    | with_reducible apply retTally_keeps
    | with_reducible apply bldcRest_keeps
    | intro _
    | split)

theorem stepEval_keeps {ms : Nat} {r0 : State} {ti : BitVec 12} {n : Fin 16} {s : State} (hM : Sub 1551874 ms) (hK : Keeps ms r0 s) :
    Keeps ms r0 (stepEval ti n s) := by
  unfold stepEval
  try dsimp only
  repeat' (first
    | with_reducible assumption
    | exact hM.trans rfl
    | with_reducible apply stepUpdate_keeps
    | with_reducible apply modStep_keeps
    | intro _
    | split)

theorem bldcEval_keeps {ms : Nat} {r0 : State} {k : Fin 4} {s : State} (hM : Sub 98816 ms) (hK : Keeps ms r0 s) :
    Keeps ms r0 (bldcEval k s) := by
  unfold bldcEval
  try dsimp only
  repeat' (first
    | with_reducible assumption
    | exact hM.trans rfl
    | with_reducible apply bldcUpdate_keeps
    | with_reducible apply modBldc_keeps
    | intro _
    | split)

theorem execTrajectoryUpdate_keeps {ms : Nat} {r0 : State} {ti : BitVec 12} {s : State} (hM : Sub 1551875 ms) (hK : Keeps ms r0 s) :
    KeepsO ms r0 (execTrajectoryUpdate ti s) := by
  unfold execTrajectoryUpdate
  try dsimp only
  repeat' (first
    | with_reducible assumption
    | exact hM.trans rfl
    | with_reducible apply keepsO_next
    | with_reducible apply whenS_keeps
    | with_reducible apply forEach_keeps
    | with_reducible apply bldcEval_keeps
    | with_reducible apply stepEval_keeps
    | with_reducible apply timeTo_keeps
    | with_reducible apply keepsO_fault
    | split
    | intro _
    | split)

theorem execMotOvercurrent_keeps {ms : Nat} {r0 : State} {m : Motor} {s : State} (hM : Sub 1551874 ms) (hK : Keeps ms r0 s) :
    KeepsO ms r0 (execMotOvercurrent m s) := by
  unfold execMotOvercurrent
  try dsimp only
  repeat' (first
    | with_reducible assumption
    | exact hM.trans rfl
    | with_reducible apply keepsO_next
    | with_reducible apply whenS_keeps
    | with_reducible apply motFault_keeps
    | with_reducible apply keepsO_fault
    | split
    | intro _
    | split)

theorem execBldcStall_keeps {ms : Nat} {r0 : State} {k : Fin 4} {s : State} (hM : Sub 1551875 ms) (hK : Keeps ms r0 s) :
    KeepsO ms r0 (execBldcStall k s) := by
  unfold execBldcStall
  try dsimp only
  repeat' (first
    | with_reducible assumption
    | exact hM.trans rfl
    | with_reducible apply keepsO_next
    | with_reducible apply whenS_keeps
    | with_reducible apply motFault_keeps
    | with_reducible apply timeTo_keeps
    | with_reducible apply keepsO_fault
    | split
    | intro _
    | split)

theorem execHallFault_keeps {ms : Nat} {r0 : State} {k : Fin 4} {s : State} (hM : Sub 1551875 ms) (hK : Keeps ms r0 s) :
    KeepsO ms r0 (execHallFault k s) := by
  unfold execHallFault
  try dsimp only
  repeat' (first
    | with_reducible assumption
    | exact hM.trans rfl
    | with_reducible apply keepsO_next
    | with_reducible apply whenS_keeps
    | with_reducible apply motFault_keeps
    | with_reducible apply timeTo_keeps
    | with_reducible apply keepsO_fault
    | split
    | intro _
    | split)

theorem execHallEdge_keeps {ms : Nat} {r0 : State} {k : Fin 4} {code : BitVec 3} {s : State} (hM : Sub 32768 ms) (hK : Keeps ms r0 s) :
    KeepsO ms r0 (execHallEdge k code s) := by
  unfold execHallEdge
  try dsimp only
  repeat' (first
    | with_reducible assumption
    | exact hM.trans rfl
    | with_reducible apply keepsO_next
    | with_reducible apply whenS_keeps
    | with_reducible apply modBldc_keeps
    | with_reducible apply keepsO_fault
    | split
    | intro _
    | split)

theorem stallOne_keeps {ms : Nat} {r0 : State} {t : Trk} {n : Fin 16} {s : State} (hM : Sub 1551874 ms) (hK : Keeps ms r0 s) :
    Keeps ms r0 (stallOne t n s) := by
  unfold stallOne
  try dsimp only
  repeat' (first
    | with_reducible assumption
    | exact hM.trans rfl
    | with_reducible apply motFault_keeps
    | intro _
    | split)

theorem stallCheck_keeps {ms : Nat} {r0 : State} {t : Trk} {s : State} (hM : Sub 1551874 ms) (hK : Keeps ms r0 s) :
    Keeps ms r0 (stallCheck t s) := by
  unfold stallCheck
  try dsimp only
  repeat' (first
    | with_reducible assumption
    | exact hM.trans rfl
    | with_reducible apply forEach_keeps
    | with_reducible apply stallOne_keeps
    | intro _
    | split)

theorem motErr_keeps {ms : Nat} {r0 : State} {m : Motor} {s : State} (hM : Sub 32768 ms) (hK : Keeps ms r0 s) :
    Keeps ms r0 (motErr m s) := by
  unfold motErr
  try dsimp only
  repeat' (first
    | with_reducible assumption
    | exact hM.trans rfl
    | with_reducible apply modStep_keeps
    | intro _
    | split)

theorem motClrOp_keeps {ms : Nat} {r0 : State} {m : Motor} {s : State} (hM : Sub 32768 ms) (hK : Keeps ms r0 s) :
    Keeps ms r0 (motClrOp m s) := by
  unfold motClrOp
  try dsimp only
  repeat' (first
    | with_reducible assumption
    | exact hM.trans rfl
    | with_reducible apply motErr_keeps
    | with_reducible apply modStep_keeps
    | with_reducible apply modBldc_keeps
    | intro _
    | split)

theorem setposOp_keeps {ms : Nat} {r0 : State} {n : Fin 16} {s : State} (hM : Sub 32770 ms) (hK : Keeps ms r0 s) :
    Keeps ms r0 (setposOp n s) := by
  unfold setposOp
  try dsimp only
  repeat' (first
    | with_reducible assumption
    | exact hM.trans rfl
    | with_reducible apply modStep_keeps
    | with_reducible apply noteStill_keeps
    | with_reducible apply motErr_keeps
    | intro _
    | split)

theorem motCmd_keeps {ms : Nat} {r0 : State} {m : Motor} {v : Word} {s : State} (hM : Sub 33282 ms) (hK : Keeps ms r0 s) :
    Keeps ms r0 (motCmd m v s) := by
  unfold motCmd
  try dsimp only
  repeat' (first
    | with_reducible assumption
    | exact hM.trans rfl
    | with_reducible apply stopMotor_keeps
    | with_reducible apply motClrOp_keeps
    | with_reducible apply setposOp_keeps
    | intro _
    | split)

theorem execMotStop_keeps {ms : Nat} {r0 : State} {m : Motor} {s : State} (hM : Sub 33282 ms) (hK : Keeps ms r0 s) :
    KeepsO ms r0 (execMotStop m s) := by
  unfold execMotStop
  try dsimp only
  repeat' (first
    | with_reducible assumption
    | exact hM.trans rfl
    | with_reducible apply keepsO_next
    | with_reducible apply whenS_keeps
    | with_reducible apply stopMotor_keeps
    | with_reducible apply keepsO_fault
    | split
    | intro _
    | split)

theorem execMotClr_keeps {ms : Nat} {r0 : State} {m : Motor} {s : State} (hM : Sub 32768 ms) (hK : Keeps ms r0 s) :
    KeepsO ms r0 (execMotClr m s) := by
  unfold execMotClr
  try dsimp only
  repeat' (first
    | with_reducible assumption
    | exact hM.trans rfl
    | with_reducible apply keepsO_next
    | with_reducible apply whenS_keeps
    | with_reducible apply motClrOp_keeps
    | with_reducible apply keepsO_fault
    | split
    | intro _
    | split)

theorem execMotSetpos_keeps {ms : Nat} {r0 : State} {n : Fin 16} {s : State} (hM : Sub 32770 ms) (hK : Keeps ms r0 s) :
    KeepsO ms r0 (execMotSetpos n s) := by
  unfold execMotSetpos
  try dsimp only
  repeat' (first
    | with_reducible assumption
    | exact hM.trans rfl
    | with_reducible apply keepsO_next
    | with_reducible apply whenS_keeps
    | with_reducible apply setposOp_keeps
    | with_reducible apply keepsO_fault
    | split
    | intro _
    | split)

theorem pushSeg_keeps {ms : Nat} {r0 : State} {m : Motor} {g : Segment} {s : State} (hM : Sub 33280 ms) (hK : Keeps ms r0 s) :
    Keeps ms r0 (pushSeg m g s) := by
  unfold pushSeg
  try dsimp only
  repeat' (first
    | with_reducible assumption
    | exact hM.trans rfl
    | with_reducible apply retTally_keeps
    | with_reducible apply modStep_keeps
    | with_reducible apply modBldc_keeps
    | intro _
    | split)

end Sys2Proof.Machine
end

