-- ==== Sys2Proof/Laws/KeepsPower.lean ====
section
/-!
SUPPORT. Machine/Power.lean: each operation keeps what no command takes back (Laws/Keeps.lean).
-/

namespace Sys2Proof.Machine

set_option linter.all false

theorem setItem_keeps {ms : Nat} {r0 : State} {r : RailSt} {d : DomSt} {i : Nat} {s : State} (hM : Sub 2 ms) (hK : Keeps ms r0 s) :
    Keeps ms r0 (setItem r d i s) := by
  unfold setItem
  try dsimp only
  repeat' (first
    | with_reducible assumption
    | exact hM.trans rfl
    | with_reducible apply modRail_keeps
    | with_reducible apply modDom_keeps
    | intro _
    | split)

theorem stallWith_keeps {ms : Nat} {r0 : State} {l : List Nat} {s : State} (hM : Sub 1052162 ms) (hK : Keeps ms r0 s) :
    Keeps ms r0 (stallWith l s) := by
  unfold stallWith
  try dsimp only
  repeat' (first
    | with_reducible assumption
    | exact hM.trans rfl
    | with_reducible apply aonEvent_keeps
    | with_reducible apply modAon_keeps
    | intro _
    | split)

theorem startDelays_keeps {ms : Nat} {r0 : State} {s : State} (hM : Sub 2 ms) (hK : Keeps ms r0 s) :
    Keeps ms r0 (startDelays s) := by
  unfold startDelays
  try dsimp only
  repeat' (first
    | with_reducible assumption
    | exact hM.trans rfl
    | with_reducible apply forEach_keeps
    | with_reducible apply modRail_keeps
    | intro _
    | split)

theorem stopDelays_keeps {ms : Nat} {r0 : State} {s : State} (hM : Sub 2 ms) (hK : Keeps ms r0 s) :
    Keeps ms r0 (stopDelays s) := by
  unfold stopDelays
  try dsimp only
  repeat' (first
    | with_reducible assumption
    | exact hM.trans rfl
    | with_reducible apply forEach_keeps
    | with_reducible apply modRail_keeps
    | intro _
    | split)

theorem settleCmds_keeps {ms : Nat} {r0 : State} {s : State} (hM : Sub 1052162 ms) (hK : Keeps ms r0 s) :
    Keeps ms r0 (settleCmds s) := by
  unfold settleCmds
  try dsimp only
  repeat' (first
    | with_reducible assumption
    | exact hM.trans rfl
    | with_reducible apply modAon_keeps
    | with_reducible apply stallWith_keeps
    | intro _
    | split)

theorem raiseEnd_keeps {ms : Nat} {r0 : State} {s : State} (hM : Sub 1052162 ms) (hK : Keeps ms r0 s) :
    Keeps ms r0 (raiseEnd s) := by
  unfold raiseEnd
  try dsimp only
  repeat' (first
    | with_reducible assumption
    | exact hM.trans rfl
    | with_reducible apply stallWith_keeps
    | with_reducible apply modAon_keeps
    | with_reducible apply aonEvent_keeps
    | intro _
    | split)

theorem advance_keeps {ms : Nat} {r0 : State} {s : State} (hM : Sub 1052162 ms) (hK : Keeps ms r0 s) :
    Keeps ms r0 (advance s) := by
  unfold advance
  try dsimp only
  repeat' (first
    | with_reducible assumption
    | exact hM.trans rfl
    | with_reducible apply raiseEnd_keeps
    | with_reducible apply settleCmds_keeps
    | with_reducible apply startDelays_keeps
    | with_reducible apply stopDelays_keeps
    | intro _
    | split)

theorem markWait_keeps {ms : Nat} {r0 : State} {i : Nat} {s : State} (hM : Sub 2 ms) (hK : Keeps ms r0 s) :
    Keeps ms r0 (markWait i s) := by
  unfold markWait
  try dsimp only
  repeat' (first
    | with_reducible assumption
    | exact hM.trans rfl
    | with_reducible apply modRail_keeps
    | with_reducible apply modDom_keeps
    | intro _
    | split)

theorem noteStart_keeps {ms : Nat} {r0 : State} {i : Nat} {s : State} (hM : Sub 2 ms) (hK : Keeps ms r0 s) :
    Keeps ms r0 (noteStart i s) := by
  unfold noteStart
  try dsimp only
  repeat' (first
    | with_reducible assumption
    | exact hM.trans rfl
    | with_reducible apply modAon_keeps
    | intro _
    | split)

theorem noteDown_keeps {ms : Nat} {r0 : State} {i : Nat} {s : State} (hM : Sub 2 ms) (hK : Keeps ms r0 s) :
    Keeps ms r0 (noteDown i s) := by
  unfold noteDown
  try dsimp only
  repeat' (first
    | with_reducible assumption
    | exact hM.trans rfl
    | with_reducible apply modAon_keeps
    | intro _
    | split)

theorem sheetMoved_keeps {ms : Nat} {r0 : State} {t0 : Nat} {s : State} (hM : Sub 1081346 ms) (hK : Keeps ms r0 s) :
    Keeps ms r0 (sheetMoved t0 s) := by
  unfold sheetMoved
  try dsimp only
  repeat' (first
    | with_reducible assumption
    | exact hM.trans rfl
    | with_reducible apply forEach_keeps
    | with_reducible apply emit_keeps
    | with_reducible apply noteStill_keeps
    | with_reducible apply modStep_keeps
    | intro _
    | split)

theorem sheetOutcome_keeps {ms : Nat} {r0 : State} {outcome : Nat} {t0 : Nat} {s : State} (hM : Sub 1084946 ms) (hK : Keeps ms r0 s) :
    Keeps ms r0 (sheetOutcome outcome t0 s) := by
  unfold sheetOutcome
  try dsimp only
  repeat' (first
    | with_reducible assumption
    | exact hM.trans rfl
    | with_reducible apply logCode_keeps
    | with_reducible apply modAon_keeps
    | with_reducible apply sheetMoved_keeps
    | with_reducible apply aonEvent_keeps
    | intro _
    | split)

theorem sheetStop_keeps {ms : Nat} {r0 : State} {s : State} (hM : Sub 1084946 ms) (hK : Keeps ms r0 s) :
    Keeps ms r0 (sheetStop s) := by
  unfold sheetStop
  try dsimp only
  repeat' (first
    | with_reducible assumption
    | exact hM.trans rfl
    | with_reducible apply sheetOutcome_keeps
    | intro _
    | split)

theorem driveEnter_keeps {ms : Nat} {r0 : State} {s : State} (hM : Sub 1568274 ms) (hK : Keeps ms r0 s) :
    Keeps ms r0 (driveEnter s) := by
  unfold driveEnter
  try dsimp only
  repeat' (first
    | with_reducible assumption
    | exact hM.trans rfl
    | with_reducible apply safeEnter_keeps
    | with_reducible apply sheetStop_keeps
    | intro _
    | split)

theorem skidPushed_keeps {ms : Nat} {r0 : State} {q : SkidPort} {f : Frame} {s : State} (hM : Sub 1572864 ms) (hK : Keeps ms r0 s) :
    Keeps ms r0 (skidPushed q f s) := by
  unfold skidPushed
  try dsimp only
  repeat' (first
    | with_reducible assumption
    | exact hM.trans rfl
    | with_reducible apply modSkid_keeps
    | with_reducible apply emit_keeps
    | intro _
    | split)

theorem sendSkid_keeps {ms : Nat} {r0 : State} {q : SkidPort} {f : Frame} {s : State} (hM : Sub 1573376 ms) (hK : Keeps ms r0 s) :
    Keeps ms r0 (sendSkid q f s) := by
  unfold sendSkid
  try dsimp only
  repeat' (first
    | with_reducible assumption
    | exact hM.trans rfl
    | with_reducible apply skidPushed_keeps
    | with_reducible apply takeTally_keeps
    | with_reducible apply modSkid_keeps
    | intro _
    | split)

theorem offReport_keeps {ms : Nat} {r0 : State} {s : State} (hM : Sub 1573376 ms) (hK : Keeps ms r0 s) :
    Keeps ms r0 (offReport s) := by
  unfold offReport
  try dsimp only
  repeat' (first
    | with_reducible assumption
    | exact hM.trans rfl
    | with_reducible apply sendSkid_keeps
    | intro _
    | split)

theorem powerDownEnd_keeps {ms : Nat} {r0 : State} {cause : BitVec 3} {s : State} (hM : Sub 530 ms) (hK : Keeps ms r0 s) :
    Keeps ms r0 (powerDownEnd cause s) := by
  unfold powerDownEnd
  try dsimp only
  repeat' (first
    | with_reducible assumption
    | exact hM.trans rfl
    | with_reducible apply logCode_keeps
    | with_reducible apply modAon_keeps
    | intro _
    | split)

theorem enginesDownEnd_keeps {ms : Nat} {r0 : State} {s : State} (hM : Sub 1576450 ms) (hK : Keeps ms r0 s) :
    Keeps ms r0 (enginesDownEnd s) := by
  unfold enginesDownEnd
  try dsimp only
  repeat' (first
    | with_reducible assumption
    | exact hM.trans rfl
    | with_reducible apply modAon_keeps
    | with_reducible apply offReport_keeps
    | with_reducible apply aonEvent_keeps
    | intro _
    | split)

theorem formCheck_keeps {ms : Nat} {r0 : State} {s : State} (hM : Sub 1576466 ms) (hK : Keeps ms r0 s) :
    Keeps ms r0 (formCheck s) := by
  unfold formCheck
  try dsimp only
  repeat' (first
    | with_reducible assumption
    | exact hM.trans rfl
    | with_reducible apply powerDownEnd_keeps
    | with_reducible apply enginesDownEnd_keeps
    | with_reducible apply modAon_keeps
    | intro _
    | split)

theorem beatHold_keeps {ms : Nat} {r0 : State} {s : State} (hM : Sub 1568274 ms) (hK : Keeps ms r0 s) :
    Keeps ms r0 (beatHold s) := by
  unfold beatHold
  try dsimp only
  repeat' (first
    | with_reducible assumption
    | exact hM.trans rfl
    | with_reducible apply driveEnter_keeps
    | with_reducible apply modAon_keeps
    | intro _
    | split)

theorem itemChange_keeps {ms : Nat} {r0 : State} {f : State → State} {s : State} (hf : ∀  s, Keeps ms r0 s → Keeps ms r0 (f  s)) (hM : Sub 2096698 ms) (hK : Keeps ms r0 s) :
    Keeps ms r0 (itemChange f s) := by
  unfold itemChange
  try dsimp only
  repeat' (first
    | with_reducible assumption
    | exact hM.trans rfl
    | with_reducible apply hf
    | with_reducible apply hf
    | with_reducible apply hf
    | with_reducible apply hf
    | with_reducible apply hf
    | with_reducible apply hf
    | with_reducible apply hf
    | with_reducible apply hf
    | with_reducible apply beatHold_keeps
    | with_reducible apply formCheck_keeps
    | with_reducible apply advance_keeps
    | with_reducible apply settle_keeps
    | intro _
    | split)

theorem railFault_keeps {ms : Nat} {r0 : State} {i : Nat} {bits : Nat} {s : State} (hM : Sub 1052178 ms) (hK : Keeps ms r0 s) :
    Keeps ms r0 (railFault i bits s) := by
  unfold railFault
  try dsimp only
  repeat' (first
    | with_reducible assumption
    | exact hM.trans rfl
    | with_reducible apply logPost_keeps
    | intro _
    | split)

theorem noteBeatFault_keeps {ms : Nat} {r0 : State} {i : Nat} {s : State} (hM : Sub 2 ms) (hK : Keeps ms r0 s) :
    Keeps ms r0 (noteBeatFault i s) := by
  unfold noteBeatFault
  try dsimp only
  repeat' (first
    | with_reducible assumption
    | exact hM.trans rfl
    | with_reducible apply modAon_keeps
    | intro _
    | split)

theorem downDependents_keeps {ms : Nat} {r0 : State} {i : Nat} {s : State} (hM : Sub 2 ms) (hK : Keeps ms r0 s) :
    Keeps ms r0 (downDependents i s) := by
  unfold downDependents
  try dsimp only
  repeat' (first
    | with_reducible assumption
    | exact hM.trans rfl
    | with_reducible apply modAon_keeps
    | intro _
    | split)

theorem domFail_keeps {ms : Nat} {r0 : State} {d : Dom} {bits : Nat} {s : State} (hM : Sub 2096698 ms) (hK : Keeps ms r0 s) :
    Keeps ms r0 (domFail d bits s) := by
  unfold domFail
  try dsimp only
  repeat' (first
    | with_reducible assumption
    | exact hM.trans rfl
    | with_reducible apply itemChange_keeps
    | with_reducible apply railFault_keeps
    | with_reducible apply modDom_keeps
    | with_reducible apply modAon_keeps
    | with_reducible apply downDependents_keeps
    | with_reducible apply noteDown_keeps
    | with_reducible apply noteBeatFault_keeps
    | intro _
    | split)

theorem railFail_keeps {ms : Nat} {r0 : State} {n : Rail} {bits : Nat} {s : State} (hM : Sub 2096698 ms) (hK : Keeps ms r0 s) :
    Keeps ms r0 (railFail n bits s) := by
  unfold railFail
  try dsimp only
  repeat' (first
    | with_reducible assumption
    | exact hM.trans rfl
    | with_reducible apply itemChange_keeps
    | with_reducible apply modRail_keeps
    | with_reducible apply noteDown_keeps
    | with_reducible apply modAon_keeps
    | with_reducible apply railFault_keeps
    | intro _
    | split)

theorem railDropOp_keeps {ms : Nat} {r0 : State} {n : Rail} {oc : Bool} {s : State} (hM : Sub 2096698 ms) (hK : Keeps ms r0 s) :
    Keeps ms r0 (railDropOp n oc s) := by
  unfold railDropOp
  try dsimp only
  repeat' (first
    | with_reducible assumption
    | exact hM.trans rfl
    | with_reducible apply itemChange_keeps
    | with_reducible apply downDependents_keeps
    | with_reducible apply noteDown_keeps
    | with_reducible apply noteBeatFault_keeps
    | with_reducible apply modAon_keeps
    | with_reducible apply railFault_keeps
    | with_reducible apply modRail_keeps
    | intro _
    | split)

theorem clearWaits_keeps {ms : Nat} {r0 : State} {p : Nat → Bool} {s : State} (hM : Sub 2 ms) (hK : Keeps ms r0 s) :
    Keeps ms r0 (clearWaits p s) := by
  unfold clearWaits
  try dsimp only
  repeat' (first
    | with_reducible assumption
    | exact hM.trans rfl
    | with_reducible apply forEach_keeps
    | with_reducible apply setItem_keeps
    | with_reducible apply modAon_keeps
    | intro _
    | split)

theorem dropItem_keeps {ms : Nat} {r0 : State} {r : RailSt} {d : DomSt} {i : Nat} {s : State} (hM : Sub 2 ms) (hK : Keeps ms r0 s) :
    Keeps ms r0 (dropItem r d i s) := by
  unfold dropItem
  try dsimp only
  repeat' (first
    | with_reducible assumption
    | exact hM.trans rfl
    | with_reducible apply setItem_keeps
    | with_reducible apply noteDown_keeps
    | intro _
    | split)

theorem graceEnd_keeps {ms : Nat} {r0 : State} {s : State} (hM : Sub 1814034 ms) (hK : Keeps ms r0 s) :
    Keeps ms r0 (graceEnd s) := by
  unfold graceEnd
  try dsimp only
  repeat' (first
    | with_reducible assumption
    | exact hM.trans rfl
    | with_reducible apply abortPages_keeps
    | with_reducible apply formCheck_keeps
    | with_reducible apply modAon_keeps
    | intro _
    | split)

theorem orderlyStart_keeps {ms : Nat} {r0 : State} {cause : BitVec 3} {grace : Nat} {s : State} (hM : Sub 1814034 ms) (hK : Keeps ms r0 s) :
    Keeps ms r0 (orderlyStart cause grace s) := by
  unfold orderlyStart
  try dsimp only
  repeat' (first
    | with_reducible assumption
    | exact hM.trans rfl
    | with_reducible apply clearWaits_keeps
    | with_reducible apply modAon_keeps
    | with_reducible apply aonEvent_keeps
    | with_reducible apply graceEnd_keeps
    | intro _
    | split)

theorem lastOff_keeps {ms : Nat} {r0 : State} {s : State} (hM : Sub 2 ms) (hK : Keeps ms r0 s) :
    Keeps ms r0 (lastOff s) := by
  unfold lastOff
  try dsimp only
  repeat' (first
    | with_reducible assumption
    | exact hM.trans rfl
    | with_reducible apply modRail_keeps
    | intro _
    | split)

theorem orderlyNext_keeps {ms : Nat} {r0 : State} {todo : List Nat} {s : State} (hM : Sub 1573378 ms) (hK : Keeps ms r0 s) :
    Keeps ms r0 (orderlyNext todo s) := by
  unfold orderlyNext
  try dsimp only
  repeat' (first
    | with_reducible assumption
    | exact hM.trans rfl
    | with_reducible apply dropItem_keeps
    | with_reducible apply offReport_keeps
    | intro _
    | split)

theorem orderlyStep_keeps {ms : Nat} {r0 : State} {s : State} (hM : Sub 2096698 ms) (hK : Keeps ms r0 s) :
    Keeps ms r0 (orderlyStep s) := by
  unfold orderlyStep
  try dsimp only
  repeat' (first
    | with_reducible assumption
    | exact hM.trans rfl
    | with_reducible apply itemChange_keeps
    | with_reducible apply orderlyNext_keeps
    | with_reducible apply modAon_keeps
    | with_reducible apply lastOff_keeps
    | intro _
    | split)

theorem partItem_keeps {ms : Nat} {r0 : State} {i : Nat} {s : State} (hM : Sub 2 ms) (hK : Keeps ms r0 s) :
    Keeps ms r0 (partItem i s) := by
  unfold partItem
  try dsimp only
  repeat' (first
    | with_reducible assumption
    | exact hM.trans rfl
    | with_reducible apply dropItem_keeps
    | intro _
    | split)

theorem collapseStepOp_keeps {ms : Nat} {r0 : State} {s : State} (hM : Sub 2096699 ms) (hK : Keeps ms r0 s) :
    Keeps ms r0 (collapseStepOp s) := by
  unfold collapseStepOp
  try dsimp only
  repeat' (first
    | with_reducible assumption
    | exact hM.trans rfl
    | with_reducible apply itemChange_keeps
    | with_reducible apply dropItem_keeps
    | with_reducible apply modAon_keeps
    | with_reducible apply timeTo_keeps
    | with_reducible apply partItem_keeps
    | intro _
    | split)

theorem downsOff_keeps {ms : Nat} {r0 : State} {s : State} (hM : Sub 2 ms) (hK : Keeps ms r0 s) :
    Keeps ms r0 (downsOff s) := by
  unfold downsOff
  try dsimp only
  repeat' (first
    | with_reducible assumption
    | exact hM.trans rfl
    | with_reducible apply forEach_keeps
    | with_reducible apply modRail_keeps
    | intro _
    | split)

theorem collapseDetect_keeps {ms : Nat} {r0 : State} {input : Nat} {s : State} (hM : Sub 1576506 ms) (hK : Keeps ms r0 s) :
    Keeps ms r0 (collapseDetect input s) := by
  unfold collapseDetect
  try dsimp only
  repeat' (first
    | with_reducible assumption
    | exact hM.trans rfl
    | with_reducible apply imageCut_keeps
    | with_reducible apply logPost_keeps
    | with_reducible apply downsOff_keeps
    | with_reducible apply clearWaits_keeps
    | with_reducible apply formCheck_keeps
    | with_reducible apply modAon_keeps
    | intro _
    | split)

theorem cutAll_keeps {ms : Nat} {r0 : State} {s : State} (hM : Sub 2 ms) (hK : Keeps ms r0 s) :
    Keeps ms r0 (cutAll s) := by
  unfold cutAll
  try dsimp only
  repeat' (first
    | with_reducible assumption
    | exact hM.trans rfl
    | with_reducible apply forEach_keeps
    | with_reducible apply noteDown_keeps
    | with_reducible apply setItem_keeps
    | intro _
    | split)

theorem immediateCut_keeps {ms : Nat} {r0 : State} {s : State} (hM : Sub 2096698 ms) (hK : Keeps ms r0 s) :
    Keeps ms r0 (immediateCut s) := by
  unfold immediateCut
  try dsimp only
  repeat' (first
    | with_reducible assumption
    | exact hM.trans rfl
    | with_reducible apply beatHold_keeps
    | with_reducible apply settled_keeps
    | with_reducible apply powerDownEnd_keeps
    | with_reducible apply cutAll_keeps
    | with_reducible apply clearWaits_keeps
    | intro _
    | split)

theorem raiseStage_keeps {ms : Nat} {r0 : State} {b : Bool} {s : State} (hM : Sub 1576506 ms) (hK : Keeps ms r0 s) :
    Keeps ms r0 (raiseStage b s) := by
  unfold raiseStage
  try dsimp only
  repeat' (first
    | with_reducible assumption
    | exact hM.trans rfl
    | with_reducible apply modAon_keeps
    | with_reducible apply collapseDetect_keeps
    | with_reducible apply advance_keeps
    | with_reducible apply forEach_keeps
    | with_reducible apply markWait_keeps
    | intro _
    | split)

theorem autoRaise_keeps {ms : Nat} {r0 : State} {s : State} (hM : Sub 1576506 ms) (hK : Keeps ms r0 s) :
    Keeps ms r0 (autoRaise s) := by
  unfold autoRaise
  try dsimp only
  repeat' (first
    | with_reducible assumption
    | exact hM.trans rfl
    | with_reducible apply raiseStage_keeps
    | intro _
    | split)

theorem seqBusy_keeps {ms : Nat} {r0 : State} {s : State} (hM : Sub 2 ms) (hK : Keeps ms r0 s) :
    Keeps ms r0 (seqBusy s) := by
  unfold seqBusy
  try dsimp only
  repeat' (first
    | with_reducible assumption
    | exact hM.trans rfl
    | with_reducible apply modAon_keeps
    | intro _
    | split)

theorem seqCmd_keeps {ms : Nat} {r0 : State} {ok : Bool} {f : State → State} {s : State} (hf : ∀  s, Keeps ms r0 s → Keeps ms r0 (f  s)) (hM : Sub 2 ms) (hK : Keeps ms r0 s) :
    Keeps ms r0 (seqCmd ok f s) := by
  unfold seqCmd
  try dsimp only
  repeat' (first
    | with_reducible assumption
    | exact hM.trans rfl
    | with_reducible apply hf
    | with_reducible apply hf
    | with_reducible apply hf
    | with_reducible apply hf
    | with_reducible apply hf
    | with_reducible apply hf
    | with_reducible apply hf
    | with_reducible apply hf
    | with_reducible apply seqBusy_keeps
    | intro _
    | split)

theorem forwardPower_keeps {ms : Nat} {r0 : State} {code : BitVec 4} {s : State} (hM : Sub 1573376 ms) (hK : Keeps ms r0 s) :
    Keeps ms r0 (forwardPower code s) := by
  unfold forwardPower
  try dsimp only
  repeat' (first
    | with_reducible assumption
    | exact hM.trans rfl
    | with_reducible apply forEach_keeps
    | with_reducible apply sendSkid_keeps
    | with_reducible apply id_keeps
    | intro _
    | split)

theorem enginesUpCmd_keeps {ms : Nat} {r0 : State} {s : State} (hM : Sub 1576506 ms) (hK : Keeps ms r0 s) :
    Keeps ms r0 (enginesUpCmd s) := by
  unfold enginesUpCmd
  try dsimp only
  repeat' (first
    | with_reducible assumption
    | exact hM.trans rfl
    | with_reducible apply seqCmd_keeps
    | with_reducible apply raiseStage_keeps
    | with_reducible apply forwardPower_keeps
    | intro _
    | split)

theorem enginesDownCmd_keeps {ms : Nat} {r0 : State} {s : State} (hM : Sub 1814034 ms) (hK : Keeps ms r0 s) :
    Keeps ms r0 (enginesDownCmd s) := by
  unfold enginesDownCmd
  try dsimp only
  repeat' (first
    | with_reducible assumption
    | exact hM.trans rfl
    | with_reducible apply seqCmd_keeps
    | with_reducible apply forwardPower_keeps
    | with_reducible apply abortPages_keeps
    | with_reducible apply clearWaits_keeps
    | with_reducible apply formCheck_keeps
    | with_reducible apply modAon_keeps
    | intro _
    | split)

theorem seqOffCmd_keeps {ms : Nat} {r0 : State} {s : State} (hM : Sub 1814034 ms) (hK : Keeps ms r0 s) :
    Keeps ms r0 (seqOffCmd s) := by
  unfold seqOffCmd
  try dsimp only
  repeat' (first
    | with_reducible assumption
    | exact hM.trans rfl
    | with_reducible apply seqCmd_keeps
    | with_reducible apply orderlyStart_keeps
    | with_reducible apply forwardPower_keeps
    | intro _
    | split)

theorem offAckCmd_keeps {ms : Nat} {r0 : State} {s : State} (hM : Sub 1814034 ms) (hK : Keeps ms r0 s) :
    Keeps ms r0 (offAckCmd s) := by
  unfold offAckCmd
  try dsimp only
  repeat' (first
    | with_reducible assumption
    | exact hM.trans rfl
    | with_reducible apply graceEnd_keeps
    | with_reducible apply seqBusy_keeps
    | intro _
    | split)

theorem retryCmd_keeps {ms : Nat} {r0 : State} {s : State} (hM : Sub 1052162 ms) (hK : Keeps ms r0 s) :
    Keeps ms r0 (retryCmd s) := by
  unfold retryCmd
  try dsimp only
  repeat' (first
    | with_reducible assumption
    | exact hM.trans rfl
    | with_reducible apply seqCmd_keeps
    | with_reducible apply advance_keeps
    | with_reducible apply modAon_keeps
    | with_reducible apply forEach_keeps
    | with_reducible apply markWait_keeps
    | intro _
    | split)

theorem itemUpCmd_keeps {ms : Nat} {r0 : State} {i : Nat} {s : State} (hM : Sub 1052162 ms) (hK : Keeps ms r0 s) :
    Keeps ms r0 (itemUpCmd i s) := by
  unfold itemUpCmd
  try dsimp only
  repeat' (first
    | with_reducible assumption
    | exact hM.trans rfl
    | with_reducible apply seqCmd_keeps
    | with_reducible apply stallWith_keeps
    | with_reducible apply advance_keeps
    | with_reducible apply modAon_keeps
    | with_reducible apply markWait_keeps
    | intro _
    | split)

theorem itemDownCmd_keeps {ms : Nat} {r0 : State} {i : Nat} {s : State} (hM : Sub 1576466 ms) (hK : Keeps ms r0 s) :
    Keeps ms r0 (itemDownCmd i s) := by
  unfold itemDownCmd
  try dsimp only
  repeat' (first
    | with_reducible assumption
    | exact hM.trans rfl
    | with_reducible apply seqCmd_keeps
    | with_reducible apply formCheck_keeps
    | with_reducible apply modAon_keeps
    | with_reducible apply clearWaits_keeps
    | intro _
    | split)

theorem execXtalStable_keeps {ms : Nat} {r0 : State} {s : State} (hM : Sub 1052162 ms) (hK : Keeps ms r0 s) :
    KeepsO ms r0 (execXtalStable s) := by
  unfold execXtalStable
  try dsimp only
  repeat' (first
    | with_reducible assumption
    | exact hM.trans rfl
    | with_reducible apply keepsO_next
    | with_reducible apply whenS_keeps
    | with_reducible apply advance_keeps
    | with_reducible apply modAon_keeps
    | with_reducible apply keepsO_fault
    | split
    | intro _
    | split)

theorem execDomainSwitchStart_keeps {ms : Nat} {r0 : State} {s : State} (hM : Sub 2096698 ms) (hK : Keeps ms r0 s) :
    KeepsO ms r0 (execDomainSwitchStart s) := by
  unfold execDomainSwitchStart
  try dsimp only
  repeat' (first
    | with_reducible assumption
    | exact hM.trans rfl
    | with_reducible apply keepsO_next
    | with_reducible apply itemChange_keeps
    | with_reducible apply noteStart_keeps
    | with_reducible apply modDom_keeps
    | with_reducible apply keepsO_fault
    | split
    | intro _
    | split)

theorem execDomainGood_keeps {ms : Nat} {r0 : State} {d : Dom} {s : State} (hM : Sub 2096698 ms) (hK : Keeps ms r0 s) :
    KeepsO ms r0 (execDomainGood d s) := by
  unfold execDomainGood
  try dsimp only
  repeat' (first
    | with_reducible assumption
    | exact hM.trans rfl
    | with_reducible apply keepsO_next
    | with_reducible apply whenS_keeps
    | with_reducible apply itemChange_keeps
    | with_reducible apply modDom_keeps
    | with_reducible apply keepsO_fault
    | split
    | intro _
    | split)

theorem execDomainTimeout_keeps {ms : Nat} {r0 : State} {d : Dom} {s : State} (hM : Sub 2096699 ms) (hK : Keeps ms r0 s) :
    KeepsO ms r0 (execDomainTimeout d s) := by
  unfold execDomainTimeout
  try dsimp only
  repeat' (first
    | with_reducible assumption
    | exact hM.trans rfl
    | with_reducible apply keepsO_next
    | with_reducible apply whenS_keeps
    | with_reducible apply domFail_keeps
    | with_reducible apply timeTo_keeps
    | with_reducible apply keepsO_fault
    | split
    | intro _
    | split)

theorem execPllLockLost_keeps {ms : Nat} {r0 : State} {p : Pll} {s : State} (hM : Sub 2096698 ms) (hK : Keeps ms r0 s) :
    KeepsO ms r0 (execPllLockLost p s) := by
  unfold execPllLockLost
  try dsimp only
  repeat' (first
    | with_reducible assumption
    | exact hM.trans rfl
    | with_reducible apply keepsO_next
    | with_reducible apply whenS_keeps
    | with_reducible apply domFail_keeps
    | with_reducible apply keepsO_fault
    | split
    | intro _
    | split)

theorem execRailDlyExpire_keeps {ms : Nat} {r0 : State} {n : Rail} {s : State} (hM : Sub 2096699 ms) (hK : Keeps ms r0 s) :
    KeepsO ms r0 (execRailDlyExpire n s) := by
  unfold execRailDlyExpire
  try dsimp only
  repeat' (first
    | with_reducible assumption
    | exact hM.trans rfl
    | with_reducible apply keepsO_next
    | with_reducible apply whenS_keeps
    | with_reducible apply itemChange_keeps
    | with_reducible apply noteStart_keeps
    | with_reducible apply modRail_keeps
    | with_reducible apply timeTo_keeps
    | with_reducible apply keepsO_fault
    | split
    | intro _
    | split)

theorem execRailGood_keeps {ms : Nat} {r0 : State} {n : Rail} {s : State} (hM : Sub 2096699 ms) (hK : Keeps ms r0 s) :
    KeepsO ms r0 (execRailGood n s) := by
  unfold execRailGood
  try dsimp only
  repeat' (first
    | with_reducible assumption
    | exact hM.trans rfl
    | with_reducible apply keepsO_next
    | with_reducible apply whenS_keeps
    | with_reducible apply itemChange_keeps
    | with_reducible apply modRail_keeps
    | with_reducible apply timeTo_keeps
    | with_reducible apply keepsO_fault
    | split
    | intro _
    | split)

theorem execRailSswExpire_keeps {ms : Nat} {r0 : State} {n : Rail} {s : State} (hM : Sub 2096699 ms) (hK : Keeps ms r0 s) :
    KeepsO ms r0 (execRailSswExpire n s) := by
  unfold execRailSswExpire
  try dsimp only
  repeat' (first
    | with_reducible assumption
    | exact hM.trans rfl
    | with_reducible apply keepsO_next
    | with_reducible apply whenS_keeps
    | with_reducible apply railFail_keeps
    | with_reducible apply timeTo_keeps
    | with_reducible apply keepsO_fault
    | split
    | intro _
    | split)

theorem execRailOvercurrent_keeps {ms : Nat} {r0 : State} {n : Rail} {s : State} (hM : Sub 2096698 ms) (hK : Keeps ms r0 s) :
    KeepsO ms r0 (execRailOvercurrent n s) := by
  unfold execRailOvercurrent
  try dsimp only
  repeat' (first
    | with_reducible assumption
    | exact hM.trans rfl
    | with_reducible apply keepsO_next
    | with_reducible apply whenS_keeps
    | with_reducible apply railFail_keeps
    | with_reducible apply keepsO_fault
    | split
    | intro _
    | split)

theorem execRailCoolExpire_keeps {ms : Nat} {r0 : State} {n : Rail} {s : State} (hM : Sub 1052163 ms) (hK : Keeps ms r0 s) :
    KeepsO ms r0 (execRailCoolExpire n s) := by
  unfold execRailCoolExpire
  try dsimp only
  repeat' (first
    | with_reducible assumption
    | exact hM.trans rfl
    | with_reducible apply keepsO_next
    | with_reducible apply whenS_keeps
    | with_reducible apply timeTo_keeps
    | with_reducible apply advance_keeps
    | with_reducible apply modAon_keeps
    | with_reducible apply modRail_keeps
    | with_reducible apply keepsO_fault
    | split
    | intro _
    | split)

theorem execRailDrop_keeps {ms : Nat} {r0 : State} {n : Rail} {oc : Bool} {s : State} (hM : Sub 2096698 ms) (hK : Keeps ms r0 s) :
    KeepsO ms r0 (execRailDrop n oc s) := by
  unfold execRailDrop
  try dsimp only
  repeat' (first
    | with_reducible assumption
    | exact hM.trans rfl
    | with_reducible apply keepsO_next
    | with_reducible apply whenS_keeps
    | with_reducible apply railDropOp_keeps
    | with_reducible apply keepsO_fault
    | split
    | intro _
    | split)

theorem execCollapseStep_keeps {ms : Nat} {r0 : State} {s : State} (hM : Sub 2096699 ms) (hK : Keeps ms r0 s) :
    KeepsO ms r0 (execCollapseStep s) := by
  unfold execCollapseStep
  try dsimp only
  repeat' (first
    | with_reducible assumption
    | exact hM.trans rfl
    | with_reducible apply keepsO_next
    | with_reducible apply collapseStepOp_keeps
    | with_reducible apply keepsO_fault
    | split
    | intro _
    | split)

theorem execGraceExpire_keeps {ms : Nat} {r0 : State} {s : State} (hM : Sub 1814035 ms) (hK : Keeps ms r0 s) :
    KeepsO ms r0 (execGraceExpire s) := by
  unfold execGraceExpire
  try dsimp only
  repeat' (first
    | with_reducible assumption
    | exact hM.trans rfl
    | with_reducible apply keepsO_next
    | with_reducible apply graceEnd_keeps
    | with_reducible apply timeTo_keeps
    | with_reducible apply keepsO_fault
    | split
    | intro _
    | split)

theorem execOrderlyTakedownStep_keeps {ms : Nat} {r0 : State} {s : State} (hM : Sub 2096698 ms) (hK : Keeps ms r0 s) :
    KeepsO ms r0 (execOrderlyTakedownStep s) := by
  unfold execOrderlyTakedownStep
  try dsimp only
  repeat' (first
    | with_reducible assumption
    | exact hM.trans rfl
    | with_reducible apply keepsO_next
    | with_reducible apply orderlyStep_keeps
    | with_reducible apply keepsO_fault
    | split
    | intro _
    | split)

theorem execOffWindowExpire_keeps {ms : Nat} {r0 : State} {s : State} (hM : Sub 2096699 ms) (hK : Keeps ms r0 s) :
    KeepsO ms r0 (execOffWindowExpire s) := by
  unfold execOffWindowExpire
  try dsimp only
  repeat' (first
    | with_reducible assumption
    | exact hM.trans rfl
    | with_reducible apply keepsO_next
    | with_reducible apply orderlyStep_keeps
    | with_reducible apply logCode_keeps
    | with_reducible apply modRail_keeps
    | with_reducible apply timeTo_keeps
    | with_reducible apply keepsO_fault
    | split
    | intro _
    | split)

theorem execEnginesUp_keeps {ms : Nat} {r0 : State} {p : Port} {s : State} (hM : Sub 1576506 ms) (hK : Keeps ms r0 s) :
    KeepsO ms r0 (execEnginesUp p s) := by
  unfold execEnginesUp
  try dsimp only
  repeat' (first
    | with_reducible assumption
    | exact hM.trans rfl
    | with_reducible apply keepsO_next
    | with_reducible apply whenS_keeps
    | with_reducible apply enginesUpCmd_keeps
    | with_reducible apply keepsO_fault
    | split
    | intro _
    | split)

theorem execEnginesDown_keeps {ms : Nat} {r0 : State} {p : Port} {s : State} (hM : Sub 1814034 ms) (hK : Keeps ms r0 s) :
    KeepsO ms r0 (execEnginesDown p s) := by
  unfold execEnginesDown
  try dsimp only
  repeat' (first
    | with_reducible assumption
    | exact hM.trans rfl
    | with_reducible apply keepsO_next
    | with_reducible apply whenS_keeps
    | with_reducible apply enginesDownCmd_keeps
    | with_reducible apply keepsO_fault
    | split
    | intro _
    | split)

theorem execSeqOff_keeps {ms : Nat} {r0 : State} {p : Port} {s : State} (hM : Sub 1814034 ms) (hK : Keeps ms r0 s) :
    KeepsO ms r0 (execSeqOff p s) := by
  unfold execSeqOff
  try dsimp only
  repeat' (first
    | with_reducible assumption
    | exact hM.trans rfl
    | with_reducible apply keepsO_next
    | with_reducible apply whenS_keeps
    | with_reducible apply seqOffCmd_keeps
    | with_reducible apply keepsO_fault
    | split
    | intro _
    | split)

theorem execOffAck_keeps {ms : Nat} {r0 : State} {p : Port} {s : State} (hM : Sub 1814034 ms) (hK : Keeps ms r0 s) :
    KeepsO ms r0 (execOffAck p s) := by
  unfold execOffAck
  try dsimp only
  repeat' (first
    | with_reducible assumption
    | exact hM.trans rfl
    | with_reducible apply keepsO_next
    | with_reducible apply whenS_keeps
    | with_reducible apply offAckCmd_keeps
    | with_reducible apply keepsO_fault
    | split
    | intro _
    | split)

theorem execRetry_keeps {ms : Nat} {r0 : State} {p : Port} {s : State} (hM : Sub 1052162 ms) (hK : Keeps ms r0 s) :
    KeepsO ms r0 (execRetry p s) := by
  unfold execRetry
  try dsimp only
  repeat' (first
    | with_reducible assumption
    | exact hM.trans rfl
    | with_reducible apply keepsO_next
    | with_reducible apply whenS_keeps
    | with_reducible apply retryCmd_keeps
    | with_reducible apply keepsO_fault
    | split
    | intro _
    | split)

theorem execItemUp_keeps {ms : Nat} {r0 : State} {p : Port} {item : BitVec 5} {s : State} (hM : Sub 1052162 ms) (hK : Keeps ms r0 s) :
    KeepsO ms r0 (execItemUp p item s) := by
  unfold execItemUp
  try dsimp only
  repeat' (first
    | with_reducible assumption
    | exact hM.trans rfl
    | with_reducible apply keepsO_next
    | with_reducible apply whenS_keeps
    | with_reducible apply itemUpCmd_keeps
    | with_reducible apply keepsO_fault
    | split
    | intro _
    | split)

theorem execItemDown_keeps {ms : Nat} {r0 : State} {p : Port} {item : BitVec 5} {s : State} (hM : Sub 1576466 ms) (hK : Keeps ms r0 s) :
    KeepsO ms r0 (execItemDown p item s) := by
  unfold execItemDown
  try dsimp only
  repeat' (first
    | with_reducible assumption
    | exact hM.trans rfl
    | with_reducible apply keepsO_next
    | with_reducible apply whenS_keeps
    | with_reducible apply itemDownCmd_keeps
    | with_reducible apply keepsO_fault
    | split
    | intro _
    | split)

theorem seqCmdWrite_keeps {ms : Nat} {r0 : State} {code : Nat} {item : Nat} {s : State} (hM : Sub 1814074 ms) (hK : Keeps ms r0 s) :
    Keeps ms r0 (seqCmdWrite code item s) := by
  unfold seqCmdWrite
  try dsimp only
  repeat' (first
    | with_reducible assumption
    | exact hM.trans rfl
    | with_reducible apply enginesUpCmd_keeps
    | with_reducible apply enginesDownCmd_keeps
    | with_reducible apply seqOffCmd_keeps
    | with_reducible apply offAckCmd_keeps
    | with_reducible apply retryCmd_keeps
    | with_reducible apply itemUpCmd_keeps
    | with_reducible apply itemDownCmd_keeps
    | with_reducible apply modAon_keeps
    | intro _
    | split)

theorem execSeqBadCmd_keeps {ms : Nat} {r0 : State} {p : Port} {code : BitVec 4} {s : State} (hM : Sub 1814074 ms) (hK : Keeps ms r0 s) :
    KeepsO ms r0 (execSeqBadCmd p code s) := by
  unfold execSeqBadCmd
  try dsimp only
  repeat' (first
    | with_reducible assumption
    | exact hM.trans rfl
    | with_reducible apply keepsO_next
    | with_reducible apply whenS_keeps
    | with_reducible apply seqCmdWrite_keeps
    | with_reducible apply keepsO_fault
    | split
    | intro _
    | split)

theorem execBtnPress_keeps {ms : Nat} {r0 : State} {s : State} (hM : Sub 2051 ms) (hK : Keeps ms r0 s) :
    KeepsO ms r0 (execBtnPress s) := by
  unfold execBtnPress
  try dsimp only
  repeat' (first
    | with_reducible assumption
    | exact hM.trans rfl
    | with_reducible apply keepsO_next
    | with_reducible apply whenS_keeps
    | with_reducible apply timeTo_keeps
    | with_reducible apply modAon_keeps
    | with_reducible apply keepsO_fault
    | split
    | intro _
    | split)

theorem btnReleaseOp_keeps {ms : Nat} {r0 : State} {p : Press} {s : State} (hM : Sub 1576506 ms) (hK : Keeps ms r0 s) :
    Keeps ms r0 (btnReleaseOp p s) := by
  unfold btnReleaseOp
  try dsimp only
  repeat' (first
    | with_reducible assumption
    | exact hM.trans rfl
    | with_reducible apply modAon_keeps
    | with_reducible apply raiseStage_keeps
    | with_reducible apply aonEvent_keeps
    | intro _
    | split)

theorem execBtnRelease_keeps {ms : Nat} {r0 : State} {s : State} (hM : Sub 1576506 ms) (hK : Keeps ms r0 s) :
    KeepsO ms r0 (execBtnRelease s) := by
  unfold execBtnRelease
  try dsimp only
  repeat' (first
    | with_reducible assumption
    | exact hM.trans rfl
    | with_reducible apply keepsO_next
    | with_reducible apply btnReleaseOp_keeps
    | with_reducible apply keepsO_fault
    | split
    | intro _
    | split)

theorem execBtnLong_keeps {ms : Nat} {r0 : State} {s : State} (hM : Sub 1814035 ms) (hK : Keeps ms r0 s) :
    KeepsO ms r0 (execBtnLong s) := by
  unfold execBtnLong
  try dsimp only
  repeat' (first
    | with_reducible assumption
    | exact hM.trans rfl
    | with_reducible apply keepsO_next
    | with_reducible apply modAon_keeps
    | with_reducible apply timeTo_keeps
    | with_reducible apply orderlyStart_keeps
    | with_reducible apply keepsO_fault
    | split
    | intro _
    | split)

theorem execBtnCut_keeps {ms : Nat} {r0 : State} {s : State} (hM : Sub 2096699 ms) (hK : Keeps ms r0 s) :
    KeepsO ms r0 (execBtnCut s) := by
  unfold execBtnCut
  try dsimp only
  repeat' (first
    | with_reducible assumption
    | exact hM.trans rfl
    | with_reducible apply keepsO_next
    | with_reducible apply modAon_keeps
    | with_reducible apply timeTo_keeps
    | with_reducible apply immediateCut_keeps
    | with_reducible apply keepsO_fault
    | split
    | intro _
    | split)

theorem resetMins_keeps {ms : Nat} {r0 : State} {s : State} (hM : Sub 512 ms) (hK : Keeps ms r0 s) :
    Keeps ms r0 (resetMins s) := by
  unfold resetMins
  try dsimp only
  repeat' (first
    | with_reducible assumption
    | exact hM.trans rfl
    | intro _
    | split
    | with_reducible apply keeps_fl)

theorem execMrstAssert_keeps {ms : Nat} {r0 s : State} (hM : Sub 2097018 ms) (hr : r0.lock = false) (hK : Keeps ms r0 s) :
    KeepsO ms r0 (execMrstAssert s) := by
  unfold execMrstAssert
  apply keepsO_next
  split
  · exact modAon_keeps (hM.trans rfl) hK
  · refine whenS_keeps hK fun s h => resetMins_keeps (hM.trans rfl) (settled_keeps (fun s h => ?_) (hM.trans rfl) h)
    exact keeps_unlocked (hM.trans rfl) hr (modAon_keeps (hM.trans rfl) (imageCut_keeps (hM.trans rfl)
      (sheetStop_keeps (hM.trans rfl) h))) _ _ _

theorem execMrstRelease_keeps {ms : Nat} {r0 : State} {s : State} (hM : Sub 2096698 ms) (hK : Keeps ms r0 s) :
    KeepsO ms r0 (execMrstRelease s) := by
  unfold execMrstRelease
  try dsimp only
  repeat' (first
    | with_reducible assumption
    | exact hM.trans rfl
    | with_reducible apply keepsO_next
    | with_reducible apply modAon_keeps
    | with_reducible apply whenS_keeps
    | with_reducible apply settled_keeps
    | with_reducible apply noteDrive_keeps
    | with_reducible apply keepsO_fault
    | split
    | intro _
    | split)

theorem execPfwCollapse_keeps {ms : Nat} {r0 : State} {s : State} (hM : Sub 1576507 ms) (hK : Keeps ms r0 s) :
    KeepsO ms r0 (execPfwCollapse s) := by
  unfold execPfwCollapse
  try dsimp only
  repeat' (first
    | with_reducible assumption
    | exact hM.trans rfl
    | with_reducible apply keepsO_next
    | with_reducible apply whenS_keeps
    | with_reducible apply collapseDetect_keeps
    | with_reducible apply timeTo_keeps
    | with_reducible apply keepsO_fault
    | split
    | intro _
    | split)

theorem execVsenseCollapse_keeps {ms : Nat} {r0 : State} {s : State} (hM : Sub 1576506 ms) (hK : Keeps ms r0 s) :
    KeepsO ms r0 (execVsenseCollapse s) := by
  unfold execVsenseCollapse
  try dsimp only
  repeat' (first
    | with_reducible assumption
    | exact hM.trans rfl
    | with_reducible apply keepsO_next
    | with_reducible apply whenS_keeps
    | with_reducible apply collapseDetect_keeps
    | with_reducible apply modAon_keeps
    | with_reducible apply keepsO_fault
    | split
    | intro _
    | split)

theorem execVsenseArm_keeps {ms : Nat} {r0 : State} {s : State} (hM : Sub 2051 ms) (hK : Keeps ms r0 s) :
    KeepsO ms r0 (execVsenseArm s) := by
  unfold execVsenseArm
  try dsimp only
  repeat' (first
    | with_reducible assumption
    | exact hM.trans rfl
    | with_reducible apply keepsO_next
    | with_reducible apply whenS_keeps
    | with_reducible apply modAon_keeps
    | with_reducible apply timeTo_keeps
    | with_reducible apply keepsO_fault
    | split
    | intro _
    | split)

theorem execCollapseRecovery_keeps {ms : Nat} {r0 : State} {s : State} (hM : Sub 1576507 ms) (hK : Keeps ms r0 s) :
    KeepsO ms r0 (execCollapseRecovery s) := by
  unfold execCollapseRecovery
  try dsimp only
  repeat' (first
    | with_reducible assumption
    | exact hM.trans rfl
    | with_reducible apply keepsO_next
    | with_reducible apply modAon_keeps
    | with_reducible apply timeTo_keeps
    | with_reducible apply autoRaise_keeps
    | with_reducible apply keepsO_fault
    | split
    | intro _
    | split)

end Sys2Proof.Machine
end

