-- ==== Sys2Proof/Laws/KeepsWatch.lean ====
section
/-!
SUPPORT. Machine/Watch.lean: each operation keeps what no command takes back (Laws/Keeps.lean).
-/

namespace Sys2Proof.Machine

set_option linter.all false

theorem execSafeNFall_keeps {ms : Nat} {r0 : State} {s : State} (hM : Sub 2 ms) (hK : Keeps ms r0 s) :
    KeepsO ms r0 (execSafeNFall s) := by
  unfold execSafeNFall
  try dsimp only
  repeat' (first
    | with_reducible assumption
    | exact hM.trans rfl
    | with_reducible apply keepsO_next
    | with_reducible apply whenS_keeps
    | with_reducible apply modAon_keeps
    | with_reducible apply keepsO_fault
    | split
    | intro _
    | split)

theorem safeRecognise_keeps {ms : Nat} {r0 : State} {t : Nat} {s : State} (hM : Sub 1568275 ms) (hK : Keeps ms r0 s) :
    Keeps ms r0 (safeRecognise t s) := by
  unfold safeRecognise
  try dsimp only
  repeat' (first
    | with_reducible assumption
    | exact hM.trans rfl
    | with_reducible apply timeTo_keeps
    | with_reducible apply safeEnter_keeps
    | with_reducible apply sheetStop_keeps
    | with_reducible apply modAon_keeps
    | intro _
    | split)

theorem execSafeNRecognised_keeps {ms : Nat} {r0 : State} {s : State} (hM : Sub 1568275 ms) (hK : Keeps ms r0 s) :
    KeepsO ms r0 (execSafeNRecognised s) := by
  unfold execSafeNRecognised
  try dsimp only
  repeat' (first
    | with_reducible assumption
    | exact hM.trans rfl
    | with_reducible apply keepsO_next
    | with_reducible apply safeRecognise_keeps
    | with_reducible apply keepsO_fault
    | split
    | intro _
    | split)

theorem execSafeNRise_keeps {ms : Nat} {r0 : State} {s : State} (hM : Sub 1568275 ms) (hK : Keeps ms r0 s) :
    KeepsO ms r0 (execSafeNRise s) := by
  unfold execSafeNRise
  try dsimp only
  repeat' (first
    | with_reducible assumption
    | exact hM.trans rfl
    | with_reducible apply keepsO_next
    | with_reducible apply safeRecognise_keeps
    | with_reducible apply whenS_keeps
    | with_reducible apply modAon_keeps
    | with_reducible apply keepsO_fault
    | split
    | intro _
    | split)

theorem safeAssertOp_keeps {ms : Nat} {r0 : State} {on : Bool} {s : State} (hM : Sub 1568274 ms) (hK : Keeps ms r0 s) :
    Keeps ms r0 (safeAssertOp on s) := by
  unfold safeAssertOp
  try dsimp only
  repeat' (first
    | with_reducible assumption
    | exact hM.trans rfl
    | with_reducible apply noteDrive_keeps
    | with_reducible apply modAon_keeps
    | with_reducible apply driveEnter_keeps
    | intro _
    | split)

theorem execSafeAssert_keeps {ms : Nat} {r0 : State} {p : Port} {on : Bool} {s : State} (hM : Sub 1568274 ms) (hK : Keeps ms r0 s) :
    KeepsO ms r0 (execSafeAssert p on s) := by
  unfold execSafeAssert
  try dsimp only
  repeat' (first
    | with_reducible assumption
    | exact hM.trans rfl
    | with_reducible apply keepsO_next
    | with_reducible apply whenS_keeps
    | with_reducible apply safeAssertOp_keeps
    | with_reducible apply keepsO_fault
    | split
    | intro _
    | split)

theorem safeReleaseOp_keeps {ms : Nat} {r0 : State} {s : State} (hM : Sub 2 ms) (hK : Keeps ms r0 s) :
    Keeps ms r0 (safeReleaseOp s) := by
  unfold safeReleaseOp
  try dsimp only
  repeat' (first
    | with_reducible assumption
    | exact hM.trans rfl
    | with_reducible apply modAon_keeps
    | intro _
    | split)

theorem execSafeRelease_keeps {ms : Nat} {r0 : State} {p : Port} {s : State} (hM : Sub 2 ms) (hK : Keeps ms r0 s) :
    KeepsO ms r0 (execSafeRelease p s) := by
  unfold execSafeRelease
  try dsimp only
  repeat' (first
    | with_reducible assumption
    | exact hM.trans rfl
    | with_reducible apply keepsO_next
    | with_reducible apply whenS_keeps
    | with_reducible apply safeReleaseOp_keeps
    | with_reducible apply keepsO_fault
    | split
    | intro _
    | split)

theorem execHeartbeatLost_keeps {ms : Nat} {r0 : State} {k : Fin 8} {s : State} (hM : Sub 1568275 ms) (hK : Keeps ms r0 s) :
    KeepsO ms r0 (execHeartbeatLost k s) := by
  unfold execHeartbeatLost
  try dsimp only
  repeat' (first
    | with_reducible assumption
    | exact hM.trans rfl
    | with_reducible apply keepsO_next
    | with_reducible apply whenS_keeps
    | with_reducible apply driveEnter_keeps
    | with_reducible apply modAon_keeps
    | with_reducible apply timeTo_keeps
    | with_reducible apply keepsO_fault
    | split
    | intro _
    | split)

theorem sensorStep_keeps {ms : Nat} {r0 : State} {die : Vector (BitVec 16) 9} {n : Fin 9} {s : State} (hM : Sub 1052182 ms) (hK : Keeps ms r0 s) :
    Keeps ms r0 (sensorStep die n s) := by
  unfold sensorStep
  try dsimp only
  repeat' (first
    | with_reducible assumption
    | exact hM.trans rfl
    | with_reducible apply modTherm_keeps
    | with_reducible apply logPost_keeps
    | intro _
    | split)

theorem tellState_keeps {ms : Nat} {r0 : State} {code : Nat} {st : Nat} {idx : Nat} {td : BitVec 16} {was : Bool} {is : Bool} {s : State} (hM : Sub 1052178 ms) (hK : Keeps ms r0 s) :
    Keeps ms r0 (tellState code st idx td was is s) := by
  unfold tellState
  try dsimp only
  repeat' (first
    | with_reducible assumption
    | exact hM.trans rfl
    | with_reducible apply logPost_keeps
    | intro _
    | split)

theorem thermalForm_keeps {ms : Nat} {r0 : State} {s : State} (hM : Sub 1814034 ms) (hK : Keeps ms r0 s) :
    Keeps ms r0 (thermalForm s) := by
  unfold thermalForm
  try dsimp only
  repeat' (first
    | with_reducible assumption
    | exact hM.trans rfl
    | with_reducible apply graceEnd_keeps
    | with_reducible apply modAon_keeps
    | with_reducible apply orderlyStart_keeps
    | intro _
    | split)

theorem thermalShutdown_keeps {ms : Nat} {r0 : State} {cause : BitVec 3} {s : State} (hM : Sub 2092566 ms) (hK : Keeps ms r0 s) :
    Keeps ms r0 (thermalShutdown cause s) := by
  unfold thermalShutdown
  try dsimp only
  repeat' (first
    | with_reducible assumption
    | exact hM.trans rfl
    | with_reducible apply thermalForm_keeps
    | with_reducible apply driveEnter_keeps
    | with_reducible apply modAon_keeps
    | with_reducible apply modTherm_keeps
    | intro _
    | split)

theorem thermStates_keeps {ms : Nat} {r0 : State} {idx : Nat} {td : BitVec 16} {s : State} (hM : Sub 2092566 ms) (hK : Keeps ms r0 s) :
    Keeps ms r0 (thermStates idx td s) := by
  unfold thermStates
  try dsimp only
  repeat' (first
    | with_reducible assumption
    | exact hM.trans rfl
    | with_reducible apply modTherm_keeps
    | with_reducible apply tellState_keeps
    | with_reducible apply logPost_keeps
    | with_reducible apply thermalShutdown_keeps
    | intro _
    | split)

theorem thermistorStep_keeps {ms : Nat} {r0 : State} {th : Vector (BitVec 12) 8} {n : Fin 8} {s : State} (hM : Sub 1052182 ms) (hK : Keeps ms r0 s) :
    Keeps ms r0 (thermistorStep th n s) := by
  unfold thermistorStep
  try dsimp only
  repeat' (first
    | with_reducible assumption
    | exact hM.trans rfl
    | with_reducible apply modTherm_keeps
    | with_reducible apply logPost_keeps
    | intro _
    | split)

theorem convertAll_keeps {ms : Nat} {r0 : State} {die : Vector (BitVec 16) 9} {th : Vector (BitVec 12) 8} {s : State} (hM : Sub 2092566 ms) (hK : Keeps ms r0 s) :
    Keeps ms r0 (convertAll die th s) := by
  unfold convertAll
  try dsimp only
  repeat' (first
    | with_reducible assumption
    | exact hM.trans rfl
    | with_reducible apply forEach_keeps
    | with_reducible apply sensorStep_keeps
    | with_reducible apply thermStates_keeps
    | with_reducible apply thermistorStep_keeps
    | with_reducible apply logPost_keeps
    | with_reducible apply modTherm_keeps
    | with_reducible apply thermalShutdown_keeps
    | intro _
    | split)

theorem execThermalConversion_keeps {ms : Nat} {r0 : State} {die : Vector (BitVec 16) 9} {th : Vector (BitVec 12) 8} {s : State} (hM : Sub 2092567 ms) (hK : Keeps ms r0 s) :
    KeepsO ms r0 (execThermalConversion die th s) := by
  unfold execThermalConversion
  try dsimp only
  repeat' (first
    | with_reducible assumption
    | exact hM.trans rfl
    | with_reducible apply keepsO_next
    | with_reducible apply whenS_keeps
    | with_reducible apply noteDrive_keeps
    | with_reducible apply convertAll_keeps
    | with_reducible apply timeTo_keeps
    | with_reducible apply keepsO_fault
    | split
    | intro _
    | split)

theorem nvApply_keeps {ms : Nat} {r0 : State} {w : NvWrite} {s : State} (hM : Sub 10 ms) (hK : Keeps ms r0 s) :
    Keeps ms r0 (nvApply w s) := by
  unfold nvApply
  try dsimp only
  repeat' (first
    | with_reducible assumption
    | exact hM.trans rfl
    | with_reducible apply modNv_keeps
    | with_reducible apply modAon_keeps
    | intro _
    | split)

theorem execNvWrite_keeps {ms : Nat} {r0 : State} {s : State} (hM : Sub 10 ms) (hK : Keeps ms r0 s) :
    KeepsO ms r0 (execNvWrite s) := by
  unfold execNvWrite
  try dsimp only
  repeat' (first
    | with_reducible assumption
    | exact hM.trans rfl
    | with_reducible apply keepsO_next
    | with_reducible apply nvApply_keeps
    | with_reducible apply modNv_keeps
    | with_reducible apply keepsO_fault
    | split
    | intro _
    | split)

theorem modStream_keeps {ms : Nat} {r0 : State} {k : Fin 4} {f : Stream → Stream} {s : State} (hM : Sub 8 ms) (hK : Keeps ms r0 s) :
    Keeps ms r0 (modStream k f s) := by
  unfold modStream
  try dsimp only
  repeat' (first
    | with_reducible assumption
    | exact hM.trans rfl
    | with_reducible apply modNv_keeps
    | intro _
    | split)

theorem logDiscard_keeps {ms : Nat} {r0 : State} {e : LogEntry} {s : State} (hM : Sub 520 ms) (hK : Keeps ms r0 s) :
    Keeps ms r0 (logDiscard e s) := by
  unfold logDiscard
  try dsimp only
  repeat' (first
    | with_reducible assumption
    | exact hM.trans rfl
    | with_reducible apply retTally_keeps
    | with_reducible apply modStream_keeps
    | intro _
    | split)

theorem logCommit_keeps {ms : Nat} {r0 : State} {e : LogEntry} {rest : List LogEntry} {s : State} (hM : Sub 536 ms) (hK : Keeps ms r0 s) :
    Keeps ms r0 (logCommit e rest s) := by
  unfold logCommit
  try dsimp only
  repeat' (first
    | with_reducible assumption
    | exact hM.trans rfl
    | with_reducible apply modLg_keeps
    | with_reducible apply logDiscard_keeps
    | with_reducible apply retTally_keeps
    | with_reducible apply modStream_keeps
    | intro _
    | split)

theorem execLogRecordCommit_keeps {ms : Nat} {r0 : State} {s : State} (hM : Sub 536 ms) (hK : Keeps ms r0 s) :
    KeepsO ms r0 (execLogRecordCommit s) := by
  unfold execLogRecordCommit
  try dsimp only
  repeat' (first
    | with_reducible assumption
    | exact hM.trans rfl
    | with_reducible apply keepsO_next
    | with_reducible apply logCommit_keeps
    | with_reducible apply keepsO_fault
    | split
    | intro _
    | split)

theorem cutWrite_keeps {ms : Nat} {r0 : State} {e : LogEntry} {s : State} (hM : Sub 2097160 ms) (hK : Keeps ms r0 s) :
    Keeps ms r0 (cutWrite e s) := by
  unfold cutWrite
  try dsimp only
  repeat' (first
    | with_reducible assumption
    | exact hM.trans rfl
    | with_reducible apply forEach_keeps
    | with_reducible apply useFree_keeps
    | with_reducible apply modStream_keeps
    | intro _
    | split)

theorem cutLog_keeps {ms : Nat} {r0 : State} {ab : Bool} {s : State} (hM : Sub 2097160 ms) (hK : Keeps ms r0 s) :
    Keeps ms r0 (cutLog ab s) := by
  unfold cutLog
  try dsimp only
  repeat' (first
    | with_reducible assumption
    | exact hM.trans rfl
    | with_reducible apply cutWrite_keeps
    | intro _
    | split)

theorem execPfwNFall_keeps {ms : Nat} {r0 : State} {s : State} (hM : Sub 2097690 ms) (hK : Keeps ms r0 s) :
    KeepsO ms r0 (execPfwNFall s) := by
  unfold execPfwNFall
  try dsimp only
  repeat' (first
    | with_reducible assumption
    | exact hM.trans rfl
    | with_reducible apply keepsO_next
    | with_reducible apply modAon_keeps
    | with_reducible apply cutLog_keeps
    | with_reducible apply forEach_keeps
    | with_reducible apply logDiscard_keeps
    | with_reducible apply modLg_keeps
    | with_reducible apply keepsO_fault
    | split
    | intro _
    | split)

theorem logReadoutOp_keeps {ms : Nat} {r0 : State} {v : Word} {s : State} (hM : Sub 16 ms) (hK : Keeps ms r0 s) :
    Keeps ms r0 (logReadoutOp v s) := by
  unfold logReadoutOp
  try dsimp only
  repeat' (first
    | with_reducible assumption
    | exact hM.trans rfl
    | with_reducible apply modLg_keeps
    | intro _
    | split)

theorem execLogReadout_keeps {ms : Nat} {r0 : State} {p : Port} {v : Word} {s : State} (hM : Sub 16 ms) (hK : Keeps ms r0 s) :
    KeepsO ms r0 (execLogReadout p v s) := by
  unfold execLogReadout
  try dsimp only
  repeat' (first
    | with_reducible assumption
    | exact hM.trans rfl
    | with_reducible apply keepsO_next
    | with_reducible apply whenS_keeps
    | with_reducible apply logReadoutOp_keeps
    | with_reducible apply keepsO_fault
    | split
    | intro _
    | split)

theorem execLogReadoutDone_keeps {ms : Nat} {r0 : State} {s : State} (hM : Sub 16 ms) (hK : Keeps ms r0 s) :
    KeepsO ms r0 (execLogReadoutDone s) := by
  unfold execLogReadoutDone
  try dsimp only
  repeat' (first
    | with_reducible assumption
    | exact hM.trans rfl
    | with_reducible apply keepsO_next
    | with_reducible apply whenS_keeps
    | with_reducible apply modLg_keeps
    | with_reducible apply keepsO_fault
    | split
    | intro _
    | split)

theorem exportCtl_keeps {ms : Nat} {r0 : State} {v : Word} {s : State} (hM : Sub 16 ms) (hK : Keeps ms r0 s) :
    Keeps ms r0 (exportCtl v s) := by
  unfold exportCtl
  try dsimp only
  repeat' (first
    | with_reducible assumption
    | exact hM.trans rfl
    | with_reducible apply modLg_keeps
    | intro _
    | split)

end Sys2Proof.Machine
end

