-- ==== Sys2Proof/Laws/KeepsScanner.lean ====
section
/-!
SUPPORT. Machine/Scanner.lean: each operation keeps what no command takes back (Laws/Keeps.lean).
-/

namespace Sys2Proof.Machine

set_option linter.all false

theorem scanlRun_keeps {ms : Nat} {r0 : State} {k : Nat} {s : State} (hM : Sub 262144 ms) (hK : Keeps ms r0 s) :
    Keeps ms r0 (scanlRun k s) := by
  unfold scanlRun
  try dsimp only
  repeat' (first
    | with_reducible assumption
    | exact hM.trans rfl
    | with_reducible apply modScan_keeps
    | intro _
    | split)

theorem scanCount_keeps {ms : Nat} {r0 : State} {code : Nat} {s : State} (hM : Sub 262144 ms) (hK : Keeps ms r0 s) :
    Keeps ms r0 (scanCount code s) := by
  unfold scanCount
  try dsimp only
  repeat' (first
    | with_reducible assumption
    | exact hM.trans rfl
    | with_reducible apply modScan_keeps
    | intro _
    | split)

theorem exposeEnd_keeps {ms : Nat} {r0 : State} {l : SLine} {s : State} (hM : Sub 1345539 ms) (hK : Keeps ms r0 s) :
    Keeps ms r0 (exposeEnd l s) := by
  unfold exposeEnd
  try dsimp only
  repeat' (first
    | with_reducible assumption
    | exact hM.trans rfl
    | with_reducible apply emit_keeps
    | with_reducible apply modScan_keeps
    | with_reducible apply etTo_keeps
    | with_reducible apply noteMoving_keeps
    | with_reducible apply modStep_keeps
    | intro _
    | split)

theorem execScanExposureEnd_keeps {ms : Nat} {r0 : State} {s : State} (hM : Sub 1345539 ms) (hK : Keeps ms r0 s) :
    KeepsO ms r0 (execScanExposureEnd s) := by
  unfold execScanExposureEnd
  try dsimp only
  repeat' (first
    | with_reducible assumption
    | exact hM.trans rfl
    | with_reducible apply keepsO_next
    | with_reducible apply exposeEnd_keeps
    | with_reducible apply keepsO_fault
    | split
    | intro _
    | split)

theorem bufDone_keeps {ms : Nat} {r0 : State} {b : SBuf} {bytes : Nat} {status : Nat} {s : State} (hM : Sub 1052162 ms) (hK : Keeps ms r0 s) :
    Keeps ms r0 (bufDone b bytes status s) := by
  unfold bufDone
  try dsimp only
  repeat' (first
    | with_reducible assumption
    | exact hM.trans rfl
    | with_reducible apply engine_keeps
    | with_reducible apply retTally_keeps
    | intro _
    | split)

theorem bufPushOp_keeps {ms : Nat} {r0 : State} {s : State} (hM : Sub 262656 ms) (hK : Keeps ms r0 s) :
    Keeps ms r0 (bufPushOp s) := by
  unfold bufPushOp
  try dsimp only
  repeat' (first
    | with_reducible assumption
    | exact hM.trans rfl
    | with_reducible apply takeTally_keeps
    | with_reducible apply modScan_keeps
    | intro _
    | split)

theorem execScanBufPush_keeps {ms : Nat} {r0 : State} {s : State} (hM : Sub 262656 ms) (hK : Keeps ms r0 s) :
    KeepsO ms r0 (execScanBufPush s) := by
  unfold execScanBufPush
  try dsimp only
  repeat' (first
    | with_reducible assumption
    | exact hM.trans rfl
    | with_reducible apply keepsO_next
    | with_reducible apply whenS_keeps
    | with_reducible apply bufPushOp_keeps
    | with_reducible apply keepsO_fault
    | split
    | intro _
    | split)

theorem rawWrite_keeps {ms : Nat} {r0 : State} {line : List Byte} {rest : List (List Byte)} {b : SBuf} {bs : List SBuf} {s : State} (hM : Sub 1318402 ms) (hK : Keeps ms r0 s) :
    Keeps ms r0 (rawWrite line rest b bs s) := by
  unfold rawWrite
  try dsimp only
  repeat' (first
    | with_reducible assumption
    | exact hM.trans rfl
    | with_reducible apply retTally_keeps
    | with_reducible apply modScan_keeps
    | with_reducible apply localWrite_keeps
    | with_reducible apply bufDone_keeps
    | intro _
    | split)

theorem execScanRawWrite_keeps {ms : Nat} {r0 : State} {s : State} (hM : Sub 1318402 ms) (hK : Keeps ms r0 s) :
    KeepsO ms r0 (execScanRawWrite s) := by
  unfold execScanRawWrite
  try dsimp only
  repeat' (first
    | with_reducible assumption
    | exact hM.trans rfl
    | with_reducible apply keepsO_next
    | with_reducible apply rawWrite_keeps
    | with_reducible apply keepsO_fault
    | split
    | intro _
    | split)

theorem feedScan_keeps {ms : Nat} {r0 : State} {e : Fin 2} (hM : Sub 270848 ms) :
    ∀ {n : Nat} {s : State}, Keeps ms r0 s → Keeps ms r0 (feedScan e n s)
  | 0, _, h => h
  | n + 1, s, h => by
    unfold feedScan; dsimp only
    split
    · exact feedScan_keeps hM (n := n) (modScan_keeps (hM.trans rfl) (pushEnc_keeps (hM.trans rfl) h))
    · exact h

theorem driveScan_keeps {ms : Nat} {r0 : State} {s : State} (hM : Sub 270848 ms) (hK : Keeps ms r0 s) :
    Keeps ms r0 (driveScan s) := by
  unfold driveScan
  try dsimp only
  repeat' (first
    | with_reducible assumption
    | exact hM.trans rfl
    | with_reducible apply feedScan_keeps
    | with_reducible apply openEnc_keeps
    | intro _
    | split)

theorem feedLog_keeps {ms : Nat} {r0 : State} {e : Fin 2} (hM : Sub 8704 ms) :
    ∀ {n : Nat} {s : State}, Keeps ms r0 s → Keeps ms r0 (feedLog e n s)
  | 0, _, h => h
  | n + 1, s, h => by
    unfold feedLog; dsimp only
    split
    · exact feedLog_keeps hM (n := n) (pushEnc_keeps (hM.trans rfl) h)
    · exact h

theorem driveLog_keeps {ms : Nat} {r0 : State} {s : State} (hM : Sub 8720 ms) (hK : Keeps ms r0 s) :
    Keeps ms r0 (driveLog s) := by
  unfold driveLog
  try dsimp only
  repeat' (first
    | with_reducible assumption
    | exact hM.trans rfl
    | with_reducible apply feedLog_keeps
    | with_reducible apply openEnc_keeps
    | with_reducible apply modLg_keeps
    | intro _
    | split)

theorem driveEnc_keeps {ms : Nat} {r0 : State} {s : State} (hM : Sub 270864 ms) (hK : Keeps ms r0 s) :
    Keeps ms r0 (driveEnc s) := by
  unfold driveEnc
  try dsimp only
  repeat' (first
    | with_reducible assumption
    | exact hM.trans rfl
    | with_reducible apply driveLog_keeps
    | with_reducible apply driveScan_keeps
    | intro _
    | split)

theorem returnLines_keeps {ms : Nat} {r0 : State} (hM : Sub 262656 ms) :
    ∀ {n : Nat} {s : State}, Keeps ms r0 s → Keeps ms r0 (returnLines n s)
  | 0, _, h => h
  | n + 1, s, h => by
    unfold returnLines
    split
    · split
      · exact returnLines_keeps hM (n := n) (retTally_keeps (hM.trans rfl) (modScan_keeps (hM.trans rfl) h))
      · exact h
    · exact h

theorem scanStreamEnd_keeps {ms : Nat} {r0 : State} {status : Nat} {bytes : Nat} {s : State} (hM : Sub 1314306 ms) (hK : Keeps ms r0 s) :
    Keeps ms r0 (scanStreamEnd status bytes s) := by
  unfold scanStreamEnd
  try dsimp only
  repeat' (first
    | with_reducible assumption
    | exact hM.trans rfl
    | with_reducible apply bufDone_keeps
    | with_reducible apply modScan_keeps
    | intro _
    | split)

theorem encTold_keeps {ms : Nat} {r0 : State} {e : Fin 2} {n : Nat} {s : State} (hM : Sub 1347090 ms) (hK : Keeps ms r0 s) :
    Keeps ms r0 (encTold e n s) := by
  unfold encTold
  try dsimp only
  repeat' (first
    | with_reducible assumption
    | exact hM.trans rfl
    | with_reducible apply modLg_keeps
    | with_reducible apply returnLines_keeps
    | with_reducible apply modScan_keeps
    | with_reducible apply scanStreamEnd_keeps
    | with_reducible apply scanFault_keeps
    | intro _
    | split)

theorem execTampEncodeBlock_keeps {ms : Nat} {r0 : State} {e : Fin 2} {poison : Bool} {s : State} (hM : Sub 3456530 ms) (hK : Keeps ms r0 s) :
    KeepsO ms r0 (execTampEncodeBlock e poison s) := by
  unfold execTampEncodeBlock
  try dsimp only
  repeat' (first
    | with_reducible assumption
    | exact hM.trans rfl
    | with_reducible apply keepsO_next
    | with_reducible apply driveEnc_keeps
    | with_reducible apply encTold_keeps
    | with_reducible apply encodeStep_keeps
    | with_reducible apply keepsO_fault
    | split
    | intro _
    | split)

theorem exportStart_keeps {ms : Nat} {r0 : State} {v : Word} {s : State} (hM : Sub 270864 ms) (hK : Keeps ms r0 s) :
    Keeps ms r0 (exportStart v s) := by
  unfold exportStart
  try dsimp only
  repeat' (first
    | with_reducible assumption
    | exact hM.trans rfl
    | with_reducible apply exportCtl_keeps
    | with_reducible apply driveEnc_keeps
    | with_reducible apply modLg_keeps
    | intro _
    | split)

theorem execLogExport_keeps {ms : Nat} {r0 : State} {p : Port} {v : Word} {s : State} (hM : Sub 270864 ms) (hK : Keeps ms r0 s) :
    KeepsO ms r0 (execLogExport p v s) := by
  unfold execLogExport
  try dsimp only
  repeat' (first
    | with_reducible assumption
    | exact hM.trans rfl
    | with_reducible apply keepsO_next
    | with_reducible apply whenS_keeps
    | with_reducible apply exportStart_keeps
    | with_reducible apply keepsO_fault
    | split
    | intro _
    | split)

theorem execLogExportDone_keeps {ms : Nat} {r0 : State} {s : State} (hM : Sub 1056274 ms) (hK : Keeps ms r0 s) :
    KeepsO ms r0 (execLogExportDone s) := by
  unfold execLogExportDone
  try dsimp only
  repeat' (first
    | with_reducible assumption
    | exact hM.trans rfl
    | with_reducible apply keepsO_next
    | with_reducible apply exportEnd_keeps
    | with_reducible apply localWrite_keeps
    | with_reducible apply keepsO_fault
    | split
    | intro _
    | split)

theorem returnBufs_keeps {ms : Nat} {r0 : State} (hM : Sub 1052162 ms) :
    ∀ {l : List SBuf} {s : State}, Keeps ms r0 s → Keeps ms r0 (returnBufs l s)
  | [], _, h => h
  | _ :: l, _, h => returnBufs_keeps hM (l := l) (bufDone_keeps (hM.trans rfl) h)

theorem scanOffNow_keeps {ms : Nat} {r0 : State} {s : State} (hM : Sub 1322498 ms) (hK : Keeps ms r0 s) :
    Keeps ms r0 (scanOffNow s) := by
  unfold scanOffNow
  try dsimp only
  repeat' (first
    | with_reducible assumption
    | exact hM.trans rfl
    | with_reducible apply scanStreamEnd_keeps
    | with_reducible apply encError_keeps
    | with_reducible apply returnBufs_keeps
    | with_reducible apply retTallies_keeps
    | with_reducible apply modScan_keeps
    | intro _
    | split)

theorem lineEnd_keeps {ms : Nat} {r0 : State} {l : SLine} {samples : List (List (BitVec 16))} {s : State} (hM : Sub 1355283 ms) (hK : Keeps ms r0 s) :
    Keeps ms r0 (lineEnd l samples s) := by
  unfold lineEnd
  try dsimp only
  repeat' (first
    | with_reducible assumption
    | exact hM.trans rfl
    | with_reducible apply etTo_keeps
    | with_reducible apply stepCoupled_keeps
    | with_reducible apply modScan_keeps
    | with_reducible apply driveEnc_keeps
    | with_reducible apply scanOffNow_keeps
    | intro _
    | split)

theorem execScanLineEnd_keeps {ms : Nat} {r0 : State} {samples : List (List (BitVec 16))} {s : State} (hM : Sub 1355283 ms) (hK : Keeps ms r0 s) :
    KeepsO ms r0 (execScanLineEnd samples s) := by
  unfold execScanLineEnd
  try dsimp only
  repeat' (first
    | with_reducible assumption
    | exact hM.trans rfl
    | with_reducible apply keepsO_next
    | with_reducible apply lineEnd_keeps
    | with_reducible apply keepsO_fault
    | split
    | intro _
    | split)

theorem scanErr_keeps {ms : Nat} {r0 : State} {code : Nat} {s : State} (hM : Sub 262144 ms) (hK : Keeps ms r0 s) :
    Keeps ms r0 (scanErr code s) := by
  unfold scanErr
  try dsimp only
  repeat' (first
    | with_reducible assumption
    | exact hM.trans rfl
    | with_reducible apply modScan_keeps
    | intro _
    | split)

theorem scanOnOp_keeps {ms : Nat} {r0 : State} {s : State} (hM : Sub 1314306 ms) (hK : Keeps ms r0 s) :
    Keeps ms r0 (scanOnOp s) := by
  unfold scanOnOp
  try dsimp only
  repeat' (first
    | with_reducible assumption
    | exact hM.trans rfl
    | with_reducible apply scanErr_keeps
    | with_reducible apply engine_keeps
    | with_reducible apply modScan_keeps
    | intro _
    | split)

theorem scanOffOp_keeps {ms : Nat} {r0 : State} {s : State} (hM : Sub 1322498 ms) (hK : Keeps ms r0 s) :
    Keeps ms r0 (scanOffOp s) := by
  unfold scanOffOp
  try dsimp only
  repeat' (first
    | with_reducible assumption
    | exact hM.trans rfl
    | with_reducible apply modScan_keeps
    | with_reducible apply scanOffNow_keeps
    | intro _
    | split)

theorem scanCalOp_keeps {ms : Nat} {r0 : State} {s : State} (hM : Sub 262144 ms) (hK : Keeps ms r0 s) :
    Keeps ms r0 (scanCalOp s) := by
  unfold scanCalOp
  try dsimp only
  repeat' (first
    | with_reducible assumption
    | exact hM.trans rfl
    | with_reducible apply modScan_keeps
    | with_reducible apply scanErr_keeps
    | intro _
    | split)

theorem scanCmd_keeps {ms : Nat} {r0 : State} {v : Word} {s : State} (hM : Sub 1322498 ms) (hK : Keeps ms r0 s) :
    Keeps ms r0 (scanCmd v s) := by
  unfold scanCmd
  try dsimp only
  repeat' (first
    | with_reducible assumption
    | exact hM.trans rfl
    | with_reducible apply scanOnOp_keeps
    | with_reducible apply scanOffOp_keeps
    | with_reducible apply scanCalOp_keeps
    | intro _
    | split)

theorem execScanOn_keeps {ms : Nat} {r0 : State} {s : State} (hM : Sub 1314306 ms) (hK : Keeps ms r0 s) :
    KeepsO ms r0 (execScanOn s) := by
  unfold execScanOn
  try dsimp only
  repeat' (first
    | with_reducible assumption
    | exact hM.trans rfl
    | with_reducible apply keepsO_next
    | with_reducible apply whenS_keeps
    | with_reducible apply scanOnOp_keeps
    | with_reducible apply keepsO_fault
    | split
    | intro _
    | split)

theorem execScanOff_keeps {ms : Nat} {r0 : State} {s : State} (hM : Sub 1322498 ms) (hK : Keeps ms r0 s) :
    KeepsO ms r0 (execScanOff s) := by
  unfold execScanOff
  try dsimp only
  repeat' (first
    | with_reducible assumption
    | exact hM.trans rfl
    | with_reducible apply keepsO_next
    | with_reducible apply whenS_keeps
    | with_reducible apply scanOffOp_keeps
    | with_reducible apply keepsO_fault
    | split
    | intro _
    | split)

theorem execScanCal_keeps {ms : Nat} {r0 : State} {s : State} (hM : Sub 262144 ms) (hK : Keeps ms r0 s) :
    KeepsO ms r0 (execScanCal s) := by
  unfold execScanCal
  try dsimp only
  repeat' (first
    | with_reducible assumption
    | exact hM.trans rfl
    | with_reducible apply keepsO_next
    | with_reducible apply whenS_keeps
    | with_reducible apply scanCalOp_keeps
    | with_reducible apply keepsO_fault
    | split
    | intro _
    | split)

theorem calOne_keeps {ms : Nat} {r0 : State} {dark : List (List (BitVec 16))} {line : List (List (BitVec 16))} {k : Fin 3} {x : Fin 3} {s : State} (hM : Sub 2359296 ms) (hK : Keeps ms r0 s) :
    Keeps ms r0 (calOne dark line k x s) := by
  unfold calOne
  try dsimp only
  repeat' (first
    | with_reducible assumption
    | exact hM.trans rfl
    | with_reducible apply modScan_keeps
    | with_reducible apply useFree_keeps
    | intro _
    | split)

theorem calSeg_keeps {ms : Nat} {r0 : State} {dark : List (List (BitVec 16))} {red : List (List (BitVec 16))} {green : List (List (BitVec 16))} {blue : List (List (BitVec 16))} {k : Fin 3} {s : State} (hM : Sub 2359296 ms) (hK : Keeps ms r0 s) :
    Keeps ms r0 (calSeg dark red green blue k s) := by
  unfold calSeg
  try dsimp only
  repeat' (first
    | with_reducible assumption
    | exact hM.trans rfl
    | with_reducible apply calOne_keeps
    | with_reducible apply modScan_keeps
    | intro _
    | split)

theorem execScanCalComplete_keeps {ms : Nat} {r0 : State} {dark : List (List (BitVec 16))} {red : List (List (BitVec 16))} {green : List (List (BitVec 16))} {blue : List (List (BitVec 16))} {s : State} (hM : Sub 3411458 ms) (hK : Keeps ms r0 s) :
    KeepsO ms r0 (execScanCalComplete dark red green blue s) := by
  unfold execScanCalComplete
  try dsimp only
  repeat' (first
    | with_reducible assumption
    | exact hM.trans rfl
    | with_reducible apply keepsO_next
    | with_reducible apply whenS_keeps
    | with_reducible apply forEach_keeps
    | with_reducible apply calSeg_keeps
    | with_reducible apply modScan_keeps
    | with_reducible apply engine_keeps
    | with_reducible apply keepsO_fault
    | split
    | intro _
    | split)

end Sys2Proof.Machine
end

