-- ==== Sys2Proof/Laws/KeepsHead.lean ====
section
/-!
SUPPORT. Machine/Head.lean: each operation keeps what no command takes back (Laws/Keeps.lean).
-/

namespace Sys2Proof.Machine

set_option linter.all false

theorem headRelease_keeps {ms : Nat} {r0 : State} {g : Page} {k : Nat} {s : State} (hM : Sub 8704 ms) (hK : Keeps ms r0 s) :
    Keeps ms r0 (headRelease g k s) := by
  unfold headRelease
  try dsimp only
  repeat' (first
    | with_reducible assumption
    | exact hM.trans rfl
    | with_reducible apply dropBand_keeps
    | intro _
    | split)

theorem lineDone_keeps {ms : Nat} {r0 : State} {adm : Word} {k : Nat} {s : State} (hM : Sub 10752 ms) (hK : Keeps ms r0 s) :
    Keeps ms r0 (lineDone adm k s) := by
  unfold lineDone
  try dsimp only
  repeat' (first
    | with_reducible assumption
    | exact hM.trans rfl
    | with_reducible apply finishOne_keeps
    | with_reducible apply releaseAborted_keeps
    | with_reducible apply endPages_keeps
    | with_reducible apply headRelease_keeps
    | intro _
    | split)

theorem strobeCount_keeps {ms : Nat} {r0 : State} {code : Nat} {s : State} (hM : Sub 131072 ms) (hK : Keeps ms r0 s) :
    Keeps ms r0 (strobeCount code s) := by
  unfold strobeCount
  try dsimp only
  repeat' (first
    | with_reducible assumption
    | exact hM.trans rfl
    | with_reducible apply modHead_keeps
    | intro _
    | split)

theorem blankEnd_keeps {ms : Nat} {r0 : State} {adm : Word} {k : Nat} {s : State} (hM : Sub 141824 ms) (hK : Keeps ms r0 s) :
    Keeps ms r0 (blankEnd adm k s) := by
  unfold blankEnd
  try dsimp only
  repeat' (first
    | with_reducible assumption
    | exact hM.trans rfl
    | with_reducible apply lineDone_keeps
    | with_reducible apply modHead_keeps
    | intro _
    | split)

theorem strobeLine_keeps {ms : Nat} {r0 : State} {g : Page} {k : Nat} {s : State} (hM : Sub 3304978 ms) (hK : Keeps ms r0 s) :
    Keeps ms r0 (strobeLine g k s) := by
  unfold strobeLine
  try dsimp only
  repeat' (first
    | with_reducible assumption
    | exact hM.trans rfl
    | with_reducible apply lineData_keeps
    | with_reducible apply blankEnd_keeps
    | with_reducible apply modHead_keeps
    | intro _
    | split)

theorem strobeRun_keeps {ms : Nat} {r0 : State} {k : Nat} {page : Option Word} {s : State} (hM : Sub 3304978 ms) (hK : Keeps ms r0 s) :
    Keeps ms r0 (strobeRun k page s) := by
  unfold strobeRun
  try dsimp only
  repeat' (first
    | with_reducible assumption
    | exact hM.trans rfl
    | with_reducible apply modHead_keeps
    | with_reducible apply strobeLine_keeps
    | intro _
    | split)

theorem latchSlot_keeps {ms : Nat} {r0 : State} {l : HLine} {s : State} (hM : Sub 1181697 ms) (hK : Keeps ms r0 s) :
    Keeps ms r0 (latchSlot l s) := by
  unfold latchSlot
  try dsimp only
  repeat' (first
    | with_reducible assumption
    | exact hM.trans rfl
    | with_reducible apply emit_keeps
    | with_reducible apply modHead_keeps
    | with_reducible apply etTo_keeps
    | intro _
    | split)

theorem headUe_keeps {ms : Nat} {r0 : State} {l : HLine} {s : State} (hM : Sub 3304978 ms) (hK : Keeps ms r0 s) :
    Keeps ms r0 (headUe l s) := by
  unfold headUe
  try dsimp only
  repeat' (first
    | with_reducible assumption
    | exact hM.trans rfl
    | with_reducible apply lineData_keeps
    | with_reducible apply blankEnd_keeps
    | with_reducible apply modHead_keeps
    | intro _
    | split)

theorem execHeadSlotLatch_keeps {ms : Nat} {r0 : State} {ecc : Ecc} {s : State} (hM : Sub 3304979 ms) (hK : Keeps ms r0 s) :
    KeepsO ms r0 (execHeadSlotLatch ecc s) := by
  unfold execHeadSlotLatch
  try dsimp only
  repeat' (first
    | with_reducible assumption
    | exact hM.trans rfl
    | with_reducible apply keepsO_next
    | with_reducible apply latchSlot_keeps
    | with_reducible apply landCorrected_keeps
    | with_reducible apply headUe_keeps
    | with_reducible apply keepsO_fault
    | split
    | intro _
    | split)

theorem execHeadGroupSlot_keeps {ms : Nat} {r0 : State} {s : State} (hM : Sub 1181697 ms) (hK : Keeps ms r0 s) :
    KeepsO ms r0 (execHeadGroupSlot s) := by
  unfold execHeadGroupSlot
  try dsimp only
  repeat' (first
    | with_reducible assumption
    | exact hM.trans rfl
    | with_reducible apply keepsO_next
    | with_reducible apply emit_keeps
    | with_reducible apply modHead_keeps
    | with_reducible apply etTo_keeps
    | with_reducible apply keepsO_fault
    | split
    | intro _
    | split)

theorem headLineOver_keeps {ms : Nat} {r0 : State} {l : HLine} {s : State} (hM : Sub 141825 ms) (hK : Keeps ms r0 s) :
    Keeps ms r0 (headLineOver l s) := by
  unfold headLineOver
  try dsimp only
  repeat' (first
    | with_reducible assumption
    | exact hM.trans rfl
    | with_reducible apply lineDone_keeps
    | with_reducible apply modHead_keeps
    | with_reducible apply etTo_keeps
    | intro _
    | split)

theorem execHeadLineEnd_keeps {ms : Nat} {r0 : State} {s : State} (hM : Sub 141825 ms) (hK : Keeps ms r0 s) :
    KeepsO ms r0 (execHeadLineEnd s) := by
  unfold execHeadLineEnd
  try dsimp only
  repeat' (first
    | with_reducible assumption
    | exact hM.trans rfl
    | with_reducible apply keepsO_next
    | with_reducible apply headLineOver_keeps
    | with_reducible apply keepsO_fault
    | split
    | intro _
    | split)

theorem headConvert_keeps {ms : Nat} {r0 : State} {raw : BitVec 12} {s : State} (hM : Sub 1289746 ms) (hK : Keeps ms r0 s) :
    Keeps ms r0 (headConvert raw s) := by
  unfold headConvert
  try dsimp only
  repeat' (first
    | with_reducible assumption
    | exact hM.trans rfl
    | with_reducible apply modHead_keeps
    | with_reducible apply headFault_keeps
    | intro _
    | split)

theorem execHeadTempConvert_keeps {ms : Nat} {r0 : State} {raw : BitVec 12} {s : State} (hM : Sub 1289747 ms) (hK : Keeps ms r0 s) :
    KeepsO ms r0 (execHeadTempConvert raw s) := by
  unfold execHeadTempConvert
  try dsimp only
  repeat' (first
    | with_reducible assumption
    | exact hM.trans rfl
    | with_reducible apply keepsO_next
    | with_reducible apply whenS_keeps
    | with_reducible apply headConvert_keeps
    | with_reducible apply timeTo_keeps
    | with_reducible apply keepsO_fault
    | split
    | intro _
    | split)

theorem headErr_keeps {ms : Nat} {r0 : State} {code : Nat} {s : State} (hM : Sub 131072 ms) (hK : Keeps ms r0 s) :
    Keeps ms r0 (headErr code s) := by
  unfold headErr
  try dsimp only
  repeat' (first
    | with_reducible assumption
    | exact hM.trans rfl
    | with_reducible apply modHead_keeps
    | intro _
    | split)

theorem headOnOp_keeps {ms : Nat} {r0 : State} {s : State} (hM : Sub 1183234 ms) (hK : Keeps ms r0 s) :
    Keeps ms r0 (headOnOp s) := by
  unfold headOnOp
  try dsimp only
  repeat' (first
    | with_reducible assumption
    | exact hM.trans rfl
    | with_reducible apply headErr_keeps
    | with_reducible apply engine_keeps
    | with_reducible apply modHead_keeps
    | intro _
    | split)

theorem headOffOp_keeps {ms : Nat} {r0 : State} {s : State} (hM : Sub 1289730 ms) (hK : Keeps ms r0 s) :
    Keeps ms r0 (headOffOp s) := by
  unfold headOffOp
  try dsimp only
  repeat' (first
    | with_reducible assumption
    | exact hM.trans rfl
    | with_reducible apply abortEnginePages_keeps
    | with_reducible apply modHead_keeps
    | with_reducible apply cutHead_keeps
    | intro _
    | split)

theorem headCmd_keeps {ms : Nat} {r0 : State} {v : Word} {s : State} (hM : Sub 1289730 ms) (hK : Keeps ms r0 s) :
    Keeps ms r0 (headCmd v s) := by
  unfold headCmd
  try dsimp only
  repeat' (first
    | with_reducible assumption
    | exact hM.trans rfl
    | with_reducible apply headOnOp_keeps
    | with_reducible apply headOffOp_keeps
    | intro _
    | split)

theorem execHeadOn_keeps {ms : Nat} {r0 : State} {s : State} (hM : Sub 1183234 ms) (hK : Keeps ms r0 s) :
    KeepsO ms r0 (execHeadOn s) := by
  unfold execHeadOn
  try dsimp only
  repeat' (first
    | with_reducible assumption
    | exact hM.trans rfl
    | with_reducible apply keepsO_next
    | with_reducible apply whenS_keeps
    | with_reducible apply headOnOp_keeps
    | with_reducible apply keepsO_fault
    | split
    | intro _
    | split)

theorem execHeadOff_keeps {ms : Nat} {r0 : State} {s : State} (hM : Sub 1289730 ms) (hK : Keeps ms r0 s) :
    KeepsO ms r0 (execHeadOff s) := by
  unfold execHeadOff
  try dsimp only
  repeat' (first
    | with_reducible assumption
    | exact hM.trans rfl
    | with_reducible apply keepsO_next
    | with_reducible apply whenS_keeps
    | with_reducible apply headOffOp_keeps
    | with_reducible apply keepsO_fault
    | split
    | intro _
    | split)

end Sys2Proof.Machine
end

