-- ==== Sys2Proof/Laws/KeepsPages.lean ====
section
/-!
SUPPORT. Machine/Pages.lean: each operation keeps what no command takes back (Laws/Keeps.lean).
-/

namespace Sys2Proof.Machine

set_option linter.all false

theorem acceptPlan_keeps {ms : Nat} {r0 : State} {ix : Fin 32} {p : Plan} {s : State} (hM : Sub 1060354 ms) (hK : Keeps ms r0 s) :
    Keeps ms r0 (acceptPlan ix p s) := by
  unfold acceptPlan
  try dsimp only
  repeat' (first
    | with_reducible assumption
    | exact hM.trans rfl
    | with_reducible apply modCue_keeps
    | with_reducible apply rejectPlan_keeps
    | exact fun (_ : Cue) g => g
    | exact fun (_ : Cue) g => chWf_tmod rfl rfl rfl (fun x hx => by first | exact hx | (split <;> exact hx) | (dsimp only; split <;> exact hx)) g
    | intro _
    | split)

theorem admitPage_keeps {ms : Nat} {r0 : State} {g : Page} {s : State} (hM : Sub 2056 ms) (hK : Keeps ms r0 s) :
    Keeps ms r0 (admitPage g s) := by
  unfold admitPage
  try dsimp only
  repeat' (first
    | with_reducible assumption
    | exact hM.trans rfl
    | with_reducible apply modPage_keeps
    | with_reducible apply modCue_keeps
    | with_reducible apply nvPut_keeps
    | exact fun (_ : Cue) g => g
    | exact fun (_ : Cue) g => chWf_tmod rfl rfl rfl (fun x hx => by first | exact hx | (split <;> exact hx) | (dsimp only; split <;> exact hx)) g
    | intro _
    | split)

theorem execPageAbortComplete_keeps {ms : Nat} {r0 : State} {adm : Word} {s : State} (hM : Sub 2048 ms) (hK : Keeps ms r0 s) :
    KeepsO ms r0 (execPageAbortComplete adm s) := by
  unfold execPageAbortComplete
  try dsimp only
  repeat' (first
    | with_reducible assumption
    | exact hM.trans rfl
    | with_reducible apply keepsO_next
    | with_reducible apply modPage_keeps
    | with_reducible apply keepsO_fault
    | split
    | intro _
    | split)

theorem sheetStage_keeps {ms : Nat} {r0 : State} {s : State} (hM : Sub 1052162 ms) (hK : Keeps ms r0 s) :
    Keeps ms r0 (sheetStage s) := by
  unfold sheetStage
  try dsimp only
  repeat' (first
    | with_reducible assumption
    | exact hM.trans rfl
    | with_reducible apply post_keeps
    | intro _
    | split)

theorem jamOp_keeps {ms : Nat} {r0 : State} {n : Gpio} {s : State} (hM : Sub 1289730 ms) (hK : Keeps ms r0 s) :
    Keeps ms r0 (jamOp n s) := by
  unfold jamOp
  try dsimp only
  repeat' (first
    | with_reducible assumption
    | exact hM.trans rfl
    | with_reducible apply engine_keeps
    | with_reducible apply modCue_keeps
    | with_reducible apply abortPages_keeps
    | with_reducible apply raiseForm_keeps
    | with_reducible apply formMotion_keeps
    | exact fun (_ : Cue) g => g
    | intro _
    | split)

theorem execJamDetect_keeps {ms : Nat} {r0 : State} {g : Gpio} {s : State} (hM : Sub 1289730 ms) (hK : Keeps ms r0 s) :
    KeepsO ms r0 (execJamDetect g s) := by
  unfold execJamDetect
  try dsimp only
  repeat' (first
    | with_reducible assumption
    | exact hM.trans rfl
    | with_reducible apply keepsO_next
    | with_reducible apply whenS_keeps
    | with_reducible apply jamOp_keeps
    | with_reducible apply keepsO_fault
    | split
    | intro _
    | split)

theorem jamClear_keeps {ms : Nat} {r0 : State} {gpio : Word} {s : State} (hM : Sub 2048 ms) (hK : Keeps ms r0 s) :
    Keeps ms r0 (jamClear gpio s) := by
  unfold jamClear
  try dsimp only
  repeat' (first
    | with_reducible assumption
    | exact hM.trans rfl
    | with_reducible apply modCue_keeps
    | exact fun (_ : Cue) g => g
    | intro _
    | split)

theorem execJamlatchClear_keeps {ms : Nat} {r0 : State} {gpio : Word} {s : State} (hM : Sub 2048 ms) (hK : Keeps ms r0 s) :
    KeepsO ms r0 (execJamlatchClear gpio s) := by
  unfold execJamlatchClear
  try dsimp only
  repeat' (first
    | with_reducible assumption
    | exact hM.trans rfl
    | with_reducible apply keepsO_next
    | with_reducible apply whenS_keeps
    | with_reducible apply jamClear_keeps
    | with_reducible apply keepsO_fault
    | split
    | intro _
    | split)

end Sys2Proof.Machine
end

