-- ==== Sys2Proof/Laws/KeepsWheel.lean ====
section
/-!
SUPPORT. Machine/Wheel.lean: each operation keeps what no command takes back (Laws/Keeps.lean).
-/

namespace Sys2Proof.Machine

set_option linter.all false

theorem modAct_keeps {ms : Nat} {r0 : State} {c : Chan} {id : Nat} {f : Action → Action} {s : State} (hM : Sub 2048 ms)
    (hf : ∀ a : Action, a.id = id → a.chan = c → (f a).id = id ∧ (f a).chan = c) (hK : Keeps ms r0 s) :
    Keeps ms r0 (modAct c id f s) := by
  refine modCh_keeps (hM.trans rfl) hK fun (_ : Channel) g => chOk_map (fun a h => ?_) g
  try dsimp only
  split
  · rename_i e
    have e := eq_of_beq e
    exact ⟨(hf a e h).1.trans e.symm, (hf a e h).2⟩
  · exact ⟨rfl, h⟩

theorem countRefused_keeps {ms : Nat} {r0 : State} {op : ActOp} {code : Nat} {s : State} (hM : Sub 409600 ms) (hK : Keeps ms r0 s) :
    Keeps ms r0 (countRefused op code s) := by
  unfold countRefused
  try dsimp only
  repeat' (first
    | with_reducible assumption
    | exact hM.trans rfl
    | with_reducible apply fireCount_keeps
    | with_reducible apply strobeCount_keeps
    | with_reducible apply scanCount_keeps
    | intro _
    | split)

theorem setGpio_keeps {ms : Nat} {r0 : State} {g : Gpio} {level : Bool} {out : Bool} {d : Nat} {s : State} (hM : Sub 2048 ms) (hK : Keeps ms r0 s) :
    Keeps ms r0 (setGpio g level out d s) := by
  unfold setGpio
  try dsimp only
  repeat' (first
    | with_reducible assumption
    | exact hM.trans rfl
    | with_reducible apply modCue_keeps
    | exact fun (_ : Cue) g => g
    | exact fun (_ : Cue) g => chWf_tmod rfl rfl rfl (fun x hx => by first | exact hx | (split <;> exact hx) | (dsimp only; split <;> exact hx)) g
    | intro _
    | split)

theorem deliverSig_keeps {ms : Nat} {r0 : State} {src : Chan} {target : BitVec 9} {code : Byte} {payload : Word} {s : State} (hM : Sub 1574912 ms) (hK : Keeps ms r0 s) :
    Keeps ms r0 (deliverSig src target code payload s) := by
  unfold deliverSig
  try dsimp only
  repeat' (first
    | with_reducible assumption
    | exact hM.trans rfl
    | with_reducible apply modCh_keeps
    | with_reducible apply skidPushed_keeps
    | exact fun (_ : Channel) g => g
    | intro _
    | split)

theorem runAct_keeps {ms : Nat} {r0 : State} {a : Action} {s : State} (hM : Sub 4189714 ms) (hK : Keeps ms r0 s) :
    Keeps ms r0 (runAct a s) := by
  unfold runAct
  try dsimp only
  repeat' (first
    | with_reducible assumption
    | exact hM.trans rfl
    | with_reducible apply pushSeg_keeps
    | with_reducible apply pushSp_keeps
    | with_reducible apply setGpio_keeps
    | with_reducible apply loopOnRun_keeps
    | with_reducible apply loopOffOp_keeps
    | with_reducible apply fireRun_keeps
    | with_reducible apply strobeRun_keeps
    | with_reducible apply scanlRun_keeps
    | with_reducible apply deliverSig_keeps
    | intro _
    | split)

theorem dispatchAct_keeps {ms : Nat} {r0 : State} {a : Action} {s : State} (hM : Sub 4189714 ms) (hK : Keeps ms r0 s) :
    Keeps ms r0 (dispatchAct a s) := by
  unfold dispatchAct
  try dsimp only
  repeat' (first
    | with_reducible assumption
    | exact hM.trans rfl
    | with_reducible apply endAction_keeps
    | with_reducible apply refuseAction_keeps
    | with_reducible apply countRefused_keeps
    | with_reducible apply runAct_keeps
    | intro _
    | split)

theorem slipAct_keeps {ms : Nat} {r0 : State} {a : Action} {s : State} (hM : Sub 2048 ms) (hK : Keeps ms r0 s) :
    Keeps ms r0 (slipAct a s) := by
  unfold slipAct
  try dsimp only
  repeat' (first
    | with_reducible assumption
    | exact hM.trans rfl
    | with_reducible apply modAct_keeps
    | with_reducible apply modCue_keeps
    | exact fun (_ : Cue) g => g
    | exact fun a h h2 => ⟨h, h2⟩
    | exact fun _ _ _ => ⟨rfl, rfl⟩
    | intro _
    | split)

theorem tryDispatch_keeps {ms : Nat} {r0 : State} {a : Action} {s : State} (hM : Sub 4189714 ms) (hK : Keeps ms r0 s) :
    Keeps ms r0 (tryDispatch a s) := by
  unfold tryDispatch
  try dsimp only
  repeat' (first
    | with_reducible assumption
    | exact hM.trans rfl
    | with_reducible apply slipAct_keeps
    | with_reducible apply dispatchAct_keeps
    | with_reducible apply modCue_keeps
    | exact fun (_ : Cue) g => g
    | intro _
    | split)

theorem dispatchNow_keeps {ms : Nat} {r0 : State} {c : Chan} {id : Nat} {s : State} (hM : Sub 4189714 ms) (hK : Keeps ms r0 s) :
    Keeps ms r0 (dispatchNow c id s) := by
  unfold dispatchNow
  try dsimp only
  repeat' (first
    | with_reducible assumption
    | exact hM.trans rfl
    | with_reducible apply modAct_keeps
    | with_reducible apply id_keeps
    | with_reducible apply tryDispatch_keeps
    | exact fun a h h2 => ⟨h, h2⟩
    | exact fun _ _ _ => ⟨rfl, rfl⟩
    | intro _
    | split)

theorem passAct_keeps {ms : Nat} {r0 : State} {a : Action} {s : State} (hM : Sub 4189714 ms) (hK : Keeps ms r0 s) :
    Keeps ms r0 (passAct a s) := by
  unfold passAct
  try dsimp only
  repeat' (first
    | with_reducible assumption
    | exact hM.trans rfl
    | with_reducible apply modAct_keeps
    | with_reducible apply dispatchNow_keeps
    | with_reducible apply endAction_keeps
    | with_reducible apply refuseAction_keeps
    | exact fun a h h2 => ⟨h, h2⟩
    | exact fun _ _ _ => ⟨rfl, rfl⟩
    | intro _
    | split)

theorem freezeAct_keeps {ms : Nat} {r0 : State} {a : Action} {target : Int} {s : State} (hM : Sub 2048 ms) (hK : Keeps ms r0 s) :
    Keeps ms r0 (freezeAct a target s) := by
  unfold freezeAct
  try dsimp only
  repeat' (first
    | with_reducible assumption
    | exact hM.trans rfl
    | with_reducible apply modAct_keeps
    | exact fun a h h2 => ⟨h, h2⟩
    | exact fun _ _ _ => ⟨rfl, rfl⟩
    | intro _
    | split)

theorem placeAct_keeps {ms : Nat} {r0 : State} {a : Action} {target : Int} {guard : Int} {s : State} (hM : Sub 4189714 ms) (hK : Keeps ms r0 s) :
    Keeps ms r0 (placeAct a target guard s) := by
  unfold placeAct
  try dsimp only
  repeat' (first
    | with_reducible assumption
    | exact hM.trans rfl
    | with_reducible apply modAct_keeps
    | with_reducible apply passAct_keeps
    | with_reducible apply freezeAct_keeps
    | exact fun a h h2 => ⟨h, h2⟩
    | exact fun _ _ _ => ⟨rfl, rfl⟩
    | intro _
    | split)

theorem reachWheel_keeps {ms : Nat} {r0 : State} {c : Chan} {id : Nat} {s : State} (hM : Sub 4189714 ms) (hK : Keeps ms r0 s) :
    Keeps ms r0 (reachWheel c id s) := by
  unfold reachWheel
  try dsimp only
  repeat' (first
    | with_reducible assumption
    | exact hM.trans rfl
    | with_reducible apply id_keeps
    | with_reducible apply placeAct_keeps
    | with_reducible apply refuseAction_keeps
    | with_reducible apply passAct_keeps
    | with_reducible apply modAct_keeps
    | exact fun a h h2 => ⟨h, h2⟩
    | exact fun _ _ _ => ⟨rfl, rfl⟩
    | intro _
    | split)

theorem openGuard_keeps {ms : Nat} {r0 : State} {a : Action} {s : State} (hM : Sub 2048 ms) (hK : Keeps ms r0 s) :
    Keeps ms r0 (openGuard a s) := by
  unfold openGuard
  try dsimp only
  repeat' (first
    | with_reducible assumption
    | exact hM.trans rfl
    | with_reducible apply freezeAct_keeps
    | intro _
    | split)

theorem openGuards_keeps {ms : Nat} {r0 : State} {s : State} (hM : Sub 2048 ms) (hK : Keeps ms r0 s) :
    Keeps ms r0 (openGuards s) := by
  unfold openGuards
  try dsimp only
  repeat' (first
    | with_reducible assumption
    | exact hM.trans rfl
    | with_reducible apply forEach_keeps
    | with_reducible apply openGuard_keeps
    | intro _
    | split)

theorem correctAct_keeps {ms : Nat} {r0 : State} {k0 : Tracker} {t : Trk} {c : Chan} {id : Nat} {s : State} (hM : Sub 4189714 ms) (hK : Keeps ms r0 s) :
    Keeps ms r0 (correctAct k0 t c id s) := by
  unfold correctAct
  try dsimp only
  repeat' (first
    | with_reducible assumption
    | exact hM.trans rfl
    | with_reducible apply id_keeps
    | with_reducible apply dispatchNow_keeps
    | with_reducible apply modAct_keeps
    | with_reducible apply freezeAct_keeps
    | exact fun a h h2 => ⟨h, h2⟩
    | exact fun _ _ _ => ⟨rfl, rfl⟩
    | intro _
    | split)

theorem correctAll_keeps {ms : Nat} {r0 : State} {k0 : Tracker} {t : Trk} {s : State} (hM : Sub 4189714 ms) (hK : Keeps ms r0 s) :
    Keeps ms r0 (correctAll k0 t s) := by
  unfold correctAll
  try dsimp only
  repeat' (first
    | with_reducible assumption
    | exact hM.trans rfl
    | with_reducible apply forEach_keeps
    | with_reducible apply correctAct_keeps
    | intro _
    | split)

theorem execGuardOpen_keeps {ms : Nat} {r0 : State} {s : State} (hM : Sub 2049 ms) (hK : Keeps ms r0 s) :
    KeepsO ms r0 (execGuardOpen s) := by
  unfold execGuardOpen
  try dsimp only
  repeat' (first
    | with_reducible assumption
    | exact hM.trans rfl
    | with_reducible apply keepsO_next
    | with_reducible apply openGuards_keeps
    | with_reducible apply etTo_keeps
    | with_reducible apply keepsO_fault
    | split
    | intro _
    | split)

theorem dispatchDue_keeps {ms : Nat} {r0 : State} {a : Action} {s : State} (hM : Sub 4189714 ms) (hK : Keeps ms r0 s) :
    Keeps ms r0 (dispatchDue a s) := by
  unfold dispatchDue
  try dsimp only
  repeat' (first
    | with_reducible assumption
    | exact hM.trans rfl
    | with_reducible apply tryDispatch_keeps
    | intro _
    | split)

theorem toothFault_keeps {ms : Nat} {r0 : State} {waits : List Chan} {gone : List Action} {c : Chan} {s : State} (hM : Sub 1289730 ms) (hK : Keeps ms r0 s) :
    Keeps ms r0 (toothFault waits gone c s) := by
  unfold toothFault
  try dsimp only
  repeat' (first
    | with_reducible assumption
    | exact hM.trans rfl
    | with_reducible apply chFault_keeps
    | intro _
    | split)

theorem toothLoss_keeps {ms : Nat} {r0 : State} {t : Trk} {lost : Bool} {s : State} (hM : Sub 1289746 ms) (hK : Keeps ms r0 s) :
    Keeps ms r0 (toothLoss t lost s) := by
  unfold toothLoss
  try dsimp only
  repeat' (first
    | with_reducible assumption
    | exact hM.trans rfl
    | with_reducible apply id_keeps
    | with_reducible apply forEach_keeps
    | with_reducible apply endAction_keeps
    | with_reducible apply chEvents_keeps
    | with_reducible apply engine_keeps
    | with_reducible apply logEngine_keeps
    | with_reducible apply abortPages_keeps
    | with_reducible apply toothFault_keeps
    | intro _
    | split)

theorem releaseHeld_keeps {ms : Nat} {r0 : State} {t : Trk} {a : Action} {s : State} (hM : Sub 4189714 ms) (hK : Keeps ms r0 s) :
    Keeps ms r0 (releaseHeld t a s) := by
  unfold releaseHeld
  try dsimp only
  repeat' (first
    | with_reducible assumption
    | exact hM.trans rfl
    | with_reducible apply dispatchNow_keeps
    | with_reducible apply reachWheel_keeps
    | intro _
    | split)

theorem edgeSeen_keeps {ms : Nat} {r0 : State} {t : Trk} {x : Nat} {s : State} (hM : Sub 1568258 ms) (hK : Keeps ms r0 s) :
    Keeps ms r0 (edgeSeen t x s) := by
  unfold edgeSeen
  try dsimp only
  repeat' (first
    | with_reducible assumption
    | exact hM.trans rfl
    | with_reducible apply stallCheck_keeps
    | with_reducible apply stationEdge_keeps
    | intro _
    | split)

theorem edgeAcquire_keeps {ms : Nat} {r0 : State} {t : Trk} {x : Nat} {s : State} (hM : Sub 4189714 ms) (hK : Keeps ms r0 s) :
    Keeps ms r0 (edgeAcquire t x s) := by
  unfold edgeAcquire
  try dsimp only
  repeat' (first
    | with_reducible assumption
    | exact hM.trans rfl
    | with_reducible apply modTrk_keeps
    | with_reducible apply edgeSeen_keeps
    | with_reducible apply forEach_keeps
    | with_reducible apply releaseHeld_keeps
    | intro _
    | split)

theorem edgeLocked_keeps {ms : Nat} {r0 : State} {t : Trk} {x : Nat} {s0 : State} (hM : Sub 4189714 ms) (hK : Keeps ms r0 s0) :
    Keeps ms r0 (edgeLocked t x s0) := by
  unfold edgeLocked
  try dsimp only
  repeat' (first
    | with_reducible assumption
    | exact hM.trans rfl
    | with_reducible apply modTrk_keeps
    | with_reducible apply edgeSeen_keeps
    | with_reducible apply correctAll_keeps
    | with_reducible apply openGuards_keeps
    | intro _
    | split)

theorem trkEdgeOp_keeps {ms : Nat} {r0 : State} {t : Trk} {s : State} (hM : Sub 4189714 ms) (hK : Keeps ms r0 s) :
    Keeps ms r0 (trkEdgeOp t s) := by
  unfold trkEdgeOp
  try dsimp only
  repeat' (first
    | with_reducible assumption
    | exact hM.trans rfl
    | with_reducible apply edgeAcquire_keeps
    | with_reducible apply edgeLocked_keeps
    | intro _
    | split)

theorem execTrkEdge_keeps {ms : Nat} {r0 : State} {t : Trk} {s : State} (hM : Sub 4189714 ms) (hK : Keeps ms r0 s) :
    KeepsO ms r0 (execTrkEdge t s) := by
  unfold execTrkEdge
  try dsimp only
  repeat' (first
    | with_reducible assumption
    | exact hM.trans rfl
    | with_reducible apply keepsO_next
    | with_reducible apply whenS_keeps
    | with_reducible apply endPages_keeps
    | with_reducible apply withPoly_keeps
    | with_reducible apply trkEdgeOp_keeps
    | with_reducible apply keepsO_fault
    | split
    | intro _
    | split)

theorem synthOp_keeps {ms : Nat} {r0 : State} {t : Trk} {s : State} (hM : Sub 4189715 ms) (hK : Keeps ms r0 s) :
    Keeps ms r0 (synthOp t s) := by
  unfold synthOp
  try dsimp only
  repeat' (first
    | with_reducible assumption
    | exact hM.trans rfl
    | with_reducible apply openGuards_keeps
    | with_reducible apply etTo_keeps
    | with_reducible apply toothLoss_keeps
    | with_reducible apply modTrk_keeps
    | with_reducible apply correctAll_keeps
    | intro _
    | split)

theorem execTrkSynthInsert_keeps {ms : Nat} {r0 : State} {t : Trk} {s : State} (hM : Sub 4189715 ms) (hK : Keeps ms r0 s) :
    KeepsO ms r0 (execTrkSynthInsert t s) := by
  unfold execTrkSynthInsert
  try dsimp only
  repeat' (first
    | with_reducible assumption
    | exact hM.trans rfl
    | with_reducible apply keepsO_next
    | with_reducible apply whenS_keeps
    | with_reducible apply endPages_keeps
    | with_reducible apply withPoly_keeps
    | with_reducible apply synthOp_keeps
    | with_reducible apply keepsO_fault
    | split
    | intro _
    | split)

theorem synthNow_keeps {ms : Nat} {r0 : State} {t : Trk} {s : State} (hM : Sub 4189715 ms) (hK : Keeps ms r0 s) :
    Keeps ms r0 (synthNow t s) := by
  unfold synthNow
  try dsimp only
  repeat' (first
    | with_reducible assumption
    | exact hM.trans rfl
    | with_reducible apply synthOp_keeps
    | with_reducible apply useFree_keeps
    | intro _
    | split)

theorem synthAll_keeps {ms : Nat} {r0 : State} {s : State} (hM : Sub 4189715 ms) (hK : Keeps ms r0 s) :
    Keeps ms r0 (synthAll s) := by
  unfold synthAll
  try dsimp only
  repeat' (first
    | with_reducible assumption
    | exact hM.trans rfl
    | with_reducible apply withPoly_keeps
    | with_reducible apply forEach_keeps
    | with_reducible apply synthNow_keeps
    | intro _
    | split)

theorem wheelOp_keeps {ms : Nat} {r0 : State} {s : State} (hM : Sub 4189715 ms) (hK : Keeps ms r0 s) :
    Keeps ms r0 (wheelOp s) := by
  unfold wheelOp
  try dsimp only
  repeat' (first
    | with_reducible assumption
    | exact hM.trans rfl
    | with_reducible apply synthAll_keeps
    | with_reducible apply openGuards_keeps
    | with_reducible apply etTo_keeps
    | with_reducible apply endPages_keeps
    | with_reducible apply forEach_keeps
    | with_reducible apply dispatchDue_keeps
    | intro _
    | split)

theorem execWheelDispatch_keeps {ms : Nat} {r0 : State} {s : State} (hM : Sub 4189715 ms) (hK : Keeps ms r0 s) :
    KeepsO ms r0 (execWheelDispatch s) := by
  unfold execWheelDispatch
  try dsimp only
  repeat' (first
    | with_reducible assumption
    | exact hM.trans rfl
    | with_reducible apply keepsO_next
    | with_reducible apply whenS_keeps
    | with_reducible apply wheelOp_keeps
    | with_reducible apply keepsO_fault
    | split
    | intro _
    | split)

theorem holdActs_keeps {ms : Nat} {r0 : State} {t : Trk} {s : State} (hM : Sub 2048 ms) (hK : Keeps ms r0 s) :
    Keeps ms r0 (holdActs t s) := by
  unfold holdActs
  try dsimp only
  repeat' (first
    | with_reducible assumption
    | exact hM.trans rfl
    | with_reducible apply forEach_keeps
    | with_reducible apply id_keeps
    | with_reducible apply modAct_keeps
    | exact fun a h h2 => ⟨h, h2⟩
    | exact fun _ _ _ => ⟨rfl, rfl⟩
    | intro _
    | split)

theorem trkOff_keeps {ms : Nat} {r0 : State} {t : Trk} {s : State} (hM : Sub 1289746 ms) (hK : Keeps ms r0 s) :
    Keeps ms r0 (trkOff t s) := by
  unfold trkOff
  try dsimp only
  repeat' (first
    | with_reducible assumption
    | exact hM.trans rfl
    | with_reducible apply modTrk_keeps
    | with_reducible apply toothLoss_keeps
    | intro _
    | split)

theorem trkCfgWrite_keeps {ms : Nat} {r0 : State} {t : Trk} {v : Word} {s : State} (hM : Sub 1306130 ms) (hK : Keeps ms r0 s) :
    Keeps ms r0 (trkCfgWrite t v s) := by
  unfold trkCfgWrite
  try dsimp only
  repeat' (first
    | with_reducible assumption
    | exact hM.trans rfl
    | with_reducible apply endPages_keeps
    | with_reducible apply withPoly_keeps
    | with_reducible apply trkOff_keeps
    | with_reducible apply modTrk_keeps
    | intro _
    | split)

theorem trkCtlWrite_keeps {ms : Nat} {r0 : State} {t : Trk} {v : Word} {s : State} (hM : Sub 1306114 ms) (hK : Keeps ms r0 s) :
    Keeps ms r0 (trkCtlWrite t v s) := by
  unfold trkCtlWrite
  try dsimp only
  repeat' (first
    | with_reducible assumption
    | exact hM.trans rfl
    | with_reducible apply withPoly_keeps
    | with_reducible apply modTrk_keeps
    | with_reducible apply holdActs_keeps
    | intro _
    | split)

theorem execTrkEnable_keeps {ms : Nat} {r0 : State} {t : Trk} {v : Word} {s : State} (hM : Sub 1306130 ms) (hK : Keeps ms r0 s) :
    KeepsO ms r0 (execTrkEnable t v s) := by
  unfold execTrkEnable
  try dsimp only
  repeat' (first
    | with_reducible assumption
    | exact hM.trans rfl
    | with_reducible apply keepsO_next
    | with_reducible apply whenS_keeps
    | with_reducible apply trkCfgWrite_keeps
    | with_reducible apply keepsO_fault
    | split
    | intro _
    | split)

theorem execTrkDisable_keeps {ms : Nat} {r0 : State} {t : Trk} {s : State} (hM : Sub 1306130 ms) (hK : Keeps ms r0 s) :
    KeepsO ms r0 (execTrkDisable t s) := by
  unfold execTrkDisable
  try dsimp only
  repeat' (first
    | with_reducible assumption
    | exact hM.trans rfl
    | with_reducible apply keepsO_next
    | with_reducible apply whenS_keeps
    | with_reducible apply endPages_keeps
    | with_reducible apply withPoly_keeps
    | with_reducible apply trkOff_keeps
    | with_reducible apply keepsO_fault
    | split
    | intro _
    | split)

theorem execTrkRearm_keeps {ms : Nat} {r0 : State} {t : Trk} {s : State} (hM : Sub 1306114 ms) (hK : Keeps ms r0 s) :
    KeepsO ms r0 (execTrkRearm t s) := by
  unfold execTrkRearm
  try dsimp only
  repeat' (first
    | with_reducible assumption
    | exact hM.trans rfl
    | with_reducible apply keepsO_next
    | with_reducible apply whenS_keeps
    | with_reducible apply trkCtlWrite_keeps
    | with_reducible apply keepsO_fault
    | split
    | intro _
    | split)

theorem execTrkReacq_keeps {ms : Nat} {r0 : State} {t : Trk} {s : State} (hM : Sub 1306114 ms) (hK : Keeps ms r0 s) :
    KeepsO ms r0 (execTrkReacq t s) := by
  unfold execTrkReacq
  try dsimp only
  repeat' (first
    | with_reducible assumption
    | exact hM.trans rfl
    | with_reducible apply keepsO_next
    | with_reducible apply whenS_keeps
    | with_reducible apply trkCtlWrite_keeps
    | with_reducible apply keepsO_fault
    | split
    | intro _
    | split)

theorem trkGuardWrite_keeps {ms : Nat} {r0 : State} {t : Trk} {v : Word} {s : State} (hM : Sub 2048 ms) (hK : Keeps ms r0 s) :
    Keeps ms r0 (trkGuardWrite t v s) := by
  unfold trkGuardWrite
  try dsimp only
  repeat' (first
    | with_reducible assumption
    | exact hM.trans rfl
    | with_reducible apply openGuards_keeps
    | with_reducible apply modTrk_keeps
    | intro _
    | split)

theorem execTrkAnchorLoRead_keeps {ms : Nat} {r0 : State} {t : Trk} {s : State} (hM : Sub 1050624 ms) (hK : Keeps ms r0 s) :
    KeepsO ms r0 (execTrkAnchorLoRead t s) := by
  unfold execTrkAnchorLoRead
  try dsimp only
  repeat' (first
    | with_reducible assumption
    | exact hM.trans rfl
    | with_reducible apply keepsO_next
    | with_reducible apply whenS_keeps
    | with_reducible apply emit_keeps
    | with_reducible apply modTrk_keeps
    | with_reducible apply keepsO_fault
    | split
    | intro _
    | split)

theorem execEtLoRead_keeps {ms : Nat} {r0 : State} {s : State} (hM : Sub 1050624 ms) (hK : Keeps ms r0 s) :
    KeepsO ms r0 (execEtLoRead s) := by
  unfold execEtLoRead
  try dsimp only
  repeat' (first
    | with_reducible assumption
    | exact hM.trans rfl
    | with_reducible apply keepsO_next
    | with_reducible apply whenS_keeps
    | with_reducible apply emit_keeps
    | with_reducible apply modCue_keeps
    | exact fun (_ : Cue) g => g
    | with_reducible apply keepsO_fault
    | split
    | intro _
    | split)

end Sys2Proof.Machine
end

