-- ==== Sys2Proof/Laws/KeepsCueBase.lean ====
section
/-!
SUPPORT. Machine/CueBase.lean: each operation keeps what no command takes back (Laws/Keeps.lean).
-/

namespace Sys2Proof.Machine

set_option linter.all false

theorem cueFault_keeps {ms : Nat} {r0 : State} {c : Chan} {code : Nat} {s : State} (hM : Sub 1289730 ms) (hK : Keeps ms r0 s) :
    Keeps ms r0 (cueFault c code s) := by
  unfold cueFault
  try dsimp only
  repeat' (first
    | with_reducible assumption
    | exact hM.trans rfl
    | with_reducible apply chFault_keeps
    | intro _
    | split)

theorem moveTo_keeps {ms : Nat} {r0 : State} {c : Chan} {lib : Bool} {off : Nat} {s : State} (hM : Sub 2048 ms) (hK : Keeps ms r0 s) :
    Keeps ms r0 (moveTo c lib off s) := by
  unfold moveTo
  try dsimp only
  repeat' (first
    | with_reducible assumption
    | exact hM.trans rfl
    | with_reducible apply modCh_keeps
    | exact fun (_ : Channel) g => g
    | exact fun (_ : Channel) g => by simpa using g
    | intro _
    | split)

theorem branchTo_keeps {ms : Nat} {r0 : State} {c : Chan} {lib : Bool} {off : Int} {f : State → State} {s : State} (hf : ∀  s, Keeps ms r0 s → Keeps ms r0 (f  s)) (hM : Sub 1289730 ms) (hK : Keeps ms r0 s) :
    Keeps ms r0 (branchTo c lib off f s) := by
  unfold branchTo
  try dsimp only
  repeat' (first
    | with_reducible assumption
    | exact hM.trans rfl
    | with_reducible apply hf
    | with_reducible apply hf
    | with_reducible apply hf
    | with_reducible apply hf
    | with_reducible apply hf
    | with_reducible apply hf
    | with_reducible apply hf
    | with_reducible apply hf
    | with_reducible apply moveTo_keeps
    | with_reducible apply cueFault_keeps
    | intro _
    | split)

theorem complete_keeps {ms : Nat} {r0 : State} {c : Chan} {f : State → State} {s : State} (hf : ∀  s, Keeps ms r0 s → Keeps ms r0 (f  s)) (hM : Sub 1289730 ms) (hK : Keeps ms r0 s) :
    Keeps ms r0 (complete c f s) := by
  unfold complete
  try dsimp only
  repeat' (first
    | with_reducible assumption
    | exact hM.trans rfl
    | with_reducible apply hf
    | with_reducible apply hf
    | with_reducible apply hf
    | with_reducible apply hf
    | with_reducible apply hf
    | with_reducible apply hf
    | with_reducible apply hf
    | with_reducible apply hf
    | with_reducible apply branchTo_keeps
    | intro _
    | split)

theorem modFlags_keeps {ms : Nat} {r0 : State} {c : Chan} {f : BitVec 16 → BitVec 16} {s : State} (hM : Sub 2048 ms) (hK : Keeps ms r0 s) :
    Keeps ms r0 (modFlags c f s) := by
  unfold modFlags
  try dsimp only
  repeat' (first
    | with_reducible assumption
    | exact hM.trans rfl
    | with_reducible apply modCh_keeps
    | exact fun (_ : Channel) g => g
    | intro _
    | split)

theorem clearWb_keeps {ms : Nat} {r0 : State} {c : Chan} {nb : Bool} {s : State} (hM : Sub 2048 ms) (hK : Keeps ms r0 s) :
    Keeps ms r0 (clearWb c nb s) := by
  unfold clearWb
  try dsimp only
  repeat' (first
    | with_reducible assumption
    | exact hM.trans rfl
    | with_reducible apply modFlags_keeps
    | intro _
    | split)

theorem completeNb_keeps {ms : Nat} {r0 : State} {c : Chan} {nb : Bool} {f : State → State} {s : State} (hf : ∀  s, Keeps ms r0 s → Keeps ms r0 (f  s)) (hM : Sub 1289730 ms) (hK : Keeps ms r0 s) :
    Keeps ms r0 (completeNb c nb f s) := by
  unfold completeNb
  try dsimp only
  repeat' (first
    | with_reducible assumption
    | exact hM.trans rfl
    | with_reducible apply hf
    | with_reducible apply hf
    | with_reducible apply hf
    | with_reducible apply hf
    | with_reducible apply hf
    | with_reducible apply hf
    | with_reducible apply hf
    | with_reducible apply hf
    | with_reducible apply complete_keeps
    | with_reducible apply clearWb_keeps
    | intro _
    | split)

theorem blockNb_keeps {ms : Nat} {r0 : State} {c : Chan} {nb : Bool} {s : State} (hM : Sub 1289730 ms) (hK : Keeps ms r0 s) :
    Keeps ms r0 (blockNb c nb s) := by
  unfold blockNb
  try dsimp only
  repeat' (first
    | with_reducible assumption
    | exact hM.trans rfl
    | with_reducible apply complete_keeps
    | with_reducible apply modFlags_keeps
    | with_reducible apply modCh_keeps
    | exact fun (_ : Channel) g => g
    | intro _
    | split)

theorem setSlotOf_keeps {ms : Nat} {r0 : State} {c : Chan} {d : Slot} {v : Word} {s : State} (hM : Sub 2048 ms) (hK : Keeps ms r0 s) :
    Keeps ms r0 (setSlotOf c d v s) := by
  unfold setSlotOf
  try dsimp only
  repeat' (first
    | with_reducible assumption
    | exact hM.trans rfl
    | with_reducible apply modCh_keeps
    | exact fun (_ : Channel) g => g
    | intro _
    | split)

theorem setHeld_keeps {ms : Nat} {r0 : State} {c : Chan} {f : FlumeId} {n : Nat} {s : State} (hM : Sub 2048 ms) (hK : Keeps ms r0 s) :
    Keeps ms r0 (setHeld c f n s) := by
  unfold setHeld
  try dsimp only
  repeat' (first
    | with_reducible assumption
    | exact hM.trans rfl
    | with_reducible apply modCh_keeps
    | exact fun (_ : Channel) g => g
    | intro _
    | split)

theorem takeOne_keeps {ms : Nat} {r0 : State} {c : Chan} {f : FlumeId} {s : State} (hM : Sub 2560 ms) (hK : Keeps ms r0 s) :
    Keeps ms r0 (takeOne c f s) := by
  unfold takeOne
  try dsimp only
  repeat' (first
    | with_reducible assumption
    | exact hM.trans rfl
    | with_reducible apply takeTally_keeps
    | with_reducible apply setHeld_keeps
    | intro _
    | split)

theorem pushInto_keeps {ms : Nat} {r0 : State} {c : Chan} {nb : Bool} {fl : List FlumeId} {g : State → State} {s : State} (hg : ∀  s, Keeps ms r0 s → Keeps ms r0 (g  s)) (hM : Sub 1289730 ms) (hK : Keeps ms r0 s) :
    Keeps ms r0 (pushInto c nb fl g s) := by
  unfold pushInto
  try dsimp only
  repeat' (first
    | with_reducible assumption
    | exact hM.trans rfl
    | with_reducible apply hg
    | with_reducible apply cueFault_keeps
    | with_reducible apply blockNb_keeps
    | intro _
    | split)

theorem callI_keeps {ms : Nat} {r0 : State} {c : Chan} {lib : Bool} {d : BitVec 21} {s : State} (hM : Sub 1289730 ms) (hK : Keeps ms r0 s) :
    Keeps ms r0 (callI c lib d s) := by
  unfold callI
  try dsimp only
  repeat' (first
    | with_reducible assumption
    | exact hM.trans rfl
    | with_reducible apply modCh_keeps
    | with_reducible apply cueFault_keeps
    | with_reducible apply branchTo_keeps
    | exact fun (_ : Channel) g => g
    | intro _
    | split)

theorem retI_keeps {ms : Nat} {r0 : State} {c : Chan} {s : State} (hM : Sub 1289730 ms) (hK : Keeps ms r0 s) :
    Keeps ms r0 (retI c s) := by
  unfold retI
  try dsimp only
  repeat' (first
    | with_reducible assumption
    | exact hM.trans rfl
    | with_reducible apply cueFault_keeps
    | with_reducible apply branchTo_keeps
    | with_reducible apply modCh_keeps
    | exact fun (_ : Channel) g => g
    | intro _
    | split)

theorem jumpI_keeps {ms : Nat} {r0 : State} {c : Chan} {d : BitVec 21} {f : State → State} {s : State} (hf : ∀  s, Keeps ms r0 s → Keeps ms r0 (f  s)) (hM : Sub 1289730 ms) (hK : Keeps ms r0 s) :
    Keeps ms r0 (jumpI c d f s) := by
  unfold jumpI
  try dsimp only
  repeat' (first
    | with_reducible assumption
    | exact hM.trans rfl
    | with_reducible apply hf
    | with_reducible apply hf
    | with_reducible apply hf
    | with_reducible apply hf
    | with_reducible apply hf
    | with_reducible apply hf
    | with_reducible apply hf
    | with_reducible apply hf
    | with_reducible apply branchTo_keeps
    | intro _
    | split)

theorem loopI_keeps {ms : Nat} {r0 : State} {c : Chan} {n : Slot} {d : BitVec 21} {s : State} (hM : Sub 1289730 ms) (hK : Keeps ms r0 s) :
    Keeps ms r0 (loopI c n d s) := by
  unfold loopI
  try dsimp only
  repeat' (first
    | with_reducible assumption
    | exact hM.trans rfl
    | with_reducible apply complete_keeps
    | with_reducible apply setSlotOf_keeps
    | with_reducible apply jumpI_keeps
    | intro _
    | split)

theorem haltI_keeps {ms : Nat} {r0 : State} {c : Chan} {s : State} (hM : Sub 1289730 ms) (hK : Keeps ms r0 s) :
    Keeps ms r0 (haltI c s) := by
  unfold haltI
  try dsimp only
  repeat' (first
    | with_reducible assumption
    | exact hM.trans rfl
    | with_reducible apply cueFault_keeps
    | with_reducible apply post_keeps
    | with_reducible apply modCh_keeps
    | with_reducible apply moveTo_keeps
    | exact fun (_ : Channel) g => g
    | intro _
    | split)

theorem aluI_keeps {ms : Nat} {r0 : State} {c : Chan} {o : Alu} {d : Slot} {a : Slot} {b : Op2} {s : State} (hM : Sub 1289730 ms) (hK : Keeps ms r0 s) :
    Keeps ms r0 (aluI c o d a b s) := by
  unfold aluI
  try dsimp only
  repeat' (first
    | with_reducible assumption
    | exact hM.trans rfl
    | with_reducible apply complete_keeps
    | with_reducible apply modFlags_keeps
    | with_reducible apply setSlotOf_keeps
    | intro _
    | split)

theorem cmpI_keeps {ms : Nat} {r0 : State} {c : Chan} {a : Slot} {b : Op2} {s : State} (hM : Sub 1289730 ms) (hK : Keeps ms r0 s) :
    Keeps ms r0 (cmpI c a b s) := by
  unfold cmpI
  try dsimp only
  repeat' (first
    | with_reducible assumption
    | exact hM.trans rfl
    | with_reducible apply complete_keeps
    | with_reducible apply modFlags_keeps
    | intro _
    | split)

theorem ldmI_keeps {ms : Nat} {r0 : State} {c : Chan} {d : Slot} {a : Slot} {b : Op2} {s : State} (hM : Sub 1289730 ms) (hK : Keeps ms r0 s) :
    Keeps ms r0 (ldmI c d a b s) := by
  unfold ldmI
  try dsimp only
  repeat' (first
    | with_reducible assumption
    | exact hM.trans rfl
    | with_reducible apply complete_keeps
    | with_reducible apply setSlotOf_keeps
    | with_reducible apply cueFault_keeps
    | intro _
    | split)

theorem stmI_keeps {ms : Nat} {r0 : State} {c : Chan} {d : Slot} {a : Slot} {b : Op2} {s : State} (hM : Sub 1289730 ms) (hK : Keeps ms r0 s) :
    Keeps ms r0 (stmI c d a b s) := by
  unfold stmI
  try dsimp only
  repeat' (first
    | with_reducible assumption
    | exact hM.trans rfl
    | apply memWrite_wf
    | with_reducible apply complete_keeps
    | with_reducible apply modCh_keeps
    | with_reducible apply cueFault_keeps
    | exact fun (_ : Channel) g => g
    | exact fun (_ : Channel) g => chOk_write g
    | intro _
    | split)

theorem statusI_keeps {ms : Nat} {r0 : State} {c : Chan} {d : Slot} {res : Byte} {item : Byte} {s : State} (hM : Sub 1289730 ms) (hK : Keeps ms r0 s) :
    Keeps ms r0 (statusI c d res item s) := by
  unfold statusI
  try dsimp only
  repeat' (first
    | with_reducible assumption
    | exact hM.trans rfl
    | with_reducible apply cueFault_keeps
    | with_reducible apply complete_keeps
    | with_reducible apply modCh_keeps
    | with_reducible apply setSlotOf_keeps
    | exact fun (_ : Channel) g => g
    | intro _
    | split)

theorem waitI_keeps {ms : Nat} {r0 : State} {c : Chan} {b : Bool} {s : State} (hM : Sub 1289730 ms) (hK : Keeps ms r0 s) :
    Keeps ms r0 (waitI c b s) := by
  unfold waitI
  try dsimp only
  repeat' (first
    | with_reducible assumption
    | exact hM.trans rfl
    | with_reducible apply complete_keeps
    | with_reducible apply id_keeps
    | with_reducible apply blockNb_keeps
    | intro _
    | split)

theorem waitthI_keeps {ms : Nat} {r0 : State} {c : Chan} {t : Trk} {n : Slot} {ph : BitVec 10} {s : State} (hM : Sub 1289730 ms) (hK : Keeps ms r0 s) :
    Keeps ms r0 (waitthI c t n ph s) := by
  unfold waitthI
  try dsimp only
  repeat' (first
    | with_reducible assumption
    | exact hM.trans rfl
    | with_reducible apply cueFault_keeps
    | with_reducible apply waitI_keeps
    | intro _
    | split)

theorem waitevI_keeps {ms : Nat} {r0 : State} {c : Chan} {nb : Bool} {a : Slot} {b : Slot} {s : State} (hM : Sub 1289730 ms) (hK : Keeps ms r0 s) :
    Keeps ms r0 (waitevI c nb a b s) := by
  unfold waitevI
  try dsimp only
  repeat' (first
    | with_reducible assumption
    | exact hM.trans rfl
    | with_reducible apply blockNb_keeps
    | with_reducible apply completeNb_keeps
    | with_reducible apply retTally_keeps
    | with_reducible apply setSlotOf_keeps
    | with_reducible apply modCh_keeps
    | exact fun (_ : Channel) g => g
    | intro _
    | split)

theorem prefixI_keeps {ms : Nat} {r0 : State} {c : Chan} {p : Pfx} {f : State → State} {s : State} (hf : ∀  s, Keeps ms r0 s → Keeps ms r0 (f  s)) (hM : Sub 1289730 ms) (hK : Keeps ms r0 s) :
    Keeps ms r0 (prefixI c p f s) := by
  unfold prefixI
  try dsimp only
  repeat' (first
    | with_reducible assumption
    | exact hM.trans rfl
    | with_reducible apply hf
    | with_reducible apply hf
    | with_reducible apply hf
    | with_reducible apply hf
    | with_reducible apply hf
    | with_reducible apply hf
    | with_reducible apply hf
    | with_reducible apply hf
    | with_reducible apply modCh_keeps
    | with_reducible apply complete_keeps
    | with_reducible apply cueFault_keeps
    | exact fun (_ : Channel) g => g
    | intro _
    | split)

theorem atI_keeps {ms : Nat} {r0 : State} {c : Chan} {pol : BitVec 2} {cpl : Bool} {rel : Bool} {n : Slot} {s : State} (hM : Sub 1289730 ms) (hK : Keeps ms r0 s) :
    Keeps ms r0 (atI c pol cpl rel n s) := by
  unfold atI
  try dsimp only
  repeat' (first
    | with_reducible assumption
    | exact hM.trans rfl
    | with_reducible apply prefixI_keeps
    | with_reducible apply modCh_keeps
    | exact fun (_ : Channel) g => g
    | intro _
    | split)

theorem atthI_keeps {ms : Nat} {r0 : State} {c : Chan} {pol : BitVec 2} {cpl : Bool} {t : Trk} {n : Slot} {ph : BitVec 10} {s : State} (hM : Sub 1289730 ms) (hK : Keeps ms r0 s) :
    Keeps ms r0 (atthI c pol cpl t n ph s) := by
  unfold atthI
  try dsimp only
  repeat' (first
    | with_reducible assumption
    | exact hM.trans rfl
    | with_reducible apply prefixI_keeps
    | with_reducible apply id_keeps
    | intro _
    | split)

theorem postUser_keeps {ms : Nat} {r0 : State} {c : Chan} {r : Rec} {s : State} (hM : Sub 1052162 ms) (hK : Keeps ms r0 s) :
    Keeps ms r0 (postUser c r s) := by
  unfold postUser
  try dsimp only
  repeat' (first
    | with_reducible assumption
    | exact hM.trans rfl
    | with_reducible apply noteMin_keeps
    | with_reducible apply post_keeps
    | with_reducible apply modFl_keeps
    | with_reducible apply setHeld_keeps
    | with_reducible apply serveWaiting_keeps
    | intro _
    | split)

theorem pushI_keeps {ms : Nat} {r0 : State} {c : Chan} {nb : Bool} {k : Byte} {a : Slot} {s : State} (hM : Sub 1289730 ms) (hK : Keeps ms r0 s) :
    Keeps ms r0 (pushI c nb k a s) := by
  unfold pushI
  try dsimp only
  repeat' (first
    | with_reducible assumption
    | exact hM.trans rfl
    | with_reducible apply cueFault_keeps
    | with_reducible apply completeNb_keeps
    | with_reducible apply postUser_keeps
    | with_reducible apply blockNb_keeps
    | intro _
    | split)

theorem popI_keeps {ms : Nat} {r0 : State} {c : Chan} {nb : Bool} {a : Slot} {s : State} (hM : Sub 1289730 ms) (hK : Keeps ms r0 s) :
    Keeps ms r0 (popI c nb a s) := by
  unfold popI
  try dsimp only
  repeat' (first
    | with_reducible assumption
    | exact hM.trans rfl
    | apply memWrite_wf
    | with_reducible apply cueFault_keeps
    | with_reducible apply blockNb_keeps
    | with_reducible apply completeNb_keeps
    | with_reducible apply retTally_keeps
    | with_reducible apply modCh_keeps
    | exact fun (_ : Channel) g => g
    | exact fun (_ : Channel) g => chOk_write g
    | intro _
    | split)

theorem takeMany_keeps {ms : Nat} {r0 : State} {f : FlumeId} (hM : Sub 512 ms) :
    ∀ {n : Nat} {s : State}, Keeps ms r0 s → Keeps ms r0 (takeMany f n s)
  | 0, _, h => h
  | n + 1, _, h => takeMany_keeps hM (n := n) (takeTally_keeps (hM.trans rfl) h)

theorem takeI_keeps {ms : Nat} {r0 : State} {c : Chan} {nb : Bool} {id : Nat} {k : Nat} {s : State} (hM : Sub 1289730 ms) (hK : Keeps ms r0 s) :
    Keeps ms r0 (takeI c nb id k s) := by
  unfold takeI
  try dsimp only
  repeat' (first
    | with_reducible assumption
    | exact hM.trans rfl
    | with_reducible apply id_keeps
    | with_reducible apply cueFault_keeps
    | with_reducible apply completeNb_keeps
    | with_reducible apply modCh_keeps
    | with_reducible apply setHeld_keeps
    | with_reducible apply takeMany_keeps
    | with_reducible apply blockNb_keeps
    | exact fun (_ : Channel) g => g
    | intro _
    | split)

theorem giveI_keeps {ms : Nat} {r0 : State} {c : Chan} {id : Nat} {k : Nat} {s : State} (hM : Sub 1289730 ms) (hK : Keeps ms r0 s) :
    Keeps ms r0 (giveI c id k s) := by
  unfold giveI
  try dsimp only
  repeat' (first
    | with_reducible assumption
    | exact hM.trans rfl
    | with_reducible apply id_keeps
    | with_reducible apply cueFault_keeps
    | with_reducible apply complete_keeps
    | with_reducible apply retTallies_keeps
    | with_reducible apply setHeld_keeps
    | intro _
    | split)

theorem fenceI_keeps {ms : Nat} {r0 : State} {c : Chan} {k : BitVec 4} {s : State} (hM : Sub 1289730 ms) (hK : Keeps ms r0 s) :
    Keeps ms r0 (fenceI c k s) := by
  unfold fenceI
  try dsimp only
  repeat' (first
    | with_reducible assumption
    | exact hM.trans rfl
    | with_reducible apply cueFault_keeps
    | with_reducible apply waitI_keeps
    | intro _
    | split)

theorem logI_keeps {ms : Nat} {r0 : State} {c : Chan} {stream : Fin 4} {k : Byte} {a : Slot} {b : Slot} {s : State} (hM : Sub 1289746 ms) (hK : Keeps ms r0 s) :
    Keeps ms r0 (logI c stream k a b s) := by
  unfold logI
  try dsimp only
  repeat' (first
    | with_reducible assumption
    | exact hM.trans rfl
    | with_reducible apply complete_keeps
    | with_reducible apply takeTally_keeps
    | with_reducible apply modLg_keeps
    | with_reducible apply blockNb_keeps
    | intro _
    | split)

end Sys2Proof.Machine
end

