-- ==== Sys2Proof/Laws/KeepsCueEngine.lean ====
section
/-!
SUPPORT. Machine/CueEngine.lean: each operation keeps what no command takes back (Laws/Keeps.lean).
-/

namespace Sys2Proof.Machine

set_option linter.all false

theorem countTag_keeps {ms : Nat} {r0 : State} {e : Engine} {g : Option Page} {s : State} (hM : Sub 2048 ms) (hK : Keeps ms r0 s) :
    Keeps ms r0 (countTag e g s) := by
  unfold countTag
  try dsimp only
  repeat' (first
    | with_reducible assumption
    | exact hM.trans rfl
    | with_reducible apply modPage_keeps
    | intro _
    | split)

theorem queueAction_keeps {ms : Nat} {r0 : State} {c : Chan} {a : Action} {s : State} (hM : Sub 2048 ms) (hK : Keeps ms r0 s) :
    Keeps ms r0 (queueAction c a s) := by
  refine keeps_cue (s := s) (hM.trans rfl) hK _ fun {b} g d => ?_
  show chOk b d (s.cue.nextId + 1) (tget (tmod s.cue.ch c _) d).scratch (tget (tmod s.cue.ch c _) d).actq
  rw [tget_tmod]
  split
  · rename_i e; subst e; exact chOk_push (g _) rfl rfl
  · exact chOk_next (g d)

theorem timedI_keeps {ms : Nat} {r0 : State} {c : Chan} {nb : Bool} {p : Pfx} {op : ActOp} {tag : Option Page} {f : State → State} {s : State} (hf : ∀  s, Keeps ms r0 s → Keeps ms r0 (f  s)) (hM : Sub 4189714 ms) (hK : Keeps ms r0 s) :
    Keeps ms r0 (timedI c nb p op tag f s) := by
  unfold timedI
  try dsimp only
  repeat' (first
    | with_reducible assumption
    | exact hM.trans rfl
    | with_reducible apply hf
    | with_reducible apply hf
    | with_reducible apply hf
    | with_reducible apply hf
    | with_reducible apply hf
    | with_reducible apply hf
    | with_reducible apply hf
    | with_reducible apply hf
    | with_reducible apply pushInto_keeps
    | with_reducible apply reachWheel_keeps
    | with_reducible apply completeNb_keeps
    | with_reducible apply queueAction_keeps
    | with_reducible apply forEach_keeps
    | with_reducible apply takeOne_keeps
    | with_reducible apply cueFault_keeps
    | intro _
    | split)

theorem rejectEntry_keeps {ms : Nat} {r0 : State} {c : Chan} {code : Nat} {pc : Nat} {s : State} (hM : Sub 1289730 ms) (hK : Keeps ms r0 s) :
    Keeps ms r0 (rejectEntry c code pc s) := by
  unfold rejectEntry
  try dsimp only
  repeat' (first
    | with_reducible assumption
    | exact hM.trans rfl
    | with_reducible apply chFault_keeps
    | intro _
    | split)

theorem engineI_runNow_keeps {ms : Nat} {r0 : State} {c : Chan} {op : ActOp} {s : State} (hM : Sub 4189714 ms) (hK : Keeps ms r0 s) :
    Keeps ms r0 (engineI.runNow c op s) := by
  unfold engineI.runNow
  repeat' (first
    | with_reducible assumption
    | exact hM.trans rfl
    | with_reducible apply pushSeg_keeps
    | with_reducible apply pushSp_keeps
    | with_reducible apply setGpio_keeps
    | with_reducible apply loopOnRun_keeps
    | with_reducible apply loopOffOp_keeps
    | split)

theorem engineI_untimed_keeps {ms : Nat} {r0 : State} {c : Chan} {nb : Bool} {id : Nat} {op : ActOp} {s : State} (hM : Sub 4189714 ms)
    (hK : Keeps ms r0 s) : Keeps ms r0 (engineI.untimed c nb id op s) := by
  unfold engineI.untimed
  repeat' (first
    | with_reducible assumption
    | exact hM.trans rfl
    | with_reducible apply engineI_runNow_keeps
    | with_reducible apply rejectEntry_keeps
    | with_reducible apply pushInto_keeps
    | with_reducible apply completeNb_keeps
    | with_reducible apply takeOne_keeps
    | with_reducible apply cueFault_keeps
    | intro _
    | split)

theorem engineI_keeps {ms : Nat} {r0 : State} {c : Chan} {nb : Bool} {id : Nat} {op : ActOp} {s : State} (hM : Sub 4189714 ms)
    (hK : Keeps ms r0 s) : Keeps ms r0 (engineI c nb id op s) := by
  unfold engineI
  split
  · exact timedI_keeps (fun _ h => h) (hM.trans rfl) hK
  · exact engineI_untimed_keeps hM hK

theorem granted_keeps {ms : Nat} {r0 : State} {c : Chan} {ids : List Nat} {e : Bool} {k : State → State} {s : State} (hk : ∀  s, Keeps ms r0 s → Keeps ms r0 (k  s)) (hM : Sub 1289730 ms) (hK : Keeps ms r0 s) :
    Keeps ms r0 (granted c ids e k s) := by
  unfold granted
  try dsimp only
  repeat' (first
    | with_reducible assumption
    | exact hM.trans rfl
    | with_reducible apply hk
    | with_reducible apply cueFault_keeps
    | intro _
    | split)

theorem moveI_keeps {ms : Nat} {r0 : State} {c : Chan} {nb : Bool} {id : Nat} {k : Nat} {a : Slot} {s : State} (hM : Sub 4189714 ms) (hK : Keeps ms r0 s) :
    Keeps ms r0 (moveI c nb id k a s) := by
  unfold moveI
  try dsimp only
  repeat' (first
    | with_reducible assumption
    | exact hM.trans rfl
    | with_reducible apply id_keeps
    | with_reducible apply granted_keeps
    | with_reducible apply cueFault_keeps
    | with_reducible apply engineI_keeps
    | intro _
    | split)

theorem movxI_keeps {ms : Nat} {r0 : State} {c : Chan} {nb : Bool} {id : Nat} {a : Slot} {s : State} (hM : Sub 4189714 ms) (hK : Keeps ms r0 s) :
    Keeps ms r0 (movxI c nb id a s) := by
  unfold movxI
  try dsimp only
  repeat' (first
    | with_reducible assumption
    | exact hM.trans rfl
    | with_reducible apply id_keeps
    | with_reducible apply granted_keeps
    | with_reducible apply cueFault_keeps
    | with_reducible apply engineI_keeps
    | intro _
    | split)

theorem setpLoop_keeps {ms : Nat} {r0 : State} {c : Chan} {nb : Bool} {e : Bool} {l : LoopId} {a : Slot} {s : State} (hM : Sub 4189714 ms) (hK : Keeps ms r0 s) :
    Keeps ms r0 (setpLoop c nb e l a s) := by
  unfold setpLoop
  try dsimp only
  repeat' (first
    | with_reducible assumption
    | exact hM.trans rfl
    | with_reducible apply granted_keeps
    | with_reducible apply cueFault_keeps
    | with_reducible apply engineI_keeps
    | intro _
    | split)

theorem setpGpio_keeps {ms : Nat} {r0 : State} {c : Chan} {nb : Bool} {e : Bool} {g : Gpio} {a : Slot} {s : State} (hM : Sub 4189714 ms) (hK : Keeps ms r0 s) :
    Keeps ms r0 (setpGpio c nb e g a s) := by
  unfold setpGpio
  try dsimp only
  repeat' (first
    | with_reducible assumption
    | exact hM.trans rfl
    | with_reducible apply cueFault_keeps
    | with_reducible apply granted_keeps
    | with_reducible apply engineI_keeps
    | intro _
    | split)

theorem setpI_keeps {ms : Nat} {r0 : State} {c : Chan} {nb : Bool} {e : Bool} {id : Nat} {a : Slot} {s : State} (hM : Sub 4189714 ms) (hK : Keeps ms r0 s) :
    Keeps ms r0 (setpI c nb e id a s) := by
  unfold setpI
  try dsimp only
  repeat' (first
    | with_reducible assumption
    | exact hM.trans rfl
    | with_reducible apply id_keeps
    | with_reducible apply setpLoop_keeps
    | with_reducible apply setpGpio_keeps
    | with_reducible apply cueFault_keeps
    | intro _
    | split)

theorem rampI_keeps {ms : Nat} {r0 : State} {c : Chan} {nb : Bool} {e : Bool} {id : Nat} {k : Nat} {a : Slot} {b : Slot} {s : State} (hM : Sub 4189714 ms) (hK : Keeps ms r0 s) :
    Keeps ms r0 (rampI c nb e id k a b s) := by
  unfold rampI
  try dsimp only
  repeat' (first
    | with_reducible assumption
    | exact hM.trans rfl
    | with_reducible apply id_keeps
    | with_reducible apply granted_keeps
    | with_reducible apply cueFault_keeps
    | with_reducible apply engineI_keeps
    | with_reducible apply useFree_keeps
    | intro _
    | split)

theorem looponI_keeps {ms : Nat} {r0 : State} {c : Chan} {nb : Bool} {e : Bool} {id : Nat} {k : Nat} {a : Slot} {s : State} (hM : Sub 4189714 ms) (hK : Keeps ms r0 s) :
    Keeps ms r0 (looponI c nb e id k a s) := by
  unfold looponI
  try dsimp only
  repeat' (first
    | with_reducible assumption
    | exact hM.trans rfl
    | with_reducible apply id_keeps
    | with_reducible apply granted_keeps
    | with_reducible apply cueFault_keeps
    | with_reducible apply engineI_keeps
    | intro _
    | split)

theorem loopoffI_keeps {ms : Nat} {r0 : State} {c : Chan} {nb : Bool} {id : Nat} {s : State} (hM : Sub 4189714 ms) (hK : Keeps ms r0 s) :
    Keeps ms r0 (loopoffI c nb id s) := by
  unfold loopoffI
  try dsimp only
  repeat' (first
    | with_reducible assumption
    | exact hM.trans rfl
    | with_reducible apply id_keeps
    | with_reducible apply granted_keeps
    | with_reducible apply engineI_keeps
    | with_reducible apply cueFault_keeps
    | intro _
    | split)

theorem needTime_keeps {ms : Nat} {r0 : State} {c : Chan} {k : Pfx → State → State} {s : State} (hk : ∀ a0 s, Keeps ms r0 s → Keeps ms r0 (k a0 s)) (hM : Sub 1289730 ms) (hK : Keeps ms r0 s) :
    Keeps ms r0 (needTime c k s) := by
  unfold needTime
  try dsimp only
  repeat' (first
    | with_reducible assumption
    | exact hM.trans rfl
    | with_reducible apply hk
    | with_reducible apply cueFault_keeps
    | intro _
    | split)

theorem fireI_keeps {ms : Nat} {r0 : State} {c : Chan} {nb : Bool} {id : Nat} {s : State} (hM : Sub 4189714 ms) (hK : Keeps ms r0 s) :
    Keeps ms r0 (fireI c nb id s) := by
  unfold fireI
  try dsimp only
  repeat' (first
    | with_reducible assumption
    | exact hM.trans rfl
    | with_reducible apply id_keeps
    | with_reducible apply granted_keeps
    | with_reducible apply needTime_keeps
    | with_reducible apply timedI_keeps
    | with_reducible apply countTag_keeps
    | with_reducible apply cueFault_keeps
    | intro _
    | split)

theorem strobeI_keeps {ms : Nat} {r0 : State} {c : Chan} {nb : Bool} {id : Nat} {s : State} (hM : Sub 4189714 ms) (hK : Keeps ms r0 s) :
    Keeps ms r0 (strobeI c nb id s) := by
  unfold strobeI
  try dsimp only
  repeat' (first
    | with_reducible assumption
    | exact hM.trans rfl
    | with_reducible apply id_keeps
    | with_reducible apply granted_keeps
    | with_reducible apply needTime_keeps
    | with_reducible apply timedI_keeps
    | with_reducible apply countTag_keeps
    | with_reducible apply cueFault_keeps
    | intro _
    | split)

theorem scanlI_keeps {ms : Nat} {r0 : State} {c : Chan} {nb : Bool} {id : Nat} {k : BitVec 2} {s : State} (hM : Sub 4189714 ms) (hK : Keeps ms r0 s) :
    Keeps ms r0 (scanlI c nb id k s) := by
  unfold scanlI
  try dsimp only
  repeat' (first
    | with_reducible assumption
    | exact hM.trans rfl
    | with_reducible apply id_keeps
    | with_reducible apply granted_keeps
    | with_reducible apply needTime_keeps
    | with_reducible apply timedI_keeps
    | with_reducible apply cueFault_keeps
    | intro _
    | split)

theorem sigI_keeps {ms : Nat} {r0 : State} {c : Chan} {nb : Bool} {k : Byte} {a : Slot} {b : Slot} {s : State} (hM : Sub 4189714 ms) (hK : Keeps ms r0 s) :
    Keeps ms r0 (sigI c nb k a b s) := by
  unfold sigI
  try dsimp only
  repeat' (first
    | with_reducible assumption
    | exact hM.trans rfl
    | with_reducible apply cueFault_keeps
    | with_reducible apply timedI_keeps
    | with_reducible apply pushInto_keeps
    | with_reducible apply completeNb_keeps
    | with_reducible apply deliverSig_keeps
    | with_reducible apply takeOne_keeps
    | intro _
    | split)

theorem admitTest_keeps {ms : Nat} {r0 : State} {c : Chan} {nb : Bool} {b : Slot} {g : Page} {gpio : Word} {s : State} (hM : Sub 1289738 ms) (hK : Keeps ms r0 s) :
    Keeps ms r0 (admitTest c nb b g gpio s) := by
  unfold admitTest
  try dsimp only
  repeat' (first
    | with_reducible assumption
    | exact hM.trans rfl
    | with_reducible apply modPage_keeps
    | with_reducible apply modCue_keeps
    | with_reducible apply completeNb_keeps
    | with_reducible apply setSlotOf_keeps
    | with_reducible apply admitPage_keeps
    | with_reducible apply complete_keeps
    | with_reducible apply modFlags_keeps
    | with_reducible apply blockNb_keeps
    | exact fun (_ : Cue) g => g
    | intro _
    | split)

theorem admitI_keeps {ms : Nat} {r0 : State} {c : Chan} {nb : Bool} {a : Slot} {b : Slot} {gpio : Word} {s : State} (hM : Sub 1289738 ms) (hK : Keeps ms r0 s) :
    Keeps ms r0 (admitI c nb a b gpio s) := by
  unfold admitI
  try dsimp only
  repeat' (first
    | with_reducible assumption
    | exact hM.trans rfl
    | with_reducible apply cueFault_keeps
    | with_reducible apply completeNb_keeps
    | with_reducible apply setSlotOf_keeps
    | with_reducible apply admitTest_keeps
    | intro _
    | split)

theorem doneI_keeps {ms : Nat} {r0 : State} {c : Chan} {a : Slot} {s : State} (hM : Sub 1289730 ms) (hK : Keeps ms r0 s) :
    Keeps ms r0 (doneI c a s) := by
  unfold doneI
  try dsimp only
  repeat' (first
    | with_reducible assumption
    | exact hM.trans rfl
    | with_reducible apply cueFault_keeps
    | with_reducible apply endPages_keeps
    | with_reducible apply complete_keeps
    | with_reducible apply modPage_keeps
    | intro _
    | split)

theorem abortI_keeps {ms : Nat} {r0 : State} {c : Chan} {a : Slot} {s : State} (hM : Sub 1289730 ms) (hK : Keeps ms r0 s) :
    Keeps ms r0 (abortI c a s) := by
  unfold abortI
  try dsimp only
  repeat' (first
    | with_reducible assumption
    | exact hM.trans rfl
    | with_reducible apply complete_keeps
    | with_reducible apply abortPages_keeps
    | with_reducible apply modFlags_keeps
    | intro _
    | split)

end Sys2Proof.Machine
end

