-- ==== Sys2Proof/Laws/KeepsCue.lean ====
section
/-!
SUPPORT. Machine/Cue.lean: each operation keeps what no command takes back (Laws/Keeps.lean).
-/

namespace Sys2Proof.Machine

set_option linter.all false

theorem jccI_keeps {ms : Nat} {r0 : State} {c : Chan} {cc : BitVec 4} {d : BitVec 21} {s : State} (hM : Sub 1289730 ms) (hK : Keeps ms r0 s) :
    Keeps ms r0 (jccI c cc d s) := by
  unfold jccI
  try dsimp only
  repeat' (first
    | with_reducible assumption
    | exact hM.trans rfl
    | with_reducible apply jumpI_keeps
    | with_reducible apply id_keeps
    | with_reducible apply complete_keeps
    | intro _
    | split)

theorem ldhI_keeps {ms : Nat} {r0 : State} {c : Chan} {d : Slot} {v : BitVec 16} {s : State} (hM : Sub 1289730 ms) (hK : Keeps ms r0 s) :
    Keeps ms r0 (ldhI c d v s) := by
  unfold ldhI
  try dsimp only
  repeat' (first
    | with_reducible assumption
    | exact hM.trans rfl
    | with_reducible apply complete_keeps
    | with_reducible apply setSlotOf_keeps
    | intro _
    | split)

theorem movI_keeps {ms : Nat} {r0 : State} {c : Chan} {d : Slot} {a : Slot} {s : State} (hM : Sub 1289730 ms) (hK : Keeps ms r0 s) :
    Keeps ms r0 (movI c d a s) := by
  unfold movI
  try dsimp only
  repeat' (first
    | with_reducible assumption
    | exact hM.trans rfl
    | with_reducible apply complete_keeps
    | with_reducible apply setSlotOf_keeps
    | intro _
    | split)

theorem movFrI_keeps {ms : Nat} {r0 : State} {c : Chan} {d : Slot} {s : State} (hM : Sub 1289730 ms) (hK : Keeps ms r0 s) :
    Keeps ms r0 (movFrI c d s) := by
  unfold movFrI
  try dsimp only
  repeat' (first
    | with_reducible assumption
    | exact hM.trans rfl
    | with_reducible apply complete_keeps
    | with_reducible apply setSlotOf_keeps
    | intro _
    | split)

theorem movFwI_keeps {ms : Nat} {r0 : State} {c : Chan} {a : Slot} {s : State} (hM : Sub 1289730 ms) (hK : Keeps ms r0 s) :
    Keeps ms r0 (movFwI c a s) := by
  unfold movFwI
  try dsimp only
  repeat' (first
    | with_reducible assumption
    | exact hM.trans rfl
    | with_reducible apply complete_keeps
    | with_reducible apply modFlags_keeps
    | intro _
    | split)

theorem waitetI_keeps {ms : Nat} {r0 : State} {c : Chan} {n : Slot} {s : State} (hM : Sub 1289730 ms) (hK : Keeps ms r0 s) :
    Keeps ms r0 (waitetI c n s) := by
  unfold waitetI
  try dsimp only
  repeat' (first
    | with_reducible assumption
    | exact hM.trans rfl
    | with_reducible apply waitI_keeps
    | intro _
    | split)

theorem runI_keeps {ms : Nat} {r0 : State} {c : Chan} {i : CueI} {gpio : Word} {s : State} (hM : Sub 4189722 ms) (hK : Keeps ms r0 s) :
    Keeps ms r0 (runI c i gpio s) := by
  unfold runI
  try dsimp only
  repeat' (first
    | with_reducible assumption
    | exact hM.trans rfl
    | with_reducible apply complete_keeps
    | with_reducible apply id_keeps
    | with_reducible apply jumpI_keeps
    | with_reducible apply jccI_keeps
    | with_reducible apply callI_keeps
    | with_reducible apply retI_keeps
    | with_reducible apply loopI_keeps
    | with_reducible apply haltI_keeps
    | with_reducible apply setSlotOf_keeps
    | with_reducible apply ldhI_keeps
    | with_reducible apply movI_keeps
    | with_reducible apply movFrI_keeps
    | with_reducible apply movFwI_keeps
    | with_reducible apply statusI_keeps
    | with_reducible apply aluI_keeps
    | with_reducible apply cmpI_keeps
    | with_reducible apply ldmI_keeps
    | with_reducible apply stmI_keeps
    | with_reducible apply waitetI_keeps
    | with_reducible apply waitthI_keeps
    | with_reducible apply waitevI_keeps
    | with_reducible apply atI_keeps
    | with_reducible apply atthI_keeps
    | with_reducible apply pushI_keeps
    | with_reducible apply popI_keeps
    | with_reducible apply takeI_keeps
    | with_reducible apply giveI_keeps
    | with_reducible apply moveI_keeps
    | with_reducible apply movxI_keeps
    | with_reducible apply setpI_keeps
    | with_reducible apply rampI_keeps
    | with_reducible apply looponI_keeps
    | with_reducible apply loopoffI_keeps
    | with_reducible apply fireI_keeps
    | with_reducible apply strobeI_keeps
    | with_reducible apply scanlI_keeps
    | with_reducible apply sigI_keeps
    | with_reducible apply fenceI_keeps
    | with_reducible apply admitI_keeps
    | with_reducible apply doneI_keeps
    | with_reducible apply abortI_keeps
    | with_reducible apply logI_keeps
    | with_reducible apply cueFault_keeps
    | intro _
    | split)

theorem attempt_keeps {ms : Nat} {r0 : State} {c : Chan} {i : CueI} {gpio : Word} {s : State} (hM : Sub 4189722 ms) (hK : Keeps ms r0 s) :
    Keeps ms r0 (attempt c i gpio s) := by
  unfold attempt
  try dsimp only
  repeat' (first
    | with_reducible assumption
    | exact hM.trans rfl
    | with_reducible apply cueFault_keeps
    | with_reducible apply runI_keeps
    | intro _
    | split)

theorem issueRow_keeps {ms : Nat} {r0 : State} {c : Chan} {k : CueI → Bool} {gpio : Word} {s : State} (hM : Sub 4189722 ms) (hK : Keeps ms r0 s) :
    Keeps ms r0 (issueRow c k gpio s) := by
  unfold issueRow
  try dsimp only
  repeat' (first
    | with_reducible assumption
    | exact hM.trans rfl
    | with_reducible apply attempt_keeps
    | intro _
    | split)

theorem execBlockedInstructionResume_keeps {ms : Nat} {r0 : State} {c : Chan} {gpio : Word} {s : State} (hM : Sub 4189723 ms) (hK : Keeps ms r0 s) :
    KeepsO ms r0 (execBlockedInstructionResume c gpio s) := by
  unfold execBlockedInstructionResume
  try dsimp only
  repeat' (first
    | with_reducible assumption
    | exact hM.trans rfl
    | with_reducible apply keepsO_next
    | with_reducible apply etTo_keeps
    | with_reducible apply attempt_keeps
    | with_reducible apply keepsO_fault
    | split
    | intro _
    | split)

theorem execIllegalOpcode_keeps {ms : Nat} {r0 : State} {c : Chan} {s : State} (hM : Sub 1289730 ms) (hK : Keeps ms r0 s) :
    KeepsO ms r0 (execIllegalOpcode c s) := by
  unfold execIllegalOpcode
  try dsimp only
  repeat' (first
    | with_reducible assumption
    | exact hM.trans rfl
    | with_reducible apply keepsO_next
    | with_reducible apply cueFault_keeps
    | with_reducible apply keepsO_fault
    | split
    | intro _
    | split)

theorem execCueUncorrectableEcc_keeps {ms : Nat} {r0 : State} {k : Fin 8} {s : State} (hM : Sub 2048 ms) (hK : Keeps ms r0 s) :
    KeepsO ms r0 (execCueUncorrectableEcc k s) := by
  unfold execCueUncorrectableEcc
  try dsimp only
  repeat' (first
    | with_reducible assumption
    | exact hM.trans rfl
    | with_reducible apply keepsO_next
    | with_reducible apply whenS_keeps
    | with_reducible apply modCue_keeps
    | exact fun (_ : Cue) g => g
    | with_reducible apply keepsO_fault
    | split
    | intro _
    | split)

theorem execNop_keeps {ms : Nat} {r0 : State} {c : Chan} {s : State} (hM : Sub 4189722 ms) (hK : Keeps ms r0 s) :
    KeepsO ms r0 (execNop c s) := by
  unfold execNop
  try dsimp only
  repeat' (first
    | with_reducible assumption
    | exact hM.trans rfl
    | with_reducible apply keepsO_next
    | with_reducible apply issueRow_keeps
    | with_reducible apply keepsO_fault
    | split
    | intro _
    | split)

theorem execJmp_keeps {ms : Nat} {r0 : State} {c : Chan} {s : State} (hM : Sub 4189722 ms) (hK : Keeps ms r0 s) :
    KeepsO ms r0 (execJmp c s) := by
  unfold execJmp
  try dsimp only
  repeat' (first
    | with_reducible assumption
    | exact hM.trans rfl
    | with_reducible apply keepsO_next
    | with_reducible apply issueRow_keeps
    | with_reducible apply keepsO_fault
    | split
    | intro _
    | split)

theorem execJcc_keeps {ms : Nat} {r0 : State} {c : Chan} {s : State} (hM : Sub 4189722 ms) (hK : Keeps ms r0 s) :
    KeepsO ms r0 (execJcc c s) := by
  unfold execJcc
  try dsimp only
  repeat' (first
    | with_reducible assumption
    | exact hM.trans rfl
    | with_reducible apply keepsO_next
    | with_reducible apply issueRow_keeps
    | with_reducible apply keepsO_fault
    | split
    | intro _
    | split)

theorem execCall_keeps {ms : Nat} {r0 : State} {c : Chan} {s : State} (hM : Sub 4189722 ms) (hK : Keeps ms r0 s) :
    KeepsO ms r0 (execCall c s) := by
  unfold execCall
  try dsimp only
  repeat' (first
    | with_reducible assumption
    | exact hM.trans rfl
    | with_reducible apply keepsO_next
    | with_reducible apply issueRow_keeps
    | with_reducible apply keepsO_fault
    | split
    | intro _
    | split)

theorem execRet_keeps {ms : Nat} {r0 : State} {c : Chan} {s : State} (hM : Sub 4189722 ms) (hK : Keeps ms r0 s) :
    KeepsO ms r0 (execRet c s) := by
  unfold execRet
  try dsimp only
  repeat' (first
    | with_reducible assumption
    | exact hM.trans rfl
    | with_reducible apply keepsO_next
    | with_reducible apply issueRow_keeps
    | with_reducible apply keepsO_fault
    | split
    | intro _
    | split)

theorem execLoop_keeps {ms : Nat} {r0 : State} {c : Chan} {s : State} (hM : Sub 4189722 ms) (hK : Keeps ms r0 s) :
    KeepsO ms r0 (execLoop c s) := by
  unfold execLoop
  try dsimp only
  repeat' (first
    | with_reducible assumption
    | exact hM.trans rfl
    | with_reducible apply keepsO_next
    | with_reducible apply issueRow_keeps
    | with_reducible apply keepsO_fault
    | split
    | intro _
    | split)

theorem execHalt_keeps {ms : Nat} {r0 : State} {c : Chan} {s : State} (hM : Sub 4189722 ms) (hK : Keeps ms r0 s) :
    KeepsO ms r0 (execHalt c s) := by
  unfold execHalt
  try dsimp only
  repeat' (first
    | with_reducible assumption
    | exact hM.trans rfl
    | with_reducible apply keepsO_next
    | with_reducible apply issueRow_keeps
    | with_reducible apply keepsO_fault
    | split
    | intro _
    | split)

theorem execLdi_keeps {ms : Nat} {r0 : State} {c : Chan} {s : State} (hM : Sub 4189722 ms) (hK : Keeps ms r0 s) :
    KeepsO ms r0 (execLdi c s) := by
  unfold execLdi
  try dsimp only
  repeat' (first
    | with_reducible assumption
    | exact hM.trans rfl
    | with_reducible apply keepsO_next
    | with_reducible apply issueRow_keeps
    | with_reducible apply keepsO_fault
    | split
    | intro _
    | split)

theorem execLdh_keeps {ms : Nat} {r0 : State} {c : Chan} {s : State} (hM : Sub 4189722 ms) (hK : Keeps ms r0 s) :
    KeepsO ms r0 (execLdh c s) := by
  unfold execLdh
  try dsimp only
  repeat' (first
    | with_reducible assumption
    | exact hM.trans rfl
    | with_reducible apply keepsO_next
    | with_reducible apply issueRow_keeps
    | with_reducible apply keepsO_fault
    | split
    | intro _
    | split)

theorem execMov_keeps {ms : Nat} {r0 : State} {c : Chan} {s : State} (hM : Sub 4189722 ms) (hK : Keeps ms r0 s) :
    KeepsO ms r0 (execMov c s) := by
  unfold execMov
  try dsimp only
  repeat' (first
    | with_reducible assumption
    | exact hM.trans rfl
    | with_reducible apply keepsO_next
    | with_reducible apply issueRow_keeps
    | with_reducible apply keepsO_fault
    | split
    | intro _
    | split)

theorem execMovFlagsRead_keeps {ms : Nat} {r0 : State} {c : Chan} {s : State} (hM : Sub 4189722 ms) (hK : Keeps ms r0 s) :
    KeepsO ms r0 (execMovFlagsRead c s) := by
  unfold execMovFlagsRead
  try dsimp only
  repeat' (first
    | with_reducible assumption
    | exact hM.trans rfl
    | with_reducible apply keepsO_next
    | with_reducible apply issueRow_keeps
    | with_reducible apply keepsO_fault
    | split
    | intro _
    | split)

theorem execMovFlagsWrite_keeps {ms : Nat} {r0 : State} {c : Chan} {s : State} (hM : Sub 4189722 ms) (hK : Keeps ms r0 s) :
    KeepsO ms r0 (execMovFlagsWrite c s) := by
  unfold execMovFlagsWrite
  try dsimp only
  repeat' (first
    | with_reducible assumption
    | exact hM.trans rfl
    | with_reducible apply keepsO_next
    | with_reducible apply issueRow_keeps
    | with_reducible apply keepsO_fault
    | split
    | intro _
    | split)

theorem execMovStatus_keeps {ms : Nat} {r0 : State} {c : Chan} {s : State} (hM : Sub 4189722 ms) (hK : Keeps ms r0 s) :
    KeepsO ms r0 (execMovStatus c s) := by
  unfold execMovStatus
  try dsimp only
  repeat' (first
    | with_reducible assumption
    | exact hM.trans rfl
    | with_reducible apply keepsO_next
    | with_reducible apply issueRow_keeps
    | with_reducible apply keepsO_fault
    | split
    | intro _
    | split)

theorem execAdd_keeps {ms : Nat} {r0 : State} {c : Chan} {s : State} (hM : Sub 4189722 ms) (hK : Keeps ms r0 s) :
    KeepsO ms r0 (execAdd c s) := by
  unfold execAdd
  try dsimp only
  repeat' (first
    | with_reducible assumption
    | exact hM.trans rfl
    | with_reducible apply keepsO_next
    | with_reducible apply issueRow_keeps
    | with_reducible apply keepsO_fault
    | split
    | intro _
    | split)

theorem execSub_keeps {ms : Nat} {r0 : State} {c : Chan} {s : State} (hM : Sub 4189722 ms) (hK : Keeps ms r0 s) :
    KeepsO ms r0 (execSub c s) := by
  unfold execSub
  try dsimp only
  repeat' (first
    | with_reducible assumption
    | exact hM.trans rfl
    | with_reducible apply keepsO_next
    | with_reducible apply issueRow_keeps
    | with_reducible apply keepsO_fault
    | split
    | intro _
    | split)

theorem execAnd_keeps {ms : Nat} {r0 : State} {c : Chan} {s : State} (hM : Sub 4189722 ms) (hK : Keeps ms r0 s) :
    KeepsO ms r0 (execAnd c s) := by
  unfold execAnd
  try dsimp only
  repeat' (first
    | with_reducible assumption
    | exact hM.trans rfl
    | with_reducible apply keepsO_next
    | with_reducible apply issueRow_keeps
    | with_reducible apply keepsO_fault
    | split
    | intro _
    | split)

theorem execOr_keeps {ms : Nat} {r0 : State} {c : Chan} {s : State} (hM : Sub 4189722 ms) (hK : Keeps ms r0 s) :
    KeepsO ms r0 (execOr c s) := by
  unfold execOr
  try dsimp only
  repeat' (first
    | with_reducible assumption
    | exact hM.trans rfl
    | with_reducible apply keepsO_next
    | with_reducible apply issueRow_keeps
    | with_reducible apply keepsO_fault
    | split
    | intro _
    | split)

theorem execXor_keeps {ms : Nat} {r0 : State} {c : Chan} {s : State} (hM : Sub 4189722 ms) (hK : Keeps ms r0 s) :
    KeepsO ms r0 (execXor c s) := by
  unfold execXor
  try dsimp only
  repeat' (first
    | with_reducible assumption
    | exact hM.trans rfl
    | with_reducible apply keepsO_next
    | with_reducible apply issueRow_keeps
    | with_reducible apply keepsO_fault
    | split
    | intro _
    | split)

theorem execShl_keeps {ms : Nat} {r0 : State} {c : Chan} {s : State} (hM : Sub 4189722 ms) (hK : Keeps ms r0 s) :
    KeepsO ms r0 (execShl c s) := by
  unfold execShl
  try dsimp only
  repeat' (first
    | with_reducible assumption
    | exact hM.trans rfl
    | with_reducible apply keepsO_next
    | with_reducible apply issueRow_keeps
    | with_reducible apply keepsO_fault
    | split
    | intro _
    | split)

theorem execShr_keeps {ms : Nat} {r0 : State} {c : Chan} {s : State} (hM : Sub 4189722 ms) (hK : Keeps ms r0 s) :
    KeepsO ms r0 (execShr c s) := by
  unfold execShr
  try dsimp only
  repeat' (first
    | with_reducible assumption
    | exact hM.trans rfl
    | with_reducible apply keepsO_next
    | with_reducible apply issueRow_keeps
    | with_reducible apply keepsO_fault
    | split
    | intro _
    | split)

theorem execCmp_keeps {ms : Nat} {r0 : State} {c : Chan} {s : State} (hM : Sub 4189722 ms) (hK : Keeps ms r0 s) :
    KeepsO ms r0 (execCmp c s) := by
  unfold execCmp
  try dsimp only
  repeat' (first
    | with_reducible assumption
    | exact hM.trans rfl
    | with_reducible apply keepsO_next
    | with_reducible apply issueRow_keeps
    | with_reducible apply keepsO_fault
    | split
    | intro _
    | split)

theorem execLdm_keeps {ms : Nat} {r0 : State} {c : Chan} {s : State} (hM : Sub 4189722 ms) (hK : Keeps ms r0 s) :
    KeepsO ms r0 (execLdm c s) := by
  unfold execLdm
  try dsimp only
  repeat' (first
    | with_reducible assumption
    | exact hM.trans rfl
    | with_reducible apply keepsO_next
    | with_reducible apply issueRow_keeps
    | with_reducible apply keepsO_fault
    | split
    | intro _
    | split)

theorem execStm_keeps {ms : Nat} {r0 : State} {c : Chan} {s : State} (hM : Sub 4189722 ms) (hK : Keeps ms r0 s) :
    KeepsO ms r0 (execStm c s) := by
  unfold execStm
  try dsimp only
  repeat' (first
    | with_reducible assumption
    | exact hM.trans rfl
    | with_reducible apply keepsO_next
    | with_reducible apply issueRow_keeps
    | with_reducible apply keepsO_fault
    | split
    | intro _
    | split)

theorem execWaitet_keeps {ms : Nat} {r0 : State} {c : Chan} {s : State} (hM : Sub 4189722 ms) (hK : Keeps ms r0 s) :
    KeepsO ms r0 (execWaitet c s) := by
  unfold execWaitet
  try dsimp only
  repeat' (first
    | with_reducible assumption
    | exact hM.trans rfl
    | with_reducible apply keepsO_next
    | with_reducible apply issueRow_keeps
    | with_reducible apply keepsO_fault
    | split
    | intro _
    | split)

theorem execWaitth_keeps {ms : Nat} {r0 : State} {c : Chan} {s : State} (hM : Sub 4189722 ms) (hK : Keeps ms r0 s) :
    KeepsO ms r0 (execWaitth c s) := by
  unfold execWaitth
  try dsimp only
  repeat' (first
    | with_reducible assumption
    | exact hM.trans rfl
    | with_reducible apply keepsO_next
    | with_reducible apply issueRow_keeps
    | with_reducible apply keepsO_fault
    | split
    | intro _
    | split)

theorem execWaitev_keeps {ms : Nat} {r0 : State} {c : Chan} {s : State} (hM : Sub 4189722 ms) (hK : Keeps ms r0 s) :
    KeepsO ms r0 (execWaitev c s) := by
  unfold execWaitev
  try dsimp only
  repeat' (first
    | with_reducible assumption
    | exact hM.trans rfl
    | with_reducible apply keepsO_next
    | with_reducible apply issueRow_keeps
    | with_reducible apply keepsO_fault
    | split
    | intro _
    | split)

theorem execAtPfx_keeps {ms : Nat} {r0 : State} {c : Chan} {s : State} (hM : Sub 4189722 ms) (hK : Keeps ms r0 s) :
    KeepsO ms r0 (execAtPfx c s) := by
  unfold execAtPfx
  try dsimp only
  repeat' (first
    | with_reducible assumption
    | exact hM.trans rfl
    | with_reducible apply keepsO_next
    | with_reducible apply issueRow_keeps
    | with_reducible apply keepsO_fault
    | split
    | intro _
    | split)

theorem execAtthPfx_keeps {ms : Nat} {r0 : State} {c : Chan} {s : State} (hM : Sub 4189722 ms) (hK : Keeps ms r0 s) :
    KeepsO ms r0 (execAtthPfx c s) := by
  unfold execAtthPfx
  try dsimp only
  repeat' (first
    | with_reducible assumption
    | exact hM.trans rfl
    | with_reducible apply keepsO_next
    | with_reducible apply issueRow_keeps
    | with_reducible apply keepsO_fault
    | split
    | intro _
    | split)

theorem execPush_keeps {ms : Nat} {r0 : State} {c : Chan} {s : State} (hM : Sub 4189722 ms) (hK : Keeps ms r0 s) :
    KeepsO ms r0 (execPush c s) := by
  unfold execPush
  try dsimp only
  repeat' (first
    | with_reducible assumption
    | exact hM.trans rfl
    | with_reducible apply keepsO_next
    | with_reducible apply issueRow_keeps
    | with_reducible apply keepsO_fault
    | split
    | intro _
    | split)

theorem execPop_keeps {ms : Nat} {r0 : State} {c : Chan} {s : State} (hM : Sub 4189722 ms) (hK : Keeps ms r0 s) :
    KeepsO ms r0 (execPop c s) := by
  unfold execPop
  try dsimp only
  repeat' (first
    | with_reducible assumption
    | exact hM.trans rfl
    | with_reducible apply keepsO_next
    | with_reducible apply issueRow_keeps
    | with_reducible apply keepsO_fault
    | split
    | intro _
    | split)

theorem execTake_keeps {ms : Nat} {r0 : State} {c : Chan} {s : State} (hM : Sub 4189722 ms) (hK : Keeps ms r0 s) :
    KeepsO ms r0 (execTake c s) := by
  unfold execTake
  try dsimp only
  repeat' (first
    | with_reducible assumption
    | exact hM.trans rfl
    | with_reducible apply keepsO_next
    | with_reducible apply issueRow_keeps
    | with_reducible apply keepsO_fault
    | split
    | intro _
    | split)

theorem execGive_keeps {ms : Nat} {r0 : State} {c : Chan} {s : State} (hM : Sub 4189722 ms) (hK : Keeps ms r0 s) :
    KeepsO ms r0 (execGive c s) := by
  unfold execGive
  try dsimp only
  repeat' (first
    | with_reducible assumption
    | exact hM.trans rfl
    | with_reducible apply keepsO_next
    | with_reducible apply issueRow_keeps
    | with_reducible apply keepsO_fault
    | split
    | intro _
    | split)

theorem execMove_keeps {ms : Nat} {r0 : State} {c : Chan} {s : State} (hM : Sub 4189722 ms) (hK : Keeps ms r0 s) :
    KeepsO ms r0 (execMove c s) := by
  unfold execMove
  try dsimp only
  repeat' (first
    | with_reducible assumption
    | exact hM.trans rfl
    | with_reducible apply keepsO_next
    | with_reducible apply issueRow_keeps
    | with_reducible apply keepsO_fault
    | split
    | intro _
    | split)

theorem execMovx_keeps {ms : Nat} {r0 : State} {c : Chan} {s : State} (hM : Sub 4189722 ms) (hK : Keeps ms r0 s) :
    KeepsO ms r0 (execMovx c s) := by
  unfold execMovx
  try dsimp only
  repeat' (first
    | with_reducible assumption
    | exact hM.trans rfl
    | with_reducible apply keepsO_next
    | with_reducible apply issueRow_keeps
    | with_reducible apply keepsO_fault
    | split
    | intro _
    | split)

theorem execSetp_keeps {ms : Nat} {r0 : State} {c : Chan} {s : State} (hM : Sub 4189722 ms) (hK : Keeps ms r0 s) :
    KeepsO ms r0 (execSetp c s) := by
  unfold execSetp
  try dsimp only
  repeat' (first
    | with_reducible assumption
    | exact hM.trans rfl
    | with_reducible apply keepsO_next
    | with_reducible apply issueRow_keeps
    | with_reducible apply keepsO_fault
    | split
    | intro _
    | split)

theorem execRamp_keeps {ms : Nat} {r0 : State} {c : Chan} {s : State} (hM : Sub 4189722 ms) (hK : Keeps ms r0 s) :
    KeepsO ms r0 (execRamp c s) := by
  unfold execRamp
  try dsimp only
  repeat' (first
    | with_reducible assumption
    | exact hM.trans rfl
    | with_reducible apply keepsO_next
    | with_reducible apply issueRow_keeps
    | with_reducible apply keepsO_fault
    | split
    | intro _
    | split)

theorem execLoopon_keeps {ms : Nat} {r0 : State} {c : Chan} {s : State} (hM : Sub 4189722 ms) (hK : Keeps ms r0 s) :
    KeepsO ms r0 (execLoopon c s) := by
  unfold execLoopon
  try dsimp only
  repeat' (first
    | with_reducible assumption
    | exact hM.trans rfl
    | with_reducible apply keepsO_next
    | with_reducible apply issueRow_keeps
    | with_reducible apply keepsO_fault
    | split
    | intro _
    | split)

theorem execLoopoff_keeps {ms : Nat} {r0 : State} {c : Chan} {s : State} (hM : Sub 4189722 ms) (hK : Keeps ms r0 s) :
    KeepsO ms r0 (execLoopoff c s) := by
  unfold execLoopoff
  try dsimp only
  repeat' (first
    | with_reducible assumption
    | exact hM.trans rfl
    | with_reducible apply keepsO_next
    | with_reducible apply issueRow_keeps
    | with_reducible apply keepsO_fault
    | split
    | intro _
    | split)

theorem execFire_keeps {ms : Nat} {r0 : State} {c : Chan} {s : State} (hM : Sub 4189722 ms) (hK : Keeps ms r0 s) :
    KeepsO ms r0 (execFire c s) := by
  unfold execFire
  try dsimp only
  repeat' (first
    | with_reducible assumption
    | exact hM.trans rfl
    | with_reducible apply keepsO_next
    | with_reducible apply issueRow_keeps
    | with_reducible apply keepsO_fault
    | split
    | intro _
    | split)

theorem execStrobe_keeps {ms : Nat} {r0 : State} {c : Chan} {s : State} (hM : Sub 4189722 ms) (hK : Keeps ms r0 s) :
    KeepsO ms r0 (execStrobe c s) := by
  unfold execStrobe
  try dsimp only
  repeat' (first
    | with_reducible assumption
    | exact hM.trans rfl
    | with_reducible apply keepsO_next
    | with_reducible apply issueRow_keeps
    | with_reducible apply keepsO_fault
    | split
    | intro _
    | split)

theorem execScanl_keeps {ms : Nat} {r0 : State} {c : Chan} {s : State} (hM : Sub 4189722 ms) (hK : Keeps ms r0 s) :
    KeepsO ms r0 (execScanl c s) := by
  unfold execScanl
  try dsimp only
  repeat' (first
    | with_reducible assumption
    | exact hM.trans rfl
    | with_reducible apply keepsO_next
    | with_reducible apply issueRow_keeps
    | with_reducible apply keepsO_fault
    | split
    | intro _
    | split)

theorem execSig_keeps {ms : Nat} {r0 : State} {c : Chan} {s : State} (hM : Sub 4189722 ms) (hK : Keeps ms r0 s) :
    KeepsO ms r0 (execSig c s) := by
  unfold execSig
  try dsimp only
  repeat' (first
    | with_reducible assumption
    | exact hM.trans rfl
    | with_reducible apply keepsO_next
    | with_reducible apply issueRow_keeps
    | with_reducible apply keepsO_fault
    | split
    | intro _
    | split)

theorem execFence_keeps {ms : Nat} {r0 : State} {c : Chan} {s : State} (hM : Sub 4189722 ms) (hK : Keeps ms r0 s) :
    KeepsO ms r0 (execFence c s) := by
  unfold execFence
  try dsimp only
  repeat' (first
    | with_reducible assumption
    | exact hM.trans rfl
    | with_reducible apply keepsO_next
    | with_reducible apply issueRow_keeps
    | with_reducible apply keepsO_fault
    | split
    | intro _
    | split)

theorem execCommitAdmit_keeps {ms : Nat} {r0 : State} {c : Chan} {gpio : Word} {s : State} (hM : Sub 4189722 ms) (hK : Keeps ms r0 s) :
    KeepsO ms r0 (execCommitAdmit c gpio s) := by
  unfold execCommitAdmit
  try dsimp only
  repeat' (first
    | with_reducible assumption
    | exact hM.trans rfl
    | with_reducible apply keepsO_next
    | with_reducible apply issueRow_keeps
    | with_reducible apply keepsO_fault
    | split
    | intro _
    | split)

theorem execCommitDone_keeps {ms : Nat} {r0 : State} {c : Chan} {s : State} (hM : Sub 4189722 ms) (hK : Keeps ms r0 s) :
    KeepsO ms r0 (execCommitDone c s) := by
  unfold execCommitDone
  try dsimp only
  repeat' (first
    | with_reducible assumption
    | exact hM.trans rfl
    | with_reducible apply keepsO_next
    | with_reducible apply issueRow_keeps
    | with_reducible apply keepsO_fault
    | split
    | intro _
    | split)

theorem execAbort_keeps {ms : Nat} {r0 : State} {c : Chan} {s : State} (hM : Sub 4189722 ms) (hK : Keeps ms r0 s) :
    KeepsO ms r0 (execAbort c s) := by
  unfold execAbort
  try dsimp only
  repeat' (first
    | with_reducible assumption
    | exact hM.trans rfl
    | with_reducible apply keepsO_next
    | with_reducible apply issueRow_keeps
    | with_reducible apply keepsO_fault
    | split
    | intro _
    | split)

theorem execLog_keeps {ms : Nat} {r0 : State} {c : Chan} {s : State} (hM : Sub 4189722 ms) (hK : Keeps ms r0 s) :
    KeepsO ms r0 (execLog c s) := by
  unfold execLog
  try dsimp only
  repeat' (first
    | with_reducible assumption
    | exact hM.trans rfl
    | with_reducible apply keepsO_next
    | with_reducible apply issueRow_keeps
    | with_reducible apply keepsO_fault
    | split
    | intro _
    | split)

theorem execTrap_keeps {ms : Nat} {r0 : State} {c : Chan} {s : State} (hM : Sub 4189722 ms) (hK : Keeps ms r0 s) :
    KeepsO ms r0 (execTrap c s) := by
  unfold execTrap
  try dsimp only
  repeat' (first
    | with_reducible assumption
    | exact hM.trans rfl
    | with_reducible apply keepsO_next
    | with_reducible apply issueRow_keeps
    | with_reducible apply keepsO_fault
    | split
    | intro _
    | split)

end Sys2Proof.Machine
end

