-- ==== Sys2Proof/Laws/KeepsLifecycle.lean ====
section
/-!
SUPPORT. Machine/Lifecycle.lean: each operation keeps what no command takes back (Laws/Keeps.lean).
-/

namespace Sys2Proof.Machine

set_option linter.all false

theorem complCmd_keeps {ms : Nat} {r0 : State} {q : CmdReq} {status : Nat} {a : Nat} {b : Nat} {s : State} (hM : Sub 1052162 ms) (hK : Keeps ms r0 s) :
    Keeps ms r0 (complCmd q status a b s) := by
  unfold complCmd
  try dsimp only
  repeat' (first
    | with_reducible assumption
    | exact hM.trans rfl
    | with_reducible apply post_keeps
    | intro _
    | split)

theorem disarmRes_keeps {ms : Nat} {r0 : State} {id : Nat} {s : State} (hM : Sub 100866 ms) (hK : Keeps ms r0 s) :
    Keeps ms r0 (disarmRes id s) := by
  unfold disarmRes
  try dsimp only
  repeat' (first
    | with_reducible assumption
    | exact hM.trans rfl
    | with_reducible apply id_keeps
    | with_reducible apply stopMotor_keeps
    | with_reducible apply loopOffOp_keeps
    | with_reducible apply modCue_keeps
    | exact fun (_ : Cue) g => g
    | exact fun (_ : Cue) g => chWf_tmod rfl rfl rfl (fun x hx => by first | exact hx | (split <;> exact hx) | (dsimp only; split <;> exact hx)) g
    | intro _
    | split)

theorem ungrant_keeps {ms : Nat} {r0 : State} {i : Fin 256} {s : State} (hM : Sub 2048 ms) (hK : Keeps ms r0 s) :
    Keeps ms r0 (ungrant i s) := by
  unfold ungrant
  try dsimp only
  repeat' (first
    | with_reducible assumption
    | exact hM.trans rfl
    | with_reducible apply modCue_keeps
    | exact fun (_ : Cue) g => g
    | exact fun (_ : Cue) g => chWf_tmod rfl rfl rfl (fun x hx => by first | exact hx | (split <;> exact hx) | (dsimp only; split <;> exact hx)) g
    | intro _
    | split)

theorem grantTo_keeps {ms : Nat} {r0 : State} {c : Chan} {i : Fin 256} {s : State} (hM : Sub 2048 ms) (hK : Keeps ms r0 s) :
    Keeps ms r0 (grantTo c i s) := by
  unfold grantTo
  try dsimp only
  repeat' (first
    | with_reducible assumption
    | exact hM.trans rfl
    | with_reducible apply modCue_keeps
    | exact fun (_ : Cue) g => g
    | exact fun (_ : Cue) g => chWf_tmod rfl rfl rfl (fun x hx => by first | exact hx | (split <;> exact hx) | (dsimp only; split <;> exact hx)) g
    | intro _
    | split)

theorem returnFor_keeps {ms : Nat} {r0 : State} {c : Chan} {gone : List (Fin 256)} {s : State} (hM : Sub 2560 ms) (hK : Keeps ms r0 s) :
    Keeps ms r0 (returnFor c gone s) := by
  unfold returnFor
  try dsimp only
  repeat' (first
    | with_reducible assumption
    | exact hM.trans rfl
    | with_reducible apply modCh_keeps
    | with_reducible apply forEach_keeps
    | with_reducible apply retTallies_keeps
    | with_reducible apply id_keeps
    | exact fun (_ : Channel) g => g
    | intro _
    | split)

theorem busWrite_keeps {ms : Nat} {r0 : State} {addr : Nat} {data : List Byte} {s : State} (hM : Sub 1573376 ms) (hK : Keeps ms r0 s) :
    Keeps ms r0 (busWrite addr data s) := by
  unfold busWrite
  try dsimp only
  repeat' (first
    | with_reducible assumption
    | exact hM.trans rfl
    | with_reducible apply emit_keeps
    | with_reducible apply sendSkid_keeps
    | intro _
    | split)

theorem busRead_keeps {ms : Nat} {r0 : State} {addr : Nat} {n : Nat} {s : State} (hM : Sub 1573376 ms) (hK : Keeps ms r0 s) :
    Keeps ms r0 (busRead addr n s) := by
  unfold busRead
  try dsimp only
  repeat' (first
    | with_reducible assumption
    | exact hM.trans rfl
    | with_reducible apply emit_keeps
    | with_reducible apply sendSkid_keeps
    | intro _
    | split)

theorem dropQueues_keeps {ms : Nat} {r0 : State} {c : Chan} {s : State} (hM : Sub 1575424 ms) (hK : Keeps ms r0 s) :
    Keeps ms r0 (dropQueues c s) := by
  unfold dropQueues
  try dsimp only
  repeat' (first
    | with_reducible assumption
    | exact hM.trans rfl
    | with_reducible apply retTallies_keeps
    | with_reducible apply forEach_keeps
    | with_reducible apply emit_keeps
    | with_reducible apply modSkid_keeps
    | with_reducible apply modCh_keeps
    | exact fun (_ : Channel) g => g
    | intro _
    | split)

theorem disarmSteps_keeps {ms : Nat} {r0 : State} {c : Chan} {s : State} (hM : Sub 1674754 ms) (hK : Keeps ms r0 s) :
    Keeps ms r0 (disarmSteps c s) := by
  unfold disarmSteps
  try dsimp only
  repeat' (first
    | with_reducible assumption
    | exact hM.trans rfl
    | with_reducible apply modCh_keeps
    | with_reducible apply returnHeld_keeps
    | with_reducible apply dropQueues_keeps
    | with_reducible apply dropActs_keeps
    | with_reducible apply forEach_keeps
    | with_reducible apply disarmRes_keeps
    | with_reducible apply ungrant_keeps
    | exact fun (_ : Channel) g => g
    | exact fun (_ : Channel) g => by simpa using g
    | intro _
    | split)

theorem disarmOp_keeps {ms : Nat} {r0 : State} {q : CmdReq} {c : Chan} {s : State} (hM : Sub 1674754 ms) (hK : Keeps ms r0 s) :
    Keeps ms r0 (disarmOp q c s) := by
  unfold disarmOp
  try dsimp only
  repeat' (first
    | with_reducible assumption
    | exact hM.trans rfl
    | with_reducible apply disarmSteps_keeps
    | with_reducible apply busWrite_keeps
    | with_reducible apply complCmd_keeps
    | intro _
    | split)

theorem startLife_keeps {ms : Nat} {r0 : State} {q : CmdReq} {s : State} (hM : Sub 1674754 ms) (hK : Keeps ms r0 s) :
    Keeps ms r0 (startLife q s) := by
  unfold startLife
  try dsimp only
  repeat' (first
    | with_reducible assumption
    | exact hM.trans rfl
    | with_reducible apply complCmd_keeps
    | with_reducible apply busRead_keeps
    | with_reducible apply modCue_keeps
    | with_reducible apply modCh_keeps
    | with_reducible apply disarmOp_keeps
    | exact fun (_ : Channel) g => g
    | exact fun (_ : Cue) g => g
    | intro _
    | split)

theorem pumpLife_keeps {ms : Nat} {r0 : State} (hM : Sub 1674754 ms) :
    ∀ {n : Nat} {s : State}, Keeps ms r0 s → Keeps ms r0 (pumpLife n s)
  | 0, _, h => h
  | n + 1, s, h => by
    unfold pumpLife
    split
    · exact h
    · split
      · exact h
      · exact pumpLife_keeps hM (n := n) (startLife_keeps (hM.trans rfl) (modHost_keeps (hM.trans rfl) h))

theorem recoverOne_keeps {ms : Nat} {r0 : State} {v : Recov} {c : Chan} {s : State} (hM : Sub 3771906 ms) (hK : Keeps ms r0 s) :
    Keeps ms r0 (recoverOne v c s) := by
  unfold recoverOne
  try dsimp only
  repeat' (first
    | with_reducible assumption
    | exact hM.trans rfl
    | with_reducible apply modHost_keeps
    | with_reducible apply disarmOp_keeps
    | with_reducible apply useFree_keeps
    | intro _
    | split)

theorem recoverDisarm_keeps {ms : Nat} {r0 : State} {s : State} (hM : Sub 3771906 ms) (hK : Keeps ms r0 s) :
    Keeps ms r0 (recoverDisarm s) := by
  unfold recoverDisarm
  try dsimp only
  repeat' (first
    | with_reducible assumption
    | exact hM.trans rfl
    | with_reducible apply forEach_keeps
    | with_reducible apply recoverOne_keeps
    | intro _
    | split)

theorem lifeGo_keeps {ms : Nat} {r0 : State} {s : State} (hM : Sub 3771906 ms) (hK : Keeps ms r0 s) :
    Keeps ms r0 (lifeGo s) := by
  unfold lifeGo
  try dsimp only
  repeat' (first
    | with_reducible assumption
    | exact hM.trans rfl
    | with_reducible apply recoverDisarm_keeps
    | with_reducible apply pumpLife_keeps
    | intro _
    | split)

theorem endLife_keeps {ms : Nat} {r0 : State} {l : Life} {status : Nat} {a : Nat} {b : Nat} {s : State} (hM : Sub 3771906 ms) (hK : Keeps ms r0 s) :
    Keeps ms r0 (endLife l status a b s) := by
  unfold endLife
  try dsimp only
  repeat' (first
    | with_reducible assumption
    | exact hM.trans rfl
    | with_reducible apply modCue_keeps
    | with_reducible apply modCh_keeps
    | with_reducible apply lifeGo_keeps
    | with_reducible apply complCmd_keeps
    | exact fun (_ : Channel) g => g
    | exact fun (_ : Cue) g => g
    | intro _
    | split)

theorem failLife_keeps {ms : Nat} {r0 : State} {l : Life} {status : Nat} {a : Nat} {b : Nat} {s : State} (hM : Sub 3771906 ms) (hK : Keeps ms r0 s) :
    Keeps ms r0 (failLife l status a b s) := by
  unfold failLife
  try dsimp only
  repeat' (first
    | with_reducible assumption
    | exact hM.trans rfl
    | with_reducible apply endLife_keeps
    | with_reducible apply forEach_keeps
    | with_reducible apply ungrant_keeps
    | intro _
    | split)

theorem takeEntryCopy_keeps {ms : Nat} {r0 : State} {l : Life} {e : Entry} {s : State} (hM : Sub 3771906 ms) (hK : Keeps ms r0 s) :
    Keeps ms r0 (takeEntryCopy l e s) := by
  unfold takeEntryCopy
  try dsimp only
  repeat' (first
    | with_reducible assumption
    | exact hM.trans rfl
    | with_reducible apply failLife_keeps
    | with_reducible apply forEach_keeps
    | with_reducible apply grantTo_keeps
    | with_reducible apply busRead_keeps
    | with_reducible apply modCue_keeps
    | exact fun (_ : Cue) g => g
    | intro _
    | split)

theorem execArmEntryArrive_keeps {ms : Nat} {r0 : State} {data : Option (List Byte)} {s : State} (hM : Sub 3771906 ms) (hK : Keeps ms r0 s) :
    KeepsO ms r0 (execArmEntryArrive data s) := by
  unfold execArmEntryArrive
  try dsimp only
  repeat' (first
    | with_reducible assumption
    | exact hM.trans rfl
    | with_reducible apply keepsO_next
    | with_reducible apply failLife_keeps
    | with_reducible apply aerLog_keeps
    | with_reducible apply takeEntryCopy_keeps
    | with_reducible apply keepsO_fault
    | split
    | intro _
    | split)

theorem armDone_keeps {ms : Nat} {r0 : State} {l : Life} {e : Entry} {prog : List Word} {p : Nat} {n : Nat} {s : State} (hM : Sub 3771906 ms) (hK : Keeps ms r0 s) :
    Keeps ms r0 (armDone l e prog p n s) := by
  unfold armDone
  try dsimp only
  repeat' (first
    | with_reducible assumption
    | exact hM.trans rfl
    | with_reducible apply endLife_keeps
    | with_reducible apply modCh_keeps
    | with_reducible apply dropQueues_keeps
    | exact fun (_ : Channel) g => chOk_mem rfl g
    | exact fun (_ : Channel) g => g
    | intro _
    | split)

theorem execArmProgramArrive_keeps {ms : Nat} {r0 : State} {data : Option (List Byte)} {s : State} (hM : Sub 3771906 ms) (hK : Keeps ms r0 s) :
    KeepsO ms r0 (execArmProgramArrive data s) := by
  unfold execArmProgramArrive
  try dsimp only
  repeat' (first
    | with_reducible assumption
    | exact hM.trans rfl
    | with_reducible apply keepsO_next
    | with_reducible apply failLife_keeps
    | with_reducible apply aerLog_keeps
    | with_reducible apply modCue_keeps
    | with_reducible apply armDone_keeps
    | exact fun (_ : Cue) g => g
    | with_reducible apply keepsO_fault
    | split
    | intro _
    | split)

theorem swapOp_keeps {ms : Nat} {r0 : State} {l : Life} {e : Entry} {prog : List Word} {p : Nat} {n : Nat} {s : State} (hM : Sub 3771906 ms) (hK : Keeps ms r0 s) :
    Keeps ms r0 (swapOp l e prog p n s) := by
  unfold swapOp
  try dsimp only
  repeat' (first
    | with_reducible assumption
    | exact hM.trans rfl
    | with_reducible apply returnFor_keeps
    | with_reducible apply returnTaking_keeps
    | with_reducible apply forEach_keeps
    | with_reducible apply ungrant_keeps
    | with_reducible apply disarmRes_keeps
    | with_reducible apply grantTo_keeps
    | with_reducible apply endLife_keeps
    | with_reducible apply modCh_keeps
    | exact fun (_ : Channel) g => by simpa using g
    | exact fun (_ : Channel) g => g
    | intro _
    | split)

theorem execRefreshSwap_keeps {ms : Nat} {r0 : State} {s : State} (hM : Sub 3771906 ms) (hK : Keeps ms r0 s) :
    KeepsO ms r0 (execRefreshSwap s) := by
  unfold execRefreshSwap
  try dsimp only
  repeat' (first
    | with_reducible assumption
    | exact hM.trans rfl
    | with_reducible apply keepsO_next
    | with_reducible apply endLife_keeps
    | with_reducible apply swapOp_keeps
    | with_reducible apply keepsO_fault
    | split
    | intro _
    | split)

end Sys2Proof.Machine
end

