-- ==== Sys2Proof/Laws/KeepsRings.lean ====
section
/-!
SUPPORT. Machine/Rings.lean: each operation keeps what no command takes back (Laws/Keeps.lean).
-/

namespace Sys2Proof.Machine

set_option linter.all false

theorem sendMsix_keeps {ms : Nat} {r0 : State} {v : Fin 32} {s : State} (hM : Sub 1049600 ms) (hK : Keeps ms r0 s) :
    Keeps ms r0 (sendMsix v s) := by
  unfold sendMsix
  try dsimp only
  repeat' (first
    | with_reducible assumption
    | exact hM.trans rfl
    | with_reducible apply emit_keeps
    | with_reducible apply modRegs_keeps
    | intro _
    | split)

theorem signalKind_keeps {ms : Nat} {r0 : State} {kind : Nat} {s : State} (hM : Sub 1049600 ms) (hK : Keeps ms r0 s) :
    Keeps ms r0 (signalKind kind s) := by
  unfold signalKind
  try dsimp only
  repeat' (first
    | with_reducible assumption
    | exact hM.trans rfl
    | with_reducible apply sendMsix_keeps
    | with_reducible apply modRegs_keeps
    | intro _
    | split)

theorem execMsixCoalTimeout_keeps {ms : Nat} {r0 : State} {vec : Fin 32} {s : State} (hM : Sub 1051649 ms) (hK : Keeps ms r0 s) :
    KeepsO ms r0 (execMsixCoalTimeout vec s) := by
  unfold execMsixCoalTimeout
  try dsimp only
  repeat' (first
    | with_reducible assumption
    | exact hM.trans rfl
    | with_reducible apply keepsO_next
    | with_reducible apply sendMsix_keeps
    | with_reducible apply timeTo_keeps
    | with_reducible apply keepsO_fault
    | split
    | intro _
    | split)

theorem modRing_keeps {ms : Nat} {r0 : State} {r : Ring} {f : RingS → RingS} {s : State} (hM : Sub 1024 ms) (hK : Keeps ms r0 s) :
    Keeps ms r0 (modRing r f s) := by
  unfold modRing
  try dsimp only
  repeat' (first
    | with_reducible assumption
    | exact hM.trans rfl
    | with_reducible apply modRegs_keeps
    | intro _
    | split)

theorem ringTally_keeps {ms : Nat} {r0 : State} {r : Ring} {s : State} (hM : Sub 512 ms) (hK : Keeps ms r0 s) :
    Keeps ms r0 (ringTally r s) := by
  unfold ringTally
  try dsimp only
  repeat' (first
    | with_reducible assumption
    | exact hM.trans rfl
    | with_reducible apply noteMin_keeps
    | with_reducible apply modFl_keeps
    | intro _
    | split)

theorem ringError_keeps {ms : Nat} {r0 : State} {r : Ring} {err : Byte} {s : State} (hM : Sub 1050112 ms) (hK : Keeps ms r0 s) :
    Keeps ms r0 (ringError r err s) := by
  unfold ringError
  try dsimp only
  repeat' (first
    | with_reducible assumption
    | exact hM.trans rfl
    | with_reducible apply sendMsix_keeps
    | with_reducible apply ringTally_keeps
    | with_reducible apply modRing_keeps
    | intro _
    | split)

theorem ringTailWrite_keeps {ms : Nat} {r0 : State} {r : Ring} {v : Word} {s : State} (hM : Sub 1050112 ms) (hK : Keeps ms r0 s) :
    Keeps ms r0 (ringTailWrite r v s) := by
  unfold ringTailWrite
  try dsimp only
  repeat' (first
    | with_reducible assumption
    | exact hM.trans rfl
    | with_reducible apply modRing_keeps
    | with_reducible apply ringError_keeps
    | with_reducible apply ringTally_keeps
    | intro _
    | split)

theorem ringCfgWrite_keeps {ms : Nat} {r0 : State} {r : Ring} {v : Word} {s : State} (hM : Sub 1536 ms) (hK : Keeps ms r0 s) :
    Keeps ms r0 (ringCfgWrite r v s) := by
  unfold ringCfgWrite
  try dsimp only
  repeat' (first
    | with_reducible assumption
    | exact hM.trans rfl
    | with_reducible apply ringTally_keeps
    | with_reducible apply modRing_keeps
    | with_reducible apply reDepth_keeps
    | intro _
    | split)

theorem execCqEnable_keeps {ms : Nat} {r0 : State} {r : Ring} {v : Word} {s : State} (hM : Sub 1536 ms) (hK : Keeps ms r0 s) :
    KeepsO ms r0 (execCqEnable r v s) := by
  unfold execCqEnable
  try dsimp only
  repeat' (first
    | with_reducible assumption
    | exact hM.trans rfl
    | with_reducible apply keepsO_next
    | with_reducible apply whenS_keeps
    | with_reducible apply ringCfgWrite_keeps
    | with_reducible apply keepsO_fault
    | split
    | intro _
    | split)

theorem ringAdvance_keeps {ms : Nat} {r0 : State} {r : Ring} {s : State} (hM : Sub 1536 ms) (hK : Keeps ms r0 s) :
    Keeps ms r0 (ringAdvance r s) := by
  unfold ringAdvance
  try dsimp only
  repeat' (first
    | with_reducible assumption
    | exact hM.trans rfl
    | with_reducible apply retTally_keeps
    | with_reducible apply modRing_keeps
    | intro _
    | split)

theorem execCqReadError_keeps {ms : Nat} {r0 : State} {r : Ring} {s : State} (hM : Sub 1050112 ms) (hK : Keeps ms r0 s) :
    KeepsO ms r0 (execCqReadError r s) := by
  unfold execCqReadError
  try dsimp only
  repeat' (first
    | with_reducible assumption
    | exact hM.trans rfl
    | with_reducible apply keepsO_next
    | with_reducible apply whenS_keeps
    | with_reducible apply ringError_keeps
    | with_reducible apply aerLog_keeps
    | with_reducible apply modHost_keeps
    | with_reducible apply keepsO_fault
    | split
    | intro _
    | split)

theorem complIfAsked_keeps {ms : Nat} {r0 : State} {e : List Byte} {q : CmdReq} {s : State} (hM : Sub 1052162 ms) (hK : Keeps ms r0 s) :
    Keeps ms r0 (complIfAsked e q s) := by
  unfold complIfAsked
  try dsimp only
  repeat' (first
    | with_reducible assumption
    | exact hM.trans rfl
    | with_reducible apply complCmd_keeps
    | intro _
    | split)

theorem mailOp_keeps {ms : Nat} {r0 : State} {e : List Byte} {q : CmdReq} {s t : State} (hM : Sub 1052162 ms) (hK : Keeps ms r0 s)
    (ht : mailOp e q s = some t) : Keeps ms r0 t := by
  unfold mailOp at ht
  dsimp only at ht
  split at ht
  · cases ht; exact complCmd_keeps (hM.trans rfl) hK
  · split at ht
    · cases ht
      exact complIfAsked_keeps (hM.trans rfl) (takeTally_keeps (hM.trans rfl) (modCh_keeps (hM.trans rfl) hK fun (_ : Channel) g => g))
    · cases ht

theorem pageAbortOp_keeps {ms : Nat} {r0 : State} {q : CmdReq} {s : State} (hM : Sub 1289730 ms) (hK : Keeps ms r0 s) :
    Keeps ms r0 (pageAbortOp q s) := by
  unfold pageAbortOp
  try dsimp only
  repeat' (first
    | with_reducible assumption
    | exact hM.trans rfl
    | with_reducible apply complCmd_keeps
    | with_reducible apply rejectWithPartner_keeps
    | with_reducible apply abortPages_keeps
    | with_reducible apply formMotion_keeps
    | with_reducible apply modPage_keeps
    | intro _
    | split)

theorem runCmd_keeps {ms : Nat} {r0 : State} {e : List Byte} {w : Bool} {s t : State} (hM : Sub 3911170 ms) (hK : Keeps ms r0 s)
    (ht : runCmd e w s = some t) : Keeps ms r0 t := by
  unfold runCmd at ht
  dsimp only at ht
  split at ht
  · cases ht; exact complCmd_keeps (hM.trans rfl) hK
  · split at ht
    · cases ht; exact complIfAsked_keeps (hM.trans rfl) hK
    · exact mailOp_keeps (hM.trans rfl) hK ht
    · cases ht; exact busRead_keeps (hM.trans rfl) (modHost_keeps (hM.trans rfl) hK)
    · cases ht; exact pageAbortOp_keeps (hM.trans rfl) hK
    · cases ht; exact lifeGo_keeps (hM.trans rfl) (modHost_keeps (hM.trans rfl) hK)

theorem forwardCmd_keeps {ms : Nat} {r0 : State} {e : List Byte} {s t : State} (hM : Sub 1573376 ms) (hK : Keeps ms r0 s)
    (ht : forwardCmd e s = some t) : Keeps ms r0 t := by
  unfold forwardCmd at ht
  split at ht
  · cases ht; exact skidPushed_keeps (hM.trans rfl) (takeTally_keeps (hM.trans rfl) hK)
  · cases ht

theorem ringRow_keeps {ms : Nat} {r0 : State} {p : Nat → Bool} {r : Ring} {e : List Byte} {wbOk : Bool} {s : State} (hM : Sub 3911170 ms)
    (hK : Keeps ms r0 s) : Keeps ms r0 (ringRow p r e wbOk s) := by
  unfold ringRow
  dsimp only
  split
  · split
    · rename_i ht
      split at ht
      · exact forwardCmd_keeps (hM.trans rfl) (ringAdvance_keeps (hM.trans rfl) (modHost_keeps (hM.trans rfl) hK)) ht
      · exact runCmd_keeps (hM.trans rfl) (ringAdvance_keeps (hM.trans rfl) (modHost_keeps (hM.trans rfl) hK)) ht
    · exact modRing_keeps (hM.trans rfl) (modHost_keeps (hM.trans rfl) hK)
  · exact hK

theorem execCmdNop_keeps {ms : Nat} {r0 : State} {r : Ring} {e : List Byte} {s : State} (hM : Sub 3911170 ms) (hK : Keeps ms r0 s) :
    KeepsO ms r0 (execCmdNop r e s) := by
  unfold execCmdNop
  try dsimp only
  repeat' (first
    | with_reducible assumption
    | exact hM.trans rfl
    | with_reducible apply keepsO_next
    | with_reducible apply ringRow_keeps
    | with_reducible apply keepsO_fault
    | split
    | intro _
    | split)

theorem execCmdArm_keeps {ms : Nat} {r0 : State} {r : Ring} {e : List Byte} {s : State} (hM : Sub 3911170 ms) (hK : Keeps ms r0 s) :
    KeepsO ms r0 (execCmdArm r e s) := by
  unfold execCmdArm
  try dsimp only
  repeat' (first
    | with_reducible assumption
    | exact hM.trans rfl
    | with_reducible apply keepsO_next
    | with_reducible apply ringRow_keeps
    | with_reducible apply keepsO_fault
    | split
    | intro _
    | split)

theorem execCmdDisarm_keeps {ms : Nat} {r0 : State} {r : Ring} {e : List Byte} {wbOk : Bool} {s : State} (hM : Sub 3911170 ms) (hK : Keeps ms r0 s) :
    KeepsO ms r0 (execCmdDisarm r e wbOk s) := by
  unfold execCmdDisarm
  try dsimp only
  repeat' (first
    | with_reducible assumption
    | exact hM.trans rfl
    | with_reducible apply keepsO_next
    | with_reducible apply ringRow_keeps
    | with_reducible apply keepsO_fault
    | split
    | intro _
    | split)

theorem execCmdRefresh_keeps {ms : Nat} {r0 : State} {r : Ring} {e : List Byte} {s : State} (hM : Sub 3911170 ms) (hK : Keeps ms r0 s) :
    KeepsO ms r0 (execCmdRefresh r e s) := by
  unfold execCmdRefresh
  try dsimp only
  repeat' (first
    | with_reducible assumption
    | exact hM.trans rfl
    | with_reducible apply keepsO_next
    | with_reducible apply ringRow_keeps
    | with_reducible apply keepsO_fault
    | split
    | intro _
    | split)

theorem execCmdMail_keeps {ms : Nat} {r0 : State} {r : Ring} {e : List Byte} {s : State} (hM : Sub 3911170 ms) (hK : Keeps ms r0 s) :
    KeepsO ms r0 (execCmdMail r e s) := by
  unfold execCmdMail
  try dsimp only
  repeat' (first
    | with_reducible assumption
    | exact hM.trans rfl
    | with_reducible apply keepsO_next
    | with_reducible apply ringRow_keeps
    | with_reducible apply keepsO_fault
    | split
    | intro _
    | split)

theorem execCmdPlan_keeps {ms : Nat} {r0 : State} {r : Ring} {e : List Byte} {s : State} (hM : Sub 3911170 ms) (hK : Keeps ms r0 s) :
    KeepsO ms r0 (execCmdPlan r e s) := by
  unfold execCmdPlan
  try dsimp only
  repeat' (first
    | with_reducible assumption
    | exact hM.trans rfl
    | with_reducible apply keepsO_next
    | with_reducible apply ringRow_keeps
    | with_reducible apply keepsO_fault
    | split
    | intro _
    | split)

theorem execCmdPageAbort_keeps {ms : Nat} {r0 : State} {r : Ring} {e : List Byte} {s : State} (hM : Sub 3911170 ms) (hK : Keeps ms r0 s) :
    KeepsO ms r0 (execCmdPageAbort r e s) := by
  unfold execCmdPageAbort
  try dsimp only
  repeat' (first
    | with_reducible assumption
    | exact hM.trans rfl
    | with_reducible apply keepsO_next
    | with_reducible apply ringRow_keeps
    | with_reducible apply keepsO_fault
    | split
    | intro _
    | split)

theorem execCmdBad_keeps {ms : Nat} {r0 : State} {r : Ring} {e : List Byte} {s : State} (hM : Sub 3911170 ms) (hK : Keeps ms r0 s) :
    KeepsO ms r0 (execCmdBad r e s) := by
  unfold execCmdBad
  try dsimp only
  repeat' (first
    | with_reducible assumption
    | exact hM.trans rfl
    | with_reducible apply keepsO_next
    | with_reducible apply ringRow_keeps
    | with_reducible apply keepsO_fault
    | split
    | intro _
    | split)

theorem planArrived_keeps {ms : Nat} {r0 : State} {q : CmdReq} {d : Option (List Byte)} {s : State} (hM : Sub 3157506 ms) (hK : Keeps ms r0 s) :
    Keeps ms r0 (planArrived q d s) := by
  unfold planArrived
  try dsimp only
  repeat' (first
    | with_reducible assumption
    | exact hM.trans rfl
    | with_reducible apply complCmd_keeps
    | with_reducible apply useFree_keeps
    | with_reducible apply acceptPlan_keeps
    | with_reducible apply aerLog_keeps
    | intro _
    | split)

theorem execPlanArrive_keeps {ms : Nat} {r0 : State} {data : Option (List Byte)} {s : State} (hM : Sub 3157506 ms) (hK : Keeps ms r0 s) :
    KeepsO ms r0 (execPlanArrive data s) := by
  unfold execPlanArrive
  try dsimp only
  repeat' (first
    | with_reducible assumption
    | exact hM.trans rfl
    | with_reducible apply keepsO_next
    | with_reducible apply planArrived_keeps
    | with_reducible apply modHost_keeps
    | with_reducible apply keepsO_fault
    | split
    | intro _
    | split)

theorem freeStg_keeps {ms : Nat} {r0 : State} {x : StgEntry} {s : State} (hM : Sub 1052160 ms) (hK : Keeps ms r0 s) :
    Keeps ms r0 (freeStg x s) := by
  unfold freeStg
  try dsimp only
  repeat' (first
    | with_reducible assumption
    | exact hM.trans rfl
    | with_reducible apply retTally_keeps
    | with_reducible apply serveWaiting_keeps
    | with_reducible apply modHost_keeps
    | intro _
    | split)

theorem cpqCfgWrite_keeps {ms : Nat} {r0 : State} {v : Word} {s : State} (hM : Sub 1024 ms) (hK : Keeps ms r0 s) :
    Keeps ms r0 (cpqCfgWrite v s) := by
  unfold cpqCfgWrite
  try dsimp only
  repeat' (first
    | with_reducible assumption
    | exact hM.trans rfl
    | with_reducible apply modRegs_keeps
    | intro _
    | split)

theorem execCpqEnable_keeps {ms : Nat} {r0 : State} {v : Word} {s : State} (hM : Sub 1024 ms) (hK : Keeps ms r0 s) :
    KeepsO ms r0 (execCpqEnable v s) := by
  unfold execCpqEnable
  try dsimp only
  repeat' (first
    | with_reducible assumption
    | exact hM.trans rfl
    | with_reducible apply keepsO_next
    | with_reducible apply whenS_keeps
    | with_reducible apply cpqCfgWrite_keeps
    | with_reducible apply keepsO_fault
    | split
    | intro _
    | split)

theorem recoverWritten_keeps {ms : Nat} {r0 : State} {r : Rec} {s : State} (hM : Sub 1026 ms) (hK : Keeps ms r0 s) :
    Keeps ms r0 (recoverWritten r s) := by
  unfold recoverWritten
  try dsimp only
  repeat' (first
    | with_reducible assumption
    | exact hM.trans rfl
    | with_reducible apply modHost_keeps
    | with_reducible apply modAon_keeps
    | intro _
    | split)

theorem cpqWrite_keeps {ms : Nat} {r0 : State} {x : StgEntry} {rest : List StgEntry} {s : State} (hM : Sub 1052162 ms) (hK : Keeps ms r0 s) :
    Keeps ms r0 (cpqWrite x rest s) := by
  unfold cpqWrite
  try dsimp only
  repeat' (first
    | with_reducible assumption
    | exact hM.trans rfl
    | with_reducible apply modHost_keeps
    | with_reducible apply emit_keeps
    | with_reducible apply freeStg_keeps
    | with_reducible apply signalKind_keeps
    | with_reducible apply recoverWritten_keeps
    | intro _
    | split)

theorem recordForward_keeps {ms : Nat} {r0 : State} {s : State} (hM : Sub 1573376 ms) (hK : Keeps ms r0 s) :
    Keeps ms r0 (recordForward s) := by
  unfold recordForward
  try dsimp only
  repeat' (first
    | with_reducible assumption
    | exact hM.trans rfl
    | with_reducible apply skidPushed_keeps
    | with_reducible apply takeTally_keeps
    | intro _
    | split)

theorem execCpqRecordWrite_keeps {ms : Nat} {r0 : State} {s : State} (hM : Sub 1576450 ms) (hK : Keeps ms r0 s) :
    KeepsO ms r0 (execCpqRecordWrite s) := by
  unfold execCpqRecordWrite
  try dsimp only
  repeat' (first
    | with_reducible assumption
    | exact hM.trans rfl
    | with_reducible apply keepsO_next
    | with_reducible apply cpqWrite_keeps
    | with_reducible apply recordForward_keeps
    | with_reducible apply keepsO_fault
    | split
    | intro _
    | split)

theorem execSheetRecordStage_keeps {ms : Nat} {r0 : State} {s : State} (hM : Sub 3771906 ms) (hK : Keeps ms r0 s) :
    KeepsO ms r0 (execSheetRecordStage s) := by
  unfold execSheetRecordStage
  try dsimp only
  repeat' (first
    | with_reducible assumption
    | exact hM.trans rfl
    | with_reducible apply keepsO_next
    | with_reducible apply recoverDisarm_keeps
    | with_reducible apply sheetStage_keeps
    | with_reducible apply keepsO_fault
    | split
    | intro _
    | split)

theorem discardStaged_keeps {ms : Nat} {r0 : State} {n : BitVec 16} {s : State} (hM : Sub 1052160 ms) (hK : Keeps ms r0 s) :
    Keeps ms r0 (discardStaged n s) := by
  unfold discardStaged
  try dsimp only
  repeat' (first
    | with_reducible assumption
    | exact hM.trans rfl
    | with_reducible apply forEach_keeps
    | with_reducible apply freeStg_keeps
    | with_reducible apply modHost_keeps
    | intro _
    | split)

theorem recoverAt_keeps {ms : Nat} {r0 : State} {new : BitVec 16} {disarm : Bool} {discard : Bool} {workers : BitVec 8} {s : State} (hM : Sub 3911298 ms) (hK : Keeps ms r0 s) :
    Keeps ms r0 (recoverAt new disarm discard workers s) := by
  unfold recoverAt
  try dsimp only
  repeat' (first
    | with_reducible assumption
    | exact hM.trans rfl
    | with_reducible apply modHost_keeps
    | with_reducible apply discardStaged_keeps
    | with_reducible apply recoverDisarm_keeps
    | with_reducible apply abortPages_keeps
    | with_reducible apply forEach_keeps
    | with_reducible apply ringTally_keeps
    | intro _
    | split
    | with_reducible apply keeps_epoch)

theorem recoverWrite_keeps {ms : Nat} {r0 : State} {v : Word} {s : State} (hM : Sub 3911298 ms) (hK : Keeps ms r0 s) :
    Keeps ms r0 (recoverWrite v s) := by
  unfold recoverWrite
  try dsimp only
  repeat' (first
    | with_reducible assumption
    | exact hM.trans rfl
    | with_reducible apply sendMsix_keeps
    | with_reducible apply modRegs_keeps
    | with_reducible apply recoverAt_keeps
    | with_reducible apply forEach_keeps
    | with_reducible apply sendSkid_keeps
    | with_reducible apply id_keeps
    | intro _
    | split)

theorem execRecover_keeps {ms : Nat} {r0 : State} {v : Word} {s : State} (hM : Sub 3911298 ms) (hK : Keeps ms r0 s) :
    KeepsO ms r0 (execRecover v s) := by
  unfold execRecover
  try dsimp only
  repeat' (first
    | with_reducible assumption
    | exact hM.trans rfl
    | with_reducible apply keepsO_next
    | with_reducible apply whenS_keeps
    | with_reducible apply recoverWrite_keeps
    | with_reducible apply keepsO_fault
    | split
    | intro _
    | split)

theorem recoverMake_keeps {ms : Nat} {r0 : State} {v : Recov} {s : State} (hM : Sub 1052162 ms) (hK : Keeps ms r0 s) :
    Keeps ms r0 (recoverMake v s) := by
  unfold recoverMake
  try dsimp only
  repeat' (first
    | with_reducible assumption
    | exact hM.trans rfl
    | with_reducible apply post_keeps
    | with_reducible apply modHost_keeps
    | with_reducible apply serveWaiting_keeps
    | intro _
    | split)

theorem recoverReply_keeps {ms : Nat} {r0 : State} {v : Recov} {s : State} (hM : Sub 1576448 ms) (hK : Keeps ms r0 s) :
    Keeps ms r0 (recoverReply v s) := by
  unfold recoverReply
  try dsimp only
  repeat' (first
    | with_reducible assumption
    | exact hM.trans rfl
    | with_reducible apply sendSkid_keeps
    | with_reducible apply modHost_keeps
    | with_reducible apply serveWaiting_keeps
    | intro _
    | split)

theorem execRecoverRecord_keeps {ms : Nat} {r0 : State} {s : State} (hM : Sub 1576450 ms) (hK : Keeps ms r0 s) :
    KeepsO ms r0 (execRecoverRecord s) := by
  unfold execRecoverRecord
  try dsimp only
  repeat' (first
    | with_reducible assumption
    | exact hM.trans rfl
    | with_reducible apply keepsO_next
    | with_reducible apply recoverReply_keeps
    | with_reducible apply recoverMake_keeps
    | with_reducible apply keepsO_fault
    | split
    | intro _
    | split)

theorem ringFlumes_keeps {ms : Nat} {r0 : State} {s : State} (hM : Sub 512 ms) (hK : Keeps ms r0 s) :
    Keeps ms r0 (ringFlumes s) := by
  unfold ringFlumes
  try dsimp only
  repeat' (first
    | with_reducible assumption
    | exact hM.trans rfl
    | with_reducible apply forEach_keeps
    | with_reducible apply ringTally_keeps
    | with_reducible apply reDepth_keeps
    | intro _
    | split)

theorem execPerstAssert_keeps {ms : Nat} {r0 : State} {s : State} (hM : Sub 1536 ms) (hK : Keeps ms r0 s) :
    KeepsO ms r0 (execPerstAssert s) := by
  unfold execPerstAssert
  try dsimp only
  repeat' (first
    | with_reducible assumption
    | exact hM.trans rfl
    | with_reducible apply keepsO_next
    | with_reducible apply whenS_keeps
    | with_reducible apply ringFlumes_keeps
    | with_reducible apply modHost_keeps
    | with_reducible apply keepsO_fault
    | split
    | intro _
    | split)

theorem execPerstRelease_keeps {ms : Nat} {r0 : State} {s : State} (hM : Sub 1024 ms) (hK : Keeps ms r0 s) :
    KeepsO ms r0 (execPerstRelease s) := by
  unfold execPerstRelease
  try dsimp only
  repeat' (first
    | with_reducible assumption
    | exact hM.trans rfl
    | with_reducible apply keepsO_next
    | with_reducible apply whenS_keeps
    | with_reducible apply modHost_keeps
    | with_reducible apply keepsO_fault
    | split
    | intro _
    | split)

end Sys2Proof.Machine
end

