-- ==== Sys2Proof/Laws/KeepsBoot.lean ====
section
/-!
SUPPORT. Machine/Boot.lean: each operation keeps what no command takes back (Laws/Keeps.lean).
-/

namespace Sys2Proof.Machine

set_option linter.all false

theorem otpProgOp_keeps {ms : Nat} {r0 : State} {s : State} (hM : Sub 32 ms) (hK : Keeps ms r0 s) :
    Keeps ms r0 (otpProgOp s) := by
  unfold otpProgOp
  try dsimp only
  repeat' (first
    | with_reducible assumption
    | exact hM.trans rfl
    | with_reducible apply modBoot_keeps
    | exact fun (_ : Boot) _ _ g => by dsimp only; with_reducible exact otp_or g
    | exact fun (_ : Boot) _ _ g => g
    | intro _
    | split)

theorem execOtpProg_keeps {ms : Nat} {r0 : State} {p : Port} {s : State} (hM : Sub 32 ms) (hK : Keeps ms r0 s) :
    KeepsO ms r0 (execOtpProg p s) := by
  unfold execOtpProg
  try dsimp only
  repeat' (first
    | with_reducible assumption
    | exact hM.trans rfl
    | with_reducible apply keepsO_next
    | with_reducible apply whenS_keeps
    | with_reducible apply otpProgOp_keeps
    | with_reducible apply keepsO_fault
    | split
    | intro _
    | split)

theorem enterRecovery_keeps {ms : Nat} {r0 : State} {cause : BitVec 4} {s : State} (hM : Sub 32 ms) (hK : Keeps ms r0 s) :
    Keeps ms r0 (enterRecovery cause s) := by
  unfold enterRecovery
  try dsimp only
  repeat' (first
    | with_reducible assumption
    | exact hM.trans rfl
    | with_reducible apply modBoot_keeps
    | exact fun (_ : Boot) _ _ g => g
    | intro _
    | split)

theorem checkSlot_keeps {ms : Nat} {r0 : State} {k : Option (Fin 2)} {s : State} (hM : Sub 32 ms) (hK : Keeps ms r0 s) :
    Keeps ms r0 (checkSlot k s) := by
  unfold checkSlot
  try dsimp only
  repeat' (first
    | with_reducible assumption
    | exact hM.trans rfl
    | with_reducible apply modBoot_keeps
    | with_reducible apply enterRecovery_keeps
    | exact fun (_ : Boot) _ _ g => g
    | intro _
    | split)

theorem bumpFails_keeps {ms : Nat} {r0 : State} {s : State} (hM : Sub 8 ms) (hK : Keeps ms r0 s) :
    Keeps ms r0 (bumpFails s) := by
  unfold bumpFails
  try dsimp only
  repeat' (first
    | with_reducible assumption
    | exact hM.trans rfl
    | with_reducible apply modNv_keeps
    | intro _
    | split)

theorem keeperBoot_keeps {ms : Nat} {r0 : State} {s : State} (hM : Sub 40 ms) (hK : Keeps ms r0 s) :
    Keeps ms r0 (keeperBoot s) := by
  unfold keeperBoot
  try dsimp only
  repeat' (first
    | with_reducible assumption
    | exact hM.trans rfl
    | with_reducible apply bumpFails_keeps
    | with_reducible apply checkSlot_keeps
    | with_reducible apply setSlot_keeps
    | intro _
    | split)

theorem bootSelect_keeps {ms : Nat} {r0 : State} {s : State} (hM : Sub 40 ms) (hK : Keeps ms r0 s) :
    Keeps ms r0 (bootSelect s) := by
  unfold bootSelect
  try dsimp only
  repeat' (first
    | with_reducible assumption
    | exact hM.trans rfl
    | with_reducible apply modBoot_keeps
    | with_reducible apply enterRecovery_keeps
    | with_reducible apply keeperBoot_keeps
    | exact fun (_ : Boot) _ _ g => g
    | intro _
    | split)

theorem runKeeper_keeps {ms : Nat} {r0 : State} {k : Fin 2} {img : List Byte} {s : State} (hM : Sub 40 ms) (hK : Keeps ms r0 s) :
    Keeps ms r0 (runKeeper k img s) := by
  unfold runKeeper
  try dsimp only
  repeat' (first
    | with_reducible assumption
    | exact hM.trans rfl
    | with_reducible apply nvPut_keeps
    | with_reducible apply modBoot_keeps
    | exact fun (_ : Boot) _ _ g => g
    | intro _
    | split)

theorem keeperCheckOp_keeps {ms : Nat} {r0 : State} {k : Fin 2} {s : State} (hM : Sub 40 ms) (hK : Keeps ms r0 s) :
    Keeps ms r0 (keeperCheckOp k s) := by
  unfold keeperCheckOp
  try dsimp only
  repeat' (first
    | with_reducible assumption
    | exact hM.trans rfl
    | with_reducible apply runKeeper_keeps
    | with_reducible apply setSlot_keeps
    | with_reducible apply checkSlot_keeps
    | intro _
    | split)

theorem execKeeperCheckDone_keeps {ms : Nat} {r0 : State} {s : State} (hM : Sub 40 ms) (hK : Keeps ms r0 s) :
    KeepsO ms r0 (execKeeperCheckDone s) := by
  unfold execKeeperCheckDone
  try dsimp only
  repeat' (first
    | with_reducible assumption
    | exact hM.trans rfl
    | with_reducible apply keepsO_next
    | with_reducible apply keeperCheckOp_keeps
    | with_reducible apply keepsO_fault
    | split
    | intro _
    | split)

theorem bootOkOp_keeps {ms : Nat} {r0 : State} {s : State} (hM : Sub 40 ms) (hK : Keeps ms r0 s) :
    Keeps ms r0 (bootOkOp s) := by
  unfold bootOkOp
  try dsimp only
  repeat' (first
    | with_reducible assumption
    | exact hM.trans rfl
    | with_reducible apply modBoot_keeps
    | with_reducible apply nvPut_keeps
    | with_reducible apply setSlot_keeps
    | exact fun (_ : Boot) _ _ g => g
    | intro _
    | split)

theorem execBootOk_keeps {ms : Nat} {r0 : State} {p : Port} {s : State} (hM : Sub 40 ms) (hK : Keeps ms r0 s) :
    KeepsO ms r0 (execBootOk p s) := by
  unfold execBootOk
  try dsimp only
  repeat' (first
    | with_reducible assumption
    | exact hM.trans rfl
    | with_reducible apply keepsO_next
    | with_reducible apply whenS_keeps
    | with_reducible apply bootOkOp_keeps
    | with_reducible apply keepsO_fault
    | split
    | intro _
    | split)

theorem bootRestartOp_keeps {ms : Nat} {r0 : State} {s : State} (hM : Sub 2096698 ms) (hK : Keeps ms r0 s) :
    Keeps ms r0 (bootRestartOp s) := by
  unfold bootRestartOp
  try dsimp only
  repeat' (first
    | with_reducible assumption
    | exact hM.trans rfl
    | with_reducible apply imageCut_keeps
    | with_reducible apply settle_keeps
    | with_reducible apply modAon_keeps
    | with_reducible apply bootSelect_keeps
    | intro _
    | split)

theorem execBootTimeout_keeps {ms : Nat} {r0 : State} {s : State} (hM : Sub 2096699 ms) (hK : Keeps ms r0 s) :
    KeepsO ms r0 (execBootTimeout s) := by
  unfold execBootTimeout
  try dsimp only
  repeat' (first
    | with_reducible assumption
    | exact hM.trans rfl
    | with_reducible apply keepsO_next
    | with_reducible apply timeTo_keeps
    | with_reducible apply bootRestartOp_keeps
    | with_reducible apply logPost_keeps
    | with_reducible apply keepsO_fault
    | split
    | intro _
    | split)

theorem execBootRestart_keeps {ms : Nat} {r0 : State} {p : Port} {s : State} (hM : Sub 2096698 ms) (hK : Keeps ms r0 s) :
    KeepsO ms r0 (execBootRestart p s) := by
  unfold execBootRestart
  try dsimp only
  repeat' (first
    | with_reducible assumption
    | exact hM.trans rfl
    | with_reducible apply keepsO_next
    | with_reducible apply whenS_keeps
    | with_reducible apply bootRestartOp_keeps
    | with_reducible apply keepsO_fault
    | split
    | intro _
    | split)

theorem sendImage_keeps {ms : Nat} {r0 : State} {d : Fin 8} {img : List Byte} {s : State} (hM : Sub 1573376 ms) (hK : Keeps ms r0 s) :
    Keeps ms r0 (sendImage d img s) := by
  unfold sendImage
  try dsimp only
  repeat' (first
    | with_reducible assumption
    | exact hM.trans rfl
    | with_reducible apply forEach_keeps
    | with_reducible apply sendSkid_keeps
    | intro _
    | split)

theorem reloadWorkers_keeps {ms : Nat} {r0 : State} {who : BitVec 8} {s : State} (hM : Sub 3670528 ms) (hK : Keeps ms r0 s) :
    Keeps ms r0 (reloadWorkers who s) := by
  unfold reloadWorkers
  try dsimp only
  repeat' (first
    | with_reducible assumption
    | exact hM.trans rfl
    | with_reducible apply useFree_keeps
    | with_reducible apply forEach_keeps
    | with_reducible apply sendImage_keeps
    | with_reducible apply id_keeps
    | intro _
    | split)

theorem ldieDoneOp_keeps {ms : Nat} {r0 : State} {s : State} (hM : Sub 3670560 ms) (hK : Keeps ms r0 s) :
    Keeps ms r0 (ldieDoneOp s) := by
  unfold ldieDoneOp
  try dsimp only
  repeat' (first
    | with_reducible assumption
    | exact hM.trans rfl
    | with_reducible apply reloadWorkers_keeps
    | with_reducible apply modBoot_keeps
    | exact fun (_ : Boot) _ _ g => g
    | intro _
    | split)

theorem execLdieDone_keeps {ms : Nat} {r0 : State} {p : Port} {s : State} (hM : Sub 3670560 ms) (hK : Keeps ms r0 s) :
    KeepsO ms r0 (execLdieDone p s) := by
  unfold execLdieDone
  try dsimp only
  repeat' (first
    | with_reducible assumption
    | exact hM.trans rfl
    | with_reducible apply keepsO_next
    | with_reducible apply whenS_keeps
    | with_reducible apply ldieDoneOp_keeps
    | with_reducible apply keepsO_fault
    | split
    | intro _
    | split)

theorem failOp_keeps {ms : Nat} {r0 : State} {op : ImageOp} {err : Nat} {s : State} (hM : Sub 1052202 ms) (hK : Keeps ms r0 s) :
    Keeps ms r0 (failOp op err s) := by
  unfold failOp
  try dsimp only
  repeat' (first
    | with_reducible assumption
    | exact hM.trans rfl
    | with_reducible apply imageDone_keeps
    | with_reducible apply invalidate_keeps
    | intro _
    | split)

theorem takeHeader_keeps {ms : Nat} {r0 : State} {op : ImageOp} {h : List Byte} {s0 : State} (hM : Sub 3149354 ms) (hK : Keeps ms r0 s0) :
    Keeps ms r0 (takeHeader op h s0) := by
  unfold takeHeader
  try dsimp only
  repeat' (first
    | with_reducible assumption
    | exact hM.trans rfl
    | with_reducible apply useFree_keeps
    | with_reducible apply imageDone_keeps
    | with_reducible apply modBoot_keeps
    | with_reducible apply setSlot_keeps
    | exact fun (_ : Boot) _ _ g => g
    | intro _
    | split)

theorem takeBytes_keeps {ms : Nat} {r0 : State} {op : ImageOp} {b : List Byte} {s : State} (hM : Sub 1052202 ms) (hK : Keeps ms r0 s) :
    Keeps ms r0 (takeBytes op b s) := by
  unfold takeBytes
  try dsimp only
  repeat' (first
    | with_reducible assumption
    | exact hM.trans rfl
    | with_reducible apply failOp_keeps
    | with_reducible apply modBoot_keeps
    | exact fun (_ : Boot) _ _ g => g
    | intro _
    | split)

theorem activate_keeps {ms : Nat} {r0 : State} {op : ImageOp} {s : State} (hM : Sub 40 ms) (hK : Keeps ms r0 s) :
    Keeps ms r0 (activate op s) := by
  unfold activate
  try dsimp only
  repeat' (first
    | with_reducible assumption
    | exact hM.trans rfl
    | with_reducible apply modNv_keeps
    | with_reducible apply modBoot_keeps
    | with_reducible apply setSlot_keeps
    | with_reducible apply nvPut_keeps
    | with_reducible apply runKeeper_keeps
    | exact fun (_ : Boot) _ _ g => g
    | intro _
    | split)

theorem finishOp_keeps {ms : Nat} {r0 : State} {op : ImageOp} {s : State} (hM : Sub 1052202 ms) (hK : Keeps ms r0 s) :
    Keeps ms r0 (finishOp op s) := by
  unfold finishOp
  try dsimp only
  repeat' (first
    | with_reducible assumption
    | exact hM.trans rfl
    | with_reducible apply imageDone_keeps
    | with_reducible apply activate_keeps
    | with_reducible apply failOp_keeps
    | intro _
    | split)

theorem refuseLoad_keeps {ms : Nat} {r0 : State} {err : Nat} {s : State} (hM : Sub 1052194 ms) (hK : Keeps ms r0 s) :
    Keeps ms r0 (refuseLoad err s) := by
  unfold refuseLoad
  try dsimp only
  repeat' (first
    | with_reducible assumption
    | exact hM.trans rfl
    | with_reducible apply aonEvent_keeps
    | with_reducible apply modBoot_keeps
    | exact fun (_ : Boot) _ _ g => g
    | intro _
    | split)

theorem loadCtlWrite_keeps {ms : Nat} {r0 : State} {v : Word} {s0 : State} (hM : Sub 1052194 ms) (hK : Keeps ms r0 s0) :
    Keeps ms r0 (loadCtlWrite v s0) := by
  unfold loadCtlWrite
  try dsimp only
  repeat' (first
    | with_reducible assumption
    | exact hM.trans rfl
    | with_reducible apply modBoot_keeps
    | with_reducible apply refuseLoad_keeps
    | exact fun (_ : Boot) _ _ g => g
    | intro _
    | split)

theorem execImageLoadGo_keeps {ms : Nat} {r0 : State} {p : Port} {v : Word} {s : State} (hM : Sub 1052194 ms) (hK : Keeps ms r0 s) :
    KeepsO ms r0 (execImageLoadGo p v s) := by
  unfold execImageLoadGo
  try dsimp only
  repeat' (first
    | with_reducible assumption
    | exact hM.trans rfl
    | with_reducible apply keepsO_next
    | with_reducible apply whenS_keeps
    | with_reducible apply loadCtlWrite_keeps
    | with_reducible apply keepsO_fault
    | split
    | intro _
    | split)

theorem passOn_keeps {ms : Nat} {r0 : State} {op : ImageOp} {b : List Byte} {s : State} (hM : Sub 1573376 ms) (hK : Keeps ms r0 s) :
    Keeps ms r0 (passOn op b s) := by
  unfold passOn
  try dsimp only
  repeat' (first
    | with_reducible assumption
    | exact hM.trans rfl
    | with_reducible apply sendImage_keeps
    | intro _
    | split)

theorem execImageBlockArrive_keeps {ms : Nat} {r0 : State} {data : Option (List Byte)} {s : State} (hM : Sub 3673642 ms) (hK : Keeps ms r0 s) :
    KeepsO ms r0 (execImageBlockArrive data s) := by
  unfold execImageBlockArrive
  try dsimp only
  repeat' (first
    | with_reducible assumption
    | exact hM.trans rfl
    | with_reducible apply keepsO_next
    | exact rfl
    | with_reducible apply takeHeader_keeps
    | with_reducible apply useFree_keeps
    | with_reducible apply modBoot_keeps
    | with_reducible apply failOp_keeps
    | with_reducible apply aerLog_keeps
    | with_reducible apply passOn_keeps
    | with_reducible apply takeBytes_keeps
    | exact fun (_ : Boot) _ _ g => g
    | with_reducible apply keepsO_fault
    | split
    | intro _
    | split)

theorem execImageLoadComplete_keeps {ms : Nat} {r0 : State} {s : State} (hM : Sub 3149354 ms) (hK : Keeps ms r0 s) :
    KeepsO ms r0 (execImageLoadComplete s) := by
  unfold execImageLoadComplete
  try dsimp only
  repeat' (first
    | with_reducible assumption
    | exact hM.trans rfl
    | with_reducible apply keepsO_next
    | with_reducible apply finishOp_keeps
    | with_reducible apply imageDone_keeps
    | with_reducible apply useFree_keeps
    | with_reducible apply keepsO_fault
    | split
    | intro _
    | split)

theorem execImageAbort_keeps {ms : Nat} {r0 : State} {p : Port} {s : State} (hM : Sub 1052202 ms) (hK : Keeps ms r0 s) :
    KeepsO ms r0 (execImageAbort p s) := by
  unfold execImageAbort
  try dsimp only
  repeat' (first
    | with_reducible assumption
    | exact hM.trans rfl
    | with_reducible apply keepsO_next
    | with_reducible apply whenS_keeps
    | with_reducible apply imageCut_keeps
    | with_reducible apply keepsO_fault
    | split
    | intro _
    | split)

theorem otpRaised_keeps {n : Nat} {v : Vector Word 32} {i : Fin 32} {k : Nat} (h : (tget v i).getLsbD k = true) :
    (tget (otpRaised n v) i).getLsbD k = true := otp_or (otp_or h)

theorem otpNow_keeps {b : Boot} {i : Fin 32} {k : Nat} (h : (tget b.otp i).getLsbD k = true) :
    (tget (otpNow b) i).getLsbD k = true := by
  unfold otpNow
  split
  · exact otpRaised_keeps h
  · exact h

theorem otpAtCut_keeps {s : State} {i : Fin 32} {k : Nat} (h : (tget s.boot.otp i).getLsbD k = true) :
    (tget (otpAtCut s) i).getLsbD k = true := by
  unfold otpAtCut
  split
  · dsimp only
    split
    · exact otpRaised_keeps h
    · exact otpRaised_keeps h
  · exact h

theorem raiseRb_keeps {ms : Nat} {r0 : State} {n : Nat} {s : State} (hM : Sub 32 ms) (hK : Keeps ms r0 s) :
    Keeps ms r0 (raiseRb n s) := by
  unfold raiseRb
  try dsimp only
  repeat' (first
    | with_reducible assumption
    | exact hM.trans rfl
    | with_reducible apply modBoot_keeps
    | exact fun (_ : Boot) _ _ g => by dsimp only; with_reducible exact otp_or (otp_or g)
    | exact fun (_ : Boot) _ _ g => g
    | exact fun (_ : Boot) _ _ g => otpNow_keeps g
    | intro _
    | split)

theorem rbAdvanceOp_keeps {ms : Nat} {r0 : State} {s : State} (hM : Sub 32 ms) (hK : Keeps ms r0 s) :
    Keeps ms r0 (rbAdvanceOp s) := by
  unfold rbAdvanceOp
  try dsimp only
  repeat' (first
    | with_reducible assumption
    | exact hM.trans rfl
    | with_reducible apply modBoot_keeps
    | with_reducible apply raiseRb_keeps
    | exact fun (_ : Boot) _ _ g => g
    | intro _
    | split)

theorem execRbAdvance_keeps {ms : Nat} {r0 : State} {p : Port} {s : State} (hM : Sub 32 ms) (hK : Keeps ms r0 s) :
    KeepsO ms r0 (execRbAdvance p s) := by
  unfold execRbAdvance
  try dsimp only
  repeat' (first
    | with_reducible assumption
    | exact hM.trans rfl
    | with_reducible apply keepsO_next
    | with_reducible apply whenS_keeps
    | with_reducible apply rbAdvanceOp_keeps
    | with_reducible apply keepsO_fault
    | split
    | intro _
    | split)

theorem execCoverClose_keeps {ms : Nat} {r0 : State} {s : State} (hM : Sub 2 ms) (hK : Keeps ms r0 s) :
    KeepsO ms r0 (execCoverClose s) := by
  unfold execCoverClose
  try dsimp only
  repeat' (first
    | with_reducible assumption
    | exact hM.trans rfl
    | with_reducible apply keepsO_next
    | with_reducible apply modAon_keeps
    | with_reducible apply keepsO_fault
    | split
    | intro _
    | split)

theorem sheetFault_keeps {ms : Nat} {r0 : State} {c : Chan} {s : State} (hM : Sub 1289730 ms) (hK : Keeps ms r0 s) :
    Keeps ms r0 (sheetFault c s) := by
  unfold sheetFault
  try dsimp only
  repeat' (first
    | with_reducible assumption
    | exact hM.trans rfl
    | with_reducible apply chFault_keeps
    | intro _
    | split)

theorem sheetStart_keeps {ms : Nat} {r0 : State} {n : Fin 16} {s : State} (hM : Sub 32770 ms) (hK : Keeps ms r0 s) :
    Keeps ms r0 (sheetStart n s) := by
  unfold sheetStart
  try dsimp only
  repeat' (first
    | with_reducible assumption
    | exact hM.trans rfl
    | with_reducible apply noteMoving_keeps
    | with_reducible apply modStep_keeps
    | intro _
    | split)

theorem execSheetClearStart_keeps {ms : Nat} {r0 : State} {s : State} (hM : Sub 1568274 ms) (hK : Keeps ms r0 s) :
    KeepsO ms r0 (execSheetClearStart s) := by
  unfold execSheetClearStart
  try dsimp only
  repeat' (first
    | with_reducible assumption
    | exact hM.trans rfl
    | with_reducible apply keepsO_next
    | with_reducible apply forEach_keeps
    | with_reducible apply sheetFault_keeps
    | with_reducible apply safeEnter_keeps
    | with_reducible apply sheetOutcome_keeps
    | with_reducible apply sheetStart_keeps
    | with_reducible apply modAon_keeps
    | with_reducible apply keepsO_fault
    | split
    | intro _
    | split)

theorem execSheetClearCancel_keeps {ms : Nat} {r0 : State} {s : State} (hM : Sub 2579 ms) (hK : Keeps ms r0 s) :
    KeepsO ms r0 (execSheetClearCancel s) := by
  unfold execSheetClearCancel
  try dsimp only
  repeat' (first
    | with_reducible assumption
    | exact hM.trans rfl
    | with_reducible apply keepsO_next
    | with_reducible apply logCode_keeps
    | with_reducible apply modAon_keeps
    | with_reducible apply timeTo_keeps
    | with_reducible apply keepsO_fault
    | split
    | intro _
    | split)

theorem execSheetClearEnd_keeps {ms : Nat} {r0 : State} {s : State} (hM : Sub 1084947 ms) (hK : Keeps ms r0 s) :
    KeepsO ms r0 (execSheetClearEnd s) := by
  unfold execSheetClearEnd
  try dsimp only
  repeat' (first
    | with_reducible assumption
    | exact hM.trans rfl
    | with_reducible apply keepsO_next
    | with_reducible apply sheetOutcome_keeps
    | with_reducible apply timeTo_keeps
    | with_reducible apply keepsO_fault
    | split
    | intro _
    | split)

theorem porBase_keeps {ms : Nat} {r0 s : State} (hM : Sub 3145726 ms) (hr : r0.lock = false) (hK : Keeps ms r0 s) : Keeps ms r0 (porBase s) := by
  obtain ⟨h0, h1, h2, h3, h4, _⟩ := hK
  refine ⟨fun p hp => ?_, h1, h2, h3, fun i k g => otpAtCut_keeps (h4 i k g), fun g => absurd (hr ▸ g) (by decide), fun _ => rfl,
    fun _ => rfl, fun _ _ => chWf_reset⟩
  cases p
  case now => exact h0 .now hp
  case out => exact h0 .out hp
  case pending => exact h0 .pending hp
  all_goals exact absurd hp (by rw [Bool.not_eq_false]; exact hM.bit rfl)

theorem porOp_keeps {ms : Nat} {r0 s : State} (hM : Sub 3145726 ms) (hr : r0.lock = false) (hK : Keeps ms r0 s) :
    Keeps ms r0 (porOp s) := porBase_keeps (hM.trans rfl) hr (by split <;> first | exact hK | exact cutLog_keeps (hM.trans rfl) hK)

theorem execAonPorAssert_keeps {ms : Nat} {r0 s : State} (hM : Sub 3145726 ms) (hr : r0.lock = false) (hK : Keeps ms r0 s) :
    KeepsO ms r0 (execAonPorAssert s) := keepsO_next (porOp_keeps hM hr hK)

theorem nvCopies_keeps {ms : Nat} {r0 : State} {s : State} (hM : Sub 58 ms) (hK : Keeps ms r0 s) :
    Keeps ms r0 (nvCopies s) := by
  unfold nvCopies
  try dsimp only
  repeat' (first
    | with_reducible assumption
    | exact hM.trans rfl
    | with_reducible apply modAon_keeps
    | with_reducible apply modNv_keeps
    | with_reducible apply modLg_keeps
    | with_reducible apply modBoot_keeps
    | exact fun (_ : Boot) _ _ g => g
    | intro _
    | split)

theorem porRegs_keeps {ms : Nat} {r0 : State} {strap : Byte} {s : State} (hM : Sub 2 ms) (hK : Keeps ms r0 s) :
    Keeps ms r0 (porRegs strap s) := by
  unfold porRegs
  try dsimp only
  repeat' (first
    | with_reducible assumption
    | exact hM.trans rfl
    | with_reducible apply modAon_keeps
    | intro _
    | split)

theorem porRelease_keeps {ms : Nat} {r0 : State} {strap : Byte} {s : State} (hM : Sub 2096698 ms) (hK : Keeps ms r0 s) :
    Keeps ms r0 (porRelease strap s) := by
  unfold porRelease
  try dsimp only
  repeat' (first
    | with_reducible assumption
    | exact hM.trans rfl
    | with_reducible apply bootSelect_keeps
    | with_reducible apply nvCopies_keeps
    | with_reducible apply settled_keeps
    | with_reducible apply noteDrive_keeps
    | with_reducible apply porRegs_keeps
    | with_reducible apply logCode_keeps
    | with_reducible apply autoRaise_keeps
    | intro _
    | split)

theorem execAonPorRelease_keeps {ms : Nat} {r0 : State} {ord : BitVec 3} {role : Bool} {recovN : Bool} {kpMode : Bool} {kpAddr : Bool} {testEn : Bool} {s : State} (hM : Sub 2096698 ms) (hK : Keeps ms r0 s) :
    KeepsO ms r0 (execAonPorRelease ord role recovN kpMode kpAddr testEn s) := by
  unfold execAonPorRelease
  try dsimp only
  repeat' (first
    | with_reducible assumption
    | exact hM.trans rfl
    | with_reducible apply keepsO_next
    | with_reducible apply porRelease_keeps
    | with_reducible apply keepsO_fault
    | split
    | intro _
    | split)

end Sys2Proof.Machine
end

