-- ==== Sys2Proof/Laws/KeepsCascade.lean ====
section
/-!
SUPPORT. Machine/Cascade.lean: each operation keeps what no command takes back (Laws/Keeps.lean).
-/

namespace Sys2Proof.Machine

set_option linter.all false

theorem modPort_keeps {ms : Nat} {r0 : State} {q : SkidPort} {f : PortS → PortS} {s : State} (hM : Sub 524288 ms) (hK : Keeps ms r0 s) :
    Keeps ms r0 (modPort q f s) := by
  unfold modPort
  try dsimp only
  repeat' (first
    | with_reducible assumption
    | exact hM.trans rfl
    | with_reducible apply modSkid_keeps
    | intro _
    | split)

theorem emitUp_keeps {ms : Nat} {r0 : State} {q : SkidPort} {f : Frame} {s : State} (hM : Sub 1048576 ms) (hK : Keeps ms r0 s) :
    Keeps ms r0 (emitUp q f s) := by
  unfold emitUp
  try dsimp only
  repeat' (first
    | with_reducible assumption
    | exact hM.trans rfl
    | with_reducible apply emit_keeps
    | intro _
    | split)

theorem ackTo_keeps {ms : Nat} {r0 : State} {q : SkidPort} {s : State} (hM : Sub 1048576 ms) (hK : Keeps ms r0 s) :
    Keeps ms r0 (ackTo q s) := by
  unfold ackTo
  try dsimp only
  repeat' (first
    | with_reducible assumption
    | exact hM.trans rfl
    | with_reducible apply emitUp_keeps
    | intro _
    | split)

theorem relay_keeps {ms : Nat} {r0 : State} {q : SkidPort} {f : Frame} {s : State} (hM : Sub 1573376 ms) (hK : Keeps ms r0 s) :
    Keeps ms r0 (relay q f s) := sendSkid_keeps (hM.trans rfl) (ackTo_keeps (hM.trans rfl) hK)

theorem pumpSkid_keeps {ms : Nat} {r0 : State} {q : SkidPort} (hM : Sub 1573376 ms) :
    ∀ {n : Nat} {s : State}, Keeps ms r0 s → Keeps ms r0 (pumpSkid q n s)
  | 0, _, h => h
  | n + 1, s, h => by
    unfold pumpSkid
    split
    · split
      · exact pumpSkid_keeps hM (n := n) (skidPushed_keeps (hM.trans rfl) (takeTally_keeps (hM.trans rfl) (modPort_keeps (hM.trans rfl) h)))
      · exact h
    · exact h

theorem freeSent_keeps {ms : Nat} {r0 : State} {s : State} (hM : Sub 1052160 ms) (hK : Keeps ms r0 s) :
    Keeps ms r0 (freeSent s) := by
  unfold freeSent
  try dsimp only
  repeat' (first
    | with_reducible assumption
    | exact hM.trans rfl
    | with_reducible apply freeStg_keeps
    | with_reducible apply modHost_keeps
    | intro _
    | split)

theorem execSkidAckFrame_keeps {ms : Nat} {r0 : State} {q : SkidPort} {s : State} (hM : Sub 1576448 ms) (hK : Keeps ms r0 s) :
    KeepsO ms r0 (execSkidAckFrame q s) := by
  unfold execSkidAckFrame
  try dsimp only
  repeat' (first
    | with_reducible assumption
    | exact hM.trans rfl
    | with_reducible apply keepsO_next
    | with_reducible apply retTally_keeps
    | with_reducible apply modPort_keeps
    | with_reducible apply freeSent_keeps
    | with_reducible apply keepsO_fault
    | split
    | intro _
    | split)

theorem ackMissed_keeps {ms : Nat} {r0 : State} {q : SkidPort} {f : Frame} {s : State} (hM : Sub 1572864 ms) (hK : Keeps ms r0 s) :
    Keeps ms r0 (ackMissed q f s) := by
  unfold ackMissed
  try dsimp only
  repeat' (first
    | with_reducible assumption
    | exact hM.trans rfl
    | with_reducible apply modPort_keeps
    | with_reducible apply emit_keeps
    | intro _
    | split)

theorem execSkidAckTimeout_keeps {ms : Nat} {r0 : State} {q : SkidPort} {s : State} (hM : Sub 1574913 ms) (hK : Keeps ms r0 s) :
    KeepsO ms r0 (execSkidAckTimeout q s) := by
  unfold execSkidAckTimeout
  try dsimp only
  repeat' (first
    | with_reducible assumption
    | exact hM.trans rfl
    | with_reducible apply keepsO_next
    | with_reducible apply ackMissed_keeps
    | with_reducible apply timeTo_keeps
    | with_reducible apply keepsO_fault
    | split
    | intro _
    | split)

theorem loseUnacked_keeps {ms : Nat} {r0 : State} {q : SkidPort} {s : State} (hM : Sub 1576450 ms) (hK : Keeps ms r0 s) :
    Keeps ms r0 (loseUnacked q s) := by
  unfold loseUnacked
  try dsimp only
  repeat' (first
    | with_reducible assumption
    | exact hM.trans rfl
    | with_reducible apply forEach_keeps
    | with_reducible apply freeStg_keeps
    | with_reducible apply modHost_keeps
    | with_reducible apply modAon_keeps
    | with_reducible apply retTallies_keeps
    | with_reducible apply modPort_keeps
    | intro _
    | split)

theorem execSkidPortRetrain_keeps {ms : Nat} {r0 : State} {q : SkidPort} {s : State} (hM : Sub 1576451 ms) (hK : Keeps ms r0 s) :
    KeepsO ms r0 (execSkidPortRetrain q s) := by
  unfold execSkidPortRetrain
  try dsimp only
  repeat' (first
    | with_reducible assumption
    | exact hM.trans rfl
    | with_reducible apply keepsO_next
    | with_reducible apply modPort_keeps
    | with_reducible apply loseUnacked_keeps
    | with_reducible apply timeTo_keeps
    | with_reducible apply keepsO_fault
    | split
    | intro _
    | split)

theorem execSkidPartnerSignal_keeps {ms : Nat} {r0 : State} {q : SkidPort} {present : Bool} {s : State} (hM : Sub 524288 ms) (hK : Keeps ms r0 s) :
    KeepsO ms r0 (execSkidPartnerSignal q present s) := by
  unfold execSkidPartnerSignal
  try dsimp only
  repeat' (first
    | with_reducible assumption
    | exact hM.trans rfl
    | with_reducible apply keepsO_next
    | with_reducible apply modPort_keeps
    | with_reducible apply keepsO_fault
    | split
    | intro _
    | split)

theorem logEnum_keeps {ms : Nat} {r0 : State} {err : Nat} {n : Nat} {s : State} (hM : Sub 528 ms) (hK : Keeps ms r0 s) :
    Keeps ms r0 (logEnum err n s) := by
  unfold logEnum
  try dsimp only
  repeat' (first
    | with_reducible assumption
    | exact hM.trans rfl
    | with_reducible apply logFrom_keeps
    | intro _
    | split)

theorem sendEnum_keeps {ms : Nat} {r0 : State} {s : State} (hM : Sub 1572864 ms) (hK : Keeps ms r0 s) :
    Keeps ms r0 (sendEnum s) := by
  unfold sendEnum
  try dsimp only
  repeat' (first
    | with_reducible assumption
    | exact hM.trans rfl
    | with_reducible apply emitUp_keeps
    | with_reducible apply emit_keeps
    | with_reducible apply modSkid_keeps
    | intro _
    | split)

theorem execSkidLanesAligned_keeps {ms : Nat} {r0 : State} {q : SkidPort} {s : State} (hM : Sub 1572864 ms) (hK : Keeps ms r0 s) :
    KeepsO ms r0 (execSkidLanesAligned q s) := by
  unfold execSkidLanesAligned
  try dsimp only
  repeat' (first
    | with_reducible assumption
    | exact hM.trans rfl
    | with_reducible apply keepsO_next
    | with_reducible apply modPort_keeps
    | with_reducible apply forEach_keeps
    | with_reducible apply emit_keeps
    | with_reducible apply sendEnum_keeps
    | with_reducible apply keepsO_fault
    | split
    | intro _
    | split)

theorem enumStart_keeps {ms : Nat} {r0 : State} {s : State} (hM : Sub 1572864 ms) (hK : Keeps ms r0 s) :
    Keeps ms r0 (enumStart s) := by
  unfold enumStart
  try dsimp only
  repeat' (first
    | with_reducible assumption
    | exact hM.trans rfl
    | with_reducible apply sendEnum_keeps
    | with_reducible apply modSkid_keeps
    | intro _
    | split)

theorem execSkidEnum_keeps {ms : Nat} {r0 : State} {s : State} (hM : Sub 1572864 ms) (hK : Keeps ms r0 s) :
    KeepsO ms r0 (execSkidEnum s) := by
  unfold execSkidEnum
  try dsimp only
  repeat' (first
    | with_reducible assumption
    | exact hM.trans rfl
    | with_reducible apply keepsO_next
    | with_reducible apply whenS_keeps
    | with_reducible apply enumStart_keeps
    | with_reducible apply keepsO_fault
    | split
    | intro _
    | split)

theorem setLive_keeps {ms : Nat} {r0 : State} {new : BitVec 8} {s : State} (hM : Sub 525824 ms) (hK : Keeps ms r0 s) :
    Keeps ms r0 (setLive new s) := by
  unfold setLive
  try dsimp only
  repeat' (first
    | with_reducible assumption
    | exact hM.trans rfl
    | with_reducible apply modSkid_keeps
    | with_reducible apply modHost_keeps
    | with_reducible apply noteMin_keeps
    | with_reducible apply modFl_keeps
    | intro _
    | split)

theorem endEnum_keeps {ms : Nat} {r0 : State} {err : BitVec 3} {n : BitVec 3} {s : State} (hM : Sub 3673618 ms) (hK : Keeps ms r0 s) :
    Keeps ms r0 (endEnum err n s) := by
  unfold endEnum
  try dsimp only
  repeat' (first
    | with_reducible assumption
    | exact hM.trans rfl
    | with_reducible apply setLive_keeps
    | with_reducible apply modSkid_keeps
    | with_reducible apply engine_keeps
    | with_reducible apply logEnum_keeps
    | with_reducible apply reloadWorkers_keeps
    | intro _
    | split)

theorem refuseEnum_keeps {ms : Nat} {r0 : State} {err : BitVec 3} {s : State} (hM : Sub 1573392 ms) (hK : Keeps ms r0 s) :
    Keeps ms r0 (refuseEnum err s) := by
  unfold refuseEnum
  try dsimp only
  repeat' (first
    | with_reducible assumption
    | exact hM.trans rfl
    | with_reducible apply emitUp_keeps
    | with_reducible apply logEnum_keeps
    | with_reducible apply modSkid_keeps
    | intro _
    | split)

theorem takeNumber_keeps {ms : Nat} {r0 : State} {d : BitVec 4} {et : DWord} {epoch : BitVec 16} {s : State} (hM : Sub 1575040 ms) (hK : Keeps ms r0 s) :
    Keeps ms r0 (takeNumber d et epoch s) := by
  unfold takeNumber
  try dsimp only
  repeat' (first
    | with_reducible assumption
    | exact hM.trans rfl
    | with_reducible apply modCue_keeps
    | with_reducible apply sendEnum_keeps
    | with_reducible apply modSkid_keeps
    | exact fun (_ : Cue) g => g
    | intro _
    | split
    | with_reducible apply keeps_epoch)

theorem execEnumFrame_keeps {ms : Nat} {r0 : State} {q : SkidPort} {d : BitVec 4} {mgrEt : DWord} {epoch : BitVec 16} {s : State} (hM : Sub 3673746 ms) (hK : Keeps ms r0 s) :
    KeepsO ms r0 (execEnumFrame q d mgrEt epoch s) := by
  unfold execEnumFrame
  try dsimp only
  repeat' (first
    | with_reducible assumption
    | exact hM.trans rfl
    | with_reducible apply keepsO_next
    | with_reducible apply emitUp_keeps
    | with_reducible apply endEnum_keeps
    | with_reducible apply refuseEnum_keeps
    | with_reducible apply takeNumber_keeps
    | with_reducible apply keepsO_fault
    | split
    | intro _
    | split)

theorem execEnumLinkWaitExpire_keeps {ms : Nat} {r0 : State} {s : State} (hM : Sub 1575441 ms) (hK : Keeps ms r0 s) :
    KeepsO ms r0 (execEnumLinkWaitExpire s) := by
  unfold execEnumLinkWaitExpire
  try dsimp only
  repeat' (first
    | with_reducible assumption
    | exact hM.trans rfl
    | with_reducible apply keepsO_next
    | with_reducible apply timeTo_keeps
    | with_reducible apply emitUp_keeps
    | with_reducible apply logEnum_keeps
    | with_reducible apply modSkid_keeps
    | with_reducible apply keepsO_fault
    | split
    | intro _
    | split)

theorem passReply_keeps {ms : Nat} {r0 : State} {err : BitVec 3} {n : BitVec 3} {s : State} (hM : Sub 1573392 ms) (hK : Keeps ms r0 s) :
    Keeps ms r0 (passReply err n s) := by
  unfold passReply
  try dsimp only
  repeat' (first
    | with_reducible assumption
    | exact hM.trans rfl
    | with_reducible apply emitUp_keeps
    | with_reducible apply logEnum_keeps
    | with_reducible apply modSkid_keeps
    | intro _
    | split)

theorem execEnumReply_keeps {ms : Nat} {r0 : State} {err : BitVec 3} {n : BitVec 3} {s : State} (hM : Sub 3673618 ms) (hK : Keeps ms r0 s) :
    KeepsO ms r0 (execEnumReply err n s) := by
  unfold execEnumReply
  try dsimp only
  repeat' (first
    | with_reducible assumption
    | exact hM.trans rfl
    | with_reducible apply keepsO_next
    | with_reducible apply endEnum_keeps
    | with_reducible apply passReply_keeps
    | with_reducible apply keepsO_fault
    | split
    | intro _
    | split)

theorem execEnumTimeout_keeps {ms : Nat} {r0 : State} {replied : BitVec 3} {s : State} (hM : Sub 3673619 ms) (hK : Keeps ms r0 s) :
    KeepsO ms r0 (execEnumTimeout replied s) := by
  unfold execEnumTimeout
  try dsimp only
  repeat' (first
    | with_reducible assumption
    | exact hM.trans rfl
    | with_reducible apply keepsO_next
    | with_reducible apply endEnum_keeps
    | with_reducible apply timeTo_keeps
    | with_reducible apply keepsO_fault
    | split
    | intro _
    | split)

theorem execNoManager_keeps {ms : Nat} {r0 : State} {s : State} (hM : Sub 526865 ms) (hK : Keeps ms r0 s) :
    KeepsO ms r0 (execNoManager s) := by
  unfold execNoManager
  try dsimp only
  repeat' (first
    | with_reducible assumption
    | exact hM.trans rfl
    | with_reducible apply keepsO_next
    | with_reducible apply modSkid_keeps
    | with_reducible apply logFrom_keeps
    | with_reducible apply timeTo_keeps
    | with_reducible apply keepsO_fault
    | split
    | intro _
    | split)

theorem execHeartbeatSend_keeps {ms : Nat} {r0 : State} {s : State} (hM : Sub 1574913 ms) (hK : Keeps ms r0 s) :
    KeepsO ms r0 (execHeartbeatSend s) := by
  unfold execHeartbeatSend
  try dsimp only
  repeat' (first
    | with_reducible assumption
    | exact hM.trans rfl
    | with_reducible apply keepsO_next
    | with_reducible apply modSkid_keeps
    | with_reducible apply etTo_keeps
    | with_reducible apply emitUp_keeps
    | with_reducible apply keepsO_fault
    | split
    | intro _
    | split)

theorem execHeartbeatFrame_keeps {ms : Nat} {r0 : State} {k : Nat} {running : List (BitVec 9)} {s : State} (hM : Sub 1572864 ms) (hK : Keeps ms r0 s) :
    KeepsO ms r0 (execHeartbeatFrame k running s) := by
  unfold execHeartbeatFrame
  try dsimp only
  repeat' (first
    | with_reducible assumption
    | exact hM.trans rfl
    | with_reducible apply keepsO_next
    | with_reducible apply modSkid_keeps
    | with_reducible apply emitUp_keeps
    | with_reducible apply keepsO_fault
    | split
    | intro _
    | split)

theorem execEchoFrame_keeps {ms : Nat} {r0 : State} {d : Fin 8} {k : Nat} {s : State} (hM : Sub 1572864 ms) (hK : Keeps ms r0 s) :
    KeepsO ms r0 (execEchoFrame d k s) := by
  unfold execEchoFrame
  try dsimp only
  repeat' (first
    | with_reducible assumption
    | exact hM.trans rfl
    | with_reducible apply keepsO_next
    | with_reducible apply modSkid_keeps
    | with_reducible apply emitUp_keeps
    | with_reducible apply keepsO_fault
    | split
    | intro _
    | split)

theorem partLoss_keeps {ms : Nat} {r0 : State} {p : Nat → Bool} {s : State} (hM : Sub 2092602 ms) (hK : Keeps ms r0 s) :
    Keeps ms r0 (partLoss p s) := by
  unfold partLoss
  try dsimp only
  repeat' (first
    | with_reducible assumption
    | exact hM.trans rfl
    | with_reducible apply driveEnter_keeps
    | with_reducible apply modAon_keeps
    | with_reducible apply modSkid_keeps
    | with_reducible apply workerCut_keeps
    | intro _
    | split)

theorem execHeartbeatMiss_keeps {ms : Nat} {r0 : State} {s : State} (hM : Sub 2092603 ms) (hK : Keeps ms r0 s) :
    KeepsO ms r0 (execHeartbeatMiss s) := by
  unfold execHeartbeatMiss
  try dsimp only
  repeat' (first
    | with_reducible assumption
    | exact hM.trans rfl
    | with_reducible apply keepsO_next
    | with_reducible apply etTo_keeps
    | with_reducible apply modSkid_keeps
    | with_reducible apply partLoss_keeps
    | with_reducible apply keepsO_fault
    | split
    | intro _
    | split)

theorem winLost_keeps {ms : Nat} {r0 : State} {m : BitVec 8} {s : State} (hM : Sub 524288 ms) (hK : Keeps ms r0 s) :
    Keeps ms r0 (winLost m s) := by
  unfold winLost
  try dsimp only
  repeat' (first
    | with_reducible assumption
    | exact hM.trans rfl
    | with_reducible apply modSkid_keeps
    | intro _
    | split)

theorem loseRecords_keeps {ms : Nat} {r0 : State} {m : BitVec 8} {s : State} (hM : Sub 2098178 ms) (hK : Keeps ms r0 s) :
    Keeps ms r0 (loseRecords m s) := by
  unfold loseRecords
  try dsimp only
  repeat' (first
    | with_reducible assumption
    | exact hM.trans rfl
    | with_reducible apply modHost_keeps
    | with_reducible apply modAon_keeps
    | with_reducible apply useFree_keeps
    | intro _
    | split)

theorem loseWorkers_keeps {ms : Nat} {r0 : State} {m : BitVec 8} {s : State} (hM : Sub 4189754 ms) (hK : Keeps ms r0 s) :
    Keeps ms r0 (loseWorkers m s) := by
  unfold loseWorkers
  try dsimp only
  repeat' (first
    | with_reducible assumption
    | exact hM.trans rfl
    | with_reducible apply setLive_keeps
    | with_reducible apply winLost_keeps
    | with_reducible apply loseRecords_keeps
    | with_reducible apply modSkid_keeps
    | with_reducible apply engine_keeps
    | with_reducible apply partLoss_keeps
    | with_reducible apply formCheck_keeps
    | with_reducible apply modAon_keeps
    | intro _
    | split)

theorem execEchoMiss_keeps {ms : Nat} {r0 : State} {d : Fin 8} {s : State} (hM : Sub 4189755 ms) (hK : Keeps ms r0 s) :
    KeepsO ms r0 (execEchoMiss d s) := by
  unfold execEchoMiss
  try dsimp only
  repeat' (first
    | with_reducible assumption
    | exact hM.trans rfl
    | with_reducible apply keepsO_next
    | with_reducible apply etTo_keeps
    | with_reducible apply modSkid_keeps
    | with_reducible apply loseWorkers_keeps
    | with_reducible apply keepsO_fault
    | split
    | intro _
    | split)

theorem execTsyncFrame_keeps {ms : Nat} {r0 : State} {et16 : Nat} {s : State} (hM : Sub 1572864 ms) (hK : Keeps ms r0 s) :
    KeepsO ms r0 (execTsyncFrame et16 s) := by
  unfold execTsyncFrame
  try dsimp only
  repeat' (first
    | with_reducible assumption
    | exact hM.trans rfl
    | with_reducible apply keepsO_next
    | with_reducible apply emitUp_keeps
    | with_reducible apply modSkid_keeps
    | with_reducible apply keepsO_fault
    | split
    | intro _
    | split)

theorem execTsyncAcquired_keeps {ms : Nat} {r0 : State} {s : State} (hM : Sub 526337 ms) (hK : Keeps ms r0 s) :
    KeepsO ms r0 (execTsyncAcquired s) := by
  unfold execTsyncAcquired
  try dsimp only
  repeat' (first
    | with_reducible assumption
    | exact hM.trans rfl
    | with_reducible apply keepsO_next
    | with_reducible apply modSkid_keeps
    | with_reducible apply timeTo_keeps
    | with_reducible apply keepsO_fault
    | split
    | intro _
    | split)

theorem execCPartClear_keeps {ms : Nat} {r0 : State} {s : State} (hM : Sub 2051 ms) (hK : Keeps ms r0 s) :
    KeepsO ms r0 (execCPartClear s) := by
  unfold execCPartClear
  try dsimp only
  repeat' (first
    | with_reducible assumption
    | exact hM.trans rfl
    | with_reducible apply keepsO_next
    | with_reducible apply noteDrive_keeps
    | with_reducible apply modAon_keeps
    | with_reducible apply timeTo_keeps
    | with_reducible apply keepsO_fault
    | split
    | intro _
    | split)

theorem execSkidCmdFrame_keeps {ms : Nat} {r0 : State} {e : List Byte} {s : State} (hM : Sub 3911170 ms) (hK : Keeps ms r0 s) :
    KeepsO ms r0 (execSkidCmdFrame e s) := by
  unfold execSkidCmdFrame
  try dsimp only
  repeat' (first
    | with_reducible assumption
    | exact hM.trans rfl
    | with_reducible apply keepsO_next
    | (refine runCmd_keeps (hM.trans rfl) ?_ (by assumption); split <;> first | exact hK | exact useFree_keeps (hM.trans rfl) hK)
    | with_reducible apply useFree_keeps
    | with_reducible apply ackTo_keeps
    | with_reducible apply relay_keeps
    | with_reducible apply keepsO_fault
    | split
    | intro _
    | split)

theorem dirFollow_keeps {ms : Nat} {r0 : State} {r : Rec} {s : State} (hM : Sub 524288 ms) (hK : Keeps ms r0 s) :
    Keeps ms r0 (dirFollow r s) := by
  unfold dirFollow
  try dsimp only
  repeat' (first
    | with_reducible assumption
    | exact hM.trans rfl
    | with_reducible apply modSkid_keeps
    | intro _
    | split)

theorem execSkidRecordFrame_keeps {ms : Nat} {r0 : State} {d : Fin 8} {rec : List Byte} {s : State} (hM : Sub 1576450 ms) (hK : Keeps ms r0 s) :
    KeepsO ms r0 (execSkidRecordFrame d rec s) := by
  unfold execSkidRecordFrame
  try dsimp only
  repeat' (first
    | with_reducible assumption
    | exact hM.trans rfl
    | with_reducible apply keepsO_next
    | with_reducible apply post_keeps
    | with_reducible apply dirFollow_keeps
    | with_reducible apply relay_keeps
    | with_reducible apply keepsO_fault
    | split
    | intro _
    | split)

theorem sigArrive_keeps {ms : Nat} {r0 : State} {src : BitVec 9} {c : Chan} {code : Byte} {payload : Word} {s : State} (hM : Sub 1575424 ms) (hK : Keeps ms r0 s) :
    Keeps ms r0 (sigArrive src c code payload s) := by
  unfold sigArrive
  try dsimp only
  repeat' (first
    | with_reducible assumption
    | exact hM.trans rfl
    | with_reducible apply ackTo_keeps
    | with_reducible apply modSkid_keeps
    | with_reducible apply takeTally_keeps
    | with_reducible apply modCh_keeps
    | exact fun (_ : Channel) g => g
    | intro _
    | split)

theorem execSkidSigFrame_keeps {ms : Nat} {r0 : State} {src : BitVec 9} {target : BitVec 9} {code : Byte} {payload : Word} {s : State} (hM : Sub 1575424 ms) (hK : Keeps ms r0 s) :
    KeepsO ms r0 (execSkidSigFrame src target code payload s) := by
  unfold execSkidSigFrame
  try dsimp only
  repeat' (first
    | with_reducible assumption
    | exact hM.trans rfl
    | with_reducible apply keepsO_next
    | with_reducible apply sigArrive_keeps
    | with_reducible apply relay_keeps
    | with_reducible apply keepsO_fault
    | split
    | intro _
    | split)

theorem execSkidBusmasterFrame_keeps {ms : Nat} {r0 : State} {d : Fin 8} {write : Bool} {addr : DWord} {n : Nat} {data : Option (List Byte)} {s : State} (hM : Sub 1573376 ms) (hK : Keeps ms r0 s) :
    KeepsO ms r0 (execSkidBusmasterFrame d write addr n data s) := by
  unfold execSkidBusmasterFrame
  try dsimp only
  repeat' (first
    | with_reducible assumption
    | exact hM.trans rfl
    | with_reducible apply keepsO_next
    | with_reducible apply ackTo_keeps
    | with_reducible apply emit_keeps
    | with_reducible apply sendSkid_keeps
    | with_reducible apply aerLog_keeps
    | with_reducible apply relay_keeps
    | with_reducible apply keepsO_fault
    | split
    | intro _
    | split)

theorem winCtlWrite_keeps {ms : Nat} {r0 : State} {v : Word} {s : State} (hM : Sub 1573376 ms) (hK : Keeps ms r0 s) :
    Keeps ms r0 (winCtlWrite v s) := by
  unfold winCtlWrite
  try dsimp only
  repeat' (first
    | with_reducible assumption
    | exact hM.trans rfl
    | with_reducible apply modSkid_keeps
    | with_reducible apply sendSkid_keeps
    | intro _
    | split)

theorem execSkidWinGo_keeps {ms : Nat} {r0 : State} {v : Word} {s : State} (hM : Sub 1573376 ms) (hK : Keeps ms r0 s) :
    KeepsO ms r0 (execSkidWinGo v s) := by
  unfold execSkidWinGo
  try dsimp only
  repeat' (first
    | with_reducible assumption
    | exact hM.trans rfl
    | with_reducible apply keepsO_next
    | with_reducible apply whenS_keeps
    | with_reducible apply winCtlWrite_keeps
    | with_reducible apply keepsO_fault
    | split
    | intro _
    | split)

theorem execSkidWinReply_keeps {ms : Nat} {r0 : State} {data : Word} {err : Byte} {s : State} (hM : Sub 1572864 ms) (hK : Keeps ms r0 s) :
    KeepsO ms r0 (execSkidWinReply data err s) := by
  unfold execSkidWinReply
  try dsimp only
  repeat' (first
    | with_reducible assumption
    | exact hM.trans rfl
    | with_reducible apply keepsO_next
    | with_reducible apply ackTo_keeps
    | with_reducible apply modSkid_keeps
    | with_reducible apply keepsO_fault
    | split
    | intro _
    | split)

theorem execSkidRecoverFrame_keeps {ms : Nat} {r0 : State} {epoch : BitVec 16} {disarm : Bool} {discard : Bool} {s : State} (hM : Sub 3911298 ms) (hK : Keeps ms r0 s) :
    KeepsO ms r0 (execSkidRecoverFrame epoch disarm discard s) := by
  unfold execSkidRecoverFrame
  try dsimp only
  repeat' (first
    | with_reducible assumption
    | exact hM.trans rfl
    | with_reducible apply keepsO_next
    | with_reducible apply recoverAt_keeps
    | with_reducible apply ackTo_keeps
    | with_reducible apply keepsO_fault
    | split
    | intro _
    | split)

theorem execSkidRecoverDone_keeps {ms : Nat} {r0 : State} {d : Fin 8} {s : State} (hM : Sub 1574400 ms) (hK : Keeps ms r0 s) :
    KeepsO ms r0 (execSkidRecoverDone d s) := by
  unfold execSkidRecoverDone
  try dsimp only
  repeat' (first
    | with_reducible assumption
    | exact hM.trans rfl
    | with_reducible apply keepsO_next
    | with_reducible apply modHost_keeps
    | with_reducible apply ackTo_keeps
    | with_reducible apply relay_keeps
    | with_reducible apply keepsO_fault
    | split
    | intro _
    | split)

theorem execSkidPowerFrame_keeps {ms : Nat} {r0 : State} {code : BitVec 4} {s : State} (hM : Sub 1814074 ms) (hK : Keeps ms r0 s) :
    KeepsO ms r0 (execSkidPowerFrame code s) := by
  unfold execSkidPowerFrame
  try dsimp only
  repeat' (first
    | with_reducible assumption
    | exact hM.trans rfl
    | with_reducible apply keepsO_next
    | with_reducible apply seqCmdWrite_keeps
    | with_reducible apply ackTo_keeps
    | with_reducible apply keepsO_fault
    | split
    | intro _
    | split)

theorem execSkidOffReport_keeps {ms : Nat} {r0 : State} {d : Fin 8} {s : State} (hM : Sub 1576466 ms) (hK : Keeps ms r0 s) :
    KeepsO ms r0 (execSkidOffReport d s) := by
  unfold execSkidOffReport
  try dsimp only
  repeat' (first
    | with_reducible assumption
    | exact hM.trans rfl
    | with_reducible apply keepsO_next
    | with_reducible apply formCheck_keeps
    | with_reducible apply modAon_keeps
    | with_reducible apply ackTo_keeps
    | with_reducible apply relay_keeps
    | with_reducible apply offReport_keeps
    | with_reducible apply keepsO_fault
    | split
    | intro _
    | split)

theorem execWorkerOffTimeout_keeps {ms : Nat} {r0 : State} {s : State} (hM : Sub 1576467 ms) (hK : Keeps ms r0 s) :
    KeepsO ms r0 (execWorkerOffTimeout s) := by
  unfold execWorkerOffTimeout
  try dsimp only
  repeat' (first
    | with_reducible assumption
    | exact hM.trans rfl
    | with_reducible apply keepsO_next
    | with_reducible apply formCheck_keeps
    | with_reducible apply modAon_keeps
    | with_reducible apply timeTo_keeps
    | with_reducible apply keepsO_fault
    | split
    | intro _
    | split)

end Sys2Proof.Machine
end

