-- ==== Sys2Proof/Laws/KeepsRegAon.lean ====
section
/-!
SUPPORT. Machine/RegAon.lean: each operation keeps what no command takes back (Laws/Keeps.lean).
-/

namespace Sys2Proof.Machine

set_option linter.all false

theorem unlocked_keeps {ms : Nat} {r0 : State} {f : State → State} {s : State} (hf : ∀  s, Keeps ms r0 s → Keeps ms r0 (f  s)) (_hM : Sub 0 ms) (hK : Keeps ms r0 s) :
    Keeps ms r0 (unlocked f s) := by
  unfold unlocked
  try dsimp only
  repeat' (first
    | with_reducible assumption
    | with_reducible apply hf
    | intro _
    | split)

theorem flMinWrite_keeps {ms : Nat} {r0 : State} {v : Word} {s : State} (hM : Sub 512 ms) (hK : Keeps ms r0 s) :
    Keeps ms r0 (flMinWrite v s) := by
  unfold flMinWrite
  try dsimp only
  repeat' (first
    | with_reducible assumption
    | exact hM.trans rfl
    | with_reducible apply modFl_keeps
    | intro _
    | split)

theorem writeGlb_keeps {ms : Nat} {r0 : State} {o : Nat} {v : Word} {s : State} (hM : Sub 832 ms) (hK : Keeps ms r0 s) :
    Keeps ms r0 (writeGlb o v s) := by
  unfold writeGlb
  try dsimp only
  repeat' (first
    | with_reducible assumption
    | exact hM.trans rfl
    | with_reducible apply flMinWrite_keeps
    | exact fun (_ : State.lock _ = true) => rfl
    | exact fun (g : State.lock _ = true) => by simp [g]
    | intro _
    | split
    | with_reducible apply keeps_flSel
    | with_reducible apply keeps_lock)

theorem safeWrite_keeps {ms : Nat} {r0 : State} {v : Word} {s : State} (hM : Sub 1568274 ms) (hK : Keeps ms r0 s) :
    Keeps ms r0 (safeWrite v s) := by
  unfold safeWrite
  try dsimp only
  repeat' (first
    | with_reducible assumption
    | exact hM.trans rfl
    | with_reducible apply modAon_keeps
    | with_reducible apply safeAssertOp_keeps
    | with_reducible apply safeReleaseOp_keeps
    | intro _
    | split)

theorem faultsClear_keeps {ms : Nat} {r0 : State} {m : BitVec 28} {s : State} (hM : Sub 2 ms) (hK : Keeps ms r0 s) :
    Keeps ms r0 (faultsClear m s) := by
  unfold faultsClear
  try dsimp only
  repeat' (first
    | with_reducible assumption
    | exact hM.trans rfl
    | with_reducible apply noteDrive_keeps
    | with_reducible apply forEach_keeps
    | with_reducible apply modAon_keeps
    | with_reducible apply setItem_keeps
    | intro _
    | split)

theorem autoOnWrite_keeps {ms : Nat} {r0 : State} {b : Bool} {s : State} (hM : Sub 10 ms) (hK : Keeps ms r0 s) :
    Keeps ms r0 (autoOnWrite b s) := by
  unfold autoOnWrite
  try dsimp only
  repeat' (first
    | with_reducible assumption
    | exact hM.trans rfl
    | with_reducible apply nvPut_keeps
    | with_reducible apply modAon_keeps
    | intro _
    | split)

theorem scCfgWrite_keeps {ms : Nat} {r0 : State} {v : Word} {s : State} (hM : Sub 10 ms) (hK : Keeps ms r0 s) :
    Keeps ms r0 (scCfgWrite v s) := by
  unfold scCfgWrite
  try dsimp only
  repeat' (first
    | with_reducible assumption
    | exact hM.trans rfl
    | with_reducible apply nvPut_keeps
    | with_reducible apply modAon_keeps
    | intro _
    | split)

theorem scCfg2Write_keeps {ms : Nat} {r0 : State} {v : Word} {s : State} (hM : Sub 10 ms) (hK : Keeps ms r0 s) :
    Keeps ms r0 (scCfg2Write v s) := by
  unfold scCfg2Write
  try dsimp only
  repeat' (first
    | with_reducible assumption
    | exact hM.trans rfl
    | with_reducible apply nvPut_keeps
    | with_reducible apply modAon_keeps
    | intro _
    | split)

theorem writeSeq_keeps {ms : Nat} {r0 : State} {o : Nat} {v : Word} {s : State} (hM : Sub 2092602 ms) (hK : Keeps ms r0 s) :
    Keeps ms r0 (writeSeq o v s) := by
  unfold writeSeq
  try dsimp only
  repeat' (first
    | with_reducible assumption
    | exact hM.trans rfl
    | with_reducible apply modRail_keeps
    | with_reducible apply modDom_keeps
    | with_reducible apply safeWrite_keeps
    | with_reducible apply modAon_keeps
    | with_reducible apply seqCmdWrite_keeps
    | with_reducible apply faultsClear_keeps
    | with_reducible apply autoOnWrite_keeps
    | with_reducible apply unlocked_keeps
    | with_reducible apply scCfgWrite_keeps
    | with_reducible apply scCfg2Write_keeps
    | intro _
    | split)

theorem tbWrite_keeps {ms : Nat} {r0 : State} {v : Vector Byte 7} {s : State} (hM : Sub 4 ms) (hK : Keeps ms r0 s) :
    Keeps ms r0 (tbWrite v s) := by
  unfold tbWrite
  try dsimp only
  repeat' (first
    | with_reducible assumption
    | exact hM.trans rfl
    | with_reducible apply modTherm_keeps
    | intro _
    | split)

theorem writeTherm_keeps {ms : Nat} {r0 : State} {o : Nat} {v : Word} {s : State} (hM : Sub 4 ms) (hK : Keeps ms r0 s) :
    Keeps ms r0 (writeTherm o v s) := by
  unfold writeTherm
  try dsimp only
  repeat' (first
    | with_reducible assumption
    | exact hM.trans rfl
    | with_reducible apply modTherm_keeps
    | with_reducible apply unlocked_keeps
    | with_reducible apply tbWrite_keeps
    | intro _
    | split)

theorem logModeWrite_keeps {ms : Nat} {r0 : State} {m : BitVec 4} {s : State} (hM : Sub 24 ms) (hK : Keeps ms r0 s) :
    Keeps ms r0 (logModeWrite m s) := by
  unfold logModeWrite
  try dsimp only
  repeat' (first
    | with_reducible assumption
    | exact hM.trans rfl
    | with_reducible apply nvPut_keeps
    | with_reducible apply modLg_keeps
    | intro _
    | split)

theorem writeLog_keeps {ms : Nat} {r0 : State} {o : Nat} {v : Word} {s : State} (hM : Sub 270872 ms) (hK : Keeps ms r0 s) :
    Keeps ms r0 (writeLog o v s) := by
  unfold writeLog
  try dsimp only
  repeat' (first
    | with_reducible assumption
    | exact hM.trans rfl
    | with_reducible apply unlocked_keeps
    | with_reducible apply logModeWrite_keeps
    | with_reducible apply modLg_keeps
    | with_reducible apply logReadoutOp_keeps
    | with_reducible apply exportStart_keeps
    | intro _
    | split)

theorem writeAon_keeps {ms : Nat} {r0 : State} {o : Nat} {v : Word} {s : State} (hM : Sub 2092606 ms) (hK : Keeps ms r0 s) :
    Keeps ms r0 (writeAon o v s) := by
  unfold writeAon
  try dsimp only
  repeat' (first
    | with_reducible assumption
    | exact hM.trans rfl
    | with_reducible apply writeSeq_keeps
    | with_reducible apply writeTherm_keeps
    | with_reducible apply writeLog_keeps
    | with_reducible apply modAon_keeps
    | intro _
    | split)

theorem readAonEff_keeps {ms : Nat} {r0 : State} {o : Nat} {s : State} (hM : Sub 8 ms) (hK : Keeps ms r0 s) :
    Keeps ms r0 (readAonEff o s) := by
  unfold readAonEff
  try dsimp only
  repeat' (first
    | with_reducible assumption
    | exact hM.trans rfl
    | with_reducible apply modStream_keeps
    | intro _
    | split)

theorem bootCtlWrite_keeps {ms : Nat} {r0 : State} {v : Word} {s : State} (hM : Sub 4193850 ms) (hK : Keeps ms r0 s) :
    Keeps ms r0 (bootCtlWrite v s) := by
  unfold bootCtlWrite
  try dsimp only
  repeat' (first
    | with_reducible assumption
    | exact hM.trans rfl
    | with_reducible apply bootOkOp_keeps
    | with_reducible apply ldieDoneOp_keeps
    | with_reducible apply imageCut_keeps
    | with_reducible apply bootRestartOp_keeps
    | intro _
    | split)

theorem bootCfgWrite_keeps {ms : Nat} {r0 : State} {v : Word} {s : State} (hM : Sub 40 ms) (hK : Keeps ms r0 s) :
    Keeps ms r0 (bootCfgWrite v s) := by
  unfold bootCfgWrite
  try dsimp only
  repeat' (first
    | with_reducible assumption
    | exact hM.trans rfl
    | with_reducible apply nvPut_keeps
    | with_reducible apply modBoot_keeps
    | exact fun (_ : Boot) _ _ g => g
    | intro _
    | split)

theorem writeBoot_keeps {ms : Nat} {r0 : State} {o : Nat} {v : Word} {s : State} (hM : Sub 4193850 ms) (hK : Keeps ms r0 s) :
    Keeps ms r0 (writeBoot o v s) := by
  unfold writeBoot
  try dsimp only
  repeat' (first
    | with_reducible assumption
    | exact hM.trans rfl
    | with_reducible apply bootCtlWrite_keeps
    | with_reducible apply unlocked_keeps
    | with_reducible apply bootCfgWrite_keeps
    | with_reducible apply modBoot_keeps
    | with_reducible apply loadCtlWrite_keeps
    | with_reducible apply rbAdvanceOp_keeps
    | with_reducible apply otpProgOp_keeps
    | exact fun (_ : Boot) _ _ g => g
    | intro _
    | split)

end Sys2Proof.Machine
end

