-- ==== Sys2Proof/Laws/KeepsRegHost.lean ====
section
/-!
SUPPORT. Machine/RegHost.lean: each operation keeps what no command takes back (Laws/Keeps.lean).
-/

namespace Sys2Proof.Machine

set_option linter.all false

theorem ringBase_keeps {ms : Nat} {r0 : State} {r : Ring} {hi : Bool} {v : Word} {s : State} (hM : Sub 1024 ms) (hK : Keeps ms r0 s) :
    Keeps ms r0 (ringBase r hi v s) := by
  unfold ringBase
  try dsimp only
  repeat' (first
    | with_reducible assumption
    | exact hM.trans rfl
    | with_reducible apply modRing_keeps
    | intro _
    | split)

theorem writeRing_keeps {ms : Nat} {r0 : State} {r : Ring} {k : Nat} {v : Word} {s : State} (hM : Sub 1050112 ms) (hK : Keeps ms r0 s) :
    Keeps ms r0 (writeRing r k v s) := by
  unfold writeRing
  try dsimp only
  repeat' (first
    | with_reducible assumption
    | exact hM.trans rfl
    | with_reducible apply ringBase_keeps
    | with_reducible apply ringCfgWrite_keeps
    | with_reducible apply ringTailWrite_keeps
    | with_reducible apply modRing_keeps
    | intro _
    | split)

theorem cpqBase_keeps {ms : Nat} {r0 : State} {hi : Bool} {v : Word} {s : State} (hM : Sub 1024 ms) (hK : Keeps ms r0 s) :
    Keeps ms r0 (cpqBase hi v s) := by
  unfold cpqBase
  try dsimp only
  repeat' (first
    | with_reducible assumption
    | exact hM.trans rfl
    | with_reducible apply modRegs_keeps
    | intro _
    | split)

theorem writeHost_keeps {ms : Nat} {r0 : State} {o : Nat} {v : Word} {s : State} (hM : Sub 3911298 ms) (hK : Keeps ms r0 s) :
    Keeps ms r0 (writeHost o v s) := by
  unfold writeHost
  try dsimp only
  repeat' (first
    | with_reducible assumption
    | exact hM.trans rfl
    | with_reducible apply writeRing_keeps
    | with_reducible apply modRegs_keeps
    | with_reducible apply recoverWrite_keeps
    | with_reducible apply cpqBase_keeps
    | with_reducible apply cpqCfgWrite_keeps
    | intro _
    | split)

theorem writeMem_keeps {ms : Nat} {r0 : State} {o : Nat} {v : Word} {s : State} (hM : Sub 4096 ms) (hK : Keeps ms r0 s) :
    Keeps ms r0 (writeMem o v s) := by
  unfold writeMem
  try dsimp only
  repeat' (first
    | with_reducible assumption
    | exact hM.trans rfl
    | with_reducible apply arbWrite_keeps
    | with_reducible apply modMem_keeps
    | with_reducible apply memInitOp_keeps
    | with_reducible apply copyCtl_keeps
    | with_reducible apply arbCtl_keeps
    | exact fun (_ : MemS) g => by unfold memCfgWrite; split <;> exact g
    | exact fun (_ : MemS) g => g
    | intro _
    | split)

theorem readMemEff_keeps {ms : Nat} {r0 : State} {o : Nat} {s : State} (hM : Sub 4096 ms) (hK : Keeps ms r0 s) :
    Keeps ms r0 (readMemEff o s) := by
  unfold readMemEff
  try dsimp only
  repeat' (first
    | with_reducible assumption
    | exact hM.trans rfl
    | with_reducible apply modMem_keeps
    | exact fun (_ : MemS) g => g
    | intro _
    | split)

theorem ctBaseWrite_keeps {ms : Nat} {r0 : State} {hi : Bool} {v : Word} {s : State} (hM : Sub 2048 ms) (hK : Keeps ms r0 s) :
    Keeps ms r0 (ctBaseWrite hi v s) := by
  unfold ctBaseWrite
  try dsimp only
  repeat' (first
    | with_reducible assumption
    | exact hM.trans rfl
    | with_reducible apply modCue_keeps
    | exact fun (_ : Cue) g => g
    | intro _
    | split)

theorem writeCue_keeps {ms : Nat} {r0 : State} {o : Nat} {v : Word} {s : State} (hM : Sub 2048 ms) (hK : Keeps ms r0 s) :
    Keeps ms r0 (writeCue o v s) := by
  unfold writeCue
  try dsimp only
  repeat' (first
    | with_reducible assumption
    | exact hM.trans rfl
    | with_reducible apply ctBaseWrite_keeps
    | with_reducible apply modCue_keeps
    | with_reducible apply jamClear_keeps
    | exact fun (_ : Cue) g => g
    | intro _
    | split)

theorem trkPut_keeps {ms : Nat} {r0 : State} {t : Trk} {f : Tracker → Tracker} {s : State} (hM : Sub 2048 ms) (hK : Keeps ms r0 s) :
    Keeps ms r0 (trkPut t f s) := by
  unfold trkPut
  try dsimp only
  repeat' (first
    | with_reducible assumption
    | exact hM.trans rfl
    | with_reducible apply modTrk_keeps
    | intro _
    | split)

theorem writeTrk_keeps {ms : Nat} {r0 : State} {t : Trk} {r : Nat} {v : Word} {s : State} (hM : Sub 1306130 ms) (hK : Keeps ms r0 s) :
    Keeps ms r0 (writeTrk t r v s) := by
  unfold writeTrk
  try dsimp only
  repeat' (first
    | with_reducible assumption
    | exact hM.trans rfl
    | with_reducible apply trkCfgWrite_keeps
    | with_reducible apply trkPut_keeps
    | with_reducible apply trkGuardWrite_keeps
    | with_reducible apply trkCtlWrite_keeps
    | with_reducible apply modTrk_keeps
    | intro _
    | split)

theorem writeTime_keeps {ms : Nat} {r0 : State} {o : Nat} {v : Word} {s : State} (hM : Sub 1306130 ms) (hK : Keeps ms r0 s) :
    Keeps ms r0 (writeTime o v s) := by
  unfold writeTime
  try dsimp only
  repeat' (first
    | with_reducible assumption
    | exact hM.trans rfl
    | with_reducible apply writeTrk_keeps
    | with_reducible apply modCue_keeps
    | exact fun (_ : Cue) g => g
    | intro _
    | split)

theorem readTimeEff_keeps {ms : Nat} {r0 : State} {o : Nat} {s : State} (hM : Sub 2048 ms) (hK : Keeps ms r0 s) :
    Keeps ms r0 (readTimeEff o s) := by
  unfold readTimeEff
  try dsimp only
  repeat' (first
    | with_reducible assumption
    | exact hM.trans rfl
    | with_reducible apply modTrk_keeps
    | with_reducible apply modCue_keeps
    | exact fun (_ : Cue) g => g
    | intro _
    | split)

end Sys2Proof.Machine
end

