-- ==== Sys2Proof/Laws/KeepsRegEng.lean ====
section
/-!
SUPPORT. Machine/RegEng.lean: each operation keeps what no command takes back (Laws/Keeps.lean).
-/

namespace Sys2Proof.Machine

set_option linter.all false

theorem writeTamp_keeps {ms : Nat} {r0 : State} {o : Nat} {v : Word} {s : State} (hM : Sub 8192 ms) (hK : Keeps ms r0 s) :
    Keeps ms r0 (writeTamp o v s) := by
  unfold writeTamp
  try dsimp only
  repeat' (first
    | with_reducible assumption
    | exact hM.trans rfl
    | with_reducible apply modRast_keeps
    | with_reducible apply genGo_keeps
    | exact fun (_ : Rast) g => g
    | intro _
    | split)

theorem readTampEff_keeps {ms : Nat} {r0 : State} {o : Nat} {s : State} (hM : Sub 8192 ms) (hK : Keeps ms r0 s) :
    Keeps ms r0 (readTampEff o s) := by
  unfold readTampEff
  try dsimp only
  repeat' (first
    | with_reducible assumption
    | exact hM.trans rfl
    | with_reducible apply modRast_keeps
    | exact fun (_ : Rast) g => g
    | intro _
    | split)

theorem writeRast_keeps {ms : Nat} {r0 : State} {o : Nat} {v : Word} {s : State} (hM : Sub 8704 ms) (hK : Keeps ms r0 s) :
    Keeps ms r0 (writeRast o v s) := by
  unfold writeRast
  try dsimp only
  repeat' (first
    | with_reducible assumption
    | exact hM.trans rfl
    | with_reducible apply landWrite_keeps
    | with_reducible apply modRast_keeps
    | exact fun (_ : Rast) g => g
    | intro _
    | split)

theorem readRastEff_keeps {ms : Nat} {r0 : State} {o : Nat} {s : State} (hM : Sub 1060370 ms) (hK : Keeps ms r0 s) :
    Keeps ms r0 (readRastEff o s) := by
  unfold readRastEff
  try dsimp only
  repeat' (first
    | with_reducible assumption
    | exact hM.trans rfl
    | with_reducible apply modRast_keeps
    | with_reducible apply landUe_keeps
    | exact fun (_ : Rast) g => g
    | intro _
    | split)

theorem stnCfg_keeps {ms : Nat} {r0 : State} {n : Station} {f : BeamCfg → BeamCfg} {s : State} (hM : Sub 16384 ms) (hK : Keeps ms r0 s) :
    Keeps ms r0 (stnCfg n f s) := by
  unfold stnCfg
  try dsimp only
  repeat' (first
    | with_reducible assumption
    | exact hM.trans rfl
    | with_reducible apply modStn_keeps
    | intro _
    | split)

theorem writeStn_keeps {ms : Nat} {r0 : State} {n : Station} {k : Nat} {v : Word} {s : State} (hM : Sub 1306114 ms) (hK : Keeps ms r0 s) :
    Keeps ms r0 (writeStn n k v s) := by
  unfold writeStn
  try dsimp only
  repeat' (first
    | with_reducible assumption
    | exact hM.trans rfl
    | with_reducible apply beamCmd_keeps
    | with_reducible apply modStn_keeps
    | with_reducible apply stnCfg_keeps
    | intro _
    | split)

theorem writeBeamWord_keeps {ms : Nat} {r0 : State} {n : Station} {b : Beam} {word : Bool} {v : Word} {s : State} (hM : Sub 16384 ms) (hK : Keeps ms r0 s) :
    Keeps ms r0 (writeBeamWord n b word v s) := by
  unfold writeBeamWord
  try dsimp only
  repeat' (first
    | with_reducible assumption
    | exact hM.trans rfl
    | with_reducible apply modStn_keeps
    | intro _
    | split)

theorem writeBeam_keeps {ms : Nat} {r0 : State} {o : Nat} {v : Word} {s : State} (hM : Sub 1306114 ms) (hK : Keeps ms r0 s) :
    Keeps ms r0 (writeBeam o v s) := by
  unfold writeBeam
  try dsimp only
  repeat' (first
    | with_reducible assumption
    | exact hM.trans rfl
    | with_reducible apply writeStn_keeps
    | with_reducible apply writeBeamWord_keeps
    | with_reducible apply withPoly_keeps
    | intro _
    | split
    | with_reducible apply keeps_beam)

theorem readBeamEff_keeps {ms : Nat} {r0 : State} {o : Nat} {s : State} (hM : Sub 16384 ms) (hK : Keeps ms r0 s) :
    Keeps ms r0 (readBeamEff o s) := by
  unfold readBeamEff
  try dsimp only
  repeat' (first
    | with_reducible assumption
    | exact hM.trans rfl
    | with_reducible apply modStn_keeps
    | intro _
    | split)

theorem stepCfgWrite_keeps {ms : Nat} {r0 : State} {n : Fin 16} {v : Word} {s : State} (hM : Sub 32768 ms) (hK : Keeps ms r0 s) :
    Keeps ms r0 (stepCfgWrite n v s) := by
  unfold stepCfgWrite
  try dsimp only
  repeat' (first
    | with_reducible assumption
    | exact hM.trans rfl
    | with_reducible apply modStep_keeps
    | with_reducible apply motErr_keeps
    | intro _
    | split)

theorem writeStep_keeps {ms : Nat} {r0 : State} {n : Fin 16} {k : Nat} {v : Word} {s : State} (hM : Sub 33282 ms) (hK : Keeps ms r0 s) :
    Keeps ms r0 (writeStep n k v s) := by
  unfold writeStep
  try dsimp only
  repeat' (first
    | with_reducible assumption
    | exact hM.trans rfl
    | with_reducible apply motCmd_keeps
    | with_reducible apply modStep_keeps
    | with_reducible apply stepCfgWrite_keeps
    | intro _
    | split)

theorem writeBldc_keeps {ms : Nat} {r0 : State} {k : Fin 4} {r : Nat} {v : Word} {s : State} (hM : Sub 33282 ms) (hK : Keeps ms r0 s) :
    Keeps ms r0 (writeBldc k r v s) := by
  unfold writeBldc
  try dsimp only
  repeat' (first
    | with_reducible assumption
    | exact hM.trans rfl
    | with_reducible apply motCmd_keeps
    | with_reducible apply modBldc_keeps
    | intro _
    | split)

theorem writeMotn_keeps {ms : Nat} {r0 : State} {o : Nat} {v : Word} {s : State} (hM : Sub 1551874 ms) (hK : Keeps ms r0 s) :
    Keeps ms r0 (writeMotn o v s) := by
  unfold writeMotn
  try dsimp only
  repeat' (first
    | with_reducible assumption
    | exact hM.trans rfl
    | with_reducible apply writeStep_keeps
    | with_reducible apply writeBldc_keeps
    | with_reducible apply syncVmot_keeps
    | intro _
    | split
    | with_reducible apply keeps_motn)

theorem loopPut_keeps {ms : Nat} {r0 : State} {l : LoopId} {f : LoopS → LoopS} {s : State} (hM : Sub 65536 ms) (hK : Keeps ms r0 s) :
    Keeps ms r0 (loopPut l f s) := by
  unfold loopPut
  try dsimp only
  repeat' (first
    | with_reducible assumption
    | exact hM.trans rfl
    | with_reducible apply modLoop_keeps
    | intro _
    | split)

theorem writeSlot_keeps {ms : Nat} {r0 : State} {l : LoopId} {k : Nat} {v : Word} {s : State} (hM : Sub 66048 ms) (hK : Keeps ms r0 s) :
    Keeps ms r0 (writeSlot l k v s) := by
  unfold writeSlot
  try dsimp only
  repeat' (first
    | with_reducible assumption
    | exact hM.trans rfl
    | with_reducible apply loopCmd_keeps
    | with_reducible apply modLoop_keeps
    | with_reducible apply loopPut_keeps
    | intro _
    | split)

theorem writeLoop_keeps {ms : Nat} {r0 : State} {o : Nat} {v : Word} {s : State} (hM : Sub 66048 ms) (hK : Keeps ms r0 s) :
    Keeps ms r0 (writeLoop o v s) := by
  unfold writeLoop
  try dsimp only
  repeat' (first
    | with_reducible assumption
    | exact hM.trans rfl
    | with_reducible apply writeSlot_keeps
    | with_reducible apply modZone_keeps
    | intro _
    | split
    | with_reducible apply keeps_loops)

theorem readLoopEff_keeps {ms : Nat} {r0 : State} {o : Nat} {s : State} (hM : Sub 65536 ms) (hK : Keeps ms r0 s) :
    Keeps ms r0 (readLoopEff o s) := by
  unfold readLoopEff
  try dsimp only
  repeat' (first
    | with_reducible assumption
    | exact hM.trans rfl
    | with_reducible apply modLoop_keeps
    | intro _
    | split)

theorem headCfg_keeps {ms : Nat} {r0 : State} {f : HeadCfg → HeadCfg} {s : State} (hM : Sub 131072 ms) (hK : Keeps ms r0 s) :
    Keeps ms r0 (headCfg f s) := by
  unfold headCfg
  try dsimp only
  repeat' (first
    | with_reducible assumption
    | exact hM.trans rfl
    | with_reducible apply modHead_keeps
    | intro _
    | split)

theorem writeHead_keeps {ms : Nat} {r0 : State} {o : Nat} {v : Word} {s : State} (hM : Sub 1289746 ms) (hK : Keeps ms r0 s) :
    Keeps ms r0 (writeHead o v s) := by
  unfold writeHead
  try dsimp only
  repeat' (first
    | with_reducible assumption
    | exact hM.trans rfl
    | with_reducible apply headCfg_keeps
    | with_reducible apply headCmd_keeps
    | with_reducible apply modHead_keeps
    | with_reducible apply syncHead_keeps
    | intro _
    | split)

theorem readHeadEff_keeps {ms : Nat} {r0 : State} {o : Nat} {s : State} (hM : Sub 131072 ms) (hK : Keeps ms r0 s) :
    Keeps ms r0 (readHeadEff o s) := by
  unfold readHeadEff
  try dsimp only
  repeat' (first
    | with_reducible assumption
    | exact hM.trans rfl
    | with_reducible apply modHead_keeps
    | intro _
    | split)

theorem scanCfg_keeps {ms : Nat} {r0 : State} {f : ScanCfg → ScanCfg} {s : State} (hM : Sub 262144 ms) (hK : Keeps ms r0 s) :
    Keeps ms r0 (scanCfg f s) := by
  unfold scanCfg
  try dsimp only
  repeat' (first
    | with_reducible assumption
    | exact hM.trans rfl
    | with_reducible apply modScan_keeps
    | intro _
    | split)

theorem bufCfgWrite_keeps {ms : Nat} {r0 : State} {v : Word} {s : State} (hM : Sub 262656 ms) (hK : Keeps ms r0 s) :
    Keeps ms r0 (bufCfgWrite v s) := by
  unfold bufCfgWrite
  try dsimp only
  repeat' (first
    | with_reducible assumption
    | exact hM.trans rfl
    | with_reducible apply reDepth_keeps
    | with_reducible apply modScan_keeps
    | intro _
    | split)

theorem writeScan_keeps {ms : Nat} {r0 : State} {o : Nat} {v : Word} {s : State} (hM : Sub 1322498 ms) (hK : Keeps ms r0 s) :
    Keeps ms r0 (writeScan o v s) := by
  unfold writeScan
  try dsimp only
  repeat' (first
    | with_reducible assumption
    | exact hM.trans rfl
    | with_reducible apply scanCfg_keeps
    | with_reducible apply scanCmd_keeps
    | with_reducible apply modScan_keeps
    | with_reducible apply bufCfgWrite_keeps
    | with_reducible apply bufPushOp_keeps
    | intro _
    | split)

theorem readScanEff_keeps {ms : Nat} {r0 : State} {o : Nat} {s : State} (hM : Sub 262144 ms) (hK : Keeps ms r0 s) :
    Keeps ms r0 (readScanEff o s) := by
  unfold readScanEff
  try dsimp only
  repeat' (first
    | with_reducible assumption
    | exact hM.trans rfl
    | with_reducible apply modScan_keeps
    | intro _
    | split)

theorem writeSkid_keeps {ms : Nat} {r0 : State} {o : Nat} {v : Word} {s : State} (hM : Sub 1573376 ms) (hK : Keeps ms r0 s) :
    Keeps ms r0 (writeSkid o v s) := by
  unfold writeSkid
  try dsimp only
  repeat' (first
    | with_reducible assumption
    | exact hM.trans rfl
    | with_reducible apply enumStart_keeps
    | with_reducible apply modSkid_keeps
    | with_reducible apply winCtlWrite_keeps
    | intro _
    | split)

theorem readSkidEff_keeps {ms : Nat} {r0 : State} {o : Nat} {s : State} (hM : Sub 524288 ms) (hK : Keeps ms r0 s) :
    Keeps ms r0 (readSkidEff o s) := by
  unfold readSkidEff
  try dsimp only
  repeat' (first
    | with_reducible assumption
    | exact hM.trans rfl
    | with_reducible apply modSkid_keeps
    | intro _
    | split)

end Sys2Proof.Machine
end

