-- ==== Sys2Proof/Laws/KeepsRegisters.lean ====
section
/-!
SUPPORT. Machine/Registers.lean: each operation keeps what no command takes back (Laws/Keeps.lean).
-/

namespace Sys2Proof.Machine

set_option linter.all false

theorem readEff_keeps {ms : Nat} {r0 : State} {b : Nat} {o : Nat} {s : State} (hM : Sub 2063898 ms) (hK : Keeps ms r0 s) :
    Keeps ms r0 (readEff b o s) := by
  unfold readEff
  try dsimp only
  repeat' (first
    | with_reducible assumption
    | exact hM.trans rfl
    | with_reducible apply readAonEff_keeps
    | with_reducible apply readMemEff_keeps
    | with_reducible apply readTampEff_keeps
    | with_reducible apply readRastEff_keeps
    | with_reducible apply readBeamEff_keeps
    | with_reducible apply readLoopEff_keeps
    | with_reducible apply readHeadEff_keeps
    | with_reducible apply readScanEff_keeps
    | with_reducible apply readSkidEff_keeps
    | with_reducible apply readTimeEff_keeps
    | intro _
    | split)

theorem writeBlock_keeps {ms : Nat} {r0 : State} {b : Nat} {o : Nat} {v : Word} {s : State} (hM : Sub 4194302 ms) (hK : Keeps ms r0 s) :
    Keeps ms r0 (writeBlock b o v s) := by
  unfold writeBlock
  try dsimp only
  repeat' (first
    | with_reducible assumption
    | exact hM.trans rfl
    | with_reducible apply writeGlb_keeps
    | with_reducible apply writeAon_keeps
    | with_reducible apply writeHost_keeps
    | with_reducible apply writeMem_keeps
    | with_reducible apply writeCue_keeps
    | with_reducible apply writeTamp_keeps
    | with_reducible apply writeRast_keeps
    | with_reducible apply writeBeam_keeps
    | with_reducible apply writeMotn_keeps
    | with_reducible apply writeLoop_keeps
    | with_reducible apply writeHead_keeps
    | with_reducible apply writeScan_keeps
    | with_reducible apply writeSkid_keeps
    | with_reducible apply writeTime_keeps
    | with_reducible apply writeBoot_keeps
    | intro _
    | split)

theorem readRegEff_keeps {ms : Nat} {r0 : State} {off : Nat} {s : State} (hM : Sub 2063898 ms) (hK : Keeps ms r0 s) :
    Keeps ms r0 (readRegEff off s) := by
  unfold readRegEff
  try dsimp only
  repeat' (first
    | with_reducible assumption
    | exact hM.trans rfl
    | with_reducible apply readEff_keeps
    | intro _
    | split)

theorem writeReg_keeps {ms : Nat} {r0 : State} {off : Nat} {v : Word} {s : State} (hM : Sub 4194302 ms) (hK : Keeps ms r0 s) :
    Keeps ms r0 (writeReg off v s) := by
  unfold writeReg
  try dsimp only
  repeat' (first
    | with_reducible assumption
    | exact hM.trans rfl
    | with_reducible apply writeBlock_keeps
    | intro _
    | split)

theorem execRegWrite_keeps {ms : Nat} {r0 : State} {p : Port} {off : Nat} {v : Word} {s : State} (hM : Sub 4194302 ms) (hK : Keeps ms r0 s) :
    KeepsO ms r0 (execRegWrite p off v s) := by
  unfold execRegWrite
  try dsimp only
  repeat' (first
    | with_reducible assumption
    | exact hM.trans rfl
    | with_reducible apply keepsO_next
    | with_reducible apply whenS_keeps
    | with_reducible apply writeReg_keeps
    | with_reducible apply keepsO_fault
    | split
    | intro _
    | split)

theorem execRcFieldRead_keeps {ms : Nat} {r0 : State} {p : Port} {off : Nat} {s : State} (hM : Sub 2063898 ms) (hK : Keeps ms r0 s) :
    KeepsO ms r0 (execRcFieldRead p off s) := by
  unfold execRcFieldRead
  try dsimp only
  repeat' (first
    | with_reducible assumption
    | exact hM.trans rfl
    | with_reducible apply keepsO_next
    | with_reducible apply whenS_keeps
    | with_reducible apply emit_keeps
    | with_reducible apply readRegEff_keeps
    | with_reducible apply keepsO_fault
    | split
    | intro _
    | split)

theorem execBar0MisalignedAccess_keeps {ms : Nat} {r0 : State} {write : Bool} {off : Nat} {size : Nat} {_v : DWord} {s : State} (hM : Sub 1048576 ms) (hK : Keeps ms r0 s) :
    KeepsO ms r0 (execBar0MisalignedAccess write off size _v s) := by
  unfold execBar0MisalignedAccess
  try dsimp only
  repeat' (first
    | with_reducible assumption
    | exact hM.trans rfl
    | with_reducible apply keepsO_next
    | with_reducible apply emit_keeps
    | with_reducible apply keepsO_fault
    | split
    | intro _
    | split)

theorem execGlbLockSet_keeps {ms : Nat} {r0 : State} {s : State} (hM : Sub 64 ms) (hK : Keeps ms r0 s) :
    KeepsO ms r0 (execGlbLockSet s) := by
  unfold execGlbLockSet
  try dsimp only
  repeat' (first
    | with_reducible assumption
    | exact hM.trans rfl
    | with_reducible apply keepsO_next
    | with_reducible apply whenS_keeps
    | exact fun (_ : State.lock _ = true) => rfl
    | exact fun (g : State.lock _ = true) => by simp [g]
    | with_reducible apply keepsO_fault
    | split
    | intro _
    | split
    | with_reducible apply keeps_lock)

theorem execFlumeMinClear_keeps {ms : Nat} {r0 : State} {s : State} (hM : Sub 512 ms) (hK : Keeps ms r0 s) :
    KeepsO ms r0 (execFlumeMinClear s) := by
  unfold execFlumeMinClear
  try dsimp only
  repeat' (first
    | with_reducible assumption
    | exact hM.trans rfl
    | with_reducible apply keepsO_next
    | with_reducible apply whenS_keeps
    | with_reducible apply flMinWrite_keeps
    | with_reducible apply keepsO_fault
    | split
    | intro _
    | split)

theorem execSkidWinFrame_keeps {ms : Nat} {r0 : State} {write : Bool} {off : Nat} {v : Word} {s : State} (hM : Sub 4194302 ms) (hK : Keeps ms r0 s) :
    KeepsO ms r0 (execSkidWinFrame write off v s) := by
  unfold execSkidWinFrame
  try dsimp only
  repeat' (first
    | with_reducible assumption
    | exact hM.trans rfl
    | with_reducible apply keepsO_next
    | with_reducible apply sendSkid_keeps
    | with_reducible apply writeReg_keeps
    | with_reducible apply ackTo_keeps
    | with_reducible apply readRegEff_keeps
    | with_reducible apply keepsO_fault
    | split
    | intro _
    | split)

theorem resumeAt_keeps {ms : Nat} {r0 : State} {f : FlumeId} {s : State} (hM : Sub 1846802 ms) (hK : Keeps ms r0 s) :
    Keeps ms r0 (resumeAt f s) := by
  unfold resumeAt
  try dsimp only
  repeat' (first
    | with_reducible assumption
    | exact hM.trans rfl
    | with_reducible apply serveFlume_keeps
    | with_reducible apply pumpSkid_keeps
    | with_reducible apply driveEnc_keeps
    | with_reducible apply endPages_keeps
    | intro _
    | split)

theorem execTallyUsable_keeps {ms : Nat} {r0 : State} {f : FlumeId} {s : State} (hM : Sub 1846802 ms) (hK : Keeps ms r0 s) :
    KeepsO ms r0 (execTallyUsable f s) := by
  unfold execTallyUsable
  try dsimp only
  repeat' (first
    | with_reducible assumption
    | exact hM.trans rfl
    | with_reducible apply keepsO_next
    | with_reducible apply resumeAt_keeps
    | with_reducible apply modFl_keeps
    | with_reducible apply keepsO_fault
    | split
    | intro _
    | split)

theorem execProducerPushResume_keeps {ms : Nat} {r0 : State} {f : FlumeId} {s : State} (hM : Sub 1846802 ms) (hK : Keeps ms r0 s) :
    KeepsO ms r0 (execProducerPushResume f s) := by
  unfold execProducerPushResume
  try dsimp only
  repeat' (first
    | with_reducible assumption
    | exact hM.trans rfl
    | with_reducible apply keepsO_next
    | with_reducible apply resumeAt_keeps
    | with_reducible apply keepsO_fault
    | split
    | intro _
    | split)

end Sys2Proof.Machine
end

