-- ==== Sys2Proof/Laws/KeepsJrp.lean ====
section
/-!
SUPPORT. Machine/Jrp.lean: each operation keeps what no command takes back (Laws/Keeps.lean).
-/

namespace Sys2Proof.Machine

set_option linter.all false

theorem modJrp_keeps {ms : Nat} {r0 : State} {j : JrpPort} {f : JrpS → JrpS} {s : State} (hM : Sub 32 ms) (hK : Keeps ms r0 s) :
    Keeps ms r0 (modJrp j f s) := by
  unfold modJrp
  try dsimp only
  repeat' (first
    | with_reducible assumption
    | exact hM.trans rfl
    | with_reducible apply modBoot_keeps
    | exact fun (_ : Boot) _ _ g => g
    | intro _
    | split)

theorem reply_keeps {ms : Nat} {r0 : State} {j : JrpPort} {r : List Byte} {s : State} (hM : Sub 1048608 ms) (hK : Keeps ms r0 s) :
    Keeps ms r0 (reply j r s) := by
  unfold reply
  try dsimp only
  repeat' (first
    | with_reducible assumption
    | exact hM.trans rfl
    | with_reducible apply modJrp_keeps
    | with_reducible apply emit_keeps
    | intro _
    | split)

theorem answer_keeps {ms : Nat} {r0 : State} {j : JrpPort} {b : List Byte} {stat : Byte} {payload : List Byte} {s : State} (hM : Sub 1048608 ms) (hK : Keeps ms r0 s) :
    Keeps ms r0 (answer j b stat payload s) := by
  unfold answer
  try dsimp only
  repeat' (first
    | with_reducible assumption
    | exact hM.trans rfl
    | with_reducible apply reply_keeps
    | intro _
    | split)

theorem executed_keeps {ms : Nat} {r0 : State} {j : JrpPort} {b : List Byte} {stat : Byte} {payload : List Byte} {s : State} (hM : Sub 1048608 ms) (hK : Keeps ms r0 s) :
    Keeps ms r0 (executed j b stat payload s) := by
  unfold executed
  try dsimp only
  repeat' (first
    | with_reducible assumption
    | exact hM.trans rfl
    | with_reducible apply answer_keeps
    | with_reducible apply modJrp_keeps
    | intro _
    | split)

theorem jHello_keeps {ms : Nat} {r0 : State} {j : JrpPort} {s : State} (_hM : Sub 0 ms) (hK : Keeps ms r0 s) :
    Keeps ms r0 (jHello j s).2.2 := by
  unfold jHello
  try dsimp only
  repeat' (first
    | with_reducible assumption
    | dsimp only
    | intro _
    | split)

theorem jSetBaud_keeps {ms : Nat} {r0 : State} {p : List Byte} {s : State} (hM : Sub 32 ms) (hK : Keeps ms r0 s) :
    Keeps ms r0 (jSetBaud p s).2.2 := by
  unfold jSetBaud
  try dsimp only
  repeat' (first
    | with_reducible assumption
    | exact hM.trans rfl
    | with_reducible apply modBoot_keeps
    | dsimp only
    | exact fun (_ : Boot) _ _ g => g
    | intro _
    | split)

theorem jLogRead_keeps {ms : Nat} {r0 : State} {p : List Byte} {s : State} (_hM : Sub 0 ms) (hK : Keeps ms r0 s) :
    Keeps ms r0 (jLogRead p s).2.2 := by
  unfold jLogRead
  try dsimp only
  repeat' (first
    | with_reducible assumption
    | dsimp only
    | intro _
    | split)

theorem jRegRead_keeps {ms : Nat} {r0 : State} {p : List Byte} {s : State} (hM : Sub 2063898 ms) (hK : Keeps ms r0 s) :
    Keeps ms r0 (jRegRead p s).2.2 := by
  unfold jRegRead
  try dsimp only
  repeat' (first
    | with_reducible assumption
    | exact hM.trans rfl
    | with_reducible apply readRegEff_keeps
    | dsimp only
    | intro _
    | split)

theorem jRegWrite_keeps {ms : Nat} {r0 : State} {p : List Byte} {s : State} (hM : Sub 4194302 ms) (hK : Keeps ms r0 s) :
    Keeps ms r0 (jRegWrite p s).2.2 := by
  unfold jRegWrite
  try dsimp only
  repeat' (first
    | with_reducible assumption
    | exact hM.trans rfl
    | with_reducible apply writeReg_keeps
    | dsimp only
    | intro _
    | split)

theorem jImgBegin_keeps {ms : Nat} {r0 : State} {p : List Byte} {s : State} (hM : Sub 3149354 ms) (hK : Keeps ms r0 s) :
    Keeps ms r0 (jImgBegin p s).2.2 := by
  unfold jImgBegin
  try dsimp only
  repeat' (first
    | with_reducible assumption
    | exact hM.trans rfl
    | with_reducible apply takeHeader_keeps
    | dsimp only
    | intro _
    | split)

theorem jImgData_keeps {ms : Nat} {r0 : State} {p : List Byte} {s : State} (hM : Sub 1052202 ms) (hK : Keeps ms r0 s) :
    Keeps ms r0 (jImgData p s).2.2 := by
  unfold jImgData
  try dsimp only
  repeat' (first
    | with_reducible assumption
    | exact hM.trans rfl
    | with_reducible apply takeBytes_keeps
    | with_reducible apply failOp_keeps
    | dsimp only
    | intro _
    | split)

theorem jImgEnd_keeps {ms : Nat} {r0 : State} {p : List Byte} {s : State} (hM : Sub 1052202 ms) (hK : Keeps ms r0 s) :
    Keeps ms r0 (jImgEnd p s).2.2 := by
  unfold jImgEnd
  try dsimp only
  repeat' (first
    | with_reducible assumption
    | exact hM.trans rfl
    | with_reducible apply finishOp_keeps
    | with_reducible apply failOp_keeps
    | dsimp only
    | intro _
    | split)

theorem jImgAbort_keeps {ms : Nat} {r0 : State} {s : State} (hM : Sub 1052202 ms) (hK : Keeps ms r0 s) :
    Keeps ms r0 (jImgAbort s).2.2 := by
  unfold jImgAbort
  try dsimp only
  repeat' (first
    | with_reducible assumption
    | exact hM.trans rfl
    | with_reducible apply failOp_keeps
    | dsimp only
    | intro _
    | split)

theorem jRun_keeps {ms : Nat} {r0 : State} {j : JrpPort} {cmd : Nat} {p : List Byte} {s : State} (hM : Sub 4194302 ms) (hK : Keeps ms r0 s) :
    Keeps ms r0 (jRun j cmd p s).2.2 := by
  unfold jRun
  try dsimp only
  repeat' (first
    | with_reducible assumption
    | exact hM.trans rfl
    | with_reducible apply jImgAbort_keeps
    | with_reducible apply jImgEnd_keeps
    | with_reducible apply jImgData_keeps
    | with_reducible apply jImgBegin_keeps
    | with_reducible apply jRegWrite_keeps
    | with_reducible apply jRegRead_keeps
    | with_reducible apply jLogRead_keeps
    | with_reducible apply jSetBaud_keeps
    | with_reducible apply jHello_keeps
    | dsimp only
    | intro _
    | split)

theorem jFrame_keeps {ms : Nat} {r0 : State} {j : JrpPort} {b : List Byte} {s0 : State} (hM : Sub 4194302 ms) (hK : Keeps ms r0 s0) :
    Keeps ms r0 (jFrame j b s0) := by
  unfold jFrame
  try dsimp only
  repeat' (first
    | with_reducible assumption
    | exact hM.trans rfl
    | with_reducible apply modJrp_keeps
    | with_reducible apply answer_keeps
    | with_reducible apply reply_keeps
    | with_reducible apply jRun_keeps
    | with_reducible apply executed_keeps
    | with_reducible apply bootRestartOp_keeps
    | intro _
    | split)

theorem jrpRow_keeps {ms : Nat} {r0 : State} {p : Nat → Bool} {j : JrpPort} {frame : List Byte} {s : State} (hM : Sub 4194302 ms) (hK : Keeps ms r0 s) :
    Keeps ms r0 (jrpRow p j frame s) := by
  unfold jrpRow
  try dsimp only
  repeat' (first
    | with_reducible assumption
    | exact hM.trans rfl
    | with_reducible apply modJrp_keeps
    | with_reducible apply reply_keeps
    | with_reducible apply jFrame_keeps
    | intro _
    | split)

theorem execJrpHello_keeps {ms : Nat} {r0 : State} {j : JrpPort} {frame : List Byte} {s : State} (hM : Sub 4194302 ms) (hK : Keeps ms r0 s) :
    KeepsO ms r0 (execJrpHello j frame s) := by
  unfold execJrpHello
  try dsimp only
  repeat' (first
    | with_reducible assumption
    | exact hM.trans rfl
    | with_reducible apply keepsO_next
    | with_reducible apply jrpRow_keeps
    | with_reducible apply keepsO_fault
    | split
    | intro _
    | split)

theorem execJrpSetBaud_keeps {ms : Nat} {r0 : State} {j : JrpPort} {frame : List Byte} {s : State} (hM : Sub 4194302 ms) (hK : Keeps ms r0 s) :
    KeepsO ms r0 (execJrpSetBaud j frame s) := by
  unfold execJrpSetBaud
  try dsimp only
  repeat' (first
    | with_reducible assumption
    | exact hM.trans rfl
    | with_reducible apply keepsO_next
    | with_reducible apply jrpRow_keeps
    | with_reducible apply keepsO_fault
    | split
    | intro _
    | split)

theorem execJrpLogRead_keeps {ms : Nat} {r0 : State} {j : JrpPort} {frame : List Byte} {s : State} (hM : Sub 4194302 ms) (hK : Keeps ms r0 s) :
    KeepsO ms r0 (execJrpLogRead j frame s) := by
  unfold execJrpLogRead
  try dsimp only
  repeat' (first
    | with_reducible assumption
    | exact hM.trans rfl
    | with_reducible apply keepsO_next
    | with_reducible apply jrpRow_keeps
    | with_reducible apply keepsO_fault
    | split
    | intro _
    | split)

theorem execJrpRegRead_keeps {ms : Nat} {r0 : State} {j : JrpPort} {frame : List Byte} {s : State} (hM : Sub 4194302 ms) (hK : Keeps ms r0 s) :
    KeepsO ms r0 (execJrpRegRead j frame s) := by
  unfold execJrpRegRead
  try dsimp only
  repeat' (first
    | with_reducible assumption
    | exact hM.trans rfl
    | with_reducible apply keepsO_next
    | with_reducible apply jrpRow_keeps
    | with_reducible apply keepsO_fault
    | split
    | intro _
    | split)

theorem execJrpRegWrite_keeps {ms : Nat} {r0 : State} {j : JrpPort} {frame : List Byte} {s : State} (hM : Sub 4194302 ms) (hK : Keeps ms r0 s) :
    KeepsO ms r0 (execJrpRegWrite j frame s) := by
  unfold execJrpRegWrite
  try dsimp only
  repeat' (first
    | with_reducible assumption
    | exact hM.trans rfl
    | with_reducible apply keepsO_next
    | with_reducible apply jrpRow_keeps
    | with_reducible apply keepsO_fault
    | split
    | intro _
    | split)

theorem execImgBegin_keeps {ms : Nat} {r0 : State} {j : JrpPort} {frame : List Byte} {s : State} (hM : Sub 4194302 ms) (hK : Keeps ms r0 s) :
    KeepsO ms r0 (execImgBegin j frame s) := by
  unfold execImgBegin
  try dsimp only
  repeat' (first
    | with_reducible assumption
    | exact hM.trans rfl
    | with_reducible apply keepsO_next
    | with_reducible apply jrpRow_keeps
    | with_reducible apply keepsO_fault
    | split
    | intro _
    | split)

theorem execImgData_keeps {ms : Nat} {r0 : State} {j : JrpPort} {frame : List Byte} {s : State} (hM : Sub 4194302 ms) (hK : Keeps ms r0 s) :
    KeepsO ms r0 (execImgData j frame s) := by
  unfold execImgData
  try dsimp only
  repeat' (first
    | with_reducible assumption
    | exact hM.trans rfl
    | with_reducible apply keepsO_next
    | with_reducible apply jrpRow_keeps
    | with_reducible apply keepsO_fault
    | split
    | intro _
    | split)

theorem execImgEnd_keeps {ms : Nat} {r0 : State} {j : JrpPort} {frame : List Byte} {s : State} (hM : Sub 4194302 ms) (hK : Keeps ms r0 s) :
    KeepsO ms r0 (execImgEnd j frame s) := by
  unfold execImgEnd
  try dsimp only
  repeat' (first
    | with_reducible assumption
    | exact hM.trans rfl
    | with_reducible apply keepsO_next
    | with_reducible apply jrpRow_keeps
    | with_reducible apply keepsO_fault
    | split
    | intro _
    | split)

theorem execImgAbort_keeps {ms : Nat} {r0 : State} {j : JrpPort} {frame : List Byte} {s : State} (hM : Sub 4194302 ms) (hK : Keeps ms r0 s) :
    KeepsO ms r0 (execImgAbort j frame s) := by
  unfold execImgAbort
  try dsimp only
  repeat' (first
    | with_reducible assumption
    | exact hM.trans rfl
    | with_reducible apply keepsO_next
    | with_reducible apply jrpRow_keeps
    | with_reducible apply keepsO_fault
    | split
    | intro _
    | split)

theorem execJrpReset_keeps {ms : Nat} {r0 : State} {j : JrpPort} {frame : List Byte} {s : State} (hM : Sub 4194302 ms) (hK : Keeps ms r0 s) :
    KeepsO ms r0 (execJrpReset j frame s) := by
  unfold execJrpReset
  try dsimp only
  repeat' (first
    | with_reducible assumption
    | exact hM.trans rfl
    | with_reducible apply keepsO_next
    | with_reducible apply jrpRow_keeps
    | with_reducible apply keepsO_fault
    | split
    | intro _
    | split)

theorem execJrpBadCmd_keeps {ms : Nat} {r0 : State} {j : JrpPort} {frame : List Byte} {s : State} (hM : Sub 4194302 ms) (hK : Keeps ms r0 s) :
    KeepsO ms r0 (execJrpBadCmd j frame s) := by
  unfold execJrpBadCmd
  try dsimp only
  repeat' (first
    | with_reducible assumption
    | exact hM.trans rfl
    | with_reducible apply keepsO_next
    | with_reducible apply jrpRow_keeps
    | with_reducible apply keepsO_fault
    | split
    | intro _
    | split)

theorem execJrpUartGap_keeps {ms : Nat} {r0 : State} {s : State} (hM : Sub 2081 ms) (hK : Keeps ms r0 s) :
    KeepsO ms r0 (execJrpUartGap s) := by
  unfold execJrpUartGap
  try dsimp only
  repeat' (first
    | with_reducible assumption
    | exact hM.trans rfl
    | with_reducible apply keepsO_next
    | with_reducible apply whenS_keeps
    | with_reducible apply modJrp_keeps
    | with_reducible apply timeTo_keeps
    | with_reducible apply keepsO_fault
    | split
    | intro _
    | split)

theorem execJrpBaudRevert_keeps {ms : Nat} {r0 : State} {s : State} (hM : Sub 2081 ms) (hK : Keeps ms r0 s) :
    KeepsO ms r0 (execJrpBaudRevert s) := by
  unfold execJrpBaudRevert
  try dsimp only
  repeat' (first
    | with_reducible assumption
    | exact hM.trans rfl
    | with_reducible apply keepsO_next
    | with_reducible apply whenS_keeps
    | with_reducible apply modBoot_keeps
    | with_reducible apply timeTo_keeps
    | exact fun (_ : Boot) _ _ g => g
    | with_reducible apply keepsO_fault
    | split
    | intro _
    | split)

end Sys2Proof.Machine
end

