-- ==== Sys2Proof/Laws/KeepsExec.lean ====
section
/-!
SUPPORT. What no command takes back and what each may change at all, said of exec itself: one case per constructor, each
cited from the file of its family.
-/

namespace Sys2Proof.Machine

set_option linter.all false

/-- The parts a command may change, as a mask of Part.bit. -/
def cmdMask : Instr → Nat
  | .regWrite _ _ _ => 4194302
  | .bar0MisalignedAccess _ _ _ _ => 1048576
  | .glbLockSet => 64
  | .flumeMinClear => 512
  | .etLoRead => 1050624
  | .trkAnchorLoRead _ => 1050624
  | .tallyUsable _ => 1846802
  | .producerPushResume _ => 1846802
  | .aonPorAssert => 3145726
  | .aonPorRelease _ _ _ _ _ _ => 2096698
  | .keeperCheckDone => 40
  | .xtalStable => 1052162
  | .domainSwitchStart => 2096698
  | .domainGood _ => 2096698
  | .domainTimeout _ => 2096699
  | .pllLockLost _ => 2096698
  | .railDlyExpire _ => 2096699
  | .railGood _ => 2096699
  | .railSswExpire _ => 2096699
  | .railOvercurrent _ => 2096698
  | .railCoolExpire _ => 1052163
  | .railDrop _ _ => 2096698
  | .collapseStep => 2096699
  | .graceExpire => 1814035
  | .orderlyTakedownStep => 2096698
  | .offWindowExpire => 2096699
  | .enginesUp _ => 1576506
  | .enginesDown _ => 1814034
  | .seqOff _ => 1814034
  | .offAck _ => 1814034
  | .retry _ => 1052162
  | .itemUp _ _ => 1052162
  | .itemDown _ _ => 1576466
  | .seqBadCmd _ _ => 1814074
  | .btnPress => 2051
  | .btnRelease => 1576506
  | .btnLong => 1814035
  | .btnCut => 2096699
  | .mrstAssert => 2097018
  | .mrstRelease => 2096698
  | .pfwNFall => 2097690
  | .pfwCollapse => 1576507
  | .vsenseCollapse => 1576506
  | .vsenseArm => 2051
  | .collapseRecovery => 1576507
  | .safeNFall => 2
  | .safeNRecognised => 1568275
  | .safeNRise => 1568275
  | .safeAssert _ _ => 1568274
  | .safeRelease _ => 2
  | .heartbeatLost _ => 1568275
  | .thermalConversion _ _ => 2092567
  | .bootOk _ => 40
  | .bootTimeout => 2096699
  | .bootRestart _ => 2096698
  | .imageAbort _ => 1052202
  | .ldieDone _ => 3670560
  | .imageLoadGo _ _ => 1052194
  | .imageBlockArrive _ => 3673642
  | .imageLoadComplete => 3149354
  | .rbAdvance _ => 32
  | .otpProg _ => 32
  | .coverClose => 2
  | .sheetClearStart => 1568274
  | .sheetClearCancel => 2579
  | .sheetClearEnd => 1084947
  | .jrpHello _ _ => 4194302
  | .jrpSetBaud _ _ => 4194302
  | .jrpLogRead _ _ => 4194302
  | .jrpRegRead _ _ => 4194302
  | .jrpRegWrite _ _ => 4194302
  | .imgBegin _ _ => 4194302
  | .imgData _ _ => 4194302
  | .imgEnd _ _ => 4194302
  | .imgAbort _ _ => 4194302
  | .jrpReset _ _ => 4194302
  | .jrpBadCmd _ _ => 4194302
  | .jrpUartGap => 2081
  | .jrpBaudRevert => 2081
  | .cmdNop _ _ => 3911170
  | .cmdArm _ _ => 3911170
  | .armEntryArrive _ => 3771906
  | .armProgramArrive _ => 3771906
  | .cmdDisarm _ _ _ => 3911170
  | .cmdRefresh _ _ => 3911170
  | .refreshSwap => 3771906
  | .cmdMail _ _ => 3911170
  | .cmdPlan _ _ => 3911170
  | .planArrive _ => 3157506
  | .cmdPageAbort _ _ => 3911170
  | .cmdBad _ _ => 3911170
  | .cqEnable _ _ => 1536
  | .cqReadError _ => 1050112
  | .cpqEnable _ => 1024
  | .cpqRecordWrite => 1576450
  | .msixCoalTimeout _ => 1051649
  | .recover _ => 3911298
  | .recoverRecord => 1576450
  | .perstAssert => 1536
  | .perstRelease => 1024
  | .bar2Write _ _ => 8192
  | .bar2Read _ _ _ => 3157522
  | .blockedInstructionResume _ _ => 4189723
  | .illegalOpcode _ => 1289730
  | .nop _ => 4189722
  | .jmp _ => 4189722
  | .jcc _ => 4189722
  | .call _ => 4189722
  | .ret _ => 4189722
  | .loop _ => 4189722
  | .halt _ => 4189722
  | .ldi _ => 4189722
  | .ldh _ => 4189722
  | .mov _ => 4189722
  | .movFlagsRead _ => 4189722
  | .movFlagsWrite _ => 4189722
  | .movStatus _ => 4189722
  | .add _ => 4189722
  | .sub _ => 4189722
  | .and _ => 4189722
  | .or _ => 4189722
  | .xor _ => 4189722
  | .shl _ => 4189722
  | .shr _ => 4189722
  | .cmp _ => 4189722
  | .ldm _ => 4189722
  | .stm _ => 4189722
  | .waitet _ => 4189722
  | .waitth _ => 4189722
  | .waitev _ => 4189722
  | .atPfx _ => 4189722
  | .atthPfx _ => 4189722
  | .push _ => 4189722
  | .pop _ => 4189722
  | .take _ => 4189722
  | .give _ => 4189722
  | .move _ => 4189722
  | .movx _ => 4189722
  | .setp _ => 4189722
  | .ramp _ => 4189722
  | .loopon _ => 4189722
  | .loopoff _ => 4189722
  | .fire _ => 4189722
  | .strobe _ => 4189722
  | .scanl _ => 4189722
  | .sig _ => 4189722
  | .fence _ => 4189722
  | .commitAdmit _ _ => 4189722
  | .commitDone _ => 4189722
  | .abort _ => 4189722
  | .log _ => 4189722
  | .trap _ => 4189722
  | .wheelDispatch => 4189715
  | .guardOpen => 2049
  | .trkEdge _ => 4189714
  | .trkSynthInsert _ => 4189715
  | .trkEnable _ _ => 1306130
  | .trkDisable _ => 1306130
  | .trkRearm _ => 1306114
  | .trkReacq _ => 1306114
  | .memInit => 4096
  | .memTrainingDone _ => 1056274
  | .arbRound _ _ _ _ => 3153427
  | .quotaWindowEnd _ => 6145
  | .arbReferenceWindow => 6145
  | .memRefresh => 1054721
  | .mr4Poll _ => 6145
  | .memCopyGo _ => 4096
  | .memCopyDone _ _ => 1056274
  | .arbSnap => 4096
  | .arbPresetLoad _ => 4096
  | .landResWrite _ _ _ => 8704
  | .bandFetch _ _ => 1064466
  | .tampDecodeBlock _ _ => 1064466
  | .tampEncodeBlock _ _ => 3456530
  | .tampGenGo => 8192
  | .tampGenDone => 1060354
  | .bandStage _ _ => 2107392
  | .bandCheckDone _ => 1060354
  | .bdWindowExpire _ => 18433
  | .beamLineStart _ _ _ => 3304979
  | .bandRelease _ => 10753
  | .apcSample _ _ _ => 1076739
  | .apcOvp _ _ => 1306114
  | .calTimeout _ => 1306114
  | .beamOn _ => 1306114
  | .beamOff _ => 1306114
  | .beamRecal _ => 1306114
  | .segmentTakeup _ => 1551875
  | .trajectoryUpdate _ => 1551875
  | .motOvercurrent _ => 1551874
  | .bldcStall _ => 1551875
  | .hallFault _ => 1551875
  | .hallEdge _ _ => 32768
  | .motStop _ => 33282
  | .motClr _ => 32768
  | .motSetpos _ => 32770
  | .loopSample _ _ => 1289747
  | .loopOutput _ => 116737
  | .hvIlim _ => 1289746
  | .hvCoolExpire _ => 1117699
  | .zeroCrossing => 65536
  | .heaterBurst _ => 1116161
  | .fuserCheck _ => 1289747
  | .loopClr _ => 65536
  | .loopOff _ => 66048
  | .headSlotLatch _ => 3304979
  | .headGroupSlot => 1181697
  | .headLineEnd => 141825
  | .headTempConvert _ => 1289747
  | .headOn => 1183234
  | .headOff => 1289730
  | .scanExposureEnd => 1345539
  | .scanLineEnd _ => 1355283
  | .scanRawWrite => 1318402
  | .scanBufPush => 262656
  | .scanOn => 1314306
  | .scanOff => 1322498
  | .scanCal => 262144
  | .scanCalComplete _ _ _ _ => 3411458
  | .pageAbortComplete _ => 2048
  | .sheetRecordStage => 3771906
  | .jamDetect _ => 1289730
  | .jamlatchClear _ => 2048
  | .nvWrite => 10
  | .logRecordCommit => 536
  | .logReadout _ _ => 16
  | .logExport _ _ => 270864
  | .logExportDone => 1056274
  | .skidEnum => 1572864
  | .enumFrame _ _ _ _ => 3673746
  | .enumLinkWaitExpire => 1575441
  | .enumReply _ _ => 3673618
  | .enumTimeout _ => 3673619
  | .noManager => 526865
  | .heartbeatSend => 1574913
  | .heartbeatFrame _ _ => 1572864
  | .echoFrame _ _ => 1572864
  | .heartbeatMiss => 2092603
  | .echoMiss _ => 4189755
  | .tsyncFrame _ => 1572864
  | .tsyncAcquired => 526337
  | .cPartClear => 2051
  | .skidAckFrame _ => 1576448
  | .skidAckTimeout _ => 1574913
  | .skidPortRetrain _ => 1576451
  | .skidCmdFrame _ => 3911170
  | .skidRecordFrame _ _ => 1576450
  | .skidSigFrame _ _ _ _ => 1575424
  | .skidBusmasterFrame _ _ _ _ _ => 1573376
  | .skidWinGo _ => 1573376
  | .skidWinFrame _ _ _ => 4194302
  | .skidRecoverFrame _ _ _ => 3911298
  | .skidRecoverDone _ => 1574400
  | .skidPowerFrame _ => 1814074
  | .skidOffReport _ => 1576466
  | .workerOffTimeout => 1576467
  | .rcFieldRead _ _ => 2063898
  | .cueUncorrectableEcc _ => 2048
  | .skidPartnerSignal _ _ => 524288
  | .skidLanesAligned _ => 1572864
  | .skidWinReply _ _ => 1572864
  | .logReadoutDone => 16

/-- Every command but the two resets that clear LOCK keeps what Laws/Keeps.lean lists, and changes the parts of its mask
only. -/
theorem exec_keeps : ∀ (c : Instr) (s : State), c ≠ .aonPorAssert → c ≠ .mrstAssert → KeepsO (cmdMask c) s (exec c s)
  | .regWrite _ _ _, s, _, _ => execRegWrite_keeps (Sub.refl _) (Keeps.refl _ s)
  | .bar0MisalignedAccess _ _ _ v, s, _, _ => execBar0MisalignedAccess_keeps (_v := v) (Sub.refl _) (Keeps.refl _ s)
  | .glbLockSet, s, _, _ => execGlbLockSet_keeps (Sub.refl _) (Keeps.refl _ s)
  | .flumeMinClear, s, _, _ => execFlumeMinClear_keeps (Sub.refl _) (Keeps.refl _ s)
  | .etLoRead, s, _, _ => execEtLoRead_keeps (Sub.refl _) (Keeps.refl _ s)
  | .trkAnchorLoRead _, s, _, _ => execTrkAnchorLoRead_keeps (Sub.refl _) (Keeps.refl _ s)
  | .tallyUsable _, s, _, _ => execTallyUsable_keeps (Sub.refl _) (Keeps.refl _ s)
  | .producerPushResume _, s, _, _ => execProducerPushResume_keeps (Sub.refl _) (Keeps.refl _ s)
  | .aonPorAssert, _, h1, _ => absurd rfl h1
  | .aonPorRelease _ _ _ _ _ _, s, _, _ => execAonPorRelease_keeps (Sub.refl _) (Keeps.refl _ s)
  | .keeperCheckDone, s, _, _ => execKeeperCheckDone_keeps (Sub.refl _) (Keeps.refl _ s)
  | .xtalStable, s, _, _ => execXtalStable_keeps (Sub.refl _) (Keeps.refl _ s)
  | .domainSwitchStart, s, _, _ => execDomainSwitchStart_keeps (Sub.refl _) (Keeps.refl _ s)
  | .domainGood _, s, _, _ => execDomainGood_keeps (Sub.refl _) (Keeps.refl _ s)
  | .domainTimeout _, s, _, _ => execDomainTimeout_keeps (Sub.refl _) (Keeps.refl _ s)
  | .pllLockLost _, s, _, _ => execPllLockLost_keeps (Sub.refl _) (Keeps.refl _ s)
  | .railDlyExpire _, s, _, _ => execRailDlyExpire_keeps (Sub.refl _) (Keeps.refl _ s)
  | .railGood _, s, _, _ => execRailGood_keeps (Sub.refl _) (Keeps.refl _ s)
  | .railSswExpire _, s, _, _ => execRailSswExpire_keeps (Sub.refl _) (Keeps.refl _ s)
  | .railOvercurrent _, s, _, _ => execRailOvercurrent_keeps (Sub.refl _) (Keeps.refl _ s)
  | .railCoolExpire _, s, _, _ => execRailCoolExpire_keeps (Sub.refl _) (Keeps.refl _ s)
  | .railDrop _ _, s, _, _ => execRailDrop_keeps (Sub.refl _) (Keeps.refl _ s)
  | .collapseStep, s, _, _ => execCollapseStep_keeps (Sub.refl _) (Keeps.refl _ s)
  | .graceExpire, s, _, _ => execGraceExpire_keeps (Sub.refl _) (Keeps.refl _ s)
  | .orderlyTakedownStep, s, _, _ => execOrderlyTakedownStep_keeps (Sub.refl _) (Keeps.refl _ s)
  | .offWindowExpire, s, _, _ => execOffWindowExpire_keeps (Sub.refl _) (Keeps.refl _ s)
  | .enginesUp _, s, _, _ => execEnginesUp_keeps (Sub.refl _) (Keeps.refl _ s)
  | .enginesDown _, s, _, _ => execEnginesDown_keeps (Sub.refl _) (Keeps.refl _ s)
  | .seqOff _, s, _, _ => execSeqOff_keeps (Sub.refl _) (Keeps.refl _ s)
  | .offAck _, s, _, _ => execOffAck_keeps (Sub.refl _) (Keeps.refl _ s)
  | .retry _, s, _, _ => execRetry_keeps (Sub.refl _) (Keeps.refl _ s)
  | .itemUp _ _, s, _, _ => execItemUp_keeps (Sub.refl _) (Keeps.refl _ s)
  | .itemDown _ _, s, _, _ => execItemDown_keeps (Sub.refl _) (Keeps.refl _ s)
  | .seqBadCmd _ _, s, _, _ => execSeqBadCmd_keeps (Sub.refl _) (Keeps.refl _ s)
  | .btnPress, s, _, _ => execBtnPress_keeps (Sub.refl _) (Keeps.refl _ s)
  | .btnRelease, s, _, _ => execBtnRelease_keeps (Sub.refl _) (Keeps.refl _ s)
  | .btnLong, s, _, _ => execBtnLong_keeps (Sub.refl _) (Keeps.refl _ s)
  | .btnCut, s, _, _ => execBtnCut_keeps (Sub.refl _) (Keeps.refl _ s)
  | .mrstAssert, _, _, h2 => absurd rfl h2
  | .mrstRelease, s, _, _ => execMrstRelease_keeps (Sub.refl _) (Keeps.refl _ s)
  | .pfwNFall, s, _, _ => execPfwNFall_keeps (Sub.refl _) (Keeps.refl _ s)
  | .pfwCollapse, s, _, _ => execPfwCollapse_keeps (Sub.refl _) (Keeps.refl _ s)
  | .vsenseCollapse, s, _, _ => execVsenseCollapse_keeps (Sub.refl _) (Keeps.refl _ s)
  | .vsenseArm, s, _, _ => execVsenseArm_keeps (Sub.refl _) (Keeps.refl _ s)
  | .collapseRecovery, s, _, _ => execCollapseRecovery_keeps (Sub.refl _) (Keeps.refl _ s)
  | .safeNFall, s, _, _ => execSafeNFall_keeps (Sub.refl _) (Keeps.refl _ s)
  | .safeNRecognised, s, _, _ => execSafeNRecognised_keeps (Sub.refl _) (Keeps.refl _ s)
  | .safeNRise, s, _, _ => execSafeNRise_keeps (Sub.refl _) (Keeps.refl _ s)
  | .safeAssert _ _, s, _, _ => execSafeAssert_keeps (Sub.refl _) (Keeps.refl _ s)
  | .safeRelease _, s, _, _ => execSafeRelease_keeps (Sub.refl _) (Keeps.refl _ s)
  | .heartbeatLost _, s, _, _ => execHeartbeatLost_keeps (Sub.refl _) (Keeps.refl _ s)
  | .thermalConversion _ _, s, _, _ => execThermalConversion_keeps (Sub.refl _) (Keeps.refl _ s)
  | .bootOk _, s, _, _ => execBootOk_keeps (Sub.refl _) (Keeps.refl _ s)
  | .bootTimeout, s, _, _ => execBootTimeout_keeps (Sub.refl _) (Keeps.refl _ s)
  | .bootRestart _, s, _, _ => execBootRestart_keeps (Sub.refl _) (Keeps.refl _ s)
  | .imageAbort _, s, _, _ => execImageAbort_keeps (Sub.refl _) (Keeps.refl _ s)
  | .ldieDone _, s, _, _ => execLdieDone_keeps (Sub.refl _) (Keeps.refl _ s)
  | .imageLoadGo _ _, s, _, _ => execImageLoadGo_keeps (Sub.refl _) (Keeps.refl _ s)
  | .imageBlockArrive _, s, _, _ => execImageBlockArrive_keeps (Sub.refl _) (Keeps.refl _ s)
  | .imageLoadComplete, s, _, _ => execImageLoadComplete_keeps (Sub.refl _) (Keeps.refl _ s)
  | .rbAdvance _, s, _, _ => execRbAdvance_keeps (Sub.refl _) (Keeps.refl _ s)
  | .otpProg _, s, _, _ => execOtpProg_keeps (Sub.refl _) (Keeps.refl _ s)
  | .coverClose, s, _, _ => execCoverClose_keeps (Sub.refl _) (Keeps.refl _ s)
  | .sheetClearStart, s, _, _ => execSheetClearStart_keeps (Sub.refl _) (Keeps.refl _ s)
  | .sheetClearCancel, s, _, _ => execSheetClearCancel_keeps (Sub.refl _) (Keeps.refl _ s)
  | .sheetClearEnd, s, _, _ => execSheetClearEnd_keeps (Sub.refl _) (Keeps.refl _ s)
  | .jrpHello _ _, s, _, _ => execJrpHello_keeps (Sub.refl _) (Keeps.refl _ s)
  | .jrpSetBaud _ _, s, _, _ => execJrpSetBaud_keeps (Sub.refl _) (Keeps.refl _ s)
  | .jrpLogRead _ _, s, _, _ => execJrpLogRead_keeps (Sub.refl _) (Keeps.refl _ s)
  | .jrpRegRead _ _, s, _, _ => execJrpRegRead_keeps (Sub.refl _) (Keeps.refl _ s)
  | .jrpRegWrite _ _, s, _, _ => execJrpRegWrite_keeps (Sub.refl _) (Keeps.refl _ s)
  | .imgBegin _ _, s, _, _ => execImgBegin_keeps (Sub.refl _) (Keeps.refl _ s)
  | .imgData _ _, s, _, _ => execImgData_keeps (Sub.refl _) (Keeps.refl _ s)
  | .imgEnd _ _, s, _, _ => execImgEnd_keeps (Sub.refl _) (Keeps.refl _ s)
  | .imgAbort _ _, s, _, _ => execImgAbort_keeps (Sub.refl _) (Keeps.refl _ s)
  | .jrpReset _ _, s, _, _ => execJrpReset_keeps (Sub.refl _) (Keeps.refl _ s)
  | .jrpBadCmd _ _, s, _, _ => execJrpBadCmd_keeps (Sub.refl _) (Keeps.refl _ s)
  | .jrpUartGap, s, _, _ => execJrpUartGap_keeps (Sub.refl _) (Keeps.refl _ s)
  | .jrpBaudRevert, s, _, _ => execJrpBaudRevert_keeps (Sub.refl _) (Keeps.refl _ s)
  | .cmdNop _ _, s, _, _ => execCmdNop_keeps (Sub.refl _) (Keeps.refl _ s)
  | .cmdArm _ _, s, _, _ => execCmdArm_keeps (Sub.refl _) (Keeps.refl _ s)
  | .armEntryArrive _, s, _, _ => execArmEntryArrive_keeps (Sub.refl _) (Keeps.refl _ s)
  | .armProgramArrive _, s, _, _ => execArmProgramArrive_keeps (Sub.refl _) (Keeps.refl _ s)
  | .cmdDisarm _ _ _, s, _, _ => execCmdDisarm_keeps (Sub.refl _) (Keeps.refl _ s)
  | .cmdRefresh _ _, s, _, _ => execCmdRefresh_keeps (Sub.refl _) (Keeps.refl _ s)
  | .refreshSwap, s, _, _ => execRefreshSwap_keeps (Sub.refl _) (Keeps.refl _ s)
  | .cmdMail _ _, s, _, _ => execCmdMail_keeps (Sub.refl _) (Keeps.refl _ s)
  | .cmdPlan _ _, s, _, _ => execCmdPlan_keeps (Sub.refl _) (Keeps.refl _ s)
  | .planArrive _, s, _, _ => execPlanArrive_keeps (Sub.refl _) (Keeps.refl _ s)
  | .cmdPageAbort _ _, s, _, _ => execCmdPageAbort_keeps (Sub.refl _) (Keeps.refl _ s)
  | .cmdBad _ _, s, _, _ => execCmdBad_keeps (Sub.refl _) (Keeps.refl _ s)
  | .cqEnable _ _, s, _, _ => execCqEnable_keeps (Sub.refl _) (Keeps.refl _ s)
  | .cqReadError _, s, _, _ => execCqReadError_keeps (Sub.refl _) (Keeps.refl _ s)
  | .cpqEnable _, s, _, _ => execCpqEnable_keeps (Sub.refl _) (Keeps.refl _ s)
  | .cpqRecordWrite, s, _, _ => execCpqRecordWrite_keeps (Sub.refl _) (Keeps.refl _ s)
  | .msixCoalTimeout _, s, _, _ => execMsixCoalTimeout_keeps (Sub.refl _) (Keeps.refl _ s)
  | .recover _, s, _, _ => execRecover_keeps (Sub.refl _) (Keeps.refl _ s)
  | .recoverRecord, s, _, _ => execRecoverRecord_keeps (Sub.refl _) (Keeps.refl _ s)
  | .perstAssert, s, _, _ => execPerstAssert_keeps (Sub.refl _) (Keeps.refl _ s)
  | .perstRelease, s, _, _ => execPerstRelease_keeps (Sub.refl _) (Keeps.refl _ s)
  | .bar2Write _ _, s, _, _ => execBar2Write_keeps (Sub.refl _) (Keeps.refl _ s)
  | .bar2Read _ _ _, s, _, _ => execBar2Read_keeps (Sub.refl _) (Keeps.refl _ s)
  | .blockedInstructionResume _ _, s, _, _ => execBlockedInstructionResume_keeps (Sub.refl _) (Keeps.refl _ s)
  | .illegalOpcode _, s, _, _ => execIllegalOpcode_keeps (Sub.refl _) (Keeps.refl _ s)
  | .nop _, s, _, _ => execNop_keeps (Sub.refl _) (Keeps.refl _ s)
  | .jmp _, s, _, _ => execJmp_keeps (Sub.refl _) (Keeps.refl _ s)
  | .jcc _, s, _, _ => execJcc_keeps (Sub.refl _) (Keeps.refl _ s)
  | .call _, s, _, _ => execCall_keeps (Sub.refl _) (Keeps.refl _ s)
  | .ret _, s, _, _ => execRet_keeps (Sub.refl _) (Keeps.refl _ s)
  | .loop _, s, _, _ => execLoop_keeps (Sub.refl _) (Keeps.refl _ s)
  | .halt _, s, _, _ => execHalt_keeps (Sub.refl _) (Keeps.refl _ s)
  | .ldi _, s, _, _ => execLdi_keeps (Sub.refl _) (Keeps.refl _ s)
  | .ldh _, s, _, _ => execLdh_keeps (Sub.refl _) (Keeps.refl _ s)
  | .mov _, s, _, _ => execMov_keeps (Sub.refl _) (Keeps.refl _ s)
  | .movFlagsRead _, s, _, _ => execMovFlagsRead_keeps (Sub.refl _) (Keeps.refl _ s)
  | .movFlagsWrite _, s, _, _ => execMovFlagsWrite_keeps (Sub.refl _) (Keeps.refl _ s)
  | .movStatus _, s, _, _ => execMovStatus_keeps (Sub.refl _) (Keeps.refl _ s)
  | .add _, s, _, _ => execAdd_keeps (Sub.refl _) (Keeps.refl _ s)
  | .sub _, s, _, _ => execSub_keeps (Sub.refl _) (Keeps.refl _ s)
  | .and _, s, _, _ => execAnd_keeps (Sub.refl _) (Keeps.refl _ s)
  | .or _, s, _, _ => execOr_keeps (Sub.refl _) (Keeps.refl _ s)
  | .xor _, s, _, _ => execXor_keeps (Sub.refl _) (Keeps.refl _ s)
  | .shl _, s, _, _ => execShl_keeps (Sub.refl _) (Keeps.refl _ s)
  | .shr _, s, _, _ => execShr_keeps (Sub.refl _) (Keeps.refl _ s)
  | .cmp _, s, _, _ => execCmp_keeps (Sub.refl _) (Keeps.refl _ s)
  | .ldm _, s, _, _ => execLdm_keeps (Sub.refl _) (Keeps.refl _ s)
  | .stm _, s, _, _ => execStm_keeps (Sub.refl _) (Keeps.refl _ s)
  | .waitet _, s, _, _ => execWaitet_keeps (Sub.refl _) (Keeps.refl _ s)
  | .waitth _, s, _, _ => execWaitth_keeps (Sub.refl _) (Keeps.refl _ s)
  | .waitev _, s, _, _ => execWaitev_keeps (Sub.refl _) (Keeps.refl _ s)
  | .atPfx _, s, _, _ => execAtPfx_keeps (Sub.refl _) (Keeps.refl _ s)
  | .atthPfx _, s, _, _ => execAtthPfx_keeps (Sub.refl _) (Keeps.refl _ s)
  | .push _, s, _, _ => execPush_keeps (Sub.refl _) (Keeps.refl _ s)
  | .pop _, s, _, _ => execPop_keeps (Sub.refl _) (Keeps.refl _ s)
  | .take _, s, _, _ => execTake_keeps (Sub.refl _) (Keeps.refl _ s)
  | .give _, s, _, _ => execGive_keeps (Sub.refl _) (Keeps.refl _ s)
  | .move _, s, _, _ => execMove_keeps (Sub.refl _) (Keeps.refl _ s)
  | .movx _, s, _, _ => execMovx_keeps (Sub.refl _) (Keeps.refl _ s)
  | .setp _, s, _, _ => execSetp_keeps (Sub.refl _) (Keeps.refl _ s)
  | .ramp _, s, _, _ => execRamp_keeps (Sub.refl _) (Keeps.refl _ s)
  | .loopon _, s, _, _ => execLoopon_keeps (Sub.refl _) (Keeps.refl _ s)
  | .loopoff _, s, _, _ => execLoopoff_keeps (Sub.refl _) (Keeps.refl _ s)
  | .fire _, s, _, _ => execFire_keeps (Sub.refl _) (Keeps.refl _ s)
  | .strobe _, s, _, _ => execStrobe_keeps (Sub.refl _) (Keeps.refl _ s)
  | .scanl _, s, _, _ => execScanl_keeps (Sub.refl _) (Keeps.refl _ s)
  | .sig _, s, _, _ => execSig_keeps (Sub.refl _) (Keeps.refl _ s)
  | .fence _, s, _, _ => execFence_keeps (Sub.refl _) (Keeps.refl _ s)
  | .commitAdmit _ _, s, _, _ => execCommitAdmit_keeps (Sub.refl _) (Keeps.refl _ s)
  | .commitDone _, s, _, _ => execCommitDone_keeps (Sub.refl _) (Keeps.refl _ s)
  | .abort _, s, _, _ => execAbort_keeps (Sub.refl _) (Keeps.refl _ s)
  | .log _, s, _, _ => execLog_keeps (Sub.refl _) (Keeps.refl _ s)
  | .trap _, s, _, _ => execTrap_keeps (Sub.refl _) (Keeps.refl _ s)
  | .wheelDispatch, s, _, _ => execWheelDispatch_keeps (Sub.refl _) (Keeps.refl _ s)
  | .guardOpen, s, _, _ => execGuardOpen_keeps (Sub.refl _) (Keeps.refl _ s)
  | .trkEdge _, s, _, _ => execTrkEdge_keeps (Sub.refl _) (Keeps.refl _ s)
  | .trkSynthInsert _, s, _, _ => execTrkSynthInsert_keeps (Sub.refl _) (Keeps.refl _ s)
  | .trkEnable _ _, s, _, _ => execTrkEnable_keeps (Sub.refl _) (Keeps.refl _ s)
  | .trkDisable _, s, _, _ => execTrkDisable_keeps (Sub.refl _) (Keeps.refl _ s)
  | .trkRearm _, s, _, _ => execTrkRearm_keeps (Sub.refl _) (Keeps.refl _ s)
  | .trkReacq _, s, _, _ => execTrkReacq_keeps (Sub.refl _) (Keeps.refl _ s)
  | .memInit, s, _, _ => execMemInit_keeps (Sub.refl _) (Keeps.refl _ s)
  | .memTrainingDone _, s, _, _ => execMemTrainingDone_keeps (Sub.refl _) (Keeps.refl _ s)
  | .arbRound _ _ _ _, s, _, _ => execArbRound_keeps (Sub.refl _) (Keeps.refl _ s)
  | .quotaWindowEnd _, s, _, _ => execQuotaWindowEnd_keeps (Sub.refl _) (Keeps.refl _ s)
  | .arbReferenceWindow, s, _, _ => execArbReferenceWindow_keeps (Sub.refl _) (Keeps.refl _ s)
  | .memRefresh, s, _, _ => execMemRefresh_keeps (Sub.refl _) (Keeps.refl _ s)
  | .mr4Poll _, s, _, _ => execMr4Poll_keeps (Sub.refl _) (Keeps.refl _ s)
  | .memCopyGo _, s, _, _ => execMemCopyGo_keeps (Sub.refl _) (Keeps.refl _ s)
  | .memCopyDone _ _, s, _, _ => execMemCopyDone_keeps (Sub.refl _) (Keeps.refl _ s)
  | .arbSnap, s, _, _ => execArbSnap_keeps (Sub.refl _) (Keeps.refl _ s)
  | .arbPresetLoad _, s, _, _ => execArbPresetLoad_keeps (Sub.refl _) (Keeps.refl _ s)
  | .landResWrite _ _ _, s, _, _ => execLandResWrite_keeps (Sub.refl _) (Keeps.refl _ s)
  | .bandFetch _ _, s, _, _ => execBandFetch_keeps (Sub.refl _) (Keeps.refl _ s)
  | .tampDecodeBlock _ _, s, _, _ => execTampDecodeBlock_keeps (Sub.refl _) (Keeps.refl _ s)
  | .tampEncodeBlock _ _, s, _, _ => execTampEncodeBlock_keeps (Sub.refl _) (Keeps.refl _ s)
  | .tampGenGo, s, _, _ => execTampGenGo_keeps (Sub.refl _) (Keeps.refl _ s)
  | .tampGenDone, s, _, _ => execTampGenDone_keeps (Sub.refl _) (Keeps.refl _ s)
  | .bandStage _ _, s, _, _ => execBandStage_keeps (Sub.refl _) (Keeps.refl _ s)
  | .bandCheckDone _, s, _, _ => execBandCheckDone_keeps (Sub.refl _) (Keeps.refl _ s)
  | .bdWindowExpire _, s, _, _ => execBdWindowExpire_keeps (Sub.refl _) (Keeps.refl _ s)
  | .beamLineStart _ _ _, s, _, _ => execBeamLineStart_keeps (Sub.refl _) (Keeps.refl _ s)
  | .bandRelease _, s, _, _ => execBandRelease_keeps (Sub.refl _) (Keeps.refl _ s)
  | .apcSample _ _ _, s, _, _ => execApcSample_keeps (Sub.refl _) (Keeps.refl _ s)
  | .apcOvp _ _, s, _, _ => execApcOvp_keeps (Sub.refl _) (Keeps.refl _ s)
  | .calTimeout _, s, _, _ => execCalTimeout_keeps (Sub.refl _) (Keeps.refl _ s)
  | .beamOn _, s, _, _ => execBeamOn_keeps (Sub.refl _) (Keeps.refl _ s)
  | .beamOff _, s, _, _ => execBeamOff_keeps (Sub.refl _) (Keeps.refl _ s)
  | .beamRecal _, s, _, _ => execBeamRecal_keeps (Sub.refl _) (Keeps.refl _ s)
  | .segmentTakeup _, s, _, _ => execSegmentTakeup_keeps (Sub.refl _) (Keeps.refl _ s)
  | .trajectoryUpdate _, s, _, _ => execTrajectoryUpdate_keeps (Sub.refl _) (Keeps.refl _ s)
  | .motOvercurrent _, s, _, _ => execMotOvercurrent_keeps (Sub.refl _) (Keeps.refl _ s)
  | .bldcStall _, s, _, _ => execBldcStall_keeps (Sub.refl _) (Keeps.refl _ s)
  | .hallFault _, s, _, _ => execHallFault_keeps (Sub.refl _) (Keeps.refl _ s)
  | .hallEdge _ _, s, _, _ => execHallEdge_keeps (Sub.refl _) (Keeps.refl _ s)
  | .motStop _, s, _, _ => execMotStop_keeps (Sub.refl _) (Keeps.refl _ s)
  | .motClr _, s, _, _ => execMotClr_keeps (Sub.refl _) (Keeps.refl _ s)
  | .motSetpos _, s, _, _ => execMotSetpos_keeps (Sub.refl _) (Keeps.refl _ s)
  | .loopSample _ _, s, _, _ => execLoopSample_keeps (Sub.refl _) (Keeps.refl _ s)
  | .loopOutput _, s, _, _ => execLoopOutput_keeps (Sub.refl _) (Keeps.refl _ s)
  | .hvIlim _, s, _, _ => execHvIlim_keeps (Sub.refl _) (Keeps.refl _ s)
  | .hvCoolExpire _, s, _, _ => execHvCoolExpire_keeps (Sub.refl _) (Keeps.refl _ s)
  | .zeroCrossing, s, _, _ => execZeroCrossing_keeps (Sub.refl _) (Keeps.refl _ s)
  | .heaterBurst _, s, _, _ => execHeaterBurst_keeps (Sub.refl _) (Keeps.refl _ s)
  | .fuserCheck _, s, _, _ => execFuserCheck_keeps (Sub.refl _) (Keeps.refl _ s)
  | .loopClr _, s, _, _ => execLoopClr_keeps (Sub.refl _) (Keeps.refl _ s)
  | .loopOff _, s, _, _ => execLoopOff_keeps (Sub.refl _) (Keeps.refl _ s)
  | .headSlotLatch _, s, _, _ => execHeadSlotLatch_keeps (Sub.refl _) (Keeps.refl _ s)
  | .headGroupSlot, s, _, _ => execHeadGroupSlot_keeps (Sub.refl _) (Keeps.refl _ s)
  | .headLineEnd, s, _, _ => execHeadLineEnd_keeps (Sub.refl _) (Keeps.refl _ s)
  | .headTempConvert _, s, _, _ => execHeadTempConvert_keeps (Sub.refl _) (Keeps.refl _ s)
  | .headOn, s, _, _ => execHeadOn_keeps (Sub.refl _) (Keeps.refl _ s)
  | .headOff, s, _, _ => execHeadOff_keeps (Sub.refl _) (Keeps.refl _ s)
  | .scanExposureEnd, s, _, _ => execScanExposureEnd_keeps (Sub.refl _) (Keeps.refl _ s)
  | .scanLineEnd _, s, _, _ => execScanLineEnd_keeps (Sub.refl _) (Keeps.refl _ s)
  | .scanRawWrite, s, _, _ => execScanRawWrite_keeps (Sub.refl _) (Keeps.refl _ s)
  | .scanBufPush, s, _, _ => execScanBufPush_keeps (Sub.refl _) (Keeps.refl _ s)
  | .scanOn, s, _, _ => execScanOn_keeps (Sub.refl _) (Keeps.refl _ s)
  | .scanOff, s, _, _ => execScanOff_keeps (Sub.refl _) (Keeps.refl _ s)
  | .scanCal, s, _, _ => execScanCal_keeps (Sub.refl _) (Keeps.refl _ s)
  | .scanCalComplete _ _ _ _, s, _, _ => execScanCalComplete_keeps (Sub.refl _) (Keeps.refl _ s)
  | .pageAbortComplete _, s, _, _ => execPageAbortComplete_keeps (Sub.refl _) (Keeps.refl _ s)
  | .sheetRecordStage, s, _, _ => execSheetRecordStage_keeps (Sub.refl _) (Keeps.refl _ s)
  | .jamDetect _, s, _, _ => execJamDetect_keeps (Sub.refl _) (Keeps.refl _ s)
  | .jamlatchClear _, s, _, _ => execJamlatchClear_keeps (Sub.refl _) (Keeps.refl _ s)
  | .nvWrite, s, _, _ => execNvWrite_keeps (Sub.refl _) (Keeps.refl _ s)
  | .logRecordCommit, s, _, _ => execLogRecordCommit_keeps (Sub.refl _) (Keeps.refl _ s)
  | .logReadout _ _, s, _, _ => execLogReadout_keeps (Sub.refl _) (Keeps.refl _ s)
  | .logExport _ _, s, _, _ => execLogExport_keeps (Sub.refl _) (Keeps.refl _ s)
  | .logExportDone, s, _, _ => execLogExportDone_keeps (Sub.refl _) (Keeps.refl _ s)
  | .skidEnum, s, _, _ => execSkidEnum_keeps (Sub.refl _) (Keeps.refl _ s)
  | .enumFrame _ _ _ _, s, _, _ => execEnumFrame_keeps (Sub.refl _) (Keeps.refl _ s)
  | .enumLinkWaitExpire, s, _, _ => execEnumLinkWaitExpire_keeps (Sub.refl _) (Keeps.refl _ s)
  | .enumReply _ _, s, _, _ => execEnumReply_keeps (Sub.refl _) (Keeps.refl _ s)
  | .enumTimeout _, s, _, _ => execEnumTimeout_keeps (Sub.refl _) (Keeps.refl _ s)
  | .noManager, s, _, _ => execNoManager_keeps (Sub.refl _) (Keeps.refl _ s)
  | .heartbeatSend, s, _, _ => execHeartbeatSend_keeps (Sub.refl _) (Keeps.refl _ s)
  | .heartbeatFrame _ _, s, _, _ => execHeartbeatFrame_keeps (Sub.refl _) (Keeps.refl _ s)
  | .echoFrame _ _, s, _, _ => execEchoFrame_keeps (Sub.refl _) (Keeps.refl _ s)
  | .heartbeatMiss, s, _, _ => execHeartbeatMiss_keeps (Sub.refl _) (Keeps.refl _ s)
  | .echoMiss _, s, _, _ => execEchoMiss_keeps (Sub.refl _) (Keeps.refl _ s)
  | .tsyncFrame _, s, _, _ => execTsyncFrame_keeps (Sub.refl _) (Keeps.refl _ s)
  | .tsyncAcquired, s, _, _ => execTsyncAcquired_keeps (Sub.refl _) (Keeps.refl _ s)
  | .cPartClear, s, _, _ => execCPartClear_keeps (Sub.refl _) (Keeps.refl _ s)
  | .skidAckFrame _, s, _, _ => execSkidAckFrame_keeps (Sub.refl _) (Keeps.refl _ s)
  | .skidAckTimeout _, s, _, _ => execSkidAckTimeout_keeps (Sub.refl _) (Keeps.refl _ s)
  | .skidPortRetrain _, s, _, _ => execSkidPortRetrain_keeps (Sub.refl _) (Keeps.refl _ s)
  | .skidCmdFrame _, s, _, _ => execSkidCmdFrame_keeps (Sub.refl _) (Keeps.refl _ s)
  | .skidRecordFrame _ _, s, _, _ => execSkidRecordFrame_keeps (Sub.refl _) (Keeps.refl _ s)
  | .skidSigFrame _ _ _ _, s, _, _ => execSkidSigFrame_keeps (Sub.refl _) (Keeps.refl _ s)
  | .skidBusmasterFrame _ _ _ _ _, s, _, _ => execSkidBusmasterFrame_keeps (Sub.refl _) (Keeps.refl _ s)
  | .skidWinGo _, s, _, _ => execSkidWinGo_keeps (Sub.refl _) (Keeps.refl _ s)
  | .skidWinFrame _ _ _, s, _, _ => execSkidWinFrame_keeps (Sub.refl _) (Keeps.refl _ s)
  | .skidRecoverFrame _ _ _, s, _, _ => execSkidRecoverFrame_keeps (Sub.refl _) (Keeps.refl _ s)
  | .skidRecoverDone _, s, _, _ => execSkidRecoverDone_keeps (Sub.refl _) (Keeps.refl _ s)
  | .skidPowerFrame _, s, _, _ => execSkidPowerFrame_keeps (Sub.refl _) (Keeps.refl _ s)
  | .skidOffReport _, s, _, _ => execSkidOffReport_keeps (Sub.refl _) (Keeps.refl _ s)
  | .workerOffTimeout, s, _, _ => execWorkerOffTimeout_keeps (Sub.refl _) (Keeps.refl _ s)
  | .rcFieldRead _ _, s, _, _ => execRcFieldRead_keeps (Sub.refl _) (Keeps.refl _ s)
  | .cueUncorrectableEcc _, s, _, _ => execCueUncorrectableEcc_keeps (Sub.refl _) (Keeps.refl _ s)
  | .skidPartnerSignal _ _, s, _, _ => execSkidPartnerSignal_keeps (Sub.refl _) (Keeps.refl _ s)
  | .skidLanesAligned _, s, _, _ => execSkidLanesAligned_keeps (Sub.refl _) (Keeps.refl _ s)
  | .skidWinReply _ _, s, _, _ => execSkidWinReply_keeps (Sub.refl _) (Keeps.refl _ s)
  | .logReadoutDone, s, _, _ => execLogReadoutDone_keeps (Sub.refl _) (Keeps.refl _ s)

/-- Every command keeps it, LOCK apart. -/
theorem exec_keeps_unlocked (c : Instr) (s : State) : KeepsO 8388607 { s with lock := false } (exec c s) := by
  have h0 : Keeps 8388607 { s with lock := false } s :=
    ⟨fun p hp => by cases p <;> first | rfl | exact absurd hp (by decide),
      rfl, ⟨[], by simp⟩, Nat.le_refl _, fun _ _ h => h, fun h => absurd (show false = true from h) (by decide), id, id, fun _ => id⟩
  by_cases h1 : c = .aonPorAssert
  · subst h1; exact execAonPorAssert_keeps rfl rfl h0
  · by_cases h2 : c = .mrstAssert
    · subst h2; exact execMrstAssert_keeps rfl rfl h0
    · intro t e
      have h := exec_keeps c s h1 h2 t e
      exact ⟨fun p hp => by cases p <;> exact absurd hp (by decide), h.2.1, h.2.2.1, h.2.2.2.1, h.2.2.2.2.1,
        fun g => absurd (show false = true from g) (by decide), h.2.2.2.2.2.2⟩

end Sys2Proof.Machine
end

