-- ==== Sys2Proof/Laws/Events.lean ====
section
/-!
SUPPORT. What the shared ways to tell the outside leave as it is: an ENGINE record, an AON event, a log record, an event
to a channel. One lemma per operation and part.
-/

namespace Sys2Proof.Machine

set_option linter.all false

/-- What an ENGINE record or an AON event may change: flume controls, the host side, the latches of AON events. -/
def TellS (s t : State) : Prop :=
  t = { s with fl := t.fl, host := t.host, aon := { s.aon with latches := t.aon.latches } } ∧ t.host.perst = s.host.perst ∧
    t.host.linkUp = s.host.linkUp ∧ t.host.regs = s.host.regs

theorem TellS.refl (s : State) : TellS s s := ⟨rfl, rfl, rfl, rfl⟩
theorem TellS.trans {r s t : State} (h : TellS r s) (g : TellS s t) : TellS r t := by
  obtain ⟨h, h1, h2, h3⟩ := h
  obtain ⟨g, g1, g2, g3⟩ := g
  refine ⟨?_, g1.trans h1, g2.trans h2, g3.trans h3⟩
  rw [h] at g
  exact g

theorem TellS.fl {s : State} {f : FlumeId} {g : Flume → Flume} : TellS s (modFl f g s) := ⟨rfl, rfl, rfl, rfl⟩
theorem TellS.take {s : State} {f : FlumeId} : TellS s (takeTally f s) := ⟨rfl, rfl, rfl, rfl⟩
theorem TellS.stage {s : State} {r : Rec} {k : StgClass} {b : Bool} : TellS s (stage r k b s) := by
  unfold Machine.stage takeClass; split <;> exact ⟨rfl, rfl, rfl, rfl⟩

/-- A record that waits as a latch or as an AON event is never lost and closes nothing. -/
theorem TellS.post {s : State} {r : Rec} {w : Waiter} (h : (∃ a b n, w = .latch a b n) ∨ w = .event) : TellS s (post r w s) := by
  unfold Machine.post
  have hl : losesRec s w = false := by rcases h with ⟨a, b, n, rfl⟩ | rfl <;> rfl
  rw [if_neg (by rw [hl]; simp)]
  split
  · rcases h with ⟨a, b, n, rfl⟩ | rfl <;> exact TellS.stage
  · exact ⟨rfl, rfl, rfl, rfl⟩

theorem engine_tell {src code res : Nat} {data : List Byte} {s : State} : TellS s (engine src code res data s) := by
  unfold engine
  split
  · exact ⟨rfl, rfl, rfl, rfl⟩
  · exact TellS.post (.inl ⟨_, _, _, rfl⟩)

@[simp] theorem engine_aon {src code res : Nat} {data : List Byte} {s : State} : (engine src code res data s).aon = s.aon := by
  unfold engine
  split
  · rfl
  · unfold post
    rw [if_neg (by simp [losesRec])]
    split
    · show (stage _ _ _ s).aon = _
      unfold stage takeClass; split <;> rfl
    · rfl

theorem aonEvent_tell {code : Nat} {d0 d1 : Word} {s : State} : TellS s (aonEvent code d0 d1 s) := by
  unfold aonEvent
  split
  · exact ⟨rfl, rfl, rfl, rfl⟩
  · dsimp only
    split
    · exact TellS.take.trans (TellS.post (.inr rfl))
    · exact ⟨rfl, rfl, rfl, rfl⟩

/-- A log record changes the log flume and its latches. -/
theorem logPut_eq {src : Nat} {e : LogEntry} {s : State} :
    logPut src e s =
      { s with fl := (logPut src e s).fl
               lg := { s.lg with queue := (logPut src e s).lg.queue, latches := (logPut src e s).lg.latches } } := by
  unfold logPut
  split
  · rfl
  · split <;> rfl

theorem logCode_eq {code : Nat} {d0 d1 : Word} {s : State} :
    logCode code d0 d1 s = { s with fl := (logCode code d0 d1 s).fl,
                                    lg := { s.lg with queue := (logCode code d0 d1 s).lg.queue, latches := (logCode code d0 d1 s).lg.latches } } :=
  logPut_eq

theorem TellS.now_eq {s t : State} (h : TellS s t) : t.now = s.now := by rw [h.1]
theorem TellS.therm_eq {s t : State} (h : TellS s t) : t.therm = s.therm := by rw [h.1]
theorem TellS.nv_eq {s t : State} (h : TellS s t) : t.nv = s.nv := by rw [h.1]
theorem TellS.lg_eq {s t : State} (h : TellS s t) : t.lg = s.lg := by rw [h.1]
theorem TellS.boot_eq {s t : State} (h : TellS s t) : t.boot = s.boot := by rw [h.1]
theorem TellS.lock_eq {s t : State} (h : TellS s t) : t.lock = s.lock := by rw [h.1]
theorem TellS.epoch_eq {s t : State} (h : TellS s t) : t.epoch = s.epoch := by rw [h.1]
theorem TellS.flSel_eq {s t : State} (h : TellS s t) : t.flSel = s.flSel := by rw [h.1]
theorem TellS.cue_eq {s t : State} (h : TellS s t) : t.cue = s.cue := by rw [h.1]
theorem TellS.mem_eq {s t : State} (h : TellS s t) : t.mem = s.mem := by rw [h.1]
theorem TellS.rast_eq {s t : State} (h : TellS s t) : t.rast = s.rast := by rw [h.1]
theorem TellS.beam_eq {s t : State} (h : TellS s t) : t.beam = s.beam := by rw [h.1]
theorem TellS.motn_eq {s t : State} (h : TellS s t) : t.motn = s.motn := by rw [h.1]
theorem TellS.loops_eq {s t : State} (h : TellS s t) : t.loops = s.loops := by rw [h.1]
theorem TellS.head_eq {s t : State} (h : TellS s t) : t.head = s.head := by rw [h.1]
theorem TellS.scan_eq {s t : State} (h : TellS s t) : t.scan = s.scan := by rw [h.1]
theorem TellS.skid_eq {s t : State} (h : TellS s t) : t.skid = s.skid := by rw [h.1]
theorem TellS.out_eq {s t : State} (h : TellS s t) : t.out = s.out := by rw [h.1]
theorem TellS.freeCount_eq {s t : State} (h : TellS s t) : t.freeCount = s.freeCount := by rw [h.1]
theorem TellS.pending_eq {s t : State} (h : TellS s t) : t.pending = s.pending := by rw [h.1]
theorem TellS.aon_eq {s t : State} (h : TellS s t) : t.aon = { s.aon with latches := t.aon.latches } := congrArg State.aon h.1

@[simp] theorem aonEvent_now {code : Nat} {d0 d1 : Word} {s : State} : (aonEvent code d0 d1 s).now = s.now := aonEvent_tell.now_eq
@[simp] theorem aonEvent_therm {code : Nat} {d0 d1 : Word} {s : State} : (aonEvent code d0 d1 s).therm = s.therm := aonEvent_tell.therm_eq
@[simp] theorem aonEvent_nv {code : Nat} {d0 d1 : Word} {s : State} : (aonEvent code d0 d1 s).nv = s.nv := aonEvent_tell.nv_eq
@[simp] theorem aonEvent_lg {code : Nat} {d0 d1 : Word} {s : State} : (aonEvent code d0 d1 s).lg = s.lg := aonEvent_tell.lg_eq
@[simp] theorem aonEvent_boot {code : Nat} {d0 d1 : Word} {s : State} : (aonEvent code d0 d1 s).boot = s.boot := aonEvent_tell.boot_eq
@[simp] theorem aonEvent_lock {code : Nat} {d0 d1 : Word} {s : State} : (aonEvent code d0 d1 s).lock = s.lock := aonEvent_tell.lock_eq
@[simp] theorem aonEvent_epoch {code : Nat} {d0 d1 : Word} {s : State} : (aonEvent code d0 d1 s).epoch = s.epoch := aonEvent_tell.epoch_eq
@[simp] theorem aonEvent_flSel {code : Nat} {d0 d1 : Word} {s : State} : (aonEvent code d0 d1 s).flSel = s.flSel := aonEvent_tell.flSel_eq
@[simp] theorem aonEvent_cue {code : Nat} {d0 d1 : Word} {s : State} : (aonEvent code d0 d1 s).cue = s.cue := aonEvent_tell.cue_eq
@[simp] theorem aonEvent_mem {code : Nat} {d0 d1 : Word} {s : State} : (aonEvent code d0 d1 s).mem = s.mem := aonEvent_tell.mem_eq
@[simp] theorem aonEvent_rast {code : Nat} {d0 d1 : Word} {s : State} : (aonEvent code d0 d1 s).rast = s.rast := aonEvent_tell.rast_eq
@[simp] theorem aonEvent_beam {code : Nat} {d0 d1 : Word} {s : State} : (aonEvent code d0 d1 s).beam = s.beam := aonEvent_tell.beam_eq
@[simp] theorem aonEvent_motn {code : Nat} {d0 d1 : Word} {s : State} : (aonEvent code d0 d1 s).motn = s.motn := aonEvent_tell.motn_eq
@[simp] theorem aonEvent_loops {code : Nat} {d0 d1 : Word} {s : State} : (aonEvent code d0 d1 s).loops = s.loops := aonEvent_tell.loops_eq
@[simp] theorem aonEvent_head {code : Nat} {d0 d1 : Word} {s : State} : (aonEvent code d0 d1 s).head = s.head := aonEvent_tell.head_eq
@[simp] theorem aonEvent_scan {code : Nat} {d0 d1 : Word} {s : State} : (aonEvent code d0 d1 s).scan = s.scan := aonEvent_tell.scan_eq
@[simp] theorem aonEvent_skid {code : Nat} {d0 d1 : Word} {s : State} : (aonEvent code d0 d1 s).skid = s.skid := aonEvent_tell.skid_eq
@[simp] theorem aonEvent_out {code : Nat} {d0 d1 : Word} {s : State} : (aonEvent code d0 d1 s).out = s.out := aonEvent_tell.out_eq
@[simp] theorem aonEvent_freeCount {code : Nat} {d0 d1 : Word} {s : State} : (aonEvent code d0 d1 s).freeCount = s.freeCount := aonEvent_tell.freeCount_eq
@[simp] theorem aonEvent_pending {code : Nat} {d0 d1 : Word} {s : State} : (aonEvent code d0 d1 s).pending = s.pending := aonEvent_tell.pending_eq
@[simp] theorem engine_now {src code res : Nat} {data : List Byte} {s : State} : (engine src code res data s).now = s.now := engine_tell.now_eq
@[simp] theorem engine_therm {src code res : Nat} {data : List Byte} {s : State} : (engine src code res data s).therm = s.therm := engine_tell.therm_eq
@[simp] theorem engine_nv {src code res : Nat} {data : List Byte} {s : State} : (engine src code res data s).nv = s.nv := engine_tell.nv_eq
@[simp] theorem engine_lg {src code res : Nat} {data : List Byte} {s : State} : (engine src code res data s).lg = s.lg := engine_tell.lg_eq
@[simp] theorem engine_boot {src code res : Nat} {data : List Byte} {s : State} : (engine src code res data s).boot = s.boot := engine_tell.boot_eq
@[simp] theorem engine_lock {src code res : Nat} {data : List Byte} {s : State} : (engine src code res data s).lock = s.lock := engine_tell.lock_eq
@[simp] theorem engine_epoch {src code res : Nat} {data : List Byte} {s : State} : (engine src code res data s).epoch = s.epoch := engine_tell.epoch_eq
@[simp] theorem engine_flSel {src code res : Nat} {data : List Byte} {s : State} : (engine src code res data s).flSel = s.flSel := engine_tell.flSel_eq
@[simp] theorem engine_cue {src code res : Nat} {data : List Byte} {s : State} : (engine src code res data s).cue = s.cue := engine_tell.cue_eq
@[simp] theorem engine_mem {src code res : Nat} {data : List Byte} {s : State} : (engine src code res data s).mem = s.mem := engine_tell.mem_eq
@[simp] theorem engine_rast {src code res : Nat} {data : List Byte} {s : State} : (engine src code res data s).rast = s.rast := engine_tell.rast_eq
@[simp] theorem engine_beam {src code res : Nat} {data : List Byte} {s : State} : (engine src code res data s).beam = s.beam := engine_tell.beam_eq
@[simp] theorem engine_motn {src code res : Nat} {data : List Byte} {s : State} : (engine src code res data s).motn = s.motn := engine_tell.motn_eq
@[simp] theorem engine_loops {src code res : Nat} {data : List Byte} {s : State} : (engine src code res data s).loops = s.loops := engine_tell.loops_eq
@[simp] theorem engine_head {src code res : Nat} {data : List Byte} {s : State} : (engine src code res data s).head = s.head := engine_tell.head_eq
@[simp] theorem engine_scan {src code res : Nat} {data : List Byte} {s : State} : (engine src code res data s).scan = s.scan := engine_tell.scan_eq
@[simp] theorem engine_skid {src code res : Nat} {data : List Byte} {s : State} : (engine src code res data s).skid = s.skid := engine_tell.skid_eq
@[simp] theorem engine_out {src code res : Nat} {data : List Byte} {s : State} : (engine src code res data s).out = s.out := engine_tell.out_eq
@[simp] theorem engine_freeCount {src code res : Nat} {data : List Byte} {s : State} : (engine src code res data s).freeCount = s.freeCount := engine_tell.freeCount_eq
@[simp] theorem engine_pending {src code res : Nat} {data : List Byte} {s : State} : (engine src code res data s).pending = s.pending := engine_tell.pending_eq
@[simp] theorem logCode_now {code : Nat} {d0 d1 : Word} {s : State} : (logCode code d0 d1 s).now = s.now := by rw [logCode_eq]
@[simp] theorem logCode_aon {code : Nat} {d0 d1 : Word} {s : State} : (logCode code d0 d1 s).aon = s.aon := by rw [logCode_eq]
@[simp] theorem logCode_therm {code : Nat} {d0 d1 : Word} {s : State} : (logCode code d0 d1 s).therm = s.therm := by rw [logCode_eq]
@[simp] theorem logCode_nv {code : Nat} {d0 d1 : Word} {s : State} : (logCode code d0 d1 s).nv = s.nv := by rw [logCode_eq]
@[simp] theorem logCode_boot {code : Nat} {d0 d1 : Word} {s : State} : (logCode code d0 d1 s).boot = s.boot := by rw [logCode_eq]
@[simp] theorem logCode_lock {code : Nat} {d0 d1 : Word} {s : State} : (logCode code d0 d1 s).lock = s.lock := by rw [logCode_eq]
@[simp] theorem logCode_epoch {code : Nat} {d0 d1 : Word} {s : State} : (logCode code d0 d1 s).epoch = s.epoch := by rw [logCode_eq]
@[simp] theorem logCode_flSel {code : Nat} {d0 d1 : Word} {s : State} : (logCode code d0 d1 s).flSel = s.flSel := by rw [logCode_eq]
@[simp] theorem logCode_host {code : Nat} {d0 d1 : Word} {s : State} : (logCode code d0 d1 s).host = s.host := by rw [logCode_eq]
@[simp] theorem logCode_cue {code : Nat} {d0 d1 : Word} {s : State} : (logCode code d0 d1 s).cue = s.cue := by rw [logCode_eq]
@[simp] theorem logCode_mem {code : Nat} {d0 d1 : Word} {s : State} : (logCode code d0 d1 s).mem = s.mem := by rw [logCode_eq]
@[simp] theorem logCode_rast {code : Nat} {d0 d1 : Word} {s : State} : (logCode code d0 d1 s).rast = s.rast := by rw [logCode_eq]
@[simp] theorem logCode_beam {code : Nat} {d0 d1 : Word} {s : State} : (logCode code d0 d1 s).beam = s.beam := by rw [logCode_eq]
@[simp] theorem logCode_motn {code : Nat} {d0 d1 : Word} {s : State} : (logCode code d0 d1 s).motn = s.motn := by rw [logCode_eq]
@[simp] theorem logCode_loops {code : Nat} {d0 d1 : Word} {s : State} : (logCode code d0 d1 s).loops = s.loops := by rw [logCode_eq]
@[simp] theorem logCode_head {code : Nat} {d0 d1 : Word} {s : State} : (logCode code d0 d1 s).head = s.head := by rw [logCode_eq]
@[simp] theorem logCode_scan {code : Nat} {d0 d1 : Word} {s : State} : (logCode code d0 d1 s).scan = s.scan := by rw [logCode_eq]
@[simp] theorem logCode_skid {code : Nat} {d0 d1 : Word} {s : State} : (logCode code d0 d1 s).skid = s.skid := by rw [logCode_eq]
@[simp] theorem logCode_out {code : Nat} {d0 d1 : Word} {s : State} : (logCode code d0 d1 s).out = s.out := by rw [logCode_eq]
@[simp] theorem logCode_freeCount {code : Nat} {d0 d1 : Word} {s : State} : (logCode code d0 d1 s).freeCount = s.freeCount := by rw [logCode_eq]
@[simp] theorem logCode_pending {code : Nat} {d0 d1 : Word} {s : State} : (logCode code d0 d1 s).pending = s.pending := by rw [logCode_eq]
@[simp] theorem logPost_now {code : Nat} {d0 d1 : Word} {s : State} : (logPost code d0 d1 s).now = s.now := by unfold logPost; simp
@[simp] theorem logPost_therm {code : Nat} {d0 d1 : Word} {s : State} : (logPost code d0 d1 s).therm = s.therm := by unfold logPost; simp
@[simp] theorem logPost_nv {code : Nat} {d0 d1 : Word} {s : State} : (logPost code d0 d1 s).nv = s.nv := by unfold logPost; simp
@[simp] theorem logPost_boot {code : Nat} {d0 d1 : Word} {s : State} : (logPost code d0 d1 s).boot = s.boot := by unfold logPost; simp
@[simp] theorem logPost_lock {code : Nat} {d0 d1 : Word} {s : State} : (logPost code d0 d1 s).lock = s.lock := by unfold logPost; simp
@[simp] theorem logPost_epoch {code : Nat} {d0 d1 : Word} {s : State} : (logPost code d0 d1 s).epoch = s.epoch := by unfold logPost; simp
@[simp] theorem logPost_flSel {code : Nat} {d0 d1 : Word} {s : State} : (logPost code d0 d1 s).flSel = s.flSel := by unfold logPost; simp
@[simp] theorem logPost_cue {code : Nat} {d0 d1 : Word} {s : State} : (logPost code d0 d1 s).cue = s.cue := by unfold logPost; simp
@[simp] theorem logPost_mem {code : Nat} {d0 d1 : Word} {s : State} : (logPost code d0 d1 s).mem = s.mem := by unfold logPost; simp
@[simp] theorem logPost_rast {code : Nat} {d0 d1 : Word} {s : State} : (logPost code d0 d1 s).rast = s.rast := by unfold logPost; simp
@[simp] theorem logPost_beam {code : Nat} {d0 d1 : Word} {s : State} : (logPost code d0 d1 s).beam = s.beam := by unfold logPost; simp
@[simp] theorem logPost_motn {code : Nat} {d0 d1 : Word} {s : State} : (logPost code d0 d1 s).motn = s.motn := by unfold logPost; simp
@[simp] theorem logPost_loops {code : Nat} {d0 d1 : Word} {s : State} : (logPost code d0 d1 s).loops = s.loops := by unfold logPost; simp
@[simp] theorem logPost_head {code : Nat} {d0 d1 : Word} {s : State} : (logPost code d0 d1 s).head = s.head := by unfold logPost; simp
@[simp] theorem logPost_scan {code : Nat} {d0 d1 : Word} {s : State} : (logPost code d0 d1 s).scan = s.scan := by unfold logPost; simp
@[simp] theorem logPost_skid {code : Nat} {d0 d1 : Word} {s : State} : (logPost code d0 d1 s).skid = s.skid := by unfold logPost; simp
@[simp] theorem logPost_out {code : Nat} {d0 d1 : Word} {s : State} : (logPost code d0 d1 s).out = s.out := by unfold logPost; simp
@[simp] theorem logPost_freeCount {code : Nat} {d0 d1 : Word} {s : State} : (logPost code d0 d1 s).freeCount = s.freeCount := by unfold logPost; simp
@[simp] theorem logPost_pending {code : Nat} {d0 d1 : Word} {s : State} : (logPost code d0 d1 s).pending = s.pending := by unfold logPost; simp
@[simp] theorem aonEvent_aon_seqState {code : Nat} {d0 d1 : Word} {s : State} : (aonEvent code d0 d1 s).aon.seqState = s.aon.seqState := by rw [aonEvent_tell.aon_eq]
@[simp] theorem aonEvent_aon_rails {code : Nat} {d0 d1 : Word} {s : State} : (aonEvent code d0 d1 s).aon.rails = s.aon.rails := by rw [aonEvent_tell.aon_eq]
@[simp] theorem aonEvent_aon_doms {code : Nat} {d0 d1 : Word} {s : State} : (aonEvent code d0 d1 s).aon.doms = s.aon.doms := by rw [aonEvent_tell.aon_eq]
@[simp] theorem aonEvent_aon_started {code : Nat} {d0 d1 : Word} {s : State} : (aonEvent code d0 d1 s).aon.started = s.aon.started := by rw [aonEvent_tell.aon_eq]
@[simp] theorem aonEvent_aon_form {code : Nat} {d0 d1 : Word} {s : State} : (aonEvent code d0 d1 s).aon.form = s.aon.form := by rw [aonEvent_tell.aon_eq]
@[simp] theorem aonEvent_aon_faults {code : Nat} {d0 d1 : Word} {s : State} : (aonEvent code d0 d1 s).aon.faults = s.aon.faults := by rw [aonEvent_tell.aon_eq]
@[simp] theorem aonEvent_aon_hold {code : Nat} {d0 d1 : Word} {s : State} : (aonEvent code d0 d1 s).aon.hold = s.aon.hold := by rw [aonEvent_tell.aon_eq]
@[simp] theorem aonEvent_aon_assert_ {code : Nat} {d0 d1 : Word} {s : State} : (aonEvent code d0 d1 s).aon.assert_ = s.aon.assert_ := by rw [aonEvent_tell.aon_eq]
@[simp] theorem aonEvent_aon_cBeat {code : Nat} {d0 d1 : Word} {s : State} : (aonEvent code d0 d1 s).aon.cBeat = s.aon.cBeat := by rw [aonEvent_tell.aon_eq]
@[simp] theorem aonEvent_aon_cPart {code : Nat} {d0 d1 : Word} {s : State} : (aonEvent code d0 d1 s).aon.cPart = s.aon.cPart := by rw [aonEvent_tell.aon_eq]
@[simp] theorem aonEvent_aon_cTherm {code : Nat} {d0 d1 : Word} {s : State} : (aonEvent code d0 d1 s).aon.cTherm = s.aon.cTherm := by rw [aonEvent_tell.aon_eq]
@[simp] theorem aonEvent_aon_cSw {code : Nat} {d0 d1 : Word} {s : State} : (aonEvent code d0 d1 s).aon.cSw = s.aon.cSw := by rw [aonEvent_tell.aon_eq]
@[simp] theorem aonEvent_aon_cExt {code : Nat} {d0 d1 : Word} {s : State} : (aonEvent code d0 d1 s).aon.cExt = s.aon.cExt := by rw [aonEvent_tell.aon_eq]
@[simp] theorem aonEvent_aon_cRst {code : Nat} {d0 d1 : Word} {s : State} : (aonEvent code d0 d1 s).aon.cRst = s.aon.cRst := by rw [aonEvent_tell.aon_eq]
@[simp] theorem aonEvent_aon_por {code : Nat} {d0 d1 : Word} {s : State} : (aonEvent code d0 d1 s).aon.por = s.aon.por := by rw [aonEvent_tell.aon_eq]
@[simp] theorem aonEvent_aon_mrst {code : Nat} {d0 d1 : Word} {s : State} : (aonEvent code d0 d1 s).aon.mrst = s.aon.mrst := by rw [aonEvent_tell.aon_eq]
@[simp] theorem aonEvent_aon_strap {code : Nat} {d0 d1 : Word} {s : State} : (aonEvent code d0 d1 s).aon.strap = s.aon.strap := by rw [aonEvent_tell.aon_eq]
@[simp] theorem aonEvent_aon_press {code : Nat} {d0 d1 : Word} {s : State} : (aonEvent code d0 d1 s).aon.press = s.aon.press := by rw [aonEvent_tell.aon_eq]
@[simp] theorem aonEvent_aon_sheet {code : Nat} {d0 d1 : Word} {s : State} : (aonEvent code d0 d1 s).aon.sheet = s.aon.sheet := by rw [aonEvent_tell.aon_eq]
@[simp] theorem aonEvent_aon_scMask {code : Nat} {d0 d1 : Word} {s : State} : (aonEvent code d0 d1 s).aon.scMask = s.aon.scMask := by rw [aonEvent_tell.aon_eq]
@[simp] theorem aonEvent_aon_scDir {code : Nat} {d0 d1 : Word} {s : State} : (aonEvent code d0 d1 s).aon.scDir = s.aon.scDir := by rw [aonEvent_tell.aon_eq]
@[simp] theorem aonEvent_aon_scCur {code : Nat} {d0 d1 : Word} {s : State} : (aonEvent code d0 d1 s).aon.scCur = s.aon.scCur := by rw [aonEvent_tell.aon_eq]
@[simp] theorem aonEvent_aon_scSpmm {code : Nat} {d0 d1 : Word} {s : State} : (aonEvent code d0 d1 s).aon.scSpmm = s.aon.scSpmm := by rw [aonEvent_tell.aon_eq]
@[simp] theorem aonEvent_aon_retain {code : Nat} {d0 d1 : Word} {s : State} : (aonEvent code d0 d1 s).aon.retain = s.aon.retain := by rw [aonEvent_tell.aon_eq]
@[simp] theorem aonEvent_aon_shadow {code : Nat} {d0 d1 : Word} {s : State} : (aonEvent code d0 d1 s).aon.shadow = s.aon.shadow := by rw [aonEvent_tell.aon_eq]
@[simp] theorem aonEvent_aon_shadowValid {code : Nat} {d0 d1 : Word} {s : State} : (aonEvent code d0 d1 s).aon.shadowValid = s.aon.shadowValid := by rw [aonEvent_tell.aon_eq]
@[simp] theorem aonEvent_aon_irest {code : Nat} {d0 d1 : Word} {s : State} : (aonEvent code d0 d1 s).aon.irest = s.aon.irest := by rw [aonEvent_tell.aon_eq]
@[simp] theorem aonEvent_aon_usage {code : Nat} {d0 d1 : Word} {s : State} : (aonEvent code d0 d1 s).aon.usage = s.aon.usage := by rw [aonEvent_tell.aon_eq]
@[simp] theorem aonEvent_aon_pages {code : Nat} {d0 d1 : Word} {s : State} : (aonEvent code d0 d1 s).aon.pages = s.aon.pages := by rw [aonEvent_tell.aon_eq]
@[simp] theorem aonEvent_aon_lost {code : Nat} {d0 d1 : Word} {s : State} : (aonEvent code d0 d1 s).aon.lost = s.aon.lost := by rw [aonEvent_tell.aon_eq]
@[simp] theorem aonEvent_aon_safeHigh {code : Nat} {d0 d1 : Word} {s : State} : (aonEvent code d0 d1 s).aon.safeHigh = s.aon.safeHigh := by rw [aonEvent_tell.aon_eq]
@[simp] theorem aonEvent_aon_autoOn {code : Nat} {d0 d1 : Word} {s : State} : (aonEvent code d0 d1 s).aon.autoOn = s.aon.autoOn := by rw [aonEvent_tell.aon_eq]
@[simp] theorem aonEvent_aon_driveEnd {code : Nat} {d0 d1 : Word} {s : State} : (aonEvent code d0 d1 s).aon.driveEnd = s.aon.driveEnd := by rw [aonEvent_tell.aon_eq]
@[simp] theorem logPost_aon_seqState {code : Nat} {d0 d1 : Word} {s : State} : (logPost code d0 d1 s).aon.seqState = s.aon.seqState := by unfold logPost; rw [aonEvent_tell.aon_eq]; simp
@[simp] theorem logPost_aon_rails {code : Nat} {d0 d1 : Word} {s : State} : (logPost code d0 d1 s).aon.rails = s.aon.rails := by unfold logPost; rw [aonEvent_tell.aon_eq]; simp
@[simp] theorem logPost_aon_doms {code : Nat} {d0 d1 : Word} {s : State} : (logPost code d0 d1 s).aon.doms = s.aon.doms := by unfold logPost; rw [aonEvent_tell.aon_eq]; simp
@[simp] theorem logPost_aon_started {code : Nat} {d0 d1 : Word} {s : State} : (logPost code d0 d1 s).aon.started = s.aon.started := by unfold logPost; rw [aonEvent_tell.aon_eq]; simp
@[simp] theorem logPost_aon_form {code : Nat} {d0 d1 : Word} {s : State} : (logPost code d0 d1 s).aon.form = s.aon.form := by unfold logPost; rw [aonEvent_tell.aon_eq]; simp
@[simp] theorem logPost_aon_faults {code : Nat} {d0 d1 : Word} {s : State} : (logPost code d0 d1 s).aon.faults = s.aon.faults := by unfold logPost; rw [aonEvent_tell.aon_eq]; simp
@[simp] theorem logPost_aon_hold {code : Nat} {d0 d1 : Word} {s : State} : (logPost code d0 d1 s).aon.hold = s.aon.hold := by unfold logPost; rw [aonEvent_tell.aon_eq]; simp
@[simp] theorem logPost_aon_assert_ {code : Nat} {d0 d1 : Word} {s : State} : (logPost code d0 d1 s).aon.assert_ = s.aon.assert_ := by unfold logPost; rw [aonEvent_tell.aon_eq]; simp
@[simp] theorem logPost_aon_cBeat {code : Nat} {d0 d1 : Word} {s : State} : (logPost code d0 d1 s).aon.cBeat = s.aon.cBeat := by unfold logPost; rw [aonEvent_tell.aon_eq]; simp
@[simp] theorem logPost_aon_cPart {code : Nat} {d0 d1 : Word} {s : State} : (logPost code d0 d1 s).aon.cPart = s.aon.cPart := by unfold logPost; rw [aonEvent_tell.aon_eq]; simp
@[simp] theorem logPost_aon_cTherm {code : Nat} {d0 d1 : Word} {s : State} : (logPost code d0 d1 s).aon.cTherm = s.aon.cTherm := by unfold logPost; rw [aonEvent_tell.aon_eq]; simp
@[simp] theorem logPost_aon_cSw {code : Nat} {d0 d1 : Word} {s : State} : (logPost code d0 d1 s).aon.cSw = s.aon.cSw := by unfold logPost; rw [aonEvent_tell.aon_eq]; simp
@[simp] theorem logPost_aon_cExt {code : Nat} {d0 d1 : Word} {s : State} : (logPost code d0 d1 s).aon.cExt = s.aon.cExt := by unfold logPost; rw [aonEvent_tell.aon_eq]; simp
@[simp] theorem logPost_aon_cRst {code : Nat} {d0 d1 : Word} {s : State} : (logPost code d0 d1 s).aon.cRst = s.aon.cRst := by unfold logPost; rw [aonEvent_tell.aon_eq]; simp
@[simp] theorem logPost_aon_por {code : Nat} {d0 d1 : Word} {s : State} : (logPost code d0 d1 s).aon.por = s.aon.por := by unfold logPost; rw [aonEvent_tell.aon_eq]; simp
@[simp] theorem logPost_aon_mrst {code : Nat} {d0 d1 : Word} {s : State} : (logPost code d0 d1 s).aon.mrst = s.aon.mrst := by unfold logPost; rw [aonEvent_tell.aon_eq]; simp
@[simp] theorem logPost_aon_strap {code : Nat} {d0 d1 : Word} {s : State} : (logPost code d0 d1 s).aon.strap = s.aon.strap := by unfold logPost; rw [aonEvent_tell.aon_eq]; simp
@[simp] theorem logPost_aon_press {code : Nat} {d0 d1 : Word} {s : State} : (logPost code d0 d1 s).aon.press = s.aon.press := by unfold logPost; rw [aonEvent_tell.aon_eq]; simp
@[simp] theorem logPost_aon_sheet {code : Nat} {d0 d1 : Word} {s : State} : (logPost code d0 d1 s).aon.sheet = s.aon.sheet := by unfold logPost; rw [aonEvent_tell.aon_eq]; simp
@[simp] theorem logPost_aon_scMask {code : Nat} {d0 d1 : Word} {s : State} : (logPost code d0 d1 s).aon.scMask = s.aon.scMask := by unfold logPost; rw [aonEvent_tell.aon_eq]; simp
@[simp] theorem logPost_aon_scDir {code : Nat} {d0 d1 : Word} {s : State} : (logPost code d0 d1 s).aon.scDir = s.aon.scDir := by unfold logPost; rw [aonEvent_tell.aon_eq]; simp
@[simp] theorem logPost_aon_scCur {code : Nat} {d0 d1 : Word} {s : State} : (logPost code d0 d1 s).aon.scCur = s.aon.scCur := by unfold logPost; rw [aonEvent_tell.aon_eq]; simp
@[simp] theorem logPost_aon_scSpmm {code : Nat} {d0 d1 : Word} {s : State} : (logPost code d0 d1 s).aon.scSpmm = s.aon.scSpmm := by unfold logPost; rw [aonEvent_tell.aon_eq]; simp
@[simp] theorem logPost_aon_retain {code : Nat} {d0 d1 : Word} {s : State} : (logPost code d0 d1 s).aon.retain = s.aon.retain := by unfold logPost; rw [aonEvent_tell.aon_eq]; simp
@[simp] theorem logPost_aon_shadow {code : Nat} {d0 d1 : Word} {s : State} : (logPost code d0 d1 s).aon.shadow = s.aon.shadow := by unfold logPost; rw [aonEvent_tell.aon_eq]; simp
@[simp] theorem logPost_aon_shadowValid {code : Nat} {d0 d1 : Word} {s : State} : (logPost code d0 d1 s).aon.shadowValid = s.aon.shadowValid := by unfold logPost; rw [aonEvent_tell.aon_eq]; simp
@[simp] theorem logPost_aon_irest {code : Nat} {d0 d1 : Word} {s : State} : (logPost code d0 d1 s).aon.irest = s.aon.irest := by unfold logPost; rw [aonEvent_tell.aon_eq]; simp
@[simp] theorem logPost_aon_usage {code : Nat} {d0 d1 : Word} {s : State} : (logPost code d0 d1 s).aon.usage = s.aon.usage := by unfold logPost; rw [aonEvent_tell.aon_eq]; simp
@[simp] theorem logPost_aon_pages {code : Nat} {d0 d1 : Word} {s : State} : (logPost code d0 d1 s).aon.pages = s.aon.pages := by unfold logPost; rw [aonEvent_tell.aon_eq]; simp
@[simp] theorem logPost_aon_lost {code : Nat} {d0 d1 : Word} {s : State} : (logPost code d0 d1 s).aon.lost = s.aon.lost := by unfold logPost; rw [aonEvent_tell.aon_eq]; simp
@[simp] theorem logPost_aon_safeHigh {code : Nat} {d0 d1 : Word} {s : State} : (logPost code d0 d1 s).aon.safeHigh = s.aon.safeHigh := by unfold logPost; rw [aonEvent_tell.aon_eq]; simp
@[simp] theorem logPost_aon_autoOn {code : Nat} {d0 d1 : Word} {s : State} : (logPost code d0 d1 s).aon.autoOn = s.aon.autoOn := by unfold logPost; rw [aonEvent_tell.aon_eq]; simp
@[simp] theorem logPost_aon_driveEnd {code : Nat} {d0 d1 : Word} {s : State} : (logPost code d0 d1 s).aon.driveEnd = s.aon.driveEnd := by unfold logPost; rw [aonEvent_tell.aon_eq]; simp

end Sys2Proof.Machine
end

