-- ==== Sys2Proof/Laws/Rest.lean ====
section
/-!
SUPPORT. What the machine's reactions leave of the sequencer: whatever records, events, faults and aborts do, the rails,
the domains, the power state and everything else AON holds stay, but for the event latches, LOST, the shadows, the
heartbeat latch and the end of DRIVE.
-/

namespace Sys2Proof.Machine

set_option linter.all false

/-- AON without what the reactions of the other blocks change in it. -/
def Aon.rest (a : Aon) : Aon :=
  { a with latches := [], lost := false, shadow := Vector.replicate 16 0, shadowValid := 0, driveEnd := 0,
           liveBeat := false }

/-- The rest of AON is the same in both states. -/
def RestS (r s : State) : Prop := s.aon.rest = r.aon.rest

theorem RestS.refl (s : State) : RestS s s := rfl

variable {r0 s : State}

theorem RestS.step {m : Nat} {t : State} (h : RestS r0 s) (k : Keeps m s t) (hm : m.testBit 1 = false) : RestS r0 t := by
  have : t.aon = s.aon := k.1 .aon hm
  unfold RestS at *
  rw [this]; exact h

theorem modAon_rest {f : Aon → Aon} (hf : ∀ a : Aon, (f a).rest = a.rest) (h : RestS r0 s) : RestS r0 (modAon f s) :=
  (hf s.aon).trans h
theorem id_rest (h : RestS r0 s) : RestS r0 (id s) := h
theorem whenS_rest {b : Bool} {f : State → State} (hf : ∀ s, RestS r0 s → RestS r0 (f s)) (h : RestS r0 s) : RestS r0 (whenS b f s) := by
  unfold whenS
  split
  · exact hf s h
  · exact h
theorem forEach_rest {α : Type} {f : α → State → State} (hf : ∀ a s, RestS r0 s → RestS r0 (f a s)) :
    ∀ {l : List α} {s : State}, RestS r0 s → RestS r0 (forEach f l s)
  | [], _, h => h
  | a :: l, s, h => forEach_rest hf (l := l) (hf a s h)
theorem timeTo_rest {t : Nat} (h : RestS r0 s) : RestS r0 (timeTo t s) := by
  unfold timeTo
  split
  · split <;> exact h
  · exact h
theorem etTo_rest {t : Nat} (h : RestS r0 s) : RestS r0 (etTo t s) := timeTo_rest h
theorem useFree_rest  (h : RestS r0 s) : RestS r0 (useFree s) := h
theorem emit_rest {o : Output} (h : RestS r0 s) : RestS r0 (emit s o) := h
theorem modTherm_rest {f : Thermal → Thermal} (h : RestS r0 s) : RestS r0 (modTherm f s) := h
theorem modNv_rest {f : Nv → Nv} (h : RestS r0 s) : RestS r0 (modNv f s) := h
theorem modLg_rest {f : LogS → LogS} (h : RestS r0 s) : RestS r0 (modLg f s) := h
theorem modBoot_rest {f : Boot → Boot} (h : RestS r0 s) : RestS r0 (modBoot f s) := h
theorem modHost_rest {f : HostS → HostS} (h : RestS r0 s) : RestS r0 (modHost f s) := h
theorem modRegs_rest {f : HostR → HostR} (h : RestS r0 s) : RestS r0 (modRegs f s) := h
theorem modFl_rest {n : FlumeId} {f : Flume → Flume} (h : RestS r0 s) : RestS r0 (modFl n f s) := h
theorem modStep_rest {n : Fin 16} {f : StepperS → StepperS} (h : RestS r0 s) : RestS r0 (modStep n f s) := h
theorem modBldc_rest {n : Fin 4} {f : BldcS → BldcS} (h : RestS r0 s) : RestS r0 (modBldc n f s) := h
theorem modLoop_rest {n : LoopId} {f : LoopS → LoopS} (h : RestS r0 s) : RestS r0 (modLoop n f s) := h
theorem modZone_rest {n : Zone} {f : ZoneS → ZoneS} (h : RestS r0 s) : RestS r0 (modZone n f s) := h
theorem modStn_rest {n : Station} {f : StationS → StationS} (h : RestS r0 s) : RestS r0 (modStn n f s) := h
theorem modHead_rest {f : HeadE → HeadE} (h : RestS r0 s) : RestS r0 (modHead f s) := h
theorem modScan_rest {f : ScanE → ScanE} (h : RestS r0 s) : RestS r0 (modScan f s) := h
theorem modSkid_rest {f : Skid → Skid} (h : RestS r0 s) : RestS r0 (modSkid f s) := h
theorem modMem_rest {f : MemS → MemS} (h : RestS r0 s) : RestS r0 (modMem f s) := h
theorem modRast_rest {f : Rast → Rast} (h : RestS r0 s) : RestS r0 (modRast f s) := h
theorem modCue_rest {f : Cue → Cue} (h : RestS r0 s) : RestS r0 (modCue f s) := h
theorem modTrk_rest {n : Trk} {f : Tracker → Tracker} (h : RestS r0 s) : RestS r0 (modTrk n f s) := h
theorem modPages_rest {p : Page → Bool} {f : Page → Page} (h : RestS r0 s) : RestS r0 (modPages p f s) := h
theorem modCh_rest {n : Chan} {f : Channel → Channel} (h : RestS r0 s) : RestS r0 (modCh n f s) := h
theorem rest_therm {x : Thermal} (h : RestS r0 s) : RestS r0 { s with therm := x } := h
theorem rest_nv {x : Nv} (h : RestS r0 s) : RestS r0 { s with nv := x } := h
theorem rest_lg {x : LogS} (h : RestS r0 s) : RestS r0 { s with lg := x } := h
theorem rest_epoch {x : BitVec 16} (h : RestS r0 s) : RestS r0 { s with epoch := x } := h
theorem rest_flSel {x : BitVec 10} (h : RestS r0 s) : RestS r0 { s with flSel := x } := h
theorem rest_fl {x : Vector Flume 434} (h : RestS r0 s) : RestS r0 { s with fl := x } := h
theorem rest_host {x : HostS} (h : RestS r0 s) : RestS r0 { s with host := x } := h
theorem rest_cue {x : Cue} (h : RestS r0 s) : RestS r0 { s with cue := x } := h
theorem rest_mem {x : MemS} (h : RestS r0 s) : RestS r0 { s with mem := x } := h
theorem rest_rast {x : Rast} (h : RestS r0 s) : RestS r0 { s with rast := x } := h
theorem rest_beam {x : BeamE} (h : RestS r0 s) : RestS r0 { s with beam := x } := h
theorem rest_motn {x : Motn} (h : RestS r0 s) : RestS r0 { s with motn := x } := h
theorem rest_loops {x : LoopE} (h : RestS r0 s) : RestS r0 { s with loops := x } := h
theorem rest_head {x : HeadE} (h : RestS r0 s) : RestS r0 { s with head := x } := h
theorem rest_scan {x : ScanE} (h : RestS r0 s) : RestS r0 { s with scan := x } := h
theorem rest_skid {x : Skid} (h : RestS r0 s) : RestS r0 { s with skid := x } := h

/-! ## The operations -/

theorem driveEnd_rest {n : Nat} {a : Aon} : Aon.rest { a with driveEnd := n } = a.rest := rfl

theorem aerLog_rest {r0 : State} {s : State} (hR : RestS r0 s) :
    RestS r0 (aerLog s) :=
  hR.step (aerLog_keeps (Sub.refl _) (Keeps.refl _ _)) rfl

theorem noteMin_rest {r0 : State} {f : FlumeId} {s : State} (hR : RestS r0 s) :
    RestS r0 (noteMin f s) :=
  hR.step (noteMin_keeps (Sub.refl _) (Keeps.refl _ _)) rfl

theorem takeTally_rest {r0 : State} {f : FlumeId} {s : State} (hR : RestS r0 s) :
    RestS r0 (takeTally f s) :=
  hR.step (takeTally_keeps (Sub.refl _) (Keeps.refl _ _)) rfl

theorem retTally_rest {r0 : State} {f : FlumeId} {s : State} (hR : RestS r0 s) :
    RestS r0 (retTally f s) :=
  hR.step (retTally_keeps (Sub.refl _) (Keeps.refl _ _)) rfl

theorem retTallies_rest {r0 : State} {x0 : FlumeId} {x1 : Nat} {x2 : State} (hR : RestS r0 x2) :
    RestS r0 (retTallies x0 x1 x2) :=
  hR.step (retTallies_keeps (Sub.refl _) (Keeps.refl _ _)) rfl

theorem takeClass_rest {r0 : State} {k : StgClass} {s : State} (hR : RestS r0 s) :
    RestS r0 (takeClass k s) :=
  hR.step (takeClass_keeps (Sub.refl _) (Keeps.refl _ _)) rfl

theorem stage_rest {r0 : State} {r : Rec} {k : StgClass} {isAon : Bool} {s : State} (hR : RestS r0 s) :
    RestS r0 (stage r k isAon s) :=
  hR.step (stage_keeps (Sub.refl _) (Keeps.refl _ _)) rfl

theorem finishAction_rest {r0 : State} {c : Chan} {id : Nat} {s : State} (hR : RestS r0 s) :
    RestS r0 (finishAction c id s) :=
  hR.step (finishAction_keeps (Sub.refl _) (Keeps.refl _ _)) rfl

theorem closePage_rest {r0 : State} {adm : Nat} {s : State} (hR : RestS r0 s) :
    RestS r0 (closePage adm s) :=
  hR.step (closePage_keeps (Sub.refl _) (Keeps.refl _ _)) rfl

theorem stageWaiting_rest {r0 : State} {w : Waiting} {k : StgClass} {s : State} (hR : RestS r0 s) :
    RestS r0 (stageWaiting w k s) :=
  hR.step (stageWaiting_keeps (Sub.refl _) (Keeps.refl _ _)) rfl

theorem post_rest {r0 : State} {r : Rec} {w : Waiter} {s : State} (hR : RestS r0 s) :
    RestS r0 (post r w s) := by
  unfold post
  try dsimp only
  repeat' (first
    | with_reducible assumption
    | with_reducible apply modAon_rest
    | with_reducible apply stageWaiting_rest
    | with_reducible apply modHost_rest
    | exact fun _ => rfl
    | intro _
    | split)

theorem engine_rest {r0 : State} {src : Nat} {code : Nat} {res : Nat} {data : List Byte} {s : State} (hR : RestS r0 s) :
    RestS r0 (engine src code res data s) := by
  unfold engine
  try dsimp only
  repeat' (first
    | with_reducible assumption
    | with_reducible apply modHost_rest
    | with_reducible apply post_rest
    | intro _
    | split)

theorem serveWaiting_rest {r0 : State} {x0 : Nat} {x1 : State} (hR : RestS r0 x1) :
    RestS r0 (serveWaiting x0 x1) :=
  hR.step (serveWaiting_keeps (Sub.refl _) (Keeps.refl _ _)) rfl

theorem aonEvent_rest {r0 : State} {code : Nat} {d0 : Word} {d1 : Word} {s : State} (hR : RestS r0 s) :
    RestS r0 (aonEvent code d0 d1 s) := by
  unfold aonEvent
  try dsimp only
  repeat' (first
    | with_reducible assumption
    | with_reducible apply modAon_rest
    | with_reducible apply post_rest
    | with_reducible apply takeTally_rest
    | exact fun _ => rfl
    | intro _
    | split)

theorem serveAon_rest {r0 : State} : ∀ {n : Nat} {s : State}, RestS r0 s → RestS r0 (serveAon n s)
  | 0, _, h => h
  | n + 1, s, h => by
    unfold serveAon
    split
    · exact h
    · split
      · exact serveAon_rest (n := n) (post_rest (takeTally_rest (modAon_rest (fun _ => rfl) h)))
      · exact h

theorem chEvent_rest {r0 : State} {c : Chan} {src : Nat} {code : Nat} {payload : Word} {s : State} (hR : RestS r0 s) :
    RestS r0 (chEvent c src code payload s) :=
  hR.step (chEvent_keeps (Sub.refl _) (Keeps.refl _ _)) rfl

theorem serveEv_rest {r0 : State} {c : Chan} {x0 : Nat} {x1 : State} (hR : RestS r0 x1) :
    RestS r0 (serveEv c x0 x1) :=
  hR.step (serveEv_keeps (Sub.refl _) (Keeps.refl _ _)) rfl

theorem chEvents_rest {r0 : State} {src : Nat} {code : Nat} {payload : Word} {x0 : List Chan} {x1 : State} (hR : RestS r0 x1) :
    RestS r0 (chEvents src code payload x0 x1) :=
  hR.step (chEvents_keeps (Sub.refl _) (Keeps.refl _ _)) rfl

theorem holderEvent_rest {r0 : State} {id : Nat} {code : Nat} {payload : Word} {s : State} (hR : RestS r0 s) :
    RestS r0 (holderEvent id code payload s) :=
  hR.step (holderEvent_keeps (Sub.refl _) (Keeps.refl _ _)) rfl

theorem logPut_rest {r0 : State} {src : Nat} {e : LogEntry} {s : State} (hR : RestS r0 s) :
    RestS r0 (logPut src e s) :=
  hR.step (logPut_keeps (Sub.refl _) (Keeps.refl _ _)) rfl

theorem logFrom_rest {r0 : State} {src : Nat} {code : Nat} {d0 : Word} {d1 : Word} {s : State} (hR : RestS r0 s) :
    RestS r0 (logFrom src code d0 d1 s) :=
  hR.step (logFrom_keeps (Sub.refl _) (Keeps.refl _ _)) rfl

theorem logCode_rest {r0 : State} {code : Nat} {d0 : Word} {d1 : Word} {s : State} (hR : RestS r0 s) :
    RestS r0 (logCode code d0 d1 s) :=
  hR.step (logCode_keeps (Sub.refl _) (Keeps.refl _ _)) rfl

theorem serveLog_rest {r0 : State} {x0 : Nat} {x1 : State} (hR : RestS r0 x1) :
    RestS r0 (serveLog x0 x1) :=
  hR.step (serveLog_keeps (Sub.refl _) (Keeps.refl _ _)) rfl

theorem logPost_rest {r0 : State} {code : Nat} {d0 : Word} {d1 : Word} {s : State} (hR : RestS r0 s) :
    RestS r0 (logPost code d0 d1 s) := by
  unfold logPost
  try dsimp only
  repeat' (first
    | with_reducible assumption
    | with_reducible apply aonEvent_rest
    | with_reducible apply logCode_rest
    | intro _
    | split)

theorem nvPut_rest {r0 : State} {w : NvWrite} {s : State} (hR : RestS r0 s) :
    RestS r0 (nvPut w s) :=
  hR.step (nvPut_keeps (Sub.refl _) (Keeps.refl _ _)) rfl

theorem serveFlume_rest {r0 : State} {f : FlumeId} {s : State} (hR : RestS r0 s) :
    RestS r0 (serveFlume f s) := by
  unfold serveFlume
  try dsimp only
  repeat' (first
    | with_reducible assumption
    | with_reducible apply serveWaiting_rest
    | with_reducible apply serveAon_rest
    | with_reducible apply serveLog_rest
    | with_reducible apply serveEv_rest
    | intro _
    | split)

theorem modPage_rest {r0 : State} {h : Word} {f : Page → Page} {s : State} (hR : RestS r0 s) :
    RestS r0 (modPage h f s) :=
  hR.step (modPage_keeps (Sub.refl _) (Keeps.refl _ _)) rfl

theorem finishOne_rest {r0 : State} {adm : Option Word} {e : Engine} {s : State} (hR : RestS r0 s) :
    RestS r0 (finishOne adm e s) :=
  hR.step (finishOne_keeps (Sub.refl _) (Keeps.refl _ _)) rfl

theorem endAction_rest {r0 : State} {a : Action} {outcome : Nat} {code : Nat} {synth : Bool} {s : State} (hR : RestS r0 s) :
    RestS r0 (endAction a outcome code synth s) := by
  unfold endAction
  try dsimp only
  repeat' (first
    | with_reducible assumption
    | with_reducible apply modCh_rest
    | with_reducible apply retTally_rest
    | with_reducible apply finishOne_rest
    | with_reducible apply post_rest
    | with_reducible apply finishAction_rest
    | intro _
    | split)

theorem dropActs_rest {r0 : State} {c : Chan} {p : Action → Bool} {s : State} (hR : RestS r0 s) :
    RestS r0 (dropActs c p s) := by
  unfold dropActs
  try dsimp only
  repeat' (first
    | with_reducible assumption
    | with_reducible apply forEach_rest
    | with_reducible apply endAction_rest
    | intro _
    | split)

theorem returnTaking_rest {r0 : State} {c : Chan} {s : State} (hR : RestS r0 s) :
    RestS r0 (returnTaking c s) :=
  hR.step (returnTaking_keeps (Sub.refl _) (Keeps.refl _ _)) rfl

theorem returnHeld_rest {r0 : State} {c : Chan} {s : State} (hR : RestS r0 s) :
    RestS r0 (returnHeld c s) :=
  hR.step (returnHeld_keeps (Sub.refl _) (Keeps.refl _ _)) rfl

theorem discardSegs_rest {r0 : State} {m : Motor} {s : State} (hR : RestS r0 s) :
    RestS r0 (discardSegs m s) :=
  hR.step (discardSegs_keeps (Sub.refl _) (Keeps.refl _ _)) rfl

theorem noteStill_rest {r0 : State} {n : Fin 16} {s : State} (hR : RestS r0 s) :
    RestS r0 (noteStill n s) := by
  unfold noteStill
  try dsimp only
  repeat' (first
    | with_reducible assumption
    | with_reducible apply modAon_rest
    | exact fun _ => rfl
    | intro _
    | split)

theorem noteMoving_rest {r0 : State} {n : Fin 16} {s : State} (hR : RestS r0 s) :
    RestS r0 (noteMoving n s) := by
  unfold noteMoving
  try dsimp only
  repeat' (first
    | with_reducible assumption
    | with_reducible apply modAon_rest
    | exact fun _ => rfl
    | intro _
    | split)

theorem stillStep_rest {r0 : State} {n : Fin 16} {why : StopWhy} {s : State} (hR : RestS r0 s) :
    RestS r0 (stillStep n why s) := by
  unfold stillStep
  try dsimp only
  repeat' (first
    | with_reducible assumption
    | with_reducible apply noteStill_rest
    | with_reducible apply modStep_rest
    | intro _
    | split)

theorem stopAtRest_rest {r0 : State} {n : Fin 16} {why : StopWhy} {s : State} (hR : RestS r0 s) :
    RestS r0 (stopAtRest n why s) :=
  hR.step (stopAtRest_keeps (Sub.refl _) (Keeps.refl _ _)) rfl

theorem stopStep_rest {r0 : State} {n : Fin 16} {why : StopWhy} {s : State} (hR : RestS r0 s) :
    RestS r0 (stopStep n why s) := by
  unfold stopStep
  try dsimp only
  repeat' (first
    | with_reducible assumption
    | with_reducible apply discardSegs_rest
    | with_reducible apply stopAtRest_rest
    | with_reducible apply stillStep_rest
    | with_reducible apply modStep_rest
    | intro _
    | split)

theorem stopBldc_rest {r0 : State} {k : Fin 4} {why : StopWhy} {s : State} (hR : RestS r0 s) :
    RestS r0 (stopBldc k why s) :=
  hR.step (stopBldc_keeps (Sub.refl _) (Keeps.refl _ _)) rfl

theorem stopMotor_rest {r0 : State} {m : Motor} {why : StopWhy} {s : State} (hR : RestS r0 s) :
    RestS r0 (stopMotor m why s) := by
  unfold stopMotor
  try dsimp only
  repeat' (first
    | with_reducible assumption
    | with_reducible apply stopStep_rest
    | with_reducible apply stopBldc_rest
    | intro _
    | split)

theorem runOnStep_rest {r0 : State} {exitLen : Nat} {n : Fin 16} {s : State} (hR : RestS r0 s) :
    RestS r0 (runOnStep exitLen n s) := by
  unfold runOnStep
  try dsimp only
  repeat' (first
    | with_reducible assumption
    | with_reducible apply discardSegs_rest
    | with_reducible apply stillStep_rest
    | with_reducible apply modStep_rest
    | intro _
    | split)

theorem discardSps_rest {r0 : State} {l : LoopId} {s : State} (hR : RestS r0 s) :
    RestS r0 (discardSps l s) :=
  hR.step (discardSps_keeps (Sub.refl _) (Keeps.refl _ _)) rfl

theorem loopIdle_rest {r0 : State} {l : LoopId} {s : State} (hR : RestS r0 s) :
    RestS r0 (loopIdle l s) :=
  hR.step (loopIdle_keeps (Sub.refl _) (Keeps.refl _ _)) rfl

theorem loopOffOp_rest {r0 : State} {l : LoopId} {s : State} (hR : RestS r0 s) :
    RestS r0 (loopOffOp l s) :=
  hR.step (loopOffOp_keeps (Sub.refl _) (Keeps.refl _ _)) rfl

theorem hvStandby_rest {r0 : State} {l : LoopId} {s : State} (hR : RestS r0 s) :
    RestS r0 (hvStandby l s) :=
  hR.step (hvStandby_keeps (Sub.refl _) (Keeps.refl _ _)) rfl

theorem cutDec_rest {r0 : State} {e : Engine} {s : State} (hR : RestS r0 s) :
    RestS r0 (cutDec e s) :=
  hR.step (cutDec_keeps (Sub.refl _) (Keeps.refl _ _)) rfl

theorem releaseEngine_rest {r0 : State} {handle : Word} {e : Engine} {s : State} (hR : RestS r0 s) :
    RestS r0 (releaseEngine handle e s) :=
  hR.step (releaseEngine_keeps (Sub.refl _) (Keeps.refl _ _)) rfl

theorem releaseAborted_rest {r0 : State} {g : Page} {s : State} (hR : RestS r0 s) :
    RestS r0 (releaseAborted g s) :=
  hR.step (releaseAborted_keeps (Sub.refl _) (Keeps.refl _ _)) rfl

theorem rejectPlan_rest {r0 : State} {cause : Nat} {g : Page} {s : State} (hR : RestS r0 s) :
    RestS r0 (rejectPlan cause g s) := by
  unfold rejectPlan
  try dsimp only
  repeat' (first
    | with_reducible assumption
    | with_reducible apply forEach_rest
    | with_reducible apply releaseEngine_rest
    | with_reducible apply modCue_rest
    | with_reducible apply engine_rest
    | intro _
    | split)

theorem rejectWithPartner_rest {r0 : State} {cause : Nat} {g : Page} {s : State} (hR : RestS r0 s) :
    RestS r0 (rejectWithPartner cause g s) := by
  unfold rejectWithPartner
  try dsimp only
  repeat' (first
    | with_reducible assumption
    | with_reducible apply rejectPlan_rest
    | intro _
    | split)

theorem applyDivert_rest {r0 : State} {g : Page} {s : State} (hR : RestS r0 s) :
    RestS r0 (applyDivert g s) :=
  hR.step (applyDivert_keeps (Sub.refl _) (Keeps.refl _ _)) rfl

theorem formMotion_rest {r0 : State} {form : Nat} {g : Page} {s : State} (hR : RestS r0 s) :
    RestS r0 (formMotion form g s) := by
  unfold formMotion
  try dsimp only
  repeat' (first
    | with_reducible assumption
    | with_reducible apply forEach_rest
    | with_reducible apply runOnStep_rest
    | with_reducible apply id_rest
    | with_reducible apply applyDivert_rest
    | with_reducible apply stopBldc_rest
    | with_reducible apply stopStep_rest
    | intro _
    | split)

theorem abortOne_rest {r0 : State} {cause : Nat} {form : Nat} {g : Page} {s : State} (hR : RestS r0 s) :
    RestS r0 (abortOne cause form g s) := by
  unfold abortOne
  try dsimp only
  repeat' (first
    | with_reducible assumption
    | with_reducible apply modPage_rest
    | with_reducible apply forEach_rest
    | with_reducible apply dropActs_rest
    | with_reducible apply chEvents_rest
    | with_reducible apply modHead_rest
    | with_reducible apply hvStandby_rest
    | with_reducible apply releaseAborted_rest
    | with_reducible apply modCue_rest
    | with_reducible apply rejectPlan_rest
    | intro _
    | split)

theorem abortPages_rest {r0 : State} {p : Page → Bool} {cause : Nat} {form : Nat} {s : State} (hR : RestS r0 s) :
    RestS r0 (abortPages p cause form s) := by
  unfold abortPages
  try dsimp only
  repeat' (first
    | with_reducible assumption
    | with_reducible apply forEach_rest
    | with_reducible apply abortOne_rest
    | with_reducible apply formMotion_rest
    | intro _
    | split)

theorem raiseForm_rest {r0 : State} {form : Nat} {s : State} (hR : RestS r0 s) :
    RestS r0 (raiseForm form s) :=
  hR.step (raiseForm_keeps (Sub.refl _) (Keeps.refl _ _)) rfl

theorem abortChanPages_rest {r0 : State} {cause : Nat} {c : Option Chan} {s : State} (hR : RestS r0 s) :
    RestS r0 (abortChanPages cause c s) := by
  unfold abortChanPages
  try dsimp only
  repeat' (first
    | with_reducible assumption
    | with_reducible apply abortPages_rest
    | intro _
    | split)

theorem abortEnginePages_rest {r0 : State} {e : Nat} {s : State} (hR : RestS r0 s) :
    RestS r0 (abortEnginePages e s) := by
  unfold abortEnginePages
  try dsimp only
  repeat' (first
    | with_reducible assumption
    | with_reducible apply abortPages_rest
    | intro _
    | split)

theorem chFault_rest {r0 : State} {c : Chan} {code : Nat} {fpc : Nat} {s : State} (hR : RestS r0 s) :
    RestS r0 (chFault c code fpc s) := by
  unfold chFault
  try dsimp only
  repeat' (first
    | with_reducible assumption
    | with_reducible apply modCh_rest
    | with_reducible apply post_rest
    | with_reducible apply returnHeld_rest
    | with_reducible apply dropActs_rest
    | with_reducible apply returnTaking_rest
    | with_reducible apply abortChanPages_rest
    | intro _
    | split)

theorem refuseAction_rest {r0 : State} {a : Action} {code : Nat} {synth : Bool} {s : State} (hR : RestS r0 s) :
    RestS r0 (refuseAction a code synth s) := by
  unfold refuseAction
  try dsimp only
  repeat' (first
    | with_reducible assumption
    | with_reducible apply endAction_rest
    | with_reducible apply chFault_rest
    | intro _
    | split)

theorem logEngine_rest {r0 : State} {code : Nat} {res : Nat} {cause : Nat} {s : State} (hR : RestS r0 s) :
    RestS r0 (logEngine code res cause s) :=
  hR.step (logEngine_keeps (Sub.refl _) (Keeps.refl _ _)) rfl

theorem stepCoupled_rest {r0 : State} {x0 : Nat} {k : Nat} {s : State} (hR : RestS r0 s) :
    RestS r0 (stepCoupled x0 k s) := by
  unfold stepCoupled
  try dsimp only
  repeat' (first
    | with_reducible assumption
    | with_reducible apply noteStill_rest
    | with_reducible apply modStep_rest
    | with_reducible apply emit_rest
    | intro _
    | split)

theorem cutCoupled_rest {r0 : State} {s : State} (hR : RestS r0 s) :
    RestS r0 (cutCoupled s) := by
  unfold cutCoupled
  try dsimp only
  repeat' (first
    | with_reducible assumption
    | with_reducible apply stepCoupled_rest
    | with_reducible apply modScan_rest
    | intro _
    | split)

theorem dropLine_rest {r0 : State} {s : State} (hR : RestS r0 s) :
    RestS r0 (dropLine s) :=
  hR.step (dropLine_keeps (Sub.refl _) (Keeps.refl _ _)) rfl

theorem scanFault_rest {r0 : State} {cause : Nat} {s : State} (hR : RestS r0 s) :
    RestS r0 (scanFault cause s) := by
  unfold scanFault
  try dsimp only
  repeat' (first
    | with_reducible assumption
    | with_reducible apply engine_rest
    | with_reducible apply modScan_rest
    | with_reducible apply dropLine_rest
    | with_reducible apply cutCoupled_rest
    | intro _
    | split)

theorem motFaultTell_rest {r0 : State} {m : Motor} {cause : Nat} {data : Nat} {s : State} (hR : RestS r0 s) :
    RestS r0 (motFaultTell m cause data s) := by
  unfold motFaultTell
  try dsimp only
  repeat' (first
    | with_reducible assumption
    | with_reducible apply holderEvent_rest
    | with_reducible apply engine_rest
    | with_reducible apply abortChanPages_rest
    | intro _
    | split)

theorem motFault_rest {r0 : State} {m : Motor} {cause : Nat} {s : State} (hR : RestS r0 s) :
    RestS r0 (motFault m cause s) := by
  unfold motFault
  try dsimp only
  repeat' (first
    | with_reducible assumption
    | with_reducible apply discardSegs_rest
    | with_reducible apply cutCoupled_rest
    | with_reducible apply motFaultTell_rest
    | with_reducible apply modStep_rest
    | with_reducible apply scanFault_rest
    | with_reducible apply modBldc_rest
    | intro _
    | split)

theorem releaseIfAborting_rest {r0 : State} {adm : Option Word} {s : State} (hR : RestS r0 s) :
    RestS r0 (releaseIfAborting adm s) :=
  hR.step (releaseIfAborting_keeps (Sub.refl _) (Keeps.refl _ _)) rfl

theorem cutScan_rest {r0 : State} {n : Station} {s : State} (hR : RestS r0 s) :
    RestS r0 (cutScan n s) :=
  hR.step (cutScan_keeps (Sub.refl _) (Keeps.refl _ _)) rfl

theorem stationFault_rest {r0 : State} {n : Station} {cause : Nat} {s : State} (hR : RestS r0 s) :
    RestS r0 (stationFault n cause s) := by
  unfold stationFault
  try dsimp only
  repeat' (first
    | with_reducible assumption
    | with_reducible apply abortEnginePages_rest
    | with_reducible apply modStn_rest
    | with_reducible apply cutScan_rest
    | intro _
    | split)

theorem cutHead_rest {r0 : State} {s : State} (hR : RestS r0 s) :
    RestS r0 (cutHead s) :=
  hR.step (cutHead_keeps (Sub.refl _) (Keeps.refl _ _)) rfl

theorem headFault_rest {r0 : State} {cause : Nat} {s : State} (hR : RestS r0 s) :
    RestS r0 (headFault cause s) := by
  unfold headFault
  try dsimp only
  repeat' (first
    | with_reducible assumption
    | with_reducible apply modHead_rest
    | with_reducible apply cutHead_rest
    | with_reducible apply holderEvent_rest
    | with_reducible apply engine_rest
    | with_reducible apply abortEnginePages_rest
    | with_reducible apply logEngine_rest
    | intro _
    | split)

theorem zoneFree_rest {r0 : State} {x : LoopS} {s : State} (hR : RestS r0 s) :
    RestS r0 (zoneFree x s) :=
  hR.step (zoneFree_keeps (Sub.refl _) (Keeps.refl _ _)) rfl

theorem depOff_rest {r0 : State} {shorted : LoopId} {l : LoopId} {s : State} (hR : RestS r0 s) :
    RestS r0 (depOff shorted l s) := by
  unfold depOff
  try dsimp only
  repeat' (first
    | with_reducible assumption
    | with_reducible apply engine_rest
    | with_reducible apply zoneFree_rest
    | with_reducible apply modLoop_rest
    | with_reducible apply loopIdle_rest
    | intro _
    | split)

theorem hvShort_rest {r0 : State} {l : LoopId} {cause : Nat} {s : State} (hR : RestS r0 s) :
    RestS r0 (hvShort l cause s) := by
  unfold hvShort
  try dsimp only
  repeat' (first
    | with_reducible assumption
    | with_reducible apply modLoop_rest
    | with_reducible apply discardSps_rest
    | with_reducible apply logEngine_rest
    | with_reducible apply engine_rest
    | with_reducible apply holderEvent_rest
    | with_reducible apply abortChanPages_rest
    | with_reducible apply forEach_rest
    | with_reducible apply depOff_rest
    | intro _
    | split)

theorem zoneFault_rest {r0 : State} {z : Zone} {cause : Nat} {s : State} (hR : RestS r0 s) :
    RestS r0 (zoneFault z cause s) := by
  unfold zoneFault
  try dsimp only
  repeat' (first
    | with_reducible assumption
    | with_reducible apply modLoop_rest
    | with_reducible apply discardSps_rest
    | with_reducible apply logEngine_rest
    | with_reducible apply modZone_rest
    | with_reducible apply engine_rest
    | with_reducible apply holderEvent_rest
    | with_reducible apply abortChanPages_rest
    | intro _
    | split)

theorem noteDrive_rest {r0 : State} {f : State → State} {s : State} (hf : ∀ s, RestS r0 s → RestS r0 (f s)) (hR : RestS r0 s) :
    RestS r0 (noteDrive f s) := by
  unfold noteDrive
  try dsimp only
  repeat' (first
    | with_reducible assumption
    | with_reducible apply hf
    | with_reducible apply modAon_rest
    | exact fun _ => rfl
    | exact fun _ => driveEnd_rest
    | intro _
    | split)

theorem scanHold_rest {r0 : State} {s : State} (hR : RestS r0 s) :
    RestS r0 (scanHold s) := by
  unfold scanHold
  try dsimp only
  repeat' (first
    | with_reducible assumption
    | with_reducible apply dropLine_rest
    | with_reducible apply cutCoupled_rest
    | with_reducible apply scanFault_rest
    | intro _
    | split)

theorem loopHold_rest {r0 : State} {l : LoopId} {s : State} (hR : RestS r0 s) :
    RestS r0 (loopHold l s) :=
  hR.step (loopHold_keeps (Sub.refl _) (Keeps.refl _ _)) rfl

theorem holdEngines_rest {r0 : State} {s : State} (hR : RestS r0 s) :
    RestS r0 (holdEngines s) := by
  unfold holdEngines
  try dsimp only
  repeat' (first
    | with_reducible assumption
    | with_reducible apply forEach_rest
    | with_reducible apply stopStep_rest
    | with_reducible apply stopBldc_rest
    | with_reducible apply loopHold_rest
    | with_reducible apply modZone_rest
    | with_reducible apply modStn_rest
    | with_reducible apply cutScan_rest
    | with_reducible apply scanHold_rest
    | with_reducible apply cutHead_rest
    | with_reducible apply raiseForm_rest
    | with_reducible apply abortPages_rest
    | intro _
    | split)

theorem loseDest_rest {r0 : State} {f : FlumeId} {s : State} (hR : RestS r0 s) :
    RestS r0 (loseDest f s) :=
  hR.step (loseDest_keeps (Sub.refl _) (Keeps.refl _ _)) rfl

theorem discardFlume_rest {r0 : State} {f : FlumeId} {s : State} (hR : RestS r0 s) :
    RestS r0 (discardFlume f s) := by
  unfold discardFlume
  try dsimp only
  repeat' (first
    | with_reducible assumption
    | with_reducible apply modCue_rest
    | with_reducible apply loseDest_rest
    | with_reducible apply modAon_rest
    | with_reducible apply modHost_rest
    | with_reducible apply modCh_rest
    | with_reducible apply modRast_rest
    | with_reducible apply cutDec_rest
    | exact fun _ => rfl
    | intro _
    | split)

theorem syncFlume_rest {r0 : State} {f : FlumeId} {s : State} (hR : RestS r0 s) :
    RestS r0 (syncFlume f s) := by
  unfold syncFlume
  try dsimp only
  repeat' (first
    | with_reducible assumption
    | with_reducible apply serveFlume_rest
    | with_reducible apply modFl_rest
    | with_reducible apply discardFlume_rest
    | intro _
    | split)

theorem syncFlumes_rest {r0 : State} {s : State} (hR : RestS r0 s) :
    RestS r0 (syncFlumes s) := by
  unfold syncFlumes
  try dsimp only
  repeat' (first
    | with_reducible assumption
    | with_reducible apply forEach_rest
    | with_reducible apply syncFlume_rest
    | intro _
    | split)

theorem reDepth_rest {r0 : State} {f : FlumeId} {s : State} (hR : RestS r0 s) :
    RestS r0 (reDepth f s) :=
  hR.step (reDepth_keeps (Sub.refl _) (Keeps.refl _ _)) rfl

theorem setSlot_rest {r0 : State} {k : Fin 2} {code : BitVec 4} {s : State} (hR : RestS r0 s) :
    RestS r0 (setSlot k code s) :=
  hR.step (setSlot_keeps (Sub.refl _) (Keeps.refl _ _)) rfl

theorem invalidate_rest {r0 : State} {op : ImageOp} {s : State} (hR : RestS r0 s) :
    RestS r0 (invalidate op s) :=
  hR.step (invalidate_keeps (Sub.refl _) (Keeps.refl _ _)) rfl

theorem imageDone_rest {r0 : State} {op : ImageOp} {err : Nat} {s : State} (hR : RestS r0 s) :
    RestS r0 (imageDone op err s) := by
  unfold imageDone
  try dsimp only
  repeat' (first
    | with_reducible assumption
    | with_reducible apply modBoot_rest
    | with_reducible apply aonEvent_rest
    | intro _
    | split)

theorem imageCut_rest {r0 : State} {err : Nat} {s : State} (hR : RestS r0 s) :
    RestS r0 (imageCut err s) := by
  unfold imageCut
  try dsimp only
  repeat' (first
    | with_reducible assumption
    | with_reducible apply imageDone_rest
    | with_reducible apply invalidate_rest
    | intro _
    | split)

theorem workerCut_rest {r0 : State} {p : Nat → Bool} {s : State} (hR : RestS r0 s) :
    RestS r0 (workerCut p s) := by
  unfold workerCut
  try dsimp only
  repeat' (first
    | with_reducible assumption
    | with_reducible apply imageCut_rest
    | intro _
    | split)

theorem exportEnd_rest {r0 : State} {err : Nat} {bytes : Nat} {s : State} (hR : RestS r0 s) :
    RestS r0 (exportEnd err bytes s) := by
  unfold exportEnd
  try dsimp only
  repeat' (first
    | with_reducible assumption
    | with_reducible apply logPost_rest
    | with_reducible apply modLg_rest
    | intro _
    | split)

theorem exportCut_rest {r0 : State} {s : State} (hR : RestS r0 s) :
    RestS r0 (exportCut s) := by
  unfold exportCut
  try dsimp only
  repeat' (first
    | with_reducible assumption
    | with_reducible apply exportEnd_rest
    | intro _
    | split)

theorem modEnc_rest {r0 : State} {e : Fin 2} {f : Enc → Enc} {s : State} (hR : RestS r0 s) :
    RestS r0 (modEnc e f s) :=
  hR.step (modEnc_keeps (Sub.refl _) (Keeps.refl _ _)) rfl

theorem tampReport_rest {r0 : State} {u : Nat} {code : Nat} {ix : Nat} {out : Nat} {s : State} (hR : RestS r0 s) :
    RestS r0 (tampReport u code ix out s) := by
  unfold tampReport
  try dsimp only
  repeat' (first
    | with_reducible assumption
    | with_reducible apply engine_rest
    | with_reducible apply modRast_rest
    | intro _
    | split)

theorem encError_rest {r0 : State} {e : Fin 2} {code : Nat} {s : State} (hR : RestS r0 s) :
    RestS r0 (encError e code s) := by
  unfold encError
  try dsimp only
  repeat' (first
    | with_reducible assumption
    | with_reducible apply tampReport_rest
    | with_reducible apply retTallies_rest
    | with_reducible apply modEnc_rest
    | intro _
    | split)

theorem scanStreamCut_rest {r0 : State} {s : State} (hR : RestS r0 s) :
    RestS r0 (scanStreamCut s) := by
  unfold scanStreamCut
  try dsimp only
  repeat' (first
    | with_reducible assumption
    | with_reducible apply forEach_rest
    | with_reducible apply encError_rest
    | with_reducible apply id_rest
    | intro _
    | split)

theorem dropLatches_rest {r0 : State} {d : Dom} {s : State} (hR : RestS r0 s) :
    RestS r0 (dropLatches d s) :=
  hR.step (dropLatches_keeps (Sub.refl _) (Keeps.refl _ _)) rfl

theorem cutDecoder_rest {r0 : State} {mgr : Bool} {s : State} (hR : RestS r0 s) :
    RestS r0 (cutDecoder mgr s) :=
  hR.step (cutDecoder_keeps (Sub.refl _) (Keeps.refl _ _)) rfl

theorem leaveDom_rest {r0 : State} {d : Dom} {s : State} (hR : RestS r0 s) :
    RestS r0 (leaveDom d s) := by
  unfold leaveDom
  try dsimp only
  repeat' (first
    | with_reducible assumption
    | with_reducible apply dropLatches_rest
    | with_reducible apply imageCut_rest
    | with_reducible apply modBoot_rest
    | with_reducible apply cutDecoder_rest
    | with_reducible apply modHost_rest
    | with_reducible apply modMem_rest
    | with_reducible apply exportCut_rest
    | with_reducible apply modAon_rest
    | with_reducible apply modCue_rest
    | with_reducible apply modRast_rest
    | with_reducible apply scanStreamCut_rest
    | with_reducible apply cutCoupled_rest
    | with_reducible apply workerCut_rest
    | exact fun _ => rfl
    | intro _
    | split
    | with_reducible apply rest_beam
    | with_reducible apply rest_motn
    | with_reducible apply rest_loops
    | with_reducible apply rest_head
    | with_reducible apply rest_scan
    | with_reducible apply rest_skid)

theorem enterDom_rest {r0 : State} {d : Dom} {s : State} (hR : RestS r0 s) :
    RestS r0 (enterDom d s) :=
  hR.step (enterDom_keeps (Sub.refl _) (Keeps.refl _ _)) rfl

theorem vmotLost_rest {r0 : State} {s : State} (hR : RestS r0 s) :
    RestS r0 (vmotLost s) := by
  unfold vmotLost
  try dsimp only
  repeat' (first
    | with_reducible assumption
    | with_reducible apply forEach_rest
    | with_reducible apply motFault_rest
    | intro _
    | split
    | with_reducible apply rest_motn)

theorem restoreStep_rest {r0 : State} {n : Fin 16} {s : State} (hR : RestS r0 s) :
    RestS r0 (restoreStep n s) :=
  hR.step (restoreStep_keeps (Sub.refl _) (Keeps.refl _ _)) rfl

theorem vmotBack_rest {r0 : State} {s : State} (hR : RestS r0 s) :
    RestS r0 (vmotBack s) :=
  hR.step (vmotBack_keeps (Sub.refl _) (Keeps.refl _ _)) rfl

theorem syncVmot_rest {r0 : State} {s : State} (hR : RestS r0 s) :
    RestS r0 (syncVmot s) := by
  unfold syncVmot
  try dsimp only
  repeat' (first
    | with_reducible assumption
    | with_reducible apply vmotLost_rest
    | with_reducible apply vmotBack_rest
    | intro _
    | split)

theorem syncHead_rest {r0 : State} {s : State} (hR : RestS r0 s) :
    RestS r0 (syncHead s) := by
  unfold syncHead
  try dsimp only
  repeat' (first
    | with_reducible assumption
    | with_reducible apply headFault_rest
    | intro _
    | split)

theorem syncScan_rest {r0 : State} {s : State} (hR : RestS r0 s) :
    RestS r0 (syncScan s) := by
  unfold syncScan
  try dsimp only
  repeat' (first
    | with_reducible assumption
    | with_reducible apply scanFault_rest
    | intro _
    | split)

theorem syncSupplies_rest {r0 : State} {s : State} (hR : RestS r0 s) :
    RestS r0 (syncSupplies s) := by
  unfold syncSupplies
  try dsimp only
  repeat' (first
    | with_reducible assumption
    | with_reducible apply syncScan_rest
    | with_reducible apply syncHead_rest
    | with_reducible apply syncVmot_rest
    | intro _
    | split)

/-! ### A change of domains (settle)

It also notes when domains came up and went. -/

/-- A domain without the instants at which it came up and went. -/
def DomS.rest (x : DomS) : DomS := { x with upAt := 0, downAt := 0 }

/-- The rest of AON is the same in both states, but for those instants. -/
def RestD (r s : State) : Prop :=
  { s.aon.rest with doms := s.aon.doms.map DomS.rest } = { r.aon.rest with doms := r.aon.doms.map DomS.rest }

theorem RestS.restD {r s : State} (h : RestS r s) : RestD r s := by
  have g := congrArg (fun a : Aon => { a with doms := a.doms.map DomS.rest }) (show s.aon.rest = r.aon.rest from h)
  exact g
theorem RestD.trans {r s t : State} (h : RestD r s) (g : RestD s t) : RestD r t := Eq.trans g h

theorem rest_map_tmod {n : Nat} {v : Vector DomS n} {i : Fin n} {f : DomS → DomS} (hf : ∀ x : DomS, (f x).rest = x.rest) :
    (tmod v i f).map DomS.rest = v.map DomS.rest := by
  ext j hj
  simp only [Vector.getElem_map, tmod, tset, Vector.getElem_set]
  split
  · rename_i e; subst e; exact hf _
  · rfl

theorem modDom_restD {d : Dom} {f : DomS → DomS} {s : State} (hf : ∀ x : DomS, (f x).rest = x.rest) : RestD s (modDom d f s) := by
  unfold RestD Aon.rest
  simp only [modDom, modAon]
  rw [rest_map_tmod hf]

theorem forEach_restD {α : Type} {f : α → State → State} (hf : ∀ a s, RestD s (f a s)) : ∀ {l : List α} {s : State}, RestD s (forEach f l s)
  | [], _ => rfl
  | a :: l, s => (hf a s).trans (forEach_restD hf (l := l) (s := f a s))

theorem stampDoms_restD {s t u : State} : RestD u (stampDoms s t u) := by
  unfold stampDoms
  refine forEach_restD fun d s => ?_
  split
  · exact modDom_restD fun _ => rfl
  · split
    · exact modDom_restD fun _ => rfl
    · rfl

theorem lost_rest {l : Bool} {a : Aon} : Aon.rest { a with lost := l } = a.rest := rfl

theorem settle_restD {s t : State} : RestD t (settle s t) := by
  have h1 : RestS t (if domUp t 3 then syncSupplies t else t) := by
    split
    · exact syncSupplies_rest (RestS.refl t)
    · exact RestS.refl t
  unfold settle
  generalize (if domUp t 3 then syncSupplies t else t) = t1 at h1 ⊢
  dsimp only
  generalize (domUp s 3 && !domUp t 3 && cueLoses t1) = l
  have h2 : RestS t (modAon (fun a => { a with lost := a.lost || l }) t1) := modAon_rest (fun _ => lost_rest) h1
  refine (h2.restD.trans (stampDoms_restD (s := s) (t := t))).trans (RestS.restD ?_)
  have h3 := forEach_rest (f := fun d => if domUp s d && !domUp t d then leaveDom d else id) (l := leaveOrder)
    (fun d u h => by
      split
      · exact leaveDom_rest h
      · exact h) (RestS.refl (stampDoms s t (modAon (fun a => { a with lost := a.lost || l }) t1)))
  have h4 := forEach_rest (f := fun d => if !domUp s d && domUp t d then enterDom d else id) (l := leaveOrder)
    (fun d u h => by
      split
      · exact enterDom_rest h
      · exact h) h3
  have h5 := syncSupplies_rest (syncFlumes_rest h4)
  generalize syncSupplies _ = t4 at h5 ⊢
  split
  · exact modAon_rest (fun _ => driveEnd_rest) h5
  · exact h5



end Sys2Proof.Machine
end

