-- ==== Sys2Proof/Laws/Sequencer.lean ====
section
/-!
SUPPORT. What follows a change of an item (Machine/Power.lean, advance and itemChange) leaves as it is: domains, started
items, faults and forms, and every rail that does not wait.
-/

namespace Sys2Proof.Machine

set_option linter.all false

variable {r s t : State}

/-! ## What depends on what: only the masks of rails and domains count -/

theorem depMask_congr (h : ∀ n, (getRail t n).mask = (getRail s n).mask) (g : ∀ d, (getDom t d).need = (getDom s d).need) :
    depMask t = depMask s := by
  funext i; unfold depMask; split
  · exact h _
  · rw [g]
  · rfl
theorem depAll_congr (h : depMask t = depMask s) : depAll t = depAll s := by
  have he : depExpand t = depExpand s := by funext m; unfold depExpand; rw [h]
  have hi : ∀ n m, depIter t n m = depIter s n m := by
    intro n; induction n with
    | zero => intro m; rfl
    | succ n ih => intro m; unfold depIter; rw [he]; exact ih _
  funext i; unfold depAll; rw [h]; exact hi _ _
theorem dependsOn_congr (h : depMask t = depMask s) : dependsOn t = dependsOn s := by
  funext i j; unfold dependsOn; rw [depAll_congr h]

/-! ## What stays -/

theorem RestS.trans {a b c : State} (h : RestS a b) (g : RestS b c) : RestS a c := Eq.trans g h
theorem RestS.proj {α : Type} (h : RestS r s) (f : Aon → α) (hf : ∀ a : Aon, f a.rest = f a) : f s.aon = f r.aon := by
  rw [← hf s.aon, ← hf r.aon]; exact congrArg f h

/-- What a change of items never touches by itself: domains but for the instants at which they came up and went, started
items, faults, the take-downs and what stands outside the sequencer's own progress. A waiting rail may begin its delay, one
in its delay may wait again, and a raise may end. -/
structure SeqSame (r s : State) : Prop where
  now : s.now = r.now
  doms : s.aon.doms.map DomS.rest = r.aon.doms.map DomS.rest
  started : s.aon.started = r.aon.started
  faults : s.aon.faults = r.aon.faults
  form : s.aon.form = r.aon.form
  parts : s.aon.parts = r.aon.parts
  offCause : s.aon.offCause = r.aon.offCause
  cmdErr : s.aon.cmdErr = r.aon.cmdErr
  por : s.aon.por = r.aon.por
  mrst : s.aon.mrst = r.aon.mrst
  strap : s.aon.strap = r.aon.strap
  press : s.aon.press = r.aon.press
  xtalOk : s.aon.xtalOk = r.aon.xtalOk
  vsArmed : s.aon.vsArmed = r.aon.vsArmed
  awaitRecovery : s.aon.awaitRecovery = r.aon.awaitRecovery
  waitWorkers : s.aon.waitWorkers = r.aon.waitWorkers
  stall : r.aon.stall = true → s.aon.stall = true
  seqState : s.aon.seqState = r.aon.seqState ∨ (r.aon.seqState = .risingA ∧ s.aon.seqState = .onA) ∨
    (r.aon.seqState = .risingB ∧ s.aon.seqState = .onB)
  rail : ∀ n : Rail, getRail s n = { getRail r n with st := (getRail s n).st, since := (getRail s n).since }
  railSt : ∀ n : Rail, getRail s n = getRail r n ∨ (((getRail r n).st = .wait ∨ (getRail r n).st = .delay) ∧
    ((getRail s n).st = .wait ∨ (getRail s n).st = .delay))

theorem SeqSame.refl (s : State) : SeqSame s s := by
  constructor <;> first | rfl | exact id | exact .inl rfl | exact fun _ => rfl | exact fun _ => .inl rfl

theorem SeqSame.trans (h : SeqSame r s) (g : SeqSame s t) : SeqSame r t where
  now := g.now.trans h.now
  doms := g.doms.trans h.doms
  started := g.started.trans h.started
  faults := g.faults.trans h.faults
  form := g.form.trans h.form
  parts := g.parts.trans h.parts
  offCause := g.offCause.trans h.offCause
  cmdErr := g.cmdErr.trans h.cmdErr
  por := g.por.trans h.por
  mrst := g.mrst.trans h.mrst
  strap := g.strap.trans h.strap
  press := g.press.trans h.press
  xtalOk := g.xtalOk.trans h.xtalOk
  vsArmed := g.vsArmed.trans h.vsArmed
  awaitRecovery := g.awaitRecovery.trans h.awaitRecovery
  waitWorkers := g.waitWorkers.trans h.waitWorkers
  stall := fun x => g.stall (h.stall x)
  seqState := by
    rcases h.seqState with e | ⟨e, f⟩ | ⟨e, f⟩
    · rw [← e]; exact g.seqState
    · rcases g.seqState with u | ⟨u, v⟩ | ⟨u, v⟩
      · exact .inr (.inl ⟨e, u.trans f⟩)
      · rw [f] at u; cases u
      · rw [f] at u; cases u
    · rcases g.seqState with u | ⟨u, v⟩ | ⟨u, v⟩
      · exact .inr (.inr ⟨e, u.trans f⟩)
      · rw [f] at u; cases u
      · rw [f] at u; cases u
  rail := fun n => by
    have a := h.rail n
    have b := g.rail n
    rw [a] at b
    exact b
  railSt := fun n => by
    rcases g.railSt n with e | ⟨e, f⟩
    · rw [e]; exact h.railSt n
    · rcases h.railSt n with u | ⟨u, _⟩
      · rw [u] at e; exact .inr ⟨e, f⟩
      · exact .inr ⟨u, f⟩

/-- A domain stays as it is, but for the instants at which it came up and went. -/
theorem SeqSame.dom (h : SeqSame r s) (d : Dom) : (getDom s d).rest = (getDom r d).rest := by
  have e := congrArg (fun v => tget v d) h.doms
  simpa [tget, getDom] using e

/-- A rail that neither waits nor is in its delay stays as it is. -/
theorem SeqSame.railKept (h : SeqSame r s) (n : Rail) (hw : (getRail r n).st ≠ .wait) (hd : (getRail r n).st ≠ .delay) :
    getRail s n = getRail r n :=
  (h.railSt n).resolve_right fun x => x.1.elim hw hd

/-- A rail that waits goes on waiting or begins its delay. -/
theorem SeqSame.railWait (h : SeqSame r s) (n : Rail) (hn : (getRail r n).st = .wait) :
    (getRail s n).st = .wait ∨ (getRail s n).st = .delay := by
  rcases h.railSt n with e | ⟨_, e⟩
  · left; rw [e]; exact hn
  · exact e

/-- What depends on what stays. -/
theorem SeqSame.dependsOn (h : SeqSame r s) : dependsOn s = dependsOn r :=
  dependsOn_congr (depMask_congr (fun n => by rw [h.rail n]) (fun d =>
    show (getDom s d).rest.need = (getDom r d).rest.need by rw [h.dom d]))

/-- The power state stays as it is unless a raise ends. -/
theorem SeqSame.seqKept (h : SeqSame r s) (a : r.aon.seqState ≠ .risingA) (b : r.aon.seqState ≠ .risingB) :
    s.aon.seqState = r.aon.seqState := by
  rcases h.seqState with e | ⟨e, _⟩ | ⟨e, _⟩
  · exact e
  · exact absurd e a
  · exact absurd e b

theorem RestD.proj {α : Type} (h : RestD r s) (f : Aon → α)
    (hf : ∀ a : Aon, f { a.rest with doms := a.doms.map DomS.rest } = f a) : f s.aon = f r.aon := by
  rw [← hf s.aon, ← hf r.aon]; exact congrArg f h

theorem RestD.seqSame (h : RestD r s) (hn : s.now = r.now) : SeqSame r s where
  now := hn
  doms := h.proj (fun a => a.doms.map DomS.rest) (fun a => by simp [DomS.rest])
  started := h.proj Aon.started (fun _ => rfl)
  faults := h.proj Aon.faults (fun _ => rfl)
  form := h.proj Aon.form (fun _ => rfl)
  parts := h.proj Aon.parts (fun _ => rfl)
  offCause := h.proj Aon.offCause (fun _ => rfl)
  cmdErr := h.proj Aon.cmdErr (fun _ => rfl)
  por := h.proj Aon.por (fun _ => rfl)
  mrst := h.proj Aon.mrst (fun _ => rfl)
  strap := h.proj Aon.strap (fun _ => rfl)
  press := h.proj Aon.press (fun _ => rfl)
  xtalOk := h.proj Aon.xtalOk (fun _ => rfl)
  vsArmed := h.proj Aon.vsArmed (fun _ => rfl)
  awaitRecovery := h.proj Aon.awaitRecovery (fun _ => rfl)
  waitWorkers := h.proj Aon.waitWorkers (fun _ => rfl)
  stall := fun x => (h.proj Aon.stall (fun _ => rfl)).trans x
  seqState := .inl (h.proj Aon.seqState (fun _ => rfl))
  rail := fun n => by
    have : getRail s n = getRail r n := by unfold getRail; rw [h.proj Aon.rails (fun _ => rfl)]
    rw [this]
  railSt := fun n => .inl (by unfold getRail; rw [h.proj Aon.rails (fun _ => rfl)])

/-- A step that keeps the time and the rest of AON. -/
theorem SeqSame.of {m : Nat} (h : RestS s t) (k : Keeps m s t) (hm : m.testBit 0 = false) : SeqSame s t :=
  h.restD.seqSame (k.1 .now hm)

theorem settle_seqSame : SeqSame t (settle s t) :=
  settle_restD.seqSame ((settle_keeps (s := s) (Sub.refl _) (Keeps.refl _ t)).1 .now rfl)
theorem aonEvent_seqSame {code : Nat} {d0 d1 : Word} : SeqSame s (aonEvent code d0 d1 s) :=
  .of (aonEvent_rest (RestS.refl s)) (aonEvent_keeps (Sub.refl _) (Keeps.refl _ s)) rfl
theorem logCode_seqSame {code : Nat} {d0 d1 : Word} : SeqSame s (logCode code d0 d1 s) :=
  .of (logCode_rest (RestS.refl s)) (logCode_keeps (Sub.refl _) (Keeps.refl _ s)) rfl
theorem logPost_seqSame {code : Nat} {d0 d1 : Word} : SeqSame s (logPost code d0 d1 s) :=
  .of (logPost_rest (RestS.refl s)) (logPost_keeps (Sub.refl _) (Keeps.refl _ s)) rfl
theorem holdEngines_seqSame : SeqSame s (holdEngines s) :=
  .of (holdEngines_rest (RestS.refl s)) (holdEngines_keeps (Sub.refl _) (Keeps.refl _ s)) rfl
theorem abortPages_seqSame {p : Page → Bool} {cause form : Nat} : SeqSame s (abortPages p cause form s) :=
  .of (abortPages_rest (RestS.refl s)) (abortPages_keeps (Sub.refl _) (Keeps.refl _ s)) rfl
theorem imageCut_seqSame {err : Nat} : SeqSame s (imageCut err s) :=
  .of (imageCut_rest (RestS.refl s)) (imageCut_keeps (Sub.refl _) (Keeps.refl _ s)) rfl

/-- AON replaced by one that differs in nothing SeqSame names. -/
theorem SeqSame.aon {a : Aon} (hn : t.now = s.now) (e : t.aon = a) (h : a.doms = s.aon.doms ∧ a.started = s.aon.started ∧ a.faults = s.aon.faults ∧
    a.form = s.aon.form ∧ a.parts = s.aon.parts ∧ a.offCause = s.aon.offCause ∧ a.cmdErr = s.aon.cmdErr ∧ a.por = s.aon.por ∧ a.mrst = s.aon.mrst ∧
    a.strap = s.aon.strap ∧ a.press = s.aon.press ∧ a.xtalOk = s.aon.xtalOk ∧ a.vsArmed = s.aon.vsArmed ∧
    a.awaitRecovery = s.aon.awaitRecovery ∧ a.waitWorkers = s.aon.waitWorkers ∧ (s.aon.stall = true → a.stall = true) ∧
    a.seqState = s.aon.seqState ∧ a.rails = s.aon.rails) : SeqSame s t := by
  subst e
  obtain ⟨h1, h2, h3, h4, hp, h5, h6, h7, h8, h9, h11, h12, h13, h14, h15, h16, h17, h18⟩ := h
  exact ⟨hn, congrArg _ h1, h2, h3, h4, hp, h5, h6, h7, h8, h9, h11, h12, h13, h14, h15, h16, .inl h17,
    fun n => by unfold getRail; rw [h18], fun n => .inl (by unfold getRail; rw [h18])⟩

theorem safeEnter_seqSame : SeqSame s (safeEnter s) := by
  unfold safeEnter
  split
  · exact .refl s
  · refine SeqSame.trans (s := modAon (fun a => { a with hold := true }) s) ?_ holdEngines_seqSame
    exact .aon rfl rfl ⟨rfl, rfl, rfl, rfl, rfl, rfl, rfl, rfl, rfl, rfl, rfl, rfl, rfl, rfl, rfl, id, rfl, rfl⟩

theorem sheetOutcome_seqSame {o t0 : Nat} : SeqSame s (sheetOutcome o t0 s) :=
  have h : RestS s (sheetMoved t0 s) := by
    unfold sheetMoved
    refine forEach_rest (fun n u h => ?_) (RestS.refl s)
    dsimp only
    split
    · exact emit_rest (noteStill_rest (modStep_rest h))
    · exact h
  have m : SeqSame s (sheetMoved t0 s) := .of h (sheetMoved_keeps (Sub.refl _) (Keeps.refl _ s)) rfl
  have e : SeqSame (sheetMoved t0 s) (modAon (fun a => { a with sheet := .idle }) (sheetMoved t0 s)) :=
    .aon rfl rfl ⟨rfl, rfl, rfl, rfl, rfl, rfl, rfl, rfl, rfl, rfl, rfl, rfl, rfl, rfl, rfl, id, rfl, rfl⟩
  by
    unfold sheetOutcome
    dsimp only
    split
    · exact (m.trans e).trans (logCode_seqSame.trans aonEvent_seqSame)
    · exact (m.trans e).trans logCode_seqSame

theorem sheetStop_seqSame : SeqSame s (sheetStop s) := by
  unfold sheetStop
  split
  · exact sheetOutcome_seqSame
  · exact .refl s

theorem driveEnter_seqSame : SeqSame s (driveEnter s) := sheetStop_seqSame.trans safeEnter_seqSame

theorem beatHold_seqSame : SeqSame s (beatHold s) := by
  unfold beatHold
  split
  · refine SeqSame.trans (s := modAon (fun a => { a with cBeat := true }) s) ?_ driveEnter_seqSame
    exact .aon rfl rfl ⟨rfl, rfl, rfl, rfl, rfl, rfl, rfl, rfl, rfl, rfl, rfl, rfl, rfl, rfl, rfl, id, rfl, rfl⟩
  · exact .refl s

theorem noteBeatFault_seqSame {i : Nat} : SeqSame s (noteBeatFault i s) := by
  unfold noteBeatFault
  split
  · exact .aon rfl rfl ⟨rfl, rfl, rfl, rfl, rfl, rfl, rfl, rfl, rfl, rfl, rfl, rfl, rfl, rfl, rfl, id, rfl, rfl⟩
  · exact .refl s

/-- A rail that waits or is in its delay takes another state of the two. -/
theorem SeqSame.delay {n : Rail} {x : RailSt} {k : Nat} (h : SeqSame r s)
    (hn : (getRail r n).st = .wait ∨ (getRail r n).st = .delay) (hx : x = .wait ∨ x = .delay) :
    SeqSame r (modRail n (fun y => { y with st := x, since := k }) s) :=
  have hg : ∀ m, getRail (modRail n (fun y => { y with st := x, since := k }) s) m =
      if n = m then { getRail s n with st := x, since := k } else getRail s m := fun m => tget_tmod _ _ _ _
  { now := h.now, doms := h.doms, started := h.started, faults := h.faults, form := h.form, parts := h.parts
    offCause := h.offCause, cmdErr := h.cmdErr, por := h.por, mrst := h.mrst, strap := h.strap, press := h.press
    xtalOk := h.xtalOk, vsArmed := h.vsArmed, awaitRecovery := h.awaitRecovery, waitWorkers := h.waitWorkers
    stall := h.stall, seqState := h.seqState
    rail := fun m => by
      rw [hg m]
      split
      · rename_i e; subst e
        rw [h.rail n]
      · exact h.rail m
    railSt := fun m => by
      rw [hg m]
      split
      · rename_i e; subst e; exact .inr ⟨hn, hx⟩
      · exact h.railSt m }

/-- One rail after another, each that the first state finds waiting or in its delay taking another state of the two. -/
theorem delays_seqSame {p : Rail → Bool} {x : RailSt} (hp : ∀ n, p n = true → (getRail s n).st = .wait ∨ (getRail s n).st = .delay)
    (hx : x = .wait ∨ x = .delay) {l : List Rail} : SeqSame s (forEach (fun n t =>
      if p n then modRail n (fun y => { y with st := x, since := t.now }) t else t) l s) := by
  suffices h : ∀ u : State, SeqSame s u → SeqSame s (forEach (fun n t =>
      if p n then modRail n (fun y => { y with st := x, since := t.now }) t else t) l u) from h s (SeqSame.refl s)
  induction l with
  | nil => exact fun u h => h
  | cons n l ih =>
    intro u h
    refine ih _ ?_
    dsimp only
    split
    · rename_i hr; exact h.delay (hp n hr) hx
    · exact h

theorem startDelays_seqSame : SeqSame s (startDelays s) :=
  delays_seqSame (p := fun n => itemReady s n.1) (x := .delay) (fun n hr => .inl (by
    simp only [itemReady, itemWaits, itemKind, n.2, Bool.and_eq_true, dif_pos] at hr
    simpa using hr.1.1.2)) (.inr rfl)

theorem stopDelays_seqSame : SeqSame s (stopDelays s) :=
  delays_seqSame (p := fun n => (getRail s n).st == .delay && !depsReady s n.1) (x := .wait) (fun n hr => .inr (by
    simp only [Bool.and_eq_true, beq_iff_eq] at hr; exact hr.1)) (.inl rfl)

theorem stallWith_seqSame {l : List Nat} : SeqSame s (stallWith l s) := by
  refine SeqSame.trans ?_ aonEvent_seqSame
  exact .aon rfl rfl ⟨rfl, rfl, rfl, rfl, rfl, rfl, rfl, rfl, rfl, rfl, rfl, rfl, rfl, rfl, rfl, fun _ => rfl, rfl, rfl⟩

theorem settleCmds_seqSame : SeqSame s (settleCmds s) := by
  unfold settleCmds
  dsimp only
  split
  · exact .aon rfl rfl ⟨rfl, rfl, rfl, rfl, rfl, rfl, rfl, rfl, rfl, rfl, rfl, rfl, rfl, rfl, rfl, id, rfl, rfl⟩
  · refine SeqSame.trans ?_ stallWith_seqSame
    exact .aon rfl rfl ⟨rfl, rfl, rfl, rfl, rfl, rfl, rfl, rfl, rfl, rfl, rfl, rfl, rfl, rfl, rfl, id, rfl, rfl⟩

theorem raiseEnd_seqSame : SeqSame s (raiseEnd s) := by
  unfold raiseEnd
  dsimp only
  split
  · rename_i hb
    split
    · refine SeqSame.trans ?_ aonEvent_seqSame
      refine SeqSame.trans (s := if (stuckItems s).isEmpty then s else stallWith (stuckItems s) s) ?_ ?_
      · split
        · exact .refl s
        · exact stallWith_seqSame
      · have hq : (if (stuckItems s).isEmpty then s else stallWith (stuckItems s) s).aon.seqState = s.aon.seqState := by
          split
          · rfl
          · exact (aonEvent_rest (RestS.refl _)).proj Aon.seqState (fun _ => rfl)
        generalize (if (stuckItems s).isEmpty then s else stallWith (stuckItems s) s) = u at *
        simp only [Bool.or_eq_true, beq_iff_eq] at hb
        constructor <;> first | rfl | exact id | exact fun _ => rfl | exact fun _ => .inl rfl | skip
        rcases hb with e | e
        · exact .inr (.inl ⟨hq.trans e, by simp [modAon, e]⟩)
        · exact .inr (.inr ⟨hq.trans e, by simp [modAon, e]⟩)
    · exact SeqSame.refl s
  · exact SeqSame.refl s

theorem advance_seqSame : SeqSame s (advance s) :=
  ((stopDelays_seqSame.trans startDelays_seqSame).trans settleCmds_seqSame).trans raiseEnd_seqSame

/-- A change of items after which no take-down has ended keeps all this of the state that the change itself made. -/
theorem itemChange_seqSame {f : State → State} (h : formDone (advance (settle s (f s))) = false) :
    SeqSame (f s) (itemChange f s) := by
  unfold itemChange formCheck
  rw [if_neg (by simp [h])]
  exact (settle_seqSame.trans advance_seqSame).trans beatHold_seqSame

/-- With no form in progress none can end. -/
theorem itemChange_seqSame_free {f : State → State} (h : (f s).aon.form = .none) : SeqSame (f s) (itemChange f s) := by
  refine itemChange_seqSame ?_
  have e := (settle_seqSame (s := s) (t := f s)).trans advance_seqSame |>.form
  unfold formDone
  rw [e, h]
  rfl

/-! ## What marks and clears items leaves -/

/-- AON without what the items' own states, the commands in progress and the reactions of other blocks change. -/
def Aon.frm (a : Aon) : Aon :=
  { a.rest with rails := Aon.reset.rails, doms := Aon.reset.doms, retryIn := [], upItem := none, ownIn := [] }

/-- Time and the frame of AON are the same in both states. -/
def FrmS (r s : State) : Prop := s.now = r.now ∧ s.aon.frm = r.aon.frm

theorem FrmS.refl (s : State) : FrmS s s := ⟨rfl, rfl⟩
theorem FrmS.trans (h : FrmS r s) (g : FrmS s t) : FrmS r t := ⟨g.1.trans h.1, g.2.trans h.2⟩
theorem FrmS.proj {α : Type} (h : FrmS r s) (f : Aon → α) (hf : ∀ a : Aon, f a.frm = f a) : f s.aon = f r.aon := by
  rw [← hf s.aon, ← hf r.aon]; exact congrArg f h.2
theorem FrmS.of {m : Nat} (h : RestS s t) (k : Keeps m s t) (hm : m.testBit 0 = false) : FrmS s t :=
  ⟨k.1 .now hm, congrArg (fun a : Aon => { a with rails := Aon.reset.rails, doms := Aon.reset.doms, retryIn := [], upItem := none, ownIn := [] }) h⟩

theorem setItem_frm {a : RailSt} {b : DomSt} {i : Nat} : FrmS s (setItem a b i s) := by
  unfold setItem; split <;> exact ⟨rfl, rfl⟩
theorem markWait_frm {i : Nat} : FrmS s (markWait i s) := by
  unfold markWait; split
  · split <;> exact ⟨rfl, rfl⟩
  · split <;> exact ⟨rfl, rfl⟩
  · exact ⟨rfl, rfl⟩

theorem forEach_frm {α : Type} {f : α → State → State} (hf : ∀ a s, FrmS s (f a s)) : ∀ {l : List α} {s : State}, FrmS s (forEach f l s)
  | [], s => .refl s
  | a :: l, s => (hf a s).trans (forEach_frm hf (l := l))

theorem clearWaits_frm {p : Nat → Bool} : FrmS s (clearWaits p s) := by
  unfold clearWaits
  refine FrmS.trans (s := modAon (fun a => { a with retryIn := a.retryIn.filter (fun i => !p i), upItem := a.upItem.filter (fun i => !p i),
                                                     ownIn := a.ownIn.filter (fun i => !p i) }) s) ⟨rfl, rfl⟩ ?_
  apply forEach_frm
  intro i s
  split
  · exact setItem_frm
  · exact .refl s

theorem sendSkid_keepsAon {q : SkidPort} {f : Frame} : (sendSkid q f s).aon = s.aon :=
  (sendSkid_keeps (Sub.refl _) (Keeps.refl _ s)).1 .aon rfl
theorem forwardPower_aon {c : BitVec 4} : (forwardPower c s).aon = s.aon :=
  (forwardPower_keeps (Sub.refl _) (Keeps.refl _ s)).1 .aon rfl
theorem offReport_aon : (offReport s).aon = s.aon := (offReport_keeps (Sub.refl _) (Keeps.refl _ s)).1 .aon rfl

/-- Marking a list of items: an OFF rail of it waits, other rails stay. -/
theorem markAll_rail (l : List Nat) (n : Rail) : ∀ s : State,
    getRail (forEach markWait l s) n = if n.1 ∈ l ∧ (getRail s n).st = .off
      then { getRail s n with st := .wait, tries := 0, cause := 0, since := s.now } else getRail s n := by
  induction l with
  | nil => intro s; simp [forEach]
  | cons i l ih =>
    intro s
    rw [forEach, ih]
    have hn : (markWait i s).now = s.now := markWait_frm.1
    rw [hn]
    have key : getRail (markWait i s) n = if n.1 = i ∧ (getRail s n).st = .off
        then { getRail s n with st := .wait, tries := 0, cause := 0, since := s.now } else getRail s n := by
      unfold markWait
      split
      · rename_i m hm
        have him : i = m.1 := by
          unfold itemKind at hm
          split at hm
          · simp only [Option.some.injEq, Sum.inl.injEq] at hm; rw [← hm]
          · split at hm <;> simp at hm
        subst him
        split
        · rename_i ho
          rw [getRail_modRail]
          by_cases e : m = n
          · subst e; rw [if_pos rfl, if_pos ⟨rfl, by simpa using ho⟩]
          · rw [if_neg e, if_neg (fun x => e (Fin.ext x.1.symm))]
        · rename_i ho
          rw [if_neg]
          intro x
          have : n = m := Fin.ext x.1
          subst this
          exact ho (by simp [x.2])
      · rename_i d hd
        have hne : n.1 ≠ i := by
          unfold itemKind at hd
          split at hd
          · simp at hd
          · omega
        refine Eq.trans ?_ (if_neg (fun x => hne x.1)).symm
        split <;> rfl
      · rename_i hd
        have hne : n.1 ≠ i := by
          unfold itemKind at hd
          split at hd
          · simp at hd
          · have := n.2; omega
        rw [if_neg (fun x => hne x.1)]
    rw [key]
    by_cases h1 : n.1 = i ∧ (getRail s n).st = .off
    · rw [if_pos h1]
      simp [h1.1, h1.2]
    · rw [if_neg h1]
      by_cases h2 : (getRail s n).st = .off
      · have : ¬ n.1 = i := fun x => h1 ⟨x, h2⟩
        simp [this, h2]
      · simp [h2]

/-- Marking a list of items: an OFF domain of it waits, other domains stay. -/
theorem markAll_dom (l : List Nat) (d : Dom) (hd0 : d ≠ 0) : ∀ s : State,
    getDom (forEach markWait l s) d = if 16 + d.1 ∈ l ∧ (getDom s d).st = .off
      then { getDom s d with st := .wait, since := s.now } else getDom s d := by
  induction l with
  | nil => intro s; simp [forEach]
  | cons i l ih =>
    intro s
    rw [forEach, ih]
    have hn : (markWait i s).now = s.now := markWait_frm.1
    rw [hn]
    have hpos : 0 < d.1 := Nat.pos_of_ne_zero fun e => hd0 (Fin.ext e)
    have key : getDom (markWait i s) d = if 16 + d.1 = i ∧ (getDom s d).st = .off
        then { getDom s d with st := .wait, since := s.now } else getDom s d := by
      unfold markWait
      split
      · rename_i m hm
        have hne : 16 + d.1 ≠ i := by
          unfold itemKind at hm
          split at hm
          · omega
          · split at hm <;> simp at hm
        refine Eq.trans ?_ (if_neg (fun x => hne x.1)).symm
        split <;> rfl
      · rename_i e he
        have hie : i = 16 + e.1 := by
          unfold itemKind at he
          split at he
          · simp at he
          · split at he
            · simp only [Option.some.injEq, Sum.inr.injEq] at he; rw [← he]; dsimp only; omega
            · simp at he
        subst hie
        split
        · rename_i ho
          rw [getDom_modDom]
          by_cases e1 : e = d
          · subst e1; rw [if_pos rfl, if_pos ⟨rfl, by simpa using ho⟩]
          · rw [if_neg e1, if_neg (fun x => e1 (Fin.ext (by omega)))]
        · rename_i ho
          rw [if_neg]
          intro x
          have : e = d := Fin.ext (by omega)
          subst this
          exact ho (by simp [x.2])
      · rename_i hk
        have hne : 16 + d.1 ≠ i := by
          unfold itemKind at hk
          split at hk
          · simp at hk
          · split at hk
            · simp at hk
            · have := d.2; omega
        rw [if_neg (fun x => hne x.1)]
    rw [key]
    by_cases h1 : 16 + d.1 = i ∧ (getDom s d).st = .off
    · rw [if_pos h1]
      simp [h1.1, h1.2]
    · rw [if_neg h1]
      by_cases h2 : (getDom s d).st = .off
      · have : ¬ 16 + d.1 = i := fun x => h1 ⟨x, h2⟩
        simp [this, h2]
      · simp [h2]

end Sys2Proof.Machine
end

