-- ==== Sys2Proof/WellFormed.lean ====
section
/-!
DEFINITION. Which commands are well formed: an offset lies in its window and a block of bytes has the length the spec
gives it. A register write carries a naturally aligned offset of the 16 MiB of BAR0 (R3, 08 BARs); any other access is the
row BAR0_MISALIGNED_ACCESS.
-/

namespace Sys2Proof

/-- An access that R4 is about: inside BAR0, of 1 to 8 bytes, and not a naturally aligned 32-bit access. -/
def misaligned (off size : Nat) : Bool :=
  decide (off < 16777216) && decide (1 ≤ size) && decide (size ≤ 8) && !(size == 4 && off % 4 == 0)

/-- Bytes that a JRP port can receive as one frame: eight of header, at most 4,100 of payload, four of CRC (05, Frames; R200). -/
def jrpBytes (frame : List Byte) : Bool := decide (1 ≤ frame.length) && decide (frame.length ≤ 4112)

/-- A ring entry is 64 bytes (08, Command rings). -/
def ringEntry (e : List Byte) : Bool := e.length == 64

/-- A part of the 8 MiB of BAR2 (08, BARs). -/
def bar2Span (x n : Nat) : Bool := decide (1 ≤ n) && decide (x + n ≤ 8388608)

/-- A block of n bytes, where the read that brings it succeeds. -/
def lenIs (n : Nat) : Option (List Byte) → Bool
  | none => true
  | some b => b.length == n

/-- A block of 1 to n bytes, where the read that brings it succeeds. -/
def lenUpTo (n : Nat) : Option (List Byte) → Bool
  | none => true
  | some b => decide (1 ≤ b.length) && decide (b.length ≤ n)

/-- A program is a whole number of 4-byte words (06, PROG_LEN). -/
def wholeWords : Option (List Byte) → Bool
  | none => true
  | some b => b.length % 4 == 0

/-- A frame of skid bus mastering: its data has the length it names, and a write carries data (R648). -/
def busFrame (write : Bool) (n : Nat) (data : Option (List Byte)) : Bool := lenIs n data && (!write || data.isSome)

/-- A command is well formed. -/
def Instr.wf : Instr → Bool
  | .regWrite _ off _ => decide (off < 16777216) && off % 4 == 0
  | .bar0MisalignedAccess _ off size _ => misaligned off size
  | .glbLockSet => true
  | .flumeMinClear => true
  | .etLoRead => true
  | .trkAnchorLoRead _ => true
  | .tallyUsable _ => true
  | .producerPushResume _ => true
  | .aonPorAssert => true
  | .aonPorRelease _ _ _ _ _ _ => true
  | .keeperCheckDone => true
  | .xtalStable => true
  | .domainSwitchStart => true
  | .domainGood _ => true
  | .domainTimeout _ => true
  | .pllLockLost _ => true
  | .railDlyExpire _ => true
  | .railGood _ => true
  | .railSswExpire _ => true
  | .railOvercurrent _ => true
  | .railCoolExpire _ => true
  | .railDrop _ _ => true
  | .collapseStep => true
  | .graceExpire => true
  | .orderlyTakedownStep => true
  | .offWindowExpire => true
  | .enginesUp _ => true
  | .enginesDown _ => true
  | .seqOff _ => true
  | .offAck _ => true
  | .retry _ => true
  | .itemUp _ _ => true
  | .itemDown _ _ => true
  | .seqBadCmd _ _ => true
  | .btnPress => true
  | .btnRelease => true
  | .btnLong => true
  | .btnCut => true
  | .mrstAssert => true
  | .mrstRelease => true
  | .pfwNFall => true
  | .pfwCollapse => true
  | .vsenseCollapse => true
  | .vsenseArm => true
  | .collapseRecovery => true
  | .safeNFall => true
  | .safeNRecognised => true
  | .safeNRise => true
  | .safeAssert _ _ => true
  | .safeRelease _ => true
  | .heartbeatLost _ => true
  | .thermalConversion _ _ => true
  | .bootOk _ => true
  | .bootTimeout => true
  | .bootRestart _ => true
  | .imageAbort _ => true
  | .ldieDone _ => true
  | .imageLoadGo _ _ => true
  | .imageBlockArrive data => lenUpTo 4096 data
  | .imageLoadComplete => true
  | .rbAdvance _ => true
  | .otpProg _ => true
  | .coverClose => true
  | .sheetClearStart => true
  | .sheetClearCancel => true
  | .sheetClearEnd => true
  | .jrpHello _ frame => jrpBytes frame
  | .jrpSetBaud _ frame => jrpBytes frame
  | .jrpLogRead _ frame => jrpBytes frame
  | .jrpRegRead _ frame => jrpBytes frame
  | .jrpRegWrite _ frame => jrpBytes frame
  | .imgBegin _ frame => jrpBytes frame
  | .imgData _ frame => jrpBytes frame
  | .imgEnd _ frame => jrpBytes frame
  | .imgAbort _ frame => jrpBytes frame
  | .jrpReset _ frame => jrpBytes frame
  | .jrpBadCmd _ frame => jrpBytes frame
  | .jrpUartGap => true
  | .jrpBaudRevert => true
  | .cmdNop _ e => ringEntry e
  | .cmdArm _ e => ringEntry e
  | .armEntryArrive data => lenIs 192 data
  | .armProgramArrive data => lenUpTo 262144 data && wholeWords data
  | .cmdDisarm _ e _ => ringEntry e
  | .cmdRefresh _ e => ringEntry e
  | .refreshSwap => true
  | .cmdMail _ e => ringEntry e
  | .cmdPlan _ e => ringEntry e
  | .planArrive data => lenIs 192 data
  | .cmdPageAbort _ e => ringEntry e
  | .cmdBad _ e => ringEntry e
  | .cqEnable _ _ => true
  | .cqReadError _ => true
  | .cpqEnable _ => true
  | .cpqRecordWrite => true
  | .msixCoalTimeout _ => true
  | .recover _ => true
  | .recoverRecord => true
  | .perstAssert => true
  | .perstRelease => true
  | .bar2Write x data => bar2Span x data.length
  | .bar2Read x n _ => bar2Span x n
  | .blockedInstructionResume _ _ => true
  | .illegalOpcode _ => true
  | .nop _ => true
  | .jmp _ => true
  | .jcc _ => true
  | .call _ => true
  | .ret _ => true
  | .loop _ => true
  | .halt _ => true
  | .ldi _ => true
  | .ldh _ => true
  | .mov _ => true
  | .movFlagsRead _ => true
  | .movFlagsWrite _ => true
  | .movStatus _ => true
  | .add _ => true
  | .sub _ => true
  | .and _ => true
  | .or _ => true
  | .xor _ => true
  | .shl _ => true
  | .shr _ => true
  | .cmp _ => true
  | .ldm _ => true
  | .stm _ => true
  | .waitet _ => true
  | .waitth _ => true
  | .waitev _ => true
  | .atPfx _ => true
  | .atthPfx _ => true
  | .push _ => true
  | .pop _ => true
  | .take _ => true
  | .give _ => true
  | .move _ => true
  | .movx _ => true
  | .setp _ => true
  | .ramp _ => true
  | .loopon _ => true
  | .loopoff _ => true
  | .fire _ => true
  | .strobe _ => true
  | .scanl _ => true
  | .sig _ => true
  | .fence _ => true
  | .commitAdmit _ _ => true
  | .commitDone _ => true
  | .abort _ => true
  | .log _ => true
  | .trap _ => true
  | .wheelDispatch => true
  | .guardOpen => true
  | .trkEdge _ => true
  | .trkSynthInsert _ => true
  | .trkEnable _ _ => true
  | .trkDisable _ => true
  | .trkRearm _ => true
  | .trkReacq _ => true
  | .memInit => true
  | .memTrainingDone _ => true
  | .arbRound _ addr _ _ => decide (addr < 68719476736)
  | .quotaWindowEnd _ => true
  | .arbReferenceWindow => true
  | .memRefresh => true
  | .mr4Poll _ => true
  | .memCopyGo _ => true
  | .memCopyDone data _ => decide (data.length ≤ 33554431)
  | .arbSnap => true
  | .arbPresetLoad _ => true
  | .landResWrite _ _ _ => true
  | .bandFetch _ _ => true
  | .tampDecodeBlock _ _ => true
  | .tampEncodeBlock _ _ => true
  | .tampGenGo => true
  | .tampGenDone => true
  | .bandStage _ desc => lenIs 32 desc
  | .bandCheckDone _ => true
  | .bdWindowExpire _ => true
  | .beamLineStart _ _ _ => true
  | .bandRelease _ => true
  | .apcSample _ _ _ => true
  | .apcOvp _ _ => true
  | .calTimeout _ => true
  | .beamOn _ => true
  | .beamOff _ => true
  | .beamRecal _ => true
  | .segmentTakeup _ => true
  | .trajectoryUpdate _ => true
  | .motOvercurrent _ => true
  | .bldcStall _ => true
  | .hallFault _ => true
  | .hallEdge _ _ => true
  | .motStop _ => true
  | .motClr _ => true
  | .motSetpos _ => true
  | .loopSample _ _ => true
  | .loopOutput _ => true
  | .hvIlim _ => true
  | .hvCoolExpire _ => true
  | .zeroCrossing => true
  | .heaterBurst _ => true
  | .fuserCheck _ => true
  | .loopClr _ => true
  | .loopOff _ => true
  | .headSlotLatch _ => true
  | .headGroupSlot => true
  | .headLineEnd => true
  | .headTempConvert _ => true
  | .headOn => true
  | .headOff => true
  | .scanExposureEnd => true
  | .scanLineEnd samples => decide (samples.length ≤ 4)
  | .scanRawWrite => true
  | .scanBufPush => true
  | .scanOn => true
  | .scanOff => true
  | .scanCal => true
  | .scanCalComplete dark red green blue => decide (dark.length ≤ 4) && decide (red.length ≤ 4) && decide (green.length ≤ 4) && decide (blue.length ≤ 4)
  | .pageAbortComplete _ => true
  | .sheetRecordStage => true
  | .jamDetect _ => true
  | .jamlatchClear _ => true
  | .nvWrite => true
  | .logRecordCommit => true
  | .logReadout _ _ => true
  | .logExport _ _ => true
  | .logExportDone => true
  | .skidEnum => true
  | .enumFrame _ _ _ _ => true
  | .enumLinkWaitExpire => true
  | .enumReply _ _ => true
  | .enumTimeout _ => true
  | .noManager => true
  | .heartbeatSend => true
  | .heartbeatFrame _ running => decide (running.length ≤ 512)
  | .echoFrame _ _ => true
  | .heartbeatMiss => true
  | .echoMiss _ => true
  | .tsyncFrame _ => true
  | .tsyncAcquired => true
  | .cPartClear => true
  | .skidAckFrame _ => true
  | .skidAckTimeout _ => true
  | .skidPortRetrain _ => true
  | .skidCmdFrame e => ringEntry e
  | .skidRecordFrame _ rec => rec.length == 32
  | .skidSigFrame _ _ _ _ => true
  | .skidBusmasterFrame _ write _ n data => busFrame write n data
  | .skidWinGo _ => true
  | .skidWinFrame _ off _ => decide (off < 16777216) && off % 4 == 0
  | .skidRecoverFrame _ _ _ => true
  | .skidRecoverDone _ => true
  | .skidPowerFrame _ => true
  | .skidOffReport _ => true
  | .workerOffTimeout => true
  | .rcFieldRead _ off => decide (off < 16777216) && off % 4 == 0
  | .cueUncorrectableEcc _ => true
  | .skidPartnerSignal _ _ => true
  | .skidLanesAligned _ => true
  | .skidWinReply _ _ => true
  | .logReadoutDone => true

end Sys2Proof
end

