-- ==== Sys2Proof/Tests/Slice0.lean ====
section
/-!
SUPPORT. Tests: a term each check of WellFormed refuses, states that meet the hypotheses of every statement clause by clause
(wit_…, named for the statement), and single steps whose result the spec gives (test_…).
-/

namespace Sys2Proof.Tests

set_option linter.all false

set_option Elab.async false

open Sys2Proof Sys2Proof.Machine

/-! ## States -/

/-- A manager, every domain on and good, Safe Hold released, every flume up, one second after power-on reset. -/
def up : State := { State.reset with
  now := sec
  aon := { Aon.reset with
    por := false, doms := Vector.replicate 12 { DomS.reset with en := true, st := .good }, hold := false, cRst := false, strap := 8 }
  fl := Vector.replicate 434 (Flume.full 16 false), host := { HostS.reset with perst := true, resFree := 64 }
  mem := { MemS.reset with ready := true } }

/-- The same device as an enumerated worker with number 2, both skid ports UP. -/
def worker : State := { up with
  aon := { up.aon with strap := 0 }
  skid := { Skid.reset with
    chain := 2, devnum := 2, port := Vector.replicate 2 { st := .up, since := 0, unacked := [], sentAt := [], waiting := [], fails := 0 } } }

/-- A manager with worker 1 enumerated, both skid ports UP. -/
def manager : State := { up with
  skid := { worker.skid with devnum := 0, live := 2, workers := 1, partOk := true } }

/-- A change of AON. -/
def inAon (f : Aon → Aon) : State := modAon f up
/-- Rail 3 in a state. -/
def rail (st : RailSt) : State := modRail 3 (fun x => { x with st := st, csEn := true, ssw := 10 }) up
/-- Domain 7 in a state. -/
def dom (st : DomSt) : State := modDom 7 (fun x => { x with st := st }) up
/-- Flume f with the values given. -/
def flume (f : FlumeId) (tally ret : Nat) (down : Bool) : State := modFl f (fun x => { x with tally := tally, ret := ret, down := down }) up
/-- A log record of stream k. -/
def logEntry (k : Fin 4) : LogEntry := { stream := k, code := 0x111, src := 0xFFFF, et := 0, aont := 0, d0 := 0, d1 := 0 }
/-- That record in the latch of AON. -/
def logLatch (k : Fin 4) : LogLatch := { src := aonSrc, count := 1, since := 0, entry := logEntry k }

/-! ## WellFormed refuses -/

theorem wf_regWrite_unaligned : Instr.wf (.regWrite .bar0 2 0) = false := by decide
theorem wf_regWrite_beyond : Instr.wf (.regWrite .bar0 16777216 0) = false := by decide
theorem wf_misaligned_access_is_aligned : Instr.wf (.bar0MisalignedAccess true 4 4 0) = false := by decide
theorem wf_misaligned_access_too_long : Instr.wf (.bar0MisalignedAccess true 4 9 0) = false := by decide
theorem wf_image_piece_empty : Instr.wf (.imageBlockArrive (some [])) = false := by decide
theorem wf_jrp_frame_empty : Instr.wf (.jrpHello .uart []) = false := by decide
theorem wf_ring_entry_short : Instr.wf (.cmdNop 0 [0]) = false := by decide
theorem wf_table_entry_short : Instr.wf (.armEntryArrive (some [0])) = false := by decide
theorem wf_program_odd : Instr.wf (.armProgramArrive (some [0])) = false := by decide
theorem wf_bar2_beyond : Instr.wf (.bar2Read 8388608 1 .clean) = false := by decide
theorem wf_arb_address : Instr.wf (.arbRound 0 68719476736 false .clean) = false := by decide
theorem wf_band_descriptor_short : Instr.wf (.bandStage 0 (some [0])) = false := by decide
theorem wf_samples_five_segments : Instr.wf (.scanLineEnd (List.replicate 5 [])) = false := by decide
theorem wf_cal_five_segments : Instr.wf (.scanCalComplete [] [] [] (List.replicate 5 [])) = false := by decide
theorem wf_skid_record_short : Instr.wf (.skidRecordFrame 1 [0]) = false := by decide
theorem wf_bus_write_without_data : Instr.wf (.skidBusmasterFrame 1 true 0 4 none) = false := by decide
theorem wf_bus_data_short : Instr.wf (.skidBusmasterFrame 1 false 0 4 (some [0])) = false := by decide
theorem wf_win_unaligned : Instr.wf (.skidWinFrame true 1 0) = false := by decide
theorem wf_rc_read_unaligned : Instr.wf (.rcFieldRead .bar0 3) = false := by decide
theorem wf_heartbeat_too_many : Instr.wf (.heartbeatFrame 1 (List.replicate 513 0)) = false := by
  rw [Instr.wf, List.length_replicate]; decide

/-! ## Whole-machine statements -/

theorem wit_StepRunsFrontCommand : ∃ s : State, s.pending = [.glbLockSet] := ⟨{ up with pending := [.glbLockSet] }, rfl⟩
theorem wit_EmptyQueueLetsOneTickPass : up.pending = [] := rfl
theorem test_reset_memWf : State.reset.memWf = true := by decide
theorem wit_EveryStepKeepsMemoryCanonical : up.memWf = true ∧ ∃ t, step up = .next t := ⟨by decide, _, rfl⟩
theorem wit_EveryStepKeepsActionNumbers : ActsOk up := by simp [ActsOk, up, getCh, tget, State.reset, Cue.reset, Channel.reset]
theorem wit_OtpBitsAreNeverCleared : ∃ t, step up = .next t := ⟨_, rfl⟩
theorem wit_LockStaysUntilPowerOnResetOrMrst : { up with lock := true }.lock = true ∧
    { up with lock := true }.pending.head? ≠ some .aonPorAssert ∧ { up with lock := true }.pending.head? ≠ some .mrstAssert := by decide
theorem wit_CommandsLeaveTheQueueAndThePast : ∃ t, exec .glbLockSet up = .next t := ⟨_, rfl⟩

/-! ## Registers and flumes -/

theorem wit_Bar0AccessesNotAlignedOrNotReaching : bar0Reach up = true ∧ ¬ (4 = 4 ∧ 2 % 4 = 0) ∧ bar0Reach State.reset = false := by decide
theorem wit_BlocksThatAreOffReadZeroAndIgnoreWrites : portReach (dom .off) .bar0 0x90000 = true ∧ blockOn (dom .off) 0x90000 = false ∧
    up.aon.por = false ∧ bar0Reach up = true := by decide
theorem wit_RegisterWritesTakeTheirFields : bar0Reach up = true ∧ up.aon.por = false ∧ up.lock = false ∧
    { up with lock := true }.lock = true ∧ 0x20000 / 65536 ≠ 1 ∧ 0x20000 / 65536 ≠ 14 := by decide
theorem wit_ReadsThatLatchOrClear : reach up .bar0 3 = true := by decide
theorem wit_TalliesCrossAndWaitingProducersTakeThem :
    ((getFl (flume 0x187 0 1 false) 0x187).down = false ∧ (getFl (flume 0x187 0 1 false) 0x187).ret = 0 + 1) ∧
    ((getFl (flume logFl 0 1 false) logFl).ret = 0 + 1 ∧ (getFl (flume logFl 0 1 false) logFl).tally = 0 ∧
      (modLg (fun l => { l with latches := [logLatch 0] }) (flume logFl 0 1 false)).lg.latches = [logLatch 0]) ∧
    (getFl (flume logFl 1 0 false) logFl).tally = 0 + 1 ∧ selFlume up = some 0 := by decide

/-! ## Sequencer, button, collapse, Safe Hold, reset -/

set_option maxRecDepth 4000 in
theorem wit_RailSoftStartAndFailure : ((getRail (rail .delay) 3).st = .delay ∧ spent (rail .delay).aon.form = false ∧
      depsReady (rail .delay) 3 = true ∧ depsReady (modRail 3 (fun x => { x with mask := 4 }) (rail .delay)) 3 = false) ∧
    (getRail (rail .soft) 3).st = .soft ∧
    (getRail (rail .soft) 3).csEn = true ∧ ({ rail .soft with now := 0 } : State).now ≤ (getRail (rail .soft) 3).since +
      (getRail (rail .soft) 3).ssw.toNat * ms ∧ spent (formWithout 3 (rail .soft).aon.form) = false ∧
    takingDown (rail .soft) 3 = false ∧
    takingDown (modAon (fun a => { a with parts := [{ todo := [3], last := 0 }] }) (rail .soft)) 3 = true := by decide
theorem wit_RailCoolingAndDrop : ((getRail (rail .cool) 3).st = .cool ∧ (rail .cool).aon.retryIn = [] ∧ (rail .cool).aon.upItem = none) ∧
    ((getRail (rail .good) 3).st = .good ∧ (getRail (rail .good) 3).csEn = true ∧ spent (formWithout 3 (rail .good).aon.form) = false ∧
      takingDown (rail .good) 3 = false ∧ takingDown (modAon (fun a => { a with form := .collapse [3, 2] none }) (rail .good)) 3 = true ∧
      spent (formWithout 3 (.collapse [3, 2] none)) = false) ∧
    (modAon (fun a => { a with form := .collapse [3] none }) (rail .good)).aon.form = .collapse [3] none := by decide
/-- Domain 7 waits, its dependencies good and its clock there. -/
def wanted : State := modAon (fun a => { a with seqState := .risingA, xtalOk := true }) (dom .wait)
set_option maxRecDepth 4000 in
theorem wit_DomainSwitchingAndFailure : (itemReady wanted (16 + 7) = true ∧ (∀ e : Dom, e ≠ 0 → e < 7 → itemReady wanted (16 + e.1) = false) ∧
      switching wanted = false ∧ spent wanted.aon.form = false) ∧ switching (dom .switch) = true ∧
    ((getDom (dom .switch) 7).st = .switch ∧ ({ dom .switch with now := 0 } : State).now ≤ (getDom (dom .switch) 7).since + 200 * us ∧
      (getDom (dom .switch) 7).since + 200 * us < (dom .switch).now) ∧ spent (formWithout (16 + 7) (dom .switch).aon.form) = false ∧
    pllDom .loop = 7 ∧ (getDom (dom .good) 7).st = .good ∧ up.aon.por = false := by decide
/-- Two take-downs after failures, the second with the earlier instant. -/
def twoParts : List PartDown := [{ todo := [5], last := 9 }, { todo := [3, 2], last := 4 }]
/-- A form in progress with those items started. -/
def taking (f : Form) (st : List (Nat × Nat)) : State := inAon fun a => { a with form := f, started := st, seqState := .falling }
theorem wit_TakedownsGoItemByItem :
    ((taking (.orderly (.grace 0) [] 3) [(1, 0)]).aon.form = .orderly (.grace 0) [] 3 ∧ (taking (.orderly (.grace 0) [] 3) [(1, 0)]).aon.started ≠ []) ∧
    ((taking (.orderly (.grace 0) [] 3) []).aon.started = [] ∧ up.cue.pages = [] ∧ workersLive up = 0 ∧
      awaited (taking (.orderly (.grace 0) [] 3) []) = none) ∧
    (formPhase (.orderly (.aborts 0) [3] 3) = some (.aborts 0, [3]) ∧ stepFour (inAon fun a => { a with waitWorkers := 2 }) = false ∧
      spent (.orderly (.aborts 0) [3] 3) = false) ∧
    stepFour (taking (.orderly (.aborts 0) [3] 3) [(3, 0)]) = true ∧
    (formPhase (.orderly .items [23, 2] 3) = some (.items, [23, 2]) ∧ spent (formWithout 23 (.orderly .items [23, 2] 3)) = false) ∧
    ((taking (.orderly .items [] 3) []).aon.form = .orderly .items [] 3 ∧ awaited (lastOff (taking (.orderly .items [] 3) [])) = none ∧
      awaited (lastOff (rail .down)) = none) ∧ awaited (rail .down) = some 3 ∧
    (taking (.collapse [3] none) []).aon.form = .collapse [3] none ∧ without 3 [3] = [] ∧
    (nextPart twoParts = some { todo := [3, 2], last := 4 } ∧ isWanted (rail .good) 3 = false ∧ isWanted wanted 23 = true) := by decide
def seqIn (q : PwrSt) : State := inAon fun a => { a with seqState := q, started := [(16 + 7, 0)], form := .none }
theorem wit_SequencerCommands : reach (seqIn .onA) .keeper 0 = true ∧ cmdBusy (seqIn .onA) = false ∧
    ((seqIn .onA).aon.seqState = .onA ∧ inRecovery (seqIn .onA) = false ∧ thermLive (seqIn .onA) = false ∧ collapseHolds (seqIn .onA) = false ∧
      collapseHolds (modAon (fun a => { a with pfwLow := true, pfwAt := 0 }) (seqIn .onA)) = true ∧ (seqIn .onA).aon.started ≠ []) ∧
    (stageBDown (modDom 7 (fun x => { x with stage := true }) (seqIn .onB)) ≠ []) ∧ (seqIn .onB).aon.started ≠ [] ∧
    (seqIn .risingB).aon.seqState = .risingB ∧ (seqIn .risingA).aon.seqState = .risingA ∧
    (itemEn (seqIn .onA) (22 : BitVec 5).toNat = true ∧ itemStarted (seqIn .onA) (22 : BitVec 5).toNat = false ∧
      itemFault (seqIn .onA) (22 : BitVec 5).toNat = false ∧
      itemFault (modAon (fun a => { a with faults := withBit a.faults 22 true }) (seqIn .onA)) (22 : BitVec 5).toNat = true) ∧
    itemDownList (seqIn .onB) (23 : BitVec 5).toNat ≠ [] ∧
    ((taking (.orderly (.grace 0) [] 3) [(1, 0)]).aon.seqState = .falling ∧ reach (taking (.orderly (.grace 0) [] 3) [(1, 0)]) .keeper 0 = true) ∧
    (seqIn .off).aon.seqState = .off ∧ cmdBusy (inAon fun a => { a with upItem := some 3 }) = true ∧ (seqIn .off).aon.seqState ≠ .falling ∧
    ((9 : BitVec 4).toNat ≥ 9) := by decide
def pressed (p : Press) : State := inAon fun a => { a with press := some p, seqState := .onA }
def aPress : Press := { start := 0, atState := .onA, long := false, cut := false, covers := 1 }
theorem wit_PowerButtonPresses : (up.aon.por = false ∧ up.aon.press = none) ∧ (pressed aPress).aon.press = some aPress ∧
    (pressed aPress).aon.seqState = .onA ∧ aPress.long = false ∧ aPress.cut = false ∧ ({ aPress with long := true } : Press).long = true ∧
    (2 ≤ ({ aPress with covers := 2 } : Press).covers ∧ (pressed aPress).aon.sheet = .idle) ∧
    (({ aPress with atState := .off } : Press).atState = .off ∧ ({ up with now := 0 } : State).now < 0 + sec ∧ mayRaise up = true ∧
      collapseHolds up = false) ∧
    (runningState aPress.atState = true ∧ (pressed aPress).now - aPress.start < longTicks (pressed aPress)) ∧
    (runningState (pressed aPress).aon.seqState = true ∧ (pressed aPress).aon.grace ≠ 0) ∧ runningState .off = false ∧
    (pressed aPress).aon.seqState ≠ .off := by decide
theorem wit_MasterResetAndInputCollapse : (up.aon.por = false ∧ up.aon.mrst = false) ∧ (inAon fun a => { a with mrst := true }).aon.mrst = true ∧
    (inAon fun a => { a with pfwLow := true }).aon.pfwLow = true ∧ (inAon fun a => { a with vsArmed := true }).aon.vsEn = true ∧
    ((seqIn .onB).aon.seqState ≠ .off ∧ (seqIn .onB).aon.seqState ≠ .collapse ∧ (seqIn .onB).aon.started ≠ []) ∧
    (seqIn .collapse).aon.seqState = .collapse ∧ up.aon.awaitRecovery = false ∧
    ((inAon fun a => { a with awaitRecovery := true }).aon.awaitRecovery = true ∧ up.aon.seqState = .off ∧ up.aon.autoOn = true ∧
      thermLive up = false) ∧ (modAon (fun a => { a with awaitRecovery := true }) (seqIn .collapse)).aon.awaitRecovery = true ∧
    thermLive (modTherm (fun t => { t with isShut := true }) up) = true ∧ (taking .none []).aon.started = [] ∧ (inAon fun a => { a with autoOn := false }).aon.autoOn = false ∧
    ({ up with lg := { LogS.reset with queue := [logEntry 1] } } : State).lg.queue = [logEntry 1] ∧ abandonMode up 1 = true ∧
    abandonMode up 0 = false := by decide
theorem wit_SafeHoldEntryAndRelease : up.aon.safeHigh = true ∧ (inAon fun a => { a with safeHigh := false, safeLowAt := some 0 }).aon.safeHigh = false ∧
    (inAon fun a => { a with safeHigh := false, safeLowAt := some 0 }).aon.safeLowAt = some 0 ∧ 0 + 200 ≤ up.now ∧
    ({ up with now := 199 } : State).now < 0 + 200 ∧ up.aon.safeSeen = false ∧ reach up .bar0 0 = true ∧
    (liveCause up = false ∧ up.aon.assert_ = false ∧ safeDrive up = false ∧ lowPresent up = false ∧ inRecovery up = false ∧
      chainHolds up = false ∧ sheetRuns up = false ∧ up.aon.safeRiseAt + ms ≤ up.now ∧ up.aon.driveEnd + ms ≤ up.now ∧ up.aon.resetExit + ms ≤ up.now) ∧
    (inAon fun a => { a with assert_ := true }).aon.assert_ = true ∧ liveCause (inAon fun a => { a with livePart := true }) = true ∧
    safeDrive (inAon fun a => { a with livePart := true }) = true ∧ lowPresent (inAon fun a => { a with safeHigh := false, safeSeen := true }) = true ∧
    inRecovery { up with boot := { Boot.reset with mode := 2 } } = true ∧ chainHolds { up with skid := { Skid.reset with chain := 3 } } = true ∧
    sheetRuns (inAon fun a => { a with sheet := .running 0 }) = true ∧
    (inAon fun a => { a with safeRiseAt := sec }).now < sec + ms ∧ (inAon fun a => { a with driveEnd := sec }).now < sec + ms ∧
    (inAon fun a => { a with resetExit := sec }).now < sec + ms ∧
    (domUp up 3 = true ∧ ({ up with cue := { Cue.reset with coreStopped := 128 } } : State).cue.coreStopped.getLsbD 7 = true ∧
      up.aon.liveBeat = false) := by decide
/-- A die sensor at 200 degC, every other at 0, and no thermistor. -/
def hot : State := (modTherm (fun t => { t with sensors := Vector.replicate 9 { failed := false, valid := true, temp := 480, bad := 0 } }) up)
theorem wit_SafeHoldEntryAndRelease_thermal : hottest hot = some (0, 480) ∧ hot.therm.isShut = false ∧ hot.therm.cause ≠ 2 ∧
    shutQ hot ≤ (480 : BitVec 16).toInt := by decide
theorem wit_PowerOnResetAndRelease : State.reset.aon.por = true ∧ State.reset.nv.autoOn = true ∧ mayRaise State.reset = true ∧
    collapseHolds State.reset = false ∧ up.boot.rbRun = none ∧
    ((modBoot (fun b => { b with rbRun := some (2, 0) }) up).boot.rbRun = some (2, 0) ∧ 0 ≤ up.now) ∧
    (inAon fun a => { a with safeHigh := false }).aon.safeHigh = false ∧
    ({ State.reset with nv := { Nv.shipped with autoOn := false } } : State).nv.autoOn = false ∧ State.reset.aon.seqState = .off ∧
    up.aon.por = false := by decide
/-- Slot 0 of stream 0 with an old record of zeros. -/
def oldSlot : LogSlot := { seq := 7, rest := List.replicate 28 0 }
/-- Stream 0 with the next record going over that slot. -/
def oldLog (s : State) : State := modStream 0 (fun st => { st with slots := [(0, oldSlot)], next := 0, nextSeq := 11 }) s
theorem wit_PowerOnResetAndRelease_log : State.reset.lg.queue = [] ∧ abandonMode up 1 = true ∧ abandonMode up 0 = false ∧
    (nvPick (modNv (fun n => { n with queue := [.autoOn true] }) up)).isSome = true ∧
    slotAt (tget (oldLog up).nv.streams 0) (tget (oldLog up).nv.streams 0).next = some oldSlot := by decide
/-- From R609 and R614: a CHECKED record cut after two words holds its SEQ, its code and source, and the old bytes from there on. -/
theorem test_log_torn : cutSlot { logEntry 0 with code := 0x0123, src := 0xFFFF } 1 (oldLog up) =
    { seq := 11, rest := [0x23, 0x01, 0xFF, 0xFF] ++ List.replicate 24 0 } := by decide

/-! ## States for the statements of the islands -/

def boot (f : Boot → Boot) : State := modBoot f up
def nvUp (f : Nv → Nv) (s : State) : State := { s with nv := f s.nv }
def strapped (k : Nat) (s : State) : State := modAon (fun a => { a with strap := BitVec.ofNat 8 k }) s
/-- Ring entry: OPC, FLAGS, EPOCH, CHAN, tag, ARG. -/
def ent (opc fl ep ch tag arg : Nat) : List Byte :=
  leBytes 1 opc ++ leBytes 1 fl ++ leBytes 2 ep ++ leBytes 2 ch ++ [0, 0] ++ leBytes 4 tag ++ [0, 0, 0, 0] ++ leBytes 8 arg ++ List.replicate 40 0
/-- Ring 2 holds an entry and has the turn. -/
def ring (s : State) : State := modRing 2 (fun x => { x with en := true, tail := 5, head := 4 })
  { s with host := { s.host with regs := { s.host.regs with needrec := false } }, epoch := 3, boot := { s.boot with ldieDone := true } }
def chIs (st : ChSt) (s : State) : State := modCue (fun q => { q with ch := tmod q.ch 9 fun x => { x with st := st, mailbox := [[1]], stack := [⟨false, 4⟩] } }) s
/-- A plan naming channel 9 and station 0, 100 lines, 2 bands, jam input 5. -/
def planBytes : List Byte :=
  let b := leBytes 2 1 ++ [0, 0, 1, 0, 0, 0] ++ leBytes 2 9 ++ List.replicate 14 0 ++ [1, 0, 0, 8] ++ leBytes 4 100 ++ List.replicate 12 0 ++ leBytes 4 32 ++
    leBytes 4 0 ++ leBytes 4 0 ++ leBytes 4 100 ++ List.replicate 20 0 ++ leBytes 8 0x4000 ++ List.replicate 32 0 ++ leBytes 4 2 ++ List.replicate 64 0 
  b ++ leBytes 4 (crc32c b).toNat
/-- That plan as a page with handle 1, in a state; admission number n once admitted. -/
def aPage (st : PlanSt) (n : Word) : Page := { newPage 0 1 (planOf planBytes) with st := st, adm := n, tagged := Vector.replicate 5 3, finished := Vector.replicate 5 3 }
def paged (st : PlanSt) (s : State) : State := modCue (fun q => { q with pages := [aPage st 1], nextAdm := 2, nextHdl := 2 }) s
def anyReq (opc : Nat) : CmdReq := { opc := opc, chanField := 9, tag := 77, arg := 0, epoch := 3, wbOk := true }
def tblEntry (grantByte len ent pcrc : Nat) : List Byte :=
  let b := [1,0,1,3,1,0,0,0] ++ leBytes 8 0x1000 ++ leBytes 4 len ++ leBytes 4 pcrc ++ leBytes 4 ent ++ leBytes 4 0 ++ leBytes 4 grantByte ++ List.replicate 28 0 ++
    (List.replicate 16 (leBytes 4 7)).flatten ++ List.replicate 60 0
  b ++ leBytes 4 (crc32c b).toNat
def prog2 : List Byte := [1,2,3,4,5,6,7,8]
def theEntry : Entry := entryOf (tblEntry 9 8 4 (crc32c prog2).toNat)
def life (refr : Bool) (st : LifeSt) (s : State) : State := modCue (fun q => { q with life := some { req := anyReq (if refr then 3 else 1), chan := 9, refresh := refr, st := st } }) (chIs .arming s)
/-- Words of formats A, B and C, D, E. -/
def wA (op d a : Nat) (imm : Bool) (b : Nat) : Word := BitVec.ofNat 32 (op * 2 ^ 26 + d * 2 ^ 22 + a * 2 ^ 18 + (if imm then 2 ^ 17 + b else b * 2 ^ 13))
def wB (op top low : Nat) : Word := BitVec.ofNat 32 (op * 2 ^ 26 + top * 2 ^ 22 + low)
def wD (op n e id k a b : Nat) : Word := BitVec.ofNat 32 (op * 2 ^ 26 + n * 2 ^ 25 + e * 2 ^ 24 + id * 2 ^ 16 + k * 2 ^ 8 + a * 16 + b)
def wE (op pol c rel k n ph : Nat) : Word := BitVec.ofNat 32 (op * 2 ^ 26 + pol * 2 ^ 24 + c * 2 ^ 23 + rel * 2 ^ 22 + k * 2 ^ 18 + n * 2 ^ 14 + ph * 16)
/-- A preset image is loaded. -/
def withPreset : State := boot fun b => { b with preset := some ⟨[], [], []⟩ }
/-- Channel 9 runs at word w; slot i holds 8 i. -/
def at9 (w : Word) (f : Channel → Channel) : State := modCue (fun q => { q with et := 1000, ch := tmod q.ch 9 fun x => f { x with
  st := .running, prog := [w, 0, 0, 0], slots := Vector.ofFn fun i : Fin 16 => BitVec.ofNat 32 (8 * i.1) } }) withPreset
def same (x : Channel) : Channel := x
def trk (st : TrkSt) (s : State) : State := modCue (fun q => { q with trk := tmod q.trk 3 fun k => { k with st := st, index := 10, p256 := 256 * 100, anchor256 := 256 * 990, en := true } }) s
def gr (id : Fin 256) (s : State) : State := modCue (fun q => { q with grant := tset q.grant id (some 9) }) s
def noPreset (s : State) : State := { s with boot := { s.boot with preset := none } }
def noT (f : FlumeId) (s : State) : State := modFl f (fun x => { x with tally := 0 }) s
def downF (f : FlumeId) (s : State) : State := modFl f (fun x => { x with down := true }) s
def pfx (t : Target) (pol : BitVec 2) (cpl : Bool) (x : Channel) : Channel := { x with pfx := some ⟨t, pol, cpl⟩, entry := { x.entry with expert := true } }
def expert (x : Channel) : Channel := { x with entry := { x.entry with expert := true } }
/-- An expert segment: target 100, VMAX 1600, ACC 10, DEC 10, IRUN 9, IHOLD 3. -/
def segDesc : List Byte := leBytes 4 100 ++ leBytes 4 1600 ++ leBytes 2 10 ++ leBytes 2 10 ++ [9, 3, 0, 0]
def theSeg : Segment := { target := 100, home := false, homeSrc := 0, vmax16 := 1600, acc := 160, dec := 160, irun := 9, ihold := 3, vt := none, chan := 9, pc := 0, enteredAt := 0 }
/-- Band k of page 1, ready for its engine. -/
def band (k : Nat) : Band := { handle := 1, no := k, panel := 0, line0 := 50 * k, lines := 50, slot := k, lpitch := 64, bcrc := 0, empty := false, pass := true, cause := 0, tampCode := 0, ueFrom := none, starved := false }
def bands (s : State) : State := modRast (fun r => { r with staged := tset r.staged 0 [band 0, band 1] }) s
def fireAct (id : Nat) (t : Target) (et : Option Nat) (fr : Bool) : Action := { id := id, chan := 9, pc := 0, res := 84, op := .fire 0, target := t, pol := .drop, cpl := true, et := et, frozen := fr, held := false, late := false, shift := false, slip := false, due := none, destLost := false, done := false, page := none }
def acts (l : List Action) (s : State) : State := modCue (fun q => { q with nextId := 50, ch := tmod q.ch 9 fun x => { x with st := .running, actq := l } }) (gr 84 { s with cue := { s.cue with et := 1000 } })
/-- RFC 8032, section 7.1, TEST 1: the public key, and its signature of the empty message. -/
def pubKey : List Byte :=
  [0xd7, 0x5a, 0x98, 0x01, 0x82, 0xb1, 0x0a, 0xb7, 0xd5, 0x4b, 0xfe, 0xd3, 0xc9, 0x64, 0x07, 0x3a,
   0x0e, 0xe1, 0x72, 0xf3, 0xda, 0xa6, 0x23, 0x25, 0xaf, 0x02, 0x1a, 0x68, 0xf7, 0x07, 0x51, 0x1a]
def sigEmpty : List Byte :=
  [0xe5, 0x56, 0x43, 0x00, 0xc3, 0x60, 0xac, 0x72, 0x90, 0x86, 0xe2, 0xcc, 0x80, 0x6e, 0x82, 0x8a,
   0x84, 0x87, 0x7f, 0x1e, 0xb8, 0xe5, 0xd9, 0x74, 0xd8, 0x73, 0xe0, 0x65, 0x22, 0x49, 0x01, 0x55,
   0x5f, 0xb8, 0x82, 0x15, 0x90, 0xa3, 0x3b, 0xac, 0xc6, 0x1e, 0x39, 0x70, 0x1c, 0xf9, 0xb4, 0x6b,
   0xd2, 0x5b, 0xf5, 0xf0, 0x59, 0x5b, 0xbe, 0x24, 0x65, 0x51, 0x41, 0x43, 0x8e, 0x7a, 0x10, 0x0b]
/-- Header of an image of part p with one block, signed by that key. -/
def sHdr (p : Nat) : List Byte :=
  let b := leBytes 4 0x4E52494D ++ leBytes 2 1 ++ leBytes 1 p ++ [0] ++ leBytes 2 0x9640 ++ [0xB0, 0xB0] ++ List.replicate 8 0 ++
    leBytes 2 1 ++ leBytes 2 0 ++ leBytes 2 5 ++ [0, 0] ++ leBytes 2 1 ++ List.replicate 10 0 ++ leBytes 4 4096 ++
    List.replicate 20 0 ++ pubKey ++ List.replicate 156 0
  b ++ leBytes 4 (crc32c b).toNat
/-- What comes after the header but for the signature: the table, and a block of zeros. -/
def sRest : List Byte := leBytes 4 (crc32c (List.replicate 4096 0)).toNat ++ List.replicate 60 0 ++ List.replicate 4096 0
/-- The signature of the Keeper image (part 1), computed with a second implementation of RFC 8032. -/
def sSig : List Byte :=
  [0x48, 0xb6, 0x2c, 0x1a, 0xce, 0x7b, 0xab, 0x75, 0xd9, 0x9a, 0x8e, 0x26, 0xaa, 0x1e, 0x11, 0xf6,
   0x89, 0xb7, 0x31, 0xbb, 0x98, 0xb3, 0x92, 0xc1, 0x0f, 0xae, 0x13, 0x8d, 0xfb, 0xd3, 0xab, 0xca,
   0xb0, 0x80, 0x93, 0xd8, 0x3a, 0x5c, 0x7b, 0xa3, 0xe4, 0x11, 0x4c, 0x3a, 0x4f, 0xa3, 0xb1, 0x3b,
   0x2f, 0x5c, 0xe2, 0x2c, 0x24, 0xa5, 0x27, 0x5f, 0xa2, 0xbc, 0xe7, 0xc0, 0x26, 0x52, 0x27, 0x05]
def sImg : List Byte := sHdr 1 ++ sRest ++ sSig
/-- A device whose OTP has the hash of that key in words 4 to 11. -/
def keyWord (i : Fin 32) : Word := if 4 ≤ i.1 ∧ i.1 < 12 then BitVec.ofNat 32 (fieldN (sha512 pubKey) (4 * (i.1 - 4)) 4) else 0
def keyed (s : State) : State := modBoot (fun b => { b with otp := Vector.ofFn keyWord }) s
/-- The next state an instruction answers; the reset state where it answers none. -/
def gotSt (o : Host.Outcome State Fault Refusal) : State := match o with | .next t => t | _ => State.reset

/-- From FIPS 180-4: the digest of "abc". -/
theorem test_sha512_abc : sha512 [0x61, 0x62, 0x63] =
    [0xdd, 0xaf, 0x35, 0xa1, 0x93, 0x61, 0x7a, 0xba, 0xcc, 0x41, 0x73, 0x49, 0xae, 0x20, 0x41, 0x31,
     0x12, 0xe6, 0xfa, 0x4e, 0x89, 0xa9, 0x7e, 0xa2, 0x0a, 0x9e, 0xee, 0xe6, 0x4b, 0x55, 0xd3, 0x9a,
     0x21, 0x92, 0x99, 0x2a, 0x27, 0x4f, 0xc1, 0xa8, 0x36, 0xba, 0x3c, 0x23, 0xa3, 0xfe, 0xeb, 0xbd,
     0x45, 0x4d, 0x44, 0x23, 0x64, 0x3c, 0xe8, 0x0e, 0x2a, 0x9a, 0xc9, 0x4f, 0xa5, 0x4c, 0xa4, 0x9f] := by decide +kernel
theorem test_ed25519_rfc8032_test1 : ed25519Verify pubKey [] sigEmpty = true ∧ ed25519Verify pubKey [0] sigEmpty = false := by
  decide +kernel

/-- The whole Keeper image carries its key's signature; one whose signature encodes no point does not. -/
theorem test_image_signed : signatureOk sImg = true := by decide +kernel
/-- The image with bytes that are no signature. -/
def sBad : List Byte := sHdr 1 ++ sRest ++ List.replicate 64 0xFF
theorem test_image_not_signed : signatureOk sBad = false := by decide +kernel

namespace KeeperSlotsAndBootChecks
def kOk : State := keyed { up with boot := { up.boot with checking := some 0 }, nv := { Nv.shipped with slot := #v[2, 4], image := #v[sImg, []] } }
theorem wit_KeeperSlotsAndBootChecks_passes : kOk.boot.checking = some 0 ∧ kOk.aon.por = false ∧ fullCheck kOk (tget kOk.nv.image 0) = 0 := by
  refine ⟨rfl, rfl, ?_⟩
  show fullCheck kOk sImg = 0
  rw [fullCheck, finalCheck, test_image_signed]
  decide +kernel
def k0 : State := { up with boot := { up.boot with checking := some 0 } }
def k1 : State := { up with boot := { up.boot with checking := some 0 }, nv := { Nv.shipped with slot := #v[2, 4] } }
def k3 : State := { up with nv := { Nv.shipped with slot := #v[3, 4], fails := 1 } }
theorem wit_KeeperSlotsAndBootChecks :
    (k0.boot.checking = some 0 ∧ k0.aon.por = false ∧ fullCheck k0 (tget k0.nv.image 0) ≠ 0 ∧ (¬(slotNow k0 (0 + 1) = 1 ∨ slotNow k0 (0 + 1) = 4))) ∧
    (k1.boot.checking = some 0 ∧ k1.aon.por = false ∧ fullCheck k1 (tget k1.nv.image 0) ≠ 0 ∧ (slotNow k1 (0 + 1) = 1 ∨ slotNow k1 (0 + 1) = 4)) ∧
    (reach up Port.bar0 0 = true ∧ slotIn up 3 = none) ∧
    (reach k3 Port.bar0 0 = true ∧ (∃ k : Fin 2, slotIn k3 3 = some k)) ∧
    (reach up Port.bar0 0 = true ∧ domUp up 3 = true ∧ chainHolds up = false ∧ up.boot.ldieDone = false ∧ (isManager up = false ∨
      up.boot.scheme = true ∨ up.skid.live = 0)) := by
  and_intros <;> decide +kernel
end KeeperSlotsAndBootChecks

namespace BootRestartTakesRomStepThree
def x1 := (nvUp (fun v => {v with fails := 3}) up)
def x2 := (nvUp (fun v => {v with fails := 1}) up)
def x3 := (nvUp (fun v => {v with fails := 1, slot := #v[4, 2]}) up)
def x5 := (boot fun b => {b with wdFrom := some 5})
theorem wit_BootRestartTakesRomStepThree :
    (reach (strapped 24 up) Port.bar0 0 = true ∧ (strapped 24 up).boot.op = none ∧ (∃ n : Rail, (getRail (strapped 24 up) n).st ≠ RailSt.wait) ∧
      bitB (strapped 24 up).aon.strap 4 = true) ∧
    (reach x1 Port.bar0 0 = true ∧ x1.boot.op = none ∧ bitB x1.aon.strap 4 = false ∧ failsNow x1 = 3) ∧
    (reach x2 Port.bar0 0 = true ∧ x2.boot.op = none ∧ bitB x2.aon.strap 4 = false ∧ failsNow x2 ≠ 3 ∧ slotNow x2 0 = 0 ∧ slotNow x2 1 = 0) ∧
    (reach x3 Port.keeper 0 = true ∧ x3.boot.op = none ∧ (∃ k : Fin 2, bitB x3.aon.strap 4 = false ∧ failsNow x3 ≠ 3 ∧ slotIn x3 2 = some k)) ∧
    (x5.boot.wdFrom = some 5 ∧ x5.aon.por = false) := by
  and_intros <;> decide +kernel
end BootRestartTakesRomStepThree

namespace OtpProgrammingAndRollback
def x1 := (boot fun b => { b with otpAddr := 20, otpData := 0x12345678, otp := Vector.replicate 32 0x1 })
def x3 := (boot fun b => { b with otpAddr := 5, otpData := 0x12345678 })
def x5 := (nvUp (fun v => {v with slot := #v[3, 2]}) up)
def hdrRb_2 (n : Nat) : List Byte := List.replicate 0x1A 0 ++ leBytes 1 n ++ List.replicate 229 0
def r1_2 : State := nvUp (fun v => {v with slot := #v[4, 4], image := #v[hdrRb_2 40, hdrRb_2 35]}) (boot fun b => { b with cuelib := some ⟨hdrRb_2 33, [], []⟩ })
def r2_2 : State := nvUp (fun v => {v with slot := #v[4, 4], image := #v[hdrRb_2 0, hdrRb_2 35]}) (boot fun b => { b with cuelib := some ⟨hdrRb_2 33, [], []⟩ })
theorem wit_OtpProgrammingAndRollback :
    (reach x1 Port.bar0 0 = true ∧ otpMask x1.boot.otpAddr.toNat ≠ 0 ∧ x1.lock = false ∧ inRecovery x1 = false ∧ (∃ i : Fin 32, True) ∧
      slotIn x1 3 = none ∧ activeRbs x1 = []) ∧
    (reach x3 Port.keeper 0 = true ∧ (otpMask x3.boot.otpAddr.toNat = 0 ∨ x3.lock = true ∨ inRecovery x3 = true)) ∧
    (reach x5 Port.keeper 0 = true ∧ (slotIn x5 3).isSome = true) ∧
    (reach r1_2 Port.bar0 0 = true ∧ slotIn r1_2 3 = none ∧ (activeRbs r1_2).min? = some 33 ∧ rbCount r1_2 < 33 ∧ (∃ i : Fin 32, ↑i ≠ 24 ∧ ↑i ≠ 25)) ∧
    (reach r2_2 Port.bar0 0 = true ∧ slotIn r2_2 3 = none ∧ (activeRbs r2_2).min? = some 0 ∧ 0 ≤ rbCount r2_2) := by
  and_intros <;> decide +kernel
end OtpProgrammingAndRollback

namespace ImageOperations
def anOp (jrp : Bool) (part : Nat) (nb : Bool) (got : List Byte) : ImageOp := { jrp := jrp, dev := 0, part := part, nextBoot := nb, slot := 0, got := got, err := 0, blk := 0 }
def hdrN (n : Nat) : List Byte := List.replicate 0x1C 0 ++ leBytes 2 n ++ List.replicate 226 0
def hdr1 : List Byte := hdrN 1
def hdr0 : List Byte := hdrN 0
def i1 : State := boot fun b => { b with op := some (anOp false 1 true []) }
def i2 : State := boot fun b => { b with op := some (anOp false 1 true hdr1) }
def i3 : State := boot fun b => { b with op := some (anOp false 1 false (hdr1 ++ List.replicate 64 0)) }
def i3b : State := boot fun b => { b with op := some (anOp false 2 false (hdr1 ++ leBytes 4 (crc32c (List.replicate 4096 0)).toNat ++ List.replicate 60 0)) }
def i4 : State := boot fun b => { b with op := some (anOp false 1 true (hdr0 ++ List.replicate 64 0)) }
def i5 : State := boot fun b => { b with op := some (anOp false 2 false (hdr0 ++ List.replicate 64 0)) }
def i6 : State := boot fun b => { b with op := some (anOp false 3 false (hdr0 ++ List.replicate 64 0)) }
def i8 : State := modDom 1 (fun x => { x with st := .off }) up
def i8_2 : State := boot fun b => { b with op := some (anOp false 2 true (hdr0 ++ List.replicate 64 0)) }
def i9_2 : State := boot fun b => { b with op := some (anOp false 3 true (hdr0 ++ List.replicate 64 0)) }
theorem wit_ImageOperations :
    (reach up Port.bar0 0 = true ∧ up.boot.op = none ∧ loadPath up = true ∧ bitsN (2 : Word) 10 8 = 0) ∧
    (reach i1 Port.bar0 0 = true ∧ i1.boot.op.isSome = true) ∧
    (reach i8 Port.keeper 0 = true ∧ i8.boot.op = none ∧ loadPath i8 = false) ∧
    (i1.boot.op = some (anOp false 1 true []) ∧ (anOp false 1 true []).jrp = false ∧ allGot (anOp false 1 true []).got = false ∧
      (anOp false 1 true []).got = [] ∧ (anOp false 1 true []).dev = 0 ∧ (List.replicate 256 0).length = 256 ∧
      headerCheck i1 (List.replicate 256 0) ≠ 0 ∧ reach i1 Port.bar0 0 = true) ∧
    (i2.boot.op = some (anOp false 1 true hdr1) ∧ (anOp false 1 true hdr1).jrp = false ∧ 256 ≤ (anOp false 1 true hdr1).got.length ∧
      (anOp false 1 true hdr1).dev = 0 ∧ allGot (anOp false 1 true hdr1).got = false ∧
      (List.replicate 64 0).length = nextPiece (anOp false 1 true hdr1).got ∧ ((anOp false 1 true hdr1).nextBoot = true ∨
      badBlock ((anOp false 1 true hdr1).got ++ List.replicate 64 0) (blocksIn ((anOp false 1 true hdr1).got ++ List.replicate 64 0) (anOp false 1 true hdr1).got.length) (blocksIn ((anOp false 1 true hdr1).got ++ List.replicate 64 0) ((anOp false 1 true hdr1).got ++ List.replicate 64 0).length - blocksIn ((anOp false 1 true hdr1).got ++ List.replicate 64 0) (anOp false 1 true hdr1).got.length) = none)) ∧
    (i3.boot.op = some (anOp false 1 false (hdr1 ++ List.replicate 64 0)) ∧ (anOp false 1 false (hdr1 ++ List.replicate 64 0)).jrp = false ∧
      256 ≤ (anOp false 1 false (hdr1 ++ List.replicate 64 0)).got.length ∧ (anOp false 1 false (hdr1 ++ List.replicate 64 0)).dev = 0 ∧
      allGot (anOp false 1 false (hdr1 ++ List.replicate 64 0)).got = false ∧
      (List.replicate 4096 0).length = nextPiece (anOp false 1 false (hdr1 ++ List.replicate 64 0)).got ∧
      (anOp false 1 false (hdr1 ++ List.replicate 64 0)).nextBoot = false ∧
      badBlock ((anOp false 1 false (hdr1 ++ List.replicate 64 0)).got ++ List.replicate 4096 0) (blocksIn ((anOp false 1 false (hdr1 ++ List.replicate 64 0)).got ++ List.replicate 4096 0) (anOp false 1 false (hdr1 ++ List.replicate 64 0)).got.length) (blocksIn ((anOp false 1 false (hdr1 ++ List.replicate 64 0)).got ++ List.replicate 4096 0) ((anOp false 1 false (hdr1 ++ List.replicate 64 0)).got ++ List.replicate 4096 0).length - blocksIn ((anOp false 1 false (hdr1 ++ List.replicate 64 0)).got ++ List.replicate 4096 0) (anOp false 1 false (hdr1 ++ List.replicate 64 0)).got.length) = some 0) ∧
    (i3b.boot.op = some (anOp false 2 false (hdr1 ++ leBytes 4 (BitVec.toNat (crc32c (List.replicate 4096 0))) ++ List.replicate 60 0)) ∧
      (anOp false 2 false (hdr1 ++ leBytes 4 (BitVec.toNat (crc32c (List.replicate 4096 0))) ++ List.replicate 60 0)).jrp = false ∧
      reach i3b Port.bar0 0 = true ∧ (anOp false 2 false (hdr1 ++ leBytes 4 (BitVec.toNat (crc32c (List.replicate 4096 0))) ++ List.replicate 60 0)).dev = 0 ∧ (anOp false 2 false (hdr1 ++ leBytes 4 (BitVec.toNat (crc32c (List.replicate 4096 0))) ++ List.replicate 60 0)).part = 2) ∧
    (i4.boot.op = some (anOp false 1 true (hdr0 ++ List.replicate 64 0)) ∧ (anOp false 1 true (hdr0 ++ List.replicate 64 0)).jrp = false ∧
      allGot (anOp false 1 true (hdr0 ++ List.replicate 64 0)).got = true ∧ (anOp false 1 true (hdr0 ++ List.replicate 64 0)).dev = 0 ∧
      (anOp false 1 true (hdr0 ++ List.replicate 64 0)).part = 1 ∧ inRecovery i4 = false ∧
      (anOp false 1 true (hdr0 ++ List.replicate 64 0)).nextBoot = true) := by
  and_intros <;> decide +kernel
/-- An operation on the header of a part, and one whose image is whole. -/
def o1 (part : Nat) (nb : Bool) (got : List Byte) : State := keyed (boot fun b => { b with op := some (anOp false part nb got) })
theorem wit_ImageOperations_header :
    (partRefusal (o1 0 false []) (anOp false 0 false []) (sHdr 1) = 0 ∧ headerCheck (o1 0 false []) (sHdr 1) = 0 ∧ hPart (sHdr 1) = 1 ∧
      (sHdr 1).length = 256) ∧
    (partRefusal (o1 0 false []) (anOp false 0 false []) (sHdr 2) = 0 ∧ headerCheck (o1 0 false []) (sHdr 2) = 0) ∧
    partRefusal (o1 0 true []) (anOp false 0 true []) (sHdr 3) = 5 := by
  and_intros <;> decide +kernel
theorem wit_ImageOperations_final : allGot sImg = true ∧ finalCheck (o1 1 false sImg) sImg = 0 ∧ finalCheck (o1 1 false sBad) sBad ≠ 0 := by
  rw [finalCheck, finalCheck, test_image_signed, test_image_not_signed]
  and_intros <;> decide +kernel

theorem wit_ImageOperations_block : nextPiece (sHdr 1 ++ sRest.take 64) = 4096 ∧
    badBlock (sHdr 1 ++ sRest) (blocksIn (sHdr 1 ++ sRest) 320) (blocksIn (sHdr 1 ++ sRest) 4416 - blocksIn (sHdr 1 ++ sRest) 320) = none := by
  and_intros <;> decide +kernel
theorem wit_ImageOperations_sent : worker.boot.op = none ∧ imageSent worker = true ∧ imageSent up = false ∧
    (List.replicate 256 (0 : Byte)).length = 256 ∧ headerCheck worker (List.replicate 256 0) ≠ 0 ∧
    hPart (List.replicate 256 0) ≠ 2 ∧ hPart (List.replicate 256 0) ≠ 3 ∧
    (inRecovery worker = false ∧ (∀ c : Chan, (getCh worker c).st = .disarmed) ∧ domUp worker 3 = true) := by
  and_intros <;> decide +kernel
theorem wit_ImageOperations_2 :
    (i5.boot.op = some (anOp false 2 false (hdr0 ++ List.replicate 64 0)) ∧ (anOp false 2 false (hdr0 ++ List.replicate 64 0)).jrp = false ∧
      allGot (anOp false 2 false (hdr0 ++ List.replicate 64 0)).got = true ∧ (anOp false 2 false (hdr0 ++ List.replicate 64 0)).dev = 0 ∧
      (anOp false 2 false (hdr0 ++ List.replicate 64 0)).nextBoot = false) ∧
    (i6.boot.op = some (anOp false 3 false (hdr0 ++ List.replicate 64 0)) ∧ (anOp false 3 false (hdr0 ++ List.replicate 64 0)).jrp = false ∧
      reach i6 Port.bar0 0 = true ∧ (anOp false 3 false (hdr0 ++ List.replicate 64 0)).dev = 0 ∧
      (anOp false 3 false (hdr0 ++ List.replicate 64 0)).part = 3) ∧
    (i8_2.boot.op = some (anOp false 2 true (hdr0 ++ List.replicate 64 0)) ∧ (anOp false 2 true (hdr0 ++ List.replicate 64 0)).jrp = false ∧
      allGot (anOp false 2 true (hdr0 ++ List.replicate 64 0)).got = true ∧ (anOp false 2 true (hdr0 ++ List.replicate 64 0)).dev = 0 ∧
      (anOp false 2 true (hdr0 ++ List.replicate 64 0)).part = 2) ∧
    (i9_2.boot.op = some (anOp false 3 true (hdr0 ++ List.replicate 64 0)) ∧ (anOp false 3 true (hdr0 ++ List.replicate 64 0)).jrp = false ∧
      allGot (anOp false 3 true (hdr0 ++ List.replicate 64 0)).got = true ∧ (anOp false 3 true (hdr0 ++ List.replicate 64 0)).dev = 0 ∧
      (anOp false 3 true (hdr0 ++ List.replicate 64 0)).part = 3) := by
  and_intros <;> decide +kernel
end ImageOperations

namespace SheetClearRoutine
def sc1 : State := inAon fun a => { a with sheet := .chord 0, scMask := 9, scDir := 1, shadowValid := 0xFFFF }
def sc3 : State := inAon fun a => { a with sheet := .running 0, scMask := 9, scDir := 8 }
def sc1_2 : State := { modRail 5 (fun x => { x with st := .good, en := true }) (inAon fun a => { a with sheet := .chord 0, scMask := 9, scDir := 1, shadowValid := 0xFFFF }) with motn := { Motn.reset with vmotOk := true } }
theorem wit_SheetClearRoutine :
    (sc1.aon.sheet = SheetClear.chord 0 ∧ sheetReady sc1 = false) ∧
    (sc3.aon.sheet = SheetClear.running 0) ∧
    (sc1_2.aon.sheet = SheetClear.chord 0 ∧ sc1_2.aon.press = none ∧ sheetReady sc1_2 = true ∧ sc1_2.now ≤ 0 + 2 * sec ∧ sc1_2.aon.scMask ≠ 0 ∧
      (∀ (c : Chan), ((allFin 16).any fun (n : Fin 16) => sc1_2.aon.scMask.getLsbD ↑n && holder sc1_2 ↑n == some c) = false) ∧ (∃ n : Fin 16,
      True) ∧ (∃ n : Fin 16, sc1_2.aon.scMask.getLsbD ↑n = true) ∧ sc1_2.motn.vmotOk = true ∧
      (modAon (fun a => { a with hold := true }) sc1_2).aon.hold = true) ∧
    (sc3.aon.sheet = SheetClear.running 0 ∧ (∃ n : Fin 16, True)) := by
  and_intros <;> decide +kernel
end SheetClearRoutine

namespace JrpFramesAndRegisterCommands
def jf (seq cmd : Byte) (p : List Byte) : List Byte :=
  let mid := leBytes 2 p.length ++ [seq, cmd, 0, 0] ++ p
  [0x4A, 0x50] ++ mid ++ leBytes 4 (crc32c mid).toNat
def bad (b : List Byte) : List Byte := b.dropLast ++ [b.getLast! + 1]
def jr : State := boot fun b => { b with jrp := Vector.replicate 3 { last := some (7, 1), resp := [1,2,3], part := [], byteAt := 0, validAt := 0, reply := [] } }
def jl : State := nvUp (fun v => { v with streams := Vector.replicate 4 { slots := [(0, ⟨3, List.replicate 28 1⟩), (1, ⟨4, List.replicate 28 2⟩)], next := 2, nextSeq := 5, lost := 0 } }) jr
def jp : State := boot fun b => { b with jrp := Vector.replicate 3 { last := some (7, 1), resp := [1,2,3], part := [1, 2], byteAt := 0, validAt := 0, reply := [] } }
theorem wit_JrpFramesAndRegisterCommands :
    ((1, Instr.jrpHello JrpPort.uart (jf 7 1 [])) ∈ [(1, Instr.jrpHello JrpPort.uart (jf 7 1 [])), (2, Instr.jrpSetBaud JrpPort.uart (jf 7 1 [])), (3, Instr.jrpLogRead JrpPort.uart (jf 7 1 [])), (4, Instr.jrpRegRead JrpPort.uart (jf 7 1 [])), (5, Instr.jrpRegWrite JrpPort.uart (jf 7 1 [])), (16, Instr.imgBegin JrpPort.uart (jf 7 1 [])), (17, Instr.imgData JrpPort.uart (jf 7 1 [])), (18, Instr.imgEnd JrpPort.uart (jf 7 1 [])), (19, Instr.imgAbort JrpPort.uart (jf 7 1 [])), (32, Instr.jrpReset JrpPort.uart (jf 7 1 []))] ∧ JrpRequest jr JrpPort.uart (jf 7 1 []) 1 ∧ jrpRepeats jr JrpPort.uart (jf 7 1 [])) ∧
    ((1, Instr.jrpHello JrpPort.uart (jf 8 1 [0])) ∈ [(1, Instr.jrpHello JrpPort.uart (jf 8 1 [0])), (2, Instr.jrpSetBaud JrpPort.uart (jf 8 1 [0])), (3, Instr.jrpLogRead JrpPort.uart (jf 8 1 [0])), (4, Instr.jrpRegRead JrpPort.uart (jf 8 1 [0])), (5, Instr.jrpRegWrite JrpPort.uart (jf 8 1 [0])), (16, Instr.imgBegin JrpPort.uart (jf 8 1 [0])), (17, Instr.imgData JrpPort.uart (jf 8 1 [0])), (18, Instr.imgEnd JrpPort.uart (jf 8 1 [0])), (19, Instr.imgAbort JrpPort.uart (jf 8 1 [0])), (32, Instr.jrpReset JrpPort.uart (jf 8 1 [0]))] ∧ JrpRequest jr JrpPort.uart (jf 8 1 [0]) 1 ∧ (¬jrpRepeats jr JrpPort.uart (jf 8 1 [0])) ∧ jLenOk 1 (jLen (jf 8 1 [0])) = some false) ∧
    ((1, Instr.jrpHello JrpPort.uart (bad (jf 8 1 [0]))) ∈ [(1, Instr.jrpHello JrpPort.uart (bad (jf 8 1 [0]))), (2, Instr.jrpSetBaud JrpPort.uart (bad (jf 8 1 [0]))), (3, Instr.jrpLogRead JrpPort.uart (bad (jf 8 1 [0]))), (4, Instr.jrpRegRead JrpPort.uart (bad (jf 8 1 [0]))), (5, Instr.jrpRegWrite JrpPort.uart (bad (jf 8 1 [0]))), (16, Instr.imgBegin JrpPort.uart (bad (jf 8 1 [0]))), (17, Instr.imgData JrpPort.uart (bad (jf 8 1 [0]))), (18, Instr.imgEnd JrpPort.uart (bad (jf 8 1 [0]))), (19, Instr.imgAbort JrpPort.uart (bad (jf 8 1 [0]))), (32, Instr.jrpReset JrpPort.uart (bad (jf 8 1 [0])))] ∧ jrpOn jr JrpPort.uart = true ∧ (getJrp jr JrpPort.uart).part = [] ∧ jFramed (bad (jf 8 1 [0])) = true ∧ (bad (jf 8 1 [0])).length = jTotal (bad (jf 8 1 [0])) ∧ jCrcOk (bad (jf 8 1 [0])) = false ∧ BitVec.toNat (jCmd (bad (jf 8 1 [0]))) = 1) ∧
    (JrpRequest jr JrpPort.usb (jf 8 119 [0]) 119 ∧ (¬jrpRepeats jr JrpPort.usb (jf 8 119 [0])) ∧ jLenOk 119 0 = none) ∧
    (JrpRequest jr JrpPort.usb (jf 8 1 []) 1 ∧ (¬jrpRepeats jr JrpPort.usb (jf 8 1 [])) ∧ jLen (jf 8 1 []) = 0) ∧
    (JrpRequest jr JrpPort.uart (jf 8 2 (leBytes 4 9600)) 2 ∧ (¬jrpRepeats jr JrpPort.uart (jf 8 2 (leBytes 4 9600))) ∧
      jLen (jf 8 2 (leBytes 4 9600)) = 4 ∧ 9600 ≤ fieldN (jPayload (jf 8 2 (leBytes 4 9600))) 0 4 ∧
      fieldN (jPayload (jf 8 2 (leBytes 4 9600))) 0 4 ≤ 1000000) ∧
    (JrpRequest jr JrpPort.uart (jf 8 2 (leBytes 4 1000001)) 2 ∧ (¬jrpRepeats jr JrpPort.uart (jf 8 2 (leBytes 4 1000001))) ∧
      jLen (jf 8 2 (leBytes 4 1000001)) = 4 ∧ (fieldN (jPayload (jf 8 2 (leBytes 4 1000001))) 0 4 < 9600 ∨
      1000000 < fieldN (jPayload (jf 8 2 (leBytes 4 1000001))) 0 4)) ∧
    (JrpRequest jl JrpPort.uart (jf 8 3 ([2, 0, 0, 0] ++ leBytes 4 4 ++ leBytes 2 64)) 3 ∧
      (¬jrpRepeats jl JrpPort.uart (jf 8 3 ([2, 0, 0, 0] ++ leBytes 4 4 ++ leBytes 2 64))) ∧
      jLen (jf 8 3 ([2, 0, 0, 0] ++ leBytes 4 4 ++ leBytes 2 64)) = 10 ∧
      fieldN (jPayload (jf 8 3 ([2, 0, 0, 0] ++ leBytes 4 4 ++ leBytes 2 64))) 0 1 = ↑2 ∧
      zeros (jPayload (jf 8 3 ([2, 0, 0, 0] ++ leBytes 4 4 ++ leBytes 2 64))) 1 3 = true) := by
  unfold JrpRequest jrpRepeats
  and_intros <;> decide +kernel
theorem wit_JrpFramesAndRegisterCommands_2 :
    ((¬jrpRepeats jl JrpPort.uart (jf 8 4 (leBytes 4 65540))) ∧ JrpRequest jl JrpPort.uart (jf 8 4 (leBytes 4 65540)) 4 ∧
      jLen (jf 8 4 (leBytes 4 65540)) = 4 ∧ (fieldN (jPayload (jf 8 4 (leBytes 4 65540))) 0 4 % 4 = 0 ∧
      (fieldN (jPayload (jf 8 4 (leBytes 4 65540))) 0 4 / 65536 = 1 ∨ fieldN (jPayload (jf 8 4 (leBytes 4 65540))) 0 4 / 65536 = 14))) ∧
    ((¬jrpRepeats jl JrpPort.uart (jf 8 4 (leBytes 4 131076))) ∧ JrpRequest jl JrpPort.uart (jf 8 4 (leBytes 4 131076)) 4 ∧
      jLen (jf 8 4 (leBytes 4 131076)) = 4 ∧ (¬(fieldN (jPayload (jf 8 4 (leBytes 4 131076))) 0 4 % 4 = 0 ∧
      (fieldN (jPayload (jf 8 4 (leBytes 4 131076))) 0 4 / 65536 = 1 ∨ fieldN (jPayload (jf 8 4 (leBytes 4 131076))) 0 4 / 65536 = 14)))) ∧
    ((¬jrpRepeats jl JrpPort.uart (jf 8 5 (leBytes 4 65572 ++ leBytes 4 1))) ∧
      JrpRequest jl JrpPort.uart (jf 8 5 (leBytes 4 65572 ++ leBytes 4 1)) 5 ∧ jLen (jf 8 5 (leBytes 4 65572 ++ leBytes 4 1)) = 8 ∧
      (fieldN (jPayload (jf 8 5 (leBytes 4 65572 ++ leBytes 4 1))) 0 4 % 4 = 0 ∧
      (fieldN (jPayload (jf 8 5 (leBytes 4 65572 ++ leBytes 4 1))) 0 4 / 65536 = 1 ∨
      fieldN (jPayload (jf 8 5 (leBytes 4 65572 ++ leBytes 4 1))) 0 4 / 65536 = 14))) ∧
    ((¬jrpRepeats jl JrpPort.uart (jf 8 5 (leBytes 4 131076 ++ leBytes 4 1))) ∧
      JrpRequest jl JrpPort.uart (jf 8 5 (leBytes 4 131076 ++ leBytes 4 1)) 5 ∧ jLen (jf 8 5 (leBytes 4 131076 ++ leBytes 4 1)) = 8 ∧
      (¬(fieldN (jPayload (jf 8 5 (leBytes 4 131076 ++ leBytes 4 1))) 0 4 % 4 = 0 ∧
      (fieldN (jPayload (jf 8 5 (leBytes 4 131076 ++ leBytes 4 1))) 0 4 / 65536 = 1 ∨
      fieldN (jPayload (jf 8 5 (leBytes 4 131076 ++ leBytes 4 1))) 0 4 / 65536 = 14)))) ∧
    (JrpRequest jr JrpPort.uart (jf 8 32 []) 32 ∧ (¬jrpRepeats jr JrpPort.uart (jf 8 32 [])) ∧ jLen (jf 8 32 []) = 0) ∧
    (jrpOn jp JrpPort.uart = true) := by
  unfold JrpRequest jrpRepeats
  and_intros <;> decide +kernel
/-- From R201: the last executed request over USB and its response stay when PD1 leaves, as a RESET makes it do (R184). -/
theorem test_usb_answers_outlive_pd1 : (getJrp (leaveDom 1 jr) .usb).last = some (7, 1) ∧ (getJrp (leaveDom 1 jr) .usb).resp = [1, 2, 3] := by
  and_intros <;> decide +kernel

end JrpFramesAndRegisterCommands

namespace JrpImageTransfer
def jf (seq cmd : Byte) (p : List Byte) : List Byte :=
  let mid := leBytes 2 p.length ++ [seq, cmd, 0, 0] ++ p
  [0x4A, 0x50] ++ mid ++ leBytes 4 (crc32c mid).toNat
def i1 : State := boot fun b => { b with op := some { jrp := true, dev := 0, part := 1, nextBoot := true, slot := 1, got := List.replicate 0x1C 0 ++ leBytes 2 0 ++ List.replicate 226 0, err := 0, blk := 0 } }
def i5 : State := boot fun b => { b with mode := 2, op := some { jrp := true, dev := 0, part := 1, nextBoot := true, slot := 1, got := List.replicate 0x1C 0 ++ leBytes 2 0 ++ List.replicate (226+64) 0, err := 0, blk := 0 } }
def i6 : State := boot fun b => { b with op := some { jrp := false, dev := 0, part := 1, nextBoot := true, slot := 1, got := List.replicate 0x1C 0 ++ leBytes 2 0 ++ List.replicate (226+64) 0, err := 0, blk := 0 } }
def opOf (s : State) : ImageOp := s.boot.op.getD { jrp := false, dev := 0, part := 0, nextBoot := false, slot := 0, got := [], err := 0, blk := 0 }
def dj (a : Nat) (n : Nat) := jf 8 0x11 (leBytes 4 a ++ List.replicate n 0)
/-- A Keeper image under way: its header, all but its signature. -/
def iw (nb rec : Bool) (got : List Byte) : State := keyed (boot fun b => { b with
  mode := if rec then 2 else 1, op := some { jrp := true, dev := 0, part := 1, nextBoot := nb, slot := 1, got := got, err := 0, blk := 0 } })
theorem wit_JrpImageTransfer_begins :
    headerCheck (keyed up) (slice (jPayload (jf 8 16 (leBytes 4 1 ++ sHdr 1))) 4 256) = 0 ∧ hPart (sHdr 1) = 1 ∧
      jLen (jf 8 16 (leBytes 4 1 ++ sHdr 1)) = 260 ∧ fieldN (jPayload (jf 8 16 (leBytes 4 1 ++ sHdr 1))) 0 4 ≤ 1 := by
  and_intros <;> decide +kernel
theorem wit_JrpImageTransfer_goesOn :
    let f := jf 8 17 (leBytes 4 256 ++ sRest.take 64)
    jLen f = 68 ∧ fieldN (jPayload f) 0 4 = (sHdr 1).length ∧ (sHdr 1).length + ((jPayload f).drop 4).length ≤ bodyLen (sHdr 1) ∧
      badBlock (sHdr 1 ++ sRest.take 64) (blocksIn (sHdr 1 ++ sRest.take 64) 256)
        (blocksIn (sHdr 1 ++ sRest.take 64) 320 - blocksIn (sHdr 1 ++ sRest.take 64) 256) = none := by
  and_intros <;> decide +kernel
theorem wit_JrpImageTransfer_request : JrpRequest (iw false false []) .uart (jf 8 18 sSig) 18 ∧ jLen (jf 8 18 sSig) = 64 ∧
    jPayload (jf 8 18 sSig) = sSig := by
  unfold JrpRequest
  and_intros <;> decide +kernel
theorem wit_JrpImageTransfer_passes : (sHdr 1 ++ sRest).length = bodyLen (sHdr 1 ++ sRest) ∧
    finalCheck (iw false false (sHdr 1 ++ sRest)) sImg = 0 ∧ finalCheck (iw false false (sHdr 1 ++ sRest)) sBad ≠ 0 ∧
    inRecovery (iw false false []) = false ∧ inRecovery (iw true true []) = true := by
  rw [finalCheck, finalCheck, test_image_signed, test_image_not_signed]
  and_intros <;> decide +kernel
theorem wit_JrpImageTransfer :
    ((¬jrpRepeats up JrpPort.uart (jf 8 16 (leBytes 4 1 ++ List.replicate 256 0))) ∧
      JrpRequest up JrpPort.uart (jf 8 16 (leBytes 4 1 ++ List.replicate 256 0)) 16 ∧ jLen (jf 8 16 (leBytes 4 1 ++ List.replicate 256 0)) = 260 ∧
      up.boot.op = none ∧ fieldN (jPayload (jf 8 16 (leBytes 4 1 ++ List.replicate 256 0))) 0 4 ≤ 1 ∧
      headerCheck up (slice (jPayload (jf 8 16 (leBytes 4 1 ++ List.replicate 256 0))) 4 256) ≠ 0) ∧
    ((¬jrpRepeats i1 JrpPort.uart (jf 8 16 (leBytes 4 1 ++ List.replicate 256 0))) ∧
      JrpRequest i1 JrpPort.uart (jf 8 16 (leBytes 4 1 ++ List.replicate 256 0)) 16 ∧ jLen (jf 8 16 (leBytes 4 1 ++ List.replicate 256 0)) = 260 ∧
      i1.boot.op.isSome = true) ∧
    ((¬jrpRepeats i1 JrpPort.uart (dj 256 4095)) ∧ JrpRequest i1 JrpPort.uart (dj 256 4095) 17 ∧ 5 ≤ jLen (dj 256 4095) ∧
      jLen (dj 256 4095) ≤ 4100 ∧ i1.boot.op = some (opOf i1) ∧ (opOf i1).jrp = true ∧ (fieldN (jPayload (dj 256 4095)) 0 4 ≠ (opOf i1).got.length ∨
      bodyLen (opOf i1).got < (opOf i1).got.length + (List.drop 4 (jPayload (dj 256 4095))).length)) ∧
    ((¬jrpRepeats i5 JrpPort.uart (jf 8 19 [])) ∧ JrpRequest i5 JrpPort.uart (jf 8 19 []) 19 ∧ jLen (jf 8 19 []) = 0 ∧ i5.boot.op = some (opOf i5) ∧
      (opOf i5).jrp = true ∧ (opOf i5).part = 1 ∧ (opOf i5).dev = 0) ∧
    ((¬jrpRepeats up JrpPort.uart (jf 8 19 [])) ∧ JrpRequest up JrpPort.uart (jf 8 19 []) 19 ∧ jLen (jf 8 19 []) = 0 ∧ (19,
      Instr.imgAbort JrpPort.uart (jf 8 19 [])) ∈ [(17, Instr.imgData JrpPort.uart (jf 8 19 [])), (18, Instr.imgEnd JrpPort.uart (jf 8 19 [])), (19, Instr.imgAbort JrpPort.uart (jf 8 19 []))] ∧ jLenOk 19 (jLen (jf 8 19 [])) = some true ∧ up.boot.op = none) ∧
    ((¬jrpRepeats i6 JrpPort.uart (jf 8 19 [])) ∧ (19,
      Instr.imgAbort JrpPort.uart (jf 8 19 [])) ∈ [(17, Instr.imgData JrpPort.uart (jf 8 19 [])), (18, Instr.imgEnd JrpPort.uart (jf 8 19 [])), (19, Instr.imgAbort JrpPort.uart (jf 8 19 []))] ∧ JrpRequest i6 JrpPort.uart (jf 8 19 []) 19 ∧ jLenOk 19 (jLen (jf 8 19 [])) = some true ∧ i6.boot.op = some (opOf i6) ∧ (opOf i6).jrp = false) := by
  unfold JrpRequest jrpRepeats
  and_intros <;> decide +kernel
end JrpImageTransfer

namespace RingsAndTheirDecoder
def rg : State := ring up
def rm : State := ring manager
def rr : State := ring (chIs .running up)
def rn : State := modFl (mbxFl 9) (fun x => { x with tally := 0 }) rr
theorem wit_RingsAndTheirDecoder :
    (reach up Port.bar0 1 = true) ∧
    (decodes rg 2 = true) ∧
    (((0, Instr.cmdNop 2 (ent 0 2 9 0 1 0)) ∈ [(0, Instr.cmdNop 2 (ent 0 2 9 0 1 0)), (1, Instr.cmdArm 2 (ent 0 2 9 0 1 0)), (2, Instr.cmdDisarm 2 (ent 0 2 9 0 1 0) true), (3, Instr.cmdRefresh 2 (ent 0 2 9 0 1 0)), (4, Instr.cmdMail 2 (ent 0 2 9 0 1 0)), (5, Instr.cmdPlan 2 (ent 0 2 9 0 1 0)), (6, Instr.cmdPageAbort 2 (ent 0 2 9 0 1 0))] ∨ 7 ≤ 0 ∧ Instr.cmdNop 2 (ent 0 2 9 0 1 0) = Instr.cmdBad 2 (ent 0 2 9 0 1 0)) ∧ TakesCommand rg 2 (ent 0 2 9 0 1 0) 0 ∧ refusal rg (ent 0 2 9 0 1 0) ≠ 0) ∧
    (((4, Instr.cmdMail 2 (ent 4 0 0 64 1 0)) ∈ [(0, Instr.cmdNop 2 (ent 4 0 0 64 1 0)), (1, Instr.cmdArm 2 (ent 4 0 0 64 1 0)), (2, Instr.cmdDisarm 2 (ent 4 0 0 64 1 0) true), (3, Instr.cmdRefresh 2 (ent 4 0 0 64 1 0)), (4, Instr.cmdMail 2 (ent 4 0 0 64 1 0)), (5, Instr.cmdPlan 2 (ent 4 0 0 64 1 0)), (6, Instr.cmdPageAbort 2 (ent 4 0 0 64 1 0))] ∨ 7 ≤ 4 ∧ Instr.cmdMail 2 (ent 4 0 0 64 1 0) = Instr.cmdBad 2 (ent 4 0 0 64 1 0)) ∧ decodes rm 2 = true ∧ (ent 4 0 0 64 1 0).length = 64 ∧ eOpc (ent 4 0 0 64 1 0) = 4 ∧ forwards rm (ent 4 0 0 64 1 0) = true ∧ hasTally rm (skidFl 1) = true ∧ (getPort rm 1).waiting = []) ∧
    (7 ≤ eOpc (ent 7 0 0 64 1 0)) ∧
    (eOpc (ent 6 4 0 0 1 0) < 7 ∧ (entryClean (ent 6 4 0 0 1 0) = false ∨ devKnown rg (eDev (ent 6 4 0 0 1 0)) = false)) ∧
    (eOpc (ent 6 2 4 0 1 0) < 7 ∧ entryClean (ent 6 2 4 0 1 0) = true ∧ devKnown rg (eDev (ent 6 2 4 0 1 0)) = true) ∧
    (TakesCommand rg 2 (ent 0 1 0 0 7 0) 0 ∧ refusal rg (ent 0 1 0 0 7 0) = 0 ∧ BitVec.getLsbD (eFlags (ent 0 1 0 0 7 0)) 0 = true) := by
  unfold TakesCommand
  and_intros <;> decide +kernel
theorem wit_RingsAndTheirDecoder_2 :
    (TakesCommand rg 2 (ent 0 0 0 0 7 0) 0 ∧ refusal rg (ent 0 0 0 0 7 0) = 0 ∧ BitVec.getLsbD (eFlags (ent 0 0 0 0 7 0)) 0 = false) ∧
    (TakesCommand rr 2 (ent 4 0 0 9 7 0) 4 ∧ refusal rr (ent 4 0 0 9 7 0) = 0 ∧
      (getCh rr (reqChan (reqOf rr (ent 4 0 0 9 7 0) true))).st = ChSt.running ∧
      hasTally rr (mbxFl (reqChan (reqOf rr (ent 4 0 0 9 7 0) true))) = true ∧ (∃ d : Chan, d ≠ reqChan (reqOf rr (ent 4 0 0 9 7 0) true)) ∧
      BitVec.getLsbD (eFlags (ent 4 0 0 9 7 0)) 0 = false) ∧
    (TakesCommand rr 2 (ent 4 1 0 9 7 0) 4 ∧ refusal rr (ent 4 1 0 9 7 0) = 0 ∧
      (getCh rr (reqChan (reqOf rr (ent 4 1 0 9 7 0) true))).st = ChSt.running ∧
      hasTally rr (mbxFl (reqChan (reqOf rr (ent 4 1 0 9 7 0) true))) = true ∧ BitVec.getLsbD (eFlags (ent 4 1 0 9 7 0)) 0 = true) ∧
    (TakesCommand rr 2 (ent 4 1 0 8 7 0) 4 ∧ refusal rr (ent 4 1 0 8 7 0) = 0 ∧
      (getCh rr (reqChan (reqOf rr (ent 4 1 0 8 7 0) true))).st ≠ ChSt.running) ∧
    (TakesCommand rn 2 (ent 4 1 0 9 7 0) 4 ∧ refusal rn (ent 4 1 0 9 7 0) = 0 ∧
      (getCh rn (reqChan (reqOf rn (ent 4 1 0 9 7 0) true))).st = ChSt.running ∧
      hasTally rn (mbxFl (reqChan (reqOf rn (ent 4 1 0 9 7 0) true))) = false) := by
  unfold TakesCommand
  and_intros <;> decide +kernel
end RingsAndTheirDecoder

namespace ArmingAChannel
def rg : State := ring up
def rr : State := ring (chIs .running up)
def rb : State := modBoot (fun b => { b with mode := 2 }) rg
def l1 : State := life false .entry rg
def l2 : State := modCue (fun q => { q with grant := tset q.grant 3 (some 5) }) l1
def l3b : State := modCue (fun q => { q with ch := tmod (tmod q.ch 3 fun x => { x with page0 := 0, npages := 700, st := .running }) 9 fun x => { x with st := .arming } }) l1
def theEntry := entryOf (tblEntry 9 8 4 (crc32c prog2).toNat)
def l4 : State := modCue (fun q => { q with grant := tset (tset q.grant 3 (some 9)) 0 (some 9) }) (life false (.program theEntry 0 1) rg)
theorem wit_ArmingAChannel :
    (TakesCommand rg 2 (ent 1 0 0 9 7 0) 1 ∧ refusal rg (ent 1 0 0 9 7 0) = 0 ∧ LifeIdle rg ∧ rg.boot.ldieDone = true ∧ rg.boot.mode ≠ 2 ∧
      (getCh rg (reqChan (reqOf rg (ent 1 0 0 9 7 0) true))).st = ChSt.disarmed ∧ (∃ d : Chan, d ≠ reqChan (reqOf rg (ent 1 0 0 9 7 0) true))) ∧
    (TakesCommand rr 2 (ent 1 0 0 9 7 0) 1 ∧ refusal rr (ent 1 0 0 9 7 0) = 0 ∧ LifeIdle rr ∧ rr.boot.ldieDone = true ∧ rr.boot.mode ≠ 2 ∧
      (getCh rr (reqChan (reqOf rr (ent 1 0 0 9 7 0) true))).st ≠ ChSt.disarmed) ∧
    (TakesCommand rb 2 (ent 1 0 0 9 7 0) 1 ∧ refusal rb (ent 1 0 0 9 7 0) = 0 ∧ LifeIdle rb ∧ (rb.boot.ldieDone = false ∨ rb.boot.mode = 2)) ∧
    (l1.cue.life = some { req := anyReq 1, chan := 9, refresh := false, st := LifeSt.entry : Life } ∧
      { req := anyReq 1, chan := 9, refresh := false, st := LifeSt.entry : Life }.st = LifeSt.entry ∧
      { req := anyReq 1, chan := 9, refresh := false, st := LifeSt.entry : Life }.refresh = false ∧ l1.host.lifeQ = [] ∧ l1.host.recov = none ∧
      (getFl l1 stgFl).down = false ∧ 5 ≠ { req := anyReq 1, chan := 9, refresh := false, st := LifeSt.entry : Life }.chan ∧
      (tblEntry 9 8 0 0).length = 192 ∧ (entryStep2 (tblEntry 9 8 0 0) && entryStep3 (tblEntry 9 8 0 0)) = true ∧
      (entryOf (tblEntry 9 8 0 0)).grant.toNat / 2 ^ 140 = 0 ∧
      conflictOf l1 { req := anyReq 1, chan := 9, refresh := false, st := LifeSt.entry : Life }.chan (entryOf (tblEntry 9 8 0 0)) = none ∧
      firstRun l1 (pagesFor (entryOf (tblEntry 9 8 0 0)).progLen) cuePages 0 0 = some 0) ∧
    (l2.cue.life = some { req := anyReq 1, chan := 9, refresh := false, st := LifeSt.entry : Life } ∧
      { req := anyReq 1, chan := 9, refresh := false, st := LifeSt.entry : Life }.st = LifeSt.entry ∧
      { req := anyReq 1, chan := 9, refresh := false, st := LifeSt.entry : Life }.refresh = false ∧ l2.host.lifeQ = [] ∧ l2.host.recov = none ∧
      (getFl l2 stgFl).down = false ∧ (tblEntry 9 8 0 0).length = 192 ∧ (entryStep2 (tblEntry 9 8 0 0) && entryStep3 (tblEntry 9 8 0 0)) = true ∧
      (entryOf (tblEntry 9 8 0 0)).grant.toNat / 2 ^ 140 = 0 ∧
      conflictOf l2 { req := anyReq 1, chan := 9, refresh := false, st := LifeSt.entry : Life }.chan (entryOf (tblEntry 9 8 0 0)) = some (3, 5) ∧
      5 ≠ { req := anyReq 1, chan := 9, refresh := false, st := LifeSt.entry : Life }.chan) ∧
    (l3b.cue.life = some { req := anyReq 1, chan := 9, refresh := false, st := LifeSt.entry : Life } ∧
      { req := anyReq 1, chan := 9, refresh := false, st := LifeSt.entry : Life }.st = LifeSt.entry ∧
      { req := anyReq 1, chan := 9, refresh := false, st := LifeSt.entry : Life }.refresh = false ∧ l3b.host.lifeQ = [] ∧ l3b.host.recov = none ∧
      (getFl l3b stgFl).down = false ∧ (tblEntry 9 262144 0 0).length = 192 ∧
      (entryStep2 (tblEntry 9 262144 0 0) && entryStep3 (tblEntry 9 262144 0 0)) = true ∧
      (entryOf (tblEntry 9 262144 0 0)).grant.toNat / 2 ^ 140 = 0 ∧
      conflictOf l3b { req := anyReq 1, chan := 9, refresh := false, st := LifeSt.entry : Life }.chan (entryOf (tblEntry 9 262144 0 0)) = none ∧
      firstRun l3b (pagesFor (entryOf (tblEntry 9 262144 0 0)).progLen) cuePages 0 0 = none ∧
      5 ≠ { req := anyReq 1, chan := 9, refresh := false, st := LifeSt.entry : Life }.chan) ∧
    (l1.cue.life = some { req := anyReq 1, chan := 9, refresh := false, st := LifeSt.entry : Life } ∧
      { req := anyReq 1, chan := 9, refresh := false, st := LifeSt.entry : Life }.st = LifeSt.entry ∧
      { req := anyReq 1, chan := 9, refresh := false, st := LifeSt.entry : Life }.refresh = false ∧ l1.host.lifeQ = [] ∧ l1.host.recov = none ∧
      (getFl l1 stgFl).down = false ∧ (List.replicate 192 0).length = 192 ∧
      (entryStep2 (List.replicate 192 0) && entryStep3 (List.replicate 192 0)) = false ∧
      5 ≠ { req := anyReq 1, chan := 9, refresh := false, st := LifeSt.entry : Life }.chan) ∧
    (l1.cue.life = some { req := anyReq 1, chan := 9, refresh := false, st := LifeSt.entry : Life } ∧
      { req := anyReq 1, chan := 9, refresh := false, st := LifeSt.entry : Life }.st = LifeSt.entry ∧
      { req := anyReq 1, chan := 9, refresh := false, st := LifeSt.entry : Life }.refresh = false ∧ l1.host.lifeQ = [] ∧ l1.host.recov = none ∧
      (getFl l1 stgFl).down = false ∧ (let b := List.take 32 (tblEntry 9 8 0 0) ++ List.replicate 20 0 ++ [255, 255, 255, 255] ++ List.replicate 8 0 ++ List.take 124 (List.drop 64 (tblEntry 9 8 0 0)); b ++ leBytes 4 (BitVec.toNat (crc32c b))).length = 192 ∧ (entryStep2 (let b := List.take 32 (tblEntry 9 8 0 0) ++ List.replicate 20 0 ++ [255, 255, 255, 255] ++ List.replicate 8 0 ++ List.take 124 (List.drop 64 (tblEntry 9 8 0 0)); b ++ leBytes 4 (BitVec.toNat (crc32c b))) && entryStep3 (let b := List.take 32 (tblEntry 9 8 0 0) ++ List.replicate 20 0 ++ [255, 255, 255, 255] ++ List.replicate 8 0 ++ List.take 124 (List.drop 64 (tblEntry 9 8 0 0)); b ++ leBytes 4 (BitVec.toNat (crc32c b)))) = true ∧ (entryOf (let b := List.take 32 (tblEntry 9 8 0 0) ++ List.replicate 20 0 ++ [255, 255, 255, 255] ++ List.replicate 8 0 ++ List.take 124 (List.drop 64 (tblEntry 9 8 0 0)); b ++ leBytes 4 (BitVec.toNat (crc32c b)))).grant.toNat / 2 ^ 140 ≠ 0 ∧ 5 ≠ { req := anyReq 1, chan := 9, refresh := false, st := LifeSt.entry : Life }.chan) := by
  unfold TakesCommand LifeIdle
  and_intros <;> decide +kernel
theorem wit_ArmingAChannel_2 :
    (l4.cue.life = some { req := anyReq 1, chan := 9, refresh := false, st := LifeSt.program theEntry 0 1 : Life } ∧
      { req := anyReq 1, chan := 9, refresh := false, st := LifeSt.program theEntry 0 1 : Life }.st = LifeSt.program theEntry 0 1 ∧
      { req := anyReq 1, chan := 9, refresh := false, st := LifeSt.program theEntry 0 1 : Life }.refresh = false ∧ l4.host.lifeQ = [] ∧
      l4.host.recov = none ∧ (getFl l4 stgFl).down = false ∧ prog2.length = theEntry.progLen ∧ crc32c prog2 = theEntry.progCrc ∧ (∃ d : Chan,
      d ≠ { req := anyReq 1, chan := 9, refresh := false, st := LifeSt.program theEntry 0 1 : Life }.chan)) ∧
    (l4.cue.life = some { req := anyReq 1, chan := 9, refresh := false, st := LifeSt.program theEntry 0 1 : Life } ∧
      { req := anyReq 1, chan := 9, refresh := false, st := LifeSt.program theEntry 0 1 : Life }.st = LifeSt.program theEntry 0 1 ∧
      { req := anyReq 1, chan := 9, refresh := false, st := LifeSt.program theEntry 0 1 : Life }.refresh = false ∧ l4.host.lifeQ = [] ∧
      l4.host.recov = none ∧ (getFl l4 stgFl).down = false ∧ prog2.reverse.length = theEntry.progLen ∧ crc32c prog2.reverse ≠ theEntry.progCrc) := by
  and_intros <;> decide +kernel
end ArmingAChannel

namespace DisarmingAndRefreshingAChannel
def rg : State := ring up
def d1 : State := ring (chIs .running up)
def d1h : State := modCue (fun q => { q with grant := tset (tset q.grant 3 (some 9)) 25 (some 9) }) d1
def d2 : State := paged .admitted d1
def w1 : State := life true (.swap theEntry [1,2] 4 1) (modCue (fun q => { q with grant := tset (tset q.grant 7 (some 9)) 0 (some 9) }) (ring (chIs .running up)))
def w1r : State := chIs .running w1
def w2 : State := paged .admitted w1r
theorem wit_DisarmingAndRefreshingAChannel :
    (TakesCommand rg 2 (ent 2 0 0 9 7 0) 2 ∧ refusal rg (ent 2 0 0 9 7 0) = 0 ∧ LifeIdle rg ∧
      armedSt (getCh rg (reqChan (reqOf rg (ent 2 0 0 9 7 0) true))) = false) ∧
    (TakesCommand d1h 2 (ent 2 0 0 9 7 0) 2 ∧ refusal d1h (ent 2 0 0 9 7 0) = 0 ∧ LifeIdle d1h ∧
      armedSt (getCh d1h (reqChan (reqOf d1h (ent 2 0 0 9 7 0) true))) = true ∧ pcrit d1h (reqChan (reqOf d1h (ent 2 0 0 9 7 0) true)) = false ∧
      bar0Reach d1h = true ∧ true = true) ∧
    (TakesCommand d1h 2 (ent 2 0 0 9 7 0) 2 ∧ refusal d1h (ent 2 0 0 9 7 0) = 0 ∧ LifeIdle d1h ∧
      armedSt (getCh d1h (reqChan (reqOf d1h (ent 2 0 0 9 7 0) false))) = true ∧ pcrit d1h (reqChan (reqOf d1h (ent 2 0 0 9 7 0) false)) = false ∧
      (∃ i : Fin 256, True) ∧ false = false) ∧
    (TakesCommand d2 2 (ent 2 0 0 9 7 0) 2 ∧ refusal d2 (ent 2 0 0 9 7 0) = 0 ∧ LifeIdle d2 ∧
      armedSt (getCh d2 (reqChan (reqOf d2 (ent 2 0 0 9 7 0) false))) = true ∧ pcrit d2 (reqChan (reqOf d2 (ent 2 0 0 9 7 0) false)) = true) ∧
    (TakesCommand rg 2 (ent 3 0 0 9 7 0) 3 ∧ refusal rg (ent 3 0 0 9 7 0) = 0 ∧ LifeIdle rg ∧
      armedSt (getCh rg (reqChan (reqOf rg (ent 3 0 0 9 7 0) true))) = false) ∧
    (TakesCommand d1 2 (ent 3 0 0 9 7 0) 3 ∧ refusal d1 (ent 3 0 0 9 7 0) = 0 ∧ LifeIdle d1 ∧
      armedSt (getCh d1 (reqChan (reqOf d1 (ent 3 0 0 9 7 0) true))) = true ∧ pcrit d1 (reqChan (reqOf d1 (ent 3 0 0 9 7 0) true)) = false) ∧
    (TakesCommand d2 2 (ent 3 0 0 9 7 0) 3 ∧ refusal d2 (ent 3 0 0 9 7 0) = 0 ∧ LifeIdle d2 ∧
      armedSt (getCh d2 (reqChan (reqOf d2 (ent 3 0 0 9 7 0) true))) = true ∧ pcrit d2 (reqChan (reqOf d2 (ent 3 0 0 9 7 0) true)) = true) ∧
    (w1r.cue.life = some { req := anyReq 3, chan := 9, refresh := true, st := LifeSt.swap theEntry [1, 2] 4 1 : Life } ∧
      { req := anyReq 3, chan := 9, refresh := true, st := LifeSt.swap theEntry [1, 2] 4 1 : Life }.st = LifeSt.swap theEntry [1, 2] 4 1 ∧
      w1r.host.lifeQ = [] ∧ w1r.host.recov = none ∧ (getFl w1r stgFl).down = false ∧
      pcrit w1r { req := anyReq 3, chan := 9, refresh := true, st := LifeSt.swap theEntry [1, 2] 4 1 : Life }.chan = false ∧ (∃ d : Chan,
      d ≠ { req := anyReq 3, chan := 9, refresh := true, st := LifeSt.swap theEntry [1, 2] 4 1 : Life }.chan) ∧ (∃ i : Fin 256, True)) := by
  unfold TakesCommand LifeIdle
  and_intros <;> decide +kernel
theorem wit_DisarmingAndRefreshingAChannel_2 :
    (w2.cue.life = some { req := anyReq 3, chan := 9, refresh := true, st := LifeSt.swap theEntry [1, 2] 4 1 : Life } ∧
      { req := anyReq 3, chan := 9, refresh := true, st := LifeSt.swap theEntry [1, 2] 4 1 : Life }.st = LifeSt.swap theEntry [1, 2] 4 1 ∧
      w2.host.lifeQ = [] ∧ w2.host.recov = none ∧ (getFl w2 stgFl).down = false ∧
      pcrit w2 { req := anyReq 3, chan := 9, refresh := true, st := LifeSt.swap theEntry [1, 2] 4 1 : Life }.chan = true ∧
      { req := anyReq 3, chan := 9, refresh := true, st := LifeSt.swap theEntry [1, 2] 4 1 : Life }.refresh = true) := by
  and_intros <;> decide +kernel
end DisarmingAndRefreshingAChannel

namespace PagePlansAndAborts
def rg : State := ring up
def p1 : State := modHost (fun h => { h with planQ := [anyReq 5, anyReq 6] }) rg
def g2 : State := paged .admitted rg
def g2b : State := chIs .running g2
def g3 : State := paged .aborting rg
def g4 : State := modCue (fun q => { q with pages := [{ aPage .aborting 1 with complete := true, ix := 3, handle := 4 }, aPage .posted 0] }) rg
def x1 := { aPage .aborting 1 with complete := true, ix := 3, handle := 4 }
def x3 := (modCue (fun q => { q with jamLatch := true, jamSrc := 5 }) g2b)
theorem wit_PagePlansAndAborts :
    (TakesCommand rg 2 (ent 5 0 0 0 7 16384) 5 ∧ refusal rg (ent 5 0 0 0 7 16384) = 0) ∧
    (p1.host.planQ = [anyReq 5, anyReq 6] ∧ domUp p1 3 = true ∧ (getFl p1 stgFl).down = false ∧ (∀ (b : List Byte),
      none = some b → b.length = 192) ∧ planVerdict p1 (BitVec.toNat (anyReq 5).arg) none ≠ 0) ∧
    (p1.host.planQ = [anyReq 5, anyReq 6] ∧ domUp p1 3 = true ∧ (getFl p1 stgFl).down = false ∧ (∀ (b : List Byte),
      some planBytes = some b → b.length = 192) ∧ some planBytes = some planBytes ∧
      planVerdict p1 (BitVec.toNat (anyReq 5).arg) (some planBytes) = 0 ∧ freePlan p1 = some 0 ∧ (planOf planBytes).dup2 = false) ∧
    (TakesCommand rg 2 (ent 6 0 0 0 7 (2 ^ 33 + 1)) 6 ∧ refusal rg (ent 6 0 0 0 7 (2 ^ 33 + 1)) = 0 ∧
      BitVec.getLsbD (reqOf rg (ent 6 0 0 0 7 (2 ^ 33 + 1)) true).arg 33 = true ∧ (∀ (g : Page),
      g ∈ rg.cue.pages → g.handle = BitVec.setWidth 32 (reqOf rg (ent 6 0 0 0 7 (2 ^ 33 + 1)) true).arg → g.isAdm = true)) ∧
    (TakesCommand g2 2 (ent 6 0 0 0 7 1) 6 ∧ refusal g2 (ent 6 0 0 0 7 1) = 0 ∧ BitVec.getLsbD (reqOf g2 (ent 6 0 0 0 7 1) true).arg 33 = false ∧
      pageByAdm g2 (BitVec.setWidth 32 (reqOf g2 (ent 6 0 0 0 7 1) true).arg) = some (aPage PlanSt.admitted 1) ∧
      (aPage PlanSt.admitted 1).isAdm = true ∧ (aPage PlanSt.admitted 1).adm = BitVec.setWidth 32 (reqOf g2 (ent 6 0 0 0 7 1) true).arg ∧
      (aPage PlanSt.admitted 1).handle = (aPage PlanSt.admitted 1).handle) ∧
    (pageByAdm g3 1 = some (aPage PlanSt.aborting 1) ∧ abortDone g3 (aPage PlanSt.aborting 1) = true) ∧
    (List.find? (reportable g4) g4.cue.pages = some x1 ∧ (stgRoom g4 6 none).isSome = true ∧ g4.host.recov = none ∧ (∃ h : Page, h ∈ g4.cue.pages ∧
      h.isAdm = false)) ∧
    (domUp g2b 3 = true ∧ (∃ (g : Page), g ∈ g2b.cue.pages ∧ g.isAdm = true ∧ BitVec.getLsbD g.plan.jam ↑5 = true)) := by
  unfold TakesCommand
  and_intros <;> decide +kernel
theorem wit_PagePlansAndAborts_2 :
    (reach x3 Port.bar0 3 = true) ∧
    (TakesCommand rg 2 (ent 6 0 0 0 7 1) 6 ∧ refusal rg (ent 6 0 0 0 7 1) = 0 ∧ BitVec.getLsbD (reqOf rg (ent 6 0 0 0 7 1) true).arg 33 = false ∧
      (∀ (g : Page), g ∈ rg.cue.pages → g.isAdm = true → g.adm ≠ BitVec.setWidth 32 (reqOf rg (ent 6 0 0 0 7 1) true).arg)) := by
  unfold TakesCommand
  and_intros <;> decide +kernel
end PagePlansAndAborts

namespace CompletionQueueAndInterrupts
def aRec (k : Nat) : Rec := { kind := k, epoch := 3, src := 9, status := 0, xb := 0, et := 5, body := leBytes 16 1234567 }
def staged (k : Nat) (cls : StgClass) (aon : Bool) (coal cnt seen : Nat) : State := modHost (fun h => { h with
  staging := [⟨aRec k, cls, aon⟩, ⟨aRec 1, .general, false⟩], resFree := 60
  regs := { h.regs with cpqEn := true, coalTime := BitVec.ofNat 10 coal, coalCount := BitVec.ofNat 8 cnt, vecs := Vector.replicate 32 ⟨seen, 5⟩, cpqTail := 65, cpqHead := 60, cpqBase := 0x10FFF } }) up
theorem wit_CompletionQueueAndInterrupts :
    (reach up Port.bar0 1 = true) ∧
    (isManager up = true ∧ (up.host.staging = [] ∨ bar0Reach up = false ∨ cpqRoom up = false)) ∧
    (isManager (staged 6 StgClass.own false 10 4 1) = true ∧ bar0Reach (staged 6 StgClass.own false 10 4 1) = true ∧
      cpqRoom (staged 6 StgClass.own false 10 4 1) = true ∧
      (staged 6 StgClass.own false 10 4 1).host.staging = [{ rcd := aRec 6, cls := StgClass.own, aon := false : StgEntry }, { rcd := aRec 1, cls := StgClass.general, aon := false : StgEntry }] ∧ { rcd := aRec 6, cls := StgClass.own, aon := false : StgEntry }.rcd.kind ≠ 10 ∧ (reservedKind { rcd := aRec 6, cls := StgClass.own, aon := false : StgEntry }.rcd.kind = true ∨ (staged 6 StgClass.own false 10 4 1).host.regs.coalTime = 0 ∨ max 1 (BitVec.toNat (staged 6 StgClass.own false 10 4 1).host.regs.coalCount) ≤ (tget (staged 6 StgClass.own false 10 4 1).host.regs.vecs (kindVec (staged 6 StgClass.own false 10 4 1) { rcd := aRec 6, cls := StgClass.own, aon := false : StgEntry }.rcd.kind)).count + 1) ∧ { rcd := aRec 6, cls := StgClass.own, aon := false : StgEntry }.cls = StgClass.own) ∧
    (isManager (staged 1 StgClass.general false 10 4 1) = true ∧ bar0Reach (staged 1 StgClass.general false 10 4 1) = true ∧
      cpqRoom (staged 1 StgClass.general false 10 4 1) = true ∧
      (staged 1 StgClass.general false 10 4 1).host.staging = [{ rcd := aRec 1, cls := StgClass.general, aon := false : StgEntry }, { rcd := aRec 1, cls := StgClass.general, aon := false : StgEntry }] ∧ { rcd := aRec 1, cls := StgClass.general, aon := false : StgEntry }.rcd.kind ≠ 10 ∧ (¬(reservedKind { rcd := aRec 1, cls := StgClass.general, aon := false : StgEntry }.rcd.kind = true ∨ (staged 1 StgClass.general false 10 4 1).host.regs.coalTime = 0 ∨ max 1 (BitVec.toNat (staged 1 StgClass.general false 10 4 1).host.regs.coalCount) ≤ (tget (staged 1 StgClass.general false 10 4 1).host.regs.vecs (kindVec (staged 1 StgClass.general false 10 4 1) { rcd := aRec 1, cls := StgClass.general, aon := false : StgEntry }.rcd.kind)).count + 1)) ∧ { rcd := aRec 1, cls := StgClass.general, aon := false : StgEntry }.cls = StgClass.general ∧ { rcd := aRec 1, cls := StgClass.general, aon := false : StgEntry }.aon = false ∧ (getFl (staged 1 StgClass.general false 10 4 1) stgFl).down = false) ∧
    (domUp (staged 6 StgClass.own false 10 4 1) 1 = true ∧ (tget (staged 6 StgClass.own false 10 4 1).host.regs.vecs 4).count ≠ 0) ∧
    (staged 6 StgClass.own false 10 4 1).host.waiting = [] := by
  and_intros <;> decide +kernel
/-- The entry of worker 1 goes to the CPQ while a sheet record of that worker waits. -/
def ofWorker : State := { staged 6 (.worker 1) false 10 4 1 with
  skid := manager.skid, host := { (staged 6 (.worker 1) false 10 4 1).host with waiting := [⟨aRec 6, .worker 1, 7⟩] } }
theorem wit_CompletionQueueAndInterrupts_worker : isManager ofWorker = true ∧ bar0Reach ofWorker = true ∧ cpqRoom ofWorker = true ∧
    ofWorker.host.staging = [⟨aRec 6, .worker 1, false⟩, ⟨aRec 1, .general, false⟩] ∧ (aRec 6).kind ≠ 10 ∧
    ofWorker.skid.live.getLsbD 1 = true ∧ ofWorker.host.recov = none ∧ (getFl ofWorker stgFl).down = false ∧
    ofWorker.host.waiting = [⟨aRec 6, .worker 1, 7⟩] ∧ reservedKind (aRec 6).kind = true := by
  and_intros <;> decide +kernel
end CompletionQueueAndInterrupts

namespace RecoverAndPerst
def aRec (k : Nat) : Rec := { kind := k, epoch := 3, src := 9, status := 0, xb := 0, et := 5, body := leBytes 16 1234567 }
def staged (k : Nat) (cls : StgClass) (aon : Bool) (coal cnt seen : Nat) : State := modHost (fun h => { h with
  staging := [⟨aRec k, cls, aon⟩, ⟨aRec 1, .general, false⟩], resFree := 60
  regs := { h.regs with cpqEn := true, coalTime := BitVec.ofNat 10 coal, coalCount := BitVec.ofNat 8 cnt, vecs := Vector.replicate 32 ⟨seen, 5⟩, cpqTail := 65, cpqHead := 60, cpqBase := 0x10FFF } }) up
def rcv (d : Bool) : Recov := { oldEpoch := 2, discard := d, disarm := true, pagesAborted := 3, discarded := 4, disarmed := 5, todo := [], workers := 0, made := false, perstAfter := true }
def rv1 : State := modHost (fun h => { h with recov := some (rcv true) }) up
def rv2 : State := modHost (fun h => { h with recov := some (rcv false), waiting := [⟨aRec 3, .event, 0⟩] }) (inAon fun a => { a with lost := true })
def staged_2 (k : Nat) (cls : StgClass) (aon : Bool) (coal cnt seen : Nat) : State := modHost (fun h => { h with
  staging := [⟨aRec k, cls, aon⟩, ⟨aRec 1, .general, false⟩], resFree := 60
  regs := { h.regs with cpqEn := true, coalTime := BitVec.ofNat 10 coal, coalCount := BitVec.ofNat 8 cnt, vecs := Vector.replicate 32 ⟨seen, 5⟩, cpqTail := 65, cpqHead := 60, cpqBase := 0x10FFF } }) { up with epoch := 3 }
def a1_2 : State := (staged_2 1 .general false 10 4 1)
def a2_2 : State := chIs .running (paged .admitted (staged_2 1 .general false 10 4 1))
def a4_2 : State := chIs .running (paged .posted (staged_2 6 .general false 10 4 1))
theorem wit_RecoverAndPerst :
    (reach (staged 1 StgClass.general false 10 4 1) Port.bar0 1 = true ∧ isManager (staged 1 StgClass.general false 10 4 1) = true ∧
      (staged 1 StgClass.general false 10 4 1).host.recov = none ∧ (staged 1 StgClass.general false 10 4 1).skid.live = 0) ∧
    (reach rv1 Port.bar0 1 = true ∧ isManager rv1 = true ∧ rv1.host.recov.isSome = true) ∧
    (rv1.host.recov = some (rcv true) ∧ recoverDone rv1 (rcv true) = true ∧ isManager rv1 = true ∧ (stgRoom rv1 10 none).isSome = true) ∧
    (rv2.aon.por = false) ∧
    (reach a1_2 Port.bar0 1 = true ∧ isManager a1_2 = true ∧ a1_2.host.recov = none ∧ a1_2.skid.live = 0 ∧ (∃ r : Ring, True)) ∧
    (reach a2_2 Port.bar0 1 = true ∧ isManager a2_2 = true ∧ a2_2.host.recov = none ∧ a2_2.skid.live = 0 ∧ BitVec.getLsbD (3 : Word) 1 = true ∧
      BitVec.getLsbD (3 : Word) 2 = false ∧ a2_2.host.waiting = [] ∧ ∃ x ∈ a2_2.host.staging, x.rcd.epoch = 3) ∧
    (reach a4_2 Port.bar0 1 = true ∧ isManager a4_2 = true ∧ a4_2.host.recov = none ∧ a4_2.skid.live = 0 ∧ BitVec.getLsbD (2 : Word) 1 = true ∧
      BitVec.getLsbD (2 : Word) 2 = false) := by
  and_intros <;> decide +kernel
end RecoverAndPerst

namespace LocalMemoryRefreshAndCopies
def aRec (k : Nat) : Rec := { kind := k, epoch := 3, src := 9, status := 0, xb := 0, et := 5, body := leBytes 16 1234567 }
def staged (k : Nat) (cls : StgClass) (aon : Bool) (coal cnt seen : Nat) : State := modHost (fun h => { h with
  staging := [⟨aRec k, cls, aon⟩, ⟨aRec 1, .general, false⟩], resFree := 60
  regs := { h.regs with cpqEn := true, coalTime := BitVec.ofNat 10 coal, coalCount := BitVec.ofNat 8 cnt, vecs := Vector.replicate 32 ⟨seen, 5⟩, cpqTail := 65, cpqHead := 60, cpqBase := 0x10FFF } }) up
def wf : State := modHost (fun h => { h with waiting := [⟨aRec 1, .event, 0⟩, ⟨aRec 9, .latch 4 5 1, 0⟩] }) (staged 1 .general false 10 4 1)
def me1 : State := modMem (fun m => { m with ready := false, training := true }) up
def me2 : State := modMem (fun m => { m with mr4 := 3, cpyCur := some (0x100, 0x40, 64, false), data := [(0x3F, 1), (0x40, 2), (0x90, 3)] }) { up with therm := { up.therm with band := 4 } }
def me3 : State := modMem (fun m => { m with cpyCur := some (0x100, 0x40, 64, true), data := [(0x3F, 1), (0x40, 2), (0x90, 3)] }) up
def me4 : State := modMem (fun m => { m with cpyLen := 64, cpyLoc := 0x80, cpyHost := 0x7 }) up
def me5 : State := modMem (fun m => { m with cpyLen := 63, cpyLoc := 0x80, cpyHost := 0x7 }) up
theorem wit_LocalMemoryRefreshAndCopies :
    (reach up Port.bar0 2 = true) ∧
    (domUp me1 2 = true ∧ me1.mem.training = true ∧ me1.mem.ready = false) ∧
    (domUp me2 2 = true ∧ me2.mem.ready = true ∧ me2.mem.cpyCur = some (256, 64, 64, false) ∧ Memory.wf me2.mem.data = true) ∧
    (domUp me3 2 = true ∧ me3.mem.cpyCur = some (256, 64, 64, true) ∧ 64 + 64 ≤ usableBytes me3 ∧ me3.mem.ready = true ∧
      me3.mem.poison.getLsbD 8 = false) ∧
    (reach me4 Port.bar0 2 = true ∧ me4.mem.cpyCur = none ∧ me4.mem.ready = true ∧ (64 ≤ me4.mem.cpyLen.toNat ∧ me4.mem.cpyLen.toNat ≤ 16777216 ∧
      me4.mem.cpyLen.toNat % 64 = 0 ∧ me4.mem.cpyLoc.toNat % 64 = 0 ∧ me4.mem.cpyLoc.toNat < usableBytes me4)) ∧
    (reach me5 Port.bar0 2 = true ∧ me5.mem.cpyCur = none ∧ me5.mem.ready = true ∧ (¬(64 ≤ me5.mem.cpyLen.toNat ∧ me5.mem.cpyLen.toNat ≤ 16777216 ∧
      me5.mem.cpyLen.toNat % 64 = 0 ∧ me5.mem.cpyLoc.toNat % 64 = 0 ∧ me5.mem.cpyLoc.toNat < usableBytes me5))) ∧
    (reach me3 Port.bar0 2 = true ∧ (me3.mem.cpyCur.isSome = true ∨ me3.mem.ready = false)) := by
  and_intros <;> decide +kernel
end LocalMemoryRefreshAndCopies

namespace LandingReservationsAndBarTwo
def la : State := modHost (fun h => { h with regs := { h.regs with bar2 := 4 } }) (modRast (fun r => { r with land := [(0x400003, 9)], landCe := 32767, landUe := 65535 }) up)
def x1 := (modFl (flId 0x182) (fun x => { x with tally := 3 }) up)
theorem wit_LandingReservationsAndBarTwo :
    (reach up Port.bar0 4 = true ∧ resActive up 3 = false ∧
      resOk 3 (if false = true then have __src := tget up.rast.res 3; { en := __src.en, units := __src.units, base := __src.base, slot := BitVec.extractLsb' 0 12 (2147487792 : Word) : LandRes } else have __src := tget up.rast.res 3; { en := BitVec.getLsbD (2147487792 : Word) 31, units := BitVec.extractLsb' 8 8 (2147487792 : Word), base := BitVec.extractLsb' 0 8 (2147487792 : Word), slot := __src.slot : LandRes }) up.rast.res = false) ∧
    (reach up Port.bar0 4 = true ∧ resActive up 3 = false ∧
      resOk 3 (if true = true then have __src := tget up.rast.res 3; { en := __src.en, units := __src.units, base := __src.base, slot := BitVec.extractLsb' 0 12 (1 : Word) : LandRes } else have __src := tget up.rast.res 3; { en := BitVec.getLsbD (1 : Word) 31, units := BitVec.extractLsb' 8 8 (1 : Word), base := BitVec.extractLsb' 0 8 (1 : Word), slot := __src.slot : LandRes }) up.rast.res = true) ∧
    (reach x1 Port.bar0 4 = true ∧ resActive x1 3 = true) ∧
    (bar0Reach la = true ∧ domUp la 4 = true ∧ bar2Ok 0 [1, 2, 3, 4].length = true ∧ Memory.wf la.rast.land = true) ∧
    (bar0Reach la = true ∧ domUp la 4 = true ∧ bar2Ok 0 8 = true) := by
  and_intros <;> decide +kernel
end LandingReservationsAndBarTwo

namespace ArbiterRoundsWindowsAndSnapshots
def ar : State := modMem (fun m => { m with req := tset (tset m.req 3 { tget m.req 3 with eff := 15, q := 1, base := 13, usedq := 0, since := some 8 }) 9 { tget m.req 9 with choke := true, pend := some (7, 3, 2), longest := 8, waits := 9 } }) up
def x1 := (modMem (fun m => { m with ready := false }) ar)
theorem wit_ArbiterRoundsWindowsAndSnapshots :
    (domUp ar 2 = true ∧ ar.mem.ready = true ∧ (∃ n : Req, True)) ∧
    (domUp x1 2 = true ∧ x1.mem.ready = false) ∧
    (arbWinner 65535 ar.mem.req = some 3 ∧ 12 ≤ (tget ar.mem.req 3).base.toNat ∧
      clampN 1 4095 (tget ar.mem.req 3).q.toNat ≤ (roundReq 20 65535 ar.mem.req 3).usedq.toNat ∧ (tget ar.mem.req 3).since = some 8) ∧
    (arbWinner 65535 ar.mem.req ≠ some 4 ∧ inRound 65535 ar.mem.req 4 = true) ∧
    (inRound 65535 ar.mem.req 9 = false) ∧
    (domUp ar 2 = true) ∧
    (domUp ar 2 = true ∧ (tget ar.mem.req 9).pend = some (7, 3, 2)) ∧
    (domUp ar 2 = true ∧ (tget ar.mem.req 8).pend = none) := by
  and_intros <;> decide +kernel
theorem wit_ArbiterRoundsWindowsAndSnapshots_2 :
    (reach ar Port.bar0 2 = true ∧ (∃ n : Req, True) ∧ BitVec.getLsbD (2 : Word) 8 = false) := by
  and_intros <;> decide +kernel
end ArbiterRoundsWindowsAndSnapshots

namespace CueFlow
def x1 := (at9 (wB 4 0 0) fun x => { x with stack := [⟨false, 8⟩, ⟨true, 0⟩] })
def x2 := (at9 (wB 5 3 2) fun x => { x with slots := tset x.slots 3 1 })
def x3 := (at9 (wE 0x18 0 0 0 0 2 0) fun x => { x with blocked := some 900, slots := Vector.replicate 16 0 })
def we : State := (at9 (wD 0x1A 0 0 0 0 2 3) fun x => { x with blocked := some 900, evq := [⟨1,2,3⟩, ⟨4,5,6⟩] })
theorem wit_CueFlow :
    (Plain (at9 0 same) 9 CueI.nop) ∧
    (Issues (at9 (wB 1 0 2) same) 9 (CueI.jmp 2) ∧ (getCh (at9 (wB 1 0 2) same) 9).pfx = none ∧
      inRegion (at9 (wB 1 0 2) same) 9 (getCh (at9 (wB 1 0 2) same) 9).pc.lib (branchOff (getCh (at9 (wB 1 0 2) same) 9) 2) = true) ∧
    (Plain (at9 (wB 2 0 2) same) 9 (CueI.jcc 0 2) ∧ ccHolds 0 (flagWord (at9 (wB 2 0 2) same) 9) = false) ∧
    (Issues (at9 (wB 2 1 2) same) 9 (CueI.jcc 1 2) ∧ (getCh (at9 (wB 2 1 2) same) 9).pfx = none ∧
      ccHolds 1 (flagWord (at9 (wB 2 1 2) same) 9) = true ∧
      inRegion (at9 (wB 2 1 2) same) 9 (getCh (at9 (wB 2 1 2) same) 9).pc.lib (branchOff (getCh (at9 (wB 2 1 2) same) 9) 2) = true) ∧
    (Issues (at9 (wB 3 0 2) same) 9 (CueI.call false 2) ∧ (getCh (at9 (wB 3 0 2) same) 9).pfx = none ∧
      (getCh (at9 (wB 3 0 2) same) 9).stack.length < 4 ∧
      inRegion (at9 (wB 3 0 2) same) 9 (false || (getCh (at9 (wB 3 0 2) same) 9).pc.lib) (if false = true then 4 * ↑(BitVec.toNat (2 : BitVec 21)) else branchOff (getCh (at9 (wB 3 0 2) same) 9) 2) = true) ∧
    (Issues x1 9 CueI.ret ∧ (getCh x1 9).pfx = none ∧ (getCh x1 9).stack = [{ lib := false, off := 8 : Pc }, { lib := true, off := 0 : Pc }] ∧
      inRegion x1 9 { lib := false, off := 8 : Pc }.lib ↑{ lib := false, off := 8 : Pc }.off = true) ∧
    (Issues (at9 (wB 5 3 2) same) 9 (CueI.loop 3 2) ∧ (getCh (at9 (wB 5 3 2) same) 9).pfx = none ∧
      chSlot (getCh (at9 (wB 5 3 2) same) 9) 3 - 1 ≠ 0 ∧
      inRegion (at9 (wB 5 3 2) same) 9 (getCh (at9 (wB 5 3 2) same) 9).pc.lib (branchOff (getCh (at9 (wB 5 3 2) same) 9) 2) = true) ∧
    (Issues x2 9 (CueI.loop 3 2) ∧ (getCh x2 9).pfx = none ∧ chSlot (getCh x2 9) 3 - 1 = 0 ∧ Follows x2 9) := by
  unfold Plain Issues Follows
  and_intros <;> decide +kernel
theorem wit_CueFlow_2 :
    (Issues (at9 (wB 6 0 0) same) 9 CueI.halt ∧ (getCh (at9 (wB 6 0 0) same) 9).pfx = none ∧ pcrit (at9 (wB 6 0 0) same) 9 = false ∧
      Follows (at9 (wB 6 0 0) same) 9) ∧
    (canIssue x3 9 = true ∧ (getCh x3 9).blocked = some 900 ∧ (getCh x3 9).pfx = none ∧ Follows x3 9 ∧ presentI x3 9 = some (some (CueI.waitet 2))) ∧
    (canIssue we 9 = true ∧ (getCh we 9).blocked = some 900 ∧ (getCh we 9).pfx = none ∧ Follows we 9 ∧
      presentI we 9 = some (some (CueI.waitev false 2 3)) ∧
      (getCh we 9).evq = [{ upper := 1, code := 2, payload := 3 : ChEvent }, { upper := 4, code := 5, payload := 6 : ChEvent }]) := by
  unfold Issues Follows
  and_intros <;> decide +kernel
end CueFlow

namespace CueData
def x1 := (at9 (wA 10 3 0 true 1) fun x => { x with flags := 0xF1C5 })
def x2 := (at9 (wA 10 0 4 true 2) fun x => { x with flags := 0xF1C5 })
def lm : State := at9 (wA 0x13 3 4 true 0x1FFFC) fun x => { x with scratch := [(28, 1), (31, 9), (32, 7)] }
def sm : State := at9 (wA 0x14 3 4 true 0x1FFFC) fun x => { x with scratch := [(28, 1), (31, 9), (32, 7)] }
theorem wit_CueData :
    (Plain (at9 (wB 8 3 43981) same) 9 (CueI.ldi 3 43981)) ∧
    (Plain (at9 (wB 9 3 43981) same) 9 (CueI.ldh 3 43981)) ∧
    (Plain (at9 (wA 10 3 4 false 0) same) 9 (CueI.mov 3 4)) ∧
    (Plain x1 9 (CueI.movFr 3) ∧ 3 < 16) ∧
    (Plain x2 9 (CueI.movFw 4) ∧ 3 < 16) ∧
    (Plain (at9 (wA 10 3 0 true (2 ^ 16 + 65280)) same) 9 (CueI.movSt 3 255 0) ∧ 255 = 255 ∧ 0 = 0) ∧
    (Plain (at9 (wA 10 3 0 true (2 ^ 16 + 65281)) same) 9 (CueI.movSt 3 255 1) ∧ 255 = 255 ∧ 1 = 1) ∧
    (Plain (at9 (wA 10 3 0 true (2 ^ 16 + 0)) same) 9 (CueI.movSt 3 0 0) ∧ 0 ≠ 255 ∧
      liveItem (at9 (wA 10 3 0 true (2 ^ 16 + 0)) same) (BitVec.toNat (0 : Byte)) (BitVec.toNat (0 : Byte)) = some ((liveItem (at9 (wA 10 3 0 true (2 ^ 16 + 0)) same) 0 0).getD 77)) := by
  unfold Plain Issues Follows
  and_intros <;> decide +kernel
theorem wit_CueData_2 :
    (BitVec.toNat (chSlot (getCh lm 9) 4 + op2Of (getCh lm 9) true (Op2.imm 131068)) % 4 = 0 ∧
      BitVec.toNat (chSlot (getCh lm 9) 4 + op2Of (getCh lm 9) true (Op2.imm 131068)) + 4 ≤ 1024 ∧ Plain lm 9 (CueI.ldm 3 4 (Op2.imm 131068))) ∧
    (BitVec.toNat (chSlot (getCh sm 9) 4 + op2Of (getCh sm 9) true (Op2.imm 131068)) % 4 = 0 ∧
      BitVec.toNat (chSlot (getCh sm 9) 4 + op2Of (getCh sm 9) true (Op2.imm 131068)) + 4 ≤ 1024 ∧ Plain sm 9 (CueI.stm 3 4 (Op2.imm 131068)) ∧
      Memory.wf (getCh sm 9).scratch = true) := by
  unfold Plain Issues Follows
  and_intros <;> decide +kernel
end CueData

namespace CueWaitsAndFlumes
def th1 : State := trk .locked (at9 (wE 0x19 0 0 0 3 1 512) fun x => { x with slots := tset x.slots 1 10 })
def th2 : State := trk .locked (at9 (wE 0x19 0 0 0 3 1 0) fun x => { x with slots := tset x.slots 1 10 })
def evs (x : Channel) : Channel := { x with evq := [⟨1,2,3⟩, ⟨4,5,6⟩] }
def hl (l : List (FlumeId × Nat)) (x : Channel) : Channel := { x with held := l, scratch := [(9, 7)] }
def aRec (k : Nat) : Rec := { kind := k, epoch := 3, src := 9, status := 0, xb := 0, et := 5, body := leBytes 16 1234567 }
def wait (s : State) : State := modHost (fun h => { h with waiting := [⟨aRec 3, .event, 0⟩] }) s
def mb (x : Channel) : Channel := { x with mailbox := [[1,2,3], [4]] }
def x3 := (modFl (spFl 0) (fun x => { x with tally := 1 }) (gr 20 (at9 (wD 0x22 1 0 20 3 0 0) (hl []))))
def x4 := (modFl (spFl 0) (fun x => { x with tally := 1 }) (gr 20 (at9 (wD 0x22 0 0 20 3 0 0) (hl []))))
def act0 : Action := { id := 0, chan := 9, pc := 0, res := 0, op := .fire 0, target := .abs 5, pol := .drop, cpl := false, et := some 5, frozen := true, held := false, late := false, shift := false, slip := false, due := none, destLost := false, done := false, page := none }
def x5 := (at9 (wD 0x35 0 0 0 15 0 0) fun x => { x with actq := [act0] })
theorem wit_CueWaitsAndFlumes :
    (Plain (at9 (wE 24 0 0 0 0 2 0) same) 9 (CueI.waitet 2)) ∧
    (Plain th1 9 (CueI.waitth 3 1 512) ∧ ((getTrk th1 3).st = TrkSt.locked ∨ (getTrk th1 3).st = TrkSt.acquire) ∧
      (¬if (getTrk th1 3).st = TrkSt.locked then trkTarget (getTrk th1 3) (chSlot (getCh th1 9) 1) 512 ≤ ↑(BitVec.toNat th1.cue.et) else 512 = 0 ∧
      BitVec.toInt (chSlot (getCh th1 9) 1 - (getTrk th1 3).index) ≤ 0)) ∧
    (Plain th2 9 (CueI.waitth 3 1 0) ∧ ((getTrk th2 3).st = TrkSt.locked ∨ (getTrk th2 3).st = TrkSt.acquire) ∧
      (if (getTrk th2 3).st = TrkSt.locked then trkTarget (getTrk th2 3) (chSlot (getCh th2 9) 1) 0 ≤ ↑(BitVec.toNat th2.cue.et) else 0 = 0 ∧
      BitVec.toInt (chSlot (getCh th2 9) 1 - (getTrk th2 3).index) ≤ 0)) ∧
    (Plain (at9 (wD 26 0 0 0 0 2 3) same) 9 (CueI.waitev false 2 3) ∧ (getCh (at9 (wD 26 0 0 0 0 2 3) same) 9).evq = []) ∧
    (Plain (at9 (wD 26 1 0 0 0 2 3) evs) 9 (CueI.waitev true 2 3) ∧
      (getCh (at9 (wD 26 1 0 0 0 2 3) evs) 9).evq = [{ upper := 1, code := 2, payload := 3 : ChEvent }, { upper := 4, code := 5, payload := 6 : ChEvent }]) ∧
    (Plain (at9 (wE 27 2 1 0 0 2 0) same) 9 (CueI.at_ 2 true false 2)) ∧
    (Plain (at9 (wE 28 3 0 0 4 5 17) same) 9 (CueI.atth 3 false 4 5 17)) ∧
    (Plain (at9 (wD 32 0 0 0 7 1 0) (hl [])) 9 (CueI.push false 7 1) ∧ (getFl (at9 (wD 32 0 0 0 7 1 0) (hl [])) stgFl).down = false ∧
      BitVec.toNat (chSlot (getCh (at9 (wD 32 0 0 0 7 1 0) (hl [])) 9) 1) % 4 = 0 ∧
      BitVec.toNat (chSlot (getCh (at9 (wD 32 0 0 0 7 1 0) (hl [])) 9) 1) + 16 ≤ 1024 ∧ (heldOn (getCh (at9 (wD 32 0 0 0 7 1 0) (hl [])) 9) stgFl ≠ 0 ∨ openTallies (at9 (wD 32 0 0 0 7 1 0) (hl [])) 9 stgFl ≠ 0 ∧
      ordinaryWaits (at9 (wD 32 0 0 0 7 1 0) (hl [])) = false) ∧ ordinaryWaits (at9 (wD 32 0 0 0 7 1 0) (hl [])) = false) := by
  unfold Plain Issues Follows
  and_intros <;> decide +kernel
theorem wit_CueWaitsAndFlumes_2 :
    (Plain (noT stgFl (at9 (wD 32 1 0 0 7 1 0) (hl []))) 9 (CueI.push true 7 1) ∧
      (getFl (noT stgFl (at9 (wD 32 1 0 0 7 1 0) (hl []))) stgFl).down = false ∧
      BitVec.toNat (chSlot (getCh (noT stgFl (at9 (wD 32 1 0 0 7 1 0) (hl []))) 9) 1) % 4 = 0 ∧
      BitVec.toNat (chSlot (getCh (noT stgFl (at9 (wD 32 1 0 0 7 1 0) (hl []))) 9) 1) + 16 ≤ 1024 ∧
      (¬(heldOn (getCh (noT stgFl (at9 (wD 32 1 0 0 7 1 0) (hl []))) 9) stgFl ≠ 0 ∨
      openTallies (noT stgFl (at9 (wD 32 1 0 0 7 1 0) (hl []))) 9 stgFl ≠ 0 ∧
      ordinaryWaits (noT stgFl (at9 (wD 32 1 0 0 7 1 0) (hl []))) = false))) ∧
    (Plain (wait (at9 (wD 32 1 0 0 7 1 0) (hl [(stgFl, 2)]))) 9 (CueI.push true 7 1) ∧
      (getFl (wait (at9 (wD 32 1 0 0 7 1 0) (hl [(stgFl, 2)]))) stgFl).down = false ∧
      BitVec.toNat (chSlot (getCh (wait (at9 (wD 32 1 0 0 7 1 0) (hl [(stgFl, 2)]))) 9) 1) % 4 = 0 ∧
      BitVec.toNat (chSlot (getCh (wait (at9 (wD 32 1 0 0 7 1 0) (hl [(stgFl, 2)]))) 9) 1) + 16 ≤ 1024 ∧
      (heldOn (getCh (wait (at9 (wD 32 1 0 0 7 1 0) (hl [(stgFl, 2)]))) 9) stgFl ≠ 0 ∨
      openTallies (wait (at9 (wD 32 1 0 0 7 1 0) (hl [(stgFl, 2)]))) 9 stgFl ≠ 0 ∧
      ordinaryWaits (wait (at9 (wD 32 1 0 0 7 1 0) (hl [(stgFl, 2)]))) = false) ∧
      ordinaryWaits (wait (at9 (wD 32 1 0 0 7 1 0) (hl [(stgFl, 2)]))) = true) ∧
    (Plain (at9 (wD 33 1 0 0 0 1 0) same) 9 (CueI.pop true 1) ∧ (getFl (at9 (wD 33 1 0 0 0 1 0) same) (mbxFl 9)).down = false ∧
      BitVec.toNat (chSlot (getCh (at9 (wD 33 1 0 0 0 1 0) same) 9) 1) % 4 = 0 ∧
      BitVec.toNat (chSlot (getCh (at9 (wD 33 1 0 0 0 1 0) same) 9) 1) + 64 ≤ 1024 ∧ (getCh (at9 (wD 33 1 0 0 0 1 0) same) 9).mailbox = []) ∧
    (Plain (at9 (wD 33 1 0 0 0 1 0) mb) 9 (CueI.pop true 1) ∧ (getFl (at9 (wD 33 1 0 0 0 1 0) mb) (mbxFl 9)).down = false ∧
      BitVec.toNat (chSlot (getCh (at9 (wD 33 1 0 0 0 1 0) mb) 9) 1) % 4 = 0 ∧
      BitVec.toNat (chSlot (getCh (at9 (wD 33 1 0 0 0 1 0) mb) 9) 1) + 64 ≤ 1024 ∧
      (getCh (at9 (wD 33 1 0 0 0 1 0) mb) 9).mailbox = [[1, 2, 3], [4]]) ∧
    (Plain (gr 20 (at9 (wD 34 1 0 20 3 0 0) (hl [(spFl 0, 1)]))) 9 (CueI.take true 20 3) ∧ takeFlume 9 (BitVec.toNat (20 : Byte)) = some (spFl 0) ∧
      takeUngranted (gr 20 (at9 (wD 34 1 0 20 3 0 0) (hl [(spFl 0, 1)]))) 9 (BitVec.toNat (20 : Byte)) = false ∧ 1 ≤ BitVec.toNat (3 : Byte) ∧
      BitVec.toNat (3 : Byte) ≤ 16 ∧ takeOver (gr 20 (at9 (wD 34 1 0 20 3 0 0) (hl [(spFl 0, 1)]))) (getCh (gr 20 (at9 (wD 34 1 0 20 3 0 0) (hl [(spFl 0, 1)]))) 9) (spFl 0) (BitVec.toNat (3 : Byte)) = false ∧ (getFl (gr 20 (at9 (wD 34 1 0 20 3 0 0) (hl [(spFl 0, 1)]))) (spFl 0)).down = false ∧ (getCh (gr 20 (at9 (wD 34 1 0 20 3 0 0) (hl [(spFl 0, 1)]))) 9).taking = none ∧ min (BitVec.toNat (3 : Byte)) (openTallies (gr 20 (at9 (wD 34 1 0 20 3 0 0) (hl [(spFl 0, 1)]))) 9 (spFl 0)) = BitVec.toNat (3 : Byte) ∧ (∃ g : FlumeId, g ≠ spFl 0)) ∧
    (Plain x3 9 (CueI.take true 20 3) ∧ takeFlume 9 (BitVec.toNat (20 : Byte)) = some (spFl 0) ∧
      takeUngranted x3 9 (BitVec.toNat (20 : Byte)) = false ∧ 1 ≤ BitVec.toNat (3 : Byte) ∧ BitVec.toNat (3 : Byte) ≤ 16 ∧
      takeOver x3 (getCh x3 9) (spFl 0) (BitVec.toNat (3 : Byte)) = false ∧ (getFl x3 (spFl 0)).down = false ∧ (getCh x3 9).taking = none ∧
      min (BitVec.toNat (3 : Byte)) (openTallies x3 9 (spFl 0)) < BitVec.toNat (3 : Byte) ∧ true = true) ∧
    (Plain x4 9 (CueI.take false 20 3) ∧ takeFlume 9 (BitVec.toNat (20 : Byte)) = some (spFl 0) ∧
      takeUngranted x4 9 (BitVec.toNat (20 : Byte)) = false ∧ 1 ≤ BitVec.toNat (3 : Byte) ∧ BitVec.toNat (3 : Byte) ≤ 16 ∧
      takeOver x4 (getCh x4 9) (spFl 0) (BitVec.toNat (3 : Byte)) = false ∧ (getFl x4 (spFl 0)).down = false ∧ (getCh x4 9).taking = none ∧
      min (BitVec.toNat (3 : Byte)) (openTallies x4 9 (spFl 0)) < BitVec.toNat (3 : Byte) ∧ false = false ∧ (∃ g : FlumeId, g ≠ spFl 0)) ∧
    (Plain (gr 20 (at9 (wD 35 0 0 20 3 0 0) (hl [(3, 1), (spFl 0, 3)]))) 9 (CueI.give 20 3) ∧
      takeFlume 9 (BitVec.toNat (20 : Byte)) = some (spFl 0) ∧
      takeUngranted (gr 20 (at9 (wD 35 0 0 20 3 0 0) (hl [(3, 1), (spFl 0, 3)]))) 9 (BitVec.toNat (20 : Byte)) = false ∧
      1 ≤ BitVec.toNat (3 : Byte) ∧ BitVec.toNat (3 : Byte) ≤ 16 ∧
      BitVec.toNat (3 : Byte) ≤ heldOn (getCh (gr 20 (at9 (wD 35 0 0 20 3 0 0) (hl [(3, 1), (spFl 0, 3)]))) 9) (spFl 0) ∧
      (getFl (gr 20 (at9 (wD 35 0 0 20 3 0 0) (hl [(3, 1), (spFl 0, 3)]))) (spFl 0)).down = false ∧ (∃ g : FlumeId, g ≠ spFl 0)) := by
  unfold Plain Issues Follows
  and_intros <;> decide +kernel
theorem wit_CueWaitsAndFlumes_3 :
    (Plain (at9 (wD 53 0 0 0 15 0 0) same) 9 (CueI.fence 15) ∧ fenceDown (at9 (wD 53 0 0 0 15 0 0) same) 9 15 = false ∧
      ((BitVec.getLsbD (15 : BitVec 4) 0 = true → (getCh (at9 (wD 53 0 0 0 15 0 0) same) 9).actq = []) ∧
      (BitVec.getLsbD (15 : BitVec 4) 1 = true → segsOf (at9 (wD 53 0 0 0 15 0 0) same) 9 = false) ∧
      (BitVec.getLsbD (15 : BitVec 4) 2 = true → spsOf (at9 (wD 53 0 0 0 15 0 0) same) 9 = false) ∧
      (BitVec.getLsbD (15 : BitVec 4) 3 = true → userOf (at9 (wD 53 0 0 0 15 0 0) same) 9 = false))) ∧
    (Plain x5 9 (CueI.fence 15) ∧ fenceDown x5 9 15 = false ∧ (¬((BitVec.getLsbD (15 : BitVec 4) 0 = true → (getCh x5 9).actq = []) ∧
      (BitVec.getLsbD (15 : BitVec 4) 1 = true → segsOf x5 9 = false) ∧ (BitVec.getLsbD (15 : BitVec 4) 2 = true → spsOf x5 9 = false) ∧
      (BitVec.getLsbD (15 : BitVec 4) 3 = true → userOf x5 9 = false)))) ∧
    (Plain (at9 (BitVec.ofNat 32 (60 * 2 ^ 26 + 2 * 2 ^ 16 + 21778)) same) 9 (CueI.log 2 85 1 2) ∧
      openTallies (at9 (BitVec.ofNat 32 (60 * 2 ^ 26 + 2 * 2 ^ 16 + 21778)) same) 9 logFl ≠ 0 ∧
      (at9 (BitVec.ofNat 32 (60 * 2 ^ 26 + 2 * 2 ^ 16 + 21778)) same).lg.latches = []) ∧
    (Plain (noT logFl (at9 (BitVec.ofNat 32 (60 * 2 ^ 26 + 2 * 2 ^ 16 + 21778)) same)) 9 (CueI.log 2 85 1 2) ∧
      (openTallies (noT logFl (at9 (BitVec.ofNat 32 (60 * 2 ^ 26 + 2 * 2 ^ 16 + 21778)) same)) 9 logFl = 0 ∨
      (noT logFl (at9 (BitVec.ofNat 32 (60 * 2 ^ 26 + 2 * 2 ^ 16 + 21778)) same)).lg.latches ≠ [])) := by
  unfold Plain Issues Follows
  and_intros <;> decide +kernel
end CueWaitsAndFlumes

namespace CueFaults
def bothPol (x : Channel) : Channel := { x with entry := { x.entry with handlerPol := true, handler := 8 } }
def pf (x : Channel) : Channel := { x with pfx := some ⟨.abs 2000, 2, true⟩ }
def x1 := (at9 0 fun x => { x with pc := ⟨false, 16⟩ })
def x3 := (at9 0 fun x => { x with prog := [0] })
def ts : BitVec 21 := 0x100000
/-- The CueLib image ends in the middle of its second word; HALT in the last word of the program. -/
def shortLib : State := let s := at9 (BitVec.ofNat 32 (3 * 2 ^ 26 + 2 ^ 21 + 1)) same
  { s with boot := { s.boot with cuelib := some ⟨[], List.replicate 6 0, []⟩ } }
def lastHalt : State := at9 (wB 6 0 0) fun x => { x with prog := [wB 6 0 0] }
def x4 := (at9 (wB 3 0 2) fun x => { x with stack := List.replicate 4 ⟨false, 0⟩ })
def x5 := (at9 (wD 0x20 0 0 0 7 1 0) fun x => { x with slots := tset x.slots 1 1010 })
def x6 := (at9 (wD 0x21 0 0 0 0 1 0) fun x => { x with slots := tset x.slots 1 1010 })
theorem wit_CueFaults :
    (canIssue (at9 4294967295 same) 9 = true ∧ presentI (at9 4294967295 same) 9 = some none) ∧
    (canIssue x1 9 = true ∧ presentI x1 9 = none) ∧
    (Issues (at9 (wD 61 0 0 0 5 0 0) same) 9 (CueI.trap 5) ∧ (getCh (at9 (wD 61 0 0 0 5 0 0) same) 9).pfx = none) ∧
    (Issues (at9 (wD 61 0 0 0 5 0 0) pf) 9 (CueI.trap 5) ∧ (getCh (at9 (wD 61 0 0 0 5 0 0) pf) 9).pfx.isSome = true ∧ timable (CueI.trap 5) = false) ∧
    (presentI (at9 (wB 6 0 0) pf) 9 = some (some CueI.halt) ∧ rowOf CueI.halt 9 0 ≠ rowOf CueI.nop 9 0) ∧
    (canIssue (chIs ChSt.halted (at9 (wB 6 0 0) pf)) 9 = false) ∧
    ((getCh x3 9).pfx = none ∧ Issues x3 9 CueI.nop ∧ (¬Follows x3 9)) ∧
    ((getCh (at9 (wB 1 0 1048576) bothPol) 9).pfx = none ∧ Issues (at9 (wB 1 0 1048576) bothPol) 9 (CueI.jmp ts) ∧
      inRegion (at9 (wB 1 0 1048576) bothPol) 9 (getCh (at9 (wB 1 0 1048576) bothPol) 9).pc.lib (branchOff (getCh (at9 (wB 1 0 1048576) bothPol) 9) ts) = false) := by
  unfold Issues Follows
  and_intros <;> decide +kernel
theorem wit_CueFaults_2 :
    ((getCh x4 9).pfx = none ∧ Issues x4 9 (CueI.call false 2) ∧ 4 ≤ (getCh x4 9).stack.length) ∧
    ((getCh (at9 (BitVec.ofNat 32 (3 * 2 ^ 26 + 2 ^ 21 + 15)) same) 9).pfx = none ∧
      Issues (at9 (BitVec.ofNat 32 (3 * 2 ^ 26 + 2 ^ 21 + 15)) same) 9 (CueI.call true 15) ∧
      (getCh (at9 (BitVec.ofNat 32 (3 * 2 ^ 26 + 2 ^ 21 + 15)) same) 9).stack.length < 4 ∧
      libLen (at9 (BitVec.ofNat 32 (3 * 2 ^ 26 + 2 ^ 21 + 15)) same) ≤ 4 * BitVec.toNat (15 : BitVec 21)) ∧
    (Issues shortLib 9 (CueI.call true 1) ∧ (getCh shortLib 9).pfx = none ∧ (getCh shortLib 9).stack.length < 4 ∧
      4 * BitVec.toNat (1 : BitVec 21) < libLen shortLib ∧ inRegion shortLib 9 true ↑(4 * BitVec.toNat (1 : BitVec 21)) = false) ∧
    (Issues lastHalt 9 CueI.halt ∧ (getCh lastHalt 9).pfx = none ∧ pcrit lastHalt 9 = false ∧ ¬Follows lastHalt 9) ∧
    ((getCh (at9 (wB 4 0 0) same) 9).pfx = none ∧ Issues (at9 (wB 4 0 0) same) 9 CueI.ret ∧ (getCh (at9 (wB 4 0 0) same) 9).stack = []) ∧
    ((getCh (paged PlanSt.admitted (at9 (wB 6 0 0) same)) 9).pfx = none ∧ Issues (paged PlanSt.admitted (at9 (wB 6 0 0) same)) 9 CueI.halt ∧
      pcrit (paged PlanSt.admitted (at9 (wB 6 0 0) same)) 9 = true) ∧
    ((getCh (at9 (wA 10 3 0 true (2 ^ 16 + 65282)) same) 9).pfx = none ∧
      Issues (at9 (wA 10 3 0 true (2 ^ 16 + 65282)) same) 9 (CueI.movSt 3 255 2) ∧
      (255 ≠ 255 → liveItem (at9 (wA 10 3 0 true (2 ^ 16 + 65282)) same) (BitVec.toNat (255 : Byte)) (BitVec.toNat (2 : Byte)) = none) ∧
      (255 = 255 → 2 ≠ 0 ∧ 2 ≠ 1)) ∧
    ((getCh (at9 (wA 19 3 4 true 2) same) 9).pfx = none ∧ (Issues (at9 (wA 19 3 4 true 2) same) 9 (CueI.ldm 3 4 (Op2.imm 2)) ∨
      Issues (at9 (wA 19 3 4 true 2) same) 9 (CueI.stm 3 4 (Op2.imm 2))) ∧
      (BitVec.toNat (chSlot (getCh (at9 (wA 19 3 4 true 2) same) 9) 4 + op2Of (getCh (at9 (wA 19 3 4 true 2) same) 9) true (Op2.imm 2)) % 4 ≠ 0 ∨
      1024 < BitVec.toNat (chSlot (getCh (at9 (wA 19 3 4 true 2) same) 9) 4 + op2Of (getCh (at9 (wA 19 3 4 true 2) same) 9) true (Op2.imm 2)) + 4) ∧
      Issues (at9 (wA 19 3 4 true 2) same) 9 (CueI.ldm 3 4 (Op2.imm 2))) ∧
    ((getCh (at9 (wA 20 3 4 true 1020) same) 9).pfx = none ∧ (Issues (at9 (wA 20 3 4 true 1020) same) 9 (CueI.ldm 3 4 (Op2.imm 1020)) ∨
      Issues (at9 (wA 20 3 4 true 1020) same) 9 (CueI.stm 3 4 (Op2.imm 1020))) ∧
      (BitVec.toNat (chSlot (getCh (at9 (wA 20 3 4 true 1020) same) 9) 4 + op2Of (getCh (at9 (wA 20 3 4 true 1020) same) 9) true (Op2.imm 1020)) % 4 ≠ 0 ∨ 1024 < BitVec.toNat (chSlot (getCh (at9 (wA 20 3 4 true 1020) same) 9) 4 + op2Of (getCh (at9 (wA 20 3 4 true 1020) same) 9) true (Op2.imm 1020)) + 4) ∧ Issues (at9 (wA 20 3 4 true 1020) same) 9 (CueI.stm 3 4 (Op2.imm 1020))) ∧
    ((getCh (trk TrkSt.lost (at9 (wE 25 0 0 0 3 1 512) same)) 9).pfx = none ∧
      Issues (trk TrkSt.lost (at9 (wE 25 0 0 0 3 1 512) same)) 9 (CueI.waitth 3 1 512) ∧
      ((getTrk (trk TrkSt.lost (at9 (wE 25 0 0 0 3 1 512) same)) 3).st = TrkSt.off ∨
      (getTrk (trk TrkSt.lost (at9 (wE 25 0 0 0 3 1 512) same)) 3).st = TrkSt.lost)) := by
  unfold Issues Follows
  and_intros <;> decide +kernel
theorem wit_CueFaults_3 :
    ((getCh x5 9).pfx = none ∧ Issues x5 9 (CueI.push false 7 1) ∧ (BitVec.toNat (chSlot (getCh x5 9) 1) % 4 ≠ 0 ∨
      1024 < BitVec.toNat (chSlot (getCh x5 9) 1) + 16)) ∧
    ((getCh (downF stgFl (at9 (wD 32 0 0 0 7 1 0) bothPol)) 9).pfx = none ∧
      Issues (downF stgFl (at9 (wD 32 0 0 0 7 1 0) bothPol)) 9 (CueI.push false 7 1) ∧
      BitVec.toNat (chSlot (getCh (downF stgFl (at9 (wD 32 0 0 0 7 1 0) bothPol)) 9) 1) % 4 = 0 ∧
      BitVec.toNat (chSlot (getCh (downF stgFl (at9 (wD 32 0 0 0 7 1 0) bothPol)) 9) 1) + 16 ≤ 1024 ∧
      (getFl (downF stgFl (at9 (wD 32 0 0 0 7 1 0) bothPol)) stgFl).down = true) ∧
    ((getCh x6 9).pfx = none ∧ Issues x6 9 (CueI.pop false 1) ∧ (BitVec.toNat (chSlot (getCh x6 9) 1) % 4 ≠ 0 ∨
      1024 < BitVec.toNat (chSlot (getCh x6 9) 1) + 64)) ∧
    ((getCh (downF (mbxFl 9) (at9 (wD 33 0 0 0 0 1 0) bothPol)) 9).pfx = none ∧
      Issues (downF (mbxFl 9) (at9 (wD 33 0 0 0 0 1 0) bothPol)) 9 (CueI.pop false 1) ∧
      BitVec.toNat (chSlot (getCh (downF (mbxFl 9) (at9 (wD 33 0 0 0 0 1 0) bothPol)) 9) 1) % 4 = 0 ∧
      BitVec.toNat (chSlot (getCh (downF (mbxFl 9) (at9 (wD 33 0 0 0 0 1 0) bothPol)) 9) 1) + 64 ≤ 1024 ∧
      (getFl (downF (mbxFl 9) (at9 (wD 33 0 0 0 0 1 0) bothPol)) (mbxFl 9)).down = true) ∧
    ((getCh (at9 (wD 34 0 0 70 1 0 0) bothPol) 9).pfx = none ∧ Issues (at9 (wD 34 0 0 70 1 0 0) bothPol) 9 (CueI.take false 70 1) ∧
      takeFlume 9 (BitVec.toNat (70 : Byte)) = none) ∧
    ((getCh (at9 (wD 34 0 0 20 1 0 0) bothPol) 9).pfx = none ∧ Issues (at9 (wD 34 0 0 20 1 0 0) bothPol) 9 (CueI.take false 20 1) ∧
      takeFlume 9 (BitVec.toNat (20 : Byte)) = some (spFl 0) ∧ takeUngranted (at9 (wD 34 0 0 20 1 0 0) bothPol) 9 (BitVec.toNat (20 : Byte)) = true) ∧
    ((getCh (gr 20 (at9 (wD 34 0 0 20 0 0 0) bothPol)) 9).pfx = none ∧ Issues (gr 20 (at9 (wD 34 0 0 20 0 0 0) bothPol)) 9 (CueI.take false 20 0) ∧
      takeFlume 9 (BitVec.toNat (20 : Byte)) = some (spFl 0) ∧
      takeUngranted (gr 20 (at9 (wD 34 0 0 20 0 0 0) bothPol)) 9 (BitVec.toNat (20 : Byte)) = false ∧ (BitVec.toNat (0 : Byte) = 0 ∨
      16 < BitVec.toNat (0 : Byte) ∨ takeOver (gr 20 (at9 (wD 34 0 0 20 0 0 0) bothPol)) (getCh (gr 20 (at9 (wD 34 0 0 20 0 0 0) bothPol)) 9) (spFl 0) (BitVec.toNat (0 : Byte)) = true)) ∧
    ((getCh (gr 20 (downF (spFl 0) (at9 (wD 34 0 0 20 2 0 0) bothPol))) 9).pfx = none ∧
      Issues (gr 20 (downF (spFl 0) (at9 (wD 34 0 0 20 2 0 0) bothPol))) 9 (CueI.take false 20 2) ∧
      takeFlume 9 (BitVec.toNat (20 : Byte)) = some (spFl 0) ∧
      takeUngranted (gr 20 (downF (spFl 0) (at9 (wD 34 0 0 20 2 0 0) bothPol))) 9 (BitVec.toNat (20 : Byte)) = false ∧ 1 ≤ BitVec.toNat (2 : Byte) ∧
      BitVec.toNat (2 : Byte) ≤ 16 ∧ takeOver (gr 20 (downF (spFl 0) (at9 (wD 34 0 0 20 2 0 0) bothPol))) (getCh (gr 20 (downF (spFl 0) (at9 (wD 34 0 0 20 2 0 0) bothPol))) 9) (spFl 0) (BitVec.toNat (2 : Byte)) = false ∧ (getFl (gr 20 (downF (spFl 0) (at9 (wD 34 0 0 20 2 0 0) bothPol))) (spFl 0)).down = true) := by
  unfold Issues
  and_intros <;> decide +kernel
theorem wit_CueFaults_4 :
    ((getCh (at9 (wD 35 0 0 70 1 0 0) bothPol) 9).pfx = none ∧ Issues (at9 (wD 35 0 0 70 1 0 0) bothPol) 9 (CueI.give 70 1) ∧
      takeFlume 9 (BitVec.toNat (70 : Byte)) = none) ∧
    ((getCh (at9 (wD 35 0 0 20 1 0 0) bothPol) 9).pfx = none ∧ Issues (at9 (wD 35 0 0 20 1 0 0) bothPol) 9 (CueI.give 20 1) ∧
      takeFlume 9 (BitVec.toNat (20 : Byte)) = some (spFl 0) ∧ takeUngranted (at9 (wD 35 0 0 20 1 0 0) bothPol) 9 (BitVec.toNat (20 : Byte)) = true) ∧
    ((getCh (gr 20 (at9 (wD 35 0 0 20 1 0 0) bothPol)) 9).pfx = none ∧ Issues (gr 20 (at9 (wD 35 0 0 20 1 0 0) bothPol)) 9 (CueI.give 20 1) ∧
      takeFlume 9 (BitVec.toNat (20 : Byte)) = some (spFl 0) ∧
      takeUngranted (gr 20 (at9 (wD 35 0 0 20 1 0 0) bothPol)) 9 (BitVec.toNat (20 : Byte)) = false ∧ (BitVec.toNat (1 : Byte) = 0 ∨
      16 < BitVec.toNat (1 : Byte) ∨ heldOn (getCh (gr 20 (at9 (wD 35 0 0 20 1 0 0) bothPol)) 9) (spFl 0) < BitVec.toNat (1 : Byte))) ∧
    (domUp up 3 = true) := by
  unfold Issues
  and_intros <;> decide +kernel
theorem wit_CueFaults_word : (presentI (at9 (wA 10 3 0 true (2 ^ 16 + 65282)) same) 9).map (·.isSome) = some true := by decide +kernel
end CueFaults

namespace TimedEngineInstructions
def fire (p : Pfx) : State := gr 84 (at9 (wD 0x2E 0 0 84 0 0 0) (pfx p.target p.pol p.cpl))
def pa (t : Nat) (pol : BitVec 2) : Pfx := ⟨.abs t, pol, true⟩
def pt (n : Word) (ph : BitVec 10) (pol : BitVec 2) : Pfx := ⟨.tooth 3 n ph, pol, false⟩
def opF : ActOp := .fire 0
def f1 : State := fire (pa 2000 1)
def f2 : State := fire (pa 1008 2)
def f3 : State := trk .locked (fire (pt 11 512 0))
def f4 : State := trk .locked (fire (pt 9 512 0))
def f5 : State := trk .acquire (fire (pt 9 0 0))
def f6 : State := trk .acquire (fire (pt 12 1 0))
def f7 : State := trk .lost (fire (pt 12 1 0))
def f8 : State := noT (actFl 9) f1
def f9 : State := downF (actFl 9) f1
def fp : State := paged .admitted f1
theorem form_f1 : EngineForm f1 9 (CueI.fire false 84) opF := ⟨0, rfl, by decide +kernel, ⟨fun h => (nomatch h), fun _ => by decide +kernel⟩, rfl⟩
theorem form_f3 : EngineForm f3 9 (CueI.fire false 84) opF := ⟨0, rfl, by decide +kernel, ⟨fun h => (nomatch h), fun _ => by decide +kernel⟩, rfl⟩
theorem form_f6 : EngineForm f6 9 (CueI.fire false 84) opF := ⟨0, rfl, by decide +kernel, ⟨fun h => (nomatch h), fun _ => by decide +kernel⟩, rfl⟩
theorem form_f7 : EngineForm f7 9 (CueI.fire false 84) opF := ⟨0, rfl, by decide +kernel, ⟨fun h => (nomatch h), fun _ => by decide +kernel⟩, rfl⟩
theorem form_f8 : EngineForm f8 9 (CueI.fire false 84) opF := ⟨0, rfl, by decide +kernel, ⟨fun h => (nomatch h), fun _ => by decide +kernel⟩, rfl⟩
theorem form_f9 : EngineForm f9 9 (CueI.fire false 84) opF := ⟨0, rfl, by decide +kernel, ⟨fun h => (nomatch h), fun _ => by decide +kernel⟩, rfl⟩
theorem form_fp : EngineForm fp 9 (CueI.fire false 84) opF := ⟨0, rfl, by decide +kernel, ⟨fun h => (nomatch h), fun _ => by decide +kernel⟩, rfl⟩
theorem wit_TimedEngineInstructions :
    (Issues f1 9 (CueI.fire false 84) ∧ Follows f1 9 ∧ (getCh f1 9).pfx = some (pa 2000 1) ∧ ActsOk f1 ∧
      (((timedFlumes f1 9 opF).all fun (f : FlumeId) => !(getFl f1 f).down) = true ∧ (timedFlumes f1 9 opF).all (roomIn f1 9) = true) ∧
      (pa 2000 1).target = Target.abs 2000 ∧ BitVec.toNat f1.cue.et + 8 < 2000) ∧
    (Issues f3 9 (CueI.fire false 84) ∧ Follows f3 9 ∧ (getCh f3 9).pfx = some (pt 11 512 0) ∧ ActsOk f3 ∧
      (((timedFlumes f3 9 opF).all fun (f : FlumeId) => !(getFl f3 f).down) = true ∧ (timedFlumes f3 9 opF).all (roomIn f3 9) = true) ∧
      (pt 11 512 0).target = Target.tooth 3 11 512 ∧ (getTrk f3 3).st = TrkSt.locked ∧
      ↑(BitVec.toNat f3.cue.et) + 8 < trkTarget (getTrk f3 3) 11 512) ∧
    (Issues f6 9 (CueI.fire false 84) ∧ Follows f6 9 ∧ (getCh f6 9).pfx = some (pt 12 1 0) ∧ ActsOk f6 ∧
      (((timedFlumes f6 9 opF).all fun (f : FlumeId) => !(getFl f6 f).down) = true ∧ (timedFlumes f6 9 opF).all (roomIn f6 9) = true) ∧
      (pt 12 1 0).target = Target.tooth 3 12 1 ∧ (getTrk f6 3).st = TrkSt.acquire ∧ (¬(1 = 0 ∧ toothStarted (getTrk f6 3) 12 = true))) ∧
    (Issues f7 9 (CueI.fire false 84) ∧ Follows f7 9 ∧ (getCh f7 9).pfx = some (pt 12 1 0) ∧ ActsOk f7 ∧
      (((timedFlumes f7 9 opF).all fun (f : FlumeId) => !(getFl f7 f).down) = true ∧ (timedFlumes f7 9 opF).all (roomIn f7 9) = true) ∧
      (pt 12 1 0).target = Target.tooth 3 12 1 ∧ ((getTrk f7 3).st = TrkSt.off ∨ (getTrk f7 3).st = TrkSt.lost)) ∧
    (Issues f8 9 (CueI.fire false 84) ∧ Follows f8 9 ∧ (getCh f8 9).pfx = some (pa 2000 1) ∧ ActsOk f8 ∧
      ((timedFlumes f8 9 opF).all fun (f : FlumeId) => !(getFl f8 f).down) = true ∧ (timedFlumes f8 9 opF).all (roomIn f8 9) = false) ∧
    (Issues f9 9 (CueI.fire false 84) ∧ Follows f9 9 ∧ (getCh f9 9).pfx = some (pa 2000 1) ∧ ActsOk f9 ∧
      ((timedFlumes f9 9 opF).all fun (f : FlumeId) => !(getFl f9 f).down) = false) ∧
    (Issues fp 9 (CueI.fire false 84) ∧ Follows fp 9 ∧ (getCh fp 9).pfx = some (pa 2000 1) ∧ ActsOk fp) := by
  unfold Issues Follows ActsOk
  and_intros <;> decide +kernel
/-- Late targets: an absolute tick, a tooth of a locked tracker, a tooth of an acquiring one that has started. -/
theorem wit_TimedEngineInstructions_late :
    ((pa 1008 2).target = .abs 1008 ∧ 1008 ≤ f2.cue.et.toNat + 8 ∧ (timedFlumes f2 9 opF).all (roomIn f2 9) = true) ∧
    ((pt 9 512 0).target = .tooth 3 9 512 ∧ (getTrk f4 3).st = .locked ∧ trkTarget (getTrk f4 3) 9 512 ≤ (f4.cue.et.toNat : Int) + 8) ∧
    ((pt 9 0 0).target = .tooth 3 9 0 ∧ (getTrk f5 3).st = .acquire ∧ toothStarted (getTrk f5 3) 9 = true) ∧
    pcrit fp 9 = true ∧ pcrit f1 9 = false := by
  and_intros <;> decide +kernel
end TimedEngineInstructions

namespace UntimedEngineInstructionsAndFaults
def f1 : State := gr 84 (at9 (wD 0x2E 0 0 84 0 0 0) same)
def st : State := gr 88 (at9 (wD 0x2F 0 0 88 0 0 0) same)
def sc : State := gr 0 (gr 89 (at9 (wD 0x30 0 0 89 1 0 0) same))
def sg : State := (at9 (wD 0x34 0 0 0 5 2 3) same)
def mx : State := gr 3 (at9 (wD 0x29 1 1 3 0 1 0) fun x => { expert x with scratch := memWrite [] 8 segDesc })
def mxn : State := gr 3 (at9 (wD 0x29 1 1 3 0 1 0) same)
def loopKind (k : BitVec 3) (st : LoopSt) (s : State) : State := modLoop 2 (fun x => { x with kind := k, inp := 0, st := st, u := 7, sp := 5, q := [⟨3, none, 9, 0⟩] }) s
def ls : State := loopKind 4 .run (gr 22 (at9 (wD 0x2A 1 1 22 0 1 0) expert))
def gainDesc : List Byte := leBytes 2 1 ++ leBytes 2 2 ++ leBytes 2 3 ++ [0,0] ++ leBytes 4 2000 ++ leBytes 4 10 ++ leBytes 2 1 ++ leBytes 2 4000 ++ leBytes 2 5 ++ [3, 20] ++ leBytes 2 6 ++ [2, 7, 0,0,0,0]
/-- The slot is in COOL. -/
def lsOff : State := loopKind 4 .cool (gr 22 (at9 (wD 0x2A 1 1 22 0 1 0) expert))
def lo : State := loopKind 4 .off (gr 22 (at9 (wD 0x2C 1 1 22 0 1 0) fun x => { expert x with scratch := memWrite [] 8 gainDesc }))
def lon : State := loopKind 4 .run lo
def lod : State := loopKind 7 .off lo
def lf (k : Bool) : State := loopKind (if k then 4 else 1) .run (gr 22 (at9 (wD 0x2D 1 0 22 0 0 0) same))
def lfo : State := loopKind 1 .cool (lf true)
def gp : State := gr 95 (at9 (wD 0x2A 1 0 95 0 1 0) same)
def sg2 : State := modCue (fun q => { q with ch := tmod q.ch 16 fun x => { x with st := .running } }) (at9 (wD 0x34 1 0 0 5 2 3) same)
def sg3 : State := { modCue (fun q => { q with ch := tmod q.ch 9 fun x => { x with slots := tset x.slots 2 70 } }) sg2 with skid := { manager.skid with dir := [70] } }
def mb : State := gr 17 (at9 (wD 0x29 1 1 17 0 1 0) fun x => { expert x with scratch := memWrite [] 8 (leBytes 4 3000 ++ leBytes 4 100 ++ leBytes 2 100 ++ [0,0,0,0,0,0]) })
def bseg : Segment := (movxSeg mb 9 17 (memRead (getCh mb 9).scratch 8 16)).getD theSeg
theorem form_mx : EngineForm mx 9 (.movx true 3 1) (.seg 3 theSeg true) := ⟨3, theSeg, rfl, by decide +kernel, ⟨fun _ => by decide +kernel, fun h => (nomatch h)⟩, by decide +kernel, by decide +kernel, rfl⟩
theorem form_mxn : EngineForm (noT (motFl 3) mx) 9 (.movx true 3 1) (.seg 3 theSeg true) := ⟨3, theSeg, rfl, by decide +kernel, ⟨fun _ => by decide +kernel, fun h => (nomatch h)⟩, by decide +kernel, by decide +kernel, rfl⟩
theorem form_mxd : EngineForm (downF (motFl 3) mx) 9 (.movx true 3 1) (.seg 3 theSeg true) := ⟨3, theSeg, rfl, by decide +kernel, ⟨fun _ => by decide +kernel, fun h => (nomatch h)⟩, by decide +kernel, by decide +kernel, rfl⟩
theorem form_ls : EngineForm ls 9 (.setp true true 22 1) (.setp 2 { target := 8, rate := none, chan := 9, pc := 0 }) := .inl ⟨2, rfl, by decide +kernel, ⟨fun _ => by decide +kernel, fun h => (nomatch h)⟩, by decide +kernel, by decide +kernel, by decide +kernel⟩
theorem form_lsOff : EngineForm lsOff 9 (.setp true true 22 1) (.setp 2 { target := 8, rate := none, chan := 9, pc := 0 }) := .inl ⟨2, rfl, by decide +kernel, ⟨fun _ => by decide +kernel, fun h => (nomatch h)⟩, by decide +kernel, by decide +kernel, by decide +kernel⟩
theorem form_lo : EngineForm lo 9 (.loopon true true 22 0 1) (.loopon 2 (gainsOf gainDesc)) := ⟨2, gainsOf gainDesc, rfl, by decide +kernel, ⟨fun _ => by decide +kernel, fun h => (nomatch h)⟩, fun _ => ⟨by decide +kernel, by decide +kernel, by decide +kernel⟩, fun h => (nomatch h), rfl⟩
theorem form_lon : EngineForm lon 9 (.loopon true true 22 0 1) (.loopon 2 (gainsOf gainDesc)) := ⟨2, gainsOf gainDesc, rfl, by decide +kernel, ⟨fun _ => by decide +kernel, fun h => (nomatch h)⟩, fun _ => ⟨by decide +kernel, by decide +kernel, by decide +kernel⟩, fun h => (nomatch h), rfl⟩
theorem form_lod : EngineForm lod 9 (.loopon true true 22 0 1) (.loopon 2 (gainsOf gainDesc)) := ⟨2, gainsOf gainDesc, rfl, by decide +kernel, ⟨fun _ => by decide +kernel, fun h => (nomatch h)⟩, fun _ => ⟨by decide +kernel, by decide +kernel, by decide +kernel⟩, fun h => (nomatch h), rfl⟩
theorem form_lf : EngineForm (lf true) 9 (.loopoff true 22) (.loopoff 2) := ⟨2, rfl, by decide +kernel, ⟨fun h => (nomatch h), fun _ => by decide +kernel⟩, rfl⟩
theorem form_lfo : EngineForm lfo 9 (.loopoff true 22) (.loopoff 2) := ⟨2, rfl, by decide +kernel, ⟨fun h => (nomatch h), fun _ => by decide +kernel⟩, rfl⟩
theorem form_gp : EngineForm gp 9 (.setp true false 95 1) (.gpio 5 false false) := .inr ⟨5, rfl, by decide +kernel, ⟨fun h => (nomatch h), fun _ => by decide +kernel⟩, rfl, by decide +kernel⟩
theorem form_sg2 : EngineForm sg2 9 (.sig true 5 2 3) (.sig 16 5 24) := ⟨by decide +kernel, by decide +kernel, by decide +kernel⟩
theorem form_sg3 : EngineForm sg3 9 (.sig true 5 2 3) (.sig 70 5 24) := ⟨by decide +kernel, by decide +kernel, by decide +kernel⟩
theorem form_mb : EngineForm mb 9 (.movx true 17 1) (.seg 17 bseg true) := ⟨17, bseg, rfl, by decide +kernel, ⟨fun _ => by decide +kernel, fun h => (nomatch h)⟩, by decide +kernel, by decide +kernel, rfl⟩
theorem wit_UntimedEngineInstructionsAndFaults_entries :
    (entryFault (getLoop ls 2) = none ∧ entryReject ls (.setp 2 { target := 8, rate := none, chan := 9, pc := 0 }) = none) ∧
    ((entryFault (getLoop lsOff 2)).isSome = true ∧ Issues lsOff 9 (CueI.setp true true 22 1) ∧ Follows lsOff 9 ∧ (getCh lsOff 9).pfx = none ∧
      (getFl lsOff (spFl 2)).down = false ∧ roomIn lsOff 9 (spFl 2) = true) := by
  unfold Issues Follows
  and_intros <;> decide +kernel
theorem wit_UntimedEngineInstructionsAndFaults_noPreset :
    (let s := noPreset f1
     s.boot.preset = none ∧ holder s 84 = some 9 ∧ Issues s 9 (CueI.fire false 84)) ∧
    (let s := noPreset st
     holder s 88 = some 9 ∧ Issues s 9 (CueI.strobe false 88)) ∧
    (let s := noPreset sc
     holder s 89 = some 9 ∧ holder s s.scan.mode.stepper.toNat = some 9 ∧ Issues s 9 (CueI.scanl false 89 1)) ∧
    (let s := noPreset gp
     holder s 95 = some 9 ∧ Issues s 9 (CueI.setp true false 95 1)) ∧
    (let s := noPreset (lf true)
     holder s 22 = some 9 ∧ Issues s 9 (CueI.loopoff true 22)) ∧
    (let s := noPreset (gr 3 (at9 (wD 40 1 0 3 4 1 0) same))
     holder s 3 = some 9 ∧ Issues s 9 (CueI.move true 3 4 1)) ∧
    (let s := noPreset (gr 67 (at9 (wD 42 1 0 67 0 1 0) same))
     holder s 67 = some 9 ∧ Issues s 9 (CueI.setp true false 67 1)) ∧
    (let s := noPreset (gr 20 (at9 (wD 43 1 0 20 4 1 0) same))
     holder s 20 = some 9 ∧ Issues s 9 (CueI.ramp true false 20 4 1 0)) := by
  unfold Issues
  and_intros <;> decide +kernel
theorem wit_UntimedEngineInstructionsAndFaults :
    (holder f1 (BitVec.toNat (84 : Byte)) = some 9 ∧ (getCh f1 9).pfx = none ∧ 84 ≤ BitVec.toNat (84 : Byte) ∧ BitVec.toNat (84 : Byte) < 88 ∧
      Issues f1 9 (CueI.fire false 84)) ∧
    (holder st (BitVec.toNat (88 : Byte)) = some 9 ∧ (getCh st 9).pfx = none ∧ BitVec.toNat (88 : Byte) = 88 ∧ Issues st 9 (CueI.strobe false 88)) ∧
    (holder sc (BitVec.toNat (89 : Byte)) = some 9 ∧ (getCh sc 9).pfx = none ∧ BitVec.toNat (89 : Byte) = 89 ∧
      holder sc sc.scan.mode.stepper.toNat = some 9 ∧ Issues sc 9 (CueI.scanl false 89 1)) ∧
    (chanRuns sg (BitVec.extractLsb' 0 9 (chSlot (getCh sg 9) 2)) = false ∧ Issues sg 9 (CueI.sig false 5 2 3)) ∧
    (Issues mx 9 (CueI.movx true 3 1) ∧ Follows mx 9 ∧ (getCh mx 9).pfx = none ∧ actDest mx (ActOp.seg 3 theSeg true) = some (motFl 3) ∧
      (∀ (k : BitVec 2), ActOp.seg 3 theSeg true ≠ ActOp.scanl k) ∧ (getFl mx (motFl 3)).down = false ∧ roomIn mx 9 (motFl 3) = true ∧
      ActOp.seg 3 theSeg true = ActOp.seg 3 theSeg true ∧ motKind 3 = Sum.inl 3) ∧
    (Issues (noT (motFl 3) mx) 9 (CueI.movx true 3 1) ∧ Follows (noT (motFl 3) mx) 9 ∧ (getCh (noT (motFl 3) mx) 9).pfx = none ∧
      actDest (noT (motFl 3) mx) (ActOp.seg 3 theSeg true) = some (motFl 3) ∧ (∀ (k : BitVec 2), ActOp.seg 3 theSeg true ≠ ActOp.scanl k) ∧
      (getFl (noT (motFl 3) mx) (motFl 3)).down = false ∧ roomIn (noT (motFl 3) mx) 9 (motFl 3) = false) ∧
    (Issues (downF (motFl 3) mx) 9 (CueI.movx true 3 1) ∧ Follows (downF (motFl 3) mx) 9 ∧ (getCh (downF (motFl 3) mx) 9).pfx = none ∧
      actDest (downF (motFl 3) mx) (ActOp.seg 3 theSeg true) = some (motFl 3) ∧ (∀ (k : BitVec 2), ActOp.seg 3 theSeg true ≠ ActOp.scanl k) ∧
      (getFl (downF (motFl 3) mx) (motFl 3)).down = true) ∧
    (holder mxn (BitVec.toNat (3 : Byte)) = some 9 ∧ (getCh mxn 9).entry.expert = false ∧ BitVec.toNat (3 : Byte) < 20 ∧
      Issues mxn 9 (CueI.movx true 3 1)) := by
  unfold Issues
  and_intros <;> first | decide +kernel | (unfold Follows; decide +kernel) | (intro k h; cases h)
theorem wit_UntimedEngineInstructionsAndFaults_2 :
    (holder (at9 (wD 41 1 1 3 0 1 0) same) (BitVec.toNat (3 : Byte)) ≠ some 9 ∧ BitVec.toNat (3 : Byte) < 20 ∧
      Issues (at9 (wD 41 1 1 3 0 1 0) same) 9 (CueI.movx true 3 1)) ∧
    (20 ≤ BitVec.toNat (20 : Byte) ∧ Issues (at9 (wD 41 1 1 20 0 1 0) same) 9 (CueI.movx true 20 1)) ∧
    (20 ≤ BitVec.toNat (20 : Byte) ∧ Issues (at9 (wD 40 1 0 20 4 1 0) same) 9 (CueI.move true 20 4 1)) ∧
    (holder (at9 (wD 40 1 0 19 4 1 0) same) (BitVec.toNat (19 : Byte)) ≠ some 9 ∧ BitVec.toNat (19 : Byte) < 20 ∧
      Issues (at9 (wD 40 1 0 19 4 1 0) same) 9 (CueI.move true 19 4 1)) ∧
    ((¬(20 ≤ BitVec.toNat (68 : Byte) ∧ BitVec.toNat (68 : Byte) < 68)) ∧ (¬(90 ≤ BitVec.toNat (68 : Byte) ∧ BitVec.toNat (68 : Byte) < 122)) ∧
      Issues (at9 (wD 42 1 0 68 0 1 0) same) 9 (CueI.setp true false 68 1)) ∧
    (holder (at9 (wD 42 1 1 67 0 1 0) same) (BitVec.toNat (67 : Byte)) ≠ some 9 ∧ (20 ≤ BitVec.toNat (67 : Byte) ∧ BitVec.toNat (67 : Byte) < 68) ∧
      Issues (at9 (wD 42 1 1 67 0 1 0) same) 9 (CueI.setp true true 67 1)) ∧
    (holder (gr 67 (at9 (wD 42 1 1 67 0 1 0) same)) (BitVec.toNat (67 : Byte)) = some 9 ∧
      (getCh (gr 67 (at9 (wD 42 1 1 67 0 1 0) same)) 9).entry.expert = false ∧ (20 ≤ BitVec.toNat (67 : Byte) ∧ BitVec.toNat (67 : Byte) < 68) ∧
      Issues (gr 67 (at9 (wD 42 1 1 67 0 1 0) same)) 9 (CueI.setp true true 67 1)) ∧
    (holder (at9 (wD 42 1 0 90 0 1 0) same) (BitVec.toNat (90 : Byte)) ≠ some 9 ∧ 90 ≤ BitVec.toNat (90 : Byte) ∧ BitVec.toNat (90 : Byte) < 122 ∧
      Issues (at9 (wD 42 1 0 90 0 1 0) same) 9 (CueI.setp true false 90 1)) := by
  unfold Issues
  and_intros <;> first | decide +kernel | (unfold Follows; decide +kernel) | (intro k h; cases h)
theorem wit_UntimedEngineInstructionsAndFaults_3 :
    ((¬(20 ≤ BitVec.toNat (68 : Byte) ∧ BitVec.toNat (68 : Byte) < 68)) ∧ Issues (at9 (wD 43 1 0 68 4 1 0) same) 9 (CueI.ramp true false 68 4 1 0)) ∧
    (holder (at9 (wD 43 1 0 20 4 1 0) same) (BitVec.toNat (20 : Byte)) ≠ some 9 ∧ (20 ≤ BitVec.toNat (20 : Byte) ∧ BitVec.toNat (20 : Byte) < 68) ∧
      Issues (at9 (wD 43 1 0 20 4 1 0) same) 9 (CueI.ramp true false 20 4 1 0)) ∧
    (holder (gr 20 (at9 (wD 43 1 1 20 0 1 0) same)) (BitVec.toNat (20 : Byte)) = some 9 ∧
      (getCh (gr 20 (at9 (wD 43 1 1 20 0 1 0) same)) 9).entry.expert = false ∧ (20 ≤ BitVec.toNat (20 : Byte) ∧ BitVec.toNat (20 : Byte) < 68) ∧
      Issues (gr 20 (at9 (wD 43 1 1 20 0 1 0) same)) 9 (CueI.ramp true true 20 0 1 0)) ∧
    ((¬(20 ≤ BitVec.toNat (19 : Byte) ∧ BitVec.toNat (19 : Byte) < 68)) ∧ Issues (at9 (wD 44 1 0 19 4 0 0) same) 9 (CueI.loopon true false 19 4 0)) ∧
    (holder (at9 (wD 44 1 0 20 4 0 0) same) (BitVec.toNat (20 : Byte)) ≠ some 9 ∧ (20 ≤ BitVec.toNat (20 : Byte) ∧ BitVec.toNat (20 : Byte) < 68) ∧
      Issues (at9 (wD 44 1 0 20 4 0 0) same) 9 (CueI.loopon true false 20 4 0)) ∧
    ((¬(20 ≤ BitVec.toNat (19 : Byte) ∧ BitVec.toNat (19 : Byte) < 68)) ∧ Issues (at9 (wD 45 1 0 19 0 0 0) same) 9 (CueI.loopoff true 19)) ∧
    (holder (at9 (wD 45 1 0 20 0 0 0) same) (BitVec.toNat (20 : Byte)) ≠ some 9 ∧ (20 ≤ BitVec.toNat (20 : Byte) ∧ BitVec.toNat (20 : Byte) < 68) ∧
      Issues (at9 (wD 45 1 0 20 0 0 0) same) 9 (CueI.loopoff true 20)) ∧
    ((¬(84 ≤ BitVec.toNat (83 : Byte) ∧ BitVec.toNat (83 : Byte) < 88)) ∧ Issues (at9 (wD 46 1 0 83 0 0 0) same) 9 (CueI.fire true 83)) := by
  unfold Issues
  and_intros <;> first | decide +kernel | (unfold Follows; decide +kernel) | (intro k h; cases h)
theorem wit_UntimedEngineInstructionsAndFaults_4 :
    (holder (at9 (wD 46 1 0 84 0 0 0) same) (BitVec.toNat (84 : Byte)) ≠ some 9 ∧ 84 ≤ BitVec.toNat (84 : Byte) ∧ BitVec.toNat (84 : Byte) < 88 ∧
      Issues (at9 (wD 46 1 0 84 0 0 0) same) 9 (CueI.fire true 84)) ∧
    (BitVec.toNat (83 : Byte) ≠ 88 ∧ Issues (at9 (wD 47 1 0 83 0 0 0) same) 9 (CueI.strobe true 83)) ∧
    (holder (at9 (wD 47 1 0 88 0 0 0) same) (BitVec.toNat (88 : Byte)) ≠ some 9 ∧ BitVec.toNat (88 : Byte) = 88 ∧
      Issues (at9 (wD 47 1 0 88 0 0 0) same) 9 (CueI.strobe true 88)) ∧
    (BitVec.toNat (83 : Byte) ≠ 89 ∧ Issues (at9 (wD 48 1 0 83 1 0 0) same) 9 (CueI.scanl true 83 1)) ∧
    (holder (at9 (wD 48 1 0 89 1 0 0) same) (BitVec.toNat (89 : Byte)) ≠ some 9 ∧ BitVec.toNat (89 : Byte) = 89 ∧
      Issues (at9 (wD 48 1 0 89 1 0 0) same) 9 (CueI.scanl true 89 1)) ∧
    (Issues ls 9 (CueI.setp true true 22 1) ∧ Follows ls 9 ∧ (getCh ls 9).pfx = none ∧
      actDest ls (ActOp.setp 2 { target := 8, rate := none, chan := 9, pc := 0 : SpEntry }) = some (spFl 2) ∧ (∀ (k : BitVec 2),
      ActOp.setp 2 { target := 8, rate := none, chan := 9, pc := 0 : SpEntry } ≠ ActOp.scanl k) ∧ (getFl ls (spFl 2)).down = false ∧
      roomIn ls 9 (spFl 2) = true ∧ (ActOp.setp 2 { target := 8, rate := none, chan := 9, pc := 0 : SpEntry } = ActOp.setp 2 { target := 8, rate := none, chan := 9, pc := 0 : SpEntry } ∨ ActOp.setp 2 { target := 8, rate := none, chan := 9, pc := 0 : SpEntry } = ActOp.ramp 2 { target := 8, rate := none, chan := 9, pc := 0 : SpEntry })) ∧
    (Issues lo 9 (CueI.loopon true true 22 0 1) ∧ Follows lo 9 ∧ (getCh lo 9).pfx = none ∧
      ActOp.loopon 2 (gainsOf gainDesc) = ActOp.loopon 2 (gainsOf gainDesc) ∧ domUp lo 7 = true ∧ loopOnFault lo 2 = none ∧
      (getLoop lo 2).st ≠ LoopSt.run) ∧
    (Issues lon 9 (CueI.loopon true true 22 0 1) ∧ Follows lon 9 ∧ (getCh lon 9).pfx = none ∧
      ActOp.loopon 2 (gainsOf gainDesc) = ActOp.loopon 2 (gainsOf gainDesc) ∧ domUp lon 7 = true ∧ loopOnFault lon 2 = none ∧
      (getLoop lon 2).st = LoopSt.run) := by
  unfold Issues
  and_intros <;> first | decide +kernel | (unfold Follows; decide +kernel) | (intro k h; cases h)
theorem wit_UntimedEngineInstructionsAndFaults_5 :
    (Issues lod 9 (CueI.loopon true true 22 0 1) ∧ Follows lod 9 ∧ (getCh lod 9).pfx = none ∧
      ActOp.loopon 2 (gainsOf gainDesc) = ActOp.loopon 2 (gainsOf gainDesc) ∧ domUp lod 7 = true ∧ loopOnFault lod 2 = some fLoopCfg) ∧
    (Issues (lf true) 9 (CueI.loopoff true 22) ∧ Follows (lf true) 9 ∧ (getCh (lf true) 9).pfx = none ∧ ActOp.loopoff 2 = ActOp.loopoff 2 ∧
      domUp (lf true) 7 = true ∧ (getLoop (lf true) 2).st = LoopSt.run) ∧
    (Issues lfo 9 (CueI.loopoff true 22) ∧ Follows lfo 9 ∧ (getCh lfo 9).pfx = none ∧ ActOp.loopoff 2 = ActOp.loopoff 2 ∧ domUp lfo 7 = true ∧
      (getLoop lfo 2).st ≠ LoopSt.run) ∧
    (Issues gp 9 (CueI.setp true false 95 1) ∧ Follows gp 9 ∧ (getCh gp 9).pfx = none ∧ ActOp.gpio 5 false false = ActOp.gpio 5 false false) ∧
    (Issues sg2 9 (CueI.sig true 5 2 3) ∧ Follows sg2 9 ∧ (getCh sg2 9).pfx = none ∧ actDest sg2 (ActOp.sig 16 5 24) = some (evFl 16) ∧
      (∀ (k : BitVec 2), ActOp.sig 16 5 24 ≠ ActOp.scanl k) ∧ (getFl sg2 (evFl 16)).down = false ∧ roomIn sg2 9 (evFl 16) = true ∧
      ActOp.sig 16 5 24 = ActOp.sig 16 5 24 ∧ BitVec.toNat (16 : BitVec 9) / 64 = devNum sg2) ∧
    (Issues sg3 9 (CueI.sig true 5 2 3) ∧ Follows sg3 9 ∧ (getCh sg3 9).pfx = none ∧ actDest sg3 (ActOp.sig 70 5 24) = some (skidFl 1) ∧
      (∀ (k : BitVec 2), ActOp.sig 70 5 24 ≠ ActOp.scanl k) ∧ (getFl sg3 (skidFl 1)).down = false ∧ roomIn sg3 9 (skidFl 1) = true ∧
      ActOp.sig 70 5 24 = ActOp.sig 70 5 24 ∧ BitVec.toNat (70 : BitVec 9) / 64 ≠ devNum sg3) ∧
    (Issues mb 9 (CueI.movx true 17 1) ∧ Follows mb 9 ∧ (getCh mb 9).pfx = none ∧ actDest mb (ActOp.seg 17 bseg true) = some (motFl 17) ∧
      (∀ (k : BitVec 2), ActOp.seg 17 bseg true ≠ ActOp.scanl k) ∧ (getFl mb (motFl 17)).down = false ∧ roomIn mb 9 (motFl 17) = true ∧
      ActOp.seg 17 bseg true = ActOp.seg 17 bseg true ∧ motKind 17 = Sum.inr 1) := by
  unfold Issues
  and_intros <;> first | decide +kernel | (unfold Follows; decide +kernel) | (intro k h; cases h)
end UntimedEngineInstructionsAndFaults

namespace CommitAndAbort
def cm (w : Word) (st : PlanSt) (f : Channel → Channel) : State := paged st (at9 w f)
def h1 (x : Channel) : Channel := { x with slots := tset x.slots 1 1 }
def c1 : State := cm (wD 0x36 1 0 0 0 1 2) .admitted h1
def c2 : State := cm (wD 0x36 1 0 0 0 1 2) .posted h1
def c3 : State := cm (wD 0x36 1 0 0 0 1 2) .posted (fun x => { x with slots := tset x.slots 1 5 })
def c3b : State := cm (wD 0x36 0 0 0 0 1 2) .posted (fun x => { x with slots := tset x.slots 1 5, blocked := some 3 })
def c4 : State := cm (wD 0x36 0 0 0 1 1 0) .admitted h1
def c5 : State := cm (wD 0x36 0 0 0 1 1 0) .admitted (fun x => { x with slots := tset x.slots 1 5 })
def c6 : State := cm (wD 0x37 0 0 0 0 1 0) .admitted h1
def c7 : State := cm (wD 0x37 0 0 0 0 1 0) .admitted (fun x => { x with slots := tset x.slots 1 5 })
def c2_2 : State := { (inAon fun a => { a with seqState := .onB }) with cue := (gr 84 (bands (modStn 0 (fun x => { x with st := .ready }) (cm (wD 0x36 1 0 0 0 1 2) .posted h1)))).cue, rast := (bands up).rast, beam := (modStn 0 (fun x => { x with st := .ready }) up).beam }
theorem noBw (s : State) (p : Plan) (h : bwUsed s + p.bw = 0) : unmetBw s p = false := by
  unfold unmetBw; rw [h]; exact decide_eq_false (Nat.not_lt_zero _)
theorem wit_CommitAndAbort :
    (Plain c1 9 (CueI.admitPl true 1 2) ∧ pageByHandle c1 (chSlot (getCh c1 9) 1) = some (aPage PlanSt.admitted 1) ∧
      (aPage PlanSt.admitted 1).names 9 = true ∧ (aPage PlanSt.admitted 1).isAdm = true) ∧
    (Plain c2 9 (CueI.admitPl true 1 2) ∧ pageByHandle c2 (chSlot (getCh c2 9) 1) = some (aPage PlanSt.posted 1) ∧
      (aPage PlanSt.posted 1).names 9 = true ∧ (aPage PlanSt.posted 1).isAdm = false) ∧
    ((∀ (g : Page), pageByHandle c3 (chSlot (getCh c3 9) 1) = some g → g.names 9 = false) ∧ (getCh c3 9).pfx = none ∧
      Issues c3 9 (CueI.admitPl true 1 2)) ∧
    ((∀ (g : Page), pageByHandle c3b (chSlot (getCh c3b 9) 1) = some g → g.names 9 = false) ∧ (getCh c3b 9).pfx = none ∧ canIssue c3b 9 = true ∧
      presentI c3b 9 = some (some (CueI.admitPl false 1 2)) ∧ (getCh c3b 9).blocked.isSome = true ∧
      pageByHandle c3b (chSlot (getCh c3b 9) 1) = none) ∧
    ((getCh c4 9).pfx = none ∧ Plain c4 9 (CueI.done 1) ∧ pageByAdm c4 (chSlot (getCh c4 9) 1) = some (aPage PlanSt.admitted 1) ∧
      (aPage PlanSt.admitted 1).names 9 = true ∧ (aPage PlanSt.admitted 1).doneBy.contains 9 = false) ∧
    ((getCh c5 9).pfx = none ∧ Issues c5 9 (CueI.done 1) ∧ (∀ (g : Page), pageByAdm c5 (chSlot (getCh c5 9) 1) = some g → g.names 9 = false ∨
      g.doneBy.contains 9 = true)) ∧
    (Plain c6 9 (CueI.abort 1) ∧ pageByAdm c6 (chSlot (getCh c6 9) 1) = some (aPage PlanSt.admitted 1) ∧ (aPage PlanSt.admitted 1).names 9 = true ∧
      (aPage PlanSt.admitted 1).st ≠ PlanSt.aborting ∧ (∀ (q : Page),
      q ∈ c6.cue.pages → q.handle = (aPage PlanSt.admitted 1).handle → q = aPage PlanSt.admitted 1)) ∧
    (Plain c7 9 (CueI.abort 1) ∧ (∀ (g : Page), pageByAdm c7 (chSlot (getCh c7 9) 1) = some g → g.names 9 = false)) := by
  unfold Plain Issues Follows
  and_intros <;> decide +kernel
theorem wit_CommitAndAbort_2 :
    (Plain c2_2 9 (CueI.admitPl true 1 2) ∧ pageByHandle c2_2 (chSlot (getCh c2_2 9) 1) = some (aPage PlanSt.posted 1) ∧
      (aPage PlanSt.posted 1).names 9 = true ∧ (aPage PlanSt.posted 1).isAdm = false ∧ (∃ k : Station, True)) := by
  unfold Plain Issues Follows
  and_intros <;> decide +kernel
/-- A posted page that asks for no memory bandwidth. -/
def noBand : Page := { aPage .posted 1 with plan := { (aPage .posted 1).plan with bw := 0 } }
theorem wit_CommitAndAbort_conditions : unmetMask c2 noBand 0 ≠ 0 ∧ unmetMask c2_2 noBand 0 = 0 ∧ noBand.names 9 = true ∧ noBand.isAdm = false := by
  and_intros
  · unfold unmetMask; dsimp only; rw [noBw _ _ (by decide +kernel)]; decide +kernel
  · unfold unmetMask; dsimp only; rw [noBw _ _ (by decide +kernel)]; decide +kernel
  · decide +kernel
  · decide +kernel
end CommitAndAbort

namespace WheelDispatchAndGuards
def w1 : State := trk .locked (acts [fireAct 1 (.abs 1500) (some 1500) true, fireAct 2 (.tooth 3 14 0) (some 1390) false, fireAct 3 (.tooth 3 16 0) (some 1590) false, fireAct 4 (.abs 1500) (some 1500) true] up)
def a1 := fireAct 1 (.abs 1500) (some 1500) true
def w2 : State := { w1 with aon := { w1.aon with hold := true } }
def w3 : State := { w1 with beam := (modStn 0 (fun x => { x with st := .ready }) up).beam }
def w4 : State := { w1 with cue := { w1.cue with dispEt := 1000, dispN := 16 } }
def ag : Action := { a1 with op := .gpio 4 true true, cpl := false }
def as : Action := { a1 with op := .seg 16 { theSeg with acc := 5, target := 100 } true }
def al : Action := { a1 with op := .setp 3 ⟨5, none, 9, 0⟩ }
def x3 := { theSeg with acc := 5, target := 100 }
theorem wit_WheelDispatchAndGuards :
    ((domUp up 3 = false ∨ List.filterMap (actDue up) (allPending up) = []) ∧ (domUp up 3 = false ∨ nextGuard up = none)) ∧
    (domUp w1 3 = true ∧ nextGuard w1 = some ((nextGuard w1).getD 0) ∧ (nextGuard w1).getD 0 < 2 ^ 64 ∧ ActsOk w1 ∧ (∃ c : Chan, True)) ∧
    (domUp w1 3 = true ∧ (List.filterMap (actDue w1) (allPending w1)).min? = some 1390 ∧ 1390 < 2 ^ 64) ∧
    (ActsOk w1 ∧ a1 ∈ (getCh w1 9).actq ∧ a1.done = false ∧ placesUsed w1 < 16 ∧ (w1.aon.hold = false ∨ heldOutput a1.op = false) ∧
      sigDropped w1 a1 = false ∧ (actFault w1 a1).isSome = true) ∧
    (ActsOk w2 ∧ a1 ∈ (getCh w2 9).actq ∧ a1.done = false ∧ placesUsed w2 < 16 ∧ (w2.aon.hold = true ∧ heldOutput a1.op = true ∨
      sigDropped w2 a1 = true)) ∧
    (ActsOk w3 ∧ a1 ∈ (getCh w3 9).actq ∧ a1.done = false ∧ placesUsed w3 < 16 ∧ (w3.aon.hold = false ∨ heldOutput a1.op = false) ∧
      sigDropped w3 a1 = false ∧ actFault w3 a1 = none ∧ a1.cpl = true ∧ w3.aon.hold = false) ∧
    (ActsOk w4 ∧ a1 ∈ (getCh w4 9).actq ∧ a1.done = false ∧ 16 ≤ placesUsed w4 ∧ a1.slip = false) ∧
    (ActsOk (acts [ag] up) ∧ ag ∈ (getCh (acts [ag] up) 9).actq ∧ ag.done = false ∧ placesUsed (acts [ag] up) < 16 ∧
      ((acts [ag] up).aon.hold = false ∨ heldOutput ag.op = false) ∧ sigDropped (acts [ag] up) ag = false ∧ actFault (acts [ag] up) ag = none ∧
      ag.cpl = false ∧ (acts [ag] up).aon.hold = false ∧ ag.op = ActOp.gpio 4 true true) := by
  unfold ActsOk
  and_intros <;> decide +kernel
theorem wit_WheelDispatchAndGuards_2 :
    (ActsOk (acts [as] up) ∧ as ∈ (getCh (acts [as] up) 9).actq ∧ as.done = false ∧ placesUsed (acts [as] up) < 16 ∧
      (acts [as] up).aon.hold = false ∧ actFault (acts [as] up) as = none ∧ as.op = ActOp.seg 16 x3 true ∧ motKind 16 = Sum.inr 0) ∧
    (ActsOk (acts [al] up) ∧ al ∈ (getCh (acts [al] up) 9).actq ∧ al.done = false ∧ placesUsed (acts [al] up) < 16 ∧
      (acts [al] up).aon.hold = false ∧ actFault (acts [al] up) al = none ∧
      (al.op = ActOp.setp 3 { target := 5, rate := none, chan := 9, pc := 0 : SpEntry } ∨
      al.op = ActOp.ramp 3 { target := 5, rate := none, chan := 9, pc := 0 : SpEntry })) := by
  unfold ActsOk
  and_intros <;> decide +kernel
end WheelDispatchAndGuards

namespace ToothTrackers
def tk (f : Tracker → Tracker) (s : State) : State := modCue (fun q => { q with et := 5000, trk := tmod q.trk 3 f }) s
def base (k : Tracker) : Tracker := { k with src := 9, en := true, pmin := 50, pmax := 200, avg := 1, filt := 4 }
def e1 : State := tk (fun k => { base k with st := .acquire }) up
def e2 : State := tk (fun k => { base k with st := .acquire, hasEdge := true, lastEdge := 4960 }) up
def e3 : State := tk (fun k => { base k with st := .acquire, hasEdge := true, lastEdge := 4900 }) up
def e4 : State := tk (fun k => { base k with st := .acquire, hasEdge := true, lastEdge := 4000 }) up
def e5 : State := tk (fun k => { base k with st := .locked, hasEdge := true, lastEdge := 4900, anchor256 := 4900*256, p256 := 100*256, index := 7, ivals := [25600, 25600] }) up
def e6 : State := tk (fun k => { base k with st := .locked, hasEdge := true, lastEdge := 4990, anchor256 := 4990*256, p256 := 100*256, index := 7, noiseT := 30 }) up
def e7 : State := tk (fun k => { base k with st := .locked, hasEdge := true, lastEdge := 4795, anchor256 := 4990*256, p256 := 100*256, index := 7, noiseT := 30, lastSynth := true, synthTeeth := [7], insAt := some 4992, latew := 32, synthSince := 1, run := 1 }) up
def e8 : State := tk (fun k => { base k with st := .lost }) up
def ac1 := fireAct 1 (.tooth 3 9 0) (some 5200) false
def e9 : State := { e5 with cue := { e5.cue with nextId := 50, ch := tmod e5.cue.ch 9 fun x => { x with st := .running, actq := [ac1] } }, aon := { e5.aon with doms := tmod e5.aon.doms 5 fun x => { x with st := .off } } }
def x1 := (tk (fun k => { base k with st := .locked, miss := 96, anchor256 := 4990*256, p256 := 25601, index := 7, run := 2}) e9)
def d1 : State := tk (fun k => { k with en := false }) up
theorem wit_ToothTrackers :
    (domUp e1 3 = true ∧ trkReceives e1 (getTrk e1 3) = true ∧ (getTrk e1 3).st = TrkSt.acquire ∧ (getTrk e1 3).hasEdge = false) ∧
    (domUp e2 3 = true ∧ trkReceives e2 (getTrk e2 3) = true ∧ (getTrk e2 3).st = TrkSt.acquire ∧ (getTrk e2 3).hasEdge = true ∧
      BitVec.toNat e2.cue.et - BitVec.toNat (getTrk e2 3).filt - (getTrk e2 3).lastEdge < trkPmin (getTrk e2 3)) ∧
    (domUp e3 3 = true ∧ trkReceives e3 (getTrk e3 3) = true ∧ (getTrk e3 3).st = TrkSt.acquire ∧ (getTrk e3 3).hasEdge = true ∧
      trkPmin (getTrk e3 3) ≤ BitVec.toNat e3.cue.et - BitVec.toNat (getTrk e3 3).filt - (getTrk e3 3).lastEdge ∧
      BitVec.toNat e3.cue.et - BitVec.toNat (getTrk e3 3).filt - (getTrk e3 3).lastEdge ≤ trkPmax (getTrk e3 3)) ∧
    (domUp e4 3 = true ∧ trkReceives e4 (getTrk e4 3) = true ∧ (getTrk e4 3).st = TrkSt.acquire ∧ (getTrk e4 3).hasEdge = true ∧
      trkPmax (getTrk e4 3) < BitVec.toNat e4.cue.et - BitVec.toNat (getTrk e4 3).filt - (getTrk e4 3).lastEdge) ∧
    (domUp e5 3 = true ∧ trkReceives e5 (getTrk e5 3) = true ∧ (getTrk e5 3).st = TrkSt.locked ∧
      lateEdge (getTrk e5 3) (BitVec.toNat e5.cue.et - BitVec.toNat (getTrk e5 3).filt) = false ∧
      (¬(256 * ↑(BitVec.toNat e5.cue.et - BitVec.toNat (getTrk e5 3).filt) - ↑(getTrk e5 3).anchor256) * 64 < ↑(trkNoise (getTrk e5 3)) * ↑(getTrk e5 3).p256)) ∧
    (domUp e6 3 = true ∧ trkReceives e6 (getTrk e6 3) = true ∧ (getTrk e6 3).st = TrkSt.locked ∧
      lateEdge (getTrk e6 3) (BitVec.toNat e6.cue.et - BitVec.toNat (getTrk e6 3).filt) = false ∧
      (256 * ↑(BitVec.toNat e6.cue.et - BitVec.toNat (getTrk e6 3).filt) - ↑(getTrk e6 3).anchor256) * 64 < ↑(trkNoise (getTrk e6 3)) * ↑(getTrk e6 3).p256) ∧
    (domUp e7 3 = true ∧ trkReceives e7 (getTrk e7 3) = true ∧ (getTrk e7 3).st = TrkSt.locked ∧
      lateEdge (getTrk e7 3) (BitVec.toNat e7.cue.et - BitVec.toNat (getTrk e7 3).filt) = true) ∧
    (domUp e8 3 = true ∧ trkReceives e8 (getTrk e8 3) = true ∧ ((getTrk e8 3).st = TrkSt.off ∨ (getTrk e8 3).st = TrkSt.lost)) := by
  and_intros <;> decide +kernel
theorem wit_ToothTrackers_2 :
    (domUp e9 3 = true ∧ trkReceives e9 (getTrk e9 3) = true ∧ ActsOk e9 ∧ (getTrk e9 3).st = TrkSt.locked ∧ domUp e9 5 = false ∧
      e9.cue.pages = [] ∧ (∀ (m : Fin 16), (getStep e9 m).stallEn = false) ∧ ac1 ∈ (getCh e9 9).actq ∧ ac1.done = false ∧
      ac1.target = Target.tooth 3 9 0 ∧ ac1.frozen = false ∧ ac1.held = false) ∧
    (domUp e5 3 = true ∧ (getTrk e5 3).st = TrkSt.locked ∧ synthDue (getTrk e5 3) < 2 ^ 64 ∧ (getTrk e5 3).run < 2) ∧
    (domUp x1 3 = true ∧ (getTrk x1 3).st = TrkSt.locked ∧ synthDue (getTrk x1 3) < 2 ^ 64 ∧ 2 ≤ (getTrk x1 3).run ∧ ActsOk x1 ∧ onTrk 3 ac1 = true) ∧
    (reach e5 Port.bar0 3 = true ∧ (getTrk e5 3).en = true ∧ ActsOk e5 ∧ (getTrk e5 3).st ≠ TrkSt.lost ∧ (getTrk e5 3).st = TrkSt.locked) ∧
    (reach d1 Port.bar0 3 = true ∧ (getTrk d1 3).en = false ∧ (getTrk d1 3).st ≠ TrkSt.locked) ∧
    (reach e8 Port.bar0 3 = true ∧ (getTrk e8 3).st = TrkSt.lost) ∧
    (reach e9 Port.bar0 3 = true ∧ (getTrk e9 3).en = true ∧ ActsOk e9 ∧ (getTrk e9 3).st ≠ TrkSt.lost ∧ onTrk 3 ac1 = true ∧
      (getTrk e9 3).st = TrkSt.locked ∧ domUp e9 5 = false) := by
  unfold ActsOk
  and_intros <;> decide +kernel
end ToothTrackers

namespace TampUnits
def strm (total : Nat) (blks : List (List Byte)) : List Byte := [0x54,0x4D,1,0] ++ leBytes 4 total ++ blks.flatten
def rawB (last : Bool) (d : List Byte) : List Byte := leBytes 2 (d.length - 1) ++ [0, if last then 1 else 0] ++ leBytes 4 d.length ++ d
def ab : List Byte := strm 3 [rawB true [7,8,9]]
def memAt (a : Nat) (l : List Byte) (s : State) : State := { s with mem := { s.mem with data := memWrite s.mem.data a l } }
def dec (u : Fin 6) (f : Dec → Dec) (s : State) : State := modRast (fun r => { r with dec := tmod r.dec u f }) s
def dd (d : Dec) : Dec := { d with active := true, src := 0x1000, srcEnd := 0x1000 + 19, dst := 64, cap := 100, fetchEnd := false }
def s0 : State := memAt 0x1000 ab up
def f0 : State := dec 0 dd s0
def b0 : BlkDesc := ⟨0x1008, 0, false⟩
def g0 : State := dec 0 (fun d => { dd d with q := [b0, ⟨0x2000, 1, false⟩], total := 3 }) s0
def dx : Dec := { dd (tget g0.rast.dec 0) with total := 3 }
def x5 := { dx with cap := 2 }
def x6 := { b0 with poison := true }
def x7 := { dx with total := 9 }
def enc (e : Fin 2) (f : Enc → Enc) (s : State) : State := modRast (fun r => { r with enc := tmod r.enc e f }) s
def ee (x : Enc) : Enc := { x with active := true, curDepth := 5, curBlk := 4, total := 8, dst := 0x4000, cap := 100, q := [[1,2,3,4],[5,6,7,8]], taken := 0 }
def h0 : State := enc 0 ee up
def gen (a n b m : Nat) (f : Rast → Rast) (s : State) : State := modRast (fun r => f { r with genSrc := BitVec.ofNat 36 a, genSlen := BitVec.ofNat 32 n, genDst := BitVec.ofNat 36 b, genDlen := BitVec.ofNat 32 m }) s
def j0 : State := gen 0x1000 19 0x2000 64 id up
def x12 := (gen 0x1000 19 0x2000 64 (fun r => { r with genBusy := true }) up)
def x13 := (gen 0x1000 19 0x2000 64 (fun r => { r with genBusy := true }) up)
def x14 := (dec 0 (fun d => { d with total := 6 }) (memAt 0x100b [0] g0))
def x15 := (dec 0 (fun d => { dd d with src := 0x1001 }) s0)
/-- What a block's payload reads as, clean and with an error. -/
def pz (s : State) := if headsOk s (tget s.rast.dec 0) b0 = true then payloadPoison 0 (tget s.rast.dec 0) b0 false s else (false, s)
def pzBad (s : State) := if headsOk s (tget s.rast.dec 0) b0 = true then payloadPoison 0 (tget s.rast.dec 0) b0 true s else (false, s)
def heldF : State := modMem (fun m => { m with poison := 1 }) f0
def outF : State := dec 0 (fun d => { dd d with src := 2 ^ 36, srcEnd := 2 ^ 36 + 19 }) s0
/-- A header whose error a step before left, one past the usable range, one read with an error, and one that is clean. -/
theorem wit_TampUnits_header : (heldF.mem.poison.getLsbD 0 = true ∧ (tget heldF.rast.dec 0).active = true) ∧
    (srcOut outF (tget outF.rast.dec 0) (tget outF.rast.dec 0).src 16 = true ∧ outF.mem.poison.getLsbD 0 = false) ∧
    f0.mem.eccEn = true ∧ (f0.mem.poison.getLsbD 0 = false ∧ srcOut f0 (tget f0.rast.dec 0) (tget f0.rast.dec 0).src 16 = false) := by
  and_intros <;> decide +kernel
/-- From R328, R372 and R377: a header read with an uncorrectable error ends the descriptors, and the error is counted. -/
theorem test_header_error : (gotSt (exec (.bandFetch 0 true) f0)).mem.ue = 1 ∧
    ((tget (gotSt (exec (.bandFetch 0 true) f0)).rast.dec 0).fetchEnd = true) ∧
    (gotSt (exec (.bandFetch 0 true) (modMem (fun m => { m with eccEn := false }) f0))).mem.ue = 0 := by
  and_intros <;> decide +kernel
theorem wit_TampUnits :
    ((domUp f0 4 = true ∧ f0.mem.ready = true ∧ (tget f0.rast.dec 0).active = true ∧ (tget f0.rast.dec 0).fetchEnd = false ∧
      hasTally f0 (decFl 0) = true) ∧ decFl 3 ≠ decFl 0) ∧
    ((¬(domUp s0 4 = true ∧ s0.mem.ready = true ∧ (tget s0.rast.dec 0).active = true ∧ (tget s0.rast.dec 0).fetchEnd = false ∧
      hasTally s0 (decFl 0) = true))) ∧
    (domUp g0 4 = true ∧ g0.mem.ready = true ∧ (tget g0.rast.dec 0).q = [b0, { addr := 8192, ix := 1, poison := false : BlkDesc }] ∧
      Memory.wf g0.rast.land = true ∧ Memory.wf g0.mem.data = true ∧ (decBlock g0 (tget g0.rast.dec 0) b0 (pz g0).1).snd = none ∧
      (decBlock g0 (tget g0.rast.dec 0) b0 (pz g0).1).fst.length = (tget g0.rast.dec 0).total) ∧
    (domUp g0 4 = true ∧ g0.mem.ready = true ∧ (tget g0.rast.dec 0).q = [b0, { addr := 8192, ix := 1, poison := false : BlkDesc }] ∧
      Memory.wf g0.rast.land = true ∧ Memory.wf g0.mem.data = true ∧ (decBlock g0 (tget g0.rast.dec 0) b0 (pzBad g0).1).snd = some 70 ∧
      (getFl g0 (decFl 0)).down = false) ∧
    (b0.poison = false ∧ (b0.ix ≠ 0 ∨ streamOk (srcRead s0 dx (b0.addr - 8) 8) = true) ∧
      blockOk (srcRead s0 dx b0.addr 8) (dx.srcEnd - (b0.addr + 8)) = true ∧
      (dx.out.length + (fieldN (srcRead s0 dx b0.addr 8) 0 2 + 1) ≤ dx.total ∧
      ((fieldN (srcRead s0 dx b0.addr 8) 3 1).testBit 0 = true ↔ dx.out.length + (fieldN (srcRead s0 dx b0.addr 8) 0 2 + 1) = dx.total)) ∧
      false = false ∧ fieldN (srcRead s0 dx b0.addr 8) 2 1 = 0 ∧
      dx.out.length + (fieldN (srcRead s0 dx b0.addr 8) 0 2 + 1) ≤ dx.cap) ∧
    (b0.poison = false ∧ (b0.ix ≠ 0 ∨ streamOk (srcRead s0 x5 (b0.addr - 8) 8) = true) ∧
      blockOk (srcRead s0 x5 b0.addr 8) (x5.srcEnd - (b0.addr + 8)) = true ∧
      (x5.out.length + (fieldN (srcRead s0 x5 b0.addr 8) 0 2 + 1) ≤ x5.total ∧
      ((fieldN (srcRead s0 x5 b0.addr 8) 3 1).testBit 0 = true ↔ x5.out.length + (fieldN (srcRead s0 x5 b0.addr 8) 0 2 + 1) = x5.total)) ∧
      false = false ∧ fieldN (srcRead s0 x5 b0.addr 8) 2 1 = 0 ∧
      x5.cap < x5.out.length + (fieldN (srcRead s0 x5 b0.addr 8) 0 2 + 1)) ∧
    (b0.poison = false ∧ (b0.ix ≠ 0 ∨ streamOk (srcRead s0 dx (b0.addr - 8) 8) = true) ∧
      blockOk (srcRead s0 dx b0.addr 8) (dx.srcEnd - (b0.addr + 8)) = true ∧
      (dx.out.length + (fieldN (srcRead s0 dx b0.addr 8) 0 2 + 1) ≤ dx.total ∧
      ((fieldN (srcRead s0 dx b0.addr 8) 3 1).testBit 0 = true ↔ dx.out.length + (fieldN (srcRead s0 dx b0.addr 8) 0 2 + 1) = dx.total)) ∧
      true = true) ∧
    (x6.poison = true) := by
  and_intros <;> decide +kernel
theorem wit_TampUnits_2 :
    ({ addr := 4105, ix := 0, poison := false : BlkDesc }.poison = false ∧ (¬({ addr := 4105, ix := 0, poison := false : BlkDesc }.ix ≠ 0 ∨
      streamOk (srcRead s0 dx ({ addr := 4105, ix := 0, poison := false : BlkDesc }.addr - 8) 8) = true))) ∧
    ({ addr := 4105, ix := 1, poison := false : BlkDesc }.poison = false ∧ ({ addr := 4105, ix := 1, poison := false : BlkDesc }.ix ≠ 0 ∨
      streamOk (srcRead s0 dx ({ addr := 4105, ix := 1, poison := false : BlkDesc }.addr - 8) 8) = true) ∧
      (¬blockOk (srcRead s0 dx { addr := 4105, ix := 1, poison := false : BlkDesc }.addr 8) (dx.srcEnd - ({ addr := 4105, ix := 1, poison := false : BlkDesc }.addr + 8)) = true)) ∧
    (b0.poison = false ∧ (b0.ix ≠ 0 ∨ streamOk (srcRead s0 x7 (b0.addr - 8) 8) = true) ∧
      blockOk (srcRead s0 x7 b0.addr 8) (x7.srcEnd - (b0.addr + 8)) = true ∧
      (¬(x7.out.length + (fieldN (srcRead s0 x7 b0.addr 8) 0 2 + 1) ≤ x7.total ∧
      ((fieldN (srcRead s0 x7 b0.addr 8) 3 1).testBit 0 = true ↔ x7.out.length + (fieldN (srcRead s0 x7 b0.addr 8) 0 2 + 1) = x7.total)))) ∧
    (domUp h0 4 = true ∧ h0.mem.ready = true ∧ (tget h0.rast.enc 0).q = [[1, 2, 3, 4], [5, 6, 7, 8]] ∧ (tget h0.rast.enc 0).active = true) ∧
    (domUp h0 4 = true ∧ h0.mem.ready = true ∧ (tget h0.rast.enc 0).q = [[1, 2, 3, 4], [5, 6, 7, 8]] ∧ (tget h0.rast.enc 0).active = true ∧
      ((if true = true then some 70 else if (tget h0.rast.enc 0).total < (tget h0.rast.enc 0).taken + [1, 2, 3, 4].length ∨
      [1, 2, 3, 4].length < (tget h0.rast.enc 0).curBlk ∧
      (tget h0.rast.enc 0).taken + [1, 2, 3, 4].length < (tget h0.rast.enc 0).total then some 69 else if (tget h0.rast.enc 0).cap < (tget h0.rast.enc 0).written + (encBytes (tget h0.rast.enc 0) [1, 2, 3, 4]).length then some 71 else none) = some 70)) ∧
    ([1, 2, 3, 4] ≠ [] ∧ [1, 2, 3, 4].length ≤ 65536) ∧
    (reach j0 Port.bar0 4 = true ∧ j0.rast.genBusy = false ∧ j0.mem.ready = true ∧
      (¬(j0.rast.genSrc.toNat < j0.rast.genDst.toNat + BitVec.toNat j0.rast.genDlen ∧
      j0.rast.genDst.toNat < j0.rast.genSrc.toNat + BitVec.toNat j0.rast.genSlen ∨
      usableBytes j0 < j0.rast.genSrc.toNat + BitVec.toNat j0.rast.genSlen ∨ usableBytes j0 < j0.rast.genDst.toNat + BitVec.toNat j0.rast.genDlen))) ∧
    (reach (gen 4096 19 4112 64 id up) Port.bar0 4 = true ∧ (gen 4096 19 4112 64 id up).rast.genBusy = false ∧
      (gen 4096 19 4112 64 id up).mem.ready = true ∧
      ((gen 4096 19 4112 64 id up).rast.genSrc.toNat < (gen 4096 19 4112 64 id up).rast.genDst.toNat + BitVec.toNat (gen 4096 19 4112 64 id up).rast.genDlen ∧ (gen 4096 19 4112 64 id up).rast.genDst.toNat < (gen 4096 19 4112 64 id up).rast.genSrc.toNat + BitVec.toNat (gen 4096 19 4112 64 id up).rast.genSlen ∨ usableBytes (gen 4096 19 4112 64 id up) < (gen 4096 19 4112 64 id up).rast.genSrc.toNat + BitVec.toNat (gen 4096 19 4112 64 id up).rast.genSlen ∨ usableBytes (gen 4096 19 4112 64 id up) < (gen 4096 19 4112 64 id up).rast.genDst.toNat + BitVec.toNat (gen 4096 19 4112 64 id up).rast.genDlen)) := by
  and_intros <;> decide +kernel
theorem wit_TampUnits_3 :
    (reach x12 Port.bar0 4 = true ∧ (x12.rast.genBusy = true ∨ x12.mem.ready = false)) ∧
    (domUp x13 4 = true ∧ x13.rast.genBusy = true ∧ (tget x13.rast.dec 5).active = false) ∧
    (domUp x14 4 = true ∧ x14.mem.ready = true ∧ (tget x14.rast.dec 0).q = [b0, { addr := 8192, ix := 1, poison := false : BlkDesc }] ∧
      Memory.wf x14.rast.land = true ∧ Memory.wf x14.mem.data = true ∧ (decBlock x14 (tget x14.rast.dec 0) b0 (pz x14).1).snd = none ∧
      (decBlock x14 (tget x14.rast.dec 0) b0 (pz x14).1).fst.length ≠ (tget x14.rast.dec 0).total) ∧
    ((domUp x15 4 = true ∧ x15.mem.ready = true ∧ (tget x15.rast.dec 0).active = true ∧ (tget x15.rast.dec 0).fetchEnd = false ∧
      hasTally x15 (decFl 0) = true) ∧ (∃ f : FlumeId, f ≠ decFl 0)) := by
  and_intros <;> decide +kernel
/-- A block that is written whole: it has at most 8 bytes of stream header, 8 of block header and 4 of payload. -/
theorem wit_TampUnits_encode : (tget h0.rast.enc 0).cap = 100 ∧ ((tget h0.rast.enc 0).taken + 4 ≤ (tget h0.rast.enc 0).total) ∧
    ¬ (tget h0.rast.enc 0).cap < (tget h0.rast.enc 0).written + (encBytes (tget h0.rast.enc 0) [1, 2, 3, 4]).length := by
  refine ⟨by decide +kernel, by decide +kernel, ?_⟩
  have hw : (tget h0.rast.enc 0).written = 0 := by decide +kernel
  have hc : (tget h0.rast.enc 0).cap = 100 := by decide +kernel
  rw [hw, hc, encBytes, encodeBlock]
  simp only [List.length_append, streamHead]
  repeat' split
  all_goals simp [leBytes] at *
  all_goals omega
end TampUnits

namespace BandsAreStagedCheckedReleased
def bdesc (st fl no src len lines bcrc : Nat) : List Byte :=
  let b := leBytes 2 1 ++ [BitVec.ofNat 8 st, BitVec.ofNat 8 fl] ++ leBytes 4 no ++ leBytes 8 src ++ leBytes 4 len ++ leBytes 2 lines ++ [0,0] ++ leBytes 4 bcrc
  b ++ leBytes 4 (crc32c b).toNat
def res1 (s : State) : State := modRast (fun r => { r with res := Vector.replicate 10 { en := true, units := 8, base := 0, slot := 1 } }) (modStn 0 (fun x => { x with cur := { x.cur with pixels := 64 } }) s)
def lateP : Page := { aPage .admitted 1 with lptr := Vector.replicate 4 60 }
def p0 : State := res1 (paged .posted up)
def cur (b : Band) (s : State) : State := modRast (fun r => { r with cur := tset r.cur 0 (some b) }) s
def bq : Band := { band 0 with lines := 2, empty := false, lpitch := 64, bcrc := crc32c (List.replicate 128 0) }
def q0 : State := cur bq (modRast (fun r => { r with dec := tmod r.dec 0 (fun d => { d with active := false, err := 0, total := 128 }) }) p0)
def x5 := (paged .admitted (cur {bq with bcrc := 5} q0))
def x6 := {bq with bcrc := 5}
def x8 := (cur {bq with lines := 1} q0)
def x9 := {bq with lines := 1}
def q1 : State := modCue (fun q => { q with pages := [lateP] }) q0
def r0 : State := bands (modCue (fun q => { q with pages := [lateP] }) p0)
def hd0 : State := modRast (fun r => { r with cur := tset r.cur 4 (some {bq with cause := 2}) }) (paged .admitted up)
/-- The band flume of K has nothing left. -/
def dry : State := noT (bandFl 0) q0
def x12 := {bq with cause := 2}
theorem wit_BandsAreStagedCheckedReleased_dry : (∀ b : Band, tget dry.rast.cur 0 = some b → domUp dry 4 = true →
    bandReady dry 0 b = false ∨ hasTally dry (bandFl 0) = false) ∧ bandReady dry 0 bq = true := by
  and_intros <;> decide +kernel
/-- From R18 and R398: the tally of the band flume is taken when the checked band is staged, not when its staging starts. -/
theorem test_band_takes_its_tally_when_staged :
    (getFl (gotSt (exec (.bandStage 0 (some (bdesc 0 1 0 4096 20 2 0))) p0)) (bandFl 0)).tally = (getFl p0 (bandFl 0)).tally ∧
    (getFl (gotSt (exec (.bandCheckDone 0) q0)) (bandFl 0)).tally + 1 = (getFl q0 (bandFl 0)).tally ∧
    pageByHandle { q0 with cue := { q0.cue with pages := [] } } bq.handle = none := by
  and_intros <;> decide +kernel
theorem wit_BandsAreStagedCheckedReleased :
    (stageNext p0 0 = some (aPage PlanSt.posted 1) ∧ freeSlot p0 0 = some 0 ∧ (domUp p0 4 = true ∧ tget p0.rast.cur 0 = none ∧
      hasTally p0 (bandFl 0) = true) ∧ Memory.wf p0.rast.land = true ∧ some (bdesc 0 1 0 4096 20 2 0) = some (bdesc 0 1 0 4096 20 2 0) ∧
      aPage PlanSt.posted 1 ∈ p0.cue.pages) ∧
    (stageNext p0 0 = some (aPage PlanSt.posted 1) ∧ freeSlot p0 0 = some 0 ∧ (domUp p0 4 = true ∧ tget p0.rast.cur 0 = none ∧
      hasTally p0 (bandFl 0) = true) ∧ Memory.wf p0.rast.land = true ∧ some (bdesc 0 0 0 4096 20 2 0) = some (bdesc 0 0 0 4096 20 2 0)) ∧
    (stageNext p0 0 = some (aPage PlanSt.posted 1) ∧ freeSlot p0 0 = some 0 ∧ (domUp p0 4 = true ∧ tget p0.rast.cur 0 = none ∧
      hasTally p0 (bandFl 0) = true) ∧ Memory.wf p0.rast.land = true) ∧
    ((stageNext up 0 = none ∨ freeSlot up 0 = none ∨ ¬(domUp up 4 = true ∧ tget up.rast.cur 0 = none ∧ hasTally up (bandFl 0) = true))) ∧
    (tget q0.rast.cur 0 = some bq ∧ domUp q0 4 = true ∧ hasTally q0 (bandFl 0) = true ∧ (bq.cause ≠ 0 ∨ bq.empty = true ∨ (tget q0.rast.dec 0).active = false) ∧
      (if bq.cause ≠ 0 then (BitVec.toNat bq.cause, 0) else if bq.empty = true then (0, 0) else if (tget q0.rast.dec 0).err ≠ 0 then (2,
      (tget q0.rast.dec 0).err) else if (tget q0.rast.dec 0).total ≠ bq.lines * bq.lpitch then (3,
      0) else if crc32c (memRead q0.rast.land (slotAddr q0 0 bq.slot) (bq.lines * bq.lpitch)) ≠ bq.bcrc then (4, 0) else (0, 0)).fst = 0 ∧
      pageByHandle q0 bq.handle = some (aPage PlanSt.posted 1) ∧ (¬((aPage PlanSt.posted 1).isAdm = true ∧
      bandStarted q0 (aPage PlanSt.posted 1) 0 bq = true))) ∧
    (tget x5.rast.cur 0 = some x6 ∧ domUp x5 4 = true ∧ hasTally x5 (bandFl 0) = true ∧ (x6.cause ≠ 0 ∨ x6.empty = true ∨ (tget x5.rast.dec 0).active = false) ∧
      (if x6.cause ≠ 0 then (BitVec.toNat x6.cause, 0) else if x6.empty = true then (0, 0) else if (tget x5.rast.dec 0).err ≠ 0 then (2,
      (tget x5.rast.dec 0).err) else if (tget x5.rast.dec 0).total ≠ x6.lines * x6.lpitch then (3,
      0) else if crc32c (memRead x5.rast.land (slotAddr x5 0 x6.slot) (x6.lines * x6.lpitch)) ≠ x6.bcrc then (4, 0) else (0, 0)).fst ≠ 0 ∧
      pageByHandle x5 x6.handle = some (aPage PlanSt.admitted 1) ∧ (aPage PlanSt.admitted 1).isAdm = true ∧ ↑0 < 4) ∧
    (tget x8.rast.cur 0 = some x9 ∧ domUp x8 4 = true ∧ hasTally x8 (bandFl 0) = true ∧ (x9.cause ≠ 0 ∨ x9.empty = true ∨ (tget x8.rast.dec 0).active = false) ∧
      (if x9.cause ≠ 0 then (BitVec.toNat x9.cause, 0) else if x9.empty = true then (0, 0) else if (tget x8.rast.dec 0).err ≠ 0 then (2,
      (tget x8.rast.dec 0).err) else if (tget x8.rast.dec 0).total ≠ x9.lines * x9.lpitch then (3,
      0) else if crc32c (memRead x8.rast.land (slotAddr x8 0 x9.slot) (x9.lines * x9.lpitch)) ≠ x9.bcrc then (4, 0) else (0, 0)).fst ≠ 0 ∧
      pageByHandle x8 x9.handle = some (aPage PlanSt.posted 1) ∧ (aPage PlanSt.posted 1).isAdm = false) ∧
    ((∀ (b : Band), tget p0.rast.cur 0 = some b → domUp p0 4 = true → bandReady p0 0 b = false ∨ hasTally p0 (bandFl 0) = false)) := by
  and_intros <;> decide +kernel
theorem wit_BandsAreStagedCheckedReleased_2 :
    (tget q1.rast.cur 0 = some bq ∧ domUp q1 4 = true ∧ hasTally q1 (bandFl 0) = true ∧ (bq.cause ≠ 0 ∨ bq.empty = true ∨ (tget q1.rast.dec 0).active = false) ∧
      (if bq.cause ≠ 0 then (BitVec.toNat bq.cause, 0) else if bq.empty = true then (0, 0) else if (tget q1.rast.dec 0).err ≠ 0 then (2,
      (tget q1.rast.dec 0).err) else if (tget q1.rast.dec 0).total ≠ bq.lines * bq.lpitch then (3,
      0) else if crc32c (memRead q1.rast.land (slotAddr q1 0 bq.slot) (bq.lines * bq.lpitch)) ≠ bq.bcrc then (4, 0) else (0, 0)).fst = 0 ∧
      (∀ (g : Page), pageByHandle q1 bq.handle = some g → g.isAdm = true ∧ bandStarted q1 g 0 bq = true)) ∧
    (doneBand r0 0 = some (band 0) ∧ domUp r0 3 = true ∧ bandEnd r0 0 (band 0) < 2 ^ 64) ∧
    (doneBand p0 0 = none) ∧
    (tget hd0.rast.cur 4 = some x12 ∧ domUp hd0 4 = true ∧ hasTally hd0 (bandFl 4) = true ∧ (x12.cause ≠ 0 ∨ x12.empty = true ∨ (tget hd0.rast.dec 4).active = false) ∧
      (if x12.cause ≠ 0 then (BitVec.toNat x12.cause, 0) else if x12.empty = true then (0, 0) else if (tget hd0.rast.dec 4).err ≠ 0 then (2,
      (tget hd0.rast.dec 4).err) else if (tget hd0.rast.dec 4).total ≠ x12.lines * x12.lpitch then (3,
      0) else if crc32c (memRead hd0.rast.land (slotAddr hd0 4 x12.slot) (x12.lines * x12.lpitch)) ≠ x12.bcrc then (4, 0) else (0, 0)).fst ≠ 0 ∧
      pageByHandle hd0 x12.handle = some (aPage PlanSt.admitted 1) ∧ (aPage PlanSt.admitted 1).isAdm = true ∧ ↑4 = 4) := by
  and_intros <;> decide +kernel
end BandsAreStagedCheckedReleased

namespace BeamScansAndStations
def stn (f : StationS → StationS) (s : State) : State := modStn 0 f s
/-- station 0 with locked tracker 3 at NOM -/
def poly (s : State) : State := { s with cue := { s.cue with trk := tmod s.cue.trk 3 fun k => { k with st := .locked, p256 := 256 * 10000, en := true } }, beam := { s.beam with nom := 10000, tol := 10 } }
def sc0 : Scan := { d := 900, e := some 950, win := 20, page := some 1, lptr := 0, tab := Vector.replicate 8 100, apcm := 100, begun := 0, sampled := 0 }
def base (x : StationS) : StationS := { x with st := .ready, curTrk := 3, cur := { x.cur with pixels := 8, tpix := 5120, sos := 100, gain := 4, pwm := Vector.ofFn fun i => BitVec.ofNat 7 (9*(i.1+1)) }, scan := some sc0, polySeen := true, trim := 1024, beams := x.beams.map fun b => { b with curIlim := 3000, curTgt := 1000, curBoff := 2, idrv := 500 } }
def w1 : State := stn (fun x => { base x with scan := some { sc0 with e := none } }) (modCue (fun q => { q with et := 910 }) (poly up))
def x1 := { sc0 with e := none }
def pp (st : PlanSt) (s : State) : State := modCue (fun q => { q with et := 960, pages := [aPage st 1] }) s
def res1 (s : State) : State := modRast (fun r => { r with res := Vector.replicate 10 { en := true, units := 8, base := 0, slot := 1 }, land := memWrite r.land 64 [0x81] }) s
def l0 : State := res1 (pp .admitted (bands (stn base (poly up))))
def x3 := (modRast (fun r => { r with staged := tset r.staged 0 [{band 0 with ueFrom := some 1}] }) l0)
def x4 := {band 0 with ueFrom := some 1}
def x5 := (modRast (fun r => { r with staged := tset r.staged 0 [] }) l0)
def x7 := (stn (fun x => { x with scan := some { sc0 with lptr := -5 } }) l0)
def x8 := { sc0 with lptr := -5 }
def x9 := (stn (fun x => { x with scan := some { sc0 with begun := 2 } }) l0)
def x10 := { sc0 with begun := 2 }
def scB : Scan := { sc0 with begun := 2 }
def a0 : State := stn (fun x => { x with scan := some scB }) l0
def f1 : CalFacet := { e := 900, apcm := 100, sampled := 1 }
def a1 : State := stn (fun x => { x with st := .cal, scan := none, facet := some f1, beams := tset (x.beams.map fun b => { b with okN := 16 }) 1 { tget x.beams 1 with okN := 15 } }) l0
def x15 := { a1 with aon := { a1.aon with hold := true } }
def x16 := (modCue (fun q => { q with pages := [] }) l0)
def x17 := (stn (fun x => { x with facets := 256 }) a1)
def offS (x : StationS) : StationS := { base x with st := .off, xp := true, profile := 3, reg := { (base x).cur with pixels := 100, tpix := 5000 }, scan := none }
def n0 : State := stn offS (poly up)
def cld (s : State) := ((beamLoad s 0).map (·.1)).getD (getStn s 0).cur
def vld (s : State) := ((beamLoad s 0).map (·.2)).getD (Vector.replicate 32 (0,0,0))
def x18 := (stn (fun x => { x with xp := false }) n0)
def x19 := (modCue (fun q => { q with pages := [] }) l0)
theorem wit_BeamScansAndStations :
    ((getStn w1 0).scan = some x1 ∧ x1.e = none ∧ domUp w1 3 = true ∧ x1.d + x1.win < 2 ^ 64) ∧
    ((∀ (sc : Scan), (getStn (stn base w1) 0).scan = some sc → sc.e.isSome = true)) ∧
    ((getStn l0 0).scan = some sc0 ∧ sc0.e = some 950 ∧ sc0.begun.getLsbD ↑1 = false ∧ domUp l0 3 = true ∧
      950 + (getStn l0 0).cur.sos.toNat + BitVec.toNat (tget (getStn l0 0).beams 1).curBoff < 2 ^ 64 ∧
      sc0.page.bind (pageByAdm l0) = some (aPage PlanSt.admitted 1) ∧ 0 ≤ sc0.lptr + ↑↑1 ∧
      sc0.lptr + ↑↑1 < ↑(tget (aPage PlanSt.admitted 1).plan.lines 0) ∧
      List.find? (fun (q : Band) => q.has (aPage PlanSt.admitted 1).handle (sc0.lptr + ↑↑1).toNat) (tget l0.rast.staged (beamEngine 0)) = some (band 0) ∧ ((band 0).pass = true ∧ ∀ (u : Nat), (band 0).ueFrom = some u → (sc0.lptr + ↑↑1).toNat < u) ∧ Ecc.clean ≠ Ecc.uncorrectable) ∧
    ((getStn l0 0).scan = some sc0 ∧ sc0.e = some 950 ∧ sc0.begun.getLsbD ↑1 = false ∧
      sc0.page.bind (pageByAdm l0) = some (aPage PlanSt.admitted 1) ∧ 0 ≤ sc0.lptr + ↑↑1 ∧
      sc0.lptr + ↑↑1 < ↑(tget (aPage PlanSt.admitted 1).plan.lines 0) ∧
      List.find? (fun (q : Band) => q.has (aPage PlanSt.admitted 1).handle (sc0.lptr + ↑↑1).toNat) (tget l0.rast.staged (beamEngine 0)) = some (band 0) ∧ ((band 0).pass = true ∧ ∀ (u : Nat), (band 0).ueFrom = some u → (sc0.lptr + ↑↑1).toNat < u) ∧ Ecc.uncorrectable = Ecc.uncorrectable ∧ (band 0).handle = (band 0).handle ∧ (band 0).no = (band 0).no) ∧
    ((getStn x3 0).scan = some sc0 ∧ sc0.e = some 950 ∧ sc0.begun.getLsbD ↑1 = false ∧
      sc0.page.bind (pageByAdm x3) = some (aPage PlanSt.admitted 1) ∧ 0 ≤ sc0.lptr + ↑↑1 ∧
      sc0.lptr + ↑↑1 < ↑(tget (aPage PlanSt.admitted 1).plan.lines 0) ∧
      List.find? (fun (q : Band) => q.has (aPage PlanSt.admitted 1).handle (sc0.lptr + ↑↑1).toNat) (tget x3.rast.staged (beamEngine 0)) = some x4 ∧
      (¬(x4.pass = true ∧ ∀ (u : Nat), x4.ueFrom = some u → (sc0.lptr + ↑↑1).toNat < u))) ∧
    ((getStn x5 0).scan = some sc0 ∧ sc0.e = some 950 ∧ sc0.begun.getLsbD ↑1 = false ∧
      sc0.page.bind (pageByAdm x5) = some (aPage PlanSt.admitted 1) ∧ 0 ≤ sc0.lptr + ↑↑1 ∧
      sc0.lptr + ↑↑1 < ↑(tget (aPage PlanSt.admitted 1).plan.lines 0) ∧
      List.find? (fun (q : Band) => q.has (aPage PlanSt.admitted 1).handle (sc0.lptr + ↑↑1).toNat) (tget x5.rast.staged (beamEngine 0)) = none ∧
      (aPage PlanSt.admitted 1).handle = (aPage PlanSt.admitted 1).handle ∧
      ((tget x5.rast.starved (beamEngine 0)).any fun (y : Starved) => y.handle == (aPage PlanSt.admitted 1).handle && y.no == lateBand x5 (beamEngine 0) (aPage PlanSt.admitted 1) (sc0.lptr + ↑↑1).toNat) = false) ∧
    ((getStn x7 0).scan = some x8 ∧ x8.e = some 950 ∧ x8.begun.getLsbD ↑1 = false ∧ (∀ (g : Page),
      x8.page.bind (pageByAdm x7) = some g → x8.lptr + ↑↑1 < 0 ∨ ↑(tget g.plan.lines 0) ≤ x8.lptr + ↑↑1)) ∧
    ((getStn x9 0).scan = some x10 ∧ x10.e = some 950 ∧ x10.begun.getLsbD ↑1 = true) := by
  and_intros <;> decide +kernel
/-- From R410: a beam is sampled once on each facet of CAL. -/
theorem test_cal_samples_once : (tget (getStn (gotSt (exec (.apcSample 0 0 500) a1)) 0).beams 0).pd = (tget (getStn a1 0).beams 0).pd ∧
    (tget (getStn (gotSt (exec (.apcSample 0 1 937) a1)) 0).beams 1).pd = 937 := by
  and_intros <;> decide +kernel
theorem wit_BeamScansAndStations_2 :
    (a0.aon.hold = false ∧ domUp a0 5 = true ∧ (getStn a0 0).st = BeamSt.ready ∧ (getStn a0 0).scan = some scB ∧ scB.e.isSome = true ∧
      scB.begun.getLsbD 1 = true ∧ scB.sampled.getLsbD 1 = false) ∧
    (a1.aon.hold = false ∧ domUp a1 5 = true ∧ (getStn a1 0).st = BeamSt.cal ∧ (getStn a1 0).polySeen = true ∧ polyOk a1 0 = true ∧
      (getStn a1 0).facet = some f1 ∧ f1.sampled.getLsbD 1 = false) ∧
    x15.aon.hold = true ∧
    (lenHigh l0 0 = true ∧ (∃ c : Beam, True) ∧ (¬(domUp l0 5 = true ∧ (getStn l0 0).st = BeamSt.cal ∧ l0.aon.hold = false ∧
      256 ≤ (getStn l0 0).facets))) ∧
    (lenHigh x16 0 = true ∧ x16.cue.pages = []) ∧
    (lenHigh x17 0 = true ∧ (aPage PlanSt.aborting 1).isAdm = true ∧ (aPage PlanSt.aborting 1).uses ↑0 = true ∧ (domUp x17 5 = true ∧
      (getStn x17 0).st = BeamSt.cal ∧ x17.aon.hold = false ∧ 256 ≤ (getStn x17 0).facets) ∧ (∃ c : Beam, True)) ∧
    (lenHigh up 0 = false) ∧
    (reach n0 Port.bar0 5 = true ∧ (getStn n0 0).st = BeamSt.off ∧ beamLoad n0 0 = some (cld n0, vld n0) ∧ beamGeom n0 (cld n0) (vld n0) = true ∧
      (∃ b : Beam, True) ∧ (getStn n0 0).xp = true ∧ (¬((getStn n0 0).st = BeamSt.ready ∧ ∀ (g : Page),
      g ∈ n0.cue.pages → g.isAdm = true → g.uses ↑0 = false))) := by
  and_intros <;> decide +kernel
theorem wit_BeamScansAndStations_3 :
    (reach x18 Port.bar0 5 = true ∧ (getStn x18 0).st = BeamSt.off ∧ beamLoad x18 0 = none) ∧
    (reach l0 Port.bar0 5 = true ∧ (getStn l0 0).st ≠ BeamSt.off ∧ (aPage PlanSt.aborting 1).isAdm = true ∧
      (aPage PlanSt.aborting 1).uses ↑0 = true) ∧
    (reach x19 Port.bar0 5 = true ∧ ((getStn x19 0).st = BeamSt.ready ∧ ∀ (g : Page), g ∈ x19.cue.pages → g.isAdm = true → g.uses ↑0 = false) ∧
      (∃ b : Beam, True)) := by
  and_intros <;> decide +kernel
end BeamScansAndStations

namespace MotorsMoveStopAndFault
def mo (m : Nat) (f : StepperS → StepperS) (s : State) : State := { s with motn := { s.motn with step := tmod s.motn.step (Fin.ofNat 16 m) f } }
def bl (m : Nat) (f : BldcS → BldcS) (s : State) : State := { s with motn := { s.motn with bldc := tmod s.motn.bldc (Fin.ofNat 4 m) f } }
def run9 (s : State) : State := modCue (fun q => { q with et := 1000, ch := tmod q.ch 9 fun x => { x with st := .running } }) { s with motn := { s.motn with vmotOk := true } }
def U := run9 up
def held (s : State) : State := { s with aon := { s.aon with hold := true } }
def hg : Segment := { theSeg with home := true, homeSrc := 0x85, target := 0-1000 }
def m1 : State := mo 3 (fun x => { x with st := .hold, homed := true, q := [theSeg] }) U
def x1 := (mo 3 (fun x => { x with st := .moving}) m1)
def x2 := (mo 3 (fun x => { x with st := .fault}) m1)
def x3 := (mo 3 (fun x => { x with homed := false}) m1)
def m2 : State := bl 1 (fun x => { x with q := [theSeg] }) U
def mv (g : Segment) (p : Nat) (x : StepperS) : StepperS := { x with st := .moving, homed := true, cur := some g, goal := 1000, pos := BitVec.ofNat 32 p, vel := 3000, q := [] }
def t1 : State := mo 3 (mv theSeg 100) U
def x8 := (mo 3 (fun x => { mv hg 1000 x with vel := 0 }) U)
def st1 : State := mo 3 (fun x => { mv theSeg 100 x with st := .stopping, vel := -300000000 }) U
def x9 := (mo 3 (fun x => { x with vel := -3 }) st1)
def b1 : State := bl 1 (fun x => { x with st := .moving, cur := some theSeg, q := [hg] , set_ := 5}) U
def b2 : State := bl 1 (fun x => { x with hall := 3, loopSlot := 2, stallT := 4, lastHall := 100, speed := 77 }) (modLoop 2 (fun x => { x with st := .run, kind := 3, u := 55, uOld := 55, out := 1 }) b1)
def x14 := (mo 3 (fun x => { x with st := .fault, q := [theSeg, hg]}) m1)
def x15 := (bl 1 (fun x => { x with st := .fault}) b1)
def x17 := (bl 1 (fun x => { x with hall := 7 }) b1)
theorem wit_MotorsMoveStopAndFault :
    (domUp m1 6 = true ∧ (match motKind 3 with | Sum.inl n => (getStep m1 n).q | Sum.inr k => (getBldc m1 k).q) = [theSeg] ∧
      ((match motKind 3 with | Sum.inl n => (getStep m1 n).st | Sum.inr k => (getBldc m1 k).st) = MotSt.idle ∨
      (match motKind 3 with | Sum.inl n => (getStep m1 n).st | Sum.inr k => (getBldc m1 k).st) = MotSt.hold) ∧ m1.aon.hold = false ∧ m1.motn.vmotOk = true ∧
      (∀ (n : Fin 16), motKind 3 = Sum.inl n → (getStep m1 n).coupled = false) ∧
      (∀ (n : Fin 16), motKind 3 = Sum.inl n → theSeg.home = true ∨ (getStep m1 n).homed = true) ∧ motKind 3 = Sum.inl 3 ∧ (theSeg.home = true ∨
      theSeg.target ≠ BitVec.toInt (getStep m1 3).pos)) ∧
    (domUp x1 6 = true ∧ (match motKind 3 with | Sum.inl n => (getStep x1 n).q | Sum.inr k => (getBldc x1 k).q) = [theSeg] ∧
      ((match motKind 3 with | Sum.inl n => (getStep x1 n).st | Sum.inr k => (getBldc x1 k).st) = MotSt.moving ∨
      (match motKind 3 with | Sum.inl n => (getStep x1 n).st | Sum.inr k => (getBldc x1 k).st) = MotSt.stopping)) ∧
    (domUp x2 6 = true ∧ (match motKind 3 with | Sum.inl n => (getStep x2 n).q | Sum.inr k => (getBldc x2 k).q) = [theSeg] ∧
      (match motKind 3 with | Sum.inl n => (getStep x2 n).st | Sum.inr k => (getBldc x2 k).st) = MotSt.fault ∧ x2.cue.pages = [] ∧
      liveChan x2 theSeg.chan = true) ∧
    (domUp (held m1) 6 = true ∧ (match motKind 3 with | Sum.inl n => (getStep (held m1) n).q | Sum.inr k => (getBldc (held m1) k).q) = [theSeg] ∧
      ((match motKind 3 with | Sum.inl n => (getStep (held m1) n).st | Sum.inr k => (getBldc (held m1) k).st) = MotSt.idle ∨
      (match motKind 3 with | Sum.inl n => (getStep (held m1) n).st | Sum.inr k => (getBldc (held m1) k).st) = MotSt.hold) ∧
      (held m1).aon.hold = true) ∧
    (domUp x3 6 = true ∧ (match motKind 3 with | Sum.inl n => (getStep x3 n).q | Sum.inr k => (getBldc x3 k).q) = [theSeg] ∧
      ((match motKind 3 with | Sum.inl n => (getStep x3 n).st | Sum.inr k => (getBldc x3 k).st) = MotSt.idle ∨
      (match motKind 3 with | Sum.inl n => (getStep x3 n).st | Sum.inr k => (getBldc x3 k).st) = MotSt.hold) ∧ x3.aon.hold = false ∧
      (∀ (n : Fin 16), motKind 3 = Sum.inl n → (getStep x3 n).coupled = false) ∧
      (¬∀ (n : Fin 16), motKind 3 = Sum.inl n → theSeg.home = true ∨ (getStep x3 n).homed = true) ∧ x3.cue.pages = [] ∧
      liveChan x3 theSeg.chan = true) ∧
    (domUp m2 6 = true ∧ (match motKind 17 with | Sum.inl n => (getStep m2 n).q | Sum.inr k => (getBldc m2 k).q) = [theSeg] ∧
      ((match motKind 17 with | Sum.inl n => (getStep m2 n).st | Sum.inr k => (getBldc m2 k).st) = MotSt.idle ∨
      (match motKind 17 with | Sum.inl n => (getStep m2 n).st | Sum.inr k => (getBldc m2 k).st) = MotSt.hold) ∧ m2.aon.hold = false ∧
      (∀ (n : Fin 16), motKind 17 = Sum.inl n → theSeg.home = true ∨ (getStep m2 n).homed = true) ∧ motKind 17 = Sum.inr 1) ∧
    (domUp t1 6 = true ∧ t1.cue.pages = [] ∧ nextEval t1 = some 4000 ∧
      ((getStep t1 1).st = MotSt.idle ∨ (getStep t1 1).st = MotSt.hold ∨ (getStep t1 1).st = MotSt.fault)) ∧
    (domUp x8 6 = true ∧ x8.cue.pages = [] ∧ nextEval x8 = some 4000 ∧ (getStep x8 3).st = MotSt.moving ∧
      (getStep x8 3).cur = some hg ∧ (getStep x8 3).homeHit = false ∧ hg.home = true ∧
      BitVec.getLsbD (4095 : BitVec 12) (bitsN hg.homeSrc 3 0) = BitVec.getLsbD hg.homeSrc 7 ∧ (getStep x8 3).vel = 0) := by
  and_intros <;> decide +kernel
theorem wit_MotorsMoveStopAndFault_2 :
    (domUp st1 6 = true ∧ st1.cue.pages = [] ∧ nextEval st1 = some 4000 ∧ (getStep st1 3).st = MotSt.stopping ∧
      max 0 (↑(getStep st1 3).vel.natAbs - 16 * ↑(256 * max 1 (BitVec.toNat (getStep st1 3).safeDec))) ≠ 0) ∧
    (domUp x9 6 = true ∧ x9.cue.pages = [] ∧ nextEval x9 = some 4000 ∧ (getStep x9 3).st = MotSt.stopping ∧
      max 0 (↑(getStep x9 3).vel.natAbs - 16 * ↑(256 * max 1 (BitVec.toNat (getStep x9 3).safeDec))) = 0) ∧
    (domUp b1 6 = true ∧ b1.cue.pages = [] ∧ nextEval b1 = some 4000 ∧ (∃ n : Fin 16, True) ∧
      (getBldc b1 1).st = MotSt.moving ∧ (getBldc b1 1).cur = some theSeg) ∧
    (domUp t1 6 = true ∧ motorAlive t1 3 = true ∧ motKind 3 = Sum.inl 3 ∧ t1.cue.pages = [] ∧ t1.scan.st = ScanSt.off) ∧
    (domUp U 6 = true ∧ motorAlive U 3 = true ∧ (∃ n : Fin 16, motKind 3 = Sum.inl n)) ∧
    (domUp b1 6 = true ∧ motorAlive b1 17 = true ∧ motKind 17 = Sum.inr 1) ∧
    (domUp b2 6 = true ∧ (getBldc b2 1).st = MotSt.moving ∧ motKind (bldcMotor 1) = Sum.inr 1 ∧ b2.cue.pages = [] ∧
      b2.scan.st = ScanSt.off ∧ ((getBldc b2 1).st = MotSt.fault ∨ ¬((getBldc b2 1).hall = 0 ∨ (getBldc b2 1).hall = 7))) ∧
    (domUp b1 6 = true ∧ ((getBldc b1 1).st ≠ MotSt.moving ∧ (getBldc b1 1).st ≠ MotSt.stopping ∨ bldcDuty b1 1 = 0)) := by
  and_intros <;> decide +kernel
/-- The duty of motor 1: its slot's output, old and new alike. -/
theorem wit_MotorsMoveStopAndFault_duty : bldcDuty b2 1 ≠ 0 := by
  have h : bldcDuty b2 1 = (outNow b2 (getLoop b2 2)).toNat := by
    unfold bldcDuty
    rw [dif_pos (by decide +kernel), if_pos (by decide +kernel)]
    rfl
  have hu : (getLoop b2 2).u = 55 ∧ (getLoop b2 2).uOld = 55 := by decide +kernel
  rw [h, outNow, hu.1, hu.2, ite_self]
  decide
theorem wit_MotorsMoveStopAndFault_3 :
    (reach t1 Port.bar0 6 = true ∧ motKind 3 = Sum.inl 3 ∧ (getStep t1 3).st ≠ MotSt.fault ∧ (getStep t1 3).vel ≠ 0 ∧
      (getFl t1 (motFl 3)).down = false ∧ ((getStep t1 3).st ≠ MotSt.fault ∨ t1.motn.vmotOk = false) ∧ (¬(((getStep t1 3).st = MotSt.idle ∨
      (getStep t1 3).st = MotSt.hold) ∧ (getStep t1 3).q = [] ∧ (getStep t1 3).cur = none))) ∧
    (reach m1 Port.bar0 6 = true ∧ motKind 3 = Sum.inl 3 ∧ (getStep m1 3).st ≠ MotSt.fault ∧ (getStep m1 3).vel = 0) ∧
    (reach x14 Port.bar0 6 = true ∧ motKind 3 = Sum.inl 3 ∧ (getStep x14 3).st = MotSt.fault ∧ x14.motn.vmotOk = true) ∧
    (reach U Port.bar0 6 = true ∧ motKind 3 = Sum.inl 3 ∧ (((getStep U 3).st = MotSt.idle ∨ (getStep U 3).st = MotSt.hold) ∧ (getStep U 3).q = [] ∧
      (getStep U 3).cur = none)) ∧
    (reach b1 Port.bar0 6 = true ∧ motKind 17 = Sum.inr 1 ∧ ((getBldc b1 1).st ≠ MotSt.fault ∨ b1.motn.vmotOk = false)) ∧
    (reach x15 Port.bar0 6 = true ∧ motKind 17 = Sum.inr 1 ∧ (getBldc x15 1).st = MotSt.fault ∧ x15.motn.vmotOk = true) ∧
    (domUp x17 6 = true ∧ (getBldc x17 1).st ≠ MotSt.fault ∧ ((getBldc x17 1).hall = 0 ∨ (getBldc x17 1).hall = 7) ∧
      motKind (bldcMotor 1) = Sum.inr 1 ∧ x17.cue.pages = [] ∧ x17.scan.st = ScanSt.off) := by
  and_intros <;> decide +kernel
theorem wit_MotorsMoveStopAndFault_joint : (getStep t1 3).joint = none := by decide +kernel
/-- A segment that waits for its stepper's coupled step, one taken up with the motor supply bad, and no trajectory to evaluate. -/
def cpl : State := mo 3 (fun x => { x with coupled := true }) m1
def noV (s : State) : State := { s with motn := { s.motn with vmotOk := false } }
theorem wit_MotorsMoveStopAndFault_takeup : ((getStep cpl 3).q = [theSeg] ∧ (getStep cpl 3).st = .hold ∧ (getStep cpl 3).coupled = true ∧
      cpl.aon.hold = false ∧ domUp cpl 6 = true) ∧
    ((getStep (noV m1) 3).q = [theSeg] ∧ (getStep (noV m1) 3).coupled = false ∧ (getStep (noV m1) 3).homed = true ∧
      (noV m1).motn.vmotOk = false ∧ (noV m1).cue.pages = []) ∧ nextEval U = none ∧
    ((getStep t1 3).evalAt + 4000 ≤ 4000 + t1.now ∧ (getBldc b1 1).evalAt + 4000 ≤ b1.now) := by
  and_intros <;> decide +kernel
/-- From R544: while the stepper's coupled step runs the segment stays in its queue. -/
theorem test_segment_waits_for_coupled_step : (getStep (gotSt (exec (.segmentTakeup 3) cpl)) 3).q = [theSeg] ∧
    (getStep (gotSt (exec (.segmentTakeup 3) m1)) 3).q = [] := by
  and_intros <;> decide +kernel
end MotorsMoveStopAndFault

namespace LoopsSampleLockAndShort
def lp (f : LoopS → LoopS) (s : State) : State := modLoop 2 f s
def G : Gains := { kp := 300, ki := 20, kd := 10, period := 200000, lockTol := 10, lockN := 2, omin := 0, omax := 4000, retry := 1, cool := 5, oph := 200, trailPct := 20, trailWin := 10, tht := none }
def spE (t : Nat) (r : Option Nat) : SpEntry := ⟨t, r, 9, 0⟩
def U : State := modCue (fun q => { q with et := 1000, ch := tmod q.ch 9 fun x => { x with st := .running } }) up
def L (k : BitVec 3) (f : LoopS → LoopS) : State := lp (fun x => f { x with st := .run, kind := k, inp := 3, out := 2, g := G, startAt := 900, target := 256 * 500, sp := 256 * 400, mPrev := some 450, i := 1000, u := 77, q := [spE 600 (some 16), spE 700 none], tries := 1 }) U
def x5 := (L 2 (fun x => { x with sp := x.target, q := [], inN := 1, gNext := some { G with lockTol := 50 } }))
def x6 := (L 2 (fun x => { x with sp := x.target, q := [], outN := 1, locked := true }))
def x14 := (L 4 (fun x => { x with uNext := some 99 }))
def x15 := (L 2 (fun x => { x with uNext := some 99 }))
def dp : State := modLoop 3 (fun x => { x with st := .run, kind := 1, dep := 4, q := [spE 300 none] }) (L 1 id)
def x17 := (L 1 (fun x => { x with st := .cool, again := 256 * 500 }))
def x18 := { L 1 (fun x => { x with st := .cool, again := 256 * 500 }) with aon := { up.aon with hold := true } }
def x19 := (L 1 (fun x => { x with st := .cool, again := 256 * 500 }))
def x20 := (L 2 (fun x => { x with st := .fault, cause := 3, out := 1 }))
theorem wit_LoopsSampleLockAndShort :
    (domUp (L 2 id) 7 = true ∧ (getLoop (L 2 id) 2).st = LoopSt.run ∧ domUp (L 2 id) 3 = true ∧ nextSample (getLoop (L 2 id) 2) < 2 ^ 64 ∧
      (getFl (L 2 id) (spFl 2)).down = false) ∧
    (domUp x5 7 = true ∧ (getLoop x5 2).st = LoopSt.run) ∧
    (domUp x6 7 = true ∧ (getLoop x6 2).st = LoopSt.run) ∧
    (domUp U 7 = true ∧ (getLoop U 2).st ≠ LoopSt.run) ∧
    (domUp U 7 = true ∧ ((getLoop U 2).uNext = none ∨ (getLoop U 2).st ≠ LoopSt.run) ∧ ((getLoop U 2).st ≠ LoopSt.run ∨ (getLoop U 2).kind ≠ 1) ∧
      (getLoop U 2).st ≠ LoopSt.cool) ∧
    (domUp x14 7 = true ∧ (getLoop x14 2).uNext = some 99 ∧ (getLoop x14 2).st = LoopSt.run ∧ (getLoop x14 2).kind = 4 ∧ domUp x14 3 = true ∧
      (getLoop x14 2).startAt - 1 + 160 < 2 ^ 64) ∧
    (domUp x15 7 = true ∧ (getLoop x15 2).uNext = some 99 ∧ (getLoop x15 2).st = LoopSt.run ∧ (getLoop x15 2).kind ≠ 4) ∧
    (domUp (L 1 id) 7 = true ∧ (getLoop (L 1 id) 2).st = LoopSt.run ∧ (getLoop (L 1 id) 2).kind = 1 ∧ (getLoop (L 1 id) 2).dep.getLsbD ↑2 = false ∧
      (getFl (L 1 id) (spFl 2)).down = false ∧ (L 1 id).cue.pages = [] ∧ (∀ (k : LoopId), (getLoop (L 1 id) k).dep.getLsbD ↑2 = false)) := by
  and_intros <;> decide +kernel
theorem wit_LoopsSampleLockAndShort_2 :
    (domUp dp 7 = true ∧ (getLoop dp 2).st = LoopSt.run ∧ (getLoop dp 2).kind = 1 ∧ (getLoop dp 2).dep.getLsbD ↑2 = false ∧ 3 ≠ 2 ∧
      (getLoop dp 3).dep.getLsbD ↑2 = true) ∧
    (domUp x17 7 = true ∧ (getLoop x17 2).st = LoopSt.cool ∧ x17.aon.hold = false) ∧
    (domUp x18 7 = true ∧ (getLoop x18 2).st = LoopSt.cool ∧ x18.aon.hold = true) ∧
    (reach x19 Port.bar0 7 = true ∧ ((getLoop x19 2).st = LoopSt.cool ∨ (getLoop x19 2).st = LoopSt.short) ∧ (getLoop x19 2).st ≠ LoopSt.run) ∧
    (reach (L 1 id) Port.bar0 7 = true ∧ ((getLoop (L 1 id) 2).st = LoopSt.off ∨ (getLoop (L 1 id) 2).st = LoopSt.run ∨
      (getLoop (L 1 id) 2).st = LoopSt.fault ∧ causeHolds (L 1 id) (getLoop (L 1 id) 2) = true) ∧ (getLoop (L 1 id) 2).st = LoopSt.run) ∧
    (reach x20 Port.bar0 7 = true ∧ (getLoop x20 2).st = LoopSt.fault ∧ causeHolds x20 (getLoop x20 2) = false) := by
  and_intros <;> decide +kernel
/-- Samples: a high-voltage slot on its way to the target, one that locks now, one that loses its lock now. -/
theorem wit_LoopsSampleLockAndShort_lock :
    ((getLoop (L 1 id) 2).kind = 1 ∧ (getLoop (L 1 id) 2).trail = false ∧ (getLoop (L 1 id) 2).sp ≠ (getLoop (L 1 id) 2).target) ∧
    ((getLoop x5 2).kind ≠ 1 ∧ (getLoop x5 2).locked = false ∧ (getLoop x5 2).sp = (getLoop x5 2).target ∧ (getLoop x5 2).q = [] ∧
      (getLoop x5 2).inN = 1) ∧
    ((getLoop x6 2).kind ≠ 1 ∧ (getLoop x6 2).locked = true ∧ (getLoop x6 2).q = [] ∧ (getLoop x6 2).outN = 1) := by
  and_intros <;> decide +kernel
/-- A high-voltage slot that went OFF at its own sample instant, and a speed slot whose motor gets a duty now. -/
def off1 : State := modCue (fun q => { q with et := BitVec.ofNat 64 (sampleFrom G 1000) }) (lp (fun x => { x with st := .off, kind := 1, g := G, startAt := 1000, offAt := some up.now }) U)
def spd : State := L 3 fun x => { x with u := 0, uNext := some 99 }
theorem wit_LoopsSampleLockAndShort_late : (domUp off1 7 = true ∧ (getLoop off1 2).st ≠ .run ∧ justOff off1 (getLoop off1 2) = true ∧
      nextSample (getLoop off1 2) = off1.cue.et.toNat ∧ (getLoop off1 2).trail = false) ∧
    ((getLoop spd 2).uNext = some 99 ∧ (getLoop spd 2).kind = 3 ∧ (getLoop spd 2).u = 0 ∧ domUp spd 7 = true) ∧
    justOff U (getLoop U 2) = false := by
  and_intros <;> decide +kernel
end LoopsSampleLockAndShort

namespace FuserAndThermalHead
def tbl : Vector (BitVec 16) 33 := Vector.ofFn fun i => BitVec.ofNat 16 (i.1 * 100)
def zn (k : Fin 2) (f : ZoneS → ZoneS) (s : State) : State := { s with loops := { s.loops with zone := tmod s.loops.zone k f } }
def zb (x : ZoneS) : ZoneS := { x with acc := 3000, zdly := 500, pri := 1, guard := 2, gpulses := 3, gpw := 20, tmax := 2000, tht := tbl }
def heat (o : BitVec 4) (l : LoopId) (s : State) : State := modLoop l (fun x => { x with st := .run, kind := 2, out := o, u := 2000 }) s
def z0 : State := zn 0 zb (zn 1 zb (heat 0 2 (heat 1 3 up)))
def z1 : State := { z0 with loops := { z0.loops with alt := true, lastZc := some 4 } }
def x1 := (zn 0 (fun x => { x with acc := 0 }) z1)
def z2 : State := zn 1 (fun x => { x with firing := some 2000 }) z0
def raws (n : Nat) : Vector (BitVec 12) 8 := Vector.replicate 8 (BitVec.ofNat 12 n)
def z3 : State := zn 0 (fun x => { x with ovt := 2 }) z0
def x3 := (zn 1 (fun x => { x with cause := 5, sens := 9 }) z0)
def HL : HLine := { d := 900, band := 2, panel := 1, page := 1, line := 3, marks := [3, 0, 5], blooms := [1, 0, 2], nb := 2, nm := 5, slot := 0, group := 0, latchAt := 0, stop := false }
def hd (f : HeadE → HeadE) (s : State) : State := { s with head := f s.head }
def cfg (c : HeadCfg) : HeadCfg := { c with elem64 := 1, gmax := 2, gap := 3, hdiv := 4, tht := tbl, mw := Vector.replicate 64 50, bw := Vector.replicate 64 20, maxp := Vector.replicate 4 9, hbt := Vector.ofFn fun i => BitVec.ofNat 12 (100 * i.1) }
def H (l : HLine) : State := hd (fun x => { x with st := .ready, railEn := false, cur := cfg x.cur, reg := cfg x.reg, line := some l, lineCtr := 3 }) (modCue (fun q => { q with et := 950 }) up)
def x4 := (H {HL with group := 4})
def x5 := { HL with group := 4 }
def x6 := (H {HL with group := 4})
def x7 := { HL with group := 4 }
def x12 := (H {HL with group := 1, slot := 3, latchAt := 1500})
def x13 := { HL with group := 1, slot := 3, latchAt := 1500 }
def x14 := (H {HL with group := 8, slot := 7, latchAt := 1500})
def x15 := { HL with group := 8, slot := 7, latchAt := 1500 }
def x18 := (hd (fun x => { x with htmax := 4000 }) (H HL))
def x19 := (hd (fun x => { x with htmax := 4000, badN := 2 }) (H HL))
def o0 : State := hd (fun x => { x with railEn := false, st := .off, xp := true, reg := cfg x.reg, htmax := 3000, hhys := 5 }) up
def hc (s : State) := ((headLoad s).map (·.1)).getD s.head.cur
def o1 : State := hd (fun x => { x with reg := { x.reg with bw := tset x.reg.bw 63 50 } }) o0
def x22 := (hd (fun x => { x with xp := false }) o0)
theorem wit_FuserAndThermalHead :
    (domUp z0 8 = true ∧ (fun (z : Zone) => Option.map (fun (l : LoopId) => min 8191 ((getZone z0 z).acc + (getLoop z0 l).u.toNat)) (runHeater z0 z)) 0 = some 5000 ∧ 4096 ≤ 5000 ∧ True ∧ (fun (z : Zone) => Option.map (fun (l : LoopId) => min 8191 ((getZone z0 z).acc + (getLoop z0 l).u.toNat)) (runHeater z0 z)) 1 = some 5000 ∧ (¬(z0.loops.alt = true ∧ ∃ (a : Nat), (fun (z : Zone) => Option.map (fun (l : LoopId) => min 8191 ((getZone z0 z).acc + (getLoop z0 l).u.toNat)) (runHeater z0 z)) 0 = some a ∧ 4096 ≤ a))) ∧
    (domUp z1 8 = true ∧ (fun (z : Zone) => Option.map (fun (l : LoopId) => min 8191 ((getZone z1 z).acc + (getLoop z1 l).u.toNat)) (runHeater z1 z)) 1 = some 5000 ∧ (5000 < 4096 ∨ ¬¬(z1.loops.alt = true ∧ ∃ (a : Nat), (fun (z : Zone) => Option.map (fun (l : LoopId) => min 8191 ((getZone z1 z).acc + (getLoop z1 l).u.toNat)) (runHeater z1 z)) 0 = some a ∧ 4096 ≤ a))) ∧
    (domUp x1 8 = true ∧ (fun (z : Zone) => Option.map (fun (l : LoopId) => min 8191 ((getZone x1 z).acc + (getLoop x1 l).u.toNat)) (runHeater x1 z)) 0 = some 2000 ∧ (2000 < 4096 ∨ ¬True)) ∧
    (domUp up 8 = true ∧ (∃ z : Zone, (fun (z : Zone) => Option.map (fun (l : LoopId) => min 8191 ((getZone up z).acc + (getLoop up l).u.toNat)) (runHeater up z)) z = none)) ∧
    ((getZone z2 1).firing = some 2000) ∧
    ((getZone z2 0).firing = none) ∧
    (domUp z0 8 = true ∧ z0.cue.pages = []) ∧
    (domUp z3 8 = true ∧ z3.cue.pages = [] ∧ (getZone z3 0).cause = 0 ∧
      ((3 ≤ if ↑(getZone z3 0).tmax.toNat < tableTemp (getZone z3 0).tht (4095 - (tget (raws 200) (Fin.ofNat 8 (getZone z3 0).pri.toNat)).toNat) ∨
      ↑(getZone z3 0).tmax.toNat < tableTemp (getZone z3 0).tht (4095 - (tget (raws 200) (Fin.ofNat 8 (getZone z3 0).guard.toNat)).toNat) then (getZone z3 0).ovt + 1 else 0) ∨ 3 ≤ if (tget (raws 200) (Fin.ofNat 8 (getZone z3 0).pri.toNat)).toNat ≤ 16 ∨ 4079 ≤ (tget (raws 200) (Fin.ofNat 8 (getZone z3 0).pri.toNat)).toNat ∨ (tget (raws 200) (Fin.ofNat 8 (getZone z3 0).guard.toNat)).toNat ≤ 16 ∨ 4079 ≤ (tget (raws 200) (Fin.ofNat 8 (getZone z3 0).guard.toNat)).toNat then (getZone z3 0).sens + 1 else 0) ∧ zoneSlot z3 0 = some 2) := by
  and_intros <;> decide +kernel
theorem wit_FuserAndThermalHead_2 :
    (domUp x3 8 = true ∧ x3.cue.pages = [] ∧ (getZone x3 1).cause ≠ 0) ∧
    (x4.head.line = some x5 ∧ (headEn x4 = true ∧ x5.stop = false ∧ x5.slot < x5.nb + x5.nm ∧ headGroups x4.head.cur ≤ x5.group) ∧ (x5.slot ≠ 0 ∨
      Ecc.clean ≠ Ecc.uncorrectable) ∧ domUp x4 3 = true ∧ nextLatch x4.head.cur x5 < 2 ^ 64 ∧ (¬(headEn x4 = true ∧ x5.stop = false ∧ x5.slot ≠ 0 ∧
      x5.group < headGroups x4.head.cur)) ∧ (¬(x5.stop = true ∨ x5.nb + x5.nm ≤ x5.slot ∧ headGroups x4.head.cur ≤ x5.group))) ∧
    (x6.head.line = some x7 ∧ (headEn x6 = true ∧ x7.stop = false ∧ x7.slot < x7.nb + x7.nm ∧ headGroups x6.head.cur ≤ x7.group) ∧ x7.slot = 0 ∧
      Ecc.uncorrectable = Ecc.uncorrectable) ∧
    (x12.head.line = some x13 ∧ (¬(headEn x12 = true ∧ x13.stop = false ∧ x13.slot < x13.nb + x13.nm ∧ headGroups x12.head.cur ≤ x13.group)) ∧
      (headEn x12 = true ∧ x13.stop = false ∧ x13.slot ≠ 0 ∧ x13.group < headGroups x12.head.cur) ∧ domUp x12 3 = true ∧
      x13.latchAt + x13.group * (slotWidth x12.head.cur x13.panel x13.band.toNat x13.nb (x13.slot - 1) + headGap x12.head.cur) < 2 ^ 64) ∧
    (x14.head.line = some x15 ∧ (x15.stop = true ∨ x15.nb + x15.nm ≤ x15.slot ∧ headGroups x14.head.cur ≤ x15.group)) ∧
    (up.head.line = none) ∧
    (domUp (H HL) 9 = true ∧ (H HL).head.st ≠ HeadSt.fault ∧
      ↑(H HL).head.htmax.toNat < tableTemp (H HL).head.cur.tht (4095 - BitVec.toNat (2000 : BitVec 12))) ∧
    (domUp x18 9 = true ∧ (x18.head.st = HeadSt.fault ∨
      ¬↑x18.head.htmax.toNat < tableTemp x18.head.cur.tht (4095 - BitVec.toNat (2000 : BitVec 12)) ∧ (if BitVec.toNat (2000 : BitVec 12) ≤ 16 ∨
      4079 ≤ BitVec.toNat (2000 : BitVec 12) then x18.head.badN + 1 else 0) < 3)) := by
  and_intros <;> decide +kernel
theorem wit_FuserAndThermalHead_3 :
    (domUp x19 9 = true ∧ x19.head.st ≠ HeadSt.fault ∧
      (¬↑x19.head.htmax.toNat < tableTemp x19.head.cur.tht (4095 - BitVec.toNat (4090 : BitVec 12))) ∧
      (3 ≤ if BitVec.toNat (4090 : BitVec 12) ≤ 16 ∨ 4079 ≤ BitVec.toNat (4090 : BitVec 12) then x19.head.badN + 1 else 0)) ∧
    (reach o0 Port.bar0 9 = true ∧ o0.head.st = HeadSt.off ∧ headGood o0 = true ∧ headLoad o0 = some (hc o0, 5, 3000) ∧ (∀ (i : Fin 64),
      tget (hc o0).mw i ≠ 0 ∧ BitVec.toNat (tget (hc o0).bw i) < (tget (hc o0).mw i).toNat)) ∧
    (reach o1 Port.bar0 9 = true ∧ o1.head.st = HeadSt.off ∧ headGood o1 = true ∧ headLoad o1 = some (hc o1, 5, 3000) ∧ (∃ (i : Fin 64),
      tget (hc o1).mw i = 0 ∨ (tget (hc o1).mw i).toNat ≤ BitVec.toNat (tget (hc o1).bw i))) ∧
    (reach x22 Port.bar0 9 = true ∧ x22.head.st = HeadSt.off ∧ headGood x22 = true ∧ headLoad x22 = none) ∧
    (reach (paged PlanSt.admitted (H HL)) Port.bar0 9 = true ∧ ((paged PlanSt.admitted (H HL)).head.st ≠ HeadSt.off ∨
      headGood (paged PlanSt.admitted (H HL)) = false)) := by
  and_intros <;> decide +kernel
end FuserAndThermalHead

namespace ScannerLinesBuffersAndCalibration
def sn (f : ScanE → ScanE) (s : State) : State := { s with scan := f s.scan }
def cfg (c : ScanCfg) : ScanCfg := { c with dummy := 2, segs := 2, segpix := 4, cdiv := 20, exp := 1, seqlen := 1, seq := 0, white := 60000, dark := 100 }
def SL : SLine := { d := 900, leds := 1, reading := false, couples := true }
def s0 : State := sn (fun x => { x with st := .ready, cur := cfg x.cur, reg := cfg x.reg, xp := true, line := some SL, curMode := { x.curMode with stepper := 3, out := 0, avg := 1, istep := 7, feed := 4 }, mode := { x.mode with feed := 1 }, bufLines := 2, bufLoc := 0x1000, bufLen := 4096 }) (modCue (fun q => { q with et := 950 }) up)
def x1 := (sn (fun x => { x with line := some { SL with couples := false } }) s0)
def x2 := { SL with couples := false }
def x3 := (sn (fun x => { x with line := some { SL with reading := true } }) s0)
def x4 := { SL with reading := true }
def RL : SLine := { SL with reading := true }
def r0 : State := sn (fun x => { x with line := some RL }) s0
def x5 := (sn (fun x => { x with line := some { RL with couples := false } }) s0)
def x6 := { RL with couples := false }
def x7 := (sn (fun x => { x with offWant := true, curMode := { x.curMode with dir := true } }) r0)
def bf : SBuf := { loc := 0x1000, len := 4096, seq := 5, lines := 0, bytes := 0 }
def w0 : State := sn (fun x => { x with q := [[1,2,3],[4]], bufs := [bf] }) s0
def x9 := (sn (fun x => { x with bufs := [{ bf with lines := 1, bytes := 30 }] }) w0)
def x10 := { bf with lines := 1, bytes := 30 }
def x11 := (sn (fun x => { x with bufLoc := 0x1001, line := none }) w0)
def p0 : State := sn (fun x => { x with st := .off, line := none }) w0
def x14 := (sn (fun x => { x with xp := false }) p0)
def four (n : Nat) : List (List (BitVec 16)) := [List.replicate 4 (BitVec.ofNat 16 n), List.replicate 4 (BitVec.ofNat 16 (n + 7))]
def c0 : State := sn (fun x => { x with st := .cal, line := none }) s0
theorem wit_ScannerLinesBuffersAndCalibration :
    (s0.scan.line = some SL ∧ SL.reading = false ∧ domUp s0 3 = true ∧ SL.d + 800 * s0.scan.cur.exp.toNat < 2 ^ 64 ∧ SL.couples = true) ∧
    (x1.scan.line = some x2 ∧ x2.reading = false ∧ x2.couples = false) ∧
    (x3.scan.line = some x4 ∧ x4.reading = true) ∧
    (up.scan.line = none) ∧
    (r0.scan.line = some RL ∧ RL.reading = true ∧ r0.scan.offWant = false ∧ domUp r0 3 = true ∧
      RL.d + 800 * r0.scan.cur.exp.toNat + (1 + BitVec.toNat r0.scan.cur.dummy + r0.scan.cur.segpix.toNat) * (2 * BitVec.toNat r0.scan.cur.cdiv) < 2 ^ 64 ∧ RL.couples = true) ∧
    (x5.scan.line = some x6 ∧ x6.reading = true ∧ x6.couples = false) ∧
    (x7.scan.line = some RL ∧ RL.reading = true ∧ x7.scan.offWant = true) ∧
    (s0.scan.line = some SL ∧ SL.reading = false) := by
  and_intros <;> decide +kernel
theorem wit_ScannerLinesBuffersAndCalibration_2 :
    ((domUp w0 10 = true ∧ w0.mem.ready = true ∧ w0.scan.curMode.out = 0) ∧ w0.scan.q = [[1, 2, 3], [4]] ∧ w0.scan.bufs = [bf] ∧
      (getFl w0 scanFl).down = false ∧ (¬max 1 w0.scan.bufLines.toNat ≤ bf.lines + 1)) ∧
    ((domUp x9 10 = true ∧ x9.mem.ready = true ∧ x9.scan.curMode.out = 0) ∧ x9.scan.q = [[1, 2, 3], [4]] ∧ x9.scan.bufs = [x10] ∧
      max 1 x9.scan.bufLines.toNat ≤ x10.lines + 1 ∧ (getFl x9 bufFl).down = false) ∧
    ((¬(domUp up 10 = true ∧ up.mem.ready = true ∧ up.scan.curMode.out = 0) ∨ up.scan.q = [] ∨ up.scan.bufs = [])) ∧
    (reach w0 Port.bar0 10 = true ∧ hasTally w0 bufFl = true ∧ (w0.scan.bufLoc.toNat % 64 = 0 ∧
      w0.scan.bufLoc.toNat + BitVec.toNat w0.scan.bufLen ≤ usableBytes w0 ∧ bufNeed w0.scan ≤ BitVec.toNat w0.scan.bufLen) ∧
      (w0.scan.st ≠ ScanSt.off ∨ scanGood w0 = false) ∧ w0.scan.line ≠ none ∧ (¬(w0.scan.st = ScanSt.ready ∧ w0.scan.line = none))) ∧
    (reach x11 Port.bar0 10 = true ∧ hasTally x11 bufFl = true ∧ (¬(x11.scan.bufLoc.toNat % 64 = 0 ∧
      x11.scan.bufLoc.toNat + BitVec.toNat x11.scan.bufLen ≤ usableBytes x11 ∧ bufNeed x11.scan ≤ BitVec.toNat x11.scan.bufLen)) ∧
      x11.scan.line = none ∧ (getFl x11 scanFl).down = false ∧ (getFl x11 bufFl).down = false ∧ (x11.scan.st = ScanSt.ready ∧ x11.scan.line = none)) ∧
    (reach (noT bufFl w0) Port.bar0 10 = true ∧ (¬hasTally (noT bufFl w0) bufFl = true)) ∧
    (reach p0 Port.bar0 10 = true ∧ p0.scan.st = ScanSt.off ∧ scanGood p0 = true ∧ scanLoad p0 = some (cfg w0.scan.reg) ∧
      (¬(10 * clampN 1 3 (cfg w0.scan.reg).segs.toNat ≤ BitVec.toNat (cfg w0.scan.reg).cdiv ∧
      clampN 1 3 (cfg w0.scan.reg).segs.toNat * (cfg w0.scan.reg).segpix.toNat ≤ 10240 ∧ (cfg w0.scan.reg).segpix.toNat % 4 = 0 ∧
      (p0.scan.mode.feed.toNat * if p0.scan.mode.avg = 0 then 1 else if p0.scan.mode.avg = 1 then 2 else 4) * 800 ≤ (BitVec.toNat (cfg w0.scan.reg).dummy + (cfg w0.scan.reg).segpix.toNat) * (2 * BitVec.toNat (cfg w0.scan.reg).cdiv)))) ∧
    (reach x14 Port.bar0 10 = true ∧ x14.scan.st = ScanSt.off ∧ scanGood x14 = true ∧ scanLoad x14 = none) := by
  and_intros <;> decide +kernel
theorem wit_ScannerLinesBuffersAndCalibration_3 :
    (c0.scan.st = ScanSt.cal ∧ c0.aon.hold = false ∧ (fun (k : Fin 3) => ↑k < clampN 1 3 c0.scan.cur.segs.toNat) 0 ∧
      (fun (k : Fin 3) => segSum c0.scan.cur.segpix.toNat (four 120) ↑k) 0 < (fun (k x : Fin 3) => segSum c0.scan.cur.segpix.toNat (if x = 0 then four 30000 else if x = 1 then four 35000 else four 20000) ↑k) 0 0 ∧ (¬(fun (k : Fin 3) => ↑k < clampN 1 3 c0.scan.cur.segs.toNat) 2)) ∧
    ((s0.scan.st ≠ ScanSt.cal ∨ s0.aon.hold = true)) := by
  and_intros <;> decide +kernel
end ScannerLinesBuffersAndCalibration

namespace NvWritesAndTheFaultLog
def n0 : State := nvUp (fun v => { v with queue := [.slotState 1 3, .usage (Vector.replicate 8 5), .autoOn true] }) up
def lgq (f : LogS → LogS) (s : State) : State := { s with lg := f s.lg }
def strm (k : Fin 4) (f : Stream → Stream) (s : State) : State := { s with nv := { s.nv with streams := tmod s.nv.streams k f } }
def l0 : State := lgq (fun l => { l with queue := [logEntry 1, logEntry 2] }) up
def l3 : State := { lgq (fun l => { l with mode := 2 }) l0 with aon := { l0.aon with pfwLow := true } }
def l4 : State := lgq (fun l => { l with xBusy := true, xRun := { dst := 0, first := 6, count := 1, stream := 1, mode := 0 } }) (strm 1 (fun x => { x with next := 3, nextSeq := 9, slots := [(3, ⟨6, []⟩)] }) l0)
def l5 : State := gotSt (exec .logRecordCommit l0)
def l6 : State := lgq (fun l => { l with rdBusy := true, rdStream := 1, rdSeq := 0 }) l5
def sl : LogSlot := (slotAt (tget l5.nv.streams 1) 0).getD ⟨0, []⟩
def x0 : State := lgq (fun l => { l with xDst := 0x1000, xFirst := 0 }) l5
def x4 := (lgq (fun l => { l with xBusy := true }) x0)
def y0 : State := gotSt (exec (.logExport .bar0 0x00010010) x0)
def y1 : State := gotSt (exec (.logExport .bar0 0x00010012) x0)
def x5 := (lgq (fun l => { l with xRes := some (0x47, 20) }) y1)
def y2 : State := noT logFl (noT aonFl y0)
theorem wit_NvWritesAndTheFaultLog :
    (n0.aon.por = false ∧ n0.nv.queue = [] ++ [NvWrite.slotState 1 3, NvWrite.usage (Vector.replicate 8 5), NvWrite.autoOn true] ∧
      ((fun (c : Nat) (w : NvWrite) => nvClass w = c ∧ ¬(c = 0 ∧ n0.aon.pfwLow = true)) 0 (NvWrite.slotState 1 3)) ∧ (∀ (v : NvWrite),
      v ∈ [] → ¬(fun (c : Nat) (w : NvWrite) => nvClass w = c ∧ ¬(c = 0 ∧ n0.aon.pfwLow = true)) 0 v) ∧ (∀ (v : NvWrite),
      v ∈ n0.nv.queue → ∀ (d : Nat), d < 0 → ¬(fun (c : Nat) (w : NvWrite) => nvClass w = c ∧ ¬(c = 0 ∧ n0.aon.pfwLow = true)) d v)) ∧
    (l0.lg.queue = [logEntry 1, logEntry 2] ∧ l0.aon.por = false ∧ nvPick l0 = none ∧ (¬(l0.lg.mode.getLsbD ↑(logEntry 1).stream = true ∧
      l0.aon.pfwLow = true)) ∧ exportCovers l0 (logEntry 1).stream (tget l0.nv.streams (logEntry 1).stream).next = false ∧ (∃ j : Fin 4,
      j ≠ (logEntry 1).stream) ∧ 3 ≠ (tget l0.nv.streams (logEntry 1).stream).next) ∧
    (l3.lg.queue = [logEntry 1, logEntry 2] ∧ l3.aon.por = false ∧ nvPick l3 = none ∧ (l3.lg.mode.getLsbD ↑(logEntry 1).stream = true ∧
      l3.aon.pfwLow = true)) ∧
    (l4.lg.queue = [logEntry 1, logEntry 2] ∧ l4.aon.por = false ∧ nvPick l4 = none ∧ (¬(l4.lg.mode.getLsbD ↑(logEntry 1).stream = true ∧
      l4.aon.pfwLow = true)) ∧ exportCovers l4 (logEntry 1).stream (tget l4.nv.streams (logEntry 1).stream).next = true) ∧
    ((n0.lg.queue = [] ∨ n0.aon.por = true ∨ (nvPick n0).isSome = true)) ∧
    (reach l0 Port.keeper 0 = true) ∧
    (l6.lg.rdBusy = true ∧ (∃ (x : LogSlot),
      (fun (x : LogSlot) => x ∈ List.map (fun (x : Nat × LogSlot) => x.snd) (tget l6.nv.streams (Fin.ofNat 4 l6.lg.rdStream.toNat)).slots ∧
      slotOk x = true ∧ BitVec.toNat l6.lg.rdSeq ≤ BitVec.toNat x.seq) x) ∧
      ((fun (x : LogSlot) => x ∈ List.map (fun (x : Nat × LogSlot) => x.snd) (tget l6.nv.streams (Fin.ofNat 4 l6.lg.rdStream.toNat)).slots ∧
      slotOk x = true ∧ BitVec.toNat l6.lg.rdSeq ≤ BitVec.toNat x.seq) sl)) ∧
    (l0.lg.rdBusy = false) := by
  and_intros <;> decide +kernel
theorem wit_NvWritesAndTheFaultLog_2 :
    (reach x0 Port.bar0 0 = true) ∧
    (reach x0 Port.keeper 0 = true) ∧
    (reach x4 Port.bar0 0 = true) ∧
    (y0.lg.xBusy = true ∧ y0.mem.ready = true ∧ y0.lg.xRun.mode = 0 ∧ hasTally y0 logFl = true ∧ y0.lg.latches = []) ∧
    ((y1.lg.xBusy = false ∨ y1.lg.xRun.mode ≠ 0 ∧ y1.lg.xRes = none)) ∧
    (x5.lg.xBusy = true ∧ x5.mem.ready = true ∧ x5.lg.xRun.mode ≠ 0 ∧ x5.lg.xRes = some (71, 20) ∧ 71 < 256 ∧ hasTally x5 logFl = true ∧ x5.lg.latches = []) ∧
    (y2.lg.xBusy = true ∧ y2.mem.ready = true ∧ y2.lg.xRun.mode = 0 ∧ y2.aon.latches = [] ∧ hasTally y2 aonFl = false) := by
  and_intros <;> decide +kernel
/-- An export that is accepted: one record, from the first, stream 1, to 0x1000; a Tamp one needs the Tamp units. -/
theorem wit_NvWritesAndTheFaultLog_export : x0.lg.xBusy = false ∧ domUp x0 2 = true ∧ x0.mem.ready = true ∧ domUp x0 4 = true ∧
    rangePresent (tget x0.nv.streams 1) x0.lg.xFirst 1 = true ∧ x0.lg.xDst.toNat % 64 = 0 ∧ x0.lg.xDst.toNat + 48 ≤ usableBytes x0 ∧
    rangePresent (tget x0.nv.streams 0) x0.lg.xFirst 2 = false ∧ up.nv.queue = [] := by
  and_intros <;> decide +kernel
/-- From R2 and R622: a write while an export runs changes what the fields read, not the export in progress. -/
theorem test_export_fields_while_busy : (gotSt (exec (.logExport .bar0 0x00020000) y0)).lg.xCount = 2 ∧
    (gotSt (exec (.logExport .bar0 0x00020000) y0)).lg.xRun = y0.lg.xRun ∧ (gotSt (exec (.logExport .bar0 0x00020000) y0)).lg.xErr = 3 := by
  and_intros <;> decide +kernel
end NvWritesAndTheFaultLog

namespace SkidPortsAndFrames
def prt (q : SkidPort) (f : PortS → PortS) (s : State) : State := { s with skid := { s.skid with port := tmod s.skid.port q f } }
def fr : Frame := .recoverDone 1
def rec1 : Rec := { kind := 2, epoch := 1, src := 64, status := 3, xb := 0, et := 9, body := List.replicate 16 7 }
def x2 := (prt 1 (fun p => { p with st := .train }) manager)
def a0 : State := prt 1 (fun p => { p with unacked := [fr, .ack] }) manager
def x3 := (prt 1 (fun p => { p with fails := 7 }) a0)
def x4 := (prt 1 (fun p => { p with st := .fault }) a0)
def stg (r : Rec) (s : State) : State := stage r .own false s
def recB : List Byte := List.replicate 32 1
def w1 : State := prt 0 (fun p => { p with unacked := [.record 2 recB, .ack, .record 2 recB] }) (stg rec1 (stg { rec1 with status := 4 } worker))
def x6 := (prt 1 (fun p => { p with st := .down }) a0)
def x7 := (prt 1 (fun p => { p with st := .train }) a0)
def x8 := { a0 with skid := { (prt 1 (fun p => { p with st := .train }) a0).skid with enum := .manager 5 } }
def x9 := { a0 with skid := { (prt 1 (fun p => { p with st := .train }) a0).skid with enum := .worker 0 2 7 1 } }
theorem wit_SkidPortsAndFrames :
    ((getPort manager 1).st = LinkSt.up ∧ hasTally manager (skidFl 1) = true ∧ (getPort manager 1).waiting = []) ∧
    ((getPort (noT (skidFl 1) manager) 1).st = LinkSt.up ∧ (hasTally (noT (skidFl 1) manager) (skidFl 1) = false ∨
      (getPort (noT (skidFl 1) manager) 1).waiting ≠ [])) ∧
    ((getPort x2 1).st ≠ LinkSt.up) ∧
    ((getPort a0 1).unacked = [fr, Frame.ack] ∧ portUp a0 1 = true ∧ (getFl a0 (skidFl 1)).down = false ∧ (1 = 1 ∨ ownRecord a0 fr = false) ∧
      (getPort a0 1).fails + 1 < 8 ∧ (domUp a0 11 = false ∨ (getPort a0 1).st ≠ LinkSt.fault)) ∧
    ((getPort x3 1).unacked = [fr, Frame.ack] ∧ portUp x3 1 = true ∧ 8 ≤ (getPort x3 1).fails + 1) ∧
    (((getPort manager 1).unacked = [] ∨ portUp manager 1 = false)) ∧
    (domUp x4 11 = true ∧ (getPort x4 1).st = LinkSt.fault ∧ (getFl x4 (skidFl 1)).down = false) ∧
    ((getPort w1 0).unacked = [Frame.record 2 recB, Frame.ack, Frame.record 2 recB] ∧ portUp w1 0 = true ∧ 0 = 0 ∧
      ownRecord w1 (Frame.record 2 recB) = true) := by
  and_intros <;> decide +kernel
theorem wit_SkidPortsAndFrames_2 :
    (domUp x6 11 = true ∧ (getPort x6 1).st = LinkSt.down ∧ (domUp x6 11 = false ∨ (getPort x6 1).st = LinkSt.down ∨
      (getPort x6 1).st = LinkSt.fault) ∧ (domUp x6 11 = false ∨ (getPort x6 1).st ≠ LinkSt.train)) ∧
    (domUp x7 11 = true ∧ ((getPort x7 1).st = LinkSt.train ∨ (getPort x7 1).st = LinkSt.up) ∧ (domUp x7 11 = false ∨
      (getPort x7 1).st ≠ LinkSt.down) ∧ (getPort x7 1).st = LinkSt.train ∧ (1 = 0 ∨ x7.skid.enum = EnumSt.idle)) ∧
    (domUp x8 11 = true ∧ (getPort x8 1).st = LinkSt.train ∧ 1 = 1 ∧ x8.skid.enum = EnumSt.manager 5) ∧
    (domUp x9 11 = true ∧ (getPort x9 1).st = LinkSt.train ∧ 1 = 1 ∧ x9.skid.enum = EnumSt.worker 0 2 7 1) := by
  and_intros <;> decide +kernel
/-- An acknowledged record of the worker's own, and a port that trains again, with nothing waiting. -/
def lostPort : State := prt 0 (fun p => { p with st := .fault }) w1
theorem wit_SkidPortsAndFrames_own : w1.host.waiting = [] ∧ (stagedRecs w1).length = 2 ∧ lostPort.host.waiting = [] ∧
    (getPort lostPort 0).st = .fault ∧ domUp lostPort 11 = true ∧ ((getPort lostPort 0).unacked.filter (ownRecord lostPort)).length = 2 := by
  and_intros <;> decide +kernel
/-- From R314 and R657: a discarded record that was sent keeps its place, so that the acknowledgement of its frame does not free the
sheet record behind it. -/
def w2 : State := prt 0 (fun p => { p with unacked := [.record 2 recB] }) (stg { rec1 with kind := 6 } (stg rec1 worker))
theorem test_discarded_record_keeps_its_place : (discardStaged 1 w2).host.staging.length = 2 ∧
    (gotSt (exec (.skidAckFrame 0) (discardStaged 1 w2))).host.staging.map (·.rcd.kind) = [6] := by
  and_intros <;> decide +kernel
end SkidPortsAndFrames

namespace CascadeEnumeration
def prt (q : SkidPort) (f : PortS → PortS) (s : State) : State := { s with skid := { s.skid with port := tmod s.skid.port q f } }
def sk (f : Skid → Skid) (s : State) : State := { s with skid := f s.skid }
def w1 : State := prt 1 (fun p => { p with st := .down }) worker
def wN : State := sk (fun k => { k with devnum := 0, chain := 0 }) worker
def wAr : State := chIs .running wN
def e1 : State := sk (fun k => { k with enum := .worker 5 2 9 4, chain := 1 }) w1
def m1 : State := sk (fun k => { k with enum := .manager 77, chain := 1, live := 6, workers := 2, dir := [64, 130, 200] }) { manager with host := { manager.host with wresFree := Vector.replicate 8 9 } }
def x6 := (sk (fun k => { k with gotEnum := true }) worker)
theorem wit_CascadeEnumeration :
    (reach manager Port.bar0 11 = true ∧ isManager manager = true) ∧
    (reach worker Port.bar0 11 = true ∧ isManager worker = false) ∧
    (0 = 0 ∧ portUp manager 0 = true ∧ isManager manager = true) ∧
    (0 = 0 ∧ portUp worker 0 = true ∧ isManager worker = false ∧ 1 ≤ BitVec.toNat (3 : BitVec 4) ∧ BitVec.toNat (3 : BitVec 4) < 8 ∧
      (¬((BitVec.toNat (3 : BitVec 4) ≠ devNum worker ∧ ∃ (c : Chan), (getCh worker c).st ≠ ChSt.disarmed) ∨ ¬((∀ (c : Chan),
      (getCh worker c).st = ChSt.disarmed) ∧ ∀ (k : Trk), (getTrk worker k).en = false) ∧
      ms < max (BitVec.toNat worker.cue.et) (BitVec.toNat (9 : DWord)) - min (BitVec.toNat worker.cue.et) (BitVec.toNat (9 : DWord)))) ∧
      portUp worker 1 = true) ∧
    (0 = 0 ∧ portUp w1 0 = true ∧ isManager w1 = false ∧ 1 ≤ BitVec.toNat (3 : BitVec 4) ∧ BitVec.toNat (3 : BitVec 4) < 8 ∧
      (¬((BitVec.toNat (3 : BitVec 4) ≠ devNum w1 ∧ ∃ (c : Chan), (getCh w1 c).st ≠ ChSt.disarmed) ∨ ¬((∀ (c : Chan),
      (getCh w1 c).st = ChSt.disarmed) ∧ ∀ (k : Trk), (getTrk w1 k).en = false) ∧
      ms < max (BitVec.toNat w1.cue.et) (BitVec.toNat (9 : DWord)) - min (BitVec.toNat w1.cue.et) (BitVec.toNat (9 : DWord)))) ∧
      portUp w1 1 = false) ∧
    (0 = 0 ∧ portUp wN 0 = true ∧ isManager wN = false ∧ BitVec.toNat (8 : BitVec 4) = 8) ∧
    (0 = 0 ∧ portUp wN 0 = true ∧ isManager wN = false ∧ (BitVec.toNat (9 : BitVec 4) = 0 ∨ 8 < BitVec.toNat (9 : BitVec 4))) ∧
    ((portUp wN 1 = false ∨ 1 ≠ 0)) := by
  and_intros <;> decide +kernel
theorem wit_CascadeEnumeration_2 :
    (0 = 0 ∧ portUp wAr 0 = true ∧ isManager wAr = false ∧ 1 ≤ BitVec.toNat (2 : BitVec 4) ∧ BitVec.toNat (2 : BitVec 4) < 8 ∧
      ((BitVec.toNat (2 : BitVec 4) ≠ devNum wAr ∧ ∃ (c : Chan), (getCh wAr c).st ≠ ChSt.disarmed) ∨ ¬((∀ (c : Chan),
      (getCh wAr c).st = ChSt.disarmed) ∧ ∀ (k : Trk), (getTrk wAr k).en = false) ∧
      ms < max (BitVec.toNat wAr.cue.et) (BitVec.toNat (9 : DWord)) - min (BitVec.toNat wAr.cue.et) (BitVec.toNat (9 : DWord)))) ∧
    (e1.skid.enum = EnumSt.worker 5 2 9 4) ∧
    (portUp m1 1 = true ∧ isManager m1 = true ∧ m1.skid.enum = EnumSt.manager 77 ∧ (0 = 0 ∨ 0 = 3) ∧ (∃ d : Fin 8, True) ∧
      m1.boot.ldieDone = false ∧ (3 = 0 ∨ 3 = 3)) ∧
    (portUp m1 1 = true ∧ isManager m1 = true ∧ m1.skid.enum = EnumSt.manager 77 ∧ (¬(2 = 0 ∨ 2 = 3))) ∧
    (portUp worker 1 = true ∧ isManager worker = false ∧ worker.skid.chain = 2) ∧
    ((domUp worker 11 = true ∧ isManager worker = false ∧ worker.skid.gotEnum = false ∧ worker.skid.noMgr = false) ∧ hasTally worker logFl = true ∧
      worker.lg.latches = []) ∧
    ((¬(domUp x6 11 = true ∧ isManager x6 = false ∧ x6.skid.gotEnum = false ∧ x6.skid.noMgr = false))) := by
  and_intros <;> decide +kernel
theorem wit_CascadeEnumeration_idle : portUp manager 1 = true ∧ isManager manager = true ∧ manager.skid.enum = .idle ∧ worker.skid.enum = .idle := by
  decide +kernel
end CascadeEnumeration

namespace CascadeHeartbeatTimeAndLoss
def sk (f : Skid → Skid) (s : State) : State := { s with skid := f s.skid }
def m1 : State := sk (fun k => { k with live := 6, workers := 2, dir := [64, 130, 200], hb := 1, echo := Vector.replicate 8 1 }) (chIs .running { manager with cue := { manager.cue with et := 20000 }, host := { manager.host with wresFree := Vector.replicate 8 9 } })
def w1 : State := sk (fun k => { k with hb := 4, hbMiss := 1, tsync := true }) { worker with cue := { worker.cue with et := 20000 } }
def x3 := (sk (fun k => { k with hbMiss := 2 }) w1)
def x4 := (sk (fun k => { k with hbMiss := 3 }) w1)
def m2 : State := sk (fun k => { k with echoMiss := Vector.replicate 8 2, winBusy := true, winDev := 2 }) { m1 with aon := { m1.aon with waitWorkers := 0xff, hold := true } }
def p1 : State := { m1 with aon := { m1.aon with livePart := true, cPart := true, hold := true } }
theorem wit_CascadeHeartbeatTimeAndLoss :
    (domUp m1 11 = true ∧ isManager m1 = true ∧ 8000 * (BitVec.toNat m1.cue.et / 8000 + 1) < 2 ^ 64) ∧
    ((domUp worker 11 = false ∨ isManager worker = false)) ∧
    ((inChain w1 = true ∧ portUp w1 0 = true)) ∧
    ((¬(inChain m1 = true ∧ portUp m1 0 = true))) ∧
    ((portUp m1 1 = true ∧ isManager m1 = true ∧ m1.skid.live.getLsbD ↑1 = true) ∧ tget m1.skid.echo 1 + tget m1.skid.echoMiss 1 < 2) ∧
    ((¬((portUp m1 1 = true ∧ isManager m1 = true ∧ m1.skid.live.getLsbD ↑1 = true) ∧ tget m1.skid.echo 1 + tget m1.skid.echoMiss 1 < 1))) ∧
    (inChain w1 = true ∧ w1.skid.hbMiss + 1 ≤ 3 ∧ 8000 * (w1.skid.hb + (w1.skid.hbMiss + 1)) + 2400 < 2 ^ 64 ∧ w1.skid.hbMiss + 1 < 3) ∧
    (inChain x3 = true ∧ x3.skid.hbMiss + 1 ≤ 3 ∧ x3.skid.hbMiss + 1 = 3) := by
  and_intros <;> decide +kernel
theorem wit_CascadeHeartbeatTimeAndLoss_2 :
    ((inChain x4 = false ∨ 3 < x4.skid.hbMiss + 1)) ∧
    ((domUp m1 11 = true ∧ isManager m1 = true ∧ m1.skid.live.getLsbD ↑1 = true) ∧
      8000 * (tget m1.skid.echo 1 + (tget m1.skid.echoMiss 1 + 1)) + 4800 < 2 ^ 64 ∧ tget m1.skid.echoMiss 1 + 1 < 3) ∧
    ((¬(domUp m1 11 = true ∧ isManager m1 = true ∧ m1.skid.live.getLsbD ↑3 = true))) ∧
    ((domUp m2 11 = true ∧ isManager m2 = true ∧ m2.skid.live.getLsbD ↑1 = true) ∧ 3 ≤ tget m2.skid.echoMiss 1 + 1 ∧ ((fun (e : Nat) => ↑1 ≤ e ∧
      m2.skid.live.getLsbD e = true) ↑2) ∧ m2.skid.winBusy = true ∧ ((fun (e : Nat) => ↑1 ≤ e ∧
      m2.skid.live.getLsbD e = true) m2.skid.winDev.toNat) ∧ m2.aon.hold = true ∧ m2.aon.form = Form.none ∧ m2.boot.op = none ∧ m2.aon.sheet = .idle) ∧
    ((w1.skid.offOkFrom = none ∨ inChain w1 = false ∨ w1.skid.tsync = true)) ∧
    ((p1.aon.livePart = true ∧ domUp p1 11 = true ∧ p1.skid.chain = 2 ∧ p1.skid.partOk = true ∧ (isManager p1 = true ∨ p1.skid.tsync = true))) ∧
    ((¬(m1.aon.livePart = true ∧ domUp m1 11 = true ∧ m1.skid.chain = 2 ∧ m1.skid.partOk = true ∧ (isManager m1 = true ∨
      m1.skid.tsync = true)))) := by
  and_intros <;> decide +kernel
/-- From R661: a host operation on the images of a lost worker ends with its partner; one over JRP goes on. -/
def copying (jrp : Bool) (s : State) : State := modBoot (fun b => { b with op := some { jrp := jrp, dev := 2, part := 2, nextBoot := false, slot := 0, got := [], err := 0, blk := 0 } }) s
theorem wit_CascadeHeartbeatTimeAndLoss_image : (copying false m2).boot.op.isSome = true ∧ m2.skid.live.getLsbD 2 = true ∧
    (gotSt (exec (.echoMiss 1) (copying false m2))).boot.op = none ∧ (gotSt (exec (.heartbeatMiss) (copying false x3))).boot.op = none := by
  and_intros <;> decide +kernel
end CascadeHeartbeatTimeAndLoss

namespace CascadeCommandsRecordsSignalsAndPower
def sk (f : Skid → Skid) (s : State) : State := { s with skid := f s.skid }
def e1 (opc ch : Nat) : List Byte := ent opc 0 3 ch 77 0
def w : State := { worker with epoch := 3, host := { worker.host with regs := { worker.host.regs with needrec := false } }, boot := { worker.boot with ldieDone := true } }
def rb (k st xb src : Nat) : List Byte := [BitVec.ofNat 8 k, 0, 3, 0] ++ leBytes 2 src ++ [BitVec.ofNat 8 st, BitVec.ofNat 8 xb] ++ List.replicate 24 9
def m : State := sk (fun k => { k with dir := [69, 70] }) { manager with host := { manager.host with wresFree := Vector.replicate 8 9 } }
def sr : State := sk (fun k => { k with chain := 2 }) (chIs .running worker)
def x2 := (sk (fun k => { k with winDev := 1, winOff := 0x123, winData := 7 }) m)
def x3 := (sk (fun k => { k with winDev := 2 }) m)
def x4 := (sk (fun k => { k with winBusy := true }) m)
def x5 := (sk (fun k => { k with winBusy := true }) m)
def x7 := { m with aon := { m.aon with waitWorkers := 2 } }
def fm : State := { m with aon := { m.aon with waitWorkers := 2, form := .orderly (.aborts 70) [] 1 } }
theorem wit_CascadeCommandsRecordsSignalsAndPower :
    (portUp manager 1 = true) ∧
    ((inChain w = true ∧ portUp w 0 = true ∧ (e1 99 (128 + 9)).length = 64 ∧ eDev (e1 99 (128 + 9)) = devNum w ∧ ∀ (w : Waiting),
      w ∈ CascadeCommandsRecordsSignalsAndPower.w.host.waiting → w.by_ ≠ Waiter.decoder) ∧ refusal w (e1 99 (128 + 9)) ≠ 0 ∧
      (getFl w stgFl).down = false) ∧
    ((¬(inChain w = true ∧ portUp w 0 = true ∧ (e1 0 (64 + 9)).length = 64 ∧ eDev (e1 0 (64 + 9)) = devNum w ∧ ∀ (w : Waiting),
      w ∈ CascadeCommandsRecordsSignalsAndPower.w.host.waiting → w.by_ ≠ Waiter.decoder) ∨ runCmd (e1 0 (64 + 9)) true w = none)) ∧
    ((isManager m = true ∧ portUp m 1 = true ∧ m.skid.live.getLsbD ↑1 = true ∧ (rb 1 0 1 69).length = 32 ∧ (getFl m stgFl).down = false)) ∧
    ((¬(isManager m = true ∧ portUp m 1 = true ∧ m.skid.live.getLsbD ↑2 = true ∧ (rb 6 0 0 70).length = 32 ∧ (getFl m stgFl).down = false))) ∧
    ((portUp sr (if BitVec.toNat (5 : BitVec 9) / 64 < devNum sr then 0 else 1) = true ∧ sr.skid.chain = 2 ∧
      BitVec.toNat (137 : BitVec 9) / 64 = devNum sr) ∧ (getCh sr (Fin.ofNat 64 (BitVec.toNat (137 : BitVec 9)))).st = ChSt.running ∧
      (hasTally sr (evFl (Fin.ofNat 64 (BitVec.toNat (137 : BitVec 9)))) = true ∧
      (getCh sr (Fin.ofNat 64 (BitVec.toNat (137 : BitVec 9)))).evLatch = [] ∧
      (getCh sr (Fin.ofNat 64 (BitVec.toNat (137 : BitVec 9)))).sigWait = [])) ∧
    ((portUp sr (if BitVec.toNat (205 : BitVec 9) / 64 < devNum sr then 0 else 1) = true ∧ sr.skid.chain = 2 ∧
      BitVec.toNat (138 : BitVec 9) / 64 = devNum sr) ∧ (getCh sr (Fin.ofNat 64 (BitVec.toNat (138 : BitVec 9)))).st ≠ ChSt.running) ∧
    ((portUp (noT (evFl 9) sr) (if BitVec.toNat (205 : BitVec 9) / 64 < devNum (noT (evFl 9) sr) then 0 else 1) = true ∧
      (noT (evFl 9) sr).skid.chain = 2 ∧ BitVec.toNat (137 : BitVec 9) / 64 = devNum (noT (evFl 9) sr)) ∧
      (getCh (noT (evFl 9) sr) (Fin.ofNat 64 (BitVec.toNat (137 : BitVec 9)))).st = ChSt.running ∧
      (¬(hasTally (noT (evFl 9) sr) (evFl (Fin.ofNat 64 (BitVec.toNat (137 : BitVec 9)))) = true ∧
      (getCh (noT (evFl 9) sr) (Fin.ofNat 64 (BitVec.toNat (137 : BitVec 9)))).evLatch = [] ∧
      (getCh (noT (evFl 9) sr) (Fin.ofNat 64 (BitVec.toNat (137 : BitVec 9)))).sigWait = []))) := by
  and_intros <;> decide +kernel
theorem wit_CascadeCommandsRecordsSignalsAndPower_2 :
    ((¬(portUp sr (if BitVec.toNat (205 : BitVec 9) / 64 < devNum sr then 0 else 1) = true ∧ sr.skid.chain = 2 ∧
      BitVec.toNat (9 : BitVec 9) / 64 = devNum sr))) ∧
    ((isManager m = true ∧ portUp m 1 = true ∧ m.skid.live.getLsbD ↑1 = true ∧ ∀ (b : List Byte), some [1, 2, 3] = some b → b.length = 3) ∧
      true = true ∧ some [1, 2, 3] = some [1, 2, 3]) ∧
    ((isManager m = true ∧ portUp m 1 = true ∧ m.skid.live.getLsbD ↑1 = true ∧ ∀ (b : List Byte), some [1, 2, 3] = some b → b.length = 3) ∧
      false = false) ∧
    ((isManager m = true ∧ portUp m 1 = true ∧ m.skid.live.getLsbD ↑1 = true ∧ ∀ (b : List Byte), none = some b → b.length = 3) ∧ true = true) ∧
    ((¬(isManager m = true ∧ portUp m 1 = true ∧ m.skid.live.getLsbD ↑1 = true ∧ ∀ (b : List Byte), some [1, 2, 3] = some b → b.length = 4))) ∧
    (reach x2 Port.bar0 11 = true ∧ x2.skid.winBusy = false ∧ isManager x2 = true ∧ x2.skid.live.getLsbD x2.skid.winDev.toNat = true) ∧
    (reach x3 Port.bar0 11 = true ∧ x3.skid.winBusy = false ∧ isManager x3 = true ∧ x3.skid.live.getLsbD x3.skid.winDev.toNat = false) ∧
    (reach x4 Port.bar0 11 = true ∧ x4.skid.winBusy = true) := by
  and_intros <;> decide +kernel
theorem wit_CascadeCommandsRecordsSignalsAndPower_3 :
    (reach worker Port.bar0 11 = true ∧ worker.skid.winBusy = false ∧ isManager worker = false) ∧
    (inChain worker = true ∧ portUp worker 0 = true) ∧
    (isManager x5 = true ∧ portUp x5 1 = true ∧ x5.skid.winBusy = true) ∧
    (inChain (paged PlanSt.admitted (ring worker)) = true ∧ portUp (paged PlanSt.admitted (ring worker)) 0 = true ∧
      (paged PlanSt.admitted (ring worker)).host.recov = none ∧ (∃ r : Ring, True) ∧ (aPage PlanSt.aborting 1).isAdm = true) ∧
    (isManager x7 = true ∧ portUp x7 1 = true ∧ x7.aon.form = Form.none) ∧
    (inChain worker = true ∧ portUp worker 0 = true) ∧
    (formPhase fm.aon.form = some (Phase.aborts 70, []) ∧ fm.aon.waitWorkers ≠ 0) := by
  and_intros <;> decide +kernel
theorem wit_CascadeCommandsRecordsSignalsAndPower_further :
    (inChain worker = true ∧ portUp worker 0 = true ∧ (e1 0 (192 + 9)).length = 64 ∧ devNum worker < eDev (e1 0 (192 + 9))) ∧
    (inChain worker = true ∧ portUp worker 1 = true ∧ devNum worker < (3 : Fin 8).1 ∧ (rb 6 0 0 70).length = 32) ∧
    (inChain sr = true ∧ portUp sr (if BitVec.toNat (205 : BitVec 9) / 64 < devNum sr then 0 else 1) = true ∧
      BitVec.toNat (9 : BitVec 9) / 64 ≠ devNum sr ∧ (if BitVec.toNat (9 : BitVec 9) / 64 < devNum sr then 0 else 1 : SkidPort) ≠
        (if BitVec.toNat (205 : BitVec 9) / 64 < devNum sr then 0 else 1)) ∧
    ((if BitVec.toNat (197 : BitVec 9) / 64 < devNum sr then 0 else 1 : SkidPort) =
        (if BitVec.toNat (205 : BitVec 9) / 64 < devNum sr then 0 else 1) ∧ BitVec.toNat (197 : BitVec 9) / 64 ≠ devNum sr) ∧
    inChain m = false ∧ isManager m = true := by
  and_intros <;> decide +kernel
theorem wit_CascadeCommandsRecordsSignalsAndPower_noForm : formPhase m.aon.form = none := by decide +kernel
end CascadeCommandsRecordsSignalsAndPower

/-! ## Worked cases of the spec, each one function or one step -/

/-- Payload of worked case 10.1. -/
def wc10 : List Byte := [0x72, 0x48, 0xE6, 0x80, 0xC8, 0xBF, 0x84, 0x08, 0x69, 0x10, 0x11, 0xA1, 0x7B, 0x04, 0x00]
/-- 10, worked case 10.1: 40 bytes, newest first. -/
theorem test_tamp_decodes : decodePayload 1 40 65536 [] wc10 = ((List.replicate 10 [0x57, 0x5A, 0x59, 0x58]).flatten, none) := by
  decide +kernel
/-- 10, R368: one used symbol has length 1; kraft sum 1/4 with one symbol is no code. -/
theorem test_tamp_single_symbol : codeOk [0, 1] = true ∧ codeOk [0, 2] = false ∧ codeOk [1, 2] = false ∧ codeOk [1, 1] = true := by decide
/-- 07, worked case 7.1. -/
theorem test_cue_words :
    decodeCue 0x4C420038 = some (.ldm 1 0 (.imm 0x38)) ∧ decodeCue 0xD8000012 = some (.admitPl false 1 2) ∧
    decodeCue 0x29437E00 = some (.movSt 5 126 0) ∧ decodeCue 0x70116000 = some (.atth 0 false 4 5 512) ∧
    decodeCue 0xA0030260 = some (.move false 3 2 6) ∧ decodeCue 0xB8540000 = some (.fire false 84) ∧
    decodeCue 0x151FFFFC = some (.loop 4 0x1FFFFC) ∧ decodeCue 0xD8000120 = some (.done 2) := by decide +kernel
/-- 07, R250: sB of a Basic RAMP and sA of a Basic LOOPON are unused. -/
theorem test_unused_fields : decodeCue 0xAC000001 = none ∧ decodeCue 0xB0000010 = none ∧ decodeCue 0x00000001 = none := by decide +kernel
/-- 09, worked case 9.1, bands 0, 4 and 6. -/
theorem test_bandwidth_limit : [0, 4, 6].map (fun b : BitVec 3 => bwLimit { up with
    mem := { up.mem with dens := 2, rate := 4 }, therm := { up.therm with band := b } }) = [52555, 47755, 38305] := by decide +kernel
/-- 02, R51: in AON power-on reset SAFE_n is pulled low, RS_EN is low, a GPIO is high impedance, and nothing that acts is on; without
VAON nothing is driven. -/
theorem test_pins_in_reset : pinSafe ⟨true, true⟩ State.reset = .low ∧ pinRailEn ⟨true, true⟩ State.reset 3 = .low ∧
    pinGpio ⟨true, true⟩ State.reset 7 = .hiZ ∧ outputsOff ⟨true, true⟩ State.reset = true ∧ pinSafe ⟨false, true⟩ State.reset = .hiZ := by
  and_intros <;> decide +kernel
/-- 04, worked case 4.1: targets of X and Y, and the first tick of the guard window of Y. -/
theorem test_tracker_targets :
    let k : Tracker := { getTrk up 3 with guard := 64, index := 1000, p256 := 80000 * 256, anchor256 := 0 }
    let z : Tracker := { k with index := 1002, p256 := 79400 * 256, anchor256 := 207200 * 256 }
    trkTarget k 1001 600 = 126875 ∧ trkTarget k 1002 256 = 180000 ∧ trkTarget z 1002 256 = 227050 ∧
      guardTick z (trkTarget z 1002 256) = 222088 := by decide +kernel
/-- 12, worked case 12.1: the joint speed is 1,000 FS/s. -/
theorem test_joint_speed :
    let g : Segment := { target := 51200, home := false, homeSrc := 0, vmax16 := 32000, acc := 40000, dec := 40000, irun := 0, ihold := 0
                         vt := none, chan := 2, pc := 0, enteredAt := 0 }
    jointWith { getStep up 3 with q := [{ g with target := 102400, vmax16 := 16000 }] } g 1 = some (speedOf 16000) := by decide +kernel
/-- 13, worked case 13.1: samples 37 and 38 of the trail check. -/
theorem test_trail_check :
    let x : LoopS := { getLoop up 0 with m := 300, g := { (getLoop up 0).g with trailPct := 20 } }
    trailFails { x with sp := 256 * 370 } = false ∧ trailFails { x with sp := 256 * 380 } = true := by decide +kernel
/-- 14, worked case 14.1: HEAD_TLMAX, and the groups strobed with ROT 3. -/
theorem test_head_line :
    let c : HeadCfg := { HeadCfg.reset with mw := tset HeadCfg.reset.mw 23 120, bw := tset HeadCfg.reset.bw 23 30 }
    headTlmax c = 1334544 ∧ (List.range 4).map (fun j => (groupMask c 3 j).toNat) = [24, 96, 129, 6] := by decide +kernel
/-- 15, worked case 15.1: TR, and the bytes of a raw 16-bit line. -/
theorem test_scan_line :
    let x : ScanE := { up.scan with cur := { up.scan.cur with cdiv := 30, segs := 3, segpix := 3400, dummy := 16 } }
    scanTr x = 204960 ∧ lineBytes x = 20400 := by decide +kernel
/-- 17, worked case 17.1: X at 109.00 degrees, band 7 at 112.50, and band 6 kept at 107.75. -/
theorem test_thermal_response :
    throttleExt up true 436 = 40 ∧ nextBand up.therm.tb 450 6 = 7 ∧ nextBand up.therm.tb 431 7 = 6 ∧ nextBand up.therm.tb 399 6 = 6 := by
  decide +kernel

end Sys2Proof.Tests
end

section
/-!
The scope of 00: LOCK (R8), BAR0 accesses that are not aligned or do not reach the controller (R4, R682), and blocks that are
off or offsets that no register occupies (R6, R11).
-/

namespace Sys2Proof.Machine

variable {s t : State}

/-! ## LOCK -/

/-- One tick, or a command other than the two resets that clear LOCK, keeps LOCK set. -/
theorem step_keeps_lock (hlock : s.lock = true) (hpor : s.pending.head? ≠ some .aonPorAssert)
    (hmrst : s.pending.head? ≠ some .mrstAssert) (hstep : step s = .next t) : t.lock = true := by
  unfold step at hstep
  split at hstep
  next =>
    cases hstep
    exact timeTo_lock.trans hlock
  next c rest hpending =>
    rw [hpending, List.head?_cons] at hpor hmrst
    obtain ⟨_, _, _, _, _, keepsLock, _⟩ :=
      exec_keeps c { s with pending := rest } (fun e => hpor (e ▸ rfl)) (fun e => hmrst (e ▸ rfl)) t hstep
    exact keepsLock hlock

/-! ## The commands for accesses from outside -/

theorem exec_regWrite (p : Port) (off : Nat) (v : Word) :
    exec (.regWrite p off v) s = .next (whenS (portReach s p off) (writeReg off v) s) := rfl

theorem exec_rcFieldRead (p : Port) (off : Nat) : exec (.rcFieldRead p off) s =
    .next (whenS (portReach s p off) (fun s => emit (readRegEff off s) (.readData (readReg s off))) s) := rfl

theorem exec_bar0MisalignedAccess (write : Bool) (off size : Nat) (v : DWord) : exec (.bar0MisalignedAccess write off size v) s =
    .next (if bar0Reach s && !write && !aligned32 off size then emit s (.readData 0) else s) := rfl

theorem exec_glbLockSet : exec .glbLockSet s = .next (whenS (bar0Reach s) (fun s => { s with lock := true }) s) := rfl

/-- An Engine Time read that does not reach PD3 changes nothing. -/
theorem exec_etLoRead_of_not_reach (h : reach s .bar0 3 = false) : exec .etLoRead s = .next s := by
  change execEtLoRead s = _
  rw [execEtLoRead, h, whenS_false]

@[simp] theorem portReach_bar0 (off : Nat) : portReach s .bar0 off = bar0Reach s := rfl

theorem reach_bar0_eq_false (h : bar0Reach s = false) (d : Dom) : reach s .bar0 d = false := by simp [reach, h]

theorem aligned32_eq_false {off size : Nat} (h : ¬ (size = 4 ∧ off % 4 = 0)) : aligned32 off size = false := by
  simpa [aligned32] using h

theorem emit_changesOnly_out (o : Output) : ChangesOnly [.out] s (emit s o) := by
  intro p hp
  cases p with
  | out => exact absurd (List.mem_singleton_self _) hp
  | _ => rfl

/-! ## Offsets that read 0 and ignore writes -/

/-- A register access at the offset reads 0 and changes nothing, read or write. -/
structure DeadOffset (s : State) (off : Nat) : Prop where
  write : ∀ v : Word, writeReg off v s = s
  read : readReg s off = 0
  readEff : readRegEff off s = s

theorem deadOffset_of_blockOff {off : Nat} (h : blockOn s off = false) : DeadOffset s off where
  write v := by simp [writeReg, h]
  read := by simp [readReg, h]
  readEff := by simp [readRegEff, h]

/-- No register of GLB lies from 0x200 on. -/
theorem writeGlb_of_unoccupied {o : Nat} (h : 0x200 ≤ o) (v : Word) : writeGlb o v s = s := by
  unfold writeGlb
  split
  case h_4 => rfl
  all_goals omega

theorem readGlb_of_unoccupied {o : Nat} (h : 0x200 ≤ o) : readGlb s o = 0 := by
  unfold readGlb
  split
  case h_7 => rfl
  all_goals omega

theorem deadOffset_of_glbUnoccupied {off : Nat} (h : 0x200 ≤ off) (hglb : off < 0x10000) : DeadOffset s off := by
  have hblock : off / 65536 = 0 := Nat.div_eq_of_lt hglb
  have hoff : off % 65536 = off := Nat.mod_eq_of_lt hglb
  exact {
    write := fun v => by simp [writeReg, hblock, hoff, writeBlock, writeGlb_of_unoccupied h]
    read := by simp [readReg, hblock, hoff, readBlock, readGlb_of_unoccupied h]
    readEff := by simp [readRegEff, hblock, readEff] }

/-- What the two commands do at such an offset. -/
theorem DeadOffset.exec_access {p : Port} {off : Nat} (h : DeadOffset s off) (hreach : portReach s p off = true) (v : Word) :
    exec (.regWrite p off v) s = .next s ∧
      ∃ t, exec (.rcFieldRead p off) s = .next t ∧ t.out = s.out ++ [.readData 0] ∧ ChangesOnly [.out] s t := by
  refine ⟨?_, emit s (.readData 0), ?_, emit_out _, emit_changesOnly_out _⟩
  · rw [exec_regWrite, hreach, whenS_true, h.write]
  · rw [exec_rcFieldRead, hreach, whenS_true, h.read, h.readEff]

/-! ## The block map -/

theorem domUp_zero (h : s.aon.por = false) : domUp s 0 = true := by simp [domUp, h]

theorem blockDom_pd0 {b : Nat} (h : b = 0 ∨ b = 1 ∨ b = 14) : blockDom b = some 0 := by
  obtain rfl | rfl | rfl := h <;> rfl

/-- GLB, AON and BOOT are held by PD0. -/
theorem blockOn_of_pd0 {off : Nat} (hpor : s.aon.por = false) (h : off / 65536 = 0 ∨ off / 65536 = 1 ∨ off / 65536 = 14) :
    blockOn s off = true := by
  rw [blockOn, blockDom_pd0 h]
  exact domUp_zero hpor

theorem blockDom_beyond_map {b : Nat} (h : 15 ≤ b) : blockDom b = none := by
  unfold blockDom
  split
  case h_16 => rfl
  all_goals omega

end Sys2Proof.Machine

open Sys2Proof.Machine

/-- Settles O8, from what every command but the two resets keeps (`exec_keeps`). -/
theorem lockStaysUntilPowerOnResetOrMrst : Obligations.LockStaysUntilPowerOnResetOrMrst :=
  fun _ _ => step_keeps_lock

/-- Settles O10. -/
theorem bar0AccessesNotAlignedOrNotReaching : Obligations.Bar0AccessesNotAlignedOrNotReaching := by
  refine ⟨fun s off size v hreach halign => ⟨?_, emit s (.readData 0), ?_, emit_out _, emit_changesOnly_out _⟩,
    fun s off size v w wr hreach => ⟨?_, ?_, ?_, ?_, ?_⟩⟩
  · simp [exec_bar0MisalignedAccess]
  · simp [exec_bar0MisalignedAccess, hreach, aligned32_eq_false halign]
  · simp [exec_bar0MisalignedAccess, hreach]
  · simp [exec_regWrite, hreach]
  · simp [exec_rcFieldRead, hreach]
  · simp [exec_glbLockSet, hreach]
  · exact exec_etLoRead_of_not_reach (reach_bar0_eq_false hreach 3)

/-- Settles O11. -/
theorem blocksThatAreOffReadZeroAndIgnoreWrites : Obligations.BlocksThatAreOffReadZeroAndIgnoreWrites := by
  exact ⟨fun s p off v hreach hoff => (deadOffset_of_blockOff hoff).exec_access hreach v, fun s off => blockOn_of_pd0,
    fun off h => blockDom_beyond_map ((Nat.le_div_iff_mul_le (by decide)).2 h), by and_intros <;> rfl,
    fun s off v hreach h hglb _ => (deadOffset_of_glbUnoccupied h hglb).exec_access (p := .bar0) hreach v⟩
end
